-- ==== Sys2Proof/Word.lean ====
section
/-! DEFINITION. The word types of the machine and the sparse tables that hold its sets of like things.
Bytes, 32-bit register words and 64-bit words (00 R5, R6; 03 R40). -/

namespace Sys2Proof

/-- One byte of memory. -/
abbrev Byte := BitVec 8

/-- A frame word, one lane's share of a thread register (03 R40). -/
abbrev Word := BitVec 32

/-- A 64-bit value: a front-end register, an instruction word, an address (04 R79). -/
abbrev DWord := BitVec 64

/-- A sparse table: what differs from a default, by rising key. Memory, register files, cores, queues. -/
abbrev Tbl (α : Type) := List (Nat × α)

end Sys2Proof
end

