-- ==== Sys2Proof/Syntax.lean ====
section
/-! DEFINITION. The instructions and the device events: one constructor of `Instr` for each row of spec/opcode_table.json.
Words carry their operand fields (04 R69 to R78, 05 R90); events carry what the outside world supplies. -/

namespace Sys2Proof

/-- The engine classes of a clause (04 R64). -/
inductive Cls | lane | front | matrix
  deriving DecidableEq, Repr

/-- A guard or a Format B condition: a predicate number and a negate bit (04 R70, R75). -/
structure Guard where
  p : BitVec 7
  n : Bool
  deriving DecidableEq, Repr

/-- Operand-cache hints (03 R46 Table 1). -/
inductive Hint | none | last | keep | byp
  deriving DecidableEq, Repr

/-- Rounding codes (04 R81 Table 11). -/
inductive Rm | rne | rtz | rup | rdn | rna | sr
  deriving DecidableEq, Repr

/-- Overflow policies (06 R106 Table 2). -/
inductive Ov | sat | inf | nan | trap
  deriving DecidableEq, Repr

/-- Floating-point types of Format A (04 R71 Table 3). -/
inductive FType | f32 | f64 | f16x2 | bf16x2
  deriving DecidableEq, Repr

/-- Format codes 0 to 14 (04 R81 Table 12). -/
inductive Fmt | f32 | f64 | f16 | bf16 | e4m3 | e5m2 | nq4 | i8 | u8 | i16 | i32 | u32 | i64 | e8m0 | sc8
  deriving DecidableEq, Repr

/-- Access sizes (04 R73 Table 5). -/
inductive Size | u8 | u16 | b32 | b64 | b128 | s8 | s16
  deriving DecidableEq, Repr

/-- Scopes (04 R73 Table 6, 09 R160). -/
inductive Scope | blk | core | die | pkg | sys
  deriving DecidableEq, Repr

/-- Orders (04 R73 Table 4). -/
inductive Order | relaxed | acq | rel | acqRel
  deriving DecidableEq, Repr

/-- Cache policies (04 R73 Table 7, 08 R142). -/
inductive Policy | dflt | byp | strm
  deriving DecidableEq, Repr

/-- Atomic operations (04 R74 Table 8). -/
inductive AtomOp | add | minS | minU | maxS | maxU | and | or | xor | xchg | cas | faddF32 | faddBf16x2 | inc
  deriving DecidableEq, Repr

/-- Integer comparisons (21 R338 Table 9). -/
inductive ICmp | eq | ne | ltS | leS | gtS | geS | ltU | leU | gtU | geU
  deriving DecidableEq, Repr

/-- Floating-point comparisons (21 R328 Table 5). -/
inductive FCmp | eq | ne | lt | le | gt | ge | num | nan
  deriving DecidableEq, Repr

/-- Operations of REDUX and SCAN (23 Table 4). -/
inductive RedOp | add | minS | minU | maxS | maxU | and | or | xor | fadd | fmin | fmax
  deriving DecidableEq, Repr

/-- Modes of SHFL (23 R383) and of VOTE (23 R394). -/
inductive ShflMode | at | back | ahead | swap
  deriving DecidableEq, Repr
inductive VoteMode | every | some | mask | count
  deriving DecidableEq, Repr

/-- The element formats of PK8 and UPK8 (22 Table 4). -/
inductive Fmt8 | e4m3 | e5m2 | i8 | u8
  deriving DecidableEq, Repr

/-- The modes of QSCL (23 Table 1). -/
inductive QMode | e8m0E4m3 | e8m0E5m2 | sc8
  deriving DecidableEq, Repr

/-- The memory paths of FENCEP (08 R140). -/
inductive Path | ls | const | tile | ewr
  deriving DecidableEq, Repr

/-- The swizzle of an engine command (08 R144 Table 4). -/
inductive Swz | none | c16 | c32
  deriving DecidableEq, Repr

/-- The kinds of MSIG and MWAIT (07 R134 Table 3). -/
inductive SigKind | bcb | ring | bar
  deriving DecidableEq, Repr

/-- The functions of the special-function unit (06 R113 Table 5). -/
inductive SfuOp | rcp | rsq | exp2 | log2 | sin | cos | tanh
  deriving DecidableEq, Repr

/-- Format A with d and a. -/
structure A2 where
  d : BitVec 8
  a : BitVec 8
  g : Guard
  hd : Hint
  ha : Hint
  deriving DecidableEq, Repr

/-- Format A with d, a and b. -/
structure A3 where
  d : BitVec 8
  a : BitVec 8
  b : BitVec 8
  g : Guard
  hd : Hint
  ha : Hint
  hb : Hint
  deriving DecidableEq, Repr

/-- Format A with d, a, b and c. -/
structure A4 where
  d : BitVec 8
  a : BitVec 8
  b : BitVec 8
  c : BitVec 8
  g : Guard
  hd : Hint
  ha : Hint
  hb : Hint
  hc : Hint
  deriving DecidableEq, Repr

/-- Format A with a predicate destination d and sources a and b (ISET, FSET). -/
structure ASet where
  d : BitVec 8
  a : BitVec 8
  b : BitVec 8
  g : Guard
  ha : Hint
  hb : Hint
  deriving DecidableEq, Repr

/-- The floating-point modifier byte (04 R71 Table 3). -/
structure FMod where
  t : FType
  rm : Rm
  na : Bool
  nc : Bool
  ftz : Bool
  deriving DecidableEq, Repr

/-- Format M (04 R73). -/
structure MemF where
  t : BitVec 8
  a : BitVec 8
  g : Guard
  off : BitVec 18
  order : Order
  size : Size
  scope : Scope
  ga : Bool
  pol : Policy
  sb : BitVec 3
  deriving DecidableEq, Repr

/-- Format T (04 R74). -/
structure AtomF where
  d : BitVec 8
  a : BitVec 8
  b : BitVec 8
  c : BitVec 8
  g : Guard
  op : AtomOp
  size : Size
  scope : Scope
  ga : Bool
  order : Order
  sb : BitVec 3
  deriving DecidableEq, Repr

/-- An engine command: the quad base, imm16 and the mode byte (08 R144 Table 4). -/
structure CmdF where
  a : BitVec 8
  id : BitVec 16
  s2g : Bool
  ring : Bool
  swz : Swz
  pol : Policy
  ga : Bool
  deriving DecidableEq, Repr

/-- MMUL and MMULB (07 R123 Table 2). -/
structure MulF where
  fa : Fmt
  fb : Fmt
  id : BitVec 8
  ma : BitVec 4
  mb : BitVec 4
  n : BitVec 16
  rps : BitVec 8
  rel : Bool
  deriving DecidableEq, Repr

/-- A party of a core: a warp by its slot, the warp in the landing slot (08 R157), the front end or the
matrix stream of a block by its block slot. -/
inductive Party
  | warp (slot : Nat)
  | landing
  | front (blk : Nat)
  | matrix (blk : Nat)
  deriving DecidableEq, Repr

/-- A party of the package: its core, numbered 112 × die + core (01 R10), and the party. -/
structure Who where
  core : Nat
  party : Party
  deriving DecidableEq, Repr

/-- Where an uncorrectable soft error strikes (12 R241, 07 R133): of the pool, a frame word, a word of a frame header, a scratch word or a word
of L1; an operand-cache word (counted with the pool); a sector of L2 or HBM4E; an accumulator word, or a row of an array macro. -/
inductive EccSite
  | frame (w : Who) (reg lane : Nat)
  | header (w : Who) (lane word : Nat)
  | l1 (core word : Nat)
  | cache (w : Who) (reg lane : Nat)
  | scratch (core blk word : Nat)
  | l2 (sector : Nat)
  | hbm (sector : Nat)
  | acc (core addr : Nat)
  | array (core kq nq : Nat)
  deriving DecidableEq, Repr

/-- What an SPDM request asks for (13 R253). -/
inductive SpdmKind | identity | measurements | attestation (nonce : List Byte) | report (f : Nat)
  deriving DecidableEq, Repr

/-- What a PLDM request asks for (13 R253): a sensor reading of a die, or a firmware image to install. -/
inductive PldmKind | monitor (die sensor : Nat) | firmware (image : List Byte)
  deriving DecidableEq, Repr

/-- Tuinak's vendor-defined MCTP message (13 R253): read or write a register of 11 R213 on a die (and cluster), write RRESET, or
read the emergency log. -/
inductive Vendor
  | read (id : BitVec 16) (core : Nat)
  | write (id : BitVec 16) (core : Nat) (v : BitVec 32)
  | rreset (v : BitVec 32)
  | readLog
  | writeLog (time : BitVec 64) (regions : List (Nat × Bool)) (usable : Bool) (unsaved : List Nat) (complete : Option (BitVec 64))
  deriving DecidableEq, Repr

/-- A resource of a function's BARs as a host read names it (13 Table 1): word i of RSTDONE, INGCNT of window w, byte offset `off` of queue q's
window or of window w's aperture. -/
inductive WinRes
  | fresume | fqbase | fqsize | fqhead | fqtail | fqdrop
  | rstdone (i : Nat)
  | ingcnt (w : Nat)
  | queue (q off : Nat)
  | ingest (w off : Nat)
  deriving DecidableEq, Repr

/-- A request of the host through a function (13 R243, R245): a posted write to queue q's window, a read, a write of a BAR register or of an
MSI-X table entry, and the assignment of a selective IDE stream to the function. What a write carries goes with it. -/
inductive Tlp
  | post (q : Nat)
  | read (r : WinRes)
  | bar (b : Nat)
  | msix (vec : Nat)
  | ideStream (k : Nat)
  deriving DecidableEq, Repr

/-- How a register is written that the register window shows (13 R243): by system software on the device, or by the host through function
f, with the selective IDE stream that carries the request. -/
inductive Via
  | soft
  | host (f : Nat) (stream : Option Nat)
  deriving DecidableEq, Repr

/-- A write of a register of n bits, and how it is made. -/
structure RegWrite (n : Nat) where
  v : BitVec n
  via : Via
  deriving DecidableEq, Repr

/-- What the other end of a Yeline port tells with a flit (13 R251): how many flits it has newly accepted, and whether it asks for the rest again. -/
structure FlitReply where
  acked : Nat
  again : Bool
  deriving DecidableEq, Repr

/-- A key that is loaded into a port (13 R252). -/
structure PortKey where
  port : Nat
  key : BitVec 256
  deriving DecidableEq, Repr

/-- Every row of spec/opcode_table.json. -/
inductive Instr
  -- control (05 Table 1)
  | nop (g : Guard)
  | bra (g : Guard) (off : BitVec 32)
  | brx (a : BitVec 8) (g : Guard)
  | call (l : BitVec 8) (g : Guard) (off : BitVec 32)
  | callx (l a : BitVec 8) (g : Guard)
  | ret (a : BitVec 8) (g : Guard)
  | yield (g : Guard)
  | exit (g : Guard)
  | trap (g : Guard) (imm : BitVec 32)
  | bkpt (g : Guard) (imm : BitVec 32)
  -- integer (05 Table 2)
  | iadd (o : A3)
  | isub (o : A3)
  | imul (o : A3)
  | imulh (s : Bool) (o : A3)
  | imad (o : A4)
  | idiv (s : Bool) (o : A3)
  | irem (s : Bool) (o : A3)
  | imin (s : Bool) (o : A3)
  | imax (s : Bool) (o : A3)
  | iabs (o : A2)
  | iset (cmp : ICmp) (o : ASet)
  | sel (o : A3) (c : BitVec 8)
  | lea (o : A3) (sh : BitVec 6)
  | mov (o : A2)
  | movi (d : BitVec 8) (g : Guard) (imm : BitVec 32)
  | x2p (d a : BitVec 8) (g : Guard) (ha : Hint)
  -- logic and bits (05 Table 3)
  | and (o : A3)
  | or (o : A3)
  | xor (o : A3)
  | andn (o : A3)
  | lop3 (o : A4) (tab : BitVec 8)
  | shl (o : A3)
  | shr (o : A3)
  | sar (o : A3)
  | rot (o : A3)
  | clz (o : A2)
  | popc (o : A2)
  | brev (o : A2)
  | bfx (s : Bool) (o : A3)
  | bfi (o : A4)
  | plop (d a b c : BitVec 8) (g : Guard) (tab : BitVec 8)
  | p2x (d a : BitVec 8) (g : Guard) (hd : Hint)
  -- floating point (05 Table 4)
  | fadd (m : FMod) (o : A3)
  | fsub (m : FMod) (o : A3)
  | fmul (m : FMod) (o : A3)
  | ffma (m : FMod) (o : A4)
  | fmin (t : FType) (o : A3)
  | fmax (t : FType) (o : A3)
  | fset (t : FType) (cmp : FCmp) (na : Bool) (o : ASet)
  | fclass (t : FType) (o : A2)
  | fscale (m : FMod) (o : A3)
  | frnd (m : FMod) (o : A2)
  | fdiv (m : FMod) (o : A3)
  -- special functions and conversion (05 Table 5)
  | frcp (ftz : Bool) (o : A2)
  | frsq (ftz : Bool) (o : A2)
  | fsqrt (m : FMod) (o : A2)
  | fexp2 (ftz : Bool) (o : A2)
  | flog2 (ftz : Bool) (o : A2)
  | fsin (ftz : Bool) (o : A2)
  | fcos (ftz : Bool) (o : A2)
  | ftanh (ftz : Bool) (o : A2)
  | cvt (src dst : Fmt) (rm : Rm) (ov : Ov) (o : A2)
  | pk8 (f : Fmt8) (rm : Rm) (ov : Ov) (o : A3)
  | upk8 (f : Fmt8) (o : A3)
  | pk4 (o : A3)
  | upk4 (o : A3)
  | qscl (m : QMode) (o : A3)
  | scac (o : A4)
  -- cross-lane (05 Table 6)
  | shfl (m : ShflMode) (b64 : Bool) (seg : BitVec 3) (o : A3)
  | vote (m : VoteMode) (d a : BitVec 8) (g : Guard) (hd : Hint)
  | redux (op : RedOp) (o : A2)
  | scan (op : RedOp) (o : A2)
  | matchLanes (b64 : Bool) (o : A2)
  -- memory (05 Table 7)
  | ld (o : MemF)
  | lds (o : MemF)
  | ldc (o : MemF)
  | st (o : MemF)
  | sts (o : MemF)
  | atom (o : AtomF)
  | atoms (o : AtomF)
  | red (o : AtomF)
  | stmc (o : MemF)
  | pref (a : BitVec 8) (g : Guard) (off : BitVec 18) (pol : Policy)
  | disc (t a : BitVec 8) (g : Guard)
  | fence (order : Order) (scope : Scope) (ga : Bool) (g : Guard)
  | fencep (w r : Path) (g : Guard)
  | claim (t a : BitVec 8) (g : Guard) (sb : BitVec 3)
  | migr (a : BitVec 8)
  | migrHome
  -- synchronisation (05 Table 8)
  | barw (id : BitVec 16) (b : BitVec 8)
  | bara (id : BitVec 16) (b : BitVec 8)
  | bcbinit (a : BitVec 8)
  | bcbexp (a b : BitVec 8)
  | bcbarv (a : BitVec 8)
  | bcbwait (a b : BitVec 8)
  | bcbtry (a b : BitVec 8)
  | ringinit (id : BitVec 16) (a : BitVec 8)
  | ringacqFill (id : BitVec 16) (b : BitVec 8)
  | ringacqFree (id : BitVec 16) (b : BitVec 8)
  | ringrelFill (id : BitVec 16)
  | ringrelFree (id : BitVec 16)
  | gbar (id : BitVec 16) (scope : Scope)
  | dqpop (d : BitVec 8) (hd : Hint) (g : Guard)
  | rolechk
  -- engines and pool (05 Table 9)
  | cpy (o : CmdF)
  | gth (o : CmdF)
  | sct (o : CmdF)
  | rsend (a : BitVec 8) (id : BitVec 16) (pol : Policy) (ga : Bool)
  | rget (a : BitVec 8) (id : BitVec 16) (pol : Policy)
  | ratom (a : BitVec 8) (id : BitVec 16) (op : AtomOp) (b64 : Bool)
  | ldimg (a : BitVec 8) (id : BitVec 16)
  | fgrow (n : BitVec 32)
  | ftrim (n : BitVec 32)
  | sgrow (d : BitVec 8) (k : BitVec 22)
  | sgrowSwz (d : BitVec 8) (k : BitVec 22)
  | strim (k : BitVec 22)
  | ocwb (g : Guard)
  -- front end only (05 Table 10)
  | dqpush (a : BitVec 8) (g : Guard)
  | mstart
  | mstop
  | enq (a : BitVec 8) (id : BitVec 16)
  -- matrix stream only (05 Table 11)
  | mldb (fb : Fmt) (id : BitVec 8) (ma mb : BitVec 4) (slot : Bool)
  | mmul (o : MulF)
  | mmulb (o : MulF)
  | mscale (id : BitVec 8) (ma mb : BitVec 4)
  | mzero (ma mb : BitVec 4)
  | mdrain (fa : Fmt) (id : BitVec 8) (ma mb : BitVec 4) (rm : Rm) (ov : Ov)
  | msig (k : SigKind) (id : BitVec 8) (ma : BitVec 4)
  | mwait (k : SigKind) (id : BitVec 8) (ma : BitVec 4)
  | mloop (ma : BitVec 4) (off : BitVec 32)
  | mset (ma : BitVec 4) (imm : BitVec 32)
  | mend
  -- system (05 Table 12)
  | sread (d : BitVec 8) (g : Guard) (id idx : BitVec 16)
  | swrite (a : BitVec 8) (g : Guard) (id idx : BitVec 16)
  | timeRef (d : BitVec 8) (g : Guard)
  | timeCyc (d : BitVec 8) (g : Guard)
  | eretReplay
  | eretResume
  | tlbinv (a : BitVec 8) (g : Guard) (scope : Scope) (asid : BitVec 16)
  | tlbinvAsid (g : Guard) (scope : Scope) (asid : BitVec 16)
  | tlbinvAll (g : Guard) (scope : Scope)
  | probe (d a : BitVec 8) (g : Guard)
  | probeAs (d a : BitVec 8) (g : Guard) (asid : BitVec 16)
  | wsave (a : BitVec 8) (g : Guard) (slot : BitVec 6)
  | wsaveFrame (a : BitVec 8) (g : Guard) (slot : BitVec 6)
  | wload (a : BitVec 8) (g : Guard) (slot : BitVec 6)
  | wloadFrame (a : BitVec 8) (g : Guard) (slot : BitVec 6)
  -- EVENTS of the device (95_what_each_step_holds.md). A package-wide event has no party of its own.
  | packageReset
  | bringUpLogRead
  /-- a request through function f, with the selective IDE stream that carries it: a post to a queue window (10 R189), or another request
  that the host interface serves (13 R243, R245) -/
  | hostPost (f : Nat) (stream : Option Nat) (t : Tlp) (data : List Byte)
  /-- requester writes the bytes at aperture offset `off` of function f's window w (13 R248) -/
  | ingestWrite (f w off req : Nat) (stream : Option Nat) (data : List Byte)
  | dispatch
  | waitctrRead (q : Nat)
  | blockEnd (core blk : Nat)
  | roleFlagWindow (core blk : Nat)
  | ringCycle (die : Nat)
  | rotationStart (die : Nat)
  | holdEnter (core : Nat)
  | wideRequestPayment (core : Nat)
  | matrixStepStart (core : Nat)
  | droopDetect (die cluster : Nat)
  | droopWindowStart (die cluster : Nat)
  | droopWindowEnd (die cluster : Nat)
  /-- the 20 sensor readings of the die at the poll (11 R216) -/
  | thermalPoll (die : Nat) (temps : List Nat)
  | analogTrip (die sensor : Nat)
  | loanGrant (die : Nat)
  | loanTermEnd (die : Nat)
  | loanEndNotice (die : Nat)
  | sidebandFail
  | sidebandReturn
  | growGrant (core : Nat)
  | growDeadline (core : Nat)
  | copyRequestStart (core : Nat)
  /-- the i-th request in flight of the core's copy engine completes: they complete in any order (08 R146) -/
  | copyRequestComplete (core i : Nat)
  | requestRetranslate (core : Nat)
  | storeLeaveQueue (w : Who)
  /-- the i-th message that waits on the bridge link (09 R170, R171, R175) -/
  | ackArrival (i : Nat)
  | ackTimeout (i : Nat)
  | watchdogFire (region : Nat)
  | regionResetDone (fdom : Nat)
  /-- die 2, 3: the bridge link has failed to retrain, as die 0, die 1 goes on (12 R240) -/
  | dieFatalError (die : Nat)
  /-- unit 0 pool and operand cache, 1 L2, 2 HBM4E, 3 array and accumulator (12 R242) -/
  | eccCorrected (die : Nat) (unit : Nat)
  | eccUncorrectable (die : Nat) (site : EccSite)
  /-- a flit's 256 bytes as received (13 R251), with what the other end tells -/
  | flitReceive (port : Nat) (flit : List Byte) (reply : FlitReply)
  | keySwitch (k : PortKey)
  | keySlotExhausted (port : Nat)
  | lockInterface (f : Nat)
  | startInterface (f : Nat)
  | stopInterface (f : Nat)
  | spdmRequest (kind : SpdmKind)
  | pldmRequest (kind : PldmKind)
  | vendorMctpMessage (m : Vendor)
  | rcbsync (v : BitVec 32)
  | qsync (v : BitVec 32)
  | rreset (v : BitVec 32)
  | ingsync (v : BitVec 32)
  | fresumeReplay (w : RegWrite 32)
  | fresumeResume (w : RegWrite 32)
  | fresumeKill (w : RegWrite 32)
  | tokcapWrite (die : Nat) (v : BitVec 32)
  | droopcntClear (die cluster : Nat)
  | statcClear (region cls : Nat)
  | fqheadWrite (w : RegWrite 32)
  | savebaseWrite (v : BitVec 64)
  | savenWrite (v : BitVec 32)
  | classmapWrite (v : BitVec 64)
  /-- the lane values written to SRSEED of a warp (06 R105) -/
  | srseedWrite (w : Who) (vals : List (Nat × BitVec 32))
  /-- a register that has no behaviour of its own takes a value (23 R384): id, index, die, cluster, core, value -/
  | registerWrite (id idx : BitVec 16) (core : Nat) (w : RegWrite 64)
  | unassignedOpcode (w : BitVec 64)
  /-- the i-th result in flight of the party arrives (03 R53) -/
  | resultArrival (w : Who) (i : Nat)
  | efStoreHomeArrival (i : Nat)
  | yelinePortRetrainFail (port : Nat)
  | hostInterfaceReset (up : Bool)
  deriving DecidableEq, Repr

end Sys2Proof
end

