-- ==== Sys2Proof/Config.lean ====
section
/-! DEFINITION. What an implementation fixes and what the spec leaves free. Every name here is opaque: nothing can prove a value of it
(log entries 4 and 6). -/

namespace Sys2Proof.Config

/-- Free values: where the spec leaves a value open, the machine takes `free n k`, with n a counter of the state that advances and k
what tells apart the values one step takes (entry 4). A choice between an old and a new value takes bit 0. -/
opaque free : Nat → Nat → BitVec 64

/-- The nanoseconds by which TIME.ref advances at a step (10 R201; 08 R404 fixes no latency): `elapse n` with n the counter (entry 4). -/
opaque elapse : Nat → Nat

/-- What the special-function unit delivers where 06 R113 gives a bound and no value. The machine uses it only where it lies within
the bound (entry 6). -/
opaque sfu : SfuOp → BitVec 32 → BitVec 32

/-- After how many switch points at which it stood parked a gang runs although another is earlier: the spec fixes no number (02 R37, R38;
entry 8). -/
opaque gangTurns : Nat

/-- The number by which the port at the other end of a Yeline port's link names itself in its nonces (13 R251; entry 15). -/
opaque linkPort : Nat → Nat

/-- The device's private attestation key, and the secret number of a signature (13 R253; entry 19). -/
opaque deviceKey : Nat
opaque signNonce : Nat → Nat

/-- ISAVER at the first stepping: STEP 0, MAJOR 1, MINOR 0 (00 R8). -/
def isaver : BitVec 32 := 0x00000100

end Sys2Proof.Config
end

