-- ==== Sys2Proof/Machine/Tbl.lean ====
section
/-! DEFINITION. Tables keyed by numbers, kept as lists in one canonical form: keys strictly rising, no entry equal to the default that
an unlisted key reads as. Equal tables are equal lists. Memory is such a table of bytes. -/

namespace Sys2Proof.Machine

/-- What the table holds at a key, or the default. -/
def Tbl.get {α : Type} (d : α) (t : Tbl α) (k : Nat) : α :=
  match t with
  | [] => d
  | (k', v) :: t => if k' = k then v else Tbl.get d t k

/-- Insert an entry before the first larger key. -/
def Tbl.insert {α : Type} (t : Tbl α) (k : Nat) (v : α) : Tbl α :=
  match t with
  | [] => [(k, v)]
  | (k', v') :: t => if k < k' then (k, v) :: (k', v') :: t else (k', v') :: Tbl.insert t k v

/-- Leave out the entry of a key. -/
def Tbl.del {α : Type} (t : Tbl α) (k : Nat) : Tbl α :=
  match t with
  | [] => []
  | (k', v) :: t => if k' = k then Tbl.del t k else (k', v) :: Tbl.del t k

/-- Write a key: writing the default leaves no entry. -/
def Tbl.set {α : Type} [DecidableEq α] (d : α) (t : Tbl α) (k : Nat) (v : α) : Tbl α :=
  if v = d then Tbl.del t k else Tbl.insert (Tbl.del t k) k v

/-- Keys strictly rising from a lower bound, no entry equal to the default. -/
def Tbl.wfFrom {α : Type} [DecidableEq α] (d : α) (lo : Nat) : Tbl α → Bool
  | [] => true
  | (k, v) :: t => decide (lo ≤ k) && decide (v ≠ d) && Tbl.wfFrom d (k + 1) t

/-- The canonical form. -/
def Tbl.wf {α : Type} [DecidableEq α] (d : α) (t : Tbl α) : Bool := Tbl.wfFrom d 0 t

/-- Change the entry of a key. -/
def Tbl.upd {α : Type} [DecidableEq α] (d : α) (t : Tbl α) (k : Nat) (f : α → α) : Tbl α := Tbl.set d t k (f (Tbl.get d t k))

/-- Write the values of a list at rising keys from k. -/
def Tbl.setList {α : Type} [DecidableEq α] (d : α) (t : Tbl α) (k : Nat) : List α → Tbl α
  | [] => t
  | v :: vs => Tbl.setList d (Tbl.set d t k v) (k + 1) vs

/-- The n values from key k. -/
def Tbl.getList {α : Type} (d : α) (t : Tbl α) (k n : Nat) : List α := (List.range n).map fun i => Tbl.get d t (k + i)

/-- Leave out every entry whose key satisfies a test. -/
def Tbl.drop {α : Type} (t : Tbl α) (p : Nat → Bool) : Tbl α := t.filter fun e => !p e.1

end Sys2Proof.Machine
end

