-- ==== Sys2Proof/Machine/State.lean ====
section
/-! DEFINITION. The state of the package: every register, memory, queue and record the spec names, as plain data. Tables hold only what
differs from a default. Counters and indexes are numbers; register contents are bit vectors. INVENTORY.md lists the rules. -/

namespace Sys2Proof.Machine

/-- The cause codes of 12 Table 1. -/
inductive Cause
  | notPresent | readDeny | writeDeny | execDeny | atomDeny | privDeny | remote | migrating | align | rangeLock | poison | ackLost
  | mcPerm | illegal | engine | pair | retEmpty | divDepth | frameGrow | scrGrow | frameBound | barOver | barErr | tokenCap | fpTrap
  | statLimit | swTrap | bkpt | migScope | peerLost | ringErr | roleErr
  deriving DecidableEq, Repr

/-- The statistics classes of 06 Table 6. -/
inductive Ev | ovf | unf | nan | sat | clamp | sruse
  deriving DecidableEq, Repr

/-- A deferred path of a slice (02 R32). -/
structure Split where
  pc : DWord
  mask : BitVec 4
  depth : Nat
  deriving DecidableEq, Repr

/-- An arrival already made by a waiting word: at a named barrier or at a card barrier (20 R294, 21 R329), and the phase it joined. -/
structure Arrival where
  card : Bool
  id : Nat
  phase : Nat
  deriving DecidableEq, Repr

/-- A slice's sequencer (02 R31 to R33): the split stack holds its top entry first. -/
structure Slice where
  pc : DWord
  depth : Nat
  mask : BitVec 4
  stack : List Split
  arr : Option Arrival
  deriving DecidableEq, Repr

/-- An operand-cache entry (03 R44). `back` is, for a dirty entry, the frame's 32 words before the writes it holds. -/
structure OcEntry where
  name : Nat
  dirty : Bool
  pin : Bool
  stamp : Nat
  back : List Word
  deriving DecidableEq, Repr

/-- A result in flight of a variable-latency word (03 R52, R53): its scoreboard (0: none), its destination registers with their
hint, and the values by register key. -/
structure Result where
  sb : Nat
  dst : List Nat
  hint : Hint
  vals : List (Nat × DWord)
  /-- the address space, base and length of a CLAIM under way (08 R156) -/
  claim : Option (Nat × Nat × Nat)
  deriving DecidableEq, Repr

/-- An entry of a store queue (09 R164): scratch or global (physical) address, the bytes, or a read-modify-write for RED. -/
structure StoreEnt where
  scratch : Bool
  addr : Nat
  /-- the virtual address, for the record of a lost store (09 R176) -/
  va : Nat
  bytes : List Byte
  rmw : Option (AtomOp × DWord)
  /-- the home die of a global address -/
  home : Nat
  ga : Bool
  /-- the replica group of an STMC with G = 1 (09 R170); 0: none -/
  group : Nat
  sent : Bool
  acked : Bool
  /-- a lost GA entry keeps its place until it is reported (09 R176) -/
  lost : Bool
  sb : Nat
  /-- a release, with its scope (09 R163) -/
  rel : Option Scope
  /-- it leaves no copy in L1: a `.byp` store, or one to a page that is not cached there (08 R142) -/
  byp : Bool
  /-- performed at its L2 ahead of older entries, behind which it leaves (09 R164, R166) -/
  done : Bool
  /-- its place in the party's program order -/
  age : Nat
  deriving DecidableEq, Repr

/-- A lost store of a party (09 R176): its line, whether it was a GA store, and its place in program order. -/
structure LostStore where
  line : Nat
  ga : Bool
  age : Nat
  deriving DecidableEq, Repr

/-- A party's store queue, oldest first, and its lost stores. -/
structure StoreQueue where
  ents : List StoreEnt
  lost : List LostStore
  deriving DecidableEq, Repr

/-- The clause in force: the line's address, its header word (04 R64, R66), and the physical address to which the line was translated at
arrival (08 R402). -/
structure Clause where
  line : DWord
  hdr : DWord
  phys : Nat
  deriving DecidableEq, Repr

/-- What the device keeps of a trap (12 R227, R228): the record, the trapping word, the word after it, the log entry of a logged
fault, and the range of a CLAIM that system software re-homes (12 R229). -/
structure TrapInfo where
  cause : Cause
  record : BitVec 512
  pc : DWord
  next : DWord
  log : Option Nat
  claim : Option (Nat × Nat × Nat)
  deriving DecidableEq, Repr

/-- The state recorded at entry to handler level (12 R227). -/
structure HandlerSave where
  slices : List Slice
  gang : BitVec 8
  clause : Option Clause
  info : TrapInfo
  deriving DecidableEq, Repr

/-- The scoreboards, results in flight and stores of a warp or a front end. -/
structure Flight where
  /-- sb1 to sb6 by number -/
  sb : Tbl Nat
  results : List Result
  sq : StoreQueue
  /-- fixed waits of the next word: a logged instruction without a scoreboard (08 R154) -/
  waitLog : Option Nat
  /-- the release at `.pkg` or wider that waits for its own store to be acknowledged: its address (09 R170, R171, R176) -/
  relAt : Option DWord
  /-- the store that waits for slots of the full queue, or the RED of `.fadd` that waits to be performed: its address (09 R164, 23 R372) -/
  entAt : Option DWord
  /-- the events of that RED so far, each with its lane (06 R115) -/
  evs : List (Nat × Ev)
  deriving DecidableEq, Repr

/-- A warp (02, 03). Registers are keyed 32 × register + lane, predicates 32 × predicate + lane. -/
structure Warp where
  blk : Nat
  wid : Nat
  /-- F (03 R40) -/
  frame : Nat
  regs : Tbl Word
  preds : Tbl Bool
  /-- what each frame word held before the last write to its register (03 R47), by register key -/
  prev : Tbl Word
  /-- poisoned frame words, and poisoned words of resident operand-cache entries, by register key (12 R241) -/
  bad : Tbl Bool
  ocBad : Tbl Bool
  /-- poisoned words of the frame headers, 16 × lane + word (02 R33, 12 R241) -/
  hdrBad : Tbl Bool
  oc : List OcEntry
  slices : List Slice
  /-- the most entries that have stood in the frame headers of a slice's threads (02 R33) -/
  headers : Tbl Nat
  gang : BitVec 8
  /-- the switch points at which each slice's gang stood parked since it last ran (02 R38) -/
  waits : Tbl Nat
  /-- the running gang stands where ERET or FRESUME has put it, at a word that has not issued since (12 R227) -/
  resumed : Bool
  alive : BitVec 32
  clause : Option Clause
  flight : Flight
  /-- SRSEED of lanes 0 to 31 -/
  srseed : List Word
  mctab : Word
  role : Nat
  /-- a pending role change: the code of the new role (02 R30) -/
  flag : Option Nat
  dqPos : Nat
  /-- the slices that are parked in DQPOP (02 R27, R30, R37) -/
  popping : BitVec 8
  handler : Option HandlerSave
  /-- FREC0 to FREC7 -/
  frec : BitVec 512
  park : Option TrapInfo
  /-- the core and slot of origin of a migrated warp (08 R157) -/
  origin : Option (Nat × Nat)
  /-- a warp that is away leaves this mark in its origin slot: the landing core -/
  away : Option Nat
  paid : Bool
  /-- STATLIMIT of the first word of the pair that is issuing: its address, class and lanes (06 R118) -/
  due : Option (DWord × Nat × BitVec 32)
  deriving DecidableEq, Repr

/-- A front end (02 R25): s registers are 64 bits. -/
structure Front where
  pc : DWord
  depth : Nat
  s : Tbl DWord
  q : Tbl Bool
  clause : Option Clause
  flight : Flight
  arr : Option Arrival
  park : Option TrapInfo
  ended : Bool
  deriving DecidableEq, Repr

/-- The engine's row position on a ring (07 R126): the slot it stands in (none: the next slot to be taken), the row, and the taken
slots that hold a B tile and carry no rows (07 R124). -/
structure RowPos where
  slot : Option Nat
  row : Nat
  tiles : List Nat
  deriving DecidableEq, Repr

/-- The B tile (07 R125): its format, its elements' bytes in column order, and the macros with a parity error (07 R133). -/
structure Tile where
  fb : Fmt
  bytes : Tbl Byte
  bad : List (Nat × Nat)
  deriving DecidableEq, Repr

/-- A matrix stream (07 R121) and the engine state its block owns. -/
structure Matrix where
  running : Bool
  pc : DWord
  clause : Option Clause
  m : Tbl Word
  pos : Tbl (Option RowPos)
  acc : Tbl Word
  accBad : Tbl Bool
  tile : Option Tile
  /-- fb, base and stride of the last MLDB (07 R137) -/
  last : Option (Fmt × Nat × Nat)
  /-- rows passed and steps paid of the MMUL or MMULB under way -/
  row : Nat
  steps : Nat
  /-- an MMUL or MMULB has passed its checks and is under way (07 R123) -/
  started : Bool
  /-- the class of a STATLIMIT that the word takes when it completes (06 R118) -/
  due : Option Nat
  arr : Option Arrival
  stop : Bool
  park : Option TrapInfo
  deriving DecidableEq, Repr

/-- A party that takes ring slots (09 R181). -/
inductive Holder
  | warp (slot : Nat)
  | front
  | matrix
  | cmd (seq : Nat)
  deriving DecidableEq, Repr

/-- The states of a ring slot (09 R181). -/
inductive SlotState | free | filling | filled | draining
  deriving DecidableEq, Repr

/-- A taken slot: FILLING (fill) or DRAINING, and its holder. -/
structure Taken where
  holder : Holder
  slot : Nat
  fill : Bool
  deriving DecidableEq, Repr

/-- A party that waits at a cursor, with the gang of a warp. -/
structure RingWaiter where
  holder : Holder
  gang : BitVec 8
  deriving DecidableEq, Repr

/-- A ring of a block (09 R181, 08 R147): taken slots oldest first, waiters in the order in which they began to wait. -/
structure Ring where
  off : Nat
  size : Nat
  slots : List SlotState
  taken : List Taken
  fillCur : Nat
  drainCur : Nat
  waitFree : List RingWaiter
  waitFill : List RingWaiter
  err : Option (Nat × DWord)
  deriving DecidableEq, Repr

/-- A named barrier (09 R182): the count and expected count of the phase, the phase number, and the phases that ended by mismatch. -/
structure Bar where
  count : Nat
  expect : Nat
  phase : Nat
  failed : List Nat
  deriving DecidableEq, Repr

/-- A card barrier (21 R329): lanes arrived by (chunk × 33 + warp; warp 32 the front end), the phase's scope, the phases that failed with
their cause, and the chunks that a die's fatal error has withdrawn from this phase (21 R330). -/
structure CardBar where
  scope : Option Scope
  arrived : Tbl (BitVec 32)
  phase : Nat
  failed : List (Nat × Cause)
  gone : List Nat
  deriving DecidableEq, Repr

/-- A party for as long as it exists, wherever it stands: the card run of its block, the number that the block took when it was dealt, and
which of the block's parties it is: a warp's number, 32 the front end, 33 the matrix stream, 64 + its number a command. -/
structure Pid where
  run : Nat
  life : Nat
  mem : Nat
  deriving DecidableEq, Repr

/-- What a release and an acquire synchronise on (09 R160): a fence on whatever is read after it, a store and a load on bytes, the other words
on their object. -/
inductive Place
  | any
  | bytes (scratch : Bool) (lo hi : Nat)
  | bar (id : Nat)
  | cardBar (id : Nat)
  | ring (id : Nat)
  | bcb (off : Nat)
  | queue
  | stream
  deriving DecidableEq, Repr

/-- A release, or an acquire (09 R163): its party, the core where it stood, its scope, and its place. -/
structure Release where
  who : Pid
  core : Nat
  scope : Scope
  at_ : Place
  deriving DecidableEq, Repr

/-- A write of a byte by one path that another path may not yet read (08 R140): the value before it, the writer and its path, the releases
since of parties that performed or observed it, the parties that observed it (09 R163), the paths that read what it wrote or later, and
the parties that have read so by a path. -/
structure PathWrite where
  old : Byte
  who : Pid
  path : Path
  rel : List Release
  obs : List Pid
  seen : List Path
  read : List (Pid × Path)
  deriving DecidableEq, Repr

/-- Scratch of a block (03 R59): bytes, size, cuts with the swizzled mapping, poisoned words (12 R241), and by byte the writes that some
path may not yet read, the newest first. -/
structure Scratch where
  bytes : Tbl Byte
  size : Nat
  swz : List Nat
  bad : Tbl Bool
  path : Tbl (List PathWrite)
  deriving DecidableEq, Repr

/-- The chunk of a block (10 R194) and what it was dealt under (02 R23). -/
structure Dealt where
  /-- the card run it belongs to -/
  run : Nat
  card : BitVec 1024
  cardId : DWord
  region : Nat
  asid : Nat
  fdom : Nat
  cls : Nat
  prio : Nat
  preempt : Nat
  /-- the effective POOL of the region and of each ancestor when the block was dealt (02 R21, R23) -/
  pool : List (Nat × Nat)
  /-- the block's trap vector (12 R226), as RCBs stood when it was dealt (02 R23) -/
  vec : DWord
  lo : Nat
  hi : Nat
  num : Nat
  /-- the order in which blocks were placed (10 R198: youngest first) -/
  age : Nat
  /-- the number that the block took when it was dealt, or started again: what its parties are told by -/
  life : Nat
  deriving DecidableEq, Repr

/-- The role table as read at dealing, and the window of the role scheduler (02 R29, R30). -/
structure Roles where
  table : BitVec 512
  /-- TIME.ref since which occupancy has stayed below LOWT, or at or above HIGHT -/
  lowSince : Option Nat
  highSince : Option Nat
  deriving DecidableEq, Repr

/-- A block (02 R24): its streams and its shared objects. Warps are in the warp slots of the core. -/
structure Block where
  dealt : Dealt
  warps : List Nat
  scratch : Scratch
  bars : Tbl (Option Bar)
  rings : Tbl (Option Ring)
  /-- the decision queue: entries not yet retired and the index of the first -/
  dq : List DWord
  dqBase : Nat
  roles : Option Roles
  roleBad : Bool
  front : Option Front
  matrix : Option Matrix
  msrseed : Word
  deriving DecidableEq, Repr

/-- A lane's operands of a memory instruction. -/
structure LaneOp where
  lane : Nat
  addr : DWord
  b : BitVec 128
  c : DWord
  deriving DecidableEq, Repr

/-- A memory instruction with its operands captured (08 R154), and whether it issued at handler level. -/
structure MemOp where
  who : Who
  pc : DWord
  ins : Instr
  ops : List LaneOp
  priv : Bool
  deriving DecidableEq, Repr

/-- An entry of the range-lock table (08 R149): its command or the matrix stream of a block, scratch or global, the bytes, and what it
forbids. A ring-mode entry is reserved before it covers bytes (hi = lo). -/
structure Lock where
  owner : Option Nat
  blk : Nat
  scratch : Bool
  asid : Nat
  lo : Nat
  hi : Nat
  dest : Bool
  deriving DecidableEq, Repr

/-- The kinds of engine command. -/
inductive CmdKind | cpy | gth | sct | rsend | rget | ratom | ldimg
  deriving DecidableEq, Repr

/-- A request of a command (08 R146): n bytes from byte `lo` of a row; once started, its physical address with the home die, or the
peer of a peer page, whether it acts at the home (08 R142), and whether its bytes are on their way to the home (23 R370); `held` while a
fault holds it. -/
structure Req where
  row : Nat
  lo : Nat
  n : Nat
  phys : Nat
  home : Nat
  peer : Option Nat
  byp : Bool
  sent : Bool
  held : Option (Cause × DWord)
  deriving DecidableEq, Repr

/-- What LDIMG keeps (13 R255, R256): DEST, CBIAS, the size limit, the body's offset in the image, the relocation records and their
offset, and the bytes written so far: the physical address, the old and the new value. -/
structure Image where
  dest : DWord
  cbias : Nat
  limit : Nat
  body : Nat
  recs : List (BitVec 128)
  table : Nat
  wrote : List (Nat × Byte × Byte)
  deriving DecidableEq, Repr

/-- An engine command under way (08 R144 to R147, 13 R256, 23 R369). -/
structure Cmd where
  seq : Nat
  blk : Nat
  who : Who
  pc : DWord
  kind : CmdKind
  toScratch : Bool
  base : DWord
  gstride : Int
  soff : Nat
  sstride : Nat
  rowb : Nat
  rows : Nat
  swz : Nat
  ga : Bool
  byp : Bool
  idx : List Nat
  /-- the scratch offset of the index list -/
  idxOff : Nat
  bcb : Option Nat
  /-- the scratch offset of the tile record -/
  tileRec : Option Nat
  ring : Option Nat
  slot : Option Nat
  reqs : List Req
  flight : List Req
  refused : Option (Cause × DWord)
  atom : Option (AtomOp × Bool × DWord × DWord)
  image : Option Image
  deriving DecidableEq, Repr

/-- An entry of the operand log (08 R154): the fault, the pages of the instruction (base and size), and of a RATOM its command. -/
structure LogEnt where
  op : MemOp
  cause : Cause
  addr : DWord
  lanes : BitVec 32
  mig : Bool
  pages : List (Nat × Nat)
  cmd : Option Cmd
  deriving DecidableEq, Repr

/-- A pool grow that waits or has waited (03 R57): the cuts, TIME.ref as it was issued, whether it was granted or timed out; of SGROW
whether it is `.swz` (none: FGROW) and the offset of its first new byte once granted. -/
inductive GrowState | waiting | granted | expired
  deriving DecidableEq, Repr
structure Grow where
  who : Who
  cuts : Nat
  region : Nat
  since : Nat
  state : GrowState
  scr : Option Bool
  off : Nat
  deriving DecidableEq, Repr

/-- A waiting wide request (11 R209): its party, price, region and age in ring cycles. -/
structure Wide where
  who : Who
  price : Nat
  region : Nat
  age : Nat
  deriving DecidableEq, Repr

/-- A prefetched line (08 R150): whether it has arrived. -/
structure Prefetch where
  line : Nat
  l1 : Bool
  deriving DecidableEq, Repr

/-- The elastic pool of a core (03 R54 to R56): L1 has the cuts that are neither held nor free. -/
structure Pool where
  /-- free cuts: those freed while a grow waits -/
  free : Nat
  /-- cuts held by frames and scratch -/
  used : Nat
  /-- cuts held by each region and its descendants, as their blocks were dealt (02 R21, R23) -/
  held : Tbl Nat
  grows : List Grow
  deriving DecidableEq, Repr

/-- The L1 of a core: the lines held, bytes whose copy is older than the die's L2 (09 R166), and poisoned words of its cuts, by physical
address ÷ 4 (12 R241). -/
structure L1 where
  lines : List Nat
  old : Tbl (Option Byte)
  bad : Tbl Bool
  pref : List Prefetch
  deriving DecidableEq, Repr

/-- The token accounts of a core (11 R205 to R210). -/
structure Tokens where
  /-- balances of the open accounts by region -/
  bal : Tbl (Option Nat)
  wide : List Wide
  /-- the party whose request the core is in hold for (11 R210) -/
  hold : Option Who
  marked : Bool
  /-- in hold at any time in this rotation, and in the last one (11 R222) -/
  heldNow : Bool
  heldLast : Bool
  /-- by scheduler (the engine is 0): one more than the number of the cluster cycle in which it was paid last (11 R209, R214) -/
  last : Tbl Nat
  deriving DecidableEq, Repr

/-- A core (01 R10). -/
structure Core where
  pool : Pool
  warps : Tbl (Option Warp)
  landing : Option Warp
  blocks : Tbl (Option Block)
  log : Tbl (Option LogEnt)
  locks : List Lock
  cmds : List Cmd
  tokens : Tokens
  l1 : L1
  /-- PFISS, PFUSED, PFLATE, PFEVICT -/
  pfiss : BitVec 48
  pfused : BitVec 48
  pflate : BitVec 48
  pfevict : BitVec 48
  deriving DecidableEq, Repr

/-- A cluster (01 R10): its operating class (10 R199, R200), its droop detector (11 R214). -/
structure Cluster where
  cls : Nat
  /-- the class it changes to when its last block ends -/
  target : Option Nat
  droopCfg : Word
  droopCnt : Word
  /-- a detection whose stretch has not ended; the cluster cycle in which that stretch begins (11 R214) -/
  detected : Bool
  from_ : Nat
  /-- the droop window, the cluster cycle that it began with, and the one that it ends before -/
  window : Bool
  since : Nat
  until_ : Nat
  /-- detections since the last poll (11 R222) -/
  recent : Nat
  /-- the number of the open cluster cycle, how many cycles are open in this ring cycle, and where the next one begins, in eighths of a
  ring cycle (18 R277) -/
  cycle : Nat
  open_ : Nat
  edge : Nat
  deriving DecidableEq, Repr

/-- A packet of the token ring (11 R204). -/
structure Packet where
  tok : Nat
  rtok : Nat
  rcore : Option Nat
  mask : BitVec 112
  deriving DecidableEq, Repr

/-- The token ring and mint of a die (11 R203 to R211): the packet after k hops is entry k. -/
structure Mint where
  packets : List Packet
  list : List Nat
  /-- ring cycles, and rotations begun, since the die's reset -/
  cycle : Nat
  rot : Nat
  /-- REFF at the first cycle of this rotation, and the regions whose effective SHARE was 0 then (11 R206, 02 R23) -/
  reff0 : Nat
  noShare : List Nat
  /-- tokens destroyed in this rotation, and in the last complete one (TOKRET) -/
  destroyed : Nat
  tokRet : Nat
  loan : Int
  cut : Nat
  deriving DecidableEq, Repr

/-- A die (11 R213, 12 R242). -/
structure Die where
  mintCfg : Word
  tokCap : Word
  headThr : Word
  thermCfg : Word
  thermHys : Word
  /-- THERMSTAT.HOT, SENSOR and LEVEL -/
  hot : Nat
  sensor : Nat
  level : BitVec 3
  temps : List Nat
  mint : Mint
  eccCor : Word
  eccUnc : Word
  cursor : Nat
  dead : Bool
  /-- POOLCAP.UPPER of the die's cores (01 R12): nothing writes it -/
  upper : Bool
  /-- the fused cluster map (01 R10): bit k is set where physical cluster k is enabled -/
  clmap : BitVec 15
  deriving DecidableEq, Repr

/-- The stages of a loan (11 R220). -/
inductive LoanStage
  /-- the lender lowers its rate at its next rotation boundary -/
  | asked
  /-- the grant travels to the borrower -/
  | granting
  /-- the borrower raises its rate at its next boundary -/
  | granted
  /-- the term runs -/
  | running
  /-- the borrower lowers its rate at its next boundary -/
  | ending
  /-- the notice travels to the lender -/
  | notice
  deriving DecidableEq, Repr
structure Loan where
  lender : Nat
  amount : Nat
  term : Nat
  left : Nat
  stage : LoanStage
  repay : Bool
  deriving DecidableEq, Repr

/-- A statistics class of a region (06 R117). -/
structure Stat where
  count : DWord
  start : Option Nat
  fired : Bool
  deriving DecidableEq, Repr

/-- A region as the device last read it (02 R23), with its statistics, token allowance, watchdog and trace (13 R257). -/
structure Region where
  rcb : Option (BitVec 512)
  thresh : Option (BitVec 1024)
  stats : Tbl Stat
  /-- remaining allowance on each die (11 R206) -/
  rem0 : Int
  rem1 : Int
  busySince : Option Nat
  dealt : Option Nat
  trBase : DWord
  trSize : Word
  trCtl : Word
  trPos : Nat
  deriving DecidableEq, Repr

/-- A card held in a queue: its slot, where it came from (12 R225 CARD), and the reads of its wait counter that failed (10 R401). -/
structure QCard where
  slot : Nat
  card : BitVec 1024
  cardId : DWord
  reported : Bool
  ready : Bool
  /-- the order in which cards were posted (10 R193) -/
  seq : Nat
  deriving DecidableEq, Repr

/-- A queue (10 R187): its entry as last read, its cards oldest first. -/
structure Queue where
  entry : Option (BitVec 256)
  cards : List QCard
  deriving DecidableEq, Repr

/-- A card being dealt (10 R193, R194): its remaining records, next chunk, blocks not yet ended, and card barriers. With no record and no
block left it waits for its done counter (10 R192). -/
structure CardRun where
  queue : Nat
  /-- the order in which cards were posted -/
  seq : Nat
  card : BitVec 1024
  cardId : DWord
  region : Nat
  remaining : Nat
  next : Nat
  live : List Nat
  lostChunk : Bool
  bars : Tbl (Option CardBar)
  /-- the role table as it was read when the card was dealt (02 R24) -/
  roles : Option (BitVec 512)
  /-- a block of it was lost with its die and will not run again (12 R240) -/
  peerLost : Bool
  deriving DecidableEq, Repr

/-- A block saved or discarded that awaits placement (12 R232, R234): its arena slot (none when discarded), the block, its warps in
warp order, its operand-log entries (the old index, the warp's place or 32 for the front end, the entry), its commands that still
waited for a ring slot, and its grows of scratch that were granted to words that have not completed (03 R57). -/
structure Saved where
  slot : Option Nat
  /-- SAVEBASE of the arena that holds it -/
  base : Nat
  time : DWord
  block : Block
  warps : List Warp
  logs : List (Nat × Nat × LogEnt)
  withdrawn : List Cmd
  grants : List (Nat × Grow)
  deriving DecidableEq, Repr

/-- A message on the bridge link (09 R169, R170): an EF store on its way home, the invalidation of a guest copy, a GA store on its way, or the
acknowledgement of a GA store. -/
inductive MsgKind | ef | inval | ga | gaAck
  deriving DecidableEq, Repr
structure Msg where
  kind : MsgKind
  die : Nat
  who : Who
  region : Nat
  addr : Nat
  va : Nat
  bytes : List Byte
  sent : Nat
  /-- the place of its store in its party's program order (09 R176) -/
  age : Nat
  deriving DecidableEq, Repr

/-- A translation held by a TLB of a cluster (08 R153): the cores that have dropped it. -/
structure TlbEnt where
  cluster : Nat
  asid : Nat
  base : Nat
  size : Nat
  leaf : DWord
  dropped : List Nat
  deriving DecidableEq, Repr

/-- A page that a CLAIM is moving (08 R156): the range of virtual addresses, its address space, the claiming party. -/
structure Moving where
  who : Who
  asid : Nat
  lo : Nat
  len : Nat
  deriving DecidableEq, Repr

/-- Memory and what surrounds it: bytes by physical address, poisoned and discarded sectors, each die's view of bytes that differs
from the home (09 R169), guest lines and their poisoned sectors (12 R241), link messages, path bytes, TLBs, the peers' memory by peer × 2^52 + address. -/
structure MemState where
  mem : Tbl Byte
  bad : Tbl Bool
  disc : Tbl Bool
  view0 : Tbl (Option Byte)
  view1 : Tbl (Option Byte)
  guests0 : List Nat
  guests1 : List Nat
  gbad0 : Tbl Bool
  gbad1 : Tbl Bool
  msgs : List Msg
  path : Tbl (List PathWrite)
  tlb : List TlbEnt
  moving : List Moving
  peer : Tbl Byte
  /-- replicas that their homes hold invisible: the group, the address and the length (09 R170) -/
  held : List (Nat × Nat × Nat)
  deriving DecidableEq, Repr

/-- The privileged registers of package scope (23 Table 7). -/
structure PkgRegs where
  regtab : DWord
  astab : DWord
  qtab : DWord
  classmap : DWord
  savebase : DWord
  saven : Word
  rstdone : Tbl Word
  fqbase : DWord
  fqsize : Word
  fqhead : BitVec 17
  fqtail : BitVec 17
  fqdrop : Word
  funcmap : Tbl Word
  ingtab : DWord
  peermap : Tbl Word
  deriving DecidableEq, Repr

/-- TDISP states of a function (13 Table 2). -/
inductive Tdisp | unlocked | locked | run | error
  deriving DecidableEq, Repr

/-- An ingest window (13 R247): the descriptor in force, its byte counter, the next multiple to post. -/
structure Ingest where
  desc : Option (BitVec 512)
  /-- the descriptor is not yet judged: a CLAIM moves the page of its template (08 R156) -/
  unjudged : Bool
  count : DWord
  /-- cards posted: multiples of N passed whose card stands in the queue -/
  posted : Nat
  /-- writes that wait while the window withholds credit, in order: the requester, the aperture offset, the bytes (13 R249) -/
  waiting : List (Nat × Nat × List Byte)
  deriving DecidableEq, Repr

/-- A key slot of a Yeline port (13 R251, R252): the key, the flits sealed under it, and the flits opened under it. -/
structure KeySlot where
  key : BitVec 256
  sealed : Nat
  opened : Nat
  deriving DecidableEq, Repr

/-- A flit of the replay buffer (13 R251): the key slot and the 256 bytes as sealed. -/
structure SentFlit where
  slot : Bool
  bytes : List Byte
  deriving DecidableEq, Repr

/-- A Yeline port (13 R250 to R252). -/
structure Port where
  failed : Bool
  slot0 : KeySlot
  slot1 : KeySlot
  /-- the slot that transmission uses -/
  tx : Bool
  /-- the sequence numbers of the next flit to be sealed, and of the next to be accepted -/
  next : BitVec 48
  expect : BitVec 48
  /-- type and payload of the flits accepted -/
  accepted : List (Nat × List Byte)
  /-- sent flits not yet acknowledged, the oldest first -/
  replay : List SentFlit
  /-- the flits handed to the link, replayed ones too -/
  out : List (List Byte)
  /-- the port has asked the other end to replay from `expect` -/
  asked : Bool
  deriving DecidableEq, Repr

/-- The emergency log of the sideband controller (12 R235): regions with their flags, whether the arena was usable, regions left
unsaved, the completion word. -/
structure EmergencyLog where
  time : DWord
  regions : List (Nat × Bool)
  usable : Bool
  unsaved : List Nat
  complete : Option DWord
  /-- bring-up has read it (12 R236) -/
  read : Bool
  deriving DecidableEq, Repr

/-- The contents of a function's BARs (13 Table 1), as the interface report names them. -/
inductive BarKind | window | queues | ingest
  deriving DecidableEq, Repr

/-- The interface report of a function (13 R246): its BAR ranges (base, size, contents), region, effective FDOM, ISAVER, digest. -/
structure Report where
  bars : List (DWord × Nat × BarKind)
  region : Nat
  fdom : Nat
  isaver : Word
  digest : List Byte
  deriving DecidableEq, Repr

/-- What SPDM measures (13 R253): the digest of the firmware images, ISAVER, POOLCAP of each die, and each die's fused cluster map. -/
structure Measurements where
  firmware : List Byte
  isaver : Word
  poolcap0 : Word
  poolcap1 : Word
  clmap0 : BitVec 15
  clmap1 : BitVec 15
  deriving DecidableEq, Repr

/-- A response of the sideband port (13 R253). -/
inductive Response
  | identity (isaver : Word) (key : Nat × Nat)
  | measurements (m : Measurements)
  | attestation (m : Measurements) (signature : Nat × Nat)
  | report (f : Nat) (r : Report)
  | sensor (value : Nat)
  | firmware (bytes : Nat)
  | value (v : DWord)
  | log (l : Option EmergencyLog)
  | ok
  deriving DecidableEq, Repr

/-- The sideband port (13 R253): alerts raised, regions reported, the log, the firmware image, the last response. -/
structure Sideband where
  log : Option EmergencyLog
  alerts : Nat
  lost : List Nat
  restartable : List Nat
  dieErrors : List Nat
  firmware : List Byte
  response : Option Response
  linkUp : Bool
  /-- an emergency save is under way (12 R235) -/
  saving : Bool
  deriving DecidableEq, Repr

/-- The host interface (13 R243 to R249). -/
structure HostIf where
  up : Bool
  /-- none: the function is no TDISP interface -/
  tdisp : Tbl (Option Tdisp)
  /-- MSI-X vectors raised: 3 × function + vector, counted -/
  msix : Tbl Nat
  /-- the MSI-X tables, by 3 × function + vector, and the BAR registers, by 8 × function + BAR (13 R245) -/
  msixTab : Tbl (BitVec 128)
  bars : Tbl DWord
  /-- the function that each selective IDE stream serves (13 R245) -/
  streams : Tbl (Option Nat)
  /-- what the last host read returned (13 R243) -/
  read : DWord
  ingest : Tbl Ingest
  /-- fault records held while die 0 is dead (12 R240) -/
  held : List (BitVec 512)
  ports : Tbl Port
  side : Sideband
  deriving DecidableEq, Repr

/-- A region reset under way (12 R239): the fault domain and its start. -/
structure Reset where
  fdom : Nat
  start : Nat
  deriving DecidableEq, Repr

/-- What moves next: a word of a party, or an event of another agent with what it carries. -/
inductive Move
  | issue (w : Who)
  | event (i : Instr)
  deriving DecidableEq, Repr

/-- The package. -/
structure State where
  regs : PkgRegs
  mem : MemState
  cores : Tbl Core
  clusters : Tbl Cluster
  die0 : Die
  die1 : Die
  regions : Tbl Region
  queues : Tbl Queue
  cards : Tbl (Option CardRun)
  saved : List Saved
  resets : List Reset
  loan : Option Loan
  host : HostIf
  /-- TIME.ref -/
  tref : DWord
  power : Bool
  /-- numbers given to card runs, commands and blocks -/
  seq : Nat
  /-- the counter of free values (entry 4) -/
  fresh : Nat
  /-- the party whose word issues (entry 5) -/
  cur : Who
  turn : Nat
  /-- what moves next; when empty the model's own order applies (entry 5) -/
  agenda : List Move
  deriving DecidableEq, Repr

/-- Why the machine stops. -/
inductive Fault
  /-- raised by `step` on a package whose power is off, when nothing restores it: the spec removes every supply (11 R218, 12 R235).
  Safe: nothing runs on the hardware either. -/
  | powerOff
  deriving DecidableEq, Repr

/-- Why an instruction has no meaning. -/
inductive Refusal
  /-- raised by an arm of `exec` without a meaning. Safe: the machine stops where the hardware goes on. -/
  | notModelled (mnemonic : String)
  deriving DecidableEq, Repr

/-! Reset (INVENTORY.md lists every value with its rule; the values the spec does not give are in the log entries named there). -/

def Tokens.init : Tokens := ⟨[], [], none, false, false, false, []⟩
def StoreQueue.init : StoreQueue := ⟨[], []⟩
def Flight.init : Flight := ⟨[], [], StoreQueue.init, none, none, none, []⟩

/-- No cut is held or free: L1 has them all (03 R54). -/
def Pool.init : Pool := ⟨0, 0, [], []⟩

/-- An unlisted core holds no party. -/
def Core.init : Core where
  pool := Pool.init
  warps := []
  landing := none
  blocks := []
  log := []
  locks := []
  cmds := []
  tokens := Tokens.init
  l1 := ⟨[], [], [], []⟩
  pfiss := 0
  pfused := 0
  pflate := 0
  pfevict := 0

/-- 01 Table 5 class 1 (entry 2); DROOPCFG: THRESH 18, STRETCH 6, WINDOW 64, EN 1 (11 R213). -/
def Cluster.init : Cluster := ⟨1, none, 0x00050192, 0, false, 0, false, 0, 0, 0, 0, 0, 0⟩

def Packet.init : Packet := ⟨0, 0, none, 0⟩
def Mint.init : Mint := ⟨[], [], 0, 0, 0, [], 0, 0, 0, 0⟩

/-- POOLCAP.UPPER is 1 and cluster 14 is the disabled one: DESIGN CHOICE (entry 3), since fuses and bring-up test fix them (01 R10, Table 1).
MINTCFG: RATE 14,336, LENDEN, BORREN, LOANROT 32; TOKCAP 4,096; HEADTHR 64; THERMCFG 95, 105, 115; THERMHYS 5, 5, 5 (11 R213). -/
def Die.init : Die where
  mintCfg := 0x0020F800
  tokCap := 4096
  headThr := 64
  thermCfg := 0x0073695F
  thermHys := 0x00000555
  hot := 0
  sensor := 0
  level := 0
  temps := []
  mint := Mint.init
  eccCor := 0
  eccUnc := 0
  cursor := 0
  dead := false
  upper := true
  clmap := 0x3FFF

def Stat.init : Stat := ⟨0, none, false⟩
def Region.init : Region := ⟨none, none, [], 0, 0, none, none, 0, 0, 0, 0⟩
def Queue.init : Queue := ⟨none, []⟩
def Ingest.init : Ingest := ⟨none, false, 0, 0, []⟩
/-- Key registers are zero and transmission uses slot 0: DESIGN CHOICE (entry 2). -/
def Port.init : Port := ⟨false, ⟨0, 0, 0⟩, ⟨0, 0, 0⟩, false, 0, 0, [], [], [], false⟩
def Sideband.init : Sideband := ⟨none, 0, [], [], [], [], none, true, false⟩
def HostIf.init : HostIf := ⟨true, [], [], [], [], [], 0, [], [], [], Sideband.init⟩
def MemState.init : MemState := ⟨[], [], [], [], [], [], [], [], [], [], [], [], [], [], []⟩

/-- CLASSMAP keeps every cluster's class; FQSIZE.LOG is 4; the other package registers are zero (23 Table 7, 12 Table 3). -/
def PkgRegs.init : PkgRegs where
  regtab := 0
  astab := 0
  qtab := 0
  classmap := 0x00FFFFFFFFFFFFFF
  savebase := 0
  saven := 0
  rstdone := []
  fqbase := 0
  fqsize := 4
  fqhead := 0
  fqtail := 0
  fqdrop := 0
  funcmap := []
  ingtab := 0
  peermap := []

/-- The package right after PACKAGE_RESET. -/
def State.reset : State where
  regs := PkgRegs.init
  mem := MemState.init
  cores := []
  clusters := []
  die0 := Die.init
  die1 := Die.init
  regions := []
  queues := []
  cards := []
  saved := []
  resets := []
  loan := none
  host := HostIf.init
  tref := 0
  power := true
  seq := 1
  fresh := 0
  cur := ⟨0, .warp 0⟩
  turn := 0
  agenda := []

/-- Memory is in canonical form: addresses strictly rising, no byte equal to the 0 that an unlisted address reads as (entry 1). -/
def Memory.wf (m : List Host.Cell) : Bool := Tbl.wf 0 m

end Sys2Proof.Machine
end

