-- ==== Sys2Proof/Machine/Mem.lean ====
section
/-! DEFINITION. Access to the parts of the state, free choices, translation (08 R151 to R153), and memory as the dies, cores and paths
see it (08 R140, 09 R164 to R176). -/

namespace Sys2Proof.Machine

/-! Bytes and fields -/

/-- The n bytes of a number, least significant first (00 R6). -/
def bytesOf : Nat → Nat → List Byte
  | 0, _ => []
  | n + 1, v => BitVec.ofNat 8 v :: bytesOf n (v / 256)

/-- The number that bytes hold, least significant first (00 R6). -/
def natOf : List Byte → Nat
  | [] => 0
  | b :: bs => b.toNat + 256 * natOf bs

/-- Bits [lo + n − 1 : lo] of a bit vector as a number. -/
def fld {w : Nat} (lo n : Nat) (v : BitVec w) : Nat := v.toNat / 2 ^ lo % 2 ^ n

/-- One bit of a bit vector. -/
def flag {w : Nat} (k : Nat) (v : BitVec w) : Bool := v.getLsbD k

/-- Replace bits [lo + n − 1 : lo]. -/
def setFld {w : Nat} (lo n : Nat) (x : Nat) (v : BitVec w) : BitVec w :=
  BitVec.ofNat w (v.toNat - fld lo n v * 2 ^ lo + x % 2 ^ n * 2 ^ lo)

/-- Change one place of a list. -/
def setAt {α : Type} (l : List α) (k : Nat) (v : α) : List α := l.set k v

/-- The numbers of the bits that are set. -/
def onesOf {w : Nat} (m : BitVec w) : List Nat := (List.range w).filter fun k => m.getLsbD k

/-- The mask of the bits that satisfy a test. -/
def maskOf (w : Nat) (f : Nat → Bool) : BitVec w :=
  (List.range w).foldl (fun m k => if f k then m ||| (1#w <<< k) else m) 0

/-- The number of bits set. -/
def popCount {w : Nat} (m : BitVec w) : Nat := (onesOf m).length

/-- An ascending run of numbers. -/
def span (lo n : Nat) : List Nat := (List.range n).map (lo + ·)

/-! Parts of the package -/

/-- The die of a core and its cluster, numbered across the package (01 R10). -/
def dieOf (core : Nat) : Nat := core / 112
def clusterOf (core : Nat) : Nat := core / 8

def State.die (s : State) (d : Nat) : Die := if d = 0 then s.die0 else s.die1
def State.setDie (s : State) (d : Nat) (x : Die) : State := if d = 0 then { s with die0 := x } else { s with die1 := x }
def State.core (s : State) (c : Nat) : Core := Tbl.get Core.init s.cores c
def State.setCore (s : State) (c : Nat) (k : Core) : State := { s with cores := Tbl.set Core.init s.cores c k }
def State.updCore (s : State) (c : Nat) (f : Core → Core) : State := s.setCore c (f (s.core c))
def State.cluster (s : State) (c : Nat) : Cluster := Tbl.get Cluster.init s.clusters c
def State.setCluster (s : State) (c : Nat) (k : Cluster) : State := { s with clusters := Tbl.set Cluster.init s.clusters c k }
def State.region (s : State) (r : Nat) : Region := Tbl.get Region.init s.regions r
def State.setRegion (s : State) (r : Nat) (x : Region) : State := { s with regions := Tbl.set Region.init s.regions r x }
def State.queue (s : State) (q : Nat) : Queue := Tbl.get Queue.init s.queues q
def State.setQueue (s : State) (q : Nat) (x : Queue) : State := { s with queues := Tbl.set Queue.init s.queues q x }
def State.run (s : State) (r : Nat) : Option CardRun := Tbl.get none s.cards r
def State.setRun (s : State) (r : Nat) (x : Option CardRun) : State := { s with cards := Tbl.set none s.cards r x }

/-- A warp by its party: in a warp slot, or in the landing slot. -/
def State.warp (s : State) (w : Who) : Option Warp :=
  match w.party with
  | .warp slot => Tbl.get none (s.core w.core).warps slot
  | .landing => (s.core w.core).landing
  | _ => none

def State.setWarp (s : State) (w : Who) (x : Option Warp) : State :=
  match w.party with
  | .warp slot => s.updCore w.core fun k => { k with warps := Tbl.set none k.warps slot x }
  | .landing => s.updCore w.core fun k => { k with landing := x }
  | _ => s

def State.updWarp (s : State) (w : Who) (f : Warp → Warp) : State :=
  match s.warp w with
  | some x => s.setWarp w (some (f x))
  | none => s

def State.block (s : State) (core b : Nat) : Option Block := Tbl.get none (s.core core).blocks b
def State.setBlock (s : State) (core b : Nat) (x : Option Block) : State :=
  s.updCore core fun k => { k with blocks := Tbl.set none k.blocks b x }
def State.updBlock (s : State) (core b : Nat) (f : Block → Block) : State :=
  match s.block core b with
  | some x => s.setBlock core b (some (f x))
  | none => s

def State.updFront (s : State) (core b : Nat) (f : Front → Front) : State :=
  s.updBlock core b fun x => { x with front := x.front.map f }
def State.updMatrix (s : State) (core b : Nat) (f : Matrix → Matrix) : State :=
  s.updBlock core b fun x => { x with matrix := x.matrix.map f }

/-- The core and block slot of a party's block: those of its origin for a migrated warp (08 R157). A command of the engine is a party too, as
front end 64 + its number (09 R181). -/
def State.home (s : State) (w : Who) : Nat × Nat :=
  match w.party with
  | .matrix b => (w.core, b)
  | .front b => (w.core, if b < 64 then b else (((s.core w.core).cmds.find? (·.seq == b - 64)).map (·.blk)).getD b)
  | _ =>
    match s.warp w with
    | some x => ((x.origin.map (·.1)).getD w.core, x.blk)
    | none => (w.core, 0)

def State.blockOf (s : State) (w : Who) : Option Block := s.block (s.home w).1 (s.home w).2

/-- A party for as long as it exists, wherever it stands. -/
def State.pid (s : State) (w : Who) : Pid :=
  let d := (s.blockOf w).map (·.dealt)
  ⟨(d.map (·.run)).getD 0, (d.map (·.life)).getD 0, match w.party with
    | .matrix _ => 33
    | .front b => if b < 64 then 32 else b
    | _ => ((s.warp w).map (·.wid)).getD 0⟩

/-- The scoreboards, results and stores of a party. -/
def State.flight (s : State) (w : Who) : Flight :=
  match w.party with
  | .front b => (((s.block w.core b).bind (·.front)).map (·.flight)).getD Flight.init
  | .matrix _ => Flight.init
  | _ => ((s.warp w).map (·.flight)).getD Flight.init

def State.updFlight (s : State) (w : Who) (f : Flight → Flight) : State :=
  match w.party with
  | .front b => s.updFront w.core b fun x => { x with flight := f x.flight }
  | .matrix _ => s
  | _ => s.updWarp w fun x => { x with flight := f x.flight }

/-- The address of the word at which a party stands. -/
def Warp.lead (w : Warp) : Option Slice := ((onesOf w.gang).head?).bind (w.slices[·]?)
def State.pcOf (s : State) (w : Who) : DWord :=
  match w.party with
  | .front b => (((s.block w.core b).bind (·.front)).map (·.pc)).getD 0
  | .matrix b => (((s.block w.core b).bind (·.matrix)).map (·.pc)).getD 0
  | _ => (((s.warp w).bind (·.lead)).map (·.pc)).getD 0

/-- Whether a warp is at handler level (05 R97). -/
def State.atHandler (s : State) (w : Who) : Bool := ((s.warp w).map (·.handler.isSome)).getD false

/-! Free values -/

/-- A free choice of this step, told apart by a tag below 16 and a key. -/
def State.coin (s : State) (tag key : Nat) : Bool := (Config.free s.fresh (16 * key + tag)).getLsbD 0
def State.freeAt (s : State) (tag key : Nat) : DWord := Config.free s.fresh (16 * key + tag)

/-- n of the free places of a list, each taken by a free value: which place is taken is not the spec's to say (entry 7). -/
def chooseFrom (free : Nat → DWord) : Nat → List Nat → List Nat
  | 0, _ => []
  | n + 1, l =>
    match l[(free n).toNat % l.length]? with
    | some k => k :: chooseFrom free n (l.erase k)
    | none => []
/-- The free value for a choice of places. -/
def State.places (s : State) (key : Nat) (n : Nat) : DWord := s.freeAt 0 (64 * key + n)
/-- The free values of the next use differ from those of this one. -/
def State.tick (s : State) : State := { s with fresh := s.fresh + 1 }

/-! Sectors: poison and discards -/

def sectorsOf (a n : Nat) : List Nat := if n = 0 then [] else span (a / 32) ((a + n - 1) / 32 - a / 32 + 1)
def linesOf (a n : Nat) : List Nat := if n = 0 then [] else span (a / 128) ((a + n - 1) / 128 - a / 128 + 1)

/-- The lowest poisoned address among bytes a to a + n − 1 (12 Table 1, POISON): none when no sector is poisoned. -/
def sectorBad (t : Tbl Bool) (a n : Nat) : Option Nat := ((sectorsOf a n).find? fun k => Tbl.get false t k).map fun k => max a (32 * k)
def MemState.badAt (m : MemState) (a n : Nat) : Option Nat := sectorBad m.bad a n

/-- A store of n bytes at a, over poison and discards: a store of a whole unit clears its poison and makes the sector ordinary; any
other store leaves the poison and makes a discarded sector ordinary with one of its two values (12 R241, 08 R155). -/
def State.fixSector (s : State) (a n : Nat) (k : Nat) : State :=
  let whole : Bool := a ≤ 32 * k && 32 * k + 32 ≤ a + n
  let m := s.mem
  let zeroed := Tbl.get false m.disc k && !whole && s.coin 3 k
  let m := if zeroed then { m with mem := Tbl.setList 0 m.mem (32 * k) (List.replicate 32 0) } else m
  let m := { m with disc := Tbl.set false m.disc k false }
  let m := if whole then { m with bad := Tbl.set false m.bad k false } else m
  { s with mem := m }

def State.fixSectors (s : State) (a n : Nat) : State := (sectorsOf a n).foldl (fun s k => s.fixSector a n k) s

/-! Views of the dies and copies of the cores -/

def MemState.view (m : MemState) (d : Nat) : Tbl (Option Byte) := if d = 0 then m.view0 else m.view1
def MemState.setView (m : MemState) (d : Nat) (t : Tbl (Option Byte)) : MemState :=
  if d = 0 then { m with view0 := t } else { m with view1 := t }
def MemState.guests (m : MemState) (d : Nat) : List Nat := if d = 0 then m.guests0 else m.guests1
/-- The guest lines of a die: a copy that goes takes its poison along. -/
def MemState.setGuests (m : MemState) (d : Nat) (l : List Nat) : MemState :=
  let keep (t : Tbl Bool) : Tbl Bool := Tbl.drop t fun k => !l.contains (k / 4)
  if d = 0 then { m with guests0 := l, gbad0 := keep m.gbad0 } else { m with guests1 := l, gbad1 := keep m.gbad1 }

/-- Poisoned sectors of a die's guest copies (12 R241). -/
def MemState.gbad (m : MemState) (d : Nat) : Tbl Bool := if d = 0 then m.gbad0 else m.gbad1
def MemState.setGbad (m : MemState) (d : Nat) (t : Tbl Bool) : MemState := if d = 0 then { m with gbad0 := t } else { m with gbad1 := t }
/-- A store of whole sectors clears the poison of a guest copy. -/
def MemState.healGuest (m : MemState) (d a n : Nat) : MemState :=
  m.setGbad d (Tbl.drop (m.gbad d) fun k => decide (a ≤ 32 * k) && decide (32 * k + 32 ≤ a + n))

/-- The byte that die d's L2 holds: its guest copy's where that differs from the home's. -/
def MemState.at (m : MemState) (d a : Nat) : Byte := (Tbl.get none (m.view d) a).getD (Tbl.get 0 m.mem a)

/-- The byte at a as die d reads it, with a discarded sector's free choice (08 R155). -/
def State.dieByte (s : State) (d a : Nat) : Byte :=
  if Tbl.get false s.mem.disc (a / 32) && s.coin 3 (a / 32) then 0 else s.mem.at d a

/-- Of the present value and n older ones a read gets one: how far back, which is free. -/
def State.howOld (s : State) (tag key n : Nat) : Nat :=
  if n = 0 then 0 else if s.coin tag key then (s.freeAt tag key >>> 1).toNat % n + 1 else 0

/-- The present value, or one of some older ones, the newest first. -/
def State.oldOrNew (s : State) (tag key : Nat) (olds : List Byte) (v : Byte) : Byte :=
  match s.howOld tag key olds.length with
  | 0 => v
  | k + 1 => (olds[k]?).getD v

/-- The values before the newest writes of a byte that a party may still read around by path p: it reads nothing older than what it, or
every party, has read by that path (09 R167, R168). -/
def olderFor (l : List PathWrite) (w : Pid) (p : Path) : List Byte :=
  (l.takeWhile fun e => !(e.seen.contains p || e.read.contains (w, p))).map (·.old)

/-- A byte read by a path: a write of another path that no FENCEP has handed over gives its old or its new value (08 R140). -/
def viaPath (s : State) (t : Tbl (List PathWrite)) (w : Pid) (p : Path) (key a : Nat) (v : Byte) : Byte :=
  s.oldOrNew 5 key (olderFor (Tbl.get [] t a) w p) v

/-- A default-policy load of a core may hit an L1 line that is older than the die's L2, one choice for a line (09 R166). -/
def State.staleL1 (s : State) (core a : Nat) : Option Byte :=
  (Tbl.get none (s.core core).l1.old a).bind fun o => if s.coin 4 (a / 128) then some o else none

/-- The byte a lane or front-end access reads. -/
def State.lsByte (s : State) (who : Who) (byp : Bool) (a : Nat) : Byte :=
  let v := s.dieByte (dieOf who.core) a
  viaPath s s.mem.path (s.pid who) .ls a a (if byp then v else (s.staleL1 who.core a).getD v)

/-- The byte an engine or the constant path of a core reads. -/
def State.pathByte (s : State) (who : Who) (p : Path) (a : Nat) : Byte :=
  viaPath s s.mem.path (s.pid who) p a a (s.dieByte (dieOf who.core) a)

def State.lsBytes (s : State) (who : Who) (byp : Bool) (a n : Nat) : List Byte := (span a n).map (s.lsByte who byp)
def State.pathBytes (s : State) (who : Who) (p : Path) (a n : Nat) : List Byte := (span a n).map (s.pathByte who p)

/-- A byte as it stands at a home, as a party reads it by a path. -/
def State.homeByte (s : State) (who : Who) (p : Path) (home a : Nat) : Byte := viaPath s s.mem.path (s.pid who) p a a (s.dieByte home a)

/-- What stands at a home, as a read-modify-write there takes it: what no write comes between (09 R165). -/
def State.standing (s : State) (home a n : Nat) : List Byte := (span a n).map (s.dieByte home)

/-! What a party has read -/

/-- The four paths (08 R140). -/
def allPaths : List Path := [.ls, .const, .tile, .ewr]

/-- The writes of a byte that some path may still read around: a write is left out once each path has seen it or a later one. -/
def pruneWrites : List Path → List PathWrite → List PathWrite
  | _, [] => []
  | seen, e :: rest =>
    let seen := allPaths.filter fun p => seen.contains p || e.seen.contains p
    if seen.length < 4 then e :: pruneWrites seen rest else []

def PathWrite.see (e : PathWrite) (p : Path) : PathWrite := if e.seen.contains p then e else { e with seen := p :: e.seen }

/-- A party has read by a path what write k of a byte wrote: it has observed that write (09 R163), and reads nothing older by that path;
`all`: no party does, since the read was performed at the home (09 R168). -/
def seeWrites (w : Pid) (p : Path) (all : Bool) (k : Nat) (l : List PathWrite) : List PathWrite :=
  pruneWrites [] (l.modify k fun e =>
    let e := { e with
      obs := if e.who == w || e.obs.contains w then e.obs else w :: e.obs
      read := if e.read.contains (w, p) then e.read else (w, p) :: e.read }
    if all then e.see p else e)

/-- The bytes of a range that `now` picks have been read by a path, as state s had them in table t; r is the table now. -/
def seeBytes (s : State) (t : Tbl (List PathWrite)) (w : Pid) (p : Path) (all : Bool) (key : Nat) (now : Nat → Bool) (a n : Nat)
    (r : Tbl (List PathWrite)) : Tbl (List PathWrite) :=
  if t.isEmpty then r
  else (span a n).foldl (fun r b => if now b then
      Tbl.upd [] r b (seeWrites w p all (s.howOld 5 (key + b) (olderFor (Tbl.get [] t b) w p).length)) else r) r

/-- A party has read global bytes by a path in state s0: what it has seen stands in the present state. -/
def State.see (s0 : State) (who : Who) (p : Path) (all : Bool) (now : Nat → Bool) (a n : Nat) (s : State) : State :=
  { s with mem := { s.mem with path := seeBytes s0 s0.mem.path (s0.pid who) p all 0 now a n s.mem.path } }

/-- The bytes at their home, as the device reads its tables and records. -/
def State.homeBytes (s : State) (a n : Nat) : List Byte := Tbl.getList 0 s.mem.mem a n

/-- A counter of 48 bits stops at its maximum (08 R150). -/
def bump48 (c : BitVec 48) : BitVec 48 := if c = BitVec.allOnes 48 then c else c + 1

/-- The first demand access to a prefetched line counts it as used, or as late: which of these is timing (08 R150). -/
def Core.demand (k : Core) (late : Bool) (line : Nat) : Core :=
  if k.l1.pref.any (·.line == line) then
    let k := { k with l1 := { k.l1 with pref := k.l1.pref.filter (·.line != line) } }
    if late then { k with pflate := bump48 k.pflate } else { k with pfused := bump48 k.pfused }
  else k

/-- The copy that L1 holds of a line goes, or is fetched again: its older bytes and its poison are no more. -/
def L1.refresh (l : L1) (line : Nat) : L1 :=
  { l with old := Tbl.drop l.old fun a => a / 128 == line, bad := Tbl.drop l.bad fun k => k / 32 == line }

/-- A line leaves L1. -/
def L1.leave (l : L1) (line : Nat) : L1 := { l.refresh line with lines := l.lines.filter (· != line) }

/-- Prefetched lines that are evicted before any demand access (08 R150): which of them, at an access of the core, is timing. -/
def State.evictPref (s : State) (core : Nat) : State :=
  ((s.core core).l1.pref.filter fun p => s.coin 12 (p.line + 2 ^ 60)).foldl (fun s p => s.updCore core fun k =>
    { k with
      pfevict := bump48 k.pfevict
      l1 := { (if p.l1 then k.l1.leave p.line else k.l1) with pref := k.l1.pref.filter (·.line != p.line) } }) s

/-- A store or an atomic is a demand access as well. -/
def State.demandAll (s : State) (core a n : Nat) : State :=
  if (s.core core).l1.pref.isEmpty then s
  else (linesOf a n).foldl (fun s line => s.updCore core fun k => k.demand (s.coin 6 line) line) (s.evictPref core)

/-- After a load: a bypass access leaves no copy in L1, a line fetched again is as new as L2, a line hit stays as it was. -/
def Core.afterLoad (k : Core) (byp : Bool) (hitOld : Bool) (line : Nat) : Core :=
  if byp then { k with l1 := k.l1.leave line }
  else
    let l := if hitOld then k.l1 else k.l1.refresh line
    { k with l1 := { l with lines := if l.lines.contains line then l.lines else line :: l.lines } }

def State.afterLoad (s : State) (core : Nat) (byp : Bool) (a n : Nat) : State :=
  (linesOf a n).foldl (fun s line => s.updCore core fun k => k.afterLoad byp (s.coin 4 line) line) (s.demandAll core a n)

/-- An acquire at `.die` or wider, or an atomic at the home: no later load of the core hits an older line (09 R162). -/
def State.dropL1 (s : State) (core : Nat) : State :=
  s.updCore core fun k => { k with l1 := { k.l1 with lines := [], old := [], bad := [] } }

/-- The bytes of a write that L1 keeps no copy of (08 R142). -/
def State.leaveL1 (s : State) (core a n : Nat) : State := s.updCore core fun k => { k with l1 := (linesOf a n).foldl L1.leave k.l1 }

/-- Remember what a core's L1 copy of a byte held before the byte changed. -/
def L1.note (l : L1) (a : Nat) (v : Byte) : L1 :=
  if l.lines.contains (a / 128) && (Tbl.get none l.old a).isNone then { l with old := Tbl.set none l.old a (some v) } else l

/-- The bytes of die d change from what its cores' L1 copies hold; the core `ex` writes through its own copy. -/
def State.noteL1 (s : State) (d ex a n : Nat) : State :=
  { s with cores := s.cores.map fun (c, k) =>
      if dieOf c = d then
        if c = ex then (c, { k with l1 := { k.l1 with
            old := Tbl.drop k.l1.old fun b => decide (a ≤ b) && decide (b < a + n)
            bad := Tbl.drop k.l1.bad fun w => decide (a ≤ 4 * w) && decide (4 * w + 4 ≤ a + n) } })
        else (c, { k with l1 := (span a n).foldl (fun l b => l.note b (s.mem.at d b)) k.l1 })
      else (c, k) }

/-- A written byte that other paths may still read as old (08 R140). A write that changes nothing, over nothing unread, leaves no trace. -/
def notePath (t : Tbl (List PathWrite)) (who : Pid) (p : Path) (a : Nat) (old new : Byte) : Tbl (List PathWrite) :=
  let l := Tbl.get [] t a
  if l.isEmpty && old == new then t else Tbl.set [] t a ((⟨old, who, p, [], [], [p], []⟩ : PathWrite) :: l)

def State.notePaths (s : State) (who : Who) (p : Path) (a : Nat) (bs : List Byte) : State :=
  let t := (List.zip (span a bs.length) bs).foldl (fun t (b, v) => notePath t (s.pid who) p b (s.mem.at (dieOf who.core) b) v) s.mem.path
  { s with mem := { s.mem with path := t } }

/-- The home takes the bytes: they become the next in coherence order (09 R167). -/
def State.homeStore (s : State) (core a : Nat) (bs : List Byte) : State :=
  let s := s.fixSectors a bs.length
  let s := (s.noteL1 0 core a bs.length).noteL1 1 core a bs.length
  { s with mem := { s.mem with mem := Tbl.setList 0 s.mem.mem a bs } }

/-- Die d's view of n bytes at a := f. -/
def MemState.setViews (m : MemState) (d a n : Nat) (f : Nat → Option Byte) : MemState :=
  m.setView d ((span a n).foldl (fun t b => Tbl.set none t b (f b)) (m.view d))

def msgCovers (m : Msg) (a : Nat) : Bool := m.addr ≤ a && a < m.addr + m.bytes.length

/-- An EF store of die d to a byte is still on its way to the home. -/
def MemState.efOf (m : MemState) (d b : Nat) : Bool := m.msgs.any fun e => e.kind == .ef && e.die == d && msgCovers e b

/-- Die d reads n bytes as the home has them, but for its own EF stores on their way (09 R167). -/
def MemState.freshen (m : MemState) (d a n : Nat) : MemState :=
  m.setViews d a n fun b => if m.efOf d b then Tbl.get none (m.view d) b else none

/-- Die d's guest copies of the lines of n bytes go, but for those that hold its own EF stores on their way. -/
def MemState.dropGuest (m : MemState) (d a n : Nat) : MemState :=
  m.setGuests d ((m.guests d).filter fun l => !(linesOf a n).contains l || (span (128 * l) 128).any (m.efOf d))

/-- The other die's guest copy is to be invalidated: until the message arrives, its readers see what it held (09 R169). A dead die reads no
more, and an EF store waits for no answer of it (entry 21). -/
def State.invalidateGuest (s : State) (who : Who) (region d a va n age : Nat) : State :=
  let o := 1 - d
  if !(s.die o).dead && (linesOf a n).any (s.mem.guests o).contains then
    let m := s.mem.setViews o a n fun b => some (s.mem.at o b)
    { s with mem := { m with msgs := m.msgs ++ [⟨.inval, d, who, region, a, va, Tbl.getList 0 s.mem.mem a n, s.tref.toNat, age⟩] } }
  else s

/-- The lines that a die's L2 holds as guest copies: 96 MiB of them at most (01 Table 1); the oldest go first. DESIGN CHOICE (entry 24). -/
def MemState.capGuests (m : MemState) (d : Nat) : MemState :=
  let l := m.guests d
  (l.drop 786432).foldl (fun m x => m.freshen d (128 * x) 128) (m.setGuests d (l.take 786432))
def MemState.addGuests (m : MemState) (d a n : Nat) : MemState :=
  (m.setGuests d ((linesOf a n).filter (fun l => !(m.guests d).contains l) ++ m.guests d)).capGuests d

/-- An EF store of a party, performed at its die's L2 (09 R169): at the home, which invalidates the other die's guest copy; or into a
guest copy, with a message to the home. -/
def State.efStore (s : State) (who : Who) (p : Path) (region home a va age : Nat) (bs : List Byte) : State :=
  let d := dieOf who.core
  let s := s.notePaths who p a bs
  if home = d then
    let s := s.invalidateGuest who region d a va bs.length age
    let s := s.homeStore who.core a bs
    { s with mem := s.mem.setViews d a bs.length fun _ => none }
  else
    let s := s.fixSectors a bs.length
    let s := s.noteL1 d who.core a bs.length
    let m := s.mem.setViews d a bs.length fun b => bs[b - a]?
    let m : MemState := { m with msgs := m.msgs ++ [⟨.ef, d, who, region, a, va, bs, s.tref.toNat, age⟩] }
    { s with mem := (m.addGuests d a bs.length).healGuest d a bs.length }

/-- A store that both dies see at once: the acknowledgement of a GA store (09 R170), and the device's own stores. A die keeps its own EF
stores that the home has not ordered yet (R167). -/
def State.gaStore (s : State) (core a : Nat) (bs : List Byte) : State :=
  let s := s.homeStore core a bs
  { s with mem := (((s.mem.freshen 0 a bs.length).freshen 1 a bs.length).dropGuest 0 a bs.length).dropGuest 1 a bs.length }

/-- A read-modify-write at the home (09 R165): with G = 1 the other die's guest copy is invalidated before it returns (R170). -/
def State.homeRmw (s : State) (who : Who) (p : Path) (region a va age : Nat) (ga : Bool) (bs : List Byte) : State :=
  let d := dieOf who.core
  let s := s.notePaths who p a bs
  if ga then s.gaStore who.core a bs
  else
    let s := s.invalidateGuest who region d a va bs.length age
    let s := s.homeStore who.core a bs
    { s with mem := s.mem.freshen d a bs.length }

/-- What a die reads of a byte is what the newest write left there: it has no older copy, and no EF store on its way to the home is another
die's. -/
def State.current (s : State) (d b : Nat) : Bool := ((Tbl.get none (s.mem.view d) b).isNone || s.mem.efOf d b) && !s.mem.efOf (1 - d) b

/-- EF stores of a die that are on their way to the home and cover one of n bytes at a. -/
def State.efPending (s : State) (d a n : Nat) : Bool := (span a n).any (s.mem.efOf d)

/-- A die that reads n bytes at their home keeps no older copy of them: what its cores read then is one instant's (09 R167, R168). -/
def State.readHome (s : State) (d home a n : Nat) : State :=
  if home = d then s else { s with mem := (s.mem.freshen d a n).dropGuest d a n }

/-- A replica of a group that is not yet acknowledged as a whole covers one of n bytes: a read of it waits (09 R170). A read of die d waits as
well for the acknowledgement of its own GA store there, which the home has taken (09 Table 4). -/
def State.heldAt (s : State) (d a n : Nat) : Bool :=
  s.mem.held.any (fun h => decide (h.2.1 < a + n) && decide (a < h.2.1 + h.2.2)) ||
  s.mem.msgs.any fun m => m.kind == .gaAck && m.die == d && decide (m.addr < a + n) && decide (a < m.addr + m.bytes.length)

/-- Whether the i-th message may arrive: a message waits behind earlier ones of its die to the same bytes, but for acknowledgements (09 R172). -/
def State.msgReady (s : State) (i : Nat) : Option Msg :=
  match s.mem.msgs[i]? with
  | none => none
  | some m =>
    if m.kind != .gaAck && (s.mem.msgs.take i).any fun e => e.kind != .gaAck && e.die == m.die && (span m.addr m.bytes.length).any (msgCovers e) then none
    else some m

def State.dropMsg (s : State) (i : Nat) : State := { s with mem := { s.mem with msgs := s.mem.msgs.eraseIdx i } }

/-- An EF store arrives at its home and is ordered there (09 R169): the issuing die's copy keeps a later store still on its way. -/
def State.efArrive (s : State) (i : Nat) (m : Msg) : State :=
  let s := s.dropMsg i
  let s := s.homeStore m.who.core m.addr m.bytes
  { s with mem := s.mem.freshen m.die m.addr m.bytes.length }

/-- An invalidation arrives at the other die: its guest copy is gone, but for its own EF stores on their way (09 R167). -/
def State.invalArrive (s : State) (i : Nat) (m : Msg) : State :=
  let o := 1 - m.die
  let s := s.dropMsg i
  let s := s.noteL1 o 224 m.addr m.bytes.length
  { s with mem := (s.mem.freshen o m.addr m.bytes.length).dropGuest o m.addr m.bytes.length }

/-- Poison the lines of n bytes at a (09 R175). -/
def State.poisonLines (s : State) (a n : Nat) : State :=
  { s with mem := { s.mem with bad := (linesOf a n).foldl (fun t l => Tbl.setList false t (4 * l) [true, true, true, true]) s.mem.bad } }

/-- A read by a die makes a guest copy of a line whose home is the other die. -/
def State.addGuest (s : State) (d home a n : Nat) : State := if home = d then s else { s with mem := s.mem.addGuests d a n }

/-! Translation -/

/-- A leaf that maps an address (08 R151, R152): the entry, the level, where it stands, the page's base and size in virtual addresses,
and the physical address. -/
structure Leaf where
  e : DWord
  level : Nat
  at_ : Nat
  base : Nat
  size : Nat
  phys : Nat
  deriving DecidableEq, Repr

def Leaf.r (l : Leaf) : Bool := flag 1 l.e
def Leaf.w (l : Leaf) : Bool := flag 2 l.e
def Leaf.x (l : Leaf) : Bool := flag 3 l.e
def Leaf.a (l : Leaf) : Bool := flag 4 l.e
def Leaf.p (l : Leaf) : Bool := flag 5 l.e
def Leaf.m (l : Leaf) : Bool := flag 6 l.e
def Leaf.q (l : Leaf) : Bool := flag 7 l.e
/-- C: 0 write-back, 1 L2-only, 2 uncached, 3 write-combining. -/
def Leaf.c (l : Leaf) : Nat := fld 10 2 l.e
/-- The home die: H, or physical address bit 12 (08 Table 6). -/
def Leaf.home (l : Leaf) : Nat := match fld 8 2 l.e with | 0 => 0 | 1 => 1 | _ => l.phys / 4096 % 2
/-- The peer of a Q = 1 leaf, FRAME[51:44], and the address in its aperture. -/
def Leaf.peer (l : Leaf) : Nat := l.phys / 2 ^ 44
def Leaf.peerAddr (l : Leaf) : Nat := l.phys % 2 ^ 44

/-- How a walk of the tables ends (08 R151, R152, R400; the statuses of PROBE, 22 Table 6). -/
inductive Walk
  | leaf (l : Leaf)
  | absent (level : Nat) (e : DWord)
  | malformed (level : Nat) (e : DWord)
  | nonCanonical
  | noSpace
  | poisoned (addr : Nat)
  deriving DecidableEq, Repr

/-- The number of consecutive ones of x from bit 0, at most n. -/
def onesRun : Nat → Nat → Nat
  | 0, _ => 0
  | n + 1, x => if x % 2 = 1 then 1 + onesRun n (x / 2) else 0

/-- The page that a leaf at a level maps (08 R152). DEDUCED (entry 23). -/
def readLeaf (level at_ : Nat) (e : DWord) (va : Nat) : Walk :=
  let b := 12 + 9 * level
  let frame := fld 12 40 e * 4096
  let t := onesRun 8 (frame / 2 ^ b)
  if level ≥ 3 || fld 52 12 e != 0 || fld 8 2 e == 3 || frame % 2 ^ b != 0 then .malformed level e
  else if t = 0 then .leaf ⟨e, level, at_, va / 2 ^ b * 2 ^ b, 2 ^ b, frame + va % 2 ^ b⟩
  else if t = 3 || (t = 6 && level = 0) then
    let n := b + t + 1
    .leaf ⟨e, level, at_, va / 2 ^ n * 2 ^ n, 2 ^ n, frame - (2 ^ t - 1) * 2 ^ b + va % 2 ^ n⟩
  else .malformed level e

/-- The walk below a node of a level (08 R151): `none` where the entry points to the next node. -/
def readEntry (m : MemState) (level node va : Nat) : Walk ⊕ Nat :=
  let pa := node + 8 * (va / 2 ^ (12 + 9 * level) % 512)
  if (m.badAt pa 8).isSome then .inl (.poisoned pa)
  else
    let e : DWord := BitVec.ofNat 64 (natOf (Tbl.getList 0 m.mem pa 8))
    if !flag 0 e then .inl (.absent level e)
    else if fld 1 3 e = 0 then
      if fld 4 8 e != 0 || fld 52 12 e != 0 || level = 0 then .inl (.malformed level e) else .inr (fld 12 40 e * 4096)
    else .inl (readLeaf level pa e va)

def walkFrom (m : MemState) : Nat → Nat → Nat → Walk
  | 0, node, va => match readEntry m 0 node va with | .inl w => w | .inr _ => .noSpace
  | level + 1, node, va => match readEntry m (level + 1) node va with | .inl w => w | .inr n => walkFrom m level n va

/-- Bits [63:57] equal bit 56 (08 R151). -/
def canonical (va : DWord) : Bool := fld 56 8 va == 0 || fld 56 8 va == 255

/-- The walk of an address in an address space (08 R151). -/
def State.walk (s : State) (asid : Nat) (va : DWord) : Walk :=
  if !canonical va then .nonCanonical
  else
    let pa := s.regs.astab.toNat + 8 * asid
    if (s.mem.badAt pa 8).isSome then .poisoned pa
    else
      let e : DWord := BitVec.ofNat 64 (natOf (s.homeBytes pa 8))
      if !flag 0 e then .noSpace
      else if fld 1 11 e != 0 || fld 52 12 e != 0 then .malformed 5 e
      else walkFrom s.mem 4 (fld 12 40 e * 4096) (va.toNat % 2 ^ 57)

/-- A translation that a TLB of the core's cluster still holds for the address (08 R153). -/
def State.tlbHit (s : State) (core asid : Nat) (va : DWord) : Option TlbEnt :=
  s.mem.tlb.find? fun t =>
    t.cluster == clusterOf core && t.asid == asid && !t.dropped.contains core && decide (t.base ≤ va.toNat % 2 ^ 57) &&
    decide (va.toNat % 2 ^ 57 < t.base + t.size)

/-- The translation an access uses: where a TLB holds another entry than the tables, either one (08 R153). -/
def State.translate (s : State) (core asid : Nat) (va : DWord) : Walk :=
  let w := s.walk asid va
  match s.tlbHit core asid va with
  | none => w
  | some t =>
    let level := if t.size ≥ 2 ^ 30 then 2 else if t.size ≥ 2 ^ 21 then 1 else 0
    let held := readLeaf level 0 t.leaf (va.toNat % 2 ^ 57)
    match w with
    | .leaf l => if l.e = t.leaf then w else if s.coin 2 (va.toNat / 4096) then held else w
    | _ => if s.coin 2 (va.toNat / 4096) then held else w

/-- Leave out the last of the entries that satisfy a test. -/
def dropLast {α : Type} (p : α → Bool) (l : List α) : List α :=
  match l.reverse.findIdx? p with
  | some k => l.eraseIdx (l.length - 1 - k)
  | none => l

/-- A TLB keeps the translation that an access used: a cluster's holds 4,096 of them (01 Table 1), the oldest gives way. -/
def State.tlbFill (s : State) (core asid : Nat) (va : DWord) : State :=
  match s.tlbHit core asid va, s.walk asid va with
  | none, .leaf l =>
    let mine (t : TlbEnt) : Bool := t.cluster == clusterOf core
    let rest := if (s.mem.tlb.filter mine).length < 4096 then s.mem.tlb else dropLast mine s.mem.tlb
    { s with mem := { s.mem with tlb := ⟨clusterOf core, asid, l.base, l.size, l.e, []⟩ :: rest } }
  | _, _ => s

/-- Remove translations that satisfy a test from the TLBs of a set of cores (23 R391). -/
def State.tlbDrop (s : State) (p : TlbEnt → Bool) : State := { s with mem := { s.mem with tlb := s.mem.tlb.filter fun t => !p t } }
def State.tlbDropCore (s : State) (core : Nat) (p : TlbEnt → Bool) : State :=
  { s with mem := { s.mem with tlb := s.mem.tlb.map fun t =>
      if t.cluster == clusterOf core && p t then { t with dropped := core :: t.dropped } else t } }

/-- What an access is, for the checks of 08 R153. -/
inductive Access | load | store | rmw | fetch
  deriving DecidableEq, Repr

/-- A fault of an access: its cause, its address, and whether the record asks for migration (08 R153). -/
structure AccFault where
  cause : Cause
  addr : DWord
  mig : Bool
  deriving DecidableEq, Repr

/-- The checks of 08 R153 on a leaf, in order; a plain access may not use a Q = 1 page. -/
def checkLeaf (kind : Access) (plain handler : Bool) (va : DWord) (l : Leaf) : Except AccFault Leaf :=
  let no (c : Cause) (mig : Bool) : Except AccFault Leaf := .error ⟨c, va, mig⟩
  if l.p && !handler then no .privDeny false
  else if l.q && plain then no .remote l.m
  else if (kind == .load || kind == .rmw) && !l.r then no .readDeny false
  else if (kind == .store || kind == .rmw) && !l.w then no .writeDeny false
  else if kind == .rmw && !l.a then no .atomDeny false
  else if kind == .fetch && !l.x then no .execDeny false
  else .ok l

/-- A translated access (08 R153, R400): the leaf, or the first fault. A page that another party's CLAIM is moving faults with
MIGRATING (08 R156). -/
def State.access (s : State) (core asid : Nat) (who : Option Who) (kind : Access) (plain handler : Bool) (va : DWord) :
    Except AccFault Leaf :=
  if s.mem.moving.any fun m => m.asid == asid && some m.who != who && decide (m.lo ≤ va.toNat) && decide (va.toNat < m.lo + m.len) then
    .error ⟨.migrating, va, false⟩
  else match s.translate core asid va with
    | .leaf l =>
      checkLeaf kind plain handler va l
    | .poisoned pa => .error ⟨.poison, BitVec.ofNat 64 pa, false⟩
    | _ => .error ⟨.notPresent, va, false⟩

/-- The offset of the first poisoned byte of n bytes at a leaf's address (12 R241): every line homed on a dead die is poisoned (12
R240). -/
def State.unitBad (s : State) (l : Leaf) (n : Nat) : Option Nat :=
  if l.q then none
  else if (s.die l.home).dead then some 0
  else (s.mem.badAt l.phys n).map (· - l.phys)

/-- The same of a read at die d's L2, which has its guest copy; `home`: of a read at the home. -/
def State.readBad (s : State) (d : Nat) (home : Bool) (l : Leaf) (n : Nat) : Option Nat :=
  match s.unitBad l n, (if l.q || home || l.home == d then none else sectorBad (s.mem.gbad d) l.phys n) with
  | some x, some a => some (min x (a - l.phys))
  | some x, none => some x
  | none, some a => some (a - l.phys)
  | none, none => none

/-- The lowest poisoned word among bytes that a core's L1 holds (12 R241): its offset. -/
def L1.badAt (x : L1) (a n : Nat) : Option Nat :=
  if x.bad.isEmpty || n = 0 then none
  else ((span (a / 4) ((a + n - 1) / 4 - a / 4 + 1)).find? fun k => x.lines.contains (k / 32) && Tbl.get false x.bad k).map fun k => max a (4 * k) - a

/-- The device's own read of bytes at a virtual address, outside handler level (10 R401): it needs R and no poison. -/
def State.deviceRead (s : State) (asid align n : Nat) (va : DWord) : Except (Cause × DWord) (List Byte) :=
  if va.toNat % align != 0 then .error (.align, va)
  else match s.access 0 asid none .load true false va with
    | .error f => .error (f.cause, f.addr)
    | .ok l =>
      match s.unitBad l n with
      | some k => .error (.poison, va + BitVec.ofNat 64 k)
      | none => .ok (s.homeBytes l.phys n)

end Sys2Proof.Machine
end

