-- ==== Sys2Proof/Machine/Num.lean ====
section
/-! DEFINITION. Number formats, exact arithmetic and rounding (06 R98 to R114). An exact value is a signed fraction of naturals; one
rounding makes a result of it. -/

namespace Sys2Proof.Machine

/-- What an element gives: its bits, the events it counts, whether it traps (FPTRAP) under policy 11. -/
structure Elem where
  bits : Nat
  ev : List Ev
  trap : Bool
  deriving DecidableEq, Repr

/-- A value: a NaN, a signed infinity, or a signed fraction n ÷ d with d above 0. -/
inductive Num
  | nan
  | inf (neg : Bool)
  | fin (neg : Bool) (n d : Nat)
  deriving DecidableEq, Repr

/-- A floating-point format (06 Table 1). -/
structure FloatFmt where
  eb : Nat
  fb : Nat
  bias : Nat
  /-- false: E4M3 -/
  ieee : Bool
  deriving DecidableEq, Repr

def fF64 : FloatFmt := ⟨11, 52, 1023, true⟩
def fF32 : FloatFmt := ⟨8, 23, 127, true⟩
def fF16 : FloatFmt := ⟨5, 10, 15, true⟩
def fBF16 : FloatFmt := ⟨8, 7, 127, true⟩
def fE4M3 : FloatFmt := ⟨4, 3, 7, false⟩
def fE5M2 : FloatFmt := ⟨5, 2, 15, true⟩

namespace FloatFmt

def width (f : FloatFmt) : Nat := 1 + f.eb + f.fb
def signBit (f : FloatFmt) : Nat := 2 ^ (f.eb + f.fb)
/-- The largest finite magnitude. -/
def maxBits (f : FloatFmt) : Nat := if f.ieee then (2 ^ f.eb - 1) * 2 ^ f.fb - 1 else 2 ^ (f.eb + f.fb) - 2
def infBits (f : FloatFmt) : Nat := (2 ^ f.eb - 1) * 2 ^ f.fb
/-- The canonical NaN (06 R99). -/
def nanBits (f : FloatFmt) : Nat := if f.ieee then f.infBits + 2 ^ (f.fb - 1) else 2 ^ (f.eb + f.fb) - 1
def withSign (f : FloatFmt) (neg : Bool) (m : Nat) : Nat := if neg then f.signBit + m else m

/-- The value of a bit pattern (06 R98). -/
def read (f : FloatFmt) (x : Nat) : Num :=
  let neg := x / f.signBit % 2 == 1
  let m := x % f.signBit
  let e := m / 2 ^ f.fb
  let frac := m % 2 ^ f.fb
  if f.ieee && e == 2 ^ f.eb - 1 then (if frac = 0 then .inf neg else .nan)
  else if !f.ieee && m == f.signBit - 1 then .nan
  else
    let sig := if e = 0 then frac else frac + 2 ^ f.fb
    let e := max e 1
    if e ≥ f.bias + f.fb then .fin neg (sig * 2 ^ (e - f.bias - f.fb)) 1 else .fin neg sig (2 ^ (f.bias + f.fb - e))

end FloatFmt

/-! Rounding -/

/-- ⌊log2 (n ÷ d)⌋ for n, d above 0. -/
def expOf (n d : Nat) : Int :=
  let a : Int := (Nat.log2 n : Int) - (Nat.log2 d : Int)
  if a ≥ 0 then (if d * 2 ^ a.toNat ≤ n then a else a - 1) else (if d ≤ n * 2 ^ (-a).toNat then a else a - 1)

/-- n ÷ d × 2^k. -/
def scale2 (n d : Nat) (k : Int) : Nat × Nat := if k ≥ 0 then (n * 2 ^ k.toNat, d) else (n, d * 2 ^ (-k).toNat)

/-- Whether rounding goes to the larger magnitude, for a magnitude of q units and r ÷ d of a unit (06 R103, R104). -/
def roundsUp (rm : Rm) (neg : Bool) (draw q r d : Nat) : Bool :=
  match rm with
  | .rne => decide (2 * r > d) || (2 * r == d && q % 2 == 1)
  | .rna => decide (2 * r ≥ d)
  | .rtz => false
  | .rup => r != 0 && !neg
  | .rdn => r != 0 && neg
  | .sr => decide (r * 65536 / d + draw ≥ 65536)

/-- The magnitude n ÷ d rounded to an integer. -/
def roundInt (rm : Rm) (neg : Bool) (draw n d : Nat) : Nat :=
  if roundsUp rm neg draw (n / d) (n % d) d then n / d + 1 else n / d

/-- The bits of the magnitude n ÷ d rounded to a format, with the exponent range taken as unbounded above (06 R103, R106). -/
def FloatFmt.magBits (f : FloatFmt) (rm : Rm) (neg : Bool) (draw n d : Nat) : Nat :=
  if n = 0 then 0
  else
    let low : Int := 1 - (f.bias : Int) - f.fb
    let u := max (expOf n d - f.fb) low
    let (n', d') := scale2 n d (-u)
    (u - low).toNat * 2 ^ f.fb + roundInt rm neg draw n' d'

/-- What an arithmetic word forms before its one rounding. A NaN counts when no operand is a NaN (06 Table 6). -/
inductive Exact
  | nan (counts : Bool)
  | inf (neg : Bool)
  | fin (neg : Bool) (n d : Nat)
  deriving DecidableEq, Repr

def srEv (rm : Rm) : List Ev := if rm = .sr then [.sruse] else []

/-- The rounded result of an arithmetic word with its events: overflow as IEEE 754-2019 gives, SR and RNA giving infinity (06 R100,
R106, 21 R315). -/
def FloatFmt.finish (f : FloatFmt) (rm : Rm) (ftz : Bool) (draw : Nat) : Exact → Elem
  | .nan counts => ⟨f.nanBits, (if counts then [.nan] else []) ++ srEv rm, false⟩
  | .inf neg => ⟨f.withSign neg f.infBits, srEv rm, false⟩
  | .fin neg n d =>
    let b := f.magBits rm neg draw n d
    if b > f.maxBits then
      let toMax := match rm with | .rtz => true | .rup => neg | .rdn => !neg | _ => false
      ⟨f.withSign neg (if toMax then f.maxBits else f.infBits), [.ovf] ++ srEv rm, false⟩
    else if n != 0 && (b == 0 || (ftz && decide (b < 2 ^ f.fb))) then ⟨f.withSign neg 0, [.unf] ++ srEv rm, false⟩
    else ⟨f.withSign neg b, srEv rm, false⟩

/-! Exact arithmetic (21 R318, R321, R327) -/

def Num.neg : Num → Num
  | .nan => .nan
  | .inf s => .inf (!s)
  | .fin s n d => .fin (!s) n d
def Num.isNan : Num → Bool
  | .nan => true
  | _ => false
def sgn (neg : Bool) (n : Nat) : Int := if neg then -(n : Int) else n

/-- A sum. An exact zero of operands of opposite sign is +0, or −0 under `.rdn`. -/
def Num.add (rm : Rm) : Num → Num → Exact
  | .nan, _ | _, .nan => .nan false
  | .inf s, .inf t => if s = t then .inf s else .nan true
  | .inf s, .fin _ _ _ => .inf s
  | .fin _ _ _, .inf t => .inf t
  | .fin s n d, .fin t m e =>
    let v : Int := sgn s (n * e) + sgn t (m * d)
    if v = 0 then .fin (if s = t then s else rm == .rdn) 0 1 else .fin (decide (v < 0)) v.natAbs (d * e)

def Num.mul : Num → Num → Exact
  | .nan, _ | _, .nan => .nan false
  | .inf s, .inf t => .inf (xor s t)
  | .inf s, .fin t m _ => if m = 0 then .nan true else .inf (xor s t)
  | .fin s n _, .inf t => if n = 0 then .nan true else .inf (xor s t)
  | .fin s n d, .fin t m e => .fin (xor s t) (n * m) (d * e)

/-- A × B + C with one rounding. -/
def Num.fma (rm : Rm) (a b c : Num) : Exact :=
  match a.mul b with
  | .nan counts => .nan (counts && !c.isNan)
  | .inf s => (Num.inf s).add rm c
  | .fin s n d => (Num.fin s n d).add rm c

def Num.div : Num → Num → Exact
  | .nan, _ | _, .nan => .nan false
  | .inf _, .inf _ => .nan true
  | .inf s, .fin t _ _ => .inf (xor s t)
  | .fin s _ _, .inf t => .fin (xor s t) 0 1
  | .fin s n d, .fin t m e =>
    if m = 0 then (if n = 0 then .nan true else .inf (xor s t)) else .fin (xor s t) (n * e) (d * m)

/-- ⌊√n⌋, bit by bit from bit k. -/
def isqrtFrom (n : Nat) : Nat → Nat → Nat
  | 0, r => if (r + 1) * (r + 1) ≤ n then r + 1 else r
  | k + 1, r =>
    let t := r + 2 ^ (k + 1)
    isqrtFrom n k (if t * t ≤ n then t else r)
def isqrt (n : Nat) : Nat := isqrtFrom n (Nat.log2 n / 2 + 1) 0

/-- The square root of n ÷ d, exact, or a fraction strictly between the two nearest multiples of 2^−160 ÷ d: every rounding of a
format sees the exact root through it. -/
def sqrtFrac (n d : Nat) : Nat × Nat :=
  let m := n * d * 2 ^ 320
  let r := isqrt m
  if r * r = m then (r, d * 2 ^ 160) else (2 * r + 1, d * 2 ^ 161)

def Num.sqrt : Num → Exact
  | .nan => .nan false
  | .inf s => if s then .nan true else .inf false
  | .fin s n d => if n = 0 then .fin s 0 1 else if s then .nan true else let (a, b) := sqrtFrac n d; .fin false a b

/-- A × 2^k: a power beyond every format's range acts as the end of that range. -/
def Num.scaleBy (k : Int) : Num → Exact
  | .nan => .nan false
  | .inf s => .inf s
  | .fin s n d => let (a, b) := scale2 n d (max (-5000) (min 5000 k)); .fin s a b

/-- A comparison of magnitudes with signs; none when either is a NaN. −0 equals +0. -/
def Num.cmp : Num → Num → Option Ordering
  | .nan, _ | _, .nan => none
  | .inf s, .inf t => some (if s = t then .eq else if s then .lt else .gt)
  | .inf s, _ => some (if s then .lt else .gt)
  | _, .inf t => some (if t then .gt else .lt)
  | .fin s n d, .fin t m e => some (compare (sgn s (n * e)) (sgn t (m * d)))

def Num.negative : Num → Bool
  | .nan => false
  | .inf s | .fin s _ _ => s

/-! Down-conversion (06 R102, R106) -/

/-- Rounding to a floating-point format under an overflow policy. -/
def FloatFmt.convert (f : FloatFmt) (rm : Rm) (ov : Ov) (draw : Nat) (x : Num) : Elem :=
  let ovfl (neg : Bool) : Elem :=
    match ov with
    | .sat => ⟨f.withSign neg f.maxBits, [.sat] ++ srEv rm, false⟩
    | .inf => ⟨if f.ieee then f.withSign neg f.infBits else f.nanBits, [.ovf] ++ srEv rm, false⟩
    | .nan => ⟨f.nanBits, [.ovf] ++ srEv rm, false⟩
    | .trap => ⟨0, [.ovf], true⟩
  match x with
  | .nan => ⟨f.nanBits, srEv rm, false⟩
  | .inf neg => if f.ieee then ⟨f.withSign neg f.infBits, srEv rm, false⟩ else ovfl neg
  | .fin neg n d =>
    let b := f.magBits rm neg draw n d
    if b > f.maxBits then ovfl neg
    else ⟨f.withSign neg b, (if n != 0 && b == 0 then [.unf] else []) ++ srEv rm, false⟩

/-- Rounding to an integer format of w bits (06 R102): a nonzero value that rounds to zero counts UNF (06 R115, Table 6). -/
def convertInt (w : Nat) (signed : Bool) (rm : Rm) (ov : Ov) (draw : Nat) (x : Num) : Elem :=
  let lo : Int := if signed then -(2 ^ (w - 1)) else 0
  let hi : Int := if signed then 2 ^ (w - 1) - 1 else 2 ^ w - 1
  let bits (v : Int) : Nat := (BitVec.ofInt w v).toNat
  let ovfl (v : Int) : Elem := if ov = .trap then ⟨0, [.sat], true⟩ else ⟨bits v, [.sat] ++ srEv rm, false⟩
  match x with
  | .nan => ovfl 0
  | .inf neg => ovfl (if neg then lo else hi)
  | .fin neg n d =>
    let v := sgn neg (roundInt rm neg draw n d)
    if v < lo then ovfl lo else if v > hi then ovfl hi else ⟨bits v, (if n != 0 && v == 0 then [.unf] else []) ++ srEv rm, false⟩

/-- The value of a two's-complement or unsigned pattern. -/
def intNum (w : Nat) (signed : Bool) (x : Nat) : Num :=
  let v : Int := if signed then (BitVec.ofNat w x).toInt else ((x % 2 ^ w : Nat) : Int)
  .fin (decide (v < 0)) v.natAbs 1

/-- The scale of an E8M0 code (06 R107). -/
def e8m0 (e : Nat) : Num :=
  if e = 255 then .nan else let (n, d) := scale2 1 1 ((e : Int) - 127); .fin false n d

/-- The value that a format code gives low bits of a register or pair (22 R306, 06 R98, R102, R107). NQ4 and SC8 are values only
under a scale. -/
def fmtRead : Fmt → Nat → Num
  | .f32, x => fF32.read (x % 2 ^ 32)
  | .f64, x => fF64.read x
  | .f16, x => fF16.read (x % 2 ^ 16)
  | .bf16, x => fBF16.read (x % 2 ^ 16)
  | .e4m3, x => fE4M3.read (x % 2 ^ 8)
  | .e5m2, x => fE5M2.read (x % 2 ^ 8)
  | .i8, x => intNum 8 true x
  | .u8, x => intNum 8 false x
  | .i16, x => intNum 16 true x
  | .i32, x => intNum 32 true x
  | .u32, x => intNum 32 false x
  | .i64, x => intNum 64 true x
  | .e8m0, x => e8m0 (x % 256)
  | .nq4, _ | .sc8, _ => .nan

/-- Conversion of a value into a destination format of CVT (22 Table 9). -/
def fmtConvert (f : Fmt) (rm : Rm) (ov : Ov) (draw : Nat) (x : Num) : Elem :=
  match f with
  | .f32 => fF32.convert rm ov draw x
  | .f64 => fF64.convert rm ov draw x
  | .f16 => fF16.convert rm ov draw x
  | .bf16 => fBF16.convert rm ov draw x
  | .e4m3 => fE4M3.convert rm ov draw x
  | .e5m2 => fE5M2.convert rm ov draw x
  | .i8 => convertInt 8 true rm ov draw x
  | .u8 => convertInt 8 false rm ov draw x
  | .i16 => convertInt 16 true rm ov draw x
  | .i32 => convertInt 32 true rm ov draw x
  | .u32 => convertInt 32 false rm ov draw x
  | .i64 => convertInt 64 true rm ov draw x
  | .nq4 | .e8m0 | .sc8 => ⟨0, [], false⟩

def fmtOf8 : Fmt8 → Fmt
  | .e4m3 => .e4m3
  | .e5m2 => .e5m2
  | .i8 => .i8
  | .u8 => .u8

/-- The bits of an element of a format. -/
def fmtBits : Fmt → Nat
  | .nq4 => 4
  | .e4m3 | .e5m2 | .i8 | .u8 | .e8m0 | .sc8 => 8
  | .f16 | .bf16 | .i16 => 16
  | .f32 | .i32 | .u32 => 32
  | .f64 | .i64 => 64

/-- PK8 of one element (22 R361). -/
def pk8Elem (f : Fmt8) (rm : Rm) (ov : Ov) (draw code a : Nat) : Elem :=
  let y := if code = 255 then Num.nan
    else match fF32.read a with
      | .fin s n d => let (n, d) := scale2 n d (127 - (code : Int)); .fin s n d
      | x => x
  fmtConvert (fmtOf8 f) rm ov draw y

/-- UPK8 of one element (23 R393): an exact product and one rounding to F32. -/
def upk8Elem (f : Fmt8) (code a : Nat) : Elem :=
  if code = 255 then ⟨fF32.nanBits, [], false⟩
  else fF32.finish .rne false 0 ((fmtRead (fmtOf8 f) a).scaleBy ((code : Int) - 127))

/-- The NQ4 codebook (06 Table 3). -/
def nq4Levels : List Int := [-127, -92, -70, -53, -39, -27, -14, 0, 12, 24, 36, 49, 63, 79, 99, 127]
def nq4Level (i : Nat) : Int := (nq4Levels[i]?).getD 0

/-- The index whose level is nearest to the integer pair y = v ÷ d, the level of smaller magnitude on a tie (06 R111). -/
def nq4Nearest (v : Int) (d : Nat) : Nat :=
  (List.range 16).foldl (fun best i =>
    let dist (k : Nat) : Nat := (v - nq4Level k * d).natAbs
    if dist i < dist best then i
    else if dist i == dist best && (nq4Level i).natAbs < (nq4Level best).natAbs then i else best) 0

/-- PK4 of one element against a block scale (06 R111, 22 R362). -/
def pk4Elem (s a : Nat) : Elem :=
  match fF32.read s, fF32.read a with
  | .fin _ 0 _, _ => ⟨7, [], false⟩
  | sc, x =>
    match x.div sc with
    | .nan _ => ⟨7, [.nan], false⟩
    | .inf neg => ⟨if neg then 0 else 15, [.sat], false⟩
    | .fin neg n d =>
      if n > d then ⟨if neg then 0 else 15, [.sat], false⟩ else ⟨nq4Nearest (sgn neg (127 * n)) d, [], false⟩

/-- UPK4 of one index (06 R110, 23 R393): level × b ÷ 127, with the sign of the product. -/
def upk4Elem (s i : Nat) : Elem :=
  let lv := nq4Level (i % 16)
  let x := (Num.fin (decide (lv < 0)) lv.natAbs 127).mul (fF32.read s)
  fF32.finish .rne false 0 x

/-- QSCL in E8M0 mode (06 R108), for the magnitude of a. -/
def qsclE8m0 (m : Nat) (a : Nat) : Elem :=
  match fF32.read (a % 2 ^ 31) with
  | .nan | .inf _ => ⟨255, [.nan], false⟩
  | .fin _ n d =>
    if n = 0 then ⟨0, [], false⟩
    else
      let e := expOf n (d * m) + 127
      if e < 0 then ⟨0, [.clamp], false⟩ else ⟨e.toNat, [], false⟩

/-- QSCL in SC8 mode (06 R109), for the magnitudes of a and S. -/
def qsclSc8 (a s : Nat) : Elem :=
  match fF32.read (a % 2 ^ 31), fF32.read (s % 2 ^ 31) with
  | .nan, _ | _, .nan => ⟨0, [.nan], false⟩
  | .inf _, .inf _ => ⟨0, [.nan], false⟩
  | .inf _, .fin _ m _ => if m = 0 then ⟨0, [], false⟩ else ⟨255, [.sat], false⟩
  | .fin _ n _, .inf _ => if n = 0 then ⟨0, [], false⟩ else ⟨1, [.clamp], false⟩
  | .fin _ n d, .fin _ m e =>
    if m = 0 then ⟨0, [], false⟩
    else
      let c := roundInt .rne false 0 (255 * n * e) (d * m)
      if c = 0 && n != 0 then ⟨1, [.clamp], false⟩
      else if c > 255 then ⟨255, [.sat], false⟩ else ⟨c, [], false⟩

/-- The block scale of an SC8 code under a super-block scale (06 R107). -/
def sc8Scale (s c : Nat) : Nat :=
  (fF32.finish .rne false 0 ((Num.fin false c 255).mul (fF32.read s))).bits

/-! The stochastic-rounding generator (06 R105) -/

def srStep (s : Word) : Word := if s.getLsbD 0 then (s >>> 1) ^^^ 0x80200003#32 else s >>> 1
def srSteps : Nat → Word → Word
  | 0, s => s
  | n + 1, s => srSteps n (srStep s)
/-- The state after k draws, and the k-th draw from a state. -/
def srAfter (k : Nat) (s : Word) : Word := srSteps (16 * k) s
def srDraw (s : Word) (k : Nat) : Nat := (srAfter (k + 1) s).toNat % 65536
/-- The state of lane l of warp w when a block is placed. -/
def srStart (w l : Nat) : Word := BitVec.ofNat 32 ((64 * w + l + 1) * 0x9E3779B9)

/-! Special functions (06 R113, 21 R320): fixed-point values precise enough to test a candidate against its bound -/

/-- The fraction bits of the fixed-point values. -/
def fx : Nat := 2 ^ 160
/-- ⌊ln 2 × 2^160⌋ and ⌊π × 2^256⌋. -/
def ln2 : Nat := 0xB17217F7D1CF79ABC9E3B39803F2F6AF40F34326
def pi256 : Nat := 0x3243F6A8885A308D313198A2E03707344A4093822299F31D0082EFA98EC4E6C89

/-- e^y by its series, y in fixed point: n terms from the k-th. -/
def expSeries : Nat → Nat → Nat → Nat → Nat
  | 0, _, _, _ => 0
  | n + 1, k, term, y => term + expSeries n (k + 1) (term * y / fx / (k + 1)) y
def expFx (y : Nat) : Nat := expSeries 60 0 fx y

/-- e^−y for y up to 64 in fixed point: e^(y ÷ 64) to the 64th power, inverted. -/
def sqFx (x : Nat) : Nat := x * x / fx
def expNegFx (y : Nat) : Nat := sqFx (sqFx (sqFx (sqFx (sqFx (sqFx (fx * fx / expFx (y / 64)))))))

/-- 2^f for f below 1 in fixed point. -/
def exp2Fx (f : Nat) : Nat := expFx (f * ln2 / fx)

/-- The n highest fraction bits of log2 m for m from 1 to 2 in fixed point. -/
def log2Bits : Nat → Nat → Nat
  | 0, _ => 0
  | n + 1, m =>
    let q := m * m / fx
    if q ≥ 2 * fx then 2 ^ n + log2Bits n (q / 2) else log2Bits n q

/-- The alternating series of sine (from its first term) and cosine, r in fixed point. -/
def altSeries : Nat → Nat → Int → Nat → Int
  | 0, _, _, _ => 0
  | n + 1, k, term, r => term + altSeries n (k + 2) (-(term * r / fx * r / fx / (((k + 1) * (k + 2) : Nat) : Int))) r

/-- A fixed-point angle between 0 and 2 π for the magnitude n ÷ d. -/
def angleFx (n d : Nat) : Nat := n * 2 ^ 256 / d % (2 * pi256) / 2 ^ 96

/-- The exact value of a special function at a finite argument where the special values of 06 Table 5 leave it, to far more precision
than the bounds: sign, numerator and denominator. -/
def sfuVal (op : SfuOp) (neg : Bool) (n d : Nat) : Bool × Nat × Nat :=
  match op with
  | .rcp => (neg, d, n)
  | .rsq => let (a, b) := sqrtFrac d n; (neg, a, b)
  | .exp2 =>
    if n ≥ 200 * d then (false, (scale2 1 1 (if neg then -200 else 200)))
    else
      let x := n * fx / d
      let k : Int := if neg then -((x + fx - 1) / fx : Nat) else (x / fx : Nat)
      let f := if neg then (fx - x % fx) % fx else x % fx
      (false, scale2 (exp2Fx f) fx k)
  | .log2 =>
    let e := expOf n d
    let (a, b) := scale2 n d (-e)
    let v : Int := e * 2 ^ 64 + (log2Bits 64 (a * fx / b) : Nat)
    (decide (v < 0), v.natAbs, 2 ^ 64)
  | .sin =>
    let r := angleFx n d
    let v := altSeries 60 1 r r
    (xor neg (decide (v < 0)), v.natAbs, fx)
  | .cos =>
    let v := altSeries 60 0 fx (angleFx n d)
    (decide (v < 0), v.natAbs, fx)
  | .tanh =>
    let t := expNegFx (min (2 * n * fx / d) (64 * fx))
    (neg, fx - t, fx + t)

/-- One unit in the last place of F32 at a magnitude, as 2^k. -/
def ulpExp (n d : Nat) : Int := if n = 0 then -149 else max (expOf n d - 23) (-149)

def isPow2 (n d : Nat) : Bool := let (a, b) := scale2 n d (-(expOf n d)); a == b

/-- The largest distance from the exact value (06 Table 5), or zero where 21 R320 asks for the exact result; a value too small for F32
to hold is delivered as zero (21 R320). -/
def sfuTol (op : SfuOp) (n d vn vd : Nat) : Nat × Nat :=
  let ulp (k : Nat) : Nat × Nat := scale2 k 1 (ulpExp vn vd)
  let small := vn * 2 ^ 150 ≤ vd
  match op with
  | .rcp => if isPow2 n d || small then (0, 1) else ulp 1
  | .rsq => if isPow2 n d && expOf n d % 2 == 0 then (0, 1) else ulp 1
  | .exp2 => if n % d == 0 || small then (0, 1) else ulp 2
  | .log2 => if isPow2 n d then (0, 1) else if d ≤ 2 * n && n ≤ 2 * d then (1, 2 ^ 22) else ulp 2
  | .sin | .cos => (1, 2 ^ 21)
  | .tanh => let (a, b) := ulp 2; if a * 2 ^ 24 ≥ b then (a, b) else (1, 2 ^ 24)

/-- The magnitude of a candidate, an infinity counting as 2^128. -/
def candidate : Num → Option (Bool × Nat × Nat)
  | .nan => none
  | .inf s => some (s, 2 ^ 128, 1)
  | .fin s n d => some (s, n, d)

/-- Whether a candidate lies within a distance of a value. -/
def within (c v t : Bool × Nat × Nat) : Bool :=
  let (cs, cn, cd) := c
  let (vs, vn, vd) := v
  decide ((sgn cs (cn * vd) - sgn vs (vn * cd)).natAbs * t.2.2 ≤ t.2.1 * (cd * vd))

/-- A special function away from its special values: the unit's own value where it is within the bound, else the value rounded. -/
def sfuFinite (op : SfuOp) (x : Word) (neg : Bool) (n d : Nat) : Nat :=
  let v := sfuVal op neg n d
  let t := sfuTol op n d v.2.1 v.2.2
  let c := (Config.sfu op x).toNat
  match candidate (fF32.read c) with
  | some m => if within m v (false, t) then c else (fF32.finish .rne false 0 (.fin v.1 v.2.1 v.2.2)).bits
  | none => (fF32.finish .rne false 0 (.fin v.1 v.2.1 v.2.2)).bits

/-- FRCP to FTANH (06 Table 5, 21 R320): special values count nothing, a NaN of a finite or infinite argument counts NAN, an infinite
result of a finite nonzero argument OVF, and a nonzero result delivered as zero UNF. -/
def sfuWord (op : SfuOp) (ftz : Bool) (x : Word) : Elem :=
  let nan (counts : Bool) : Elem := ⟨fF32.nanBits, if counts then [.nan] else [], false⟩
  let ok (b : Nat) : Elem := ⟨b, [], false⟩
  let one := 0x3F800000
  match fF32.read x.toNat with
  | .nan => nan false
  | .inf s =>
    match op with
    | .rcp => ok (fF32.withSign s 0)
    | .rsq | .log2 => if s then nan true else ok (if op = .rsq then 0 else fF32.infBits)
    | .exp2 => ok (if s then 0 else fF32.infBits)
    | .sin | .cos => nan true
    | .tanh => ok (fF32.withSign s one)
  | .fin s n d =>
    let special : Option Elem :=
      if n = 0 then
        match op with
        | .rcp | .rsq => some (ok (fF32.withSign s fF32.infBits))
        | .log2 => some (ok (fF32.withSign true fF32.infBits))
        | .sin | .tanh => some (ok (fF32.withSign s 0))
        | .exp2 => some (ok one)
        | .cos => none
      else
        match op with
        | .rsq => if s then some (nan true) else none
        | .log2 => if s then some (nan true) else if n = d then some (ok 0) else none
        | _ => none
    match special with
    | some e => e
    | none =>
      let b := sfuFinite op x s n d
      let m := b % 2 ^ 31
      if m = fF32.infBits then ⟨b, [.ovf], false⟩
      else if m == 0 || (ftz && decide (m < 2 ^ 23)) then ⟨fF32.withSign (decide (b ≥ 2 ^ 31)) 0, [.unf], false⟩
      else ok b

end Sys2Proof.Machine
end

