-- ==== Sys2Proof/WellFormed.lean ====
section
/-! DEFINITION. Which instructions a word can stand for, whatever the engine class of its clause: the conditions of the reference
entries on single fields that the types of Syntax leave open. The conditions that depend on the class (04 R79, R80) are
`Instr.legalIn` of Machine/Operands.lean. An event is no word and is not well formed. -/

namespace Sys2Proof

/-- A scoreboard field is 0 to 6 (04 R73). -/
def sbOk (sb : BitVec 3) : Bool := sb.toNat ≤ 6

/-- A field that names a predicate has bit [7] zero (04 R79). -/
def predOk (x : BitVec 8) : Bool := x.toNat < 128

/-- The lowest register of an aligned group of n (04 R80). -/
def groupOk (n : Nat) (x : BitVec 8) : Bool := x.toNat % n == 0

/-- A group of m registers is m0, m4, m8 or m12 (07 R123). -/
def mGroupOk (x : BitVec 4) : Bool := x.toNat % 4 == 0

/-- An acquire load or a release store has an order the word accepts (09 R161). -/
def loadOrder (o : Order) : Bool := o == .relaxed || o == .acq
def storeOrder (o : Order) : Bool := o == .relaxed || o == .rel

/-- Store sizes leave out the sign-extending codes (04 Table 5). -/
def storeSize (z : Size) : Bool := z != .s8 && z != .s16

/-- The pairs of operation and size of 20 Table 2. -/
def atomSizeOk (op : AtomOp) (z : Size) : Bool :=
  match op with
  | .faddF32 | .faddBf16x2 => z == .b32
  | _ => z == .b32 || z == .b64

/-- An f64 operand is an even pair (04 R80, 05 R94). -/
def pairIf (t : FType) (x : BitVec 8) : Bool := t != .f64 || groupOk 2 x

def fmt64 (f : Fmt) : Bool := f == .f64 || f == .i64

/-- The fields that FADD, FSUB and FMUL leave at zero (21 Table 1). -/
def wfAdd (m : FMod) (o : A3) : Bool := !m.nc && pairIf m.t o.d && pairIf m.t o.a && pairIf m.t o.b

/-- FDIV and FSQRT take f32 and f64 alone (05 Table 13). -/
def scalarType (t : FType) : Bool := t == .f32 || t == .f64

/-- The conditions of each word's reference entry that do not depend on the engine class; false for every event. -/
def Instr.wf : Instr → Bool
  | .iset _ o => predOk o.d
  | .sel _ c => predOk c
  | .x2p d _ _ _ => d.toNat % 32 == 0 && predOk d
  | .p2x _ a _ _ => a.toNat % 32 == 0 && predOk a
  | .plop d a b c _ _ => predOk d && predOk a && predOk b && predOk c
  | .fadd m o | .fsub m o | .fmul m o => wfAdd m o
  | .ffma m o => pairIf m.t o.d && pairIf m.t o.a && pairIf m.t o.b && pairIf m.t o.c
  | .fmin t o | .fmax t o => pairIf t o.d && pairIf t o.a && pairIf t o.b
  | .fset t _ _ o => predOk o.d && pairIf t o.a && pairIf t o.b && ((t == .f32 || t == .f64) || groupOk 2 o.d)
  | .fclass t o => pairIf t o.a
  | .fscale m o => !m.nc && pairIf m.t o.d && pairIf m.t o.a
  | .frnd m o => !m.nc && !m.ftz && pairIf m.t o.d && pairIf m.t o.a
  | .fdiv m o => scalarType m.t && wfAdd m o
  | .fsqrt m o => scalarType m.t && !m.na && !m.nc && pairIf m.t o.d && pairIf m.t o.a
  | .cvt src dst _ _ o =>
      (src != .nq4 && src != .sc8) && (dst != .nq4 && dst != .e8m0 && dst != .sc8) &&
      (!fmt64 src || groupOk 2 o.a) && (!fmt64 dst || groupOk 2 o.d)
  | .pk8 _ _ _ o => groupOk 4 o.a
  | .upk8 _ o => groupOk 4 o.d
  | .pk4 o => groupOk 8 o.a
  | .upk4 o => groupOk 8 o.d
  | .qscl m o => m == .sc8 || (o.b == 0 && o.hb == .none)
  | .shfl _ b64 seg o => seg.toNat ≤ 4 && (!b64 || (groupOk 2 o.d && groupOk 2 o.a))
  | .vote m d a _ hd => predOk a && ((m == .mask || m == .count) || (predOk d && hd == .none))
  | .matchLanes b64 o => !b64 || groupOk 2 o.a
  | .ld o => loadOrder o.order && !o.ga && sbOk o.sb
  | .lds o => loadOrder o.order && o.scope == .blk && !o.ga && o.pol == .dflt && sbOk o.sb
  | .ldc o => o.order == .relaxed && o.scope == .blk && !o.ga && o.pol == .dflt && sbOk o.sb
  | .st o => storeOrder o.order && storeSize o.size && sbOk o.sb
  | .sts o => storeOrder o.order && storeSize o.size && o.scope == .blk && !o.ga && o.pol == .dflt && o.sb == 0
  | .stmc o => storeOrder o.order && storeSize o.size && o.off == 0 && o.pol == .dflt && o.sb == 0 && groupOk 2 o.a
  | .atom o => atomSizeOk o.op o.size && (o.op == .cas || o.c == 0) && sbOk o.sb
  | .atoms o => atomSizeOk o.op o.size && (o.op == .cas || o.c == 0) && sbOk o.sb && o.scope == .blk && !o.ga
  | .red o =>
      atomSizeOk o.op o.size && o.op != .cas && o.d == 0 && o.c == 0 && storeOrder o.order && sbOk o.sb && groupOk 2 o.a
  | .pref a _ _ _ | .disc _ a _ => groupOk 2 a
  | .fence order _ _ _ => order != .relaxed
  | .fencep w r _ => w != r
  | .claim _ a _ sb => groupOk 2 a && sbOk sb
  | .migr a => groupOk 2 a
  | .bcbinit a | .bcbexp a _ | .bcbarv a | .bcbwait a _ | .bcbtry a _ | .ringinit _ a => groupOk 4 a
  | .gbar _ scope => scope == .core || scope == .die || scope == .pkg
  | .dqpop d _ _ => groupOk 2 d
  | .cpy o => groupOk 4 o.a
  | .gth o => groupOk 4 o.a && !o.s2g && !o.ga
  | .sct o => groupOk 4 o.a && !o.s2g
  | .rsend a _ _ _ | .rget a _ _ | .ratom a _ _ _ | .ldimg a _ | .enq a _ => groupOk 4 a
  | .mldb _ id _ _ slot => slot || id == 0
  | .mmul _ | .mmulb _ => true
  | .mscale _ ma mb => mGroupOk ma && mGroupOk mb
  | .mdrain _ _ ma _ _ _ => mGroupOk ma
  | .msig k id _ | .mwait k id _ => k != .bcb || id == 0
  | .tlbinv a _ scope _ => groupOk 2 a && (scope == .core || scope == .die || scope == .pkg)
  | .tlbinvAsid _ scope _ | .tlbinvAll _ scope => scope == .core || scope == .die || scope == .pkg
  | .probe d a _ | .probeAs d a _ _ => groupOk 4 d && groupOk 2 a
  | .wsave a _ _ | .wsaveFrame a _ _ | .wload a _ _ | .wloadFrame a _ _ => groupOk 2 a
  | .nop _ | .bra _ _ | .brx _ _ | .call _ _ _ | .callx _ _ _ | .ret _ _ | .yield _ | .exit _ | .trap _ _ | .bkpt _ _
  | .iadd _ | .isub _ | .imul _ | .imulh _ _ | .imad _ | .idiv _ _ | .irem _ _ | .imin _ _ | .imax _ _ | .iabs _ | .lea _ _
  | .mov _ | .movi _ _ _ | .and _ | .or _ | .xor _ | .andn _ | .lop3 _ _ | .shl _ | .shr _ | .sar _ | .rot _ | .clz _ | .popc _
  | .brev _ | .bfx _ _ | .bfi _ | .frcp _ _ | .frsq _ _ | .fexp2 _ _ | .flog2 _ _ | .fsin _ _ | .fcos _ _ | .ftanh _ _ | .scac _
  | .redux _ _ | .scan _ _ | .migrHome | .barw _ _ | .bara _ _ | .ringacqFill _ _ | .ringacqFree _ _ | .ringrelFill _
  | .ringrelFree _ | .rolechk | .fgrow _ | .ftrim _ | .sgrow _ _ | .sgrowSwz _ _ | .strim _ | .ocwb _ | .dqpush _ _ | .mstart
  | .mstop | .mzero _ _ | .mloop _ _ | .mset _ _ | .mend | .sread _ _ _ _ | .swrite _ _ _ _ | .timeRef _ _ | .timeCyc _ _
  | .eretReplay | .eretResume => true
  | _ => false

end Sys2Proof
end

