-- ==== Sys2Proof/Decode.lean ====
section
/-! DEFINITION. The decoder and the encoder of instruction words (04 R69 to R81, 05 R90 and the reference entries 20 to 23). A word is
cut into the raw fields of its format; the raw fields are read per opcode; every field an instruction does not use is checked for
zero (04 R69). -/

namespace Sys2Proof

/-- Why a word has no instruction: each of these traps (ILLEGAL) at step 3 of 04 R85. -/
inductive DecodeError
  /-- a fixed-zero field is not zero -/
  | reserved
  /-- a field holds a code that its table marks invalid -/
  | code
  /-- the fields break a condition of the word's reference entry (`Instr.wf`) -/
  | illFormed
  deriving DecidableEq, Repr

/-- Codes of `Hint` (03 Table 1). -/
def Hint.code : Hint → BitVec 2
  | .none => 0
  | .last => 1
  | .keep => 2
  | .byp => 3
def Hint.ofCode (x : BitVec 2) : Option Hint :=
  match x.toNat with
  | 0 => Option.some .none
  | 1 => Option.some .last
  | 2 => Option.some .keep
  | _ => Option.some .byp

/-- Codes of `Rm` (04 Table 11). -/
def Rm.code : Rm → BitVec 3
  | .rne => 0
  | .rtz => 1
  | .rup => 2
  | .rdn => 3
  | .rna => 4
  | .sr => 5
def Rm.ofCode (x : BitVec 3) : Option Rm :=
  match x.toNat with
  | 0 => Option.some .rne
  | 1 => Option.some .rtz
  | 2 => Option.some .rup
  | 3 => Option.some .rdn
  | 4 => Option.some .rna
  | 5 => Option.some .sr
  | _ => Option.none

/-- Codes of `Ov` (06 Table 2). -/
def Ov.code : Ov → BitVec 2
  | .sat => 0
  | .inf => 1
  | .nan => 2
  | .trap => 3
def Ov.ofCode (x : BitVec 2) : Option Ov :=
  match x.toNat with
  | 0 => Option.some .sat
  | 1 => Option.some .inf
  | 2 => Option.some .nan
  | _ => Option.some .trap

/-- Codes of `FType` (04 Table 3). -/
def FType.code : FType → BitVec 2
  | .f32 => 0
  | .f64 => 1
  | .f16x2 => 2
  | .bf16x2 => 3
def FType.ofCode (x : BitVec 2) : Option FType :=
  match x.toNat with
  | 0 => Option.some .f32
  | 1 => Option.some .f64
  | 2 => Option.some .f16x2
  | _ => Option.some .bf16x2

/-- Codes of `Fmt` (04 Table 12). -/
def Fmt.code : Fmt → BitVec 4
  | .f32 => 0
  | .f64 => 1
  | .f16 => 2
  | .bf16 => 3
  | .e4m3 => 4
  | .e5m2 => 5
  | .nq4 => 6
  | .i8 => 7
  | .u8 => 8
  | .i16 => 9
  | .i32 => 10
  | .u32 => 11
  | .i64 => 12
  | .e8m0 => 13
  | .sc8 => 14
def Fmt.ofCode (x : BitVec 4) : Option Fmt :=
  match x.toNat with
  | 0 => Option.some .f32
  | 1 => Option.some .f64
  | 2 => Option.some .f16
  | 3 => Option.some .bf16
  | 4 => Option.some .e4m3
  | 5 => Option.some .e5m2
  | 6 => Option.some .nq4
  | 7 => Option.some .i8
  | 8 => Option.some .u8
  | 9 => Option.some .i16
  | 10 => Option.some .i32
  | 11 => Option.some .u32
  | 12 => Option.some .i64
  | 13 => Option.some .e8m0
  | 14 => Option.some .sc8
  | _ => Option.none

/-- Codes of `Size` (04 Table 5). -/
def Size.code : Size → BitVec 3
  | .u8 => 0
  | .u16 => 1
  | .b32 => 2
  | .b64 => 3
  | .b128 => 4
  | .s8 => 5
  | .s16 => 6
def Size.ofCode (x : BitVec 3) : Option Size :=
  match x.toNat with
  | 0 => Option.some .u8
  | 1 => Option.some .u16
  | 2 => Option.some .b32
  | 3 => Option.some .b64
  | 4 => Option.some .b128
  | 5 => Option.some .s8
  | 6 => Option.some .s16
  | _ => Option.none

/-- Codes of `Scope` (04 Table 6). -/
def Scope.code : Scope → BitVec 3
  | .blk => 0
  | .core => 1
  | .die => 2
  | .pkg => 3
  | .sys => 4
def Scope.ofCode (x : BitVec 3) : Option Scope :=
  match x.toNat with
  | 0 => Option.some .blk
  | 1 => Option.some .core
  | 2 => Option.some .die
  | 3 => Option.some .pkg
  | 4 => Option.some .sys
  | _ => Option.none

/-- Codes of `Order` (04 Table 4). -/
def Order.code : Order → BitVec 2
  | .relaxed => 0
  | .acq => 1
  | .rel => 2
  | .acqRel => 3
def Order.ofCode (x : BitVec 2) : Option Order :=
  match x.toNat with
  | 0 => Option.some .relaxed
  | 1 => Option.some .acq
  | 2 => Option.some .rel
  | _ => Option.some .acqRel

/-- Codes of `Policy` (04 Table 7). -/
def Policy.code : Policy → BitVec 2
  | .dflt => 0
  | .byp => 1
  | .strm => 2
def Policy.ofCode (x : BitVec 2) : Option Policy :=
  match x.toNat with
  | 0 => Option.some .dflt
  | 1 => Option.some .byp
  | 2 => Option.some .strm
  | _ => Option.none

/-- Codes of `AtomOp` (04 Table 8). -/
def AtomOp.code : AtomOp → BitVec 4
  | .add => 0
  | .minS => 1
  | .minU => 2
  | .maxS => 3
  | .maxU => 4
  | .and => 5
  | .or => 6
  | .xor => 7
  | .xchg => 8
  | .cas => 9
  | .faddF32 => 10
  | .faddBf16x2 => 11
  | .inc => 12
def AtomOp.ofCode (x : BitVec 4) : Option AtomOp :=
  match x.toNat with
  | 0 => Option.some .add
  | 1 => Option.some .minS
  | 2 => Option.some .minU
  | 3 => Option.some .maxS
  | 4 => Option.some .maxU
  | 5 => Option.some .and
  | 6 => Option.some .or
  | 7 => Option.some .xor
  | 8 => Option.some .xchg
  | 9 => Option.some .cas
  | 10 => Option.some .faddF32
  | 11 => Option.some .faddBf16x2
  | 12 => Option.some .inc
  | _ => Option.none

/-- Codes of `ICmp` (21 Table 9; the code fills the c field, whose bits [7:4] are zero). -/
def ICmp.code : ICmp → BitVec 8
  | .eq => 0
  | .ne => 1
  | .ltS => 2
  | .leS => 3
  | .gtS => 4
  | .geS => 5
  | .ltU => 6
  | .leU => 7
  | .gtU => 8
  | .geU => 9
def ICmp.ofCode (x : BitVec 8) : Option ICmp :=
  match x.toNat with
  | 0 => Option.some .eq
  | 1 => Option.some .ne
  | 2 => Option.some .ltS
  | 3 => Option.some .leS
  | 4 => Option.some .gtS
  | 5 => Option.some .geS
  | 6 => Option.some .ltU
  | 7 => Option.some .leU
  | 8 => Option.some .gtU
  | 9 => Option.some .geU
  | _ => Option.none

/-- Codes of `FCmp` (21 Table 5; the code fills the c field, whose bits [7:4] are zero). -/
def FCmp.code : FCmp → BitVec 8
  | .eq => 0
  | .ne => 1
  | .lt => 2
  | .le => 3
  | .gt => 4
  | .ge => 5
  | .num => 6
  | .nan => 7
def FCmp.ofCode (x : BitVec 8) : Option FCmp :=
  match x.toNat with
  | 0 => Option.some .eq
  | 1 => Option.some .ne
  | 2 => Option.some .lt
  | 3 => Option.some .le
  | 4 => Option.some .gt
  | 5 => Option.some .ge
  | 6 => Option.some .num
  | 7 => Option.some .nan
  | _ => Option.none

/-- Codes of `RedOp` (23 Table 4; the code fills the modifier byte, whose bits [7:4] are zero). -/
def RedOp.code : RedOp → BitVec 8
  | .add => 0
  | .minS => 1
  | .minU => 2
  | .maxS => 3
  | .maxU => 4
  | .and => 5
  | .or => 6
  | .xor => 7
  | .fadd => 8
  | .fmin => 9
  | .fmax => 10
def RedOp.ofCode (x : BitVec 8) : Option RedOp :=
  match x.toNat with
  | 0 => Option.some .add
  | 1 => Option.some .minS
  | 2 => Option.some .minU
  | 3 => Option.some .maxS
  | 4 => Option.some .maxU
  | 5 => Option.some .and
  | 6 => Option.some .or
  | 7 => Option.some .xor
  | 8 => Option.some .fadd
  | 9 => Option.some .fmin
  | 10 => Option.some .fmax
  | _ => Option.none

/-- Codes of `ShflMode` (23 R383). -/
def ShflMode.code : ShflMode → BitVec 2
  | .at => 0
  | .back => 1
  | .ahead => 2
  | .swap => 3
def ShflMode.ofCode (x : BitVec 2) : Option ShflMode :=
  match x.toNat with
  | 0 => Option.some .at
  | 1 => Option.some .back
  | 2 => Option.some .ahead
  | _ => Option.some .swap

/-- Codes of `VoteMode` (23 R394; the code fills the modifier byte, whose bits [7:2] are zero). -/
def VoteMode.code : VoteMode → BitVec 8
  | .every => 0
  | .some => 1
  | .mask => 2
  | .count => 3
def VoteMode.ofCode (x : BitVec 8) : Option VoteMode :=
  match x.toNat with
  | 0 => Option.some .every
  | 1 => Option.some .some
  | 2 => Option.some .mask
  | 3 => Option.some .count
  | _ => Option.none

/-- Codes of `Fmt8` (22 Table 4; the code fills the modifier byte, whose bits [7:4] are zero). -/
def Fmt8.code : Fmt8 → BitVec 8
  | .e4m3 => 4
  | .e5m2 => 5
  | .i8 => 7
  | .u8 => 8
def Fmt8.ofCode (x : BitVec 8) : Option Fmt8 :=
  match x.toNat with
  | 4 => Option.some .e4m3
  | 5 => Option.some .e5m2
  | 7 => Option.some .i8
  | 8 => Option.some .u8
  | _ => Option.none

/-- Codes of `QMode` (23 Table 1, the modifier byte). -/
def QMode.code : QMode → BitVec 8
  | .e8m0E4m3 => 4
  | .e8m0E5m2 => 5
  | .sc8 => 16
def QMode.ofCode (x : BitVec 8) : Option QMode :=
  match x.toNat with
  | 4 => Option.some .e8m0E4m3
  | 5 => Option.some .e8m0E5m2
  | 16 => Option.some .sc8
  | _ => Option.none

/-- Codes of `Path` (08 R140, R141). -/
def Path.code : Path → BitVec 2
  | .ls => 0
  | .const => 1
  | .tile => 2
  | .ewr => 3
def Path.ofCode (x : BitVec 2) : Option Path :=
  match x.toNat with
  | 0 => Option.some .ls
  | 1 => Option.some .const
  | 2 => Option.some .tile
  | _ => Option.some .ewr

/-- Codes of `Swz` (08 Table 4). -/
def Swz.code : Swz → BitVec 2
  | .none => 0
  | .c16 => 1
  | .c32 => 2
def Swz.ofCode (x : BitVec 2) : Option Swz :=
  match x.toNat with
  | 0 => Option.some .none
  | 1 => Option.some .c16
  | 2 => Option.some .c32
  | _ => Option.none

/-- Codes of `SigKind` (07 Table 2; the code fills imm32, whose bits [31:2] are zero). -/
def SigKind.code : SigKind → BitVec 32
  | .bcb => 0
  | .ring => 1
  | .bar => 2
def SigKind.ofCode (x : BitVec 32) : Option SigKind :=
  match x.toNat with
  | 0 => Option.some .bcb
  | 1 => Option.some .ring
  | 2 => Option.some .bar
  | _ => Option.none
/-- The bits [lo + n − 1 : lo] of a word. -/
def bits (lo n : Nat) (w : BitVec 64) : BitVec n := w.extractLsb' lo n

def bit (k : Nat) (w : BitVec 64) : Bool := w.getLsbD k

/-- The opcode of a word: bits [63:56] (04 R69). -/
def opcodeOf (w : BitVec 64) : Nat := (bits 56 8 w).toNat

/-- The word formats (04 R71 to R78). -/
inductive Format | A | B | E | I | M | S | T | X
  deriving DecidableEq, Repr

/-- The format of each assigned opcode, none for the unassigned ones (05 Tables 1 to 12 and R93). -/
def formatOf (op : Nat) : Option Format :=
  if op = 0x00 ∨ op = 0x06 ∨ op = 0x07 then some .A
  else if op ≤ 0x05 then some .B
  else if op ≤ 0x09 then some .I
  else if op < 0x10 then none
  else if op = 0x1E then some .I
  else if op ≤ 0x3A then some .A
  else if op < 0x40 then none
  else if op ≤ 0x4E then some .A
  else if op < 0x50 then none
  else if op ≤ 0x54 then some .A
  else if op < 0x60 then none
  else if op = 0x65 ∨ op = 0x66 ∨ op = 0x67 then some .T
  else if op = 0x6C then some .I
  else if op ≤ 0x6E then some .M
  else if op < 0x70 then none
  else if op ≤ 0x7A then some .E
  else if op ≤ 0x7C then some .A
  else if op < 0x80 then none
  else if op ≤ 0x86 then some .E
  else if op = 0x87 then none
  else if op ≤ 0x8B then some .I
  else if op = 0x8C ∨ op = 0x90 then some .A
  else if op < 0x90 then none
  else if op ≤ 0x93 then some .E
  else if op < 0xA0 then none
  else if op ≤ 0xAA then some .X
  else if op < 0xB0 then none
  else if op ≤ 0xB7 then some .S
  else none

/-- The opcodes that an engine class accepts (05 R91). -/
def acceptsOp (c : Cls) (op : Nat) : Bool :=
  (formatOf op).isSome &&
  match c with
  | .lane => decide (op ≤ 0x8C) || decide (0xB0 ≤ op)
  | .front =>
      decide (op ≤ 0x2F) || op == 0x60 || op == 0x63 || op == 0x65 || op == 0x6B || (decide (0x70 ≤ op) && decide (op ≤ 0x7A)) ||
      (decide (0x80 ≤ op) && decide (op ≤ 0x86)) || op == 0x8A || op == 0x8B || (decide (0x90 ≤ op) && decide (op ≤ 0x93)) ||
      (decide (0xB0 ≤ op) && decide (op ≤ 0xB2))
  | .matrix => decide (0xA0 ≤ op) && decide (op ≤ 0xAA)

/-- The raw fields of Format A (04 Table 2). -/
structure RawA where
  op : BitVec 8
  d : BitVec 8
  a : BitVec 8
  b : BitVec 8
  c : BitVec 8
  p : BitVec 7
  n : Bool
  hd : BitVec 2
  ha : BitVec 2
  hb : BitVec 2
  hc : BitVec 2
  m : BitVec 8
  deriving DecidableEq, Repr

/-- The raw fields of Format I (04 R72) and of Format B (04 R75), whose places are the same. -/
structure RawI where
  op : BitVec 8
  d : BitVec 8
  a : BitVec 8
  p : BitVec 7
  n : Bool
  imm : BitVec 32
  deriving DecidableEq, Repr

/-- The raw fields of Format M (04 Table 4). -/
structure RawM where
  op : BitVec 8
  t : BitVec 8
  a : BitVec 8
  p : BitVec 7
  n : Bool
  off : BitVec 18
  order : BitVec 2
  size : BitVec 3
  scope : BitVec 3
  g : Bool
  pol : BitVec 2
  sb : BitVec 3
  deriving DecidableEq, Repr

/-- The raw fields of Format T (04 R74). -/
structure RawT where
  op : BitVec 8
  d : BitVec 8
  a : BitVec 8
  b : BitVec 8
  c : BitVec 8
  p : BitVec 7
  n : Bool
  aop : BitVec 4
  size : BitVec 3
  scope : BitVec 3
  g : Bool
  order : BitVec 2
  sb : BitVec 3
  deriving DecidableEq, Repr

/-- The raw fields of Format E (04 R76). -/
structure RawE where
  op : BitVec 8
  a : BitVec 8
  b : BitVec 8
  c : BitVec 8
  id : BitVec 16
  mode : BitVec 8
  z : BitVec 8
  deriving DecidableEq, Repr

/-- The raw fields of Format X (04 R77). -/
structure RawX where
  op : BitVec 8
  fa : BitVec 4
  fb : BitVec 4
  id : BitVec 8
  ma : BitVec 4
  mb : BitVec 4
  imm : BitVec 32
  deriving DecidableEq, Repr

/-- The raw fields of Format S (04 R78). -/
structure RawS where
  op : BitVec 8
  d : BitVec 8
  a : BitVec 8
  p : BitVec 7
  n : Bool
  id : BitVec 16
  imm : BitVec 16
  deriving DecidableEq, Repr

def unpackA (w : BitVec 64) : RawA :=
  ⟨bits 56 8 w, bits 48 8 w, bits 40 8 w, bits 32 8 w, bits 24 8 w, bits 17 7 w, bit 16 w, bits 14 2 w, bits 12 2 w, bits 10 2 w,
   bits 8 2 w, bits 0 8 w⟩
def unpackI (w : BitVec 64) : RawI := ⟨bits 56 8 w, bits 48 8 w, bits 40 8 w, bits 33 7 w, bit 32 w, bits 0 32 w⟩
def unpackM (w : BitVec 64) : RawM :=
  ⟨bits 56 8 w, bits 48 8 w, bits 40 8 w, bits 33 7 w, bit 32 w, bits 14 18 w, bits 12 2 w, bits 9 3 w, bits 6 3 w, bit 5 w,
   bits 3 2 w, bits 0 3 w⟩
def unpackT (w : BitVec 64) : RawT :=
  ⟨bits 56 8 w, bits 48 8 w, bits 40 8 w, bits 32 8 w, bits 24 8 w, bits 17 7 w, bit 16 w, bits 12 4 w, bits 9 3 w, bits 6 3 w,
   bit 5 w, bits 3 2 w, bits 0 3 w⟩
def unpackE (w : BitVec 64) : RawE := ⟨bits 56 8 w, bits 48 8 w, bits 40 8 w, bits 32 8 w, bits 16 16 w, bits 8 8 w, bits 0 8 w⟩
def unpackX (w : BitVec 64) : RawX := ⟨bits 56 8 w, bits 52 4 w, bits 48 4 w, bits 40 8 w, bits 36 4 w, bits 32 4 w, bits 0 32 w⟩
def unpackS (w : BitVec 64) : RawS :=
  ⟨bits 56 8 w, bits 48 8 w, bits 40 8 w, bits 33 7 w, bit 32 w, bits 16 16 w, bits 0 16 w⟩

def packA (r : RawA) : BitVec 64 :=
  r.op ++ r.d ++ r.a ++ r.b ++ r.c ++ r.p ++ BitVec.ofBool r.n ++ r.hd ++ r.ha ++ r.hb ++ r.hc ++ r.m
def packI (r : RawI) : BitVec 64 := r.op ++ r.d ++ r.a ++ r.p ++ BitVec.ofBool r.n ++ r.imm
def packM (r : RawM) : BitVec 64 :=
  r.op ++ r.t ++ r.a ++ r.p ++ BitVec.ofBool r.n ++ r.off ++ r.order ++ r.size ++ r.scope ++ BitVec.ofBool r.g ++ r.pol ++ r.sb
def packT (r : RawT) : BitVec 64 :=
  r.op ++ r.d ++ r.a ++ r.b ++ r.c ++ r.p ++ BitVec.ofBool r.n ++ r.aop ++ r.size ++ r.scope ++ BitVec.ofBool r.g ++ r.order ++ r.sb
def packE (r : RawE) : BitVec 64 := r.op ++ r.a ++ r.b ++ r.c ++ r.id ++ r.mode ++ r.z
def packX (r : RawX) : BitVec 64 := r.op ++ r.fa ++ r.fb ++ r.id ++ r.ma ++ r.mb ++ r.imm
def packS (r : RawS) : BitVec 64 := r.op ++ r.d ++ r.a ++ r.p ++ BitVec.ofBool r.n ++ r.id ++ r.imm

/-- An instruction whose unused fields are all zero, or the refusal of the word. -/
def fixedZero (zero : Bool) (i : Instr) : Except DecodeError Instr := if zero then .ok i else .error .reserved

/-- A field read as a code of a table. -/
def codeOr {α : Type} (x : Option α) (k : α → Except DecodeError Instr) : Except DecodeError Instr :=
  match x with
  | some v => k v
  | none => .error .code

def hintOf (x : BitVec 2) : Hint := (Hint.ofCode x).getD .none
def RawA.g (r : RawA) : Guard := ⟨r.p, r.n⟩
def RawA.a2 (r : RawA) : A2 := ⟨r.d, r.a, r.g, hintOf r.hd, hintOf r.ha⟩
def RawA.a3 (r : RawA) : A3 := ⟨r.d, r.a, r.b, r.g, hintOf r.hd, hintOf r.ha, hintOf r.hb⟩
def RawA.a4 (r : RawA) : A4 := ⟨r.d, r.a, r.b, r.c, r.g, hintOf r.hd, hintOf r.ha, hintOf r.hb, hintOf r.hc⟩
def RawA.aSet (r : RawA) : ASet := ⟨r.d, r.a, r.b, r.g, hintOf r.ha, hintOf r.hb⟩
def RawA.noD (r : RawA) : Bool := r.d == 0 && r.hd == 0
def RawA.noA (r : RawA) : Bool := r.a == 0 && r.ha == 0
def RawA.noB (r : RawA) : Bool := r.b == 0 && r.hb == 0
def RawA.noC (r : RawA) : Bool := r.c == 0 && r.hc == 0
def RawA.noM (r : RawA) : Bool := r.m == 0

/-- Modifier bits as numbers: bits [lo + n − 1 : lo] of the modifier byte. -/
def RawA.mod (r : RawA) (lo n : Nat) : BitVec n := r.m.extractLsb' lo n

/-- The floating-point modifiers (04 Table 3). -/
def FMod.ofByte (m : BitVec 8) : Option FMod :=
  match FType.ofCode (m.extractLsb' 6 2), Rm.ofCode (m.extractLsb' 3 3) with
  | some t, some rm => some ⟨t, rm, m.getLsbD 2, m.getLsbD 1, m.getLsbD 0⟩
  | _, _ => none
def FMod.byte (f : FMod) : BitVec 8 := f.t.code ++ f.rm.code ++ BitVec.ofBool f.na ++ BitVec.ofBool f.nc ++ BitVec.ofBool f.ftz

/-- Words whose modifier byte holds a type alone (FMIN, FMAX, FSET, FCLASS: 21 Table 1). -/
def typeOnly (m : BitVec 8) (k : FType → Bool → Except DecodeError Instr) : Except DecodeError Instr :=
  codeOr (FMod.ofByte m) fun f => if f.rm == .rne && !f.nc && !f.ftz then k f.t f.na else .error .reserved

/-- Words of the special-function unit use the Flush bit alone (05 R94, 21 R316). -/
def sfuMod (r : RawA) (i : Bool → Instr) : Except DecodeError Instr :=
  fixedZero (r.noB && r.noC && r.m.extractLsb' 1 7 == 0) (i (r.m.getLsbD 0))

/-- CVT and PK8 read rounding and overflow from the c field (04 R81, 22 Table 4). -/
def rmOv (c : BitVec 8) (k : Rm → Ov → Except DecodeError Instr) : Except DecodeError Instr :=
  if c.extractLsb' 0 3 != 0 then .error .reserved
  else codeOr (Rm.ofCode (c.extractLsb' 5 3)) fun rm => codeOr (Ov.ofCode (c.extractLsb' 3 2)) fun ov => k rm ov
def rmOvByte (rm : Rm) (ov : Ov) : BitVec 8 := rm.code ++ ov.code ++ (0 : BitVec 3)

/-- The signed and unsigned words hold S in modifier bit [0]. -/
def signBit (r : RawA) (i : Bool → Instr) : Except DecodeError Instr :=
  fixedZero (r.noC && r.m.extractLsb' 1 7 == 0) (i (r.m.getLsbD 0))

def decodeA0 (r : RawA) : Except DecodeError Instr :=
  let z := r.noD && r.noA && r.noB && r.noC && r.noM
  match r.op.toNat with
  | 0x00 => fixedZero z (.nop r.g)
  | 0x06 => fixedZero z (.yield r.g)
  | _ => fixedZero z (.exit r.g)

def decodeA1 (r : RawA) : Except DecodeError Instr :=
  match r.op.toNat % 16 with
  | 0x0 => fixedZero (r.noC && r.noM) (.iadd r.a3)
  | 0x1 => fixedZero (r.noC && r.noM) (.isub r.a3)
  | 0x2 => fixedZero (r.noC && r.noM) (.imul r.a3)
  | 0x3 => signBit r fun s => .imulh s r.a3
  | 0x4 => fixedZero r.noM (.imad r.a4)
  | 0x5 => signBit r fun s => .idiv s r.a3
  | 0x6 => signBit r fun s => .irem s r.a3
  | 0x7 => signBit r fun s => .imin s r.a3
  | 0x8 => signBit r fun s => .imax s r.a3
  | 0x9 => fixedZero (r.noB && r.noC && r.noM) (.iabs r.a2)
  | 0xA => codeOr (ICmp.ofCode r.c) fun c => fixedZero (r.hd == 0 && r.hc == 0 && r.noM) (.iset c r.aSet)
  | 0xB => fixedZero (r.hc == 0 && r.noM) (.sel r.a3 r.c)
  | 0xC => fixedZero (r.noC && r.mod 6 2 == 0) (.lea r.a3 (r.mod 0 6))
  | 0xD => fixedZero (r.noB && r.noC && r.noM) (.mov r.a2)
  | _ => fixedZero (r.hd == 0 && r.noB && r.noC && r.noM) (.x2p r.d r.a r.g (hintOf r.ha))

def decodeA2 (r : RawA) : Except DecodeError Instr :=
  match r.op.toNat % 16 with
  | 0x0 => fixedZero (r.noC && r.noM) (.and r.a3)
  | 0x1 => fixedZero (r.noC && r.noM) (.or r.a3)
  | 0x2 => fixedZero (r.noC && r.noM) (.xor r.a3)
  | 0x3 => fixedZero (r.noC && r.noM) (.andn r.a3)
  | 0x4 => .ok (.lop3 r.a4 r.m)
  | 0x5 => fixedZero (r.noC && r.noM) (.shl r.a3)
  | 0x6 => fixedZero (r.noC && r.noM) (.shr r.a3)
  | 0x7 => fixedZero (r.noC && r.noM) (.sar r.a3)
  | 0x8 => fixedZero (r.noC && r.noM) (.rot r.a3)
  | 0x9 => fixedZero (r.noB && r.noC && r.noM) (.clz r.a2)
  | 0xA => fixedZero (r.noB && r.noC && r.noM) (.popc r.a2)
  | 0xB => fixedZero (r.noB && r.noC && r.noM) (.brev r.a2)
  | 0xC => signBit r fun s => .bfx s r.a3
  | 0xD => fixedZero r.noM (.bfi r.a4)
  | 0xE => fixedZero (r.hd == 0 && r.ha == 0 && r.hb == 0 && r.hc == 0) (.plop r.d r.a r.b r.c r.g r.m)
  | _ => fixedZero (r.ha == 0 && r.noB && r.noC && r.noM) (.p2x r.d r.a r.g (hintOf r.hd))

def decodeA3 (r : RawA) : Except DecodeError Instr :=
  let fm (i : FMod → Instr) := codeOr (FMod.ofByte r.m) fun f => fixedZero r.noC (i f)
  match r.op.toNat % 16 with
  | 0x0 => fm fun f => .fadd f r.a3
  | 0x1 => fm fun f => .fsub f r.a3
  | 0x2 => fm fun f => .fmul f r.a3
  | 0x3 => codeOr (FMod.ofByte r.m) fun f => .ok (.ffma f r.a4)
  | 0x4 => typeOnly r.m fun t na => fixedZero (r.noC && !na) (.fmin t r.a3)
  | 0x5 => typeOnly r.m fun t na => fixedZero (r.noC && !na) (.fmax t r.a3)
  | 0x6 => codeOr (FCmp.ofCode r.c) fun c => typeOnly r.m fun t na => fixedZero (r.hd == 0 && r.hc == 0) (.fset t c na r.aSet)
  | 0x7 => typeOnly r.m fun t na => fixedZero (r.noB && r.noC && !na) (.fclass t r.a2)
  | 0x8 => fm fun f => .fscale f r.a3
  | 0x9 => codeOr (FMod.ofByte r.m) fun f => fixedZero (r.noB && r.noC) (.frnd f r.a2)
  | _ => fm fun f => .fdiv f r.a3

def decodeA4 (r : RawA) : Except DecodeError Instr :=
  match r.op.toNat % 16 with
  | 0x0 => sfuMod r fun z => .frcp z r.a2
  | 0x1 => sfuMod r fun z => .frsq z r.a2
  | 0x2 => codeOr (FMod.ofByte r.m) fun f => fixedZero (r.noB && r.noC) (.fsqrt f r.a2)
  | 0x3 => sfuMod r fun z => .fexp2 z r.a2
  | 0x4 => sfuMod r fun z => .flog2 z r.a2
  | 0x5 => sfuMod r fun z => .fsin z r.a2
  | 0x6 => sfuMod r fun z => .fcos z r.a2
  | 0x7 => sfuMod r fun z => .ftanh z r.a2
  | 0x8 => codeOr (Fmt.ofCode (r.b.extractLsb' 4 4)) fun src => codeOr (Fmt.ofCode (r.b.extractLsb' 0 4)) fun dst =>
      rmOv r.c fun rm ov => fixedZero (r.hb == 0 && r.hc == 0 && r.noM) (.cvt src dst rm ov r.a2)
  | 0x9 => codeOr (Fmt8.ofCode r.m) fun f => rmOv r.c fun rm ov => fixedZero (r.hc == 0) (.pk8 f rm ov r.a3)
  | 0xA => codeOr (Fmt8.ofCode r.m) fun f => fixedZero r.noC (.upk8 f r.a3)
  | 0xB => fixedZero (r.noC && r.noM) (.pk4 r.a3)
  | 0xC => fixedZero (r.noC && r.noM) (.upk4 r.a3)
  | 0xD => codeOr (QMode.ofCode r.m) fun m => fixedZero r.noC (.qscl m r.a3)
  | _ => fixedZero r.noM (.scac r.a4)

def decodeA5 (r : RawA) : Except DecodeError Instr :=
  match r.op.toNat % 16 with
  | 0x0 => codeOr (ShflMode.ofCode (r.mod 0 2)) fun m =>
      fixedZero (r.noC && r.mod 6 2 == 0) (.shfl m (r.m.getLsbD 2) (r.mod 3 3) r.a3)
  | 0x1 => codeOr (VoteMode.ofCode r.m) fun m => fixedZero (r.ha == 0 && r.noB && r.noC) (.vote m r.d r.a r.g (hintOf r.hd))
  | 0x2 => codeOr (RedOp.ofCode r.m) fun op => fixedZero (r.noB && r.noC) (.redux op r.a2)
  | 0x3 => codeOr (RedOp.ofCode r.m) fun op => fixedZero (r.noB && r.noC) (.scan op r.a2)
  | _ => fixedZero (r.noB && r.noC && r.mod 1 7 == 0) (.matchLanes (r.m.getLsbD 0) r.a2)

def decodeA7 (r : RawA) : Except DecodeError Instr :=
  let z := r.noA && r.noB && r.noC && r.noM
  match r.op.toNat with
  | 0x7B => fixedZero z (.dqpop r.d (hintOf r.hd) r.g)
  | 0x7C => fixedZero (z && r.noD && r.p == 0 && !r.n) .rolechk
  | 0x8C => fixedZero (z && r.noD) (.ocwb r.g)
  | _ => fixedZero (r.noD && r.ha == 0 && r.noB && r.noC && r.noM) (.dqpush r.a r.g)

def decodeA (r : RawA) : Except DecodeError Instr :=
  match r.op.toNat / 16 with
  | 0 => decodeA0 r
  | 1 => decodeA1 r
  | 2 => decodeA2 r
  | 3 => decodeA3 r
  | 4 => decodeA4 r
  | 5 => decodeA5 r
  | _ => decodeA7 r

def RawI.g (r : RawI) : Guard := ⟨r.p, r.n⟩
def RawI.noG (r : RawI) : Bool := r.p == 0 && !r.n

def decodeB (r : RawI) : Except DecodeError Instr :=
  match r.op.toNat with
  | 1 => fixedZero (r.d == 0 && r.a == 0) (.bra r.g r.imm)
  | 2 => fixedZero (r.d == 0 && r.imm == 0) (.brx r.a r.g)
  | 3 => fixedZero (r.a == 0) (.call r.d r.g r.imm)
  | 4 => fixedZero (r.imm == 0) (.callx r.d r.a r.g)
  | _ => fixedZero (r.d == 0 && r.imm == 0) (.ret r.a r.g)

def decodeI (r : RawI) : Except DecodeError Instr :=
  let noDA := r.d == 0 && r.a == 0
  match r.op.toNat with
  | 0x08 => fixedZero noDA (.trap r.g r.imm)
  | 0x09 => fixedZero noDA (.bkpt r.g r.imm)
  | 0x1E => fixedZero (r.a == 0) (.movi r.d r.g r.imm)
  | 0x6C => codeOr (Path.ofCode (r.imm.extractLsb' 0 2)) fun w => codeOr (Path.ofCode (r.imm.extractLsb' 2 2)) fun rd =>
      fixedZero (noDA && r.imm.extractLsb' 4 28 == 0) (.fencep w rd r.g)
  | 0x88 => fixedZero (noDA && r.noG) (.fgrow r.imm)
  | 0x89 => fixedZero (noDA && r.noG) (.ftrim r.imm)
  | 0x8A =>
      let k := r.imm.extractLsb' 10 22
      fixedZero (r.a == 0 && r.noG && r.imm.extractLsb' 1 9 == 0) (if r.imm.getLsbD 0 then .sgrowSwz r.d k else .sgrow r.d k)
  | _ => fixedZero (noDA && r.noG && r.imm.extractLsb' 0 10 == 0) (.strim (r.imm.extractLsb' 10 22))

def RawM.guard (r : RawM) : Guard := ⟨r.p, r.n⟩

def decodeM (r : RawM) : Except DecodeError Instr :=
  let full (i : MemF → Instr) : Except DecodeError Instr :=
    codeOr (Order.ofCode r.order) fun order => codeOr (Size.ofCode r.size) fun size => codeOr (Scope.ofCode r.scope) fun scope =>
    codeOr (Policy.ofCode r.pol) fun pol => .ok (i ⟨r.t, r.a, r.guard, r.off, order, size, scope, r.g, pol, r.sb⟩)
  let noMid := r.off == 0 && r.order == 0
  let noLow := r.scope == 0 && !r.g && r.pol == 0
  match r.op.toNat with
  | 0x60 => full .ld
  | 0x61 => full .lds
  | 0x62 => full .ldc
  | 0x63 => full .st
  | 0x64 => full .sts
  | 0x68 => full .stmc
  | 0x69 => codeOr (Policy.ofCode r.pol) fun pol =>
      fixedZero (r.t == 0 && r.order == 0 && r.size == 0 && r.scope == 0 && !r.g && r.sb == 0) (.pref r.a r.guard r.off pol)
  | 0x6A => fixedZero (noMid && r.size == 0 && noLow && r.sb == 0) (.disc r.t r.a r.guard)
  | 0x6B => codeOr (Order.ofCode r.order) fun order => codeOr (Scope.ofCode r.scope) fun scope =>
      fixedZero (r.t == 0 && r.a == 0 && r.off == 0 && r.size == 0 && r.pol == 0 && r.sb == 0) (.fence order scope r.g r.guard)
  | 0x6D => fixedZero (noMid && r.size == 0 && noLow) (.claim r.t r.a r.guard r.sb)
  | _ =>
      if r.size == 1 then fixedZero (r.t == 0 && r.a == 0 && r.p == 0 && !r.n && noMid && noLow && r.sb == 0) .migrHome
      else fixedZero (r.t == 0 && r.p == 0 && !r.n && noMid && r.size == 0 && noLow && r.sb == 0) (.migr r.a)

def decodeT (r : RawT) : Except DecodeError Instr :=
  codeOr (AtomOp.ofCode r.aop) fun op => codeOr (Size.ofCode r.size) fun size => codeOr (Scope.ofCode r.scope) fun scope =>
  codeOr (Order.ofCode r.order) fun order =>
    let o : AtomF := ⟨r.d, r.a, r.b, r.c, ⟨r.p, r.n⟩, op, size, scope, r.g, order, r.sb⟩
    match r.op.toNat with
    | 0x65 => .ok (.atom o)
    | 0x66 => .ok (.atoms o)
    | _ => .ok (.red o)

/-- The mode byte of CPY, GTH and SCT (08 Table 4). -/
def cmdOf (r : RawE) (k : CmdF → Except DecodeError Instr) : Except DecodeError Instr :=
  codeOr (Swz.ofCode (r.mode.extractLsb' 2 2)) fun swz => codeOr (Policy.ofCode (r.mode.extractLsb' 4 2)) fun pol =>
    if r.b == 0 && r.c == 0 && !r.mode.getLsbD 7 then
      k ⟨r.a, r.id, r.mode.getLsbD 0, r.mode.getLsbD 1, swz, pol, r.mode.getLsbD 6⟩
    else .error .reserved
def CmdF.mode (o : CmdF) : BitVec 8 :=
  (0 : BitVec 1) ++ BitVec.ofBool o.ga ++ o.pol.code ++ o.swz.code ++ BitVec.ofBool o.ring ++ BitVec.ofBool o.s2g

def decodeE7 (r : RawE) : Except DecodeError Instr :=
  let noMode := r.mode == 0
  let noBC := r.b == 0 && r.c == 0
  match r.op.toNat % 16 with
  | 0x0 => fixedZero (r.a == 0 && r.c == 0 && noMode) (.barw r.id r.b)
  | 0x1 => fixedZero (r.a == 0 && r.c == 0 && noMode) (.bara r.id r.b)
  | 0x2 => fixedZero (noBC && r.id == 0 && noMode) (.bcbinit r.a)
  | 0x3 => fixedZero (r.c == 0 && r.id == 0 && noMode) (.bcbexp r.a r.b)
  | 0x4 => fixedZero (noBC && r.id == 0 && noMode) (.bcbarv r.a)
  | 0x5 => fixedZero (r.c == 0 && r.id == 0 && noMode) (.bcbwait r.a r.b)
  | 0x6 => fixedZero (r.c == 0 && r.id == 0 && noMode) (.bcbtry r.a r.b)
  | 0x7 => fixedZero (noBC && noMode) (.ringinit r.id r.a)
  | 0x8 => fixedZero (r.a == 0 && r.c == 0 && r.mode.extractLsb' 1 7 == 0)
      (if r.mode.getLsbD 0 then .ringacqFill r.id r.b else .ringacqFree r.id r.b)
  | 0x9 => fixedZero (r.a == 0 && noBC && r.mode.extractLsb' 1 7 == 0)
      (if r.mode.getLsbD 0 then .ringrelFill r.id else .ringrelFree r.id)
  | _ => codeOr (Scope.ofCode (r.mode.extractLsb' 0 3)) fun scope =>
      fixedZero (r.a == 0 && noBC && r.mode.extractLsb' 3 5 == 0) (.gbar r.id scope)

def decodeE8 (r : RawE) : Except DecodeError Instr :=
  let noBC := r.b == 0 && r.c == 0
  match r.op.toNat with
  | 0x80 => cmdOf r fun o => .ok (.cpy o)
  | 0x81 => cmdOf r fun o => .ok (.gth o)
  | 0x82 => cmdOf r fun o => .ok (.sct o)
  | 0x83 => codeOr (Policy.ofCode (r.mode.extractLsb' 4 2)) fun pol =>
      fixedZero (noBC && r.mode.extractLsb' 0 4 == 0 && !r.mode.getLsbD 7) (.rsend r.a r.id pol (r.mode.getLsbD 6))
  | 0x84 => codeOr (Policy.ofCode (r.mode.extractLsb' 4 2)) fun pol =>
      fixedZero (noBC && r.mode.extractLsb' 0 4 == 0 && r.mode.extractLsb' 6 2 == 0) (.rget r.a r.id pol)
  | 0x85 => codeOr (AtomOp.ofCode (r.mode.extractLsb' 0 4)) fun op =>
      fixedZero (noBC && r.mode.extractLsb' 5 3 == 0) (.ratom r.a r.id op (r.mode.getLsbD 4))
  | 0x86 => fixedZero (noBC && r.mode == 0) (.ldimg r.a r.id)
  | 0x91 => fixedZero (r.a == 0 && noBC && r.id == 0 && r.mode == 0) .mstart
  | 0x92 => fixedZero (r.a == 0 && noBC && r.id == 0 && r.mode == 0) .mstop
  | _ => fixedZero (noBC && r.mode == 0) (.enq r.a r.id)

def decodeE (r : RawE) : Except DecodeError Instr :=
  if r.z != 0 then .error .reserved
  else if r.op.toNat / 16 = 7 then decodeE7 r else decodeE8 r

/-- The fields of MMUL and MMULB (07 Table 2). -/
def mulOf (r : RawX) (k : MulF → Instr) : Except DecodeError Instr :=
  codeOr (Fmt.ofCode r.fa) fun fa => codeOr (Fmt.ofCode r.fb) fun fb =>
    fixedZero (r.imm.extractLsb' 24 7 == 0)
      (k ⟨fa, fb, r.id, r.ma, r.mb, r.imm.extractLsb' 0 16, r.imm.extractLsb' 16 8, r.imm.getLsbD 31⟩)
def MulF.imm (o : MulF) : BitVec 32 := BitVec.ofBool o.rel ++ (0 : BitVec 7) ++ o.rps ++ o.n

def decodeX (r : RawX) : Except DecodeError Instr :=
  let noF := r.fa == 0 && r.fb == 0
  match r.op.toNat with
  | 0xA0 => codeOr (Fmt.ofCode r.fb) fun fb =>
      fixedZero (r.fa == 0 && r.imm.extractLsb' 1 31 == 0) (.mldb fb r.id r.ma r.mb (r.imm.getLsbD 0))
  | 0xA1 => mulOf r .mmul
  | 0xA2 => mulOf r .mmulb
  | 0xA3 => fixedZero (noF && r.imm == 0) (.mscale r.id r.ma r.mb)
  | 0xA4 => fixedZero (noF && r.id == 0 && r.imm == 0) (.mzero r.ma r.mb)
  | 0xA5 => codeOr (Fmt.ofCode r.fa) fun fa => codeOr (Rm.ofCode (r.imm.extractLsb' 0 3)) fun rm =>
      codeOr (Ov.ofCode (r.imm.extractLsb' 3 2)) fun ov =>
      fixedZero (r.fb == 0 && r.imm.extractLsb' 5 27 == 0) (.mdrain fa r.id r.ma r.mb rm ov)
  | 0xA6 => codeOr (SigKind.ofCode r.imm) fun k => fixedZero (noF && r.mb == 0) (.msig k r.id r.ma)
  | 0xA7 => codeOr (SigKind.ofCode r.imm) fun k => fixedZero (noF && r.mb == 0) (.mwait k r.id r.ma)
  | 0xA8 => fixedZero (noF && r.id == 0 && r.mb == 0) (.mloop r.ma r.imm)
  | 0xA9 => fixedZero (noF && r.id == 0 && r.mb == 0) (.mset r.ma r.imm)
  | _ => fixedZero (noF && r.id == 0 && r.ma == 0 && r.mb == 0 && r.imm == 0) .mend

def decodeS (r : RawS) : Except DecodeError Instr :=
  let g : Guard := ⟨r.p, r.n⟩
  match r.op.toNat with
  | 0xB0 => fixedZero (r.a == 0) (.sread r.d g r.id r.imm)
  | 0xB1 => fixedZero (r.d == 0) (.swrite r.a g r.id r.imm)
  | 0xB2 => fixedZero (r.a == 0 && r.id == 0 && r.imm.extractLsb' 1 15 == 0) (if r.imm.getLsbD 0 then .timeCyc r.d g else .timeRef r.d g)
  | 0xB3 => fixedZero (r.d == 0 && r.a == 0 && r.p == 0 && !r.n && r.id == 0 && r.imm.extractLsb' 1 15 == 0)
      (if r.imm.getLsbD 0 then .eretResume else .eretReplay)
  | 0xB4 => codeOr (Scope.ofCode (r.id.extractLsb' 0 3)) fun scope =>
      if r.d == 0 && r.id.extractLsb' 5 11 == 0 then
        match (r.id.extractLsb' 3 2).toNat with
        | 0 => .ok (.tlbinv r.a g scope r.imm)
        | 1 => fixedZero (r.a == 0) (.tlbinvAsid g scope r.imm)
        | 2 => fixedZero (r.a == 0 && r.imm == 0) (.tlbinvAll g scope)
        | _ => .error .code
      else .error .reserved
  | 0xB5 =>
      match r.id.toNat with
      | 0 => fixedZero (r.imm == 0) (.probe r.d r.a g)
      | 1 => .ok (.probeAs r.d r.a g r.imm)
      | _ => .error .code
  | 0xB6 => fixedZero (r.d == 0 && r.id == 0 && r.imm.extractLsb' 7 9 == 0)
      (if r.imm.getLsbD 6 then .wsaveFrame r.a g (r.imm.extractLsb' 0 6) else .wsave r.a g (r.imm.extractLsb' 0 6))
  | _ => fixedZero (r.d == 0 && r.id == 0 && r.imm.extractLsb' 7 9 == 0)
      (if r.imm.getLsbD 6 then .wloadFrame r.a g (r.imm.extractLsb' 0 6) else .wload r.a g (r.imm.extractLsb' 0 6))

/-- The fields of a word of a format, read as an instruction. -/
def decodeFields (w : BitVec 64) : Format → Except DecodeError Instr
  | .A => decodeA (unpackA w)
  | .B => decodeB (unpackI w)
  | .E => decodeE (unpackE w)
  | .I => decodeI (unpackI w)
  | .M => decodeM (unpackM w)
  | .S => decodeS (unpackS w)
  | .T => decodeT (unpackT w)
  | .X => decodeX (unpackX w)

/-- The instruction of a word. A word whose opcode is unassigned is the row UNASSIGNED_OPCODE (05 R93). -/
def decode (w : BitVec 64) : Except DecodeError Instr :=
  match formatOf (opcodeOf w) with
  | none => .ok (.unassignedOpcode w)
  | some f =>
    match decodeFields w f with
    | .ok i => if i.wf then .ok i else .error .illFormed
    | .error e => .error e

/-- The decoder on the opcode table's numbering of bits: bit 0 is the least significant bit of the 64-bit word (00 R6), and the bits
above nbits are zero. -/
def decodeTableWord (nbits w : Nat) : Option Instr :=
  match decode (BitVec.ofNat 64 (w % 2 ^ nbits)) with
  | .ok i => some i
  | .error _ => none

/-! The encoder: the word of a well-formed instruction. -/



def rawA2 (op : BitVec 8) (o : A2) : RawA := ⟨op, o.d, o.a, 0, 0, o.g.p, o.g.n, o.hd.code, o.ha.code, 0, 0, 0⟩
def rawA3 (op : BitVec 8) (o : A3) : RawA := ⟨op, o.d, o.a, o.b, 0, o.g.p, o.g.n, o.hd.code, o.ha.code, o.hb.code, 0, 0⟩
def rawA4 (op : BitVec 8) (o : A4) : RawA :=
  ⟨op, o.d, o.a, o.b, o.c, o.g.p, o.g.n, o.hd.code, o.ha.code, o.hb.code, o.hc.code, 0⟩
def rawSet (op : BitVec 8) (o : ASet) : RawA := ⟨op, o.d, o.a, o.b, 0, o.g.p, o.g.n, 0, o.ha.code, o.hb.code, 0, 0⟩
def rawG (op : BitVec 8) (g : Guard) : RawA := ⟨op, 0, 0, 0, 0, g.p, g.n, 0, 0, 0, 0, 0⟩
def RawA.withM (r : RawA) (m : BitVec 8) : RawA := { r with m := m }
def RawA.withC (r : RawA) (c : BitVec 8) : RawA := { r with c := c }
def RawA.withB (r : RawA) (b : BitVec 8) : RawA := { r with b := b }
def sByte (s : Bool) : BitVec 8 := (0 : BitVec 7) ++ BitVec.ofBool s
def FType.byte (t : FType) (na : Bool) : BitVec 8 := (FMod.mk t .rne na false false).byte

def rawMem (op : BitVec 8) (o : MemF) : RawM :=
  ⟨op, o.t, o.a, o.g.p, o.g.n, o.off, o.order.code, o.size.code, o.scope.code, o.ga, o.pol.code, o.sb⟩
def rawAtom (op : BitVec 8) (o : AtomF) : RawT :=
  ⟨op, o.d, o.a, o.b, o.c, o.g.p, o.g.n, o.op.code, o.size.code, o.scope.code, o.ga, o.order.code, o.sb⟩
def encI (op d a : BitVec 8) (g : Guard) (imm : BitVec 32) : BitVec 64 := packI ⟨op, d, a, g.p, g.n, imm⟩
def encE (op a b : BitVec 8) (id : BitVec 16) (mode : BitVec 8) : BitVec 64 := packE ⟨op, a, b, 0, id, mode, 0⟩
def encX (op : BitVec 8) (fa fb : BitVec 4) (id : BitVec 8) (ma mb : BitVec 4) (imm : BitVec 32) : BitVec 64 :=
  packX ⟨op, fa, fb, id, ma, mb, imm⟩
def encS (op d a : BitVec 8) (g : Guard) (id imm : BitVec 16) : BitVec 64 := packS ⟨op, d, a, g.p, g.n, id, imm⟩
def noGuard : Guard := ⟨0, false⟩
def tlbId (kind : BitVec 2) (scope : Scope) : BitVec 16 := (0 : BitVec 11) ++ kind ++ scope.code
def slotImm (frame : Bool) (slot : BitVec 6) : BitVec 16 := (0 : BitVec 9) ++ BitVec.ofBool frame ++ slot
def growImm (k : BitVec 22) (swz : Bool) : BitVec 32 := k ++ (0 : BitVec 9) ++ BitVec.ofBool swz
def polMode (ga : Bool) (pol : Policy) : BitVec 8 := (0 : BitVec 1) ++ BitVec.ofBool ga ++ pol.code ++ (0 : BitVec 4)

/-- The word of an instruction (05 Tables 1 to 12); an event has no word. -/
def encode : Instr → BitVec 64
  | .nop g => packA (rawG 0x00 g)
  | .bra g off => encI 0x01 0 0 g off
  | .brx a g => encI 0x02 0 a g 0
  | .call l g off => encI 0x03 l 0 g off
  | .callx l a g => encI 0x04 l a g 0
  | .ret a g => encI 0x05 0 a g 0
  | .yield g => packA (rawG 0x06 g)
  | .exit g => packA (rawG 0x07 g)
  | .trap g imm => encI 0x08 0 0 g imm
  | .bkpt g imm => encI 0x09 0 0 g imm
  | .iadd o => packA (rawA3 0x10 o)
  | .isub o => packA (rawA3 0x11 o)
  | .imul o => packA (rawA3 0x12 o)
  | .imulh s o => packA ((rawA3 0x13 o).withM (sByte s))
  | .imad o => packA (rawA4 0x14 o)
  | .idiv s o => packA ((rawA3 0x15 o).withM (sByte s))
  | .irem s o => packA ((rawA3 0x16 o).withM (sByte s))
  | .imin s o => packA ((rawA3 0x17 o).withM (sByte s))
  | .imax s o => packA ((rawA3 0x18 o).withM (sByte s))
  | .iabs o => packA (rawA2 0x19 o)
  | .iset c o => packA ((rawSet 0x1A o).withC c.code)
  | .sel o c => packA ((rawA3 0x1B o).withC c)
  | .lea o sh => packA ((rawA3 0x1C o).withM ((0 : BitVec 2) ++ sh))
  | .mov o => packA (rawA2 0x1D o)
  | .movi d g imm => encI 0x1E d 0 g imm
  | .x2p d a g ha => packA ⟨0x1F, d, a, 0, 0, g.p, g.n, 0, ha.code, 0, 0, 0⟩
  | .and o => packA (rawA3 0x20 o)
  | .or o => packA (rawA3 0x21 o)
  | .xor o => packA (rawA3 0x22 o)
  | .andn o => packA (rawA3 0x23 o)
  | .lop3 o tab => packA ((rawA4 0x24 o).withM tab)
  | .shl o => packA (rawA3 0x25 o)
  | .shr o => packA (rawA3 0x26 o)
  | .sar o => packA (rawA3 0x27 o)
  | .rot o => packA (rawA3 0x28 o)
  | .clz o => packA (rawA2 0x29 o)
  | .popc o => packA (rawA2 0x2A o)
  | .brev o => packA (rawA2 0x2B o)
  | .bfx s o => packA ((rawA3 0x2C o).withM (sByte s))
  | .bfi o => packA (rawA4 0x2D o)
  | .plop d a b c g tab => packA ⟨0x2E, d, a, b, c, g.p, g.n, 0, 0, 0, 0, tab⟩
  | .p2x d a g hd => packA ⟨0x2F, d, a, 0, 0, g.p, g.n, hd.code, 0, 0, 0, 0⟩
  | .fadd m o => packA ((rawA3 0x30 o).withM m.byte)
  | .fsub m o => packA ((rawA3 0x31 o).withM m.byte)
  | .fmul m o => packA ((rawA3 0x32 o).withM m.byte)
  | .ffma m o => packA ((rawA4 0x33 o).withM m.byte)
  | .fmin t o => packA ((rawA3 0x34 o).withM (t.byte false))
  | .fmax t o => packA ((rawA3 0x35 o).withM (t.byte false))
  | .fset t c na o => packA (((rawSet 0x36 o).withC c.code).withM (t.byte na))
  | .fclass t o => packA ((rawA2 0x37 o).withM (t.byte false))
  | .fscale m o => packA ((rawA3 0x38 o).withM m.byte)
  | .frnd m o => packA ((rawA2 0x39 o).withM m.byte)
  | .fdiv m o => packA ((rawA3 0x3A o).withM m.byte)
  | .frcp z o => packA ((rawA2 0x40 o).withM (sByte z))
  | .frsq z o => packA ((rawA2 0x41 o).withM (sByte z))
  | .fsqrt m o => packA ((rawA2 0x42 o).withM m.byte)
  | .fexp2 z o => packA ((rawA2 0x43 o).withM (sByte z))
  | .flog2 z o => packA ((rawA2 0x44 o).withM (sByte z))
  | .fsin z o => packA ((rawA2 0x45 o).withM (sByte z))
  | .fcos z o => packA ((rawA2 0x46 o).withM (sByte z))
  | .ftanh z o => packA ((rawA2 0x47 o).withM (sByte z))
  | .cvt src dst rm ov o => packA (((rawA2 0x48 o).withB (src.code ++ dst.code)).withC (rmOvByte rm ov))
  | .pk8 f rm ov o => packA (((rawA3 0x49 o).withC (rmOvByte rm ov)).withM f.code)
  | .upk8 f o => packA ((rawA3 0x4A o).withM f.code)
  | .pk4 o => packA (rawA3 0x4B o)
  | .upk4 o => packA (rawA3 0x4C o)
  | .qscl m o => packA ((rawA3 0x4D o).withM m.code)
  | .scac o => packA (rawA4 0x4E o)
  | .shfl m b64 seg o => packA ((rawA3 0x50 o).withM ((0 : BitVec 2) ++ seg ++ BitVec.ofBool b64 ++ m.code))
  | .vote m d a g hd => packA ⟨0x51, d, a, 0, 0, g.p, g.n, hd.code, 0, 0, 0, m.code⟩
  | .redux op o => packA ((rawA2 0x52 o).withM op.code)
  | .scan op o => packA ((rawA2 0x53 o).withM op.code)
  | .matchLanes b64 o => packA ((rawA2 0x54 o).withM (sByte b64))
  | .ld o => packM (rawMem 0x60 o)
  | .lds o => packM (rawMem 0x61 o)
  | .ldc o => packM (rawMem 0x62 o)
  | .st o => packM (rawMem 0x63 o)
  | .sts o => packM (rawMem 0x64 o)
  | .atom o => packT (rawAtom 0x65 o)
  | .atoms o => packT (rawAtom 0x66 o)
  | .red o => packT (rawAtom 0x67 o)
  | .stmc o => packM (rawMem 0x68 o)
  | .pref a g off pol => packM ⟨0x69, 0, a, g.p, g.n, off, 0, 0, 0, false, pol.code, 0⟩
  | .disc t a g => packM ⟨0x6A, t, a, g.p, g.n, 0, 0, 0, 0, false, 0, 0⟩
  | .fence order scope ga g => packM ⟨0x6B, 0, 0, g.p, g.n, 0, order.code, 0, scope.code, ga, 0, 0⟩
  | .fencep w r g => encI 0x6C 0 0 g ((0 : BitVec 28) ++ r.code ++ w.code)
  | .claim t a g sb => packM ⟨0x6D, t, a, g.p, g.n, 0, 0, 0, 0, false, 0, sb⟩
  | .migr a => packM ⟨0x6E, 0, a, 0, false, 0, 0, 0, 0, false, 0, 0⟩
  | .migrHome => packM ⟨0x6E, 0, 0, 0, false, 0, 0, 1, 0, false, 0, 0⟩
  | .barw id b => encE 0x70 0 b id 0
  | .bara id b => encE 0x71 0 b id 0
  | .bcbinit a => encE 0x72 a 0 0 0
  | .bcbexp a b => encE 0x73 a b 0 0
  | .bcbarv a => encE 0x74 a 0 0 0
  | .bcbwait a b => encE 0x75 a b 0 0
  | .bcbtry a b => encE 0x76 a b 0 0
  | .ringinit id a => encE 0x77 a 0 id 0
  | .ringacqFill id b => encE 0x78 0 b id 1
  | .ringacqFree id b => encE 0x78 0 b id 0
  | .ringrelFill id => encE 0x79 0 0 id 1
  | .ringrelFree id => encE 0x79 0 0 id 0
  | .gbar id scope => encE 0x7A 0 0 id ((0 : BitVec 5) ++ scope.code)
  | .dqpop d hd g => packA ⟨0x7B, d, 0, 0, 0, g.p, g.n, hd.code, 0, 0, 0, 0⟩
  | .rolechk => packA (rawG 0x7C noGuard)
  | .cpy o => encE 0x80 o.a 0 o.id o.mode
  | .gth o => encE 0x81 o.a 0 o.id o.mode
  | .sct o => encE 0x82 o.a 0 o.id o.mode
  | .rsend a id pol ga => encE 0x83 a 0 id (polMode ga pol)
  | .rget a id pol => encE 0x84 a 0 id (polMode false pol)
  | .ratom a id op b64 => encE 0x85 a 0 id ((0 : BitVec 3) ++ BitVec.ofBool b64 ++ op.code)
  | .ldimg a id => encE 0x86 a 0 id 0
  | .fgrow n => encI 0x88 0 0 noGuard n
  | .ftrim n => encI 0x89 0 0 noGuard n
  | .sgrow d k => encI 0x8A d 0 noGuard (growImm k false)
  | .sgrowSwz d k => encI 0x8A d 0 noGuard (growImm k true)
  | .strim k => encI 0x8B 0 0 noGuard (growImm k false)
  | .ocwb g => packA (rawG 0x8C g)
  | .dqpush a g => packA ⟨0x90, 0, a, 0, 0, g.p, g.n, 0, 0, 0, 0, 0⟩
  | .mstart => encE 0x91 0 0 0 0
  | .mstop => encE 0x92 0 0 0 0
  | .enq a id => encE 0x93 a 0 id 0
  | .mldb fb id ma mb slot => encX 0xA0 0 fb.code id ma mb ((0 : BitVec 31) ++ BitVec.ofBool slot)
  | .mmul o => encX 0xA1 o.fa.code o.fb.code o.id o.ma o.mb o.imm
  | .mmulb o => encX 0xA2 o.fa.code o.fb.code o.id o.ma o.mb o.imm
  | .mscale id ma mb => encX 0xA3 0 0 id ma mb 0
  | .mzero ma mb => encX 0xA4 0 0 0 ma mb 0
  | .mdrain fa id ma mb rm ov => encX 0xA5 fa.code 0 id ma mb ((0 : BitVec 27) ++ ov.code ++ rm.code)
  | .msig k id ma => encX 0xA6 0 0 id ma 0 k.code
  | .mwait k id ma => encX 0xA7 0 0 id ma 0 k.code
  | .mloop ma off => encX 0xA8 0 0 0 ma 0 off
  | .mset ma imm => encX 0xA9 0 0 0 ma 0 imm
  | .mend => encX 0xAA 0 0 0 0 0 0
  | .sread d g id idx => encS 0xB0 d 0 g id idx
  | .swrite a g id idx => encS 0xB1 0 a g id idx
  | .timeRef d g => encS 0xB2 d 0 g 0 0
  | .timeCyc d g => encS 0xB2 d 0 g 0 1
  | .eretReplay => encS 0xB3 0 0 noGuard 0 0
  | .eretResume => encS 0xB3 0 0 noGuard 0 1
  | .tlbinv a g scope asid => encS 0xB4 0 a g (tlbId 0 scope) asid
  | .tlbinvAsid g scope asid => encS 0xB4 0 0 g (tlbId 1 scope) asid
  | .tlbinvAll g scope => encS 0xB4 0 0 g (tlbId 2 scope) 0
  | .probe d a g => encS 0xB5 d a g 0 0
  | .probeAs d a g asid => encS 0xB5 d a g 1 asid
  | .wsave a g slot => encS 0xB6 0 a g 0 (slotImm false slot)
  | .wsaveFrame a g slot => encS 0xB6 0 a g 0 (slotImm true slot)
  | .wload a g slot => encS 0xB7 0 a g 0 (slotImm false slot)
  | .wloadFrame a g slot => encS 0xB7 0 a g 0 (slotImm true slot)
  | .unassignedOpcode w => w
  | _ => 0

end Sys2Proof
end

