-- ==== Sys2Proof/Machine/Ops.lean ====
section
/-! DEFINITION. Regions and their effective fields (02 R18 to R22), the fault record and the host's fault queue (12 R225, R230), taking
a trap and returning from one (12 R226 to R228), slices and gangs (02 R32 to R37), the pool (03 R54 to R57) and waking waiters. -/

namespace Sys2Proof.Machine

/-! Regions -/

/-- The RCB of a region as the device last read it, or as it stands in memory (02 R18, R23). -/
def State.rcb (s : State) (r : Nat) : BitVec 512 :=
  match (s.region r).rcb with
  | some x => x
  | none => BitVec.ofNat 512 (natOf (s.homeBytes (s.regs.regtab.toNat + 64 * r) 64))

/-- The parent's RCB address (02 Table 1), and the region id it names. -/
def State.parentAddr (s : State) (r : Nat) : Nat := fld 0 64 (s.rcb r)
def State.parent (s : State) (r : Nat) : Nat := (s.parentAddr r - s.regs.regtab.toNat) / 64

/-- PARENT of an RCB other than the root's is misaligned, or points outside the table (02 R22). -/
def State.parentBad (s : State) (r : Nat) : Bool :=
  let p := s.parentAddr r
  let t := s.regs.regtab.toNat
  r != 0 && (p % 64 != 0 || p < t || p ≥ t + 64 * 4096)

/-- A region and its ancestors, itself first, at most 17 of them (02 R22). It ends where a PARENT names no region. -/
def State.chainFrom (s : State) : Nat → Nat → List Nat
  | 0, r => [r]
  | n + 1, r => if r = 0 then [0] else r :: (if s.parentBad r then [] else s.chainFrom n (s.parent r))
def State.chain (s : State) (r : Nat) : List Nat := s.chainFrom 17 r

/-- Region a is region r or one of its ancestors. -/
def State.isAncestor (s : State) (a r : Nat) : Bool := (s.chain r).contains a

/-- The region whose RCB gives field i of 02 Table 2: the nearest with its OVR bit set, or the root (02 R20). -/
def State.source (s : State) (i r : Nat) : Nat :=
  (((s.chain r).find? fun a => a == 0 || flag (192 + i) (s.rcb a))).getD 0

/-- An effective field that is no budget (02 R20). -/
def State.eff (s : State) (i lo n r : Nat) : Nat := fld lo n (s.rcb (s.source i r))
/-- An effective budget: the least of the values along the chain (02 R21). -/
def State.budget (s : State) (i lo n r : Nat) : Nat := ((s.chain r).map fun a => s.eff i lo n a).foldl min (2 ^ n)

def State.effTrapvec (s : State) (r : Nat) : DWord := BitVec.ofNat 64 (s.eff 0 64 64 r)
def State.effStattab (s : State) (r : Nat) : Nat := s.eff 1 128 64 r
def State.effAsid (s : State) (r : Nat) : Nat := s.eff 2 208 16 r
def State.effFdom (s : State) (r : Nat) : Nat := s.eff 3 224 16 r
def State.effPool (s : State) (r : Nat) : Nat := s.budget 4 240 16 r
def State.effCores (s : State) (d r : Nat) : Nat := s.budget 5 (256 + 8 * d) 8 r
def State.effPrio (s : State) (r : Nat) : Nat := s.eff 6 272 3 r
def State.effClass (s : State) (r : Nat) : Nat := s.eff 7 275 2 r
def State.effPreempt (s : State) (r : Nat) : Nat := s.eff 8 277 2 r
def State.effSkipd (s : State) (r : Nat) : Nat := s.eff 9 279 3 r
def State.effTrapnow (s : State) (r : Nat) : Bool := s.eff 10 282 1 r == 1
/-- FMODE bit b of 283 to 287. -/
def State.effFmode (s : State) (b r : Nat) : Bool := fld (b - 283) 1 (BitVec.ofNat 5 (s.eff 11 283 5 r)) == 1
/-- The applied SHARE (11 R206), and whether the effective one is nonzero. -/
def State.appliedShare (s : State) (r : Nat) : Nat := s.eff 12 288 10 r
def State.hasShare (s : State) (r : Nat) : Bool := s.budget 12 288 10 r != 0
/-- Whether the takes of this rotation on a die count a region's effective SHARE as nonzero: as it stood when the rotation began (02 R23). -/
def State.mayTake (s : State) (d r : Nat) : Bool := !(s.die d).mint.noShare.contains r
def State.effStalldl (s : State) (r : Nat) : Nat := s.eff 13 320 32 r
/-- ACKTO in nanoseconds (02 Table 1: 0 means 20 µs). -/
def State.effAckto (s : State) (r : Nat) : Nat := 1000 * (if s.eff 14 352 16 r = 0 then 20 else s.eff 14 352 16 r)
def State.effWdog (s : State) (r : Nat) : Nat := s.eff 15 368 16 r

/-- What makes an RCB invalid in itself (02 R22). -/
def State.rcbBad (s : State) (r : Nat) : Bool :=
  let x := s.rcb r
  let own (i : Nat) : Bool := r == 0 || flag (192 + i) x
  fld 298 22 x != 0 || fld 384 128 x != 0 || fld 275 2 x == 3 || fld 277 2 x == 3 || fld 288 10 x > 1000 || fld 256 8 x > 112 ||
  fld 264 8 x > 112 || s.parentBad r || (own 0 && fld 64 7 x != 0) ||
  (own 1 && fld 128 6 x != 0)

/-- A chain longer than 16 links, or one that returns to a region already on it and so never ends: it makes the region itself invalid (02
R22). -/
def State.chainBad (s : State) (r : Nat) : Bool := decide ((s.chain r).length > 17)

/-- The address of the first invalid RCB on a region's chain, the region's own first (02 R22). -/
def State.regionInvalid (s : State) (r : Nat) : Option Nat :=
  ((s.chain r).find? fun a => s.rcbBad a || s.chainBad a).map fun a => s.regs.regtab.toNat + 64 * a

/-! Cause codes and the fault record -/

/-- 12 Table 1. -/
def Cause.code : Cause → Nat
  | .notPresent => 0x01
  | .readDeny => 0x02
  | .writeDeny => 0x03
  | .execDeny => 0x04
  | .atomDeny => 0x05
  | .privDeny => 0x06
  | .remote => 0x07
  | .migrating => 0x08
  | .align => 0x09
  | .rangeLock => 0x0A
  | .poison => 0x0B
  | .ackLost => 0x0C
  | .mcPerm => 0x0D
  | .illegal => 0x10
  | .engine => 0x11
  | .pair => 0x12
  | .retEmpty => 0x13
  | .divDepth => 0x14
  | .frameGrow => 0x15
  | .scrGrow => 0x16
  | .frameBound => 0x17
  | .barOver => 0x18
  | .barErr => 0x19
  | .tokenCap => 0x1A
  | .fpTrap => 0x1B
  | .statLimit => 0x1C
  | .swTrap => 0x1D
  | .bkpt => 0x1E
  | .migScope => 0x1F
  | .peerLost => 0x20
  | .ringErr => 0x21
  | .roleErr => 0x22

def Cause.all : List Cause :=
  [.notPresent, .readDeny, .writeDeny, .execDeny, .atomDeny, .privDeny, .remote, .migrating, .align, .rangeLock, .poison, .ackLost,
   .mcPerm, .illegal, .engine, .pair, .retEmpty, .divDepth, .frameGrow, .scrGrow, .frameBound, .barOver, .barErr, .tokenCap, .fpTrap,
   .statLimit, .swTrap, .bkpt, .migScope, .peerLost, .ringErr, .roleErr]
def Cause.ofCode (n : Nat) : Option Cause := Cause.all.find? fun c => c.code == n

/-- What a record says beside its cause (12 Table 2). -/
structure RecordArgs where
  cause : Cause
  src : Nat
  mig : Bool
  hostq : Bool
  log : Option Nat
  lanes : BitVec 32
  addr : DWord
  pc : DWord
  slot : Nat
  migd : Bool
  core : Nat
  region : Nat
  aux : Nat
  card : DWord

/-- The fault record (12 Table 2). -/
def State.record (s : State) (a : RecordArgs) : BitVec 512 :=
  let bit (b : Bool) (k : Nat) : Nat := if b then 2 ^ k else 0
  let w0 := a.cause.code + a.src * 2 ^ 8 + bit a.mig 11 + bit a.hostq 12 + (a.log.getD 0) * 2 ^ 16 + bit a.log.isSome 20 +
    a.lanes.toNat * 2 ^ 32
  let w3 := a.slot + bit a.migd 6 + (a.core % 112) * 2 ^ 8 + dieOf a.core * 2 ^ 15 + a.region * 2 ^ 16 + (a.aux % 2 ^ 32) * 2 ^ 32
  (0 : BitVec 128) ++ a.card ++ s.tref ++ BitVec.ofNat 64 w3 ++ a.pc ++ a.addr ++ BitVec.ofNat 64 w0

/-- The region a function is bound to (13 R243): bits [12f + 11 : 12f] of FUNCMAP. -/
def State.funcRegion (s : State) (f : Nat) : Nat :=
  natOf ((List.range 24).flatMap fun i => bytesOf 4 (Tbl.get 0 s.regs.funcmap i).toNat) / 2 ^ (12 * f) % 4096

/-- Raise an MSI-X vector of every function that reaches a region (13 R243, R244). -/
def State.raise (s : State) (vector region : Nat) : State :=
  (List.range 64).foldl (fun s f =>
    if s.isAncestor (s.funcRegion f) region then
      { s with host := { s.host with msix := Tbl.upd 0 s.host.msix (3 * f + vector) (· + 1) } }
    else s) s

/-- Write a record to the host's fault queue, advance FQTAIL and raise the interrupt, or drop it (12 R230). While die 0 is dead, die 1
holds up to 64 records (12 R240). -/
def State.post (s : State) (region : Nat) (r : BitVec 512) : State :=
  let drop : State := { s with regs := { s.regs with fqdrop := s.regs.fqdrop + 1 } }
  let log := if 4 ≤ fld 0 5 s.regs.fqsize && fld 0 5 s.regs.fqsize ≤ 16 then fld 0 5 s.regs.fqsize else 4
  if s.die0.dead then
    if s.host.held.length < 64 then { s with host := { s.host with held := s.host.held ++ [r] } } else drop
  else if s.regs.fqbase = 0 || (s.regs.fqtail - s.regs.fqhead).toNat = 2 ^ log then drop
  else
    let a := s.regs.fqbase.toNat + 64 * (s.regs.fqtail.toNat % 2 ^ log)
    let s := s.gaStore 224 a (bytesOf 64 r.toNat)
    State.raise { s with regs := { s.regs with fqtail := s.regs.fqtail + 1 } } 0 region

/-- A record of the dispatcher (SRC 100) or of the device (SRC 101). -/
def State.postDevice (s : State) (src : Nat) (cause : Cause) (addr pc card : DWord) (slot core region : Nat) : State :=
  s.post region (s.record ⟨cause, src, false, true, none, 0, addr, pc, slot, false, core, region, 0, card⟩)

/-! Traps -/

/-- What a trap says: its cause, ADDR, AUX and lanes; whether it is a fault of a translated access (12 R226) and asks for migration;
the log entry of a logged fault. -/
structure TrapArgs where
  cause : Cause
  addr : DWord
  aux : Nat
  lanes : BitVec 32
  access : Bool
  mig : Bool
  log : Option Nat
  deriving DecidableEq, Repr

/-- A trap of the issue checks or of a word's own conditions. -/
def TrapArgs.of (c : Cause) (addr : DWord) (aux : Nat) (lanes : BitVec 32) : TrapArgs := ⟨c, addr, aux, lanes, false, false, none⟩
def AccFault.trap (f : AccFault) (lanes : BitVec 32) : TrapArgs := ⟨f.cause, f.addr, 0, lanes, f.cause != .poison, f.mig, none⟩

/-- Whether a trap of a warp uses host-assisted mode (12 R226), given the block's trap vector. -/
def State.hostAssisted (s : State) (region : Nat) (vec : DWord) (t : TrapArgs) : Bool :=
  let fm (b : Nat) : Bool := s.effFmode b region
  vec == 0 ||
  match t.cause with
  | .poison | .ackLost | .peerLost => fm 286
  | .statLimit => fm 287
  | .migrating => fm 285
  | .remote => if t.access then (if t.mig then fm 284 else fm 283) else false
  | .notPresent | .privDeny | .readDeny | .writeDeny | .atomDeny | .execDeny => t.access && fm 283
  | _ => false

/-- The trap vector of a card's blocks: the card's, or its region's effective one (12 R226). -/
def State.trapVector (s : State) (card : BitVec 1024) (region : Nat) : DWord :=
  let v : DWord := card.extractLsb' 896 64
  if v = 0 then s.effTrapvec region else v

/-- SRC and SLOT of a party's record (12 Table 2); a migrated warp's record names its slot of origin. -/
def partySrc : Party → Nat
  | .warp _ | .landing => 0
  | .front _ => 1
  | .matrix _ => 2
def partySlot : Party → Nat
  | .warp n | .front n | .matrix n => n
  | .landing => 0

/-- The record of a trap of a party. LANES is a mask of a warp's lanes (22 R350; a front end has none). -/
def State.trapRecord (s : State) (w : Who) (b : Block) (pc : DWord) (hostq : Bool) (t : TrapArgs) : BitVec 512 :=
  let migd := ((s.warp w).map (·.origin.isSome)).getD false
  let lanes : BitVec 32 := if partySrc w.party = 0 then t.lanes else 0
  let slot := (((s.warp w).bind (·.origin)).map (·.2)).getD (partySlot w.party)
  s.record ⟨t.cause, partySrc w.party, t.mig, hostq, t.log, lanes, t.addr, pc, slot, migd, w.core, b.dealt.region, t.aux,
    b.dealt.cardId⟩

/-- The end of a clause clears its pins (03 R48). -/
def Warp.unpinned (w : Warp) : List OcEntry := w.oc.map fun e => { e with pin := false }

/-- Slices of the trapping gang enter the trap-vector line at word 1, with the same lanes (12 R227). -/
def Warp.enterHandler (w : Warp) (vec : DWord) (rcd : BitVec 512) (info : TrapInfo) : Warp :=
  { w with
    handler := some ⟨w.slices, w.gang, w.clause, info⟩
    frec := rcd
    clause := none
    oc := w.unpinned
    slices := (List.range w.slices.length).zipWith (fun k x =>
      if w.gang.getLsbD k then { x with pc := vec + 8, stack := [], arr := none } else x) w.slices }

/-- TAKING A TRAP (12 R226 to R228): in hardware mode the gang enters the trap vector at handler level and FREC0 to FREC7 hold the
record; in host-assisted mode the record is posted and the party parks. `at_` is the trapping word, `pc` the word that a replay issues, `next` the word after it. -/
def State.takeTrapAt (s : State) (w : Who) (at_ pc next : DWord) (t : TrapArgs) : State :=
  match s.blockOf w with
  | none => s
  | some b =>
    let info (r : BitVec 512) : TrapInfo := ⟨t.cause, r, pc, next, t.log, none⟩
    let hard : Bool := match w.party with
      | .warp _ | .landing => !s.atHandler w && !s.hostAssisted b.dealt.region b.dealt.vec t
      | _ => false
    let r := s.trapRecord w b at_ (!hard) t
    if hard then s.updWarp w fun x => x.enterHandler b.dealt.vec r (info r)
    else
      let s := s.post b.dealt.region r
      match w.party with
      | .front k => s.updFront w.core k fun x => { x with park := some (info r) }
      | .matrix k => s.updMatrix w.core k fun x => { x with park := some (info r) }
      | _ => s.updWarp w fun x => { x with park := some (info r) }

/-- A trap whose replay issues the trapping word. -/
def State.takeTrap (s : State) (w : Who) (pc next : DWord) (t : TrapArgs) : State := s.takeTrapAt w pc pc next t

/-- RETURNING FROM A TRAP (12 R227, R228): the recorded slices go on at the trapping word (replay) or after it (resume); for a logged
fault, whose entry the caller has replayed or freed, at the waiting word where they stand. Lanes that have ended stay ended. -/
def returnSlices (alive : BitVec 32) (gang : BitVec 8) (info : TrapInfo) (resume : Bool) (sl : List Slice) : List Slice :=
  (List.range sl.length).zipWith (fun k x =>
    let live : BitVec 4 := alive.extractLsb' (4 * k) 4
    let x := { x with mask := x.mask &&& live, stack := x.stack.map fun e => { e with mask := e.mask &&& live } }
    if gang.getLsbD k && info.log.isNone then { x with pc := if resume then info.next else info.pc } else x) sl

/-- ERET (22 R312): handler level ends and the recorded state stands again. -/
def Warp.leaveHandler (w : Warp) (h : HandlerSave) (resume : Bool) : Warp :=
  let keep := (List.range w.slices.length).zipWith (fun k (p : Slice × Slice) => if h.gang.getLsbD k then p.1 else p.2)
    (List.zip h.slices w.slices)
  { w with
    slices := returnSlices w.alive h.gang h.info resume keep, gang := h.gang, clause := none, handler := none, resumed := true, oc := w.unpinned }

/-- FRESUME replay or resume of a parked party (12 R228). -/
def State.unpark (s : State) (w : Who) (info : TrapInfo) (resume : Bool) : State :=
  let pc := if resume then info.next else info.pc
  match w.party with
  | .front k => s.updFront w.core k fun x => { x with park := none, clause := none, pc := if info.log.isSome then x.pc else pc }
  | .matrix k => s.updMatrix w.core k fun x =>
      let x := if resume then { x with row := 0, steps := 0, started := false, due := none } else x
      { x with park := none, clause := none, pc := pc }
  | _ => s.updWarp w fun x =>
      { x with park := none, clause := none, resumed := true, oc := x.unpinned, slices := returnSlices x.alive x.gang info resume x.slices }

/-! Slices and gangs -/

/-- A path is earlier when its call depth is greater, or equal with a lower program counter (02 R32). -/
def earlier (d : Nat) (pc : DWord) (d' : Nat) (pc' : DWord) : Bool := d > d' || (d == d' && decide (pc.toNat < pc'.toNat))

/-- Top entries that stand where the running path stands merge into its mask (02 R35, step 1). -/
def mergeTop (pc : DWord) (depth : Nat) : BitVec 4 → List Split → BitVec 4 × List Split
  | m, [] => (m, [])
  | m, e :: rest => if e.pc == pc && e.depth == depth then mergeTop pc depth (m ||| e.mask) rest else (m, e :: rest)

/-- A path that is earlier than the running one changes places with it (02 R35, step 2), whether or not lanes are left in the latter. -/
def Slice.swapTop (x : Slice) : Slice :=
  match x.stack with
  | [] => x
  | e :: rest =>
    if earlier e.depth e.pc x.depth x.pc then
      { x with pc := e.pc, depth := e.depth, mask := e.mask, stack := ⟨x.pc, x.mask, x.depth⟩ :: rest, arr := none }
    else x

/-- Entries are popped until the running path has lanes (02 R35, step 3). -/
def Slice.popTop (x : Slice) : List Split → Slice
  | [] => { x with stack := [] }
  | e :: rest =>
    if x.mask != 0 then { x with stack := e :: rest }
    else Slice.popTop { x with pc := e.pc, depth := e.depth, mask := e.mask, arr := none } rest

/-- A slice acts on its own split stack at a clause boundary: the three steps of 02 R35 in order. -/
def settle (x : Slice) : Slice :=
  let (m, st) := mergeTop x.pc x.depth x.mask x.stack
  let y := Slice.swapTop { x with mask := m, stack := st }
  Slice.popTop y y.stack

def Slice.ended (x : Slice) : Bool := x.mask == 0 && x.stack.isEmpty
def Slice.sameGang (x y : Slice) : Bool := x.pc == y.pc && x.depth == y.depth && x.stack.length == y.stack.length

/-- The earliest slice of a list, the lowest-numbered on a tie (02 R35). -/
def earliest (sl : List Slice) : List Nat → Option Nat
  | [] => none
  | k :: ks =>
    match sl[k]?, earliest sl ks with
    | some x, some j =>
      match sl[j]? with
      | some y => if earlier y.depth y.pc x.depth x.pc then some j else some k
      | none => some k
    | some _, none => some k
    | none, r => r

/-- The slices that may run: those that have not ended, and at handler level those of the trapping gang (12 R227). -/
def Warp.liveSlices (w : Warp) : List Nat :=
  (List.range w.slices.length).filter fun k =>
    (match w.slices[k]? with | some x => !x.ended | none => false) &&
    (match w.handler with | some h => h.gang.getLsbD k | none => true)

/-- The slices that stand where slice k stands: its gang, among the live ones (02 R35). -/
def gangOf (sl : List Slice) (live : List Nat) (k : Nat) : BitVec 8 :=
  match sl[k]? with
  | none => 0
  | some x => maskOf 8 fun j => live.contains j && (match sl[j]? with | some y => x.sameGang y | none => false)

/-- The slice of a list that has been passed over the longest, the lowest-numbered on a tie. -/
def longest (waits : Tbl Nat) (l : List Nat) : Option Nat :=
  l.foldl (fun b k => match b with
    | some j => if Tbl.get 0 waits k > Tbl.get 0 waits j then some k else some j
    | none => some k) none

/-- The gang that runs after a switch point: the earliest one, `first` (02 R37). DESIGN CHOICE (entry 8): 02 R37 alone lets a gang that
spins hold the others for ever, which 02 R38 and 23 R399 exclude; a gang that has stood parked at more than `Config.gangTurns` switch
points therefore runs instead. -/
def turnOf (sl : List Slice) (live : List Nat) (waits : Tbl Nat) (first : BitVec 8) : BitVec 8 :=
  let rest := live.filter fun j => !first.getLsbD j
  match longest waits rest with
  | none => first
  | some j => if Tbl.get 0 waits j > Config.gangTurns then gangOf sl live j else first

/-- The parked gangs have been passed over once more. -/
def passedOver (live : List Nat) (gang : BitVec 8) (waits : Tbl Nat) : Tbl Nat :=
  (live.filter fun j => !gang.getLsbD j).foldl (fun t j => Tbl.set 0 t j (Tbl.get 0 waits j + 1)) []

/-- The slices among which the running gang's place is taken at a boundary (02 R35): those that ran and the parked ones that merge with
them; at a switch point every one (02 R37). -/
def rivals (sl : List Slice) (live mine : List Nat) (switch : Bool) : List Nat :=
  if switch || mine.isEmpty then live
  else live.filter fun j => mine.any fun k => match sl[j]?, sl[k]? with | some x, some y => x.sameGang y | _, _ => false

/-- A clause boundary of the running gang: its slices settle and the warp regangs (02 R35). At a switch point parked gangs compete as
well (02 R37), and the end of the running gang's last lane is one. -/
def Warp.boundary (w : Warp) (switch : Bool) : Warp :=
  let sl := (List.range w.slices.length).zipWith (fun k x => if w.gang.getLsbD k then settle x else x) w.slices
  let w : Warp := { w with slices := sl, clause := none, oc := w.unpinned }
  let live := w.liveSlices
  let mine := live.filter fun k => w.gang.getLsbD k
  let switch := switch || mine.isEmpty
  match earliest sl (rivals sl live mine switch) with
  | none => { w with gang := 0 }
  | some k =>
    let first := gangOf sl live k
    if switch then
      let next := turnOf sl live w.waits first
      { w with gang := next, waits := passedOver live next w.waits }
    else { w with gang := first }

/-- The active lanes of the running gang. -/
def Warp.active (w : Warp) : BitVec 32 :=
  maskOf 32 fun l => w.gang.getLsbD (l / 4) && (match w.slices[l / 4]? with | some x => x.mask.getLsbD (l % 4) | none => false)

/-- The gang is the whole warp with every lane that has not exited active (02 R31, 03 R58, 08 R157). -/
def Warp.whole (w : Warp) : Bool := w.active == w.alive

/-- Change every slice of the running gang. -/
def Warp.mapGang (w : Warp) (f : Slice → Slice) : Warp :=
  { w with slices := (List.range w.slices.length).zipWith (fun k x => if w.gang.getLsbD k then f x else x) w.slices }

/-- Push a deferred path; one equal to the top entry merges into it (02 R32). -/
def pushSplit (st : List Split) (e : Split) : List Split :=
  match st with
  | t :: rest => if t.pc == e.pc && t.depth == e.depth then { t with mask := t.mask ||| e.mask } :: rest else e :: t :: rest
  | [] => [e]

/-- The next paths of a slice, one for each distinct program counter and depth, with their lanes. -/
def addPath (ps : List Split) (pc : DWord) (depth bit : Nat) : List Split :=
  match ps with
  | [] => [⟨pc, 1#4 <<< bit, depth⟩]
  | p :: rest =>
    if p.pc == pc && p.depth == depth then { p with mask := p.mask ||| (1#4 <<< bit) } :: rest else p :: addPath rest pc depth bit

def slicePaths (x : Slice) (next : Nat → DWord × Nat) : List Split :=
  (onesOf x.mask).foldl (fun ps b => addPath ps (next b).1 (next b).2 b) []

/-- Paths in order, the earliest first (02 R32). -/
def insertPath (p : Split) : List Split → List Split
  | [] => [p]
  | q :: qs => if earlier q.depth q.pc p.depth p.pc then q :: insertPath p qs else p :: q :: qs
def sortPaths (ps : List Split) : List Split := ps.foldr insertPath []

/-- A slice takes a branch: it keeps the earliest path and pushes the others, the latest first (02 R32). `next` gives each lane's
next program counter and call depth. -/
def Slice.branch (x : Slice) (next : Nat → DWord × Nat) : Slice :=
  match sortPaths (slicePaths x next) with
  | [] => x
  | p :: others =>
    { x with pc := p.pc, depth := p.depth, mask := p.mask, stack := others.reverse.foldl pushSplit x.stack, arr := none }

/-! The pool -/

/-- POOLCAP.CUTS of a core and the most that frames and scratch may hold (01 R12, 03 R54). -/
def State.poolCuts (s : State) (core : Nat) : Nat := if (s.die (dieOf core)).upper then 6144 else 3072
/-- The effective POOL of a region and of each ancestor, as RCBs stand (02 R21). -/
def State.poolBudgets (s : State) (region : Nat) : List (Nat × Nat) := (s.chain region).map fun a => (a, s.effPool a)

/-- Whether a grow of k cuts can be granted (03 R55), under the POOL budgets that its block was dealt under (02 R23). -/
def State.poolFits (s : State) (core : Nat) (own : List (Nat × Nat)) (k : Nat) : Bool :=
  let p := (s.core core).pool
  decide (p.used + k ≤ s.poolCuts core - 256) && own.all fun e => decide (Tbl.get 0 p.held e.1 + k ≤ min e.2 (s.poolCuts core))

/-- What the regions of a chain hold, after a change of each. -/
def Pool.count (p : Pool) (own : List (Nat × Nat)) (f : Nat → Nat) : Tbl Nat := own.foldl (fun t e => Tbl.upd 0 t e.1 f) p.held

/-- The grant takes free cuts first (03 R55); they count for the region and for each ancestor that its block was dealt under. -/
def State.poolTake (s : State) (core : Nat) (own : List (Nat × Nat)) (k : Nat) : State :=
  s.updCore core fun c => { c with pool := { c.pool with
    free := c.pool.free - k, used := c.pool.used + k, held := c.pool.count own (· + k) } }

/-- Freed cuts stay free while a grow waits and pass to L1 otherwise (03 R56). -/
def State.poolGive (s : State) (core : Nat) (own : List (Nat × Nat)) (k : Nat) : State :=
  s.updCore core fun c =>
    let waits := c.pool.grows.any fun g => g.state == .waiting
    { c with pool := { c.pool with
        free := if waits then c.pool.free + k else 0, used := c.pool.used - k, held := c.pool.count own (· - k) } }

end Sys2Proof.Machine
end

