-- ==== Sys2Proof/Machine/Flags.lean ====
section
/-! DEFINITION. Comparisons (21 R319, R325, R328, R338), the events that words count (06 R115 to R118) and the trace of a region
(13 R257). -/

namespace Sys2Proof.Machine

/-! Comparisons -/

/-- ISET (21 Table 9), on operands of w bits. -/
def icmp {w : Nat} (c : ICmp) (a b : BitVec w) : Bool :=
  match c with
  | .eq => a == b
  | .ne => a != b
  | .ltS => a.slt b
  | .leS => a.sle b
  | .gtS => b.slt a
  | .geS => b.sle a
  | .ltU => a.ult b
  | .leU => a.ule b
  | .gtU => b.ult a
  | .geU => b.ule a

/-- FSET (21 Table 5). -/
def fcmp (c : FCmp) (x y : Num) : Bool :=
  match x.cmp y with
  | none => c == .ne || c == .nan
  | some o =>
    match c with
    | .eq => o == .eq
    | .ne => o != .eq
    | .lt => o == .lt
    | .le => o != .gt
    | .gt => o == .gt
    | .ge => o != .lt
    | .num => true
    | .nan => false

/-- FCLASS of one element (21 R319): a mask with one bit set. -/
def fclassBits (f : FloatFmt) (x : Nat) : Nat :=
  let neg := x / f.signBit % 2 == 1
  let m := x % f.signBit
  let frac := m % 2 ^ f.fb
  let k :=
    if m > f.infBits then (if frac < 2 ^ (f.fb - 1) then 8 else 9)
    else if m = f.infBits then (if neg then 0 else 7)
    else if m ≥ 2 ^ f.fb then (if neg then 1 else 6)
    else if m ≠ 0 then (if neg then 2 else 5)
    else if neg then 3 else 4
  2 ^ k

/-- FMIN and FMAX of one element (21 R325): −0 is below +0, and the result is an operand's bits. -/
def fminmax (f : FloatFmt) (larger : Bool) (a b : Nat) : Nat :=
  let x := f.read a
  let y := f.read b
  match x.isNan, y.isNan with
  | true, true => f.nanBits
  | true, false => b
  | false, true => a
  | false, false =>
    match x.cmp y with
    | some .lt => if larger then b else a
    | some .gt => if larger then a else b
    | _ => if larger then (if x.negative then b else a) else (if x.negative then a else b)

/-! Events -/

/-- The class index of 06 Table 6. -/
def Ev.idx : Ev → Nat
  | .ovf => 0
  | .unf => 1
  | .nan => 2
  | .sat => 3
  | .clamp => 4
  | .sruse => 5

/-- A statistics-threshold table as it stands in memory: an entry with a poisoned unit acts as THRESH 0 (10 R401). -/
def State.readThresh (s : State) (a : Nat) : BitVec 1024 :=
  BitVec.ofNat 1024 (natOf ((List.range 8).flatMap fun i =>
    if (s.mem.badAt (a + 16 * i) 16).isSome then List.replicate 16 0 else s.homeBytes (a + 16 * i) 16))

/-- The statistics-threshold table of a region as the device last read it, none when its effective STATTAB is 0 (06 R116, R117). -/
def State.thresh (s : State) (r : Nat) : Option (BitVec 1024) :=
  if s.effStattab r = 0 then none
  else match (s.region r).thresh with
    | some t => some t
    | none => some (s.readThresh (s.effStattab r))

/-- THRESH, WINDOW and ACTION of a class (06 Table 7). -/
def State.threshOf (s : State) (r : Nat) (e : Ev) : Nat × Nat × Nat :=
  match s.thresh r with
  | some t => (fld (128 * e.idx) 64 t, fld (128 * e.idx + 64) 48 t, fld (128 * e.idx + 112) 2 t)
  | none => (0, 0, 0)

/-- The state of a class after an event, and whether the event takes the action (06 R117). -/
def Stat.event (x : Stat) (now thresh window : Nat) : Stat × Bool :=
  let start := x.start.getD now
  let past : Bool := window != 0 && decide (now - start ≥ window)
  let start := if past then now else start
  let count : DWord := (if past then 0 else x.count) + 1
  let fired := !past && x.fired
  let act : Bool := thresh != 0 && decide (count.toNat ≥ thresh) && !fired
  (⟨count, some start, fired || act⟩, act)

/-- One event counted in one region: the state and the action it takes (0: none). -/
def State.countIn (s : State) (r : Nat) (e : Ev) : State × Nat :=
  let (thresh, window, action) := s.threshOf r e
  let x := s.region r
  let (st, act) := (Tbl.get Stat.init x.stats e.idx).event s.tref.toNat thresh window
  (s.setRegion r { x with stats := Tbl.set Stat.init x.stats e.idx st }, if act then action else 0)

/-- The regions that count an event of a block: its own, and each ancestor whose table names the class (06 R115). -/
def State.counters (s : State) (r : Nat) (e : Ev) : List Nat :=
  match s.chain r with
  | [] => [r]
  | a :: rest => a :: rest.filter fun k => (s.threshOf k e).1 != 0

/-- An event of a party, counted in each of its regions: a host interrupt posts a record (06 R118); the result says whether some
action is a trap. -/
def State.countEvent (s : State) (w : Who) (b : Block) (pc : DWord) (lane : Nat) (e : Ev) : State × Bool :=
  (s.counters b.dealt.region e).foldl (fun (st : State × Bool) r =>
    let (s, action) := st.1.countIn r e
    let args := TrapArgs.of .statLimit 0 e.idx (1#32 <<< lane)
    if action = 2 then (s.post b.dealt.region (s.trapRecord w b pc true args), st.2) else (s, st.2 || action == 1)) (s, false)

/-- The events of a word in order: the first that raises STATLIMIT, with its lane (06 R118). -/
def State.countEvents (s : State) (w : Who) (b : Block) (pc : DWord) (evs : List (Nat × Ev)) : State × Option (Nat × Ev) :=
  evs.foldl (fun (st : State × Option (Nat × Ev)) p =>
    let (s, trap) := st.1.countEvent w b pc p.1 p.2
    (s, if st.2.isSome then st.2 else if trap then some p else none)) (s, none)

/-- A privileged SWRITE of STATCi (06 R117). -/
def State.clearStat (s : State) (r i : Nat) : State :=
  let x := s.region r
  s.setRegion r { x with stats := Tbl.set Stat.init x.stats i ⟨0, some s.tref.toNat, false⟩ }

/-! The trace -/

/-- Append an entry to the trace of a region in record mode: type, TIME.ref and 16 data bytes; a full buffer stops recording and sets
bit 2 (13 R257). -/
def State.trace (s : State) (r kind : Nat) (data0 data1 : DWord) : State :=
  let x := s.region r
  if !flag 0 x.trCtl then s
  else if 32 * (x.trPos + 1) > x.trSize.toNat then s.setRegion r { x with trCtl := (x.trCtl &&& ~~~1#32) ||| 4#32 }
  else
    let a := x.trBase.toNat + 32 * x.trPos
    let s := s.gaStore 224 a (bytesOf 8 kind ++ bytesOf 8 s.tref.toNat ++ bytesOf 8 data0.toNat ++ bytesOf 8 data1.toNat)
    s.setRegion r { x with trPos := x.trPos + 1 }

end Sys2Proof.Machine
end

