-- ==== Sys2Proof/Machine/Operands.lean ====
section
/-! DEFINITION. The operands of words: which registers and predicates a word names (03 R42, 04 R79, R80), the special registers (23
Table 7), reading and writing registers, the operand cache (03 R44 to R53), and what a word may be in an engine class. -/

namespace Sys2Proof

open Sys2Proof.Machine

/-! The registers a word names -/

/-- A register field: the lowest register, how many registers, its hint. -/
structure RegUse where
  r : Nat
  n : Nat
  h : Hint
  deriving DecidableEq, Repr

/-- The register and predicate fields of a word: the registers that it reads, those that it writes, and the groups that it names beyond
them. A variable-latency word (`late`) places its destination when its result arrives. A word that reads its sources in one lane (`one`)
reads the lowest executing one (20 R289, R302). -/
structure Use where
  src : List RegUse
  dst : List RegUse
  psrc : List (Nat × Nat)
  pdst : List (Nat × Nat)
  late : Bool
  one : Bool
  named : List RegUse
  deriving DecidableEq, Repr

def Use.none : Use := ⟨[], [], [], [], false, false, []⟩
def Guard.uses (g : Guard) : List (Nat × Nat) := [(g.p.toNat, 1)]
def Use.of (g : Guard) (src dst : List RegUse) : Use := ⟨src, dst, Guard.uses g, [], false, false, []⟩
def reg (x : BitVec 8) (h : Hint) : RegUse := ⟨x.toNat, 1, h⟩
def regs (x : BitVec 8) (n : Nat) : RegUse := ⟨x.toNat, n, Hint.none⟩
def regN (x : BitVec 8) (n : Nat) (h : Hint) : RegUse := ⟨x.toNat, n, h⟩
def A2.use (o : A2) : Use := .of o.g [reg o.a o.ha] [reg o.d o.hd]
def A3.use (o : A3) : Use := .of o.g [reg o.a o.ha, reg o.b o.hb] [reg o.d o.hd]
def A4.use (o : A4) : Use := .of o.g [reg o.a o.ha, reg o.b o.hb, reg o.c o.hc] [reg o.d o.hd]

/-- Registers of a floating-point operand: a pair for f64 (05 R94). -/
def FType.regs (t : FType) : Nat := if t = .f64 then 2 else 1
def A3.fuse (o : A3) (t : FType) : Use := .of o.g [regN o.a t.regs o.ha, regN o.b t.regs o.hb] [regN o.d t.regs o.hd]

/-- 64-bit operands take two lane registers and one s register (04 R79). -/
def wide (c : Cls) : Nat := if c = .front then 1 else 2

/-- Registers of a data operand of a size (04 Table 5). -/
def Size.regs (c : Cls) : Size → Nat
  | .b64 => wide c
  | .b128 => 4
  | _ => 1
def Size.bytes : Size → Nat
  | .u8 | .s8 => 1
  | .u16 | .s16 => 2
  | .b32 => 4
  | .b64 => 8
  | .b128 => 16

def Fmt.regs (f : Fmt) : Nat := if f = .f64 || f = .i64 then 2 else 1

/-- Scopes and privileges of special registers (23 Table 7). -/
inductive RegScope | lane | warp | block | core | cluster | die | region | package
  deriving DecidableEq, Repr
inductive Priv | any | handler | region0 | never
  deriving DecidableEq, Repr

/-- A row of 23 Table 7: scope, whether it has 64 bits, the number of indexes (0: not indexed), who reads and who writes. -/
structure SReg where
  scope : RegScope
  w64 : Bool
  count : Nat
  rd : Priv
  wr : Priv
  deriving DecidableEq, Repr

/-- 23 Table 7. A read-only register has no writer; a counter that any write clears has one. -/
def sreg (id : Nat) : Option SReg :=
  if id = 0x0000 then some ⟨.package, false, 0, .any, .never⟩
  else if id = 0x0001 then some ⟨.core, false, 0, .any, .never⟩
  else if id = 0x0002 then some ⟨.lane, false, 0, .any, .never⟩
  else if id = 0x0003 then some ⟨.warp, false, 0, .any, .never⟩
  else if 0x0004 ≤ id ∧ id ≤ 0x0006 then some ⟨.block, false, 0, .any, .never⟩
  else if id = 0x0007 then some ⟨.warp, false, 0, .any, .never⟩
  else if id = 0x0008 then some ⟨.lane, false, 0, .any, .any⟩
  else if id = 0x0009 then some ⟨.block, false, 0, .any, .any⟩
  else if id = 0x000A then some ⟨.warp, false, 0, .any, .any⟩
  else if id = 0x0010 then some ⟨.core, false, 0, .any, .never⟩
  else if id = 0x0011 then some ⟨.cluster, false, 0, .any, .region0⟩
  else if 0x0012 ≤ id ∧ id ≤ 0x0015 then some ⟨.core, true, 0, .any, .handler⟩
  else if 0x0020 ≤ id ∧ id ≤ 0x0025 then some ⟨.region, true, 0, .handler, .handler⟩
  else if 0x0028 ≤ id ∧ id ≤ 0x002F then some ⟨.warp, true, 0, .handler, .never⟩
  else if id = 0x0030 ∨ id = 0x0032 ∨ id = 0x0033 ∨ id = 0x0035 ∨ id = 0x0036 ∨ id = 0x0061 then
    some ⟨.package, true, 0, .handler, .region0⟩
  else if id = 0x0031 ∨ id = 0x0034 ∨ id = 0x0038 ∨ id = 0x003A ∨ id = 0x0062 then some ⟨.package, false, 0, .never, .region0⟩
  else if id = 0x0037 then some ⟨.package, false, 0, .handler, .region0⟩
  else if id = 0x0039 then some ⟨.package, false, 2048, .handler, .region0⟩
  else if id = 0x0040 then some ⟨.package, true, 0, .handler, .region0⟩
  else if 0x0041 ≤ id ∧ id ≤ 0x0044 then some ⟨.package, false, 0, .handler, .region0⟩
  else if id = 0x0048 ∨ id = 0x0049 then some ⟨.die, false, 0, .handler, .region0⟩
  else if id = 0x0055 then some ⟨.cluster, false, 0, .handler, .region0⟩
  else if 0x0050 ≤ id ∧ id ≤ 0x0058 then some ⟨.die, false, 0, .handler, .region0⟩
  else if id = 0x0060 then some ⟨.package, false, 24, .handler, .region0⟩
  else if id = 0x0063 then some ⟨.package, false, 256, .handler, .region0⟩
  else if id = 0x0068 then some ⟨.region, true, 4096, .handler, .region0⟩
  else if id = 0x0069 ∨ id = 0x006A then some ⟨.region, false, 4096, .handler, .region0⟩
  else none

/-- The registers that a 64-bit special register takes. -/
def sregRegs (c : Cls) (id : BitVec 16) : Nat := match sreg id.toNat with | some x => if x.w64 then wide c else 1 | none => 1

def MemF.loadUse (c : Cls) (o : MemF) (addrRegs : Nat) : Use :=
  ⟨[regs o.a addrRegs], [regs o.t (o.size.regs c)], Guard.uses o.g, [], true, false, []⟩
/-- A store reads its address and then its data: DESIGN CHOICE (entry 9), since 03 R50 names the fields a, b and c alone. -/
def MemF.storeUse (c : Cls) (o : MemF) (addrRegs : Nat) : Use :=
  ⟨[regs o.a addrRegs, regs o.t (o.size.regs c)], [], Guard.uses o.g, [], false, false, []⟩
/-- A word of Format T. DEDUCED (entry 10): 03 R46 speaks of hints on its register fields, and 04 R74 gives every bit of the word to another
field: its registers act as hint 00. -/
def AtomF.use (c : Cls) (o : AtomF) (addrRegs : Nat) : Use :=
  let n := o.size.regs c
  ⟨[regs o.a addrRegs, regs o.b n] ++ (if o.op = .cas then [regs o.c n] else []), [regs o.d n], Guard.uses o.g, [], true, false, []⟩

/-- A word that reads its sources in one lane. -/
def Use.once (u : Use) : Use := { u with one := true }

/-- A Format E word (04 R76, 20 R289): it names a quad at a, reads the first n registers of it, and reads and writes others. -/
def Use.quad (a : BitVec 8) (n : Nat) (src dst : List RegUse) : Use :=
  { (Use.of ⟨0, false⟩ (regs a n :: src) dst).once with named := [regs a 4] }

/-- The register and predicate fields of each word. SCAC reads d before a, b and c, under d's own hint, and DISC and CLAIM read t before a:
DESIGN CHOICE (entry 9), since 03 R50 gives these fields no place. -/
def Instr.use (c : Cls) : Instr → Use
  | .nop g | .bra g _ | .yield g | .exit g | .trap g _ | .bkpt g _ | .fence _ _ _ g | .fencep _ _ g | .ocwb g
  | .tlbinvAsid g _ _ | .tlbinvAll g _ => .of g [] []
  | .brx a g | .ret a g => .of g [reg a .none] []
  | .call l g _ => .of g [] [reg l .none]
  | .callx l a g => .of g [reg a .none] [reg l .none]
  | .iadd o | .isub o | .imul o | .imulh _ o | .idiv _ o | .irem _ o | .imin _ o | .imax _ o | .lea o _ | .and o | .or o | .xor o
  | .andn o | .shl o | .shr o | .sar o | .rot o | .bfx _ o => o.use
  | .imad o | .lop3 o _ | .bfi o => o.use
  | .iabs o | .mov o | .clz o | .popc o | .brev o | .frcp _ o | .frsq _ o | .fexp2 _ o | .flog2 _ o | .fsin _ o | .fcos _ o
  | .ftanh _ o | .redux _ o | .scan _ o => o.use
  | .iset _ o => ⟨[reg o.a o.ha, reg o.b o.hb], [], Guard.uses o.g, [(o.d.toNat, 1)], false, false, []⟩
  | .sel o p => { o.use with psrc := Guard.uses o.g ++ [(p.toNat, 1)] }
  | .movi d g _ => .of g [] [reg d .none]
  | .x2p d a g ha => ⟨[reg a ha], [], Guard.uses g, [(d.toNat, if c = .front then 16 else 32)], false, false, []⟩
  | .p2x d a g hd => ⟨[], [reg d hd], Guard.uses g ++ [(a.toNat, if c = .front then 16 else 32)], [], false, false, []⟩
  | .plop d a b p g _ => ⟨[], [], Guard.uses g ++ [(a.toNat, 1), (b.toNat, 1), (p.toNat, 1)], [(d.toNat, 1)], false, false, []⟩
  | .fadd m o | .fsub m o | .fmul m o | .fdiv m o => o.fuse m.t
  | .fmin t o | .fmax t o => o.fuse t
  | .ffma m o =>
      .of o.g [regN o.a m.t.regs o.ha, regN o.b m.t.regs o.hb, regN o.c m.t.regs o.hc] [regN o.d m.t.regs o.hd]
  | .fset t _ _ o =>
      ⟨[regN o.a t.regs o.ha, regN o.b t.regs o.hb], [], Guard.uses o.g,
        [(o.d.toNat, if t = .f32 || t = .f64 then 1 else 2)], false, false, []⟩
  | .fclass t o => .of o.g [regN o.a t.regs o.ha] [reg o.d o.hd]
  | .fscale m o => .of o.g [regN o.a m.t.regs o.ha, reg o.b o.hb] [regN o.d m.t.regs o.hd]
  | .frnd m o | .fsqrt m o => .of o.g [regN o.a m.t.regs o.ha] [regN o.d m.t.regs o.hd]
  | .cvt src dst _ _ o => .of o.g [regN o.a src.regs o.ha] [regN o.d dst.regs o.hd]
  | .pk8 _ _ _ o => .of o.g [regN o.a 4 o.ha, reg o.b o.hb] [reg o.d o.hd]
  | .upk8 _ o => .of o.g [reg o.a o.ha, reg o.b o.hb] [regN o.d 4 o.hd]
  | .pk4 o => .of o.g [regN o.a 8 o.ha, reg o.b o.hb] [reg o.d o.hd]
  | .upk4 o => .of o.g [reg o.a o.ha, reg o.b o.hb] [regN o.d 8 o.hd]
  | .qscl m o => .of o.g ([reg o.a o.ha] ++ (if m = .sc8 then [reg o.b o.hb] else [])) [reg o.d o.hd]
  | .scac o => .of o.g [reg o.d o.hd, reg o.a o.ha, reg o.b o.hb, reg o.c o.hc] [reg o.d o.hd]
  | .shfl _ b64 _ o =>
      let n := if b64 then 2 else 1
      .of o.g [regN o.a n o.ha, reg o.b o.hb] [regN o.d n o.hd]
  | .vote m d a g hd =>
      if m = .mask || m = .count then ⟨[], [reg d hd], Guard.uses g ++ [(a.toNat, 1)], [], false, false, []⟩
      else ⟨[], [], Guard.uses g ++ [(a.toNat, 1)], [(d.toNat, 1)], false, false, []⟩
  | .matchLanes b64 o => .of o.g [regN o.a (if b64 then 2 else 1) o.ha] [reg o.d o.hd]
  | .ld o => o.loadUse c (wide c)
  | .lds o | .ldc o => o.loadUse c 1
  | .st o => o.storeUse c (wide c)
  | .sts o => o.storeUse c 1
  | .stmc o => o.storeUse c 2
  | .atom o => o.use c (wide c)
  | .atoms o => o.use c 1
  | .red o => ⟨[regs o.a 2, regs o.b (o.size.regs c)], [], Guard.uses o.g, [], false, false, []⟩
  | .pref a g _ _ => .of g [regs a 2] []
  | .disc t a g => .of g [regs t 1, regs a 2] []
  | .claim t a g _ => (Use.of g [regs t 1, regs a 2] []).once
  | .migr a => (Use.of ⟨0, false⟩ [regs a 2] []).once
  | .barw _ b | .bara _ b => (Use.of ⟨0, false⟩ [regs b 1] []).once
  | .bcbinit a => .quad a 2 [] []
  | .bcbarv a => .quad a 1 [] []
  | .ringinit _ a => .quad a 3 [] []
  | .bcbexp a b | .bcbwait a b => .quad a 1 [regs b 1] []
  | .bcbtry a b => .quad a 1 [regs b 1] [regs b 1]
  | .ringacqFill _ b | .ringacqFree _ b => .of ⟨0, false⟩ [] [regs b 1]
  | .dqpop d hd g => .of g [] [regN d 2 hd]
  | .cpy o | .gth o | .sct o => .quad o.a 4 [] []
  | .rsend a _ _ _ | .rget a _ _ | .ratom a _ _ _ | .ldimg a _ => .quad a 4 [] []
  | .enq a _ => .quad a 1 [] []
  | .sgrow d _ | .sgrowSwz d _ => .of ⟨0, false⟩ [] [regs d 1]
  | .dqpush a g => .of g [regs a 1] []
  | .sread d g id _ => .of g [] [regs d (sregRegs c id)]
  | .swrite a g id _ =>
      let u := Use.of g [regs a (sregRegs c id)] []
      match sreg id.toNat with | some r => if r.scope == .lane then u else u.once | none => u
  | .timeRef d g | .timeCyc d g => .of g [] [regs d (wide c)]
  | .tlbinv a g _ _ => .of g [regs a 2] []
  | .probe d a g | .probeAs d a g _ => .of g [regs a 2] [regs d 4]
  | .wsave a g _ | .wsaveFrame a g _ | .wload a g _ | .wloadFrame a g _ => (Use.of g [regs a 2] []).once
  | _ => .none

/-- The words whose operands' group alignment depends on the engine class, and the other conditions of 04 R79, R80 and 23 R385 that do.
A word that fails traps (ILLEGAL) at step 3. -/
def Instr.laneOk : Instr → Bool
  | .lea _ sh => sh.toNat ≤ 31
  | .ld o | .st o => groupOk 2 o.a && groupOk (o.size.regs .lane) o.t
  | .lds o | .ldc o | .sts o | .stmc o => groupOk (o.size.regs .lane) o.t
  | .atom o =>
      let n := o.size.regs .lane
      groupOk 2 o.a && groupOk n o.d && groupOk n o.b && groupOk n o.c
  | .atoms o | .red o =>
      let n := o.size.regs .lane
      groupOk n o.d && groupOk n o.b && groupOk n o.c
  | .timeRef d _ | .timeCyc d _ => groupOk 2 d
  | .sread d _ id _ => groupOk (sregRegs .lane id) d && id != 0x0009
  | .swrite a _ id _ => groupOk (sregRegs .lane id) a && id != 0x0009
  | _ => true

def Instr.frontOk : Instr → Bool
  | .ld o | .st o => o.size != .b128
  | .x2p d _ _ _ => d == 0
  | .p2x _ a _ _ => a == 0
  | .sread _ _ id _ | .swrite _ _ id _ =>
      match sreg id.toNat with | some r => r.scope != .lane && r.scope != .warp | none => true
  | _ => true

/-- Fields of special-register words that are wrong in every class (23 R385): a reserved id, an index out of range, a read of a
write-only register. -/
def sregFieldsOk (read : Bool) (id idx : BitVec 16) : Bool :=
  match sreg id.toNat with
  | none => false
  | some r => (if r.count = 0 then idx == 0 else decide (idx.toNat < r.count)) && !(read && r.rd == .never)

def Instr.sregOk : Instr → Bool
  | .sread _ _ id idx => sregFieldsOk true id idx
  | .swrite _ _ id idx => sregFieldsOk false id idx
  | _ => true

/-- Step 3 of 04 Table 14 for a word that decoded: what its engine class asks of its fields (04 R79, R80, 05 R92). -/
def Instr.legalIn (c : Cls) (i : Instr) : Bool :=
  i.sregOk &&
  match c with
  | .lane => i.laneOk
  | .front =>
      let u := i.use .front
      i.frontOk && (u.src ++ u.dst ++ u.named).all (fun r => decide (r.r < 64) && r.h == .none) &&
      (u.psrc ++ u.pdst).all fun p => decide (p.1 < 16)
  | .matrix => true

/-- A word names a register at or beyond F (03 R42): x0 is never checked. -/
def Use.beyond (u : Use) (frame : Nat) : Bool :=
  (u.src ++ u.dst ++ u.named).any fun r => (span r.r r.n).any fun k => k != 0 && decide (frame ≤ k)

end Sys2Proof

namespace Sys2Proof.Machine

/-! Reading and writing registers -/

/-- The value of a key among the results in flight: each in turn may have arrived or not (03 R53). -/
def pending (s : State) (key : Nat) : List Result → Nat → DWord → DWord
  | [], _, v => v
  | r :: rs, n, v =>
    match r.vals.find? (fun e => e.1 == key) with
    | some e => pending s key rs (n + 1) (if s.coin 7 (key + 8192 * n) then e.2 else v)
    | none => pending s key rs (n + 1) v

/-- Register xr of a lane: x0 reads zero (03 R42); a destination whose result is in flight reads old or new (03 R53). -/
def Warp.x (s : State) (w : Warp) (r l : Nat) : Word :=
  if r = 0 then 0 else (pending s (32 * r + l) w.flight.results 0 ((Tbl.get 0 w.regs (32 * r + l)).setWidth 64)).setWidth 32

/-- The 64-bit value of a pair of a lane. -/
def Warp.x64 (s : State) (w : Warp) (r l : Nat) : DWord := w.x s (r + 1) l ++ w.x s r l

/-- A write that comes before a result in flight to the same name leaves either value (03 R53). -/
def dropPending (s : State) (key : Nat) (rs : List Result) : List Result :=
  rs.map fun r => if s.coin 8 key then { r with vals := r.vals.filter fun e => e.1 != key } else r

/-- Write xr of a lane: x0 ignores writes (03 R42). -/
def Warp.setX (s : State) (w : Warp) (r l : Nat) (v : Word) : Warp :=
  if r = 0 then w
  else { w with
    regs := Tbl.set 0 w.regs (32 * r + l) v
    bad := Tbl.set false w.bad (32 * r + l) false
    ocBad := Tbl.set false w.ocBad (32 * r + l) false
    flight := { w.flight with results := dropPending s (32 * r + l) w.flight.results } }

/-- Write xr of each lane of a mask. -/
def Warp.setLanes (s : State) (w : Warp) (m : BitVec 32) (r : Nat) (v : Nat → Word) : Warp :=
  (onesOf m).foldl (fun w l => w.setX s r l (v l)) w

/-- Predicate pn of a lane: p0 reads true (04 R70), and ignores writes. -/
def Warp.p (w : Warp) (n l : Nat) : Bool := n == 0 || Tbl.get false w.preds (32 * n + l)
def Warp.setP (w : Warp) (n l : Nat) (b : Bool) : Warp :=
  if n = 0 then w else { w with preds := Tbl.set false w.preds (32 * n + l) b }
def Warp.setPreds (w : Warp) (m : BitVec 32) (n : Nat) (b : Nat → Bool) : Warp := (onesOf m).foldl (fun w l => w.setP n l (b l)) w

/-- sr of a front end, and qn: q0 reads true and ignores writes. s0 is an ordinary register. -/
def Front.x (s : State) (f : Front) (r : Nat) : DWord := pending s r f.flight.results 0 (Tbl.get 0 f.s r)
def Front.setX (s : State) (f : Front) (r : Nat) (v : DWord) : Front :=
  { f with s := Tbl.set 0 f.s r v, flight := { f.flight with results := dropPending s r f.flight.results } }
def Front.p (f : Front) (n : Nat) : Bool := n == 0 || Tbl.get false f.q n
def Front.setP (f : Front) (n : Nat) (b : Bool) : Front := if n = 0 then f else { f with q := Tbl.set false f.q n b }

/-! The operand cache (03 R44 to R51) -/

/-- The 32 lane words of a register in a table. -/
def lanesOf (t : Tbl Word) (r : Nat) : List Word := (List.range 32).map fun l => Tbl.get 0 t (32 * r + l)

def oldest (l : List OcEntry) : Option OcEntry :=
  l.foldl (fun b e => match b with | some x => if e.stamp < x.stamp then some e else some x | none => some e) none

/-- Make room for an entry (03 R50): the least recently used unpinned clean entry goes, or else the dirty one, which is written back. The
entries that the word holds for itself stay. -/
def ocRoom (held : List Nat) (oc : List OcEntry) : List OcEntry :=
  let open_ := oc.filter fun e => !e.pin && !held.contains e.name
  if oc.length < 8 then oc
  else match oldest (open_.filter fun e => !e.dirty) with
    | some v => oc.filter fun e => e.name != v.name
    | none =>
      match oldest open_ with
      | some v => oc.filter fun e => e.name != v.name
      | none => oc.drop 1

/-- A word holds at most 4 entries at any moment: with a fifth, the one it read first is released (03 R50). DESIGN CHOICE (entry 9): so it
is where the fifth is a hit, of which the rule says nothing. -/
def holdName (held : List Nat) (n : Nat) : List Nat :=
  if held.contains n then held else (if held.length < 4 then held else held.drop 1) ++ [n]

def nextStamp (oc : List OcEntry) : Nat := oc.foldl (fun n e => max n (e.stamp + 1)) 0

/-- A `:k` pins at most 4 entries of a warp (03 R48). -/
def canPin (oc : List OcEntry) (h : Hint) : Bool := h == .keep && decide ((oc.filter (·.pin)).length < 4)

/-- The cache and the entries that the word at issue holds in it, the first read first. -/
structure OcUse where
  oc : List OcEntry
  held : List Nat

/-- A read of a name: a hit renews its recency, a miss fills an entry; a bypass read does neither (03 R45, R46, R50). -/
def ocRead (x : OcUse) (name : Nat) (h : Hint) : OcUse :=
  if name = 0 || h = .byp then x
  else
    let pin := canPin x.oc h
    let t := nextStamp x.oc
    let held := holdName x.held name
    if x.oc.any (·.name == name) then
      ⟨x.oc.map fun e => if e.name == name then { e with stamp := t, pin := e.pin || pin } else e, held⟩
    else ⟨⟨name, false, pin, t, []⟩ :: ocRoom held x.oc, held⟩

/-- A write of a name whose frame words before were `before` (03 R45, R46): a name that is not resident takes an entry, and the entry
becomes dirty; a spill (`:s`) or a bypass writes through to the frame, and a spill frees the entry. DESIGN CHOICE (entry 9): a bypass write
to a dirty entry makes the whole entry clean, so that the values of its other lanes have been written through as well. -/
def ocWrite (x : OcUse) (before : List Word) (name : Nat) (h : Hint) : OcUse :=
  if name = 0 then x
  else
    let pin := canPin x.oc h
    let t := nextStamp x.oc
    let held := holdName x.held name
    match h, x.oc.find? (·.name == name) with
    | .last, some _ => ⟨x.oc.filter fun e => e.name != name, x.held⟩
    | .last, none => ⟨ocRoom held x.oc, x.held⟩
    | .byp, some _ => ⟨x.oc.map fun e => if e.name == name then { e with dirty := false, back := [] } else e, x.held⟩
    | .byp, none => x
    | _, some _ => ⟨x.oc.map fun e =>
        if e.name == name then
          { e with dirty := true, stamp := t, pin := e.pin || pin, back := if e.dirty then e.back else before } else e, held⟩
    | _, none => ⟨⟨name, true, pin, t, before⟩ :: ocRoom held x.oc, held⟩

/-- Whether the unit that a read of a register finds is poisoned: of the resident entry, else of the frame (12 R241). -/
def Warp.badAt (w : Warp) (r l : Nat) : Bool :=
  Tbl.get false (if w.oc.any (·.name == r) then w.ocBad else w.bad) (32 * r + l)

/-- Poison after the cache of `w0` has become that of `w`: a dirty entry that was written back has written every word of its register, and
its own poison with it; entries that are gone take theirs along (03 R51, 12 R241). Entries freed at last use are not written back. -/
def Warp.keepBad (w0 w : Warp) (freed : List Nat) : Warp :=
  if w.bad.isEmpty && w.ocBad.isEmpty then w
  else
    let back := (w0.oc.filter fun e => e.dirty && !freed.contains e.name && !w.oc.any fun x => x.name == e.name && x.dirty).map (·.name)
    { w with
      bad := back.foldl (fun t n => (span (32 * n) 32).foldl (fun t k => Tbl.set false t k (Tbl.get false w.ocBad k)) t) w.bad
      ocBad := Tbl.drop w.ocBad fun k => !w.oc.any (·.name == k / 32) }

/-- A last use frees the entry with no write-back: each lane's frame word is then the value last written or the one that the frame held
before that write (03 R47). -/
def Warp.lastUse (s : State) (w : Warp) (name : Nat) : Warp :=
  { w with
    oc := w.oc.filter fun x => x.name != name
    regs := (List.range 32).foldl (fun t l =>
      if s.coin 9 (32 * name + l) then Tbl.set 0 t (32 * name + l) (Tbl.get 0 w.prev (32 * name + l)) else t) w.regs }

/-- The names of register fields with their hints, in field order. -/
def names (l : List RegUse) : List (Nat × Hint) := l.flatMap fun r => (span r.r r.n).map fun k => (k, r.h)

/-- The sources of a word pass through the cache in field order (03 R50). -/
def Warp.readNames (w : Warp) (u : Use) : OcUse := (names u.src).foldl (fun x e => ocRead x e.1 e.2) ⟨w.oc, []⟩

/-- The names that a word frees at last use (03 R47): `:l` sources that are no destination of the word, and that no `:k` of the word has
pinned; a `:k` that would pin a fifth entry acts as no hint (03 R48). -/
def Warp.freedBy (w : Warp) (u : Use) : List Nat :=
  let x := w.readNames u
  let pinned (n : Nat) : Bool := (names u.src).any (fun e => e.1 == n && e.2 == .keep) && x.oc.any fun e => e.name == n && e.pin
  ((names u.src).filter fun e => e.1 != 0 && e.2 == .last && !pinned e.1 && !(names u.dst).any fun d => d.1 == e.1).map (·.1)

/-- What the frame holds of a register in a lane while the cache is `oc` and the register's words are `regs`: a dirty entry's words from
before its writes. -/
def frameWord (oc : List OcEntry) (regs : Tbl Word) (name l : Nat) : Word :=
  match oc.find? (·.name == name) with
  | some e => if e.dirty then (e.back[l]?).getD 0 else Tbl.get 0 regs (32 * name + l)
  | none => Tbl.get 0 regs (32 * name + l)

/-- What the frame held before the write of a name in each lane of a mask (03 R47): as the cache stands at the write, when an entry that the
word's own accesses have evicted is written back, over the words of `w0`. -/
def Warp.notePrev (w w0 : Warp) (m : BitVec 32) (name : Nat) : Warp :=
  if name = 0 then w
  else { w with prev := (onesOf m).foldl (fun t l => Tbl.set 0 t (32 * name + l) (frameWord w.oc w0.regs name l)) w.prev }

/-- A write that takes an entry without a fill, since every lane that has not exited executes it, leaves the values of exited lanes
unspecified (03 R45): they are free values. -/
def Warp.unfilled (s : State) (w : Warp) (m : BitVec 32) (name : Nat) (h : Hint) : Warp :=
  if name = 0 || h = .byp || w.alive &&& ~~~m != 0 || w.oc.any (·.name == name) then w
  else { w with regs := (onesOf (~~~w.alive)).foldl (fun t l => Tbl.set 0 t (32 * name + l) ((s.freeAt 1 (32 * name + l)).setWidth 32)) w.regs }

/-- A destination of a word that lanes m execute passes through the cache (03 R45 to R47). -/
def Warp.writeName (s : State) (w0 : Warp) (m : BitVec 32) (p : Warp × List Nat) (e : Nat × Hint) : Warp × List Nat :=
  let w := (p.1.notePrev w0 m e.1).unfilled s m e.1 e.2
  let x := ocWrite ⟨w.oc, p.2⟩ (lanesOf w0.regs e.1) e.1 e.2
  ({ w with oc := x.oc }, x.held)

/-- The operand cache after a word that lanes m execute: sources in field order, last uses, then destinations (03 R47, R50). `w0` is the
warp before the word. DESIGN CHOICE (entry 9): a name that one word marks `:k` as a source and `:s` as its destination is freed: the
destination hint governs the entry. -/
def Warp.cacheWord (s : State) (u : Use) (m : BitVec 32) (w w0 : Warp) : Warp :=
  let x := w.readNames u
  let freed := w.freedBy u
  let w := freed.foldl (fun w n => w.lastUse s n) { w with oc := x.oc }
  w0.keepBad (if u.late then w else ((names u.dst).foldl (Warp.writeName s w0 m) (w, x.held)).1) freed

/-- Clause fills (03 R49): x0, names at or beyond F and resident names are skipped. DEDUCED (entry 9): a clause's fills are held like a
word's reads, so that none takes the entry of another. -/
def Warp.fill (w : Warp) (l : List Nat) : Warp :=
  w.keepBad { w with oc := ((l.filter fun n => n != 0 && decide (n < w.frame)).foldl (fun (x : OcUse) n =>
      if x.oc.any (·.name == n) then x else ocRead x n .none) ⟨w.oc, []⟩).oc } []

/-- OCWB and a context switch write every dirty entry back; it stays, clean (03 R51). -/
def Warp.writeBack (w : Warp) : Warp := w.keepBad { w with oc := w.oc.map fun e => { e with dirty := false, back := [] } } []

/-- The lanes of poisoned words among the registers a word reads (12 R241): of the executing lanes, and of every lane where a source or a
destination that not every lane writes fills an entry. -/
def Warp.poisoned (w : Warp) (u : Use) (m : BitVec 32) : Option (BitVec 32) :=
  let fills (e : Nat × Hint) : Bool := e.2 != .byp && !w.oc.any (·.name == e.1)
  let read : BitVec 32 := if u.one then (onesOf m).head?.elim 0 (1#32 <<< ·) else m
  let dst := if u.late || w.alive &&& ~~~m == 0 then [] else (names u.dst).filter fills
  let bad := maskOf 32 fun l =>
    ((names u.src).any fun e => e.1 != 0 && w.badAt e.1 l && (read.getLsbD l || fills e)) ||
    dst.any fun e => e.1 != 0 && w.badAt e.1 l
  if bad = 0 then none else some bad

/-- The lanes of poisoned words that a clause's fills read (12 R241). -/
def Warp.poisonedFill (w : Warp) (l : List Nat) : BitVec 32 :=
  maskOf 32 fun k => l.any fun n => n != 0 && decide (n < w.frame) && !w.oc.any (·.name == n) && Tbl.get false w.bad (32 * n + k)

end Sys2Proof.Machine
end

