-- ==== Sys2Proof/Machine/Access.lean ====
section
/-! DEFINITION. The load-store path: scratch, path hand-offs (08 R140, R148), the checks of an access (22 R341), range locks (08 R149), store
queues (09 R164), loads, stores, atomics and range operations on captured operands, and the operand log (08 R154). -/

namespace Sys2Proof.Machine

/-- The engine class of a party's clauses (04 R64). -/
def partyCls : Party → Cls
  | .front _ => .front
  | .matrix _ => .matrix
  | _ => .lane

/-- A warp is away from its origin slot (08 R157). -/
def State.migrated (s : State) (w : Who) : Bool := ((s.warp w).map (·.origin.isSome)).getD false

/-! Scratch -/

/-- The key of a scratch byte among free choices. -/
def scrKey (core b : Nat) : Nat := 2 ^ 64 + (core * 16 + b) * 2 ^ 24

/-- A scratch byte as a party reads it by a path. -/
def State.scrByte (s : State) (core b : Nat) (x : Scratch) (who : Who) (p : Path) (a : Nat) : Byte :=
  viaPath s x.path (s.pid who) p (scrKey core b + a) a (Tbl.get 0 x.bytes a)

def State.scratch (s : State) (core b : Nat) : Scratch := ((s.block core b).map (·.scratch)).getD ⟨[], 0, [], [], []⟩
def State.scrBytes (s : State) (core b : Nat) (who : Who) (p : Path) (a n : Nat) : List Byte :=
  (span a n).map (s.scrByte core b (s.scratch core b) who p)

/-- A party has read scratch bytes by a path in state s0. -/
def State.scrSee (s0 : State) (core b : Nat) (who : Who) (p : Path) (a n : Nat) (s : State) : State :=
  s.updBlock core b fun x =>
    { x with scratch := { x.scratch with
        path := seeBytes s0 (s0.scratch core b).path (s0.pid who) p false (scrKey core b) (fun _ => true) a n x.scratch.path } }

/-- The lowest poisoned address among n bytes at an offset: a unit is a 4-byte word (12 R241). -/
def Scratch.badAt (x : Scratch) (a n : Nat) : Option Nat :=
  if n = 0 then none else ((span (a / 4) ((a + n - 1) / 4 - a / 4 + 1)).find? fun k => Tbl.get false x.bad k).map fun k => max a (4 * k)

/-- A write of scratch by a path. Bytes beyond the size are not part of scratch; a word written whole loses its poison (12 R241). -/
def Scratch.store (x : Scratch) (who : Pid) (p : Path) (a : Nat) (bs : List Byte) : Scratch :=
  let bs := bs.take (x.size - a)
  let first := (a + 3) / 4
  { x with
    path := (List.zip (span a bs.length) bs).foldl (fun t (b, v) => notePath t who p b (Tbl.get 0 x.bytes b) v) x.path
    bytes := Tbl.setList 0 x.bytes a bs
    bad := (span first ((a + bs.length) / 4 - first)).foldl (fun t k => Tbl.set false t k false) x.bad }

def State.scrStore (s : State) (core b : Nat) (who : Who) (p : Path) (a : Nat) (bs : List Byte) : State :=
  s.updBlock core b fun x => { x with scratch := x.scratch.store (s.pid who) p a bs }

/-! Hand-offs between paths -/

/-- A party performed a write of the entry, or observed it (08 R141, 09 R163). -/
def PathWrite.known (e : PathWrite) (who : Pid) : Bool := e.who == who || e.obs.contains who

/-- Change every entry of a path table. An entry that every path has seen is no more. -/
def mapPath (t : Tbl (List PathWrite)) (f : Nat → PathWrite → PathWrite) : Tbl (List PathWrite) :=
  (t.map fun e => (e.1, pruneWrites [] (e.2.map (f e.1)))).filter fun e => !e.2.isEmpty

/-- FENCEP: path r reads what the party wrote, or observed, by path w (08 R141). A byte of a slot that the matrix engine holds (`held`)
must not be written: whatever the fence, the engine may read around such a write (07 R126). -/
def fencePaths (t : Tbl (List PathWrite)) (held : Nat → Bool) (who : Pid) (w r : Path) : Tbl (List PathWrite) :=
  mapPath t fun a e => if e.path == w && e.known who && !(r == .tile && held a) then e.see r else e

/-- A release covers what its party performed and observed (09 R163). -/
def releasePaths (t : Tbl (List PathWrite)) (r : Release) : Tbl (List PathWrite) :=
  mapPath t fun _ e => if e.known r.who && !e.rel.contains r then { e with rel := r :: e.rel } else e

/-- A scope contains two parties: those of one block, core, die or package (09 Table 1). -/
def inScope (sc : Scope) (a b : Release) : Bool :=
  match sc with
  | .blk => a.who.run == b.who.run && a.who.life == b.who.life
  | .core => a.core == b.core
  | .die => dieOf a.core == dieOf b.core
  | .pkg | .sys => true

/-- Whether an acquire may read what a release left: a fence stands for any later access, bytes overlap, or the object is one. -/
def Place.meets (a b : Place) : Bool :=
  match a, b with
  | .any, _ | _, .any => true
  | .bytes x lo hi, .bytes y lo' hi' => x == y && decide (lo < hi') && decide (lo' < hi)
  | _, _ => a == b

/-- A release and an acquire synchronise when the scope of each contains both parties (09 R160), and they meet at a place (entry 13). -/
def Release.meets (r : Release) (a : Release) : Bool := inScope r.scope r a && inScope a.scope r a && r.at_.meets a.at_

/-- An acquire observes what a release that it meets covers (09 R163). PRESUMED (entry 13): whether or not it read that release's value. -/
def acquirePaths (t : Tbl (List PathWrite)) (a : Release) : Tbl (List PathWrite) :=
  mapPath t fun _ e => if e.rel.any (·.meets a) && !e.known a.who then { e with obs := a.who :: e.obs } else e

/-- An acquire in a block, over its scratch (08 R148): bytes that a copy-engine command wrote are visible to every path; bytes that
MDRAIN wrote, to lane loads. Around a write to a slot that it holds the matrix engine may still read (07 R126). -/
def acquireScratch (t : Tbl (List PathWrite)) (held : Nat → Bool) (a : Release) : Tbl (List PathWrite) :=
  mapPath (acquirePaths t a) fun k e =>
    if e.path == .ewr && e.rel.any (·.meets a) then
      if e.who.mem = 33 then e.see .ls else if held k then (e.see .ls).see .const else { e with seen := allPaths }
    else e

/-- A scratch byte of a slot that the matrix engine holds. -/
def Block.engineHolds (b : Block) (a : Nat) : Bool :=
  b.rings.any fun e => match e.2 with
    | some r => r.taken.any fun t => t.holder == .matrix && !t.fill && decide (r.off + t.slot * r.size ≤ a) && decide (a < r.off + t.slot * r.size + r.size)
    | none => false

/-- A scope of the die or wider (09 R162), and of the package or wider (09 R171). -/
def scopeWide : Scope → Bool
  | .blk | .core => false
  | _ => true
def scopePkg : Scope → Bool
  | .pkg | .sys => true
  | _ => false

def isAcq : Order → Bool
  | .acq | .acqRel => true
  | _ => false
def isRel : Order → Bool
  | .rel | .acqRel => true
  | _ => false

/-- The acquire of a party (09 R162), at a place. -/
def State.acquire (s : State) (who : Who) (sc : Scope) (at_ : Place := .any) : State :=
  let s := if scopeWide sc then s.dropL1 who.core else s
  let a : Release := ⟨s.pid who, who.core, sc, at_⟩
  let h := s.home who
  let s := { s with mem := { s.mem with path := acquirePaths s.mem.path a } }
  s.updBlock h.1 h.2 fun b => { b with scratch := { b.scratch with path := acquireScratch b.scratch.path b.engineHolds a } }

/-- The release of a party at a scope and a place: what it leaves for later acquires (09 R163). -/
def State.release (s : State) (who : Who) (sc : Scope) (at_ : Place := .any) : State :=
  let r : Release := ⟨s.pid who, who.core, sc, at_⟩
  let h := s.home who
  let s := { s with mem := { s.mem with path := releasePaths s.mem.path r } }
  s.updBlock h.1 h.2 fun b => { b with scratch := { b.scratch with path := releasePaths b.scratch.path r } }

/-- No EF store or invalidation is on the link (09 R163, R171). -/
def State.linkQuiet (s : State) : Bool := !(s.mem.msgs.any fun m => m.kind == .ef || m.kind == .inval)

/-- Add to or take from a scoreboard (03 R52). -/
def Flight.addSb (f : Flight) (sb : Nat) : Flight := { f with sb := Tbl.upd 0 f.sb sb (· + 1) }
def Flight.subSb (f : Flight) (sb : Nat) : Flight := if sb = 0 then f else { f with sb := Tbl.upd 0 f.sb sb (· - 1) }

/-- The global address of byte `lo` of row i, exact: none outside 64 bits (21 R331). -/
def Cmd.rowAddr (x : Cmd) (i lo : Nat) : Option DWord :=
  let k : Nat := match x.kind with | .gth | .sct => (x.idx[i]?).getD 0 | _ => i
  let a : Int := (x.base.toNat : Int) + (k : Int) * x.gstride + (lo : Int)
  if 0 ≤ a && a < 2 ^ 64 then some (BitVec.ofNat 64 a.toNat) else none

/-- The address a request translates: of LDIMG the image header, then DEST. -/
def Cmd.reqAddr (x : Cmd) (r : Req) : Option DWord :=
  match x.kind, x.image with
  | .ldimg, some im => if r.row = 0 then some x.base else some (im.dest + BitVec.ofNat 64 r.lo)
  | _, _ => x.rowAddr r.row r.lo

/-- A request of a command that writes a peer device has not completed: one in flight, or one still to start whose page is a peer's. -/
def State.peerWrite (s : State) (asid : Nat) (x : Cmd) : Bool :=
  (!x.toScratch || x.kind == .ratom) && (x.flight.any (·.peer.isSome) || x.reqs.any fun r =>
    match (x.reqAddr r).map (s.walk asid) with | some (.leaf l) => l.q | _ => false)

/-- The slot under which a party issued its engine commands: a migrated warp's own (08 R157). -/
def State.issuer (s : State) (w : Who) : Who :=
  match (s.warp w).bind (·.origin) with | some o => ⟨o.1, .warp o.2⟩ | none => w

/-- Every write to a peer device by a command that a party issued has completed (09 R163, at `.sys`). -/
def State.peerQuiet (s : State) (who : Who) : Bool :=
  !((s.core (s.home who).1).cmds.any fun x => x.who == s.issuer who && s.peerWrite (((s.blockOf who).map (·.dealt.asid)).getD 0) x)

/-- Entries leave a queue, and their scoreboards count down. -/
def Flight.dropEnts (f : Flight) (p : StoreEnt → Bool) : Flight :=
  let f := (f.sq.ents.filter p).foldl (fun f e => f.subSb e.sb) f
  { f with sq := { f.sq with ents := f.sq.ents.filter (!p ·) } }

/-- Every lost store leaves the queue (09 R176). -/
def Flight.dropLost (f : Flight) : Flight :=
  let f := f.dropEnts (·.lost)
  { f with sq := { f.sq with lost := [] } }

/-- The oldest of a party's lost stores. -/
def oldestLost (l : List LostStore) : Option LostStore :=
  l.foldl (fun b e => match b with | some x => if e.age < x.age then some e else some x | none => some e) none

/-- A lost store of a party that a waiting word waits on (09 R176): the line of the oldest lost store. Every lost store leaves with the
report. -/
def State.takeLost (s : State) (w : Who) (waitsOn : LostStore → Bool) : Option (State × Nat) :=
  let l := (s.flight w).sq.lost
  if l.any waitsOn then (oldestLost l).map fun e => (s.updFlight w Flight.dropLost, e.line) else none

/-- A word that waits on every earlier store, and one that waits for the queue alone: a lost GA store keeps its place there. The spec lists
neither an atomic nor another word that waits for the queue among those that report a lost store: DEDUCED (entry 44). -/
def anyLost (_ : LostStore) : Bool := true
def queuedLost (e : LostStore) : Bool := e.ga

/-- Every store of a party is performed at its home (09 R173). -/
def State.storesHome (s : State) (w : Who) : Bool :=
  (s.flight w).sq.ents.isEmpty && !(s.mem.msgs.any fun m => m.who == w && m.kind != .inval)

/-! Range locks (08 R149) -/

/-- The first byte of an access of n bytes that a lock forbids. -/
def Lock.hit (l : Lock) (write : Bool) (a n : Nat) : Option Nat :=
  if (write || l.dest) && decide (0 < n) && decide (l.lo < l.hi) && decide (a < l.hi) && decide (l.lo < a + n) then some (max a l.lo) else none

/-- The first locked byte of an access: of the scratch of a block slot, or of an address space. -/
def State.locked (s : State) (core : Nat) (scratch : Bool) (owner : Nat) (write : Bool) (a n : Nat) : Option Nat :=
  (s.core core).locks.foldl (fun r l =>
    if l.scratch == scratch && (if scratch then l.blk else l.asid) == owner then
      match l.hit write a n, r with
      | some x, some y => some (min x y)
      | some x, none => some x
      | none, _ => r
    else r) none

/-! The checks of an access -/

def lanesOfOps (ops : List LaneOp) : BitVec 32 := maskOf 32 fun k => ops.any (·.lane == k)

/-- A trap of some of the lanes: POISON at the lowest address that they use (12 Table 1), another cause at the address of the lowest
lane. -/
def laneTrap (c : Cause) (bad : List (Nat × Nat)) : Option TrapArgs :=
  match bad with
  | [] => none
  | (_, a) :: rest => some (TrapArgs.of c (BitVec.ofNat 64 (if c = .poison then rest.foldl (fun m e => min m e.2) a else a)) 0
      (maskOf 32 fun k => bad.any (·.1 == k)))

/-- Lanes whose address is not a multiple of the size (08 R139). -/
def alignTrap (n : Nat) (ops : List LaneOp) : Option TrapArgs :=
  laneTrap .align ((ops.filter fun o => o.addr.toNat % n != 0).map fun o => (o.lane, o.addr.toNat))

/-- The order in which translation raises its causes (08 R153, R400). -/
def faultRank : Cause → Nat
  | .notPresent | .poison => 0
  | .privDeny => 1
  | .remote => 2
  | .readDeny => 3
  | .writeDeny => 4
  | .atomDeny => 5
  | .execDeny => 6
  | _ => 7

/-- The first cause that applies among the lanes' faults, with its lanes. -/
def worst (l : List (Nat × AccFault)) : Option TrapArgs :=
  let r := (l.map fun e => faultRank e.2.cause).foldl min 8
  (l.find? fun e => faultRank e.2.cause == r).map fun e =>
    e.2.trap (maskOf 32 fun k => l.any fun x => x.1 == k && x.2.cause == e.2.cause)

/-- The translation of every lane, or the fault of the instruction. -/
def State.translateAll (s : State) (op : MemOp) (asid : Nat) (kind : Access) (ops : List LaneOp) : Except TrapArgs (List (LaneOp × Leaf)) :=
  let rs := ops.map fun o => (o, s.access op.who.core asid (some op.who) kind true op.priv o.addr)
  match worst (rs.filterMap fun r => match r.2 with | .error f => some (r.1.lane, f) | .ok _ => none) with
  | some t => .error t
  | none => .ok (rs.filterMap fun r => match r.2 with | .ok l => some (r.1, l) | .error _ => none)

/-- The page of an address, or its 4 KiB granule where it has no translation (08 R154). -/
def State.pageOf (s : State) (asid : Nat) (va : DWord) : Nat × Nat :=
  match s.walk asid va with
  | .leaf l => (l.base, l.size)
  | _ => (va.toNat % 2 ^ 57 / 4096 * 4096, 4096)

def State.pagesOf (s : State) (asid : Nat) (vas : List DWord) : List (Nat × Nat) := (vas.map (s.pageOf asid)).dedup

/-- Lanes in a locked global range. -/
def State.lockTrap (s : State) (op : MemOp) (asid : Nat) (write : Bool) (n : Nat) (ops : List LaneOp) : Option TrapArgs :=
  laneTrap .rangeLock (ops.filterMap fun o => (s.locked op.who.core false asid write o.addr.toNat n).map fun a => (o.lane, a))

/-- Lanes that use a poisoned unit: at the home, or in die d's L2. -/
def State.poisonTrap (s : State) (d : Nat) (home : Leaf → Bool) (n : Nat) (ls : List (LaneOp × Leaf)) : Option TrapArgs :=
  laneTrap .poison (ls.filterMap fun p => (s.readBad d (home p.2) p.2 n).map fun k => (p.1.lane, p.1.addr.toNat + k))

/-- Lanes of a default load that hit a poisoned word of the core's L1 (12 R241). -/
def State.l1Trap (s : State) (core n : Nat) (home : Leaf → Bool) (ls : List (LaneOp × Leaf)) : Option TrapArgs :=
  laneTrap .poison (ls.filterMap fun p => if home p.2 then none else ((s.core core).l1.badAt p.2.phys n).map fun k => (p.1.lane, p.1.addr.toNat + k))

/-- Lanes whose line is homed on a dead die (12 R240). -/
def State.deadTrap (s : State) (ls : List (LaneOp × Leaf)) : Option TrapArgs :=
  laneTrap .poison ((ls.filter fun p => !p.2.q && (s.die p.2.home).dead).map fun p => (p.1.lane, p.1.addr.toNat))

/-- Lanes beyond the scratch size, in a locked range, or at a poisoned word. -/
def scrBoundTrap (size n : Nat) (ops : List LaneOp) : Option TrapArgs :=
  laneTrap .notPresent ((ops.filter fun o => decide (o.addr.toNat + n > size)).map fun o => (o.lane, o.addr.toNat))
def State.scrLockTrap (s : State) (core b : Nat) (write : Bool) (n : Nat) (ops : List LaneOp) : Option TrapArgs :=
  laneTrap .rangeLock (ops.filterMap fun o => (s.locked core true b write o.addr.toNat n).map fun a => (o.lane, a))
def scrPoisonTrap (x : Scratch) (n : Nat) (ops : List LaneOp) : Option TrapArgs :=
  laneTrap .poison (ops.filterMap fun o => (x.badAt o.addr.toNat n).map fun a => (o.lane, a))

/-- The first of a list of checks that traps. -/
def firstTrap : List (Option TrapArgs) → Option TrapArgs
  | [] => none
  | some t :: _ => some t
  | none :: ts => firstTrap ts

/-- A migrated warp's access to scratch, to the constant bank or at block scope (08 R157). DEDUCED (entry 38). -/
def State.migTrap (s : State) (op : MemOp) (applies : Bool) : Option TrapArgs :=
  if applies && s.migrated op.who then some (TrapArgs.of .migScope 0 0 (lanesOfOps op.ops)) else none

/-! The outcome of a memory instruction -/

/-- What is left to happen once an instruction is performed: nothing; an entry of the store queue that names its scoreboard leaves; its
values arrive in registers; a CLAIM re-homes its range. -/
inductive Fate
  | nothing
  | queued
  | vals (l : List (Nat × DWord))
  | claim (asid lo len : Nat)
  deriving DecidableEq, Repr

inductive Perf
  | ok (s : State) (f : Fate) (evs : List (Nat × Ev))
  | wait
  /-- it has begun, and waits -/
  | hold (s : State)
  /-- reported at the word -/
  | trap (s : State) (t : TrapArgs)
  /-- held in the operand log -/
  | log (t : TrapArgs) (pages : List (Nat × Nat))

/-- A word that waits on the party's stores finds a lost one (09 R176). -/
def State.lostTrap (s : State) (op : MemOp) (waitsOn : LostStore → Bool) : Option (State × TrapArgs) :=
  (s.takeLost op.who waitsOn).map fun r => (r.1, TrapArgs.of .ackLost (BitVec.ofNat 64 r.2) 0 (lanesOfOps op.ops))

/-- A word that waits on its party's queue: it reports a lost store that it waits on (09 R176), or waits. -/
def State.queueWait (s : State) (op : MemOp) (waitsOn : LostStore → Bool) : Perf :=
  match s.lostTrap op waitsOn with
  | some (s, t) => .trap s t
  | none => .wait

/-- A release waits until its stores have reached the point of its scope (09 R163, R171): none while it may go on. DEDUCED (entry 28). -/
def State.releaseStop (s : State) (op : MemOp) (rel : Bool) (sc : Scope) : Option Perf :=
  if !rel then none
  else match s.lostTrap op (if scopePkg sc then anyLost else queuedLost) with
    | some (s, t) => some (.trap s t)
    | none =>
      if (scopePkg sc && !((s.flight op.who).sq.ents.isEmpty && s.linkQuiet)) || (sc == .sys && !s.peerQuiet op.who) then some .wait
      else none

/-! Loads -/

/-- What a load finds in its own queue (09 R164): nothing, all its bytes in the youngest entry that covers them, or a part. -/
inductive Forward
  | miss
  | hit (bs : List Byte)
  | part
  deriving DecidableEq, Repr

def StoreEnt.touches (e : StoreEnt) (scratch : Bool) (a n : Nat) : Bool :=
  e.scratch == scratch && decide (e.addr < a + n) && decide (a < e.addr + e.bytes.length)

def StoreEnt.covers (e : StoreEnt) (scratch : Bool) (a n : Nat) : Bool :=
  e.scratch == scratch && decide (e.addr ≤ a) && decide (a + n ≤ e.addr + e.bytes.length)

/-- The youngest entry that covers every byte gives them, also where a younger one covers a part (09 R164); one whose value is not yet known, of a
RED, makes the load wait. -/
def forward (q : List StoreEnt) (scratch : Bool) (a n : Nat) : Forward :=
  match q.reverse.find? fun e => e.covers scratch a n with
  | some e => if e.rmw.isNone then .hit ((e.bytes.drop (a - e.addr)).take n) else .part
  | none => if q.any fun e => e.touches scratch a n then .part else .miss

/-- A value of a size as it stands in the data register (22 R340), to 128 bits. -/
def extendTo (z : Size) (v : Nat) : Nat :=
  match z with
  | .s8 => ((BitVec.ofNat 8 v).signExtend 64).toNat
  | .s16 => ((BitVec.ofNat 16 v).signExtend 64).toNat
  | _ => v

/-- The registers that a value fills, with their keys (22 R340, R341). -/
def dataKeys (c : Cls) (t : Nat) (z : Size) (lane v : Nat) : List (Nat × DWord) :=
  if c = .front then [(t, BitVec.ofNat 64 v)]
  else (List.range (z.regs .lane)).filterMap fun j =>
    if t + j = 0 then none else some (32 * (t + j) + lane, BitVec.ofNat 64 (v / 2 ^ (32 * j) % 2 ^ 32))

/-- Two entries of one replica group, or one entry. -/
def StoreEnt.sameGroup (e x : StoreEnt) : Bool := if e.group = 0 then x.age == e.age else x.group == e.group

/-- Two entries of one word. -/
def StoreEnt.sameWord (e x : StoreEnt) : Bool := e.age / 256 == x.age / 256

/-- An entry that is still to be performed. -/
def StoreEnt.waits (e : StoreEnt) : Bool := !e.done && !e.lost

/-- The entries of a queue that have been performed at their L2, or are on their way to their home, ahead of an older one (09 R166). -/
def aheadEnts (q : List StoreEnt) : List StoreEnt :=
  (List.range q.length).filterMap fun i => (q[i]?).bind fun e =>
    if (e.done || e.sent) && (q.take i).any fun x => x.waits && !e.sameGroup x then some e else none

/-- What the parties of a core other than p have under way. -/
def Core.flightsBut (k : Core) (p : Party) : List Flight :=
  (k.warps.filterMap fun e => if p == .warp e.1 then none else e.2.map (·.flight)) ++
  (if p == .landing then [] else k.landing.toList.map (·.flight)) ++
  k.blocks.filterMap fun e => if p == .front e.1 then none else (e.2.bind (·.front)).map (·.flight)

/-- Bytes that no load of a party reads yet: of a replica that is held (09 R170), or of a store of another party of the core that is ahead
of older entries of its queue, since the core sees a queue's stores in order (09 R164). -/
def State.loadHeld (s : State) (who : Who) (a n : Nat) : Bool :=
  s.heldAt (dieOf who.core) a n || ((s.core who.core).flightsBut who.party).any fun f => (aheadEnts f.sq.ents).any (·.touches false a n)

/-- A load performed at the home: `.byp`, or a page that is L2-only or uncached (08 R142). -/
def bypasses (pol : Policy) (l : Leaf) : Bool := pol == .byp || l.c == 1 || l.c == 2

/-- A read performed at the home in state s0: every party reads what it read, or newer (09 R168). -/
def State.seeHome (s0 : State) (who : Who) (p : Path) (home a n : Nat) (s : State) : State :=
  s0.see who p true (fun b => !s0.mem.efOf (1 - home) b) a n s

/-- A read performed at the die's L2, or in L1 where its copy is not older: `all`, since at L2 a store is seen at one instant (09 R168). -/
def State.seeHere (s0 : State) (who : Who) (p : Path) (all : Bool) (fresh : Nat → Bool) (a n : Nat) (s : State) : State :=
  s0.see who p all (fun b => fresh b && s0.current (dieOf who.core) b) a n s

/-- The bytes of one lane's load, none while it must wait (09 R164), and the state with its copies. -/
def State.loadLane (s : State) (op : MemOp) (o : MemF) (n : Nat) (l : Leaf) : Option (State × List Byte) :=
  let core := op.who.core
  let d := dieOf core
  match forward (s.flight op.who).sq.ents false l.phys n with
  | .hit bs => some (s, bs)
  | .part => none
  | .miss =>
    if s.loadHeld op.who l.phys n then none
    else if bypasses o.pol l then
      if l.home != d && s.efPending d l.phys n then none
      else some ((s.readHome d l.home l.phys n).afterLoad core true l.phys n,
        (span l.phys n).map (s.homeByte op.who .ls l.home))
    else
      let atL2 := (isAcq o.order) && (scopeWide o.scope)
      some ((s.addGuest d l.home l.phys n).afterLoad core false l.phys n, s.lsBytes op.who atL2 l.phys n)

/-- What one lane's load in state s0 has read beyond its own queue, its party has seen. -/
def State.seeLane (s0 : State) (op : MemOp) (o : MemF) (n : Nat) (l : Leaf) (s : State) : State :=
  match forward (s0.flight op.who).sq.ents false l.phys n with
  | .miss =>
    if bypasses o.pol l then s0.seeHome op.who .ls l.home l.phys n s
    else
      let atL2 := (isAcq o.order) && (scopeWide o.scope)
      s0.seeHere op.who .ls atL2 (fun b => atL2 || (s0.staleL1 op.who.core b).isNone) l.phys n s
  | _ => s

/-- Every lane in turn; the values are those of one moment. -/
def State.loadLanes (s0 : State) (op : MemOp) (o : MemF) (n : Nat) : List (LaneOp × Leaf) → State → Option (State × List (Nat × DWord))
  | [], s => some (s, [])
  | (k, l) :: rest, s =>
    match s0.loadLane op o n l with
    | none => none
    | some (_, bs) =>
      match s0.loadLanes op o n rest s with
      | none => none
      | some (s, vs) =>
        let s := match s.loadLane op o n l with | some (s, _) => s | none => s
        some (s, dataKeys (partyCls op.who.party) o.t.toNat o.size k.lane (extendTo o.size (natOf bs)) ++ vs)

/-- A load that entries of its own queue cover in part waits until they have left: it reports a lost one that keeps them there. -/
def State.partWait (s : State) (op : MemOp) (scratch : Bool) (n : Nat) (as : List Nat) : Perf :=
  let last := ((s.flight op.who).sq.ents.filter fun e => as.any fun a => e.touches scratch a n).foldl (fun m e => max m e.age) 0
  s.queueWait op fun e => queuedLost e && decide (e.age ≤ last)

/-- An acquire, and a release, of a word on n bytes at each of several addresses. -/
def State.acquireAt (s : State) (who : Who) (sc : Scope) (scratch : Bool) (n : Nat) (as : List Nat) : State :=
  as.foldl (fun s a => s.acquire who sc (.bytes scratch a (a + n))) s
def State.releaseAt (s : State) (who : Who) (sc : Scope) (scratch : Bool) (n : Nat) (as : List Nat) : State :=
  as.foldl (fun s a => s.release who sc (.bytes scratch a (a + n))) s

/-- TLBs keep the translations that were used. -/
def State.tlbFillAll (s : State) (op : MemOp) (asid : Nat) (ops : List LaneOp) : State :=
  ops.foldl (fun s o => s.tlbFill op.who.core asid o.addr) s

/-- LD (22 R340 to R342). -/
def State.doLd (s : State) (b : Block) (op : MemOp) (o : MemF) : Perf :=
  let n := o.size.bytes
  let asid := b.dealt.asid
  match firstTrap [s.migTrap op (o.scope == .blk), alignTrap n op.ops] with
  | some t => .trap s t
  | none =>
    match s.translateAll op asid .load op.ops with
    | .error t => .log t (s.pagesOf asid (op.ops.map (·.addr)))
    | .ok ls =>
      match s.lockTrap op asid false n op.ops, firstTrap [s.poisonTrap (dieOf op.who.core) (bypasses o.pol) n ls,
          s.l1Trap op.who.core n (fun l => bypasses o.pol l || (isAcq o.order && scopeWide o.scope)) ls] with
      | some t, _ => .trap s t
      | none, some t => .log t (s.pagesOf asid (op.ops.map (·.addr)))
      | none, none =>
        match s.loadLanes op o n ls (s.tlbFillAll op asid op.ops) with
        | none => if ls.any fun p => s.loadHeld op.who p.2.phys n then .wait else s.partWait op false n (ls.map (·.2.phys))
        | some (r, vs) =>
          let r := ls.foldl (fun r p => s.seeLane op o n p.2 r) r
          .ok (if isAcq o.order then r.acquireAt op.who o.scope false n (ls.map (·.2.phys)) else r) (.vals vs) []

/-- One lane of LDS: its bytes from its own queue or from scratch. -/
def State.ldsLane (s : State) (op : MemOp) (o : MemF) (n : Nat) (k : LaneOp) : Option (List (Nat × DWord)) :=
  let (core, b) := s.home op.who
  let keys (bs : List Byte) := dataKeys .lane o.t.toNat o.size k.lane (extendTo o.size (natOf bs))
  match forward (s.flight op.who).sq.ents true k.addr.toNat n with
  | .hit bs => some (keys bs)
  | .part => none
  | .miss => some (keys (s.scrBytes core b op.who .ls k.addr.toNat n))

/-- The lanes whose bytes come from scratch have read them. -/
def State.ldsSee (s : State) (op : MemOp) (n : Nat) : State :=
  let (core, b) := s.home op.who
  op.ops.foldl (fun r k => match forward (s.flight op.who).sq.ents true k.addr.toNat n with
    | .miss => s.scrSee core b op.who .ls k.addr.toNat n r
    | _ => r) s

/-- LDS (22 R340 to R342). -/
def State.doLds (s : State) (b : Block) (op : MemOp) (o : MemF) : Perf :=
  let n := o.size.bytes
  let (core, slot) := s.home op.who
  match firstTrap [s.migTrap op true, alignTrap n op.ops, scrBoundTrap b.scratch.size n op.ops, s.scrLockTrap core slot false n op.ops] with
  | some t => .trap s t
  | none =>
    match scrPoisonTrap b.scratch n op.ops with
    | some t => .log t []
    | none =>
      let vs := op.ops.map (s.ldsLane op o n)
      if vs.any Option.isNone then s.partWait op true n (op.ops.map (·.addr.toNat))
      else
        let s := s.ldsSee op n
        .ok (if isAcq o.order then s.acquireAt op.who .blk true n (op.ops.map (·.addr.toNat)) else s) (.vals (vs.filterMap id).flatten) []

/-- Bytes that the constant path reads: at their home where the page is L2-only or uncached (08 R142). -/
def State.constBytes (s : State) (who : Who) (l : Leaf) (n : Nat) : List Byte :=
  if bypasses .dflt l then (span l.phys n).map (s.homeByte who .const l.home) else s.pathBytes who .const l.phys n
/-- They have been read. -/
def State.constSee (s0 : State) (who : Who) (l : Leaf) (n : Nat) (s : State) : State :=
  if bypasses .dflt l then s0.seeHome who .const l.home l.phys n s else s0.seeHere who .const false (fun _ => true) l.phys n s

/-- CONSTBASE and CONSTSIZE of a block's card (10 Table 1). -/
def Block.constBase (b : Block) : DWord := b.dealt.card.extractLsb' 768 64
def Block.constSize (b : Block) : Nat := fld 832 32 b.dealt.card

/-- LDC (22 R340 to R342): the bank at CONSTBASE plus the offset, by the constant path. -/
def State.doLdc (s : State) (b : Block) (op : MemOp) (o : MemF) : Perf :=
  let n := o.size.bytes
  let asid := b.dealt.asid
  match firstTrap [s.migTrap op true, alignTrap n op.ops, scrBoundTrap b.constSize n op.ops] with
  | some t => .trap s t
  | none =>
    let ops := op.ops.map fun k => { k with addr := b.constBase + k.addr }
    match s.translateAll op asid .load ops with
    | .error t => .log t (s.pagesOf asid (ops.map (·.addr)))
    | .ok ls =>
      match s.poisonTrap (dieOf op.who.core) (bypasses .dflt) n ls with
      | some t => .log t (s.pagesOf asid (ops.map (·.addr)))
      | none =>
        if ls.any fun p => s.heldAt (dieOf op.who.core) p.2.phys n then .wait
        else
          let r := ls.foldl (fun r p => s.constSee op.who p.2 n r) s
          .ok (r.tlbFillAll op asid ops) (.vals (ls.flatMap fun p =>
            dataKeys .lane o.t.toNat o.size p.1.lane (extendTo o.size (natOf (s.constBytes op.who p.2 n))))) []

/-! Stores -/

/-- A queue that is full makes a store wait, or report a lost store (09 R164, R176). -/
def State.queueStop (s : State) (op : MemOp) : Option Perf :=
  if (s.flight op.who).sq.ents.length < 16 then none else some (s.queueWait op anyLost)

/-- Entries join a queue in order; the last one names the scoreboard. -/
def State.pushStores (s : State) (w : Who) (sb : Nat) (es : List StoreEnt) : State :=
  let es := (List.range es.length).zipWith (fun k e =>
    { e with sb := if k + 1 = es.length then sb else e.sb, age := 256 * s.fresh + k }) es
  s.updFlight w fun f => { f with sq := { f.sq with ents := f.sq.ents ++ es } }

/-- An atomic operation that adds in floating point. -/
def isFadd : AtomOp → Bool
  | .faddF32 | .faddBf16x2 => true
  | _ => false
def StoreEnt.isFadd (e : StoreEnt) : Bool := (e.rmw.map fun r => Machine.isFadd r.1).getD false

/-- A store has begun at an address: its entries have joined the queue, and it waits there. -/
def Flight.begun (f : Flight) (pc : DWord) : Bool := f.relAt == some pc || f.entAt == some pc

/-- What a store that has begun still waits for: a release at `.pkg` or wider for its own acknowledgement (19 R287), another for slots of the
queue (09 R164, 23 R389), and a RED of `.fadd` until it has been performed, since its events are the word's (06 R118; entry 25). -/
def Flight.storeWaits (f : Flight) (pc : DWord) : Bool :=
  if f.relAt == some pc then f.sq.ents.any (·.rel.isSome)
  else decide (f.sq.ents.length > 16) || f.sq.ents.any fun e => e.isFadd && e.waits

/-- A store's entries join the queue; the word waits there while more than 16 stand (entry 44), or for what its kind waits for. `replay`: the
device replays it from the log, and no word waits. -/
def State.enterStores (s : State) (op : MemOp) (sb : Nat) (es : List StoreEnt) (rel : Bool) (sc : Scope) (replay : Bool) : Perf :=
  let t := s.pushStores op.who sb es
  if replay then .ok t .queued []
  else if rel && scopePkg sc then .hold ((s.pushStores op.who 0 es).updFlight op.who fun f => { f with relAt := some op.pc })
  else if decide ((t.flight op.who).sq.ents.length > 16) || es.any StoreEnt.isFadd then
    .hold (t.updFlight op.who fun f => { (if sb = 0 then f else f.addSb sb) with entAt := some op.pc })
  else .ok t .queued []

/-- The entries of the youngest word of a queue that are still to be performed. -/
def Flight.unperformed (f : Flight) (e : StoreEnt) : Bool :=
  e.waits && (match f.sq.ents.getLast? with | some y => e.sameWord y | none => false)

/-- A store that has begun: it is complete, waits, or reports a lost store (09 R176), and its entries not yet performed leave. -/
def State.begunStore (s : State) (op : MemOp) : Option Perf :=
  let f := s.flight op.who
  if !f.begun op.pc then none
  else
    let clear (s : State) : State := s.updFlight op.who fun f => { f with relAt := none, entAt := none, evs := [] }
    if !f.storeWaits op.pc then some (.ok (clear s) .nothing (f.evs.map fun e => (((op.ops[e.1]?).map (·.lane)).getD 0, e.2)))
    else match s.lostTrap op (if f.relAt == some op.pc || f.sq.ents.length > 16 then anyLost else queuedLost) with
      | some (s, t) => some (.trap (clear (s.updFlight op.who (·.dropEnts f.unperformed))) t)
      | none => some .wait

/-- The release that a word's entries carry (09 R163): it takes effect when they are performed. -/
def relOf (o : Order) (sc : Scope) : Option Scope := if isRel o then some sc else none

/-- What stops a store that has passed its checks: its release, or a full queue. -/
def State.storeStop (s : State) (op : MemOp) (rel : Bool) (sc : Scope) : Option Perf :=
  match s.releaseStop op rel sc with
  | some p => some p
  | none => s.queueStop op

def storeBytes (z : Size) (k : LaneOp) : List Byte := bytesOf z.bytes k.b.toNat

/-- A store is performed as GA where it says so, where it is a release at `.pkg` or wider (09 R171), and where `.byp` has it performed at
a home that is the other die (08 R142). -/
def storesGa (ga rel : Bool) (sc : Scope) (byp : Bool) (home d : Nat) : Bool := ga || (rel && (scopePkg sc)) || (byp && home != d)

/-- ST (23 R387 to R389). -/
def State.doSt (s : State) (b : Block) (op : MemOp) (o : MemF) (sb : Nat) (replay : Bool) : Perf :=
  let n := o.size.bytes
  let asid := b.dealt.asid
  let rel := (isRel o.order)
  match firstTrap [s.migTrap op (o.scope == .blk), alignTrap n op.ops] with
  | some t => .trap s t
  | none =>
    match s.translateAll op asid .store op.ops with
    | .error t => .log t (s.pagesOf asid (op.ops.map (·.addr)))
    | .ok ls =>
      match s.lockTrap op asid true n op.ops with
      | some t => .trap s t
      | none =>
        match s.deadTrap ls with
        | some t => .trap s t
        | none =>
        match s.storeStop op rel o.scope with
        | some p => p
        | none =>
          let d := dieOf op.who.core
          let es := ls.map fun p =>
            ⟨false, p.2.phys, p.1.addr.toNat, storeBytes o.size p.1, none, p.2.home, storesGa o.ga rel o.scope (bypasses o.pol p.2) p.2.home d, 0,
              false, false, false, 0, relOf o.order o.scope, bypasses o.pol p.2, false, 0⟩
          (s.tlbFillAll op asid op.ops).enterStores op sb es rel o.scope replay

/-- STS (23 R387 to R389). -/
def State.doSts (s : State) (b : Block) (op : MemOp) (o : MemF) (replay : Bool) : Perf :=
  let n := o.size.bytes
  let (core, slot) := s.home op.who
  match firstTrap [s.migTrap op true, alignTrap n op.ops, scrBoundTrap b.scratch.size n op.ops, s.scrLockTrap core slot true n op.ops] with
  | some t => .trap s t
  | none =>
    match s.storeStop op (isRel o.order) .blk with
    | some p => p
    | none =>
      let es := op.ops.map fun k =>
        ⟨true, k.addr.toNat, 0, storeBytes o.size k, none, 0, false, 0, false, false, false, 0, relOf o.order .blk, false, false, 0⟩
      s.enterStores op 0 es false .blk replay

/-! Atomics -/

/-- The value an atomic operation writes on n bits (20 Table 2), none where `.cas` does not write, and its events. -/
def atomVal (op : AtomOp) (n old b c : Nat) : Option Nat × List Ev :=
  let si (x : Nat) : Int := (BitVec.ofNat n x).toInt
  let fp (r : Elem) : Option Nat × List Ev := (some r.bits, r.ev)
  match op with
  | .add => (some ((old + b) % 2 ^ n), [])
  | .minS => (some (if si b < si old then b else old), [])
  | .maxS => (some (if si b > si old then b else old), [])
  | .minU => (some (min old b), [])
  | .maxU => (some (max old b), [])
  | .and => (some (old &&& b), [])
  | .or => (some (old ||| b), [])
  | .xor => (some (old ^^^ b), [])
  | .xchg => (some b, [])
  | .cas => (if old = c then some b else none, [])
  | .inc => (some (if old ≥ b then 0 else old + 1), [])
  | .faddF32 => fp (fF32.finish .rne false 0 (Num.add .rne (fF32.read old) (fF32.read b)))
  | .faddBf16x2 =>
    let h (k : Nat) : Elem := fBF16.finish .rne false 0 (Num.add .rne (fBF16.read (old / 2 ^ k % 2 ^ 16)) (fBF16.read (b / 2 ^ k % 2 ^ 16)))
    (some ((h 0).bits + 2 ^ 16 * (h 16).bits), (h 0).ev ++ (h 16).ev)

/-- The checks of a global atomic (20 R293, 23 R372). -/
def State.atomChecks (s : State) (b : Block) (op : MemOp) (o : AtomF) : Except Perf (List (LaneOp × Leaf)) :=
  let n := o.size.bytes
  let asid := b.dealt.asid
  match firstTrap [s.migTrap op (o.scope == .blk), alignTrap n op.ops] with
  | some t => .error (.trap s t)
  | none =>
    match s.translateAll op asid .rmw op.ops with
    | .error t => .error (.log t (s.pagesOf asid (op.ops.map (·.addr))))
    | .ok ls =>
      match firstTrap [s.lockTrap op asid true n op.ops, s.poisonTrap (dieOf op.who.core) (fun _ => true) n ls] with
      | some t => .error (.trap s t)
      | none => .ok ls

/-- A party reads n bytes at their home as they stand: it observes what wrote them, and no party reads older ones by that path (09 R165,
R168). -/
def State.readStanding (s : State) (who : Who) (p : Path) (home a n : Nat) : State :=
  let t := s.mem.path
  let s := if t.isEmpty then s else
    { s with mem := { s.mem with path := (span a n).foldl (fun r b => Tbl.upd [] r b (seeWrites (s.pid who) p true 0)) t } }
  s.readHome (dieOf who.core) home a n

/-- One lane of a global atomic at the home: its read and its write are next to each other in the coherence order (09 R165). The old value,
the state after, the events. -/
def State.atomLane (s : State) (region : Nat) (who : Who) (p : Path) (a : AtomOp) (ga : Bool) (n : Nat) (phys va home age : Nat) (v c : Nat) :
    State × Nat × List Ev :=
  let old := natOf (s.standing home phys n)
  let s := (s.readStanding who p home phys n).demandAll who.core phys n
  match atomVal a (8 * n) old v c with
  | (some x, ev) => (s.homeRmw who p region phys va age ga (bytesOf n x), old, ev)
  | (none, ev) => (s, old, ev)

/-- The lanes of a global atomic in increasing order (20 R292); a release at `.pkg` or wider is performed as GA (09 R171). -/
def State.atomLanes (s : State) (b : Block) (op : MemOp) (o : AtomF) (ls : List (LaneOp × Leaf)) :
    State × List (Nat × DWord) × List (Nat × Ev) :=
  let n := o.size.bytes
  let ga := o.ga || (isRel o.order && scopePkg o.scope)
  ls.foldl (fun (r : State × List (Nat × DWord) × List (Nat × Ev)) p =>
    let (s, old, ev) := r.1.atomLane b.dealt.region op.who .ls o.op ga n p.2.phys p.1.addr.toNat p.2.home (256 * s.fresh + p.1.lane)
      (p.1.b.toNat % 2 ^ (8 * n)) (p.1.c.toNat % 2 ^ (8 * n))
    (s, r.2.1 ++ dataKeys (partyCls op.who.party) o.d.toNat o.size p.1.lane old, r.2.2 ++ ev.map fun e => (p.1.lane, e))) (s, [], [])

/-- An atomic waits for the party's queue to be empty and for its die's EF stores to the same bytes (09 R165, R172). -/
def State.atomStop (s : State) (op : MemOp) (o : AtomF) (ls : List (LaneOp × Leaf)) : Option Perf :=
  match s.releaseStop op (isRel o.order) o.scope with
  | some p => some p
  | none =>
    if !(s.flight op.who).sq.ents.isEmpty then some (s.queueWait op queuedLost)
    else if ls.any fun p => s.efPending (dieOf op.who.core) p.2.phys o.size.bytes || s.loadHeld op.who p.2.phys o.size.bytes then some .wait
    else none

/-- The addresses of a global instruction. -/
def physOf (ls : List (LaneOp × Leaf)) : List Nat := ls.map (·.2.phys)

/-- ATOM (20 R291 to R293). -/
def State.doAtom (s : State) (b : Block) (op : MemOp) (o : AtomF) : Perf :=
  match s.atomChecks b op o with
  | .error p => p
  | .ok ls =>
    match s.atomStop op o ls with
    | some p => p
    | none =>
      let s := if isRel o.order then s.releaseAt op.who o.scope false o.size.bytes (physOf ls) else s
      let (s, vs, ev) := (s.tlbFillAll op b.dealt.asid op.ops).atomLanes b op o ls
      .ok (if isAcq o.order then s.acquireAt op.who o.scope false o.size.bytes (physOf ls) else s) (.vals vs) ev

/-- RED (23 R372): its read-modify-writes enter the store queue. One that adds in floating point and is replayed from the log is performed
as soon as the queue is empty, where its events are counted (06 R118). DEDUCED (entry 25). -/
def State.doRed (s : State) (b : Block) (op : MemOp) (o : AtomF) (sb : Nat) (replay : Bool) : Perf :=
  match s.atomChecks b op o with
  | .error p => p
  | .ok ls =>
    let atOnce := replay && isFadd o.op
    match (if atOnce then s.atomStop op o ls else s.storeStop op (isRel o.order) o.scope) with
    | some p => p
    | none =>
      let s := s.tlbFillAll op b.dealt.asid op.ops
      if atOnce then
        let (s, _, ev) := (if isRel o.order then s.releaseAt op.who o.scope false o.size.bytes (physOf ls) else s).atomLanes b op o ls
        .ok s .nothing ev
      else
        let n := o.size.bytes
        let es := ls.map fun p =>
          ⟨false, p.2.phys, p.1.addr.toNat, bytesOf n p.1.b.toNat, some (o.op, BitVec.ofNat 64 p.1.b.toNat), p.2.home,
            o.ga || ((isRel o.order) && (scopePkg o.scope)), 0, false, false, false, 0, relOf o.order o.scope, false, false, 0⟩
        s.enterStores op sb es (isRel o.order) o.scope replay

/-- One lane of ATOMS: on the bytes as they stand (09 R165). -/
def State.atomsLane (s : State) (core slot : Nat) (who : Who) (a : AtomOp) (n off v c : Nat) : State × Nat × List Ev :=
  let x := s.scratch core slot
  let old := natOf (Tbl.getList 0 x.bytes off n)
  let s := if x.path.isEmpty then s else s.updBlock core slot fun y => { y with scratch := { y.scratch with
    path := (span off n).foldl (fun r b => Tbl.upd [] r b (seeWrites (s.pid who) .ls true 0)) y.scratch.path } }
  match atomVal a (8 * n) old v c with
  | (some x, ev) => (s.scrStore core slot who .ls off (bytesOf n x), old, ev)
  | (none, ev) => (s, old, ev)

/-- ATOMS (20 R291 to R293). -/
def State.doAtoms (s : State) (b : Block) (op : MemOp) (o : AtomF) : Perf :=
  let n := o.size.bytes
  let (core, slot) := s.home op.who
  match firstTrap [s.migTrap op true, alignTrap n op.ops, scrBoundTrap b.scratch.size n op.ops, s.scrLockTrap core slot true n op.ops,
      scrPoisonTrap b.scratch n op.ops] with
  | some t => .trap s t
  | none =>
    match s.releaseStop op (isRel o.order) .blk with
    | some p => p
    | none =>
      if !(s.flight op.who).sq.ents.isEmpty then s.queueWait op queuedLost
      else
        let as := op.ops.map (·.addr.toNat)
        let s := if isRel o.order then s.releaseAt op.who .blk true n as else s
        let (s, vs, ev) := op.ops.foldl (fun (r : State × List (Nat × DWord) × List (Nat × Ev)) k =>
          let (s, old, ev) := r.1.atomsLane core slot op.who o.op n k.addr.toNat (k.b.toNat % 2 ^ (8 * n)) (k.c.toNat % 2 ^ (8 * n))
          (s, r.2.1 ++ dataKeys .lane o.d.toNat o.size k.lane old, r.2.2 ++ ev.map fun e => (k.lane, e))) (s, [], [])
        .ok (if isAcq o.order then s.acquireAt op.who .blk true n as else s) (.vals vs) ev

/-! STMC (08 R158) -/

/-- The replica displacements of a table: none where its count or a displacement is out of range. -/
def replicas (t : List Byte) : Option (List DWord) :=
  let word (i : Nat) : DWord := BitVec.ofNat 64 (natOf ((t.drop (8 * i)).take 8))
  let n := (word 0).toNat % 16
  if n = 0 || n > 8 then none
  else
    let ds := (List.range (n - 1)).map fun i => word (i + 1)
    if ds.any fun d => d.toNat % 4096 != 0 then none else some (0 :: ds)

/-- The replicas of every lane with what refuses them: each replica's index, lane operands and translation. -/
def State.refusals (s : State) (op : MemOp) (asid n : Nat) (rs : List (Nat × LaneOp)) : List (Nat × Nat × DWord) :=
  rs.filterMap fun r =>
    let deny := match s.access op.who.core asid (some op.who) .store true op.priv r.2.addr with
      | .error f => f.cause == .writeDeny || f.cause == .privDeny || f.cause == .remote
      | .ok _ => false
    if deny || (s.locked op.who.core false asid true r.2.addr.toNat n).isSome then some (r.1, r.2.lane, r.2.addr) else none

/-- MCPERM: the lowest-indexed refusing replica. -/
def mcPerm (l : List (Nat × Nat × DWord)) : Option TrapArgs :=
  let low := (l.map (·.1)).foldl min 8
  (l.find? fun e => e.1 == low).map fun e =>
    TrapArgs.of .mcPerm e.2.2 low (maskOf 32 fun k => l.any fun x => x.1 == low && x.2.1 == k)

/-- The entries of a lane's replicas, in replica order; with G = 1 they form a replica group (09 R170). -/
def replicaEnts (o : MemF) (d base : Nat) (ls : List (LaneOp × Leaf)) : List StoreEnt :=
  let group := o.ga || (isRel o.order && scopePkg o.scope)
  ls.map fun p =>
    ⟨false, p.2.phys, p.1.addr.toNat, storeBytes o.size p.1, none, p.2.home,
      storesGa o.ga (isRel o.order) o.scope (bypasses o.pol p.2) p.2.home d, if group then base + p.1.lane else 0, false, false, false, 0,
      relOf o.order o.scope, bypasses o.pol p.2, false, 0⟩

/-- The replica table of a warp and the bytes that STMC writes (08 R158): the table's bank address, and the replicas' displacements where
the table can be read. -/
def State.replicaTable (s : State) (b : Block) (op : MemOp) : DWord × Option (List DWord) :=
  let off : Word := ((s.warp op.who).map fun w => w.mctab).getD 0
  let va := b.constBase + off.setWidth 64
  match s.access op.who.core b.dealt.asid (some op.who) .load true op.priv va with
  | .ok l => (va, replicas (s.constBytes op.who l 64))
  | .error _ => (va, none)

/-- The bytes that an STMC touches: its table and every replica of every lane. -/
def State.stmcSpans (s : State) (b : Block) (op : MemOp) (n : Nat) : List (Nat × Nat) :=
  let (va, ds) := s.replicaTable b op
  (va.toNat, 64) :: op.ops.flatMap fun k => (ds.getD [0]).map fun d => ((k.addr + d).toNat, n)

def State.doStmc (s : State) (b : Block) (op : MemOp) (o : MemF) (replay : Bool) : Perf :=
  let n := o.size.bytes
  let asid := b.dealt.asid
  let off := ((s.warp op.who).map (·.mctab)).getD 0
  let bank : LaneOp := ⟨lowestOf op.ops, b.constBase + off.setWidth 64, 0, 0⟩
  match firstTrap [s.migTrap op true, scrBoundTrap b.constSize 64 [{ bank with addr := off.setWidth 64 }]] with
  | some t => .trap s { t with lanes := lanesOfOps op.ops }
  | none =>
    match s.translateAll op asid .load [bank] with
    | .error t => .log { t with lanes := lanesOfOps op.ops } (s.pagesOf asid [bank.addr])
    | .ok bl =>
      match s.poisonTrap (dieOf op.who.core) (bypasses .dflt) 64 bl, replicas (bl.flatMap fun p => s.constBytes op.who p.2 64) with
      | some t, _ => .trap s { t with lanes := lanesOfOps op.ops }
      | none, none => .trap s (TrapArgs.of .illegal 0 0 (lanesOfOps op.ops))
      | none, some ds =>
        let rs := op.ops.flatMap fun k => (List.range ds.length).zipWith (fun i d => (i, { k with addr := k.addr + d })) ds
        let ops := rs.map (·.2)
        let missing := worst (rs.filterMap fun r =>
          match s.access op.who.core asid (some op.who) .store true op.priv r.2.addr with
          | .error f => if f.cause == .notPresent || f.cause == .migrating || f.cause == .poison then some (r.2.lane, f) else none
          | .ok _ => none)
        match alignTrap n op.ops, missing, mcPerm (s.refusals op asid n rs), s.translateAll op asid .store ops with
        | some t, _, _, _ => .trap s t
        | none, some t, _, _ => .log t (s.pagesOf asid (bank.addr :: ops.map (·.addr)))
        | none, none, some t, _ => .trap s t
        | none, none, none, .error t => .trap s t
        | none, none, none, .ok ls =>
          match s.deadTrap ls with
          | some t => .trap s t
          | none =>
          match s.storeStop op (isRel o.order) o.scope with
          | some p => p
          | none =>
            let es := replicaEnts o (dieOf op.who.core) s.seq ls
            let r := bl.foldl (fun r p => s.constSee op.who p.2 64 r) s
            { (r.tlbFillAll op asid ops) with seq := s.seq + 32 }.enterStores op 0 es (isRel o.order) o.scope replay
where
  lowestOf (ops : List LaneOp) : Nat := (ops.head?.map (·.lane)).getD 0

/-! DISC and CLAIM (08 R155, R156) -/

/-- The pieces of a range of n bytes, one for each page: address, length and translation. -/
def State.pieces (s : State) (op : MemOp) (asid : Nat) (kind : Access) : Nat → DWord → Nat → List (Except AccFault (DWord × Nat × Leaf))
  | 0, _, _ => []
  | f + 1, va, n =>
    if n = 0 then []
    else
      let (base, size) := s.pageOf asid va
      let k := min n (base + size - va.toNat % 2 ^ 57)
      ((s.access op.who.core asid (some op.who) kind true op.priv va).map fun l => (va, k, l)) :: s.pieces op asid kind f (va + BitVec.ofNat 64 k) (n - k)

def pieceFaults (lane : Nat) (l : List (Except AccFault (DWord × Nat × Leaf))) : List (Nat × AccFault) :=
  l.filterMap fun r => match r with | .error f => some (lane, f) | .ok _ => none
def goodPieces (l : List (Except AccFault (DWord × Nat × Leaf))) : List (DWord × Nat × Leaf) :=
  l.filterMap fun r => match r with | .ok p => some p | .error _ => none

/-- The pages of a range of n bytes (08 R154). -/
def State.rangePages (s : State) (asid : Nat) : Nat → DWord → Nat → List (Nat × Nat)
  | 0, _, _ => []
  | f + 1, va, n =>
    if n = 0 then []
    else
      let (base, size) := s.pageOf asid va
      let k := min n (base + size - va.toNat % 2 ^ 57)
      (base, size) :: s.rangePages asid f (va + BitVec.ofNat 64 k) (n - k)

/-- Sectors become discarded (08 R155): a later read finds the value that stood at the home, or zero, and no older copy. -/
def State.discard (s : State) (a n : Nat) : State :=
  let old (t : Tbl (Option Byte)) : Tbl (Option Byte) := Tbl.drop t fun b => decide (a ≤ b) && decide (b < a + n)
  let m := (s.mem.freshen 0 a n).freshen 1 a n
  { s with
    cores := s.cores.map fun e => (e.1, { e.2 with l1 := { e.2.l1 with old := old e.2.l1.old } })
    mem := { m with
      disc := (sectorsOf a n).foldl (fun t k => Tbl.set false t k true) m.disc
      path := Tbl.drop m.path fun b => decide (a ≤ b) && decide (b < a + n) } }

/-- DISC: `b` holds each lane's length. -/
def State.doDisc (s : State) (b : Block) (op : MemOp) : Perf :=
  let asid := b.dealt.asid
  let len (k : LaneOp) : Nat := k.b.toNat % 2 ^ 32
  let skew := laneTrap .align (op.ops.filterMap fun k =>
    if k.addr.toNat % 32 != 0 || len k % 32 != 0 then some (k.lane, k.addr.toNat) else none)
  let ps := op.ops.map fun k => (k.lane, s.pieces op asid .store (len k / 4096 + 2) k.addr (len k))
  let lock := laneTrap .rangeLock (op.ops.filterMap fun k => (s.locked op.who.core false asid true k.addr.toNat (len k)).map fun a => (k.lane, a))
  match skew, worst (ps.flatMap fun p => pieceFaults p.1 p.2), lock with
  | some t, _, _ => .trap s t
  | none, some t, _ => .log t (op.ops.flatMap fun k => s.rangePages asid (len k / 4096 + 2) k.addr (len k)).dedup
  | none, none, some t => .trap s t
  | none, none, none =>
    let qs := ps.flatMap fun p => goodPieces p.2
    if qs.isEmpty then .ok s .nothing []
    else match laneTrap .poison (ps.flatMap fun p => (goodPieces p.2).filterMap fun q =>
      if (s.die q.2.2.home).dead then some (p.1, q.1.toNat) else none) with
    | some t => .trap s t
    | none =>
    if !(s.flight op.who).sq.ents.isEmpty then s.queueWait op queuedLost
    else if qs.any fun q => s.efPending (dieOf op.who.core) q.2.2.phys q.2.1 then .wait
    else .ok (qs.foldl (fun s q => s.discard q.2.2.phys q.2.1) s) .nothing []

/-- A message on the link covers physical bytes. -/
def State.linkBusy (s : State) (a n : Nat) : Bool :=
  s.mem.msgs.any fun m => decide (m.addr < a + n) && decide (a < m.addr + m.bytes.length)

/-- The pages of a CLAIM's range. -/
def State.claimPieces (s : State) (op : MemOp) (asid : Nat) (kind : Access) (va : DWord) (len : Nat) :=
  s.pieces op asid kind (len / 4096 + 2) va len

/-- The pages that map a range, as the tables stand (08 R156): address, length within the range and leaf. -/
def State.tablePieces (s : State) (asid : Nat) : Nat → DWord → Nat → List (DWord × Nat × Leaf)
  | 0, _, _ => []
  | f + 1, va, n =>
    if n = 0 then []
    else
      let (base, size) := s.pageOf asid va
      let k := min n (base + size - va.toNat % 2 ^ 57)
      let rest := s.tablePieces asid f (va + BitVec.ofNat 64 k) (n - k)
      match s.walk asid va with | .leaf l => (va, k, l) :: rest | _ => rest
def State.rangeLeaves (s : State) (asid lo len : Nat) : List (DWord × Nat × Leaf) :=
  s.tablePieces asid (len / 4096 + 2) (BitVec.ofNat 64 lo) len

/-- CLAIM (20 R302): the range of the lowest executing lane; `b` holds its length. The re-homing itself is `State.rehome`. DEDUCED (entry 37). -/
def State.doClaim (s : State) (b : Block) (op : MemOp) : Perf :=
  match op.ops.head? with
  | none => .ok s .nothing []
  | some k =>
    let asid := b.dealt.asid
    let len := k.b.toNat % 2 ^ 32
    let rd := s.claimPieces op asid .load k.addr len
    let wr := s.claimPieces op asid .store k.addr len
    let odd := (s.rangeLeaves asid k.addr.toNat len).find? fun p => p.1.toNat % 2 ^ 57 != p.2.2.base || p.2.1 != p.2.2.size
    let skew := match odd with
      | some p => some (if p.1.toNat % 2 ^ 57 != p.2.2.base then p.1 else p.1 + BitVec.ofNat 64 p.2.1)
      | none => if k.addr.toNat % 4096 != 0 then some k.addr else if len % 4096 != 0 then some (k.addr + BitVec.ofNat 64 len) else none
    if len = 0 then .ok s .nothing []
    else match skew, worst ((pieceFaults k.lane rd ++ pieceFaults k.lane wr)) with
      | some a, _ => .trap s (TrapArgs.of .align a 0 (lanesOfOps [k]))
      | none, some t => .log t (s.rangePages asid (len / 4096 + 2) k.addr len).dedup
      | none, none =>
        match (s.rangeLeaves asid k.addr.toNat len).find? fun p => (s.die p.2.2.home).dead with
        | some p => .trap s (TrapArgs.of .poison p.1 0 (lanesOfOps [k]))
        | none =>
        if !(s.flight op.who).sq.ents.isEmpty || !(s.flight op.who).results.isEmpty || !s.storesHome op.who then s.queueWait op queuedLost
        else .ok s (.claim asid k.addr.toNat len) []

/-- Step 2 of CLAIM (08 R156): from now on every other access to the range faults. -/
def State.holdRange (s : State) (who : Who) (asid lo len : Nat) : State :=
  let m : Moving := ⟨who, asid, lo, len⟩
  if s.mem.moving.contains m then s else { s with mem := { s.mem with moving := s.mem.moving ++ [m] } }

/-- The device rewrites H in the entries of a leaf's page: each of a NAPOT group (08 R152, R156). -/
def State.rewriteHome (s : State) (l : Leaf) (d : Nat) : State :=
  let count := l.size / 2 ^ (12 + 9 * l.level)
  let base := l.at_ / (8 * count) * (8 * count)
  (List.range count).foldl (fun s i =>
    let e : DWord := BitVec.ofNat 64 (natOf (s.homeBytes (base + 8 * i) 8))
    s.gaStore 224 (base + 8 * i) (bytesOf 8 (setFld 8 2 d e).toNat)) s

/-- Steps 2 to 4 of CLAIM (08 R156): guest copies go, every leaf takes the new home, every TLB drops the range; `hardware` is false where
system software has rewritten the leaves (12 R229). -/
def State.rehome (s : State) (who : Who) (asid lo len : Nat) (hardware : Bool) : State :=
  let s := { s with mem := { s.mem with moving := s.mem.moving.filter fun m => !(m.who == who && m.asid == asid && m.lo == lo) } }
  let s := (s.rangeLeaves asid lo len).foldl (fun s p =>
    let a := p.2.2.phys
    let m := (s.mem.setViews 0 a p.2.1 fun _ => none).setViews 1 a p.2.1 fun _ => none
    let keep (l : List Nat) := l.filter fun x => decide (x * 128 + 128 ≤ a) || decide (a + p.2.1 ≤ x * 128)
    let s := { s with mem := (m.setGuests 0 (keep m.guests0)).setGuests 1 (keep m.guests1) }
    if hardware then s.rewriteHome p.2.2 (dieOf who.core) else s) s
  s.tlbDrop fun t => t.asid == asid && decide (t.base < lo % 2 ^ 57 + len) && decide (lo % 2 ^ 57 < t.base + t.size)

/-- What the parties of a core have under way. -/
def Core.flights (k : Core) : List Flight :=
  (k.warps.filterMap (·.2)).map (·.flight) ++ k.landing.toList.map (·.flight) ++ k.blocks.filterMap fun e => (e.2.bind (·.front)).map (·.flight)

/-- A store of a queue, or a request of an engine, that was translated before is still to be performed at physical bytes. -/
def State.translatedAt (s : State) (a n : Nat) : Bool :=
  let at_ (b m : Nat) : Bool := decide (b < a + n) && decide (a < b + m)
  s.cores.any fun e => (e.2.flights.any fun f => f.sq.ents.any fun q => !q.scratch && !q.lost && at_ q.addr q.bytes.length) ||
    e.2.cmds.any fun x => x.flight.any fun r => r.peer.isNone && at_ r.phys r.n

/-- The range of a CLAIM has no access under way and no message on the link: its dirty lines can be written back. -/
def State.claimQuiet (s : State) (asid lo len : Nat) : Bool :=
  !((s.rangeLeaves asid lo len).any fun p => s.linkBusy p.2.2.phys p.2.1 || s.translatedAt p.2.2.phys p.2.1)

/-! The operand log (08 R154) -/

/-- The scoreboard that an instruction names. -/
def sbOf : Instr → Nat
  | .ld o | .lds o | .ldc o | .st o => o.sb.toNat
  | .atom o | .red o | .atoms o => o.sb.toNat
  | .claim _ _ _ sb => sb.toNat
  | _ => 0

/-- PERFORM A MEMORY INSTRUCTION on its captured operands; `replay`: from the log. A MIGR of the log translates its address and issues
again. -/
def State.perform (s : State) (b : Block) (op : MemOp) (replay : Bool) : Perf :=
  match (if replay then none else s.begunStore op) with
  | some p => p
  | none =>
  match op.ins with
  | .ld o => s.doLd b op o
  | .lds o => s.doLds b op o
  | .ldc o => s.doLdc b op o
  | .st o => s.doSt b op o o.sb.toNat replay
  | .sts o => s.doSts b op o replay
  | .stmc o => s.doStmc b op o replay
  | .atom o => s.doAtom b op o
  | .atoms o => s.doAtoms b op o
  | .red o => s.doRed b op o o.sb.toNat replay
  | .disc _ _ _ => s.doDisc b op
  | .claim _ _ _ _ => s.doClaim b op
  | .migr _ =>
    match s.translateAll op b.dealt.asid .load op.ops with
    | .error t => .log t (s.pagesOf b.dealt.asid (op.ops.map (·.addr)))
    | .ok _ => .ok (s.updWarp op.who fun w => w.mapGang fun x => { x with pc := op.pc }) .nothing []
  | _ => .ok s .nothing []

/-- The lanes of a list of register keys in which register r is named. -/
def keyLanes (vals : List (Nat × DWord)) (r : Nat) : BitVec 32 := maskOf 32 fun l => vals.any fun e => e.1 == 32 * r + l

/-- Values reach their registers (03 R53): a resident name takes them in its entry, another in the frame. -/
def Warp.arriveOc (w : Warp) (dst : List Nat) (h : Hint) (vals : List (Nat × DWord)) : Warp :=
  dst.foldl (fun x n =>
    let x := x.notePrev w (keyLanes vals n) n
    if x.oc.any (·.name == n) then { x with oc := (ocWrite ⟨x.oc, []⟩ (lanesOf w.regs n) n h).oc } else x) w

def State.arrive (s : State) (who : Who) (dst : List Nat) (h : Hint) (vals : List (Nat × DWord)) : State :=
  match who.party with
  | .front b => s.updFront who.core b fun f => vals.foldl (fun f e => f.setX s e.1 e.2) f
  | .matrix _ => s
  | _ => s.updWarp who fun w =>
    w.keepBad (vals.foldl (fun w e => w.setX s (e.1 / 32) (e.1 % 32) (e.2.setWidth 32)) (w.arriveOc dst h vals)) []

/-- The destination registers of a memory instruction. -/
def dstOf (c : Cls) (i : Instr) : List Nat := ((i.use c).dst.flatMap fun r => span r.r r.n).filter fun n => c == .front || n != 0

/-- What a performed instruction leaves: a result in flight, or a counted entry; one without a scoreboard lands as its word completes.
`counted`: its scoreboard already counts it (a replay). A CLAIM is in flight until its lines are written back, with or without one. -/
def State.settleMem (s : State) (op : MemOp) (counted : Bool) (f : Fate) : State :=
  let sb := sbOf op.ins
  let dst := dstOf (partyCls op.who.party) op.ins
  let count (s : State) : State := if sb = 0 || counted then s else s.updFlight op.who (·.addSb sb)
  let fly (s : State) (r : Result) : State := (count s).updFlight op.who fun f => { f with results := f.results ++ [r] }
  match f with
  | .nothing => if counted then s.updFlight op.who (·.subSb sb) else s
  | .queued => count s
  | .vals vs => if sb = 0 && counted then s.arrive op.who dst .none vs else fly s ⟨sb, dst, .none, vs, none⟩
  | .claim asid lo len => fly s ⟨sb, [], .none, [], some (asid, lo, len)⟩

def State.logEnt (s : State) (core ix : Nat) : Option LogEnt := Tbl.get none (s.core core).log ix
/-- The log entries of a party, lowest index first. -/
def State.logOf (s : State) (w : Who) : List Nat := (s.core w.core).log.filterMap fun (ix, e) => if (e.map (·.op.who)) == some w then some ix else none
/-- The log entry whose trap the party's handler is handling: delivered once, it makes no word of the handler wait (08 R154). -/
def State.handled (s : State) (w : Who) : Option Nat := (s.warp w).bind fun x => x.handler.bind fun h => h.info.log
/-- An entry holds the STATLIMIT of an instruction that has been performed (06 R118). -/
def State.isStat (s : State) (core ix : Nat) : Bool := match s.logEnt core ix with | some e => e.cause == .statLimit | none => false
/-- The log entries that the party's words may have to wait on. -/
def State.owed (s : State) (w : Who) : List Nat := (s.logOf w).filter fun ix => s.handled w != some ix && !s.isStat w.core ix
/-- The entry that the party's next word waits on: one without a scoreboard (08 R154), or the STATLIMIT of an instruction that the device
performed after its word, which is not taken at handler level (entry 45). A store that has begun goes on. -/
def State.nextWaits (s : State) (w : Who) : Option Nat :=
  if (s.flight w).begun (s.pcOf w) then none
  else match (s.flight w).waitLog.filter fun ix => s.handled w != some ix with
    | some ix => some ix
    | none => if s.atHandler w then none else (s.logOf w).find? fun ix => s.isStat w.core ix
/-- The fault that an entry delivers at the word that waits on it: of STATLIMIT, with its class index. -/
def LogEnt.trap (e : LogEnt) (ix : Nat) : TrapArgs :=
  if e.cause = .statLimit then ⟨.statLimit, 0, e.addr.toNat, e.lanes, false, false, some ix⟩
  else ⟨e.cause, e.addr, 0, e.lanes, e.cause != .poison, e.mig, some ix⟩
def State.setLog (s : State) (core ix : Nat) (e : Option LogEnt) : State :=
  s.updCore core fun k => { k with log := Tbl.set none k.log ix e }
/-- The free entries of a core's operand log; a new entry takes one of them. -/
def State.freeLogs (s : State) (core : Nat) : List Nat := (List.range 16).filter fun ix => (s.logEnt core ix).isNone
def State.newLog (s : State) (core : Nat) : Nat := ((chooseFrom (s.places 0) 1 (s.freeLogs core)).head?).getD 0

/-- The entry of a logged fault is no more: the party no longer waits on it. -/
def State.dropLog (s : State) (core ix : Nat) : State :=
  match s.logEnt core ix with
  | none => s
  | some e => (s.setLog core ix none).updFlight e.op.who fun f => { f with waitLog := if f.waitLog == some ix then none else f.waitLog }

/-- ERET.resume or a FRESUME resume of a logged fault (12 R227): the entry is freed and its scoreboard counts down. -/
def State.freeEntry (s : State) (core ix : Nat) : State :=
  match s.logEnt core ix with
  | none => s
  | some e => if e.cause = .statLimit then s.dropLog core ix else (s.dropLog core ix).updFlight e.op.who (·.subSb (sbOf e.op.ins))

/-- With FMODE bit 285 set, CLAIM leaves the leaves to system software (12 R229): it posts its record and parks with its range. `at_` is its
address, `pc` where a replay goes on, `next` where a resume does. -/
def State.parkClaim (s : State) (w : Who) (at_ pc next : DWord) (asid lo len : Nat) : State :=
  let t : TrapArgs := ⟨.migrating, BitVec.ofNat 64 lo, (s.rangeLeaves asid lo len).length, 0, false, false, none⟩
  (s.takeTrapAt w at_ pc next t).updWarp w fun x => { x with park := x.park.map fun i => { i with claim := some (asid, lo, len) } }

/-- A RATOM is issued once more, with its range lock (06 R118, 23 R371). -/
def State.issueAgain (s : State) (core : Nat) (x : Cmd) : State :=
  let x := { x with seq := s.seq }
  let l : Lock := ⟨some x.seq, x.blk, true, 0, x.soff, x.soff + 32, true⟩
  { s with seq := s.seq + 1 }.updCore core fun k => { k with cmds := k.cmds ++ [x], locks := k.locks ++ [l] }

/-- A REPLAY FROM THE LOG: performed, or logged again; none while it must wait. A word whose replay raises STATLIMIT keeps its entry, which its
party takes at its next word, and which is then replayed or freed as the trap ends (06 R118, entry 45). -/
def State.replayLog (s : State) (core ix : Nat) : Option State :=
  match s.logEnt core ix with
  | none => some s
  | some e =>
    match s.blockOf e.op.who, e.cmd with
    | none, _ => some (s.setLog core ix none)
    | some _, some x => some ((s.dropLog core ix).issueAgain core x)
    | some b, none =>
      let again (s : State) (t : TrapArgs) (pages : List (Nat × Nat)) : State :=
        s.setLog core ix (some ⟨e.op, t.cause, t.addr, t.lanes, t.mig, pages, none⟩)
      let w := e.op.who
      match s.perform b e.op true with
      | .ok s (.claim asid lo len) _ =>
        if s.effFmode 285 b.dealt.region then
          let s := s.holdRange w asid lo len
          if s.claimQuiet asid lo len then some (((s.dropLog core ix).settleMem e.op true .nothing).parkClaim w e.op.pc (s.pcOf w) (s.pcOf w) asid lo len)
          else some (s.setLog core ix (some { e with cause := .migrating }))
        else some ((s.dropLog core ix).settleMem e.op true (.claim asid lo len))
      | .ok s f evs =>
        let s := if e.cause = .statLimit && sbOf e.op.ins != 0 then s.updFlight w (·.addSb (sbOf e.op.ins)) else s
        match (s.settleMem e.op true f).countEvents w b e.op.pc evs with
        | (s, some (lane, ev)) =>
          some ((s.dropLog core ix).setLog core ix (some { e with cause := .statLimit, addr := BitVec.ofNat 64 ev.idx, lanes := 1#32 <<< lane, pages := [] }))
        | (s, none) => some (s.dropLog core ix)
      | .wait => none
      | .hold s => some (s.setLog core ix (some { e with cause := .migrating }))
      | .trap s t => some (again s t e.pages)
      | .log t pages => some (again s t pages)

/-- The device replays the instructions of a core that a CLAIM held (08 R154, R156), where they can be performed now. -/
def State.sweepLog (s : State) (core : Nat) : State :=
  (List.range 16).foldl (fun s ix =>
    match s.logEnt core ix with
    | some e => if e.cause = .migrating then (s.replayLog core ix).getD s else s
    | none => s) s
def State.sweepLogs (s : State) : State := (s.cores.map (·.1)).foldl State.sweepLog s

/-- A logged instruction that every later access of its party waits on: an acquire (09 R162) or an atomic (R165). -/
def holdsLater : Instr → Bool
  | .ld o | .lds o => isAcq o.order
  | .atom _ | .atoms _ => true
  | _ => false

/-- A later access of a party that must wait on a logged instruction (08 R154): to one of its pages, ordered after it, or behind an acquire
or an atomic. -/
def State.mustWait (s : State) (w : Who) (ordered : Bool) (spans : List (Nat × Nat)) : Option Nat :=
  (s.owed w).find? fun ix =>
    match s.logEnt w.core ix with
    | some e => ordered || holdsLater e.op.ins || e.pages.any fun p => spans.any fun q => decide (0 < q.2) && decide (q.1 % 2 ^ 57 < p.1 + p.2) && decide (p.1 < q.1 % 2 ^ 57 + q.2)
    | none => false

end Sys2Proof.Machine
end

