-- ==== Sys2Proof/Machine/Issue.lean ====
section
/-! DEFINITION. The issue of a word: the checks of 04 R85, the waits on logged instructions (08 R154), the token payment (11 R208 to R210),
the word's own effect, and where the party goes on (04 R66, R67; 02 R35, R37). Every meaning of a word is one call of `State.issue`. -/

namespace Sys2Proof.Machine

/-- The outcome of a step. -/
abbrev Out := Host.Outcome State Fault Refusal

/-- What a word sees: its party and class, the block, its address and the address of the next word, whether it is the clause's last
word and whether the clause's end is a switch point, whether it is the first or the second word of a pair, the active lanes and those
whose guard is true. -/
structure Ctx where
  who : Who
  cls : Cls
  blk : Block
  pc : DWord
  next : DWord
  last : Bool
  y : Bool
  first : Bool
  second : Bool
  active : BitVec 32
  exec : BitVec 32
  deriving DecidableEq, Repr

/-- How a word that completes leaves its clause: it goes on; it ends the clause (FENCE, EXIT); it ends it at a switch point (YIELD); it
is a switch point that leaves the clause in force when the gang stays (ATOM). -/
inductive Fin | go | close | yield | switch
  deriving DecidableEq, Repr

/-- What the effect of a word comes to. -/
inductive Res
  /-- it completed -/
  | done (s : State) (f : Fin)
  /-- it transfers control: each lane's target and call depth, none for the next word; `sw`: a switch point -/
  | jump (s : State) (t : Nat → Option (DWord × Nat)) (sw : Bool)
  /-- it traps before its effect -/
  | trap (s : State) (t : TrapArgs)
  /-- the fault of a log entry is delivered (08 R154) -/
  | deliver (s : State) (ix : Nat)
  /-- STATLIMIT after its effect (06 R118) -/
  | after (s : State) (t : TrapArgs)
  /-- it waits and is issued again; `sw`: parked at a switch point (02 R37) -/
  | wait (s : State) (sw : Bool)
  /-- the party stands where the word has put it, or is gone -/
  | left (s : State)

/-! Clauses -/

/-- COUNT, FILLN, WAIT and Y of a header (04 Table 1). -/
def hdrCount (h : DWord) : Nat := fld 54 4 h
def hdrPairs (h : DWord) : Nat := fld 47 7 h
def hdrWait (h : DWord) : Nat := fld 41 6 h
def hdrFilln (h : DWord) : Nat := fld 38 3 h
def hdrY (h : DWord) : Bool := flag 13 h
def hdrClass (h : DWord) : Nat := fld 58 2 h

/-- The address of the word after the one at pc in a clause of n words (04 R66). -/
def nextWord (pc : DWord) (n : Nat) : DWord :=
  let k := pc.toNat % 128 / 8
  if k < n then pc + 8 else BitVec.ofNat 64 ((pc.toNat / 128 + 1) * 128 + 8)

/-- Whether word k of a clause is the second, or the first, of a pair (04 R64, R82). -/
def isSecond (h : DWord) (k : Nat) : Bool := k % 2 == 1 && k ≥ 3 && (hdrPairs h).testBit ((k - 3) / 2)
def isFirst (h : DWord) (k : Nat) : Bool := k % 2 == 0 && k ≥ 2 && (hdrPairs h).testBit ((k - 2) / 2)

def State.clauseOf (s : State) (w : Who) : Option Clause :=
  match w.party with
  | .front b => ((s.block w.core b).bind (·.front)).bind (·.clause)
  | .matrix b => ((s.block w.core b).bind (·.matrix)).bind (·.clause)
  | _ => (s.warp w).bind (·.clause)

def State.setClause (s : State) (w : Who) (c : Option Clause) : State :=
  match w.party with
  | .front b => s.updFront w.core b fun x => { x with clause := c }
  | .matrix b => s.updMatrix w.core b fun x => { x with clause := c }
  | _ => s.updWarp w fun x => { x with clause := c }

/-- Whether a party exists and may issue: not parked, not ended, not away. -/
def State.runnable (s : State) (w : Who) : Bool :=
  match w.party with
  | .front b => match (s.block w.core b).bind (·.front) with | some f => f.park.isNone && !f.ended | none => false
  | .matrix b => match (s.block w.core b).bind (·.matrix) with | some m => m.park.isNone && m.running | none => false
  | _ => match s.warp w with | some x => x.park.isNone && x.away.isNone && x.active != 0 | none => false

/-- The active lanes of a party: bit 0 for a front end or a matrix stream. -/
def State.activeOf (s : State) (w : Who) : BitVec 32 :=
  match w.party with
  | .front _ | .matrix _ => 1
  | _ => ((s.warp w).map (·.active)).getD 0

/-- The lanes in which a guard is true (04 R70). -/
def State.guarded (s : State) (w : Who) (g : Guard) : BitVec 32 :=
  match w.party with
  | .matrix _ => 1
  | .front b => match (s.block w.core b).bind (·.front) with | some f => if f.p g.p.toNat != g.n then 1 else 0 | none => 0
  | _ => match s.warp w with
    | some x => maskOf 32 fun l => x.active.getLsbD l && x.p g.p.toNat l != g.n
    | none => 0

/-- What a word sees, where its party may issue. -/
def State.ctx (s : State) (w : Who) (g : Guard) : Option Ctx :=
  match s.blockOf w with
  | none => none
  | some b =>
    if !s.runnable w then none
    else
      let pc := s.pcOf w
      let h := ((s.clauseOf w).map (·.hdr)).getD 0x03C0000000000000#64
      let k := pc.toNat % 128 / 8
      some ⟨w, partyCls w.party, b, pc, nextWord pc (hdrCount h), decide (k ≥ hdrCount h), hdrY h, isFirst h k, isSecond h k,
        s.activeOf w, s.guarded w g⟩

/-- The lowest active and the lowest executing lane. -/
def lowest (m : BitVec 32) : Nat := ((onesOf m).head?).getD 0
def Ctx.lane0 (c : Ctx) : Nat := lowest c.active

/-- The core and block slot of a word's block. -/
def State.bcore (s : State) (c : Ctx) : Nat := (s.home c.who).1
def State.bslot (s : State) (c : Ctx) : Nat := (s.home c.who).2
/-- Change the block of a word. -/
def State.updB (s : State) (c : Ctx) (f : Block → Block) : State := s.updBlock (s.bcore c) (s.bslot c) f
/-! Where the party goes on -/

/-- A switch point inside a clause (02 R37): the clause stays in force when the gang and its place stay the same. DESIGN CHOICE (entry 46):
another gang enters a clause of its own, so that the interrupted one ends there and its pins are cleared (03 R48). -/
def Warp.switchPoint (w : Warp) : Warp :=
  let x := w.boundary true
  if x.gang == w.gang && x.slices == w.slices then { w with waits := x.waits } else x

/-- The party goes on at the next word (04 R66, R67). -/
def State.goOn (s : State) (c : Ctx) (f : Fin) : State :=
  let ends := c.last || f == .close || f == .yield
  match c.who.party with
  | .front b => s.updFront c.who.core b fun x => { x with pc := c.next, arr := none, clause := if ends then none else x.clause }
  | .matrix b => s.updMatrix c.who.core b fun x => { x with pc := c.next, arr := none, clause := if ends then none else x.clause }
  | _ => s.updWarp c.who fun x =>
    let x := x.mapGang fun sl => { sl with pc := c.next, arr := none }
    if ends || x.active == 0 then x.boundary (c.y || f == .yield || f == .switch)
    else if f == .switch then x.switchPoint else x

/-- The split entries of slice k that a trap recorded (12 R227). They stand below what the handler pushes, in the same stack (entry 40). -/
def Warp.recorded (w : Warp) (k : Nat) : List Split :=
  match w.handler with
  | some h => if h.gang.getLsbD k then ((h.slices[k]?).map (·.stack)).getD [] else []
  | none => []

/-- The slices with their whole split stacks. -/
def Warp.stacks (w : Warp) : List Slice :=
  (List.range w.slices.length).zipWith (fun k x => { x with stack := x.stack ++ w.recorded k }) w.slices

/-- The entries that stand in the frame headers, in the order in which they were spilled (02 R33). -/
def Slice.spilled (x : Slice) : List Split := (x.stack.drop 4).reverse
def Warp.spilled (w : Warp) (k i : Nat) : Option Split := ((w.stacks[k]?).map Slice.spilled).bind (·[i]?)

/-- The entries of a split stack beyond the 4 that a slice holds itself stand in the frame headers of its threads (02 R33): the most that
have stood there. -/
def noteHeaders (sl : List Slice) (t : Tbl Nat) : Tbl Nat :=
  (List.range sl.length).foldl (fun t k => match sl[k]? with
    | some x => Tbl.set 0 t k (max (Tbl.get 0 t k) (x.stack.length - 4))
    | none => t) t

/-- A control transfer (02 R32, R36; 04 R67). An entry that is spilled writes its words of the header whole (12 R241). -/
def Warp.transfer (w : Warp) (c : Ctx) (t : Nat → Option (DWord × Nat)) : Warp :=
  let sl := (List.range w.slices.length).zipWith (fun k x =>
      if w.gang.getLsbD k then x.branch fun b => (t (4 * k + b)).getD (c.next, x.depth) else x) w.slices
  let x := { w with slices := sl }
  { x with
    headers := noteHeaders x.stacks w.headers
    hdrBad := Tbl.drop w.hdrBad fun q =>
      (x.spilled (q / 64) (q % 64 / 4)).isSome && x.spilled (q / 64) (q % 64 / 4) != w.spilled (q / 64) (q % 64 / 4) }

/-- A clause ends at every taken branch, call and return, one to the following word among them (04 R67). -/
def State.transfer (s : State) (c : Ctx) (t : Nat → Option (DWord × Nat)) (sw : Bool) : State :=
  let ends := c.last || (onesOf c.active).any fun l => (t l).isSome
  match c.who.party with
  | .front b => s.updFront c.who.core b fun x =>
      { x with pc := ((t 0).map (·.1)).getD c.next, depth := ((t 0).map (·.2)).getD x.depth, clause := if ends then none else x.clause }
  | .matrix b => s.updMatrix c.who.core b fun x =>
      { x with pc := ((t 0).map (·.1)).getD c.next, clause := if ends then none else x.clause }
  | _ => s.updWarp c.who fun x =>
    let x := x.transfer c t
    if ends then x.boundary (c.y || sw) else x

/-- The word waits: parked at a switch point, or holding its place. -/
def State.hold (s : State) (c : Ctx) (sw : Bool) : State := if sw then s.updWarp c.who Warp.switchPoint else s

/-- The slices whose split stack a transfer would overflow (02 R34): the lanes of their masks. -/
def Warp.overflow (w : Warp) (c : Ctx) (t : Nat → Option (DWord × Nat)) : BitVec 32 :=
  let x := w.transfer c t
  maskOf 32 fun l => w.gang.getLsbD (l / 4) && match w.slices[l / 4]?, x.slices[l / 4]? with
    | some a, some b => a.mask.getLsbD (l % 4) && decide (b.stack.length + (w.recorded (l / 4)).length > 20)
    | _, _ => false

/-! The operand log -/

/-- A word waits on a logged instruction (08 R154): MIGRATING is replayed by the device once it can be, every other cause is delivered
now. -/
def State.awaitLog (s : State) (core ix : Nat) : Res :=
  match s.logEnt core ix with
  | some e => if s.handled e.op.who = some ix then .wait s false else if e.cause = .migrating then .wait ((s.replayLog core ix).getD s) false else .deliver s ix
  | none => .wait s false

/-! Tokens (11 R208 to R210) -/

/-- TOKCAP.CAP (11 R213). -/
def Die.cap (d : Die) : Nat := min 4096 (fld 0 13 d.tokCap)
def State.cap (s : State) (core : Nat) : Nat := (s.die (dieOf core)).cap
def Tokens.balance (t : Tokens) (r : Nat) : Nat := (Tbl.get none t.bal r).getD 0

/-- The oldest waiting wide request of a region with nonzero effective SHARE (11 R207, R210). -/
def State.oldestWide (s : State) (core : Nat) : Option Wide := (s.core core).tokens.wide.find? fun x => s.mayTake (dieOf core) x.region

/-- A paid request: the warp's word may issue, or the step of the engine starts. -/
def State.markPaid (s : State) (w : Who) : State :=
  match w.party with
  | .matrix b => s.updMatrix w.core b fun m => { m with steps := m.steps + 1 }
  | _ => s.updWarp w fun x => { x with paid := true }

/-- Who asks: 0 the engine, 1 to 4 the schedulers (02 R28: slot number mod 4). PRESUMED (entry 11): a landed warp's scheduler, which the spec
does not name, is a fifth. -/
def payer : Party → Nat
  | .matrix _ => 0
  | .warp n => 1 + n % 4
  | .front n => 1 + n % 4
  | .landing => 5

/-- A cluster cycle lies in the droop window. -/
def Cluster.inWindow (x : Cluster) (n : Nat) : Bool := decide (x.since ≤ n) && decide (n < x.until_)

/-- Whether a scheduler, or the engine, may be paid in the open cluster cycle (11 R209, R214): once in a cycle; of the cycles of a droop window
a scheduler in one of any two consecutive ones, the engine in one of any 16. -/
def State.payerFree (s : State) (core : Nat) (p : Party) : Bool :=
  let x := s.cluster (clusterOf core)
  let last := Tbl.get 0 (s.core core).tokens.last (payer p)
  let gap := if x.inWindow x.cycle && decide (x.since < last) then (if payer p = 0 then 16 else 2) else 1
  decide (0 < x.open_) && (last == 0 || decide (last + gap ≤ x.cycle + 1))

/-- The request that a core is in hold for, where its region may take. PRESUMED (entry 11): one whose region's SHARE has become 0 meanwhile
holds no other back (11 R207). -/
def State.heldReq (s : State) (core : Nat) : Option Wide :=
  let t := (s.core core).tokens
  t.hold.bind fun w => t.wide.find? fun x => x.who == w && s.mayTake (dieOf core) x.region

/-- Pay one waiting request where its account covers it, its scheduler has not been paid in this cluster cycle, and no hold of an older
request forbids it (11 R209, R210). Hold ends as its request is paid. -/
def State.payOne (s : State) (core : Nat) (x : Wide) : State :=
  let t := (s.core core).tokens
  let barred := match s.heldReq core with | some h => h != x && decide (t.wide.idxOf x > t.wide.idxOf h) | none => false
  if barred || decide (t.balance x.region < x.price) || !s.payerFree core x.who.party then s
  else
    let s := s.updCore core fun k =>
      { k with tokens := { k.tokens with
          bal := Tbl.set none k.tokens.bal x.region (some (k.tokens.balance x.region - x.price))
          wide := k.tokens.wide.filter (· != x)
          hold := if k.tokens.hold == some x.who then none else k.tokens.hold
          last := Tbl.set 0 k.tokens.last (payer x.who.party) ((s.cluster (clusterOf core)).cycle + 1) } }
    s.markPaid x.who

/-- In a cluster cycle the core pays its waiting requests oldest first (11 R209). -/
def State.payWide (s : State) (core : Nat) : State := (s.core core).tokens.wide.foldl (fun s x => s.payOne core x) s

/-- A wide request becomes waiting: kept by age, among equals the engine first, then the schedulers (11 R209). -/
def insertWide (x : Wide) : List Wide → List Wide
  | [] => [x]
  | y :: ys =>
    if x.age < y.age || (x.age == y.age && decide (payer x.who.party < payer y.who.party)) then x :: y :: ys else y :: insertWide x ys

def State.requestWide (s : State) (w : Who) (price region : Nat) : State :=
  if (s.core w.core).tokens.wide.any (·.who == w) then s
  else s.updCore w.core fun k =>
    { k with tokens := { k.tokens with wide := insertWide ⟨w, price, region, (s.die (dieOf w.core)).mint.cycle⟩ k.tokens.wide } }

/-- A party leaves the list of waiting requests; hold ends with the request it was for (11 R210). -/
def State.dropWide (s : State) (w : Who) : State :=
  s.updCore w.core fun k => { k with tokens := { k.tokens with
    wide := k.tokens.wide.filter (·.who != w), hold := if k.tokens.hold == some w then none else k.tokens.hold } }

def State.isPaid (s : State) (w : Who) : Bool := ((s.warp w).map (·.paid)).getD false

/-- The payment of a lane word (11 R208, R209): a word whose price the core has paid in a cluster cycle issues; another becomes, or stays, a
waiting request. The result says whether the word may issue. -/
def State.pay (s : State) (c : Ctx) (price : Nat) : State × Bool :=
  if price = 0 || c.cls != .lane then (s, true)
  else if s.isPaid c.who then (s.updWarp c.who fun x => { x with paid := false }, true)
  else (s.requestWide c.who price c.blk.dealt.region, false)

/-- A word that has been paid for and waits keeps its payment: it is charged once (11 R208). -/
def State.keepPaid (s : State) (c : Ctx) (price : Nat) : State :=
  if price = 0 || c.cls != .lane then s else s.updWarp c.who fun x => { x with paid := true }

/-! The issue -/

/-- The token price of a word (04 R84, 05 R95): the engine's steps pay on their own. -/
def priceOf : Instr → Nat
  | .fadd m _ | .fsub m _ | .fmul m _ | .ffma m _ | .fscale m _ | .frnd m _ => if m.t = .f64 then 3 else 1
  | .fmin t _ | .fmax t _ | .fset t _ _ _ | .fclass t _ => if t = .f64 then 3 else 1
  | .fdiv m _ => if m.t = .f64 then 6 else 2
  | .fsqrt m _ => if m.t = .f64 then 3 else 2
  | .frcp _ _ | .frsq _ _ | .fexp2 _ _ | .flog2 _ _ | .fsin _ _ | .fcos _ _ | .ftanh _ _ => 2
  | .cvt _ _ _ _ _ | .pk8 _ _ _ _ | .upk8 _ _ | .pk4 _ | .upk4 _ | .qscl _ _ | .scac _ | .redux _ _ | .scan _ _ => 1
  | .shfl _ _ _ _ | .matchLanes _ _ | .stmc _ => 2
  | _ => 0

/-- The words that only handler level may execute (05 R97). -/
def privileged (i : Instr) : Bool :=
  match i with
  | .eretReplay | .eretResume | .tlbinv _ _ _ _ | .tlbinvAsid _ _ _ | .tlbinvAll _ _ | .probe _ _ _ | .probeAs _ _ _ _
  | .wsave _ _ _ | .wsaveFrame _ _ _ | .wload _ _ _ | .wloadFrame _ _ _ => true
  | _ => false

/-- Steps 2, 3, 5, 6 and 7 of 04 Table 14 on a decoded word, in order; AUX of TOKENCAP is the price (12 Table 1). A word whose price is
paid has passed step 7 (11 R208). DEDUCED (entry 32). -/
def State.issueTrap (s : State) (c : Ctx) (i : Instr) (op price : Nat) : Option TrapArgs :=
  let no (x : Cause) (aux : Nat) : Option TrapArgs := some (TrapArgs.of x 0 aux c.active)
  let frame := match s.warp c.who with | some w => w.frame | none => 256
  if !acceptsOp c.cls op then no .engine 0
  else if !i.legalIn c.cls then no .illegal 0
  else if c.cls == .lane && (i.use c.cls).beyond frame then no .frameBound 0
  else if privileged i && !s.atHandler c.who then no .privDeny 0
  else if c.cls == .lane && !s.isPaid c.who && decide (price > s.cap c.who.core) then no .tokenCap price
  else none

/-- The operand cache after a word of a warp (03 R44 to R51). -/
def State.cacheWord (s0 s : State) (c : Ctx) (u : Use) : State :=
  match s0.warp c.who with
  | some w0 => s.updWarp c.who fun x => x.cacheWord s0 u c.exec w0
  | none => s

/-- The end of a pair: STATLIMIT of its first word is taken after both, with that word as the trapping one (06 R118). -/
def State.pairDone (s : State) (c : Ctx) : State :=
  match (s.warp c.who).bind (·.due) with
  | some (at_, e, lanes) =>
    (s.updWarp c.who fun x => { x with due := none }).takeTrapAt c.who at_ at_ c.next (TrapArgs.of .statLimit 0 e lanes)
  | none => s

/-- The values of a word that names no scoreboard reach their registers as it completes: after its reads have passed through the cache, so
that a name that it fills is resident (03 R45, R53). Those of the word are the results that s0, the state before its effect, did not have. -/
def State.landNow (s0 s : State) (w : Who) : State :=
  let now (r : Result) : Bool := r.sb == 0 && r.claim.isNone
  let n := (s0.flight w).results.length
  let new := (s.flight w).results.drop n
  if (new.filter now).isEmpty then s
  else (new.filter now).foldl (fun s r => s.arrive w r.dst r.hint r.vals)
    (s.updFlight w fun f => { f with results := f.results.take n ++ new.filter (!now ·) })

/-- The party stands after, or still at, its word. -/
def State.settleRes (s0 : State) (c : Ctx) (u : Use) : Res → State
  | .done s f =>
    let s := s0.landNow (s0.cacheWord s c u) c.who
    if c.second && ((s.warp c.who).bind (·.due)).isSome then s.pairDone c else s.goOn c f
  | .jump s t sw =>
    let deep := match s.warp c.who with | some w => w.overflow c t | none => 0
    if deep != 0 then s0.takeTrap c.who c.pc c.next (TrapArgs.of .divDepth 0 0 deep) else (s0.cacheWord s c u).transfer c t sw
  | .trap s t => s.takeTrap c.who c.pc c.next t
  | .deliver s ix =>
    match s.logEnt c.who.core ix with
    | some e => s.takeTrap c.who e.op.pc c.next (e.trap ix)
    | none => s
  | .after s t =>
    let s := s0.landNow (s0.cacheWord s c u) c.who
    if c.first then (s.updWarp c.who fun x => { x with due := some (c.pc, t.aux, t.lanes) }).goOn c .go
    else (s.updWarp c.who fun x => { x with due := none }).takeTrap c.who c.pc c.next t
  | .wait s sw => s.hold c sw
  | .left s => s

/-- The party's next word waits for a CLAIM that names no scoreboard (20 R302). -/
def State.claimWaits (s : State) (w : Who) : Bool := (s.flight w).results.any fun r => r.sb == 0 && r.claim.isSome

/-- THE ISSUE OF A WORD: an entry of the log that the party must wait on, or a CLAIM of its own, the issue checks, the payment, poison of the registers it reads, and
then its effect where some lane executes it (04 R70, R85). -/
def State.issue (s : State) (i : Instr) (op : Nat) (g : Guard) (k : Ctx → State → Res) : Out :=
  match s.ctx s.cur g with
  | none => .next s
  | some c =>
    let s := s.tick
    match s.nextWaits c.who with
    | some ix => .next (s.settleRes c .none (s.awaitLog c.who.core ix))
    | none =>
      if s.claimWaits c.who then .next s
      else
      match s.issueTrap c i op (priceOf i) with
      | some t => .next ((s.dropWide c.who).takeTrap c.who c.pc c.next t)
      | none =>
        let (s, ok) := s.pay c (priceOf i)
        if !ok then .next s
        else if c.exec == 0 then .next (s.settleRes c .none (.done s .go))
        else
          let u := i.use c.cls
          match (s.warp c.who).bind (·.poisoned u c.exec) with
          | some lanes => .next (s.takeTrap c.who c.pc c.next (TrapArgs.of .poison 0 0 lanes))
          | none =>
            match k c s with
            | .wait t sw => .next ((t.keepPaid c (priceOf i)).hold c sw)
            | r => .next (s.settleRes c u r)

/-- A word that fails step 1, 2 or 3 of 04 Table 14 as it is decoded. -/
def State.refuse (s : State) (x : Cause) : Out :=
  match s.ctx s.cur ⟨0, false⟩ with
  | none => .next s
  | some c =>
    match s.nextWaits c.who with
    | some ix => .next (s.settleRes c .none (s.awaitLog c.who.core ix))
    | none => if s.claimWaits c.who then .next s else .next (s.takeTrap c.who c.pc c.next (TrapArgs.of x 0 0 c.active))

/-- A completed word with its events: STATLIMIT follows the effect (06 R118). -/
def Res.counted (s : State) (c : Ctx) (evs : List (Nat × Ev)) (f : Fin) : Res :=
  match s.countEvents c.who c.blk c.pc evs with
  | (s, some (lane, e)) => .after s (TrapArgs.of .statLimit 0 e.idx (1#32 <<< lane))
  | (s, none) => .done s f

/-- FPTRAP (06 R106): the lanes with an element that traps, and the events of those elements alone. -/
def Res.fpTrap (s : State) (c : Ctx) (lanes : BitVec 32) (evs : List (Nat × Ev)) (addr : DWord) : Res :=
  .trap (s.countEvents c.who c.blk c.pc evs).1 (TrapArgs.of .fpTrap addr 0 lanes)

/-! Registers of a word's party -/

/-- Register r of a lane, as 64 bits; s[r] in a front clause. -/
def State.get (s : State) (c : Ctx) (r l : Nat) : DWord :=
  match c.who.party with
  | .front b => match (s.block c.who.core b).bind (·.front) with | some f => f.x s r | none => 0
  | .matrix _ => 0
  | _ => match s.warp c.who with | some w => (w.x s r l).setWidth 64 | none => 0

/-- A 64-bit operand: a pair of a lane, or s[r]. -/
def State.get64 (s : State) (c : Ctx) (r l : Nat) : DWord :=
  match c.who.party with
  | .front _ => s.get c r l
  | _ => match s.warp c.who with | some w => w.x64 s r l | none => 0

/-- Write the low bits of a value to register r of each lane of a mask; s[r] in a front clause. -/
def State.put (s : State) (c : Ctx) (m : BitVec 32) (r : Nat) (v : Nat → DWord) : State :=
  match c.who.party with
  | .front b => s.updFront c.who.core b fun f => f.setX s r (v 0)
  | .matrix _ => s
  | _ => s.updWarp c.who fun w => w.setLanes s m r fun l => (v l).setWidth 32

/-- Write a 64-bit value to a pair of each lane of a mask, or to s[r]. -/
def State.put64 (s : State) (c : Ctx) (m : BitVec 32) (r : Nat) (v : Nat → DWord) : State :=
  match c.who.party with
  | .front _ => s.put c m r v
  | _ => (s.put c m r v).put c m (r + 1) fun l => v l >>> 32

/-- Predicate n of a lane, or q[n]. -/
def State.pred (s : State) (c : Ctx) (n l : Nat) : Bool :=
  match c.who.party with
  | .front b => match (s.block c.who.core b).bind (·.front) with | some f => f.p n | none => false
  | .matrix _ => false
  | _ => match s.warp c.who with | some w => w.p n l | none => false

def State.putPred (s : State) (c : Ctx) (m : BitVec 32) (n : Nat) (v : Nat → Bool) : State :=
  match c.who.party with
  | .front b => s.updFront c.who.core b fun f => f.setP n (v 0)
  | .matrix _ => s
  | _ => s.updWarp c.who fun w => w.setPreds m n v

end Sys2Proof.Machine
end

