-- ==== Sys2Proof/Machine/Control.lean ====
section
/-! DEFINITION. Control words (05 Table 1; 20 R298, R299, R301, R313, R314; 22 R356; 23 R374, R392, R399), and the end of a warp. -/

namespace Sys2Proof.Machine

/-! Branches -/

/-- A word offset as bytes, sign-extended (04 R75). -/
def wordOff (off : BitVec 32) : DWord := (off.signExtend 64) <<< 3

/-- The call depth of a lane's path. -/
def State.depthOf (s : State) (c : Ctx) (l : Nat) : Nat :=
  match c.who.party with
  | .front b => (((s.block c.who.core b).bind (·.front)).map (·.depth)).getD 0
  | .matrix _ => 0
  | _ => (((s.warp c.who).bind fun w => w.slices[l / 4]?).map (·.depth)).getD 0

/-- Entry k of a role table, and the role that its WMAP gives warp w (02 R29). -/
def roleEntry (t : BitVec 512) (k : Nat) : DWord := t.extractLsb' (64 * k) 64
def roleOf (t : BitVec 512) (w : Nat) : Nat := fld (256 + 2 * w) 2 t

/-- WARPS of a block's card (10 Table 1). -/
def Block.warpCount (b : Block) : Nat := fld 368 8 b.dealt.card

/-- The base of the block's code window (02 R36): of its lane entry, or of a role entry that its warps are assigned. -/
def windowBase (b : Block) : DWord :=
  let lane : DWord := b.dealt.card.extractLsb' 0 64
  let roles : BitVec 512 := (b.roles.map (·.table)).getD 0
  let e := if lane != 0 then lane
    else ((List.range b.warpCount).map fun w => roleEntry roles (roleOf roles w)).foldr (fun x y => if x != 0 then x else y) (0 : DWord)
  (e >>> 32) <<< 32

/-- A register-supplied target (20 R299): the window's high half with the low half from the register, or s[a]. -/
def State.target (s : State) (c : Ctx) (a l : Nat) : DWord :=
  if c.cls = .front then s.get c a 0 else windowBase c.blk ||| (s.get c a l &&& 0xFFFFFFFF#64)

/-- The lanes where the condition holds transfer; a taken transfer to the word's own address or below is a switch point (02 R37). -/
def Res.taken (s : State) (c : Ctx) (t : Nat → DWord × Nat) : Res :=
  .jump s (fun l => if c.exec.getLsbD l then some (t l) else none) ((onesOf c.exec).any fun l => decide ((t l).1.toNat ≤ c.pc.toNat))

def execNop (g : Guard) (s : State) : Out := s.issue (.nop g) 0x00 g fun _ s => .done s .go

def execBra (g : Guard) (off : BitVec 32) (s : State) : Out :=
  s.issue (.bra g off) 0x01 g fun c s => Res.taken s c fun l => (c.pc + wordOff off, s.depthOf c l)

def execBrx (a : BitVec 8) (g : Guard) (s : State) : Out :=
  s.issue (.brx a g) 0x02 g fun c s => Res.taken s c fun l => (s.target c a.toNat l, s.depthOf c l)

/-- A call (20 R301, 02 R36): the targets are read, then the link is written; depth 64 traps before any effect. -/
def State.call (s : State) (c : Ctx) (link : Nat) (t : Nat → DWord) : Res :=
  let deep := maskOf 32 fun l => c.exec.getLsbD l && decide (s.depthOf c l ≥ 64)
  if deep != 0 then .trap s (TrapArgs.of .divDepth 0 0 deep)
  else Res.taken (s.put c c.exec link fun _ => c.next) c fun l => (t l, s.depthOf c l + 1)

def execCall (l : BitVec 8) (g : Guard) (off : BitVec 32) (s : State) : Out :=
  s.issue (.call l g off) 0x03 g fun c s => s.call c l.toNat fun _ => c.pc + wordOff off

def execCallx (l a : BitVec 8) (g : Guard) (s : State) : Out :=
  s.issue (.callx l a g) 0x04 g fun c s => s.call c l.toNat fun k => s.target c a.toNat k

def execRet (a : BitVec 8) (g : Guard) (s : State) : Out :=
  s.issue (.ret a g) 0x05 g fun c s =>
    let flat := maskOf 32 fun l => c.exec.getLsbD l && s.depthOf c l == 0
    if flat != 0 then .trap s (TrapArgs.of .retEmpty 0 0 flat)
    else Res.taken s c fun l => (s.target c a.toNat l, s.depthOf c l - 1)

def execYield (g : Guard) (s : State) : Out := s.issue (.yield g) 0x06 g fun _ s => .done s .yield

def execTrap (g : Guard) (imm : BitVec 32) (s : State) : Out :=
  s.issue (.trap g imm) 0x08 g fun c s => .trap s (TrapArgs.of .swTrap 0 imm.toNat c.exec)

def execBkpt (g : Guard) (imm : BitVec 32) (s : State) : Out :=
  s.issue (.bkpt g imm) 0x09 g fun c s => .trap s (TrapArgs.of .bkpt 0 imm.toNat c.exec)

/-! The end of a warp -/

/-- The party of a warp slot and its warp: the landing slot's while the warp is away (08 R157). -/
def State.slotWarp (s : State) (core slot : Nat) : Option (Who × Warp) :=
  match s.warp ⟨core, .warp slot⟩ with
  | some x =>
    match x.away with
    | some l => (s.warp ⟨l, .landing⟩).map fun y => (⟨l, .landing⟩, y)
    | none => some (⟨core, .warp slot⟩, x)
  | none => none

/-- The live warps of a block, by warp number. -/
def State.blockWarps (s : State) (core b : Nat) : List (Who × Warp) :=
  match s.block core b with
  | some x => x.warps.filterMap (s.slotWarp core)
  | none => []

/-- Entries that every live warp has popped retire (02 R27). -/
def State.retireDq (s : State) (core b : Nat) : State :=
  let pos := (s.blockWarps core b).map fun x => x.2.dqPos
  s.updBlock core b fun x =>
    let low := pos.foldl min (x.dqBase + x.dq.length)
    { x with dq := x.dq.drop (low - x.dqBase), dqBase := max low x.dqBase }

/-- The account of a region closes when its last block or landed warp leaves the core (11 R205). -/
def Core.closeAccounts (k : Core) (landed : Option Nat) : Core :=
  let live := (k.blocks.filterMap fun e => e.2.map fun b => b.dealt.region) ++ landed.toList
  { k with tokens := { k.tokens with
      bal := k.tokens.bal.filter fun e => live.contains e.1
      wide := k.tokens.wide.filter fun x => live.contains x.region } }
def State.closeAccounts (s : State) (core : Nat) : State :=
  let landed := (s.core core).landing.bind fun x => (x.origin.bind fun o => s.block o.1 x.blk).map fun b => b.dealt.region
  s.updCore core fun k => k.closeAccounts landed

/-- An account opens with the first block or landed warp of its region on the core, at balance 0 (11 R205). -/
def Core.openAccount (k : Core) (r : Nat) : Core :=
  if (Tbl.get none k.tokens.bal r).isSome then k else { k with tokens := { k.tokens with bal := Tbl.set none k.tokens.bal r (some 0) } }

/-- A party leaves what it waits for: grows and ring cursors, and its log entries. -/
def State.withdraw (s : State) (w : Who) : State :=
  let s := s.dropWide w
  s.updCore w.core fun k =>
    { k with
      pool := { k.pool with grows := k.pool.grows.filter (·.who != w) }
      log := k.log.filter fun e => (e.2.map (·.op.who)) != some w }

/-- The cuts of a frame of f words (03 R40): 32 lanes of 4 bytes each, and 2 KiB of headers. -/
def frameCuts (f : Nat) : Nat := f / 8 + 2

/-- THE END OF A WARP (20 R313): it releases its decision-queue hold, its slot and its frame cuts, and when migrated both slots and
both sets of cuts. -/
def State.endWarp (s : State) (w : Who) : State :=
  match s.warp w, s.blockOf w with
  | some x, some b =>
    let (core, bs) := s.home w
    let slot := match x.origin with | some o => o.2 | none => match w.party with | .warp n => n | _ => 0
    let s := s.withdraw w
    let s := s.poolGive core b.dealt.pool (frameCuts x.frame)
    let s := if x.origin.isSome then (s.poolGive w.core b.dealt.pool (frameCuts x.frame)).setWarp w none else s
    let s := s.setWarp ⟨core, .warp slot⟩ none
    let s := s.updBlock core bs fun y => { y with
      warps := y.warps.filter (· != slot)
      rings := y.rings.map fun e => (e.1, e.2.map fun r => { r with
        waitFree := r.waitFree.filter (·.holder != .warp slot), waitFill := r.waitFill.filter (·.holder != .warp slot) }) }
    let s := s.retireDq core bs
    if x.origin.isSome then s.closeAccounts w.core else s
  | _, _ => s

/-- A waiting word that finds a lost store traps (09 R176). DESIGN CHOICE (entry 26). -/
def Res.ackLost (s : State) (line : Nat) (lanes : BitVec 32) : Res := .trap s (TrapArgs.of .ackLost (BitVec.ofNat 64 line) 0 lanes)

/-- The lanes of a mask end: they leave every active mask (20 R313). -/
def Warp.endLanes (w : Warp) (m : BitVec 32) : Warp :=
  { w with
    alive := w.alive &&& ~~~m
    slices := (List.range w.slices.length).zipWith (fun k x => { x with mask := x.mask &&& ~~~(m.extractLsb' (4 * k) 4) }) w.slices }

/-- What a party's EXIT waits for before it looks for lost stores (20 R313, 02 R26): results in flight, and stores that are neither
performed at their homes nor lost. -/
def State.underWay (s : State) (w : Who) : Bool :=
  let f := s.flight w
  !f.results.isEmpty || f.sq.ents.any (fun e => !(e.lost || e.done || e.acked)) || s.mem.msgs.any fun m => m.who == w && m.kind != .inval

/-- EXIT of a warp's last lanes waits for its scoreboards, its log entries and its stores (20 R313); the entry that its handler was
handling is given up as it ends. -/
def State.exitLast (s : State) (c : Ctx) : Res :=
  match (s.logOf c.who).find? fun ix => s.handled c.who != some ix with
  | some ix => s.awaitLog c.who.core ix
  | none =>
    if s.underWay c.who then .wait s false
    else match s.takeLost c.who anyLost with
    | some (s, line) => Res.ackLost s line c.exec
    | none =>
      let t := match s.handled c.who with | some ix => s.freeEntry c.who.core ix | none => s
      if !(t.flight c.who).sb.isEmpty || !t.storesHome c.who then .wait s false else .left (t.endWarp c.who)

/-- EXIT of a front end waits for the matrix stream, the block's engine commands, and its own stores (20 R314, 02 R26, 09 R173). -/
def State.exitFront (s : State) (c : Ctx) (b : Nat) : Res :=
  let busy := (c.blk.matrix.map (·.running)).getD false || (s.core c.who.core).cmds.any (·.blk == b)
  let f := s.flight c.who
  match (s.logOf c.who).head? with
  | some ix => s.awaitLog c.who.core ix
  | none =>
    if s.underWay c.who then .wait s false
    else match s.takeLost c.who anyLost with
    | some (s, line) => Res.ackLost s line c.exec
    | none =>
      if busy || !f.sb.isEmpty || !s.storesHome c.who then .wait s false
      else .left (s.updFront c.who.core b fun x => { x with ended := true, clause := none })

def execExit (g : Guard) (s : State) : Out :=
  s.issue (.exit g) 0x07 g fun c s =>
    match c.who.party with
    | .front b => s.exitFront c b
    | .matrix _ => .done s .go
    | _ =>
      match s.warp c.who with
      | none => .left s
      | some x => if x.alive &&& ~~~c.exec == 0 then s.exitLast c else .done (s.updWarp c.who fun x => x.endLanes c.exec) .close

end Sys2Proof.Machine
end

