-- ==== Sys2Proof/Machine/CrossLane.lean ====
section
/-! DEFINITION. Cross-lane words (05 Table 6; 22 R347; 23 R373, R383, R394). The participants are the executing lanes of the gang. -/

namespace Sys2Proof.Machine

/-- SHFL (23 R383): the source position, none outside the segment. -/
def shflPos (m : ShflMode) (r n size : Nat) : Option Nat :=
  match m with
  | .at => some (n % size)
  | .back => if n ≤ r then some (r - n) else none
  | .ahead => if r + n < size then some (r + n) else none
  | .swap => some (r ^^^ (n % size))

/-- The segment sizes of SEG 0 to 4. -/
def segSize (seg : BitVec 3) : Nat := if seg = 0 then 32 else 2 ^ seg.toNat

/-- The lane whose a lane l takes: its own where the source does not execute. -/
def shflLane (m : ShflMode) (size n : Nat) (exec : BitVec 32) (l : Nat) : Nat :=
  match shflPos m (l % size) n size with
  | some q => if exec.getLsbD (l - l % size + q) then l - l % size + q else l
  | none => l

def execShfl (m : ShflMode) (b64 : Bool) (seg : BitVec 3) (o : A3) (s : State) : Out :=
  s.issue (.shfl m b64 seg o) 0x50 o.g fun c s =>
    let src (l : Nat) : Nat := shflLane m (segSize seg) (s.get c o.b.toNat l).toNat c.exec l
    if b64 then .done (s.put64 c c.exec o.d.toNat fun l => s.get64 c o.a.toNat (src l)) .go
    else .done (s.put c c.exec o.d.toNat fun l => s.get c o.a.toNat (src l)) .go

def execVote (m : VoteMode) (d a : BitVec 8) (g : Guard) (hd : Hint) (s : State) : Out :=
  s.issue (.vote m d a g hd) 0x51 g fun c s =>
    let yes : BitVec 32 := maskOf 32 fun l => c.exec.getLsbD l && s.pred c a.toNat l
    match m with
    | .every => .done (s.putPred c c.exec d.toNat fun _ => yes == c.exec) .go
    | .some => .done (s.putPred c c.exec d.toNat fun _ => yes != 0) .go
    | .mask => .done (s.put c c.exec d.toNat fun _ => yes.setWidth 64) .go
    | .count => .done (s.put c c.exec d.toNat fun _ => BitVec.ofNat 64 (popCount yes)) .go

/-- One combination of REDUX and SCAN (23 Table 4), with its events. -/
def redCombine (op : RedOp) (a b : Nat) : Nat × List Ev :=
  let x : Word := BitVec.ofNat 32 a
  let y : Word := BitVec.ofNat 32 b
  match op with
  | .add => ((x + y).toNat, [])
  | .minS => ((if y.slt x then y else x).toNat, [])
  | .minU => (min a b, [])
  | .maxS => ((if x.slt y then y else x).toNat, [])
  | .maxU => (max a b, [])
  | .and => ((x &&& y).toNat, [])
  | .or => ((x ||| y).toNat, [])
  | .xor => ((x ^^^ y).toNat, [])
  | .fadd => let e := fF32.finish .rne false 0 ((fF32.read a).add .rne (fF32.read b)); (e.bits, e.ev)
  | .fmin => (fminmax fF32 false a b, [])
  | .fmax => (fminmax fF32 true a b, [])

/-- The value that a participant brings: a NaN operand of `.fadd` gives the canonical NaN, where nothing is added to it either (23 R373). -/
def redLeaf (op : RedOp) (v : Nat) : Nat := if op = .fadd && (fF32.read v).isNan then fF32.nanBits else v

/-- One level of the pairwise tree (06 R114): a node with one absent child passes the other through. -/
def treeLevel (op : RedOp) : List (Option Nat) → List (Option Nat) × List Ev
  | some x :: some y :: rest =>
    let (v, e) := redCombine op x y
    let (l, es) := treeLevel op rest
    (some v :: l, e ++ es)
  | x :: y :: rest => let (l, es) := treeLevel op rest; ((if x.isSome then x else y) :: l, es)
  | l => (l, [])

def treeSum (op : RedOp) : Nat → List (Option Nat) → Option Nat × List Ev
  | 0, l => ((l.head?).join, [])
  | n + 1, l => let (l', e) := treeLevel op l; let (v, es) := treeSum op n l'; (v, e ++ es)

/-- Running combinations in lane order: each lane's value and the events of its addition. -/
def scanFrom (op : RedOp) : Option Nat → List (Nat × Nat) → List (Nat × Nat × List Ev)
  | _, [] => []
  | none, (l, v) :: rest => (l, v, []) :: scanFrom op (some v) rest
  | some acc, (l, v) :: rest => let (x, e) := redCombine op acc v; (l, x, e) :: scanFrom op (some x) rest

def execRedux (op : RedOp) (o : A2) (s : State) : Out :=
  s.issue (.redux op o) 0x52 o.g fun c s =>
    let leaves := (List.range 32).map fun l => if c.exec.getLsbD l then some (redLeaf op (s.get c o.a.toNat l).toNat) else none
    let (v, ev) := treeSum op 5 leaves
    Res.counted (s.put c c.exec o.d.toNat fun _ => BitVec.ofNat 64 (v.getD 0)) c (ev.map fun e => (lowest c.exec, e)) .go

def execScan (op : RedOp) (o : A2) (s : State) : Out :=
  s.issue (.scan op o) 0x53 o.g fun c s =>
    let r := scanFrom op none ((onesOf c.exec).map fun l => (l, redLeaf op (s.get c o.a.toNat l).toNat))
    let at_ (l : Nat) : Nat := ((r.find? fun e => e.1 == l).map fun e => e.2.1).getD 0
    Res.counted (s.put c c.exec o.d.toNat fun l => BitVec.ofNat 64 (at_ l)) c (r.flatMap fun e => e.2.2.map fun v => (e.1, v)) .go

def execMatchLanes (b64 : Bool) (o : A2) (s : State) : Out :=
  s.issue (.matchLanes b64 o) 0x54 o.g fun c s =>
    let v (l : Nat) : DWord := if b64 then s.get64 c o.a.toNat l else s.get c o.a.toNat l
    .done (s.put c c.exec o.d.toNat fun l => maskOf 64 fun m => decide (m < 32) && c.exec.getLsbD m && v m == v l) .go

end Sys2Proof.Machine
end

