-- ==== Sys2Proof/Machine/Seal.lean ====
section
/-! DEFINITION. The functions that the spec names and takes from their standards: SHA-256 (FIPS 180-4; 13 R246, R253), AES-256 (FIPS 197) and
Galois/counter mode with a nonce of 96 bits and a tag of 128 (NIST SP 800-38D; 13 R251), and ECDSA on P-256 (FIPS 186-5; 13 R253).
PRESUMED (entry 19): the standards' own text. -/

namespace Sys2Proof.Machine

/-! SHA-256 -/

/-- A 32-bit word of four bytes, the first the most significant. -/
def beWord (bs : List Byte) : Word := bs.foldl (fun a b => (a <<< 8) ||| b.setWidth 32) 0
/-- The n bytes of a number, the most significant first. -/
def beBytes : Nat → Nat → List Byte
  | 0, _ => []
  | n + 1, v => beBytes n (v / 256) ++ [BitVec.ofNat 8 v]

/-- The largest x with x ^ k ≤ v: x as its bits above the n lowest stand. -/
def rootBelow (k v : Nat) : Nat → Nat → Nat
  | 0, x => x
  | n + 1, x => rootBelow k v n (if (x + 2 ^ n) ^ k ≤ v then x + 2 ^ n else x)

/-- The first 32 bits of the fraction of the k-th root of p. -/
def rootFraction (k p : Nat) : Word := BitVec.ofNat 32 (rootBelow k (p * 2 ^ (32 * k)) 36 0)

/-- The primes below 312, of which there are 64. -/
def smallPrimes : List Nat := (List.range 312).filter fun p => decide (2 ≤ p) && ((List.range 18).all fun d => decide (d < 2) || decide (p ≤ d) || p % d != 0)

/-- The round constants come from the cube roots of the first 64 primes, the first hash value from the square roots of the first 8. -/
def shaK : List Word := smallPrimes.map (rootFraction 3)
def shaInit : List Word := (smallPrimes.take 8).map (rootFraction 2)

/-- A list in pieces of n: at most `fuel` of them. -/
def piecesOf {α : Type} (n : Nat) : Nat → List α → List (List α)
  | 0, _ => []
  | f + 1, l => if l.isEmpty then [] else l.take n :: piecesOf n f (l.drop n)

/-- The message with its padding and length. -/
def shaPad (m : List Byte) : List Byte :=
  m ++ [0x80] ++ List.replicate ((119 - m.length % 64) % 64) 0 ++ beBytes 8 (8 * m.length)

/-- The message schedule, the latest word first. -/
def shaSchedule : Nat → List Word → List Word
  | 0, w => w
  | n + 1, w =>
    let a := w.getD 14 0
    let b := w.getD 1 0
    let s0 := a.rotateRight 7 ^^^ a.rotateRight 18 ^^^ (a >>> 3)
    let s1 := b.rotateRight 17 ^^^ b.rotateRight 19 ^^^ (b >>> 10)
    shaSchedule n ((w.getD 15 0 + s0 + w.getD 6 0 + s1) :: w)

/-- One round on the eight working variables. -/
def shaRound (x : List Word) (k w : Word) : List Word :=
  let g (i : Nat) : Word := x.getD i 0
  let e := g 4
  let a := g 0
  let t1 := g 7 + (e.rotateRight 6 ^^^ e.rotateRight 11 ^^^ e.rotateRight 25) + ((e &&& g 5) ^^^ (~~~e &&& g 6)) + k + w
  let t2 := (a.rotateRight 2 ^^^ a.rotateRight 13 ^^^ a.rotateRight 22) + ((a &&& g 1) ^^^ (a &&& g 2) ^^^ (g 1 &&& g 2))
  [t1 + t2, a, g 1, g 2, g 3 + t1, e, g 5, g 6]

def shaBlock (h : List Word) (b : List Byte) : List Word :=
  let w := (shaSchedule 48 ((piecesOf 4 16 b).map beWord).reverse).reverse
  List.zipWith (· + ·) h ((List.zip shaK w).foldl (fun x (p : Word × Word) => shaRound x p.1 p.2) h)

/-- SHA-256 of a message. -/
def sha256 (m : List Byte) : List Byte :=
  let p := shaPad m
  ((piecesOf 64 (p.length / 64) p).foldl shaBlock shaInit).flatMap fun w => beBytes 4 w.toNat

/-! AES-256 -/

def xorBytes (a b : List Byte) : List Byte := List.zipWith (· ^^^ ·) a b

/-- Multiplication by x, and multiplication, in the field of AES. -/
def aesX (a : Byte) : Byte := (a <<< 1) ^^^ (if a.msb then 0x1b else 0)
def aesMul (a b : Byte) : Byte :=
  ((List.range 8).foldl (fun (r : Byte × Byte) i => (if b.getLsbD i then r.1 ^^^ r.2 else r.1, aesX r.2)) (0, a)).1

/-- The inverse in the field, 0 for 0: the power 254. -/
def aesInv (a : Byte) : Byte := (List.range 7).foldl (fun r _ => aesMul (aesMul r r) a) 1 |> fun r => aesMul r r

/-- The substitution of a byte. -/
def aesSub (a : Byte) : Byte :=
  let b := aesInv a
  b ^^^ b.rotateLeft 1 ^^^ b.rotateLeft 2 ^^^ b.rotateLeft 3 ^^^ b.rotateLeft 4 ^^^ 0x63

/-- The key schedule: words, the latest first; `i` is the number of the next word. -/
def aesExpand : Nat → Nat → Byte → List (List Byte) → List (List Byte)
  | 0, _, _, ws => ws
  | n + 1, i, rc, ws =>
    let t := ws.getD 0 []
    let (t, rc) := if i % 8 = 0 then (xorBytes ((t.rotateLeft 1).map aesSub) [rc, 0, 0, 0], aesX rc)
      else if i % 8 = 4 then (t.map aesSub, rc) else (t, rc)
    aesExpand n (i + 1) rc (xorBytes (ws.getD 7 []) t :: ws)

/-- The fifteen round keys of a key of 32 bytes. -/
def aesKeys (key : List Byte) : List (List Byte) :=
  piecesOf 16 15 (aesExpand 52 8 1 (piecesOf 4 8 key).reverse).reverse.flatten

def aesShift (b : List Byte) : List Byte := (List.range 16).map fun i => b.getD ((i + 4 * (i % 4)) % 16) 0
def aesMixColumn (c : List Byte) : List Byte :=
  (List.range 4).map fun i =>
    aesMul (c.getD i 0) 2 ^^^ aesMul (c.getD ((i + 1) % 4) 0) 3 ^^^ c.getD ((i + 2) % 4) 0 ^^^ c.getD ((i + 3) % 4) 0

/-- A block of 16 bytes under the round keys. -/
def aesBlock (keys : List (List Byte)) (b : List Byte) : List Byte :=
  (List.range 14).foldl (fun x r =>
    let x := aesShift (x.map aesSub)
    let x := if r = 13 then x else (piecesOf 4 4 x).flatMap aesMixColumn
    xorBytes x (keys.getD (r + 1) [])) (xorBytes b (keys.getD 0 []))

/-! Galois/counter mode -/

/-- The product in the field of GHASH: bit 127 is the coefficient of degree 0. -/
def ghashMul (x y : BitVec 128) : BitVec 128 :=
  ((List.range 128).foldl (fun (r : BitVec 128 × BitVec 128) i =>
    (if x.getLsbD (127 - i) then r.1 ^^^ r.2 else r.1,
      (r.2 >>> 1) ^^^ (if r.2.getLsbD 0 then 0xE1000000000000000000000000000000#128 else 0))) (0, y)).1

def be128 (bs : List Byte) : BitVec 128 := bs.foldl (fun a b => (a <<< 8) ||| b.setWidth 128) 0

/-- Bytes filled up with zeros to a multiple of 16. -/
def pad16 (bs : List Byte) : List Byte := bs ++ List.replicate ((16 - bs.length % 16) % 16) 0

def ghash (h : BitVec 128) (bs : List Byte) : BitVec 128 :=
  (piecesOf 16 (bs.length / 16 + 1) bs).foldl (fun y b => ghashMul (y ^^^ be128 b) h) 0

/-- The key stream of a nonce from counter 2 on, over n bytes. -/
def gcmStream (keys : List (List Byte)) (nonce : List Byte) (n : Nat) : List Byte :=
  ((List.range ((n + 15) / 16)).flatMap fun i => aesBlock keys (nonce ++ beBytes 4 (i + 2))).take n

/-- The tag of a ciphertext with its authenticated data. -/
def gcmTag (keys : List (List Byte)) (nonce aad ct : List Byte) : List Byte :=
  let h := be128 (aesBlock keys (List.replicate 16 0))
  let s := ghash h (pad16 aad ++ pad16 ct ++ beBytes 8 (8 * aad.length) ++ beBytes 8 (8 * ct.length))
  xorBytes (aesBlock keys (nonce ++ beBytes 4 1)) (beBytes 16 s.toNat)

/-- AES-GCM 256: the ciphertext and the tag. -/
def gcmSeal (key nonce aad pt : List Byte) : List Byte × List Byte :=
  let keys := aesKeys key
  let ct := xorBytes pt (gcmStream keys nonce pt.length)
  (ct, gcmTag keys nonce aad ct)

/-- The plaintext, where the tag verifies. -/
def gcmOpen (key nonce aad ct tag : List Byte) : Option (List Byte) :=
  let keys := aesKeys key
  if gcmTag keys nonce aad ct == tag then some (xorBytes ct (gcmStream keys nonce ct.length)) else none

/-! ECDSA on P-256 -/

def p256P : Nat := 0xffffffff00000001000000000000000000000000ffffffffffffffffffffffff
def p256N : Nat := 0xffffffff00000000ffffffffffffffffbce6faada7179e84f3b9cac2fc632551
def p256G : Nat × Nat :=
  (0x6b17d1f2e12c4247f8bce6e563a440f277037d812deb33a0f4a13945d898c296, 0x4fe342e2fe1a7f9b8ee7eb4a7c0f9e162bce33576b315ececbb6406837bf51f5)

/-- A power modulo m: at most `fuel` bits of the exponent. -/
def powMod (m : Nat) : Nat → Nat → Nat → Nat
  | 0, _, _ => 1
  | f + 1, b, e =>
    if e = 0 then 1
    else
      let r := powMod m f (b * b % m) (e / 2)
      if e % 2 = 1 then b * r % m else r

/-- The inverse modulo a prime. -/
def invMod (m a : Nat) : Nat := powMod m 256 (a % m) (m - 2)

/-- The sum of two points of the curve; none is the point at infinity. -/
def p256Add : Option (Nat × Nat) → Option (Nat × Nat) → Option (Nat × Nat)
  | none, q => q
  | p, none => p
  | some (x1, y1), some (x2, y2) =>
    let P := p256P
    if x1 = x2 ∧ (y1 + y2) % P = 0 then none
    else
      let l := if x1 = x2 then (3 * x1 * x1 + P - 3) * invMod P (2 * y1) % P else (y2 + P - y1) * invMod P (x2 + P - x1) % P
      let x := (l * l + 2 * P - x1 - x2) % P
      some (x, (l * (x1 + P - x) + P - y1) % P)

/-- A multiple of a point: at most `fuel` bits of the factor. -/
def p256Mul : Nat → Nat → Option (Nat × Nat) → Option (Nat × Nat)
  | 0, _, _ => none
  | f + 1, k, p =>
    if k = 0 then none
    else
      let r := p256Mul f (k / 2) (p256Add p p)
      if k % 2 = 1 then p256Add p r else r

/-- The public key of a private key. -/
def ecdsaPublic (d : Nat) : Nat × Nat := (p256Mul 256 (d % p256N) (some p256G)).getD (0, 0)

/-- The signature of a message: (r, s) under the private key d and the message's secret number k. -/
def ecdsaSign (d k : Nat) (m : List Byte) : Nat × Nat :=
  let z := (sha256 m).foldl (fun a b => 256 * a + b.toNat) 0
  let r := ((p256Mul 256 (k % p256N) (some p256G)).getD (0, 0)).1 % p256N
  (r, invMod p256N k * (z + r * d) % p256N)

end Sys2Proof.Machine
end

