-- ==== Sys2Proof/Machine/Fetch.lean ====
section
/-! DEFINITION. Arriving at a line, fetching words, pairs (04 R64 to R68, R82; 08 R402), the passing of time, and the placing of a word
where the next step fetches it. -/

namespace Sys2Proof.Machine

/-! Fetching -/

/-- A byte as a fetch reads it: of bytes that an engine wrote, a party that has not acquired the command's completion may read the old
ones, each 64-bit word on its own (22 R344). -/
def State.fetchByte (s : State) (w : Who) (a : Nat) : Byte :=
  let v := s.dieByte (dieOf w.core) a
  s.oldOrNew 11 (a / 8) (((Tbl.get [] s.mem.path a).takeWhile fun e => !(e.path == .ewr && e.known (s.pid w)) && !e.seen.contains .ls).map (·.old)) v

/-- The address of the line of an address. -/
def lineOf (pc : DWord) : DWord := BitVec.ofNat 64 (pc.toNat / 128 * 128)

/-- The physical address of a line of a party's block, or why it cannot be fetched (08 R402): `none` while a CLAIM moves the page. A
poisoned line traps (12 R241). -/
def State.fetchLine (s : State) (w : Who) (b : Block) (line : DWord) : Except (Option TrapArgs) (State × Nat) :=
  match s.access w.core b.dealt.asid (some w) .fetch true (s.atHandler w) line with
  | .error f => if f.cause = .migrating then .error none else .error (some { f.trap 0 with addr := if f.cause = .poison then f.addr else line })
  | .ok l =>
    match s.readBad (dieOf w.core) false { l with phys := l.phys / 128 * 128 } 128 with
    | some _ => .error (some (TrapArgs.of .poison line 0 0))
    | none => .ok (s.tlbFill w.core b.dealt.asid line, l.phys / 128 * 128)

/-- The 64-bit word k of a line. -/
def State.lineWord (s : State) (w : Who) (phys k : Nat) : DWord :=
  BitVec.ofNat 64 (natOf ((span (phys + 8 * k) 8).map (s.fetchByte w)))

/-- A header that no stream may enter (04 R65). -/
def hdrInvalid (h : DWord) : Bool :=
  let n := hdrCount h
  let f := hdrFilln h
  let fill (k : Nat) : Nat := fld (30 - 8 * k) 8 h
  fld 60 4 h != 12 || hdrClass h == 3 || n == 0 || f > 3 ||
  (List.range 7).any (fun j => (hdrPairs h).testBit j && decide (2 * j + 3 > n)) ||
  (List.range 3).any (fun k => decide (k ≥ f) && fill k != 0) || fld 0 13 h != 0 ||
  (hdrClass h != 0 && (hdrPairs h != 0 || f != 0 || fld 14 24 h != 0)) || (hdrClass h == 2 && hdrWait h != 0)

/-- The CLASS code of a class. -/
def clsCode : Cls → Nat
  | .lane => 0
  | .front => 1
  | .matrix => 2

/-- Whether a pc is the address of an instruction word in use (04 R68): a gang that ERET or FRESUME has put at the second word of a pair
goes on there (12 R227). -/
def inUse (h pc : DWord) (resumed : Bool) : Bool :=
  let k := pc.toNat % 128 / 8
  pc.toNat % 8 == 0 && decide (1 ≤ k) && decide (k ≤ hdrCount h) && (resumed || !isSecond h k)

/-- ENTERING A LINE (04 R66, R68; 08 R402): the line is translated and its header read; the first word is held until WAIT is satisfied, and the
fills are made, which read the registers (12 R241). The result says whether the word may issue. -/
def State.enter (s : State) (w : Who) (b : Block) : State × Bool :=
  let pc := s.pcOf w
  let trap (s : State) (n : Nat) (t : TrapArgs) : State × Bool := (s.takeTrap w pc (nextWord pc n) t, false)
  let lanes := match w.party with | .matrix _ => 0 | _ => s.activeOf w
  match s.fetchLine w b (lineOf pc) with
  | .error none => (s, false)
  | .error (some t) => trap s 15 { t with lanes := lanes }
  | .ok (s, phys) =>
    let h := s.lineWord w phys 0
    let n := hdrCount h
    if hdrInvalid h then trap s 15 (TrapArgs.of .illegal 0 0 lanes)
    else if hdrClass h ≠ clsCode (partyCls w.party) then trap s n (TrapArgs.of .engine 0 0 lanes)
    else if !inUse h pc (((s.warp w).map (·.resumed)).getD false) then trap s n (TrapArgs.of .illegal 0 0 lanes)
    else
      let f := s.flight w
      let unready := (List.range 6).filter fun k => (hdrWait h).testBit k && Tbl.get 0 f.sb (k + 1) != 0
      let logged := (s.owed w).find? fun ix =>
        match s.logEnt w.core ix with | some e => unready.any (fun k => k + 1 == sbOf e.op.ins) | none => false
      match logged with
      | some ix =>
        match s.logEnt w.core ix with
        | some e =>
          if e.cause = .migrating then ((s.replayLog w.core ix).getD s, false)
          else (s.takeTrap w e.op.pc pc (e.trap ix), false)
        | none => (s, false)
      | none =>
        if !unready.isEmpty then (s, false)
        else
          let fills := (List.range (hdrFilln h)).map fun k => fld (30 - 8 * k) 8 h
          let bad := ((s.warp w).map (·.poisonedFill fills)).getD 0
          if bad != 0 then trap s n (TrapArgs.of .poison 0 0 bad)
          else
            let s := s.setClause w (some ⟨lineOf pc, h, phys⟩)
            (s.updWarp w fun x => { x.fill fills with resumed := false }, true)

/-! Pairs (04 R82) -/

/-- Registers and predicates that a word names. -/
def regKeys (l : List RegUse) : List Nat := (l.flatMap fun r => span r.r r.n).filter (· != 0)
def predKeys (l : List (Nat × Nat)) : List Nat := (l.flatMap fun p => span p.1 p.2).filter (· != 0)

/-- A word on the FMA pipe, and on the ALU pipe. -/
def onFma (op : Nat) : Bool := decide (0x30 ≤ op) && decide (op ≤ 0x3A)
def onAlu (op : Nat) : Bool := decide (0x10 ≤ op) && decide (op ≤ 0x2F)
/-- A word of the FMA pipe's opcodes whose type is f64: Type 01 (04 Table 3). -/
def isF64 : Instr → Bool
  | .fadd m _ | .fsub m _ | .fmul m _ | .ffma m _ | .fscale m _ | .frnd m _ | .fdiv m _ => m.t == .f64
  | .fmin t _ | .fmax t _ | .fset t _ _ _ | .fclass t _ => t == .f64
  | _ => false

def pairBad (v1 v2 : DWord) (i1 i2 : Instr) : Bool :=
  let u1 := i1.use .lane
  let u2 := i2.use .lane
  let wr := regKeys u1.dst
  let wp := predKeys u1.pdst
  let op1 := opcodeOf v1
  let op2 := opcodeOf v2
  !((onFma op1 && onAlu op2) || (onAlu op1 && onFma op2)) || isF64 i1 || isF64 i2 ||
  (regKeys (u2.src ++ u2.dst)).any wr.contains || (predKeys (u2.psrc ++ u2.pdst)).any wp.contains

/-- Steps 1 to 3 of 04 Table 14 on a raw word of a class. -/
def rawTrap (c : Cls) (v : DWord) : Except Cause Instr :=
  if (formatOf (opcodeOf v)).isNone then .error .illegal
  else if !acceptsOp c (opcodeOf v) then .error .engine
  else match decode v with
    | .ok i => if i.legalIn c then .ok i else .error .illegal
    | .error _ => .error .illegal

/-! Issuing the word at which a party stands -/

/-- One word. An unassigned opcode is the row UNASSIGNED_OPCODE. -/
def issueOne (ex : Instr → State → Out) (s : State) (c : Cls) (v : DWord) : Out :=
  match formatOf (opcodeOf v) with
  | none => ex (.unassignedOpcode v) s
  | some _ =>
    if !acceptsOp c (opcodeOf v) then s.refuse .engine
    else match decode v with
      | .ok i => ex i s
      | .error _ => s.refuse .illegal

/-- A pair (04 R82): every issue check of both words first, one payment of the sum, then both words. DESIGN CHOICE (entry 12): steps 1 to 3
of 04 Table 14 are made of both words before step 4, and step 5 of both before step 7; a trap that finds the second word has that word as
the trapping one, with no effect of either, and ERET.resume of a trap goes on at the word after the trapping one. The second word reads its
sources after the first word's last uses have freed theirs (03 R47). -/
def issuePair (ex : Instr → State → Out) (s : State) (c : Ctx) (v1 v2 : DWord) : Out :=
  let after2 : DWord := nextWord c.next (hdrCount (((s.clauseOf c.who).map (·.hdr)).getD 0))
  let stop1 (t : TrapArgs) : Out := .next ((s.dropWide c.who).takeTrap c.who c.pc c.next t)
  let stop2 (t : TrapArgs) : Out := .next ((s.dropWide c.who).takeTrapAt c.who c.next c.pc after2 t)
  if s.claimWaits c.who then .next s else
  match s.nextWaits c.who, rawTrap .lane v1, rawTrap .lane v2 with
  | some _, _, _ => issueOne ex s .lane v1
  | none, .error x, _ => stop1 (TrapArgs.of x 0 0 c.active)
  | none, .ok _, .error x => stop2 (TrapArgs.of x 0 0 c.active)
  | none, .ok i1, .ok i2 =>
    let frame := match s.warp c.who with | some w => w.frame | none => 256
    let price := priceOf i1 + priceOf i2
    if pairBad v1 v2 i1 i2 then stop1 (TrapArgs.of .pair 0 0 c.active)
    else if (i1.use .lane).beyond frame then stop1 (TrapArgs.of .frameBound 0 0 c.active)
    else if (i2.use .lane).beyond frame then stop2 (TrapArgs.of .frameBound 0 0 c.active)
    else if !s.isPaid c.who && decide (price > s.cap c.who.core) then stop1 (TrapArgs.of .tokenCap 0 price c.active)
    else
      let (s, ok) := s.pay c price
      if !ok then .next s
      else
        let mark (p : Nat) (s : State) : State := s.updWarp c.who fun x => { x with paid := decide (p > 0) }
        match ex i1 (mark (priceOf i1) s) with
        | .next s =>
          if s.runnable c.who && s.pcOf c.who == c.pc + 8 && (s.clauseOf c.who).isSome then ex i2 (mark (priceOf i2) s)
          else .next (mark 0 s)
        | r => r

/-- In an emergency save a party that stands where it may be stopped issues no more (12 R232, R235): a warp at a clause boundary, a front
end, a matrix stream between words and rows. -/
def State.halted (s : State) (w : Who) : Bool :=
  s.host.side.saving && match w.party with
  | .front _ => true
  | .matrix b => match (s.block w.core b).bind (·.matrix) with | some m => m.steps == 0 && !((s.core w.core).locks.any fun l => l.owner.isNone && l.blk == b) | none => true
  | _ => (s.clauseOf w).isNone

/-- A party moves: it arrives at its line where no clause is in force, and its word issues. -/
def issueMove (ex : Instr → State → Out) (s : State) (w : Who) : Out :=
  match s.blockOf w with
  | none => .next s
  | some b =>
    if !s.runnable w || s.halted w then .next s
    else
      let s := { s with cur := w }
      let (s, ok) := if (s.clauseOf w).any (·.line == lineOf (s.pcOf w)) then (s, true) else s.enter w b
      if !ok then .next s
      else
        match s.clauseOf w, s.ctx w ⟨0, false⟩ with
        | some cl, some c =>
          let k := c.pc.toNat % 128 / 8
          let v := s.lineWord w cl.phys k
          if c.first && c.cls == .lane then issuePair ex s c v (s.lineWord w cl.phys (k + 1)) else issueOne ex s c.cls v
        | _, _ => .next s

/-! Time -/

/-- TIME.ref advances by an amount that nothing fixes (10 R201, 08 R404). -/
def State.advance (s : State) : State := { s.tick with tref := s.tref + BitVec.ofNat 64 (Config.elapse s.fresh) }

/-! Placing a word -/

/-- The engine class of a clause that holds a word with an opcode: LANE where it is accepted there. -/
def classOf (op : Nat) : Cls := if acceptsOp .lane op then .lane else if acceptsOp .front op then .front else if acceptsOp .matrix op then .matrix else .lane

def wordParty (op : Nat) : Party :=
  match classOf op with
  | .lane => .warp 0
  | .front => .front 0
  | .matrix => .matrix 0

def Flight.start : Flight := Flight.init
def Slice.start (pc : DWord) : Slice := ⟨pc, 0, 15, [], none⟩

/-- A warp at an entry with frame F, in block slot b as warp number n (02 R24, 03 R43). -/
def Warp.start (b n f : Nat) (pc : DWord) : Warp where
  blk := b
  wid := n
  frame := f
  regs := []
  preds := []
  prev := []
  bad := []
  ocBad := []
  hdrBad := []
  oc := []
  slices := List.replicate 8 (Slice.start pc)
  headers := []
  gang := 0xFF
  waits := []
  resumed := false
  alive := 0xFFFFFFFF
  clause := none
  flight := Flight.start
  srseed := (List.range 32).map (srStart n)
  mctab := 0
  role := 3
  flag := none
  dqPos := 0
  popping := 0
  handler := none
  frec := 0
  park := none
  origin := none
  away := none
  paid := false
  due := none

def Front.start (pc : DWord) : Front := ⟨pc, 0, [], [], none, Flight.start, none, none, false⟩
def Matrix.start (pc : DWord) : Matrix where
  running := false
  pc := pc
  clause := none
  m := []
  pos := []
  acc := []
  accBad := []
  tile := none
  last := none
  row := 0
  steps := 0
  started := false
  due := none
  arr := none
  stop := false
  park := none

/-- A card all of whose fields are zero but FRAME: the block of a word that is placed by hand. -/
def Dealt.blank : Dealt := ⟨0, 0, 0, 0, 0, 0, 1, 0, 1, [(0, 6144)], 0, 0, 0, 0, 0, 0⟩

def Block.blank (pc : DWord) : Block where
  dealt := Dealt.blank
  warps := [0]
  scratch := ⟨[], 0, [], [], []⟩
  bars := []
  rings := []
  dq := []
  dqBase := 0
  roles := none
  roleBad := false
  front := some (Front.start pc)
  matrix := some { Matrix.start pc with running := true }
  msrseed := 1

/-- The package with one block of one warp on core 0 whose streams stand at word 1 of the line at 0x5000, tables that map the first
GiB onto itself, the word there, its price paid (11 R208), and tokens for the engine's steps; the next move is that stream's. -/
def State.placeWord (s : State) (w : BitVec 64) : State :=
  let op := opcodeOf w
  let hdr : Nat := 12 * 2 ^ 60 + clsCode (classOf op) * 2 ^ 58 + 2 ^ 54
  let cell (t : Tbl Byte) (a v : Nat) : Tbl Byte := Tbl.setList 0 t a (bytesOf 8 v)
  let m := cell (cell (cell (cell s.mem.mem 0x1000 0x2001) 0x2000 0x3001) 0x3000 0x4001) 0x4000 0x1F
  let m := cell (cell m 0x5000 hdr) 0x5008 w.toNat
  let core := { Core.init with
    warps := [(0, some { Warp.start 0 0 256 0x5008 with paid := match decode w with | .ok i => decide (0 < priceOf i) | .error _ => false })]
    blocks := [(0, some (Block.blank 0x5008))]
    tokens := { Tokens.init with bal := [(0, some 4096)] } }
  let who : Who := ⟨0, wordParty op⟩
  { s with
    regs := { s.regs with astab := 0x1000 }
    mem := { s.mem with mem := m, tlb := [], moving := [], bad := [], disc := [], view0 := [], path := [] }
    cores := Tbl.set Core.init s.cores 0 core
    power := true
    die0 := { s.die0 with tokCap := 4096, dead := false }
    die1 := { s.die1 with dead := false }
    cur := who
    agenda := [.issue who] }

end Sys2Proof.Machine
end

