-- ==== Sys2Proof/Machine/Memory.lean ====
section
/-! DEFINITION. Memory words (05 Table 7; 20 R291 to R293, R302, R303, R308; 21 R322, R323; 22 R339 to R342, R351, R365; 23 R372, R387 to
R389). What an instruction does on its captured operands is in Access. -/

namespace Sys2Proof.Machine

/-! Capturing operands -/

/-- The data of a lane: its registers from t, or s[t]. -/
def State.dataOf (s : State) (c : Ctx) (t : Nat) (z : Size) (l : Nat) : BitVec 128 :=
  if c.cls = .front then (s.get c t l).setWidth 128
  else BitVec.ofNat 128 (((List.range (z.regs .lane)).map fun j => (s.get c (t + j) l).toNat % 2 ^ 32 * 2 ^ (32 * j)).sum)

/-- A signed byte offset of 18 bits. -/
def off18 (o : BitVec 18) : DWord := o.signExtend 64

/-- The operands of every executing lane: address, data, compare value. -/
def Ctx.ops (c : Ctx) (addr : Nat → DWord) (b : Nat → BitVec 128) (d : Nat → DWord) : List LaneOp :=
  (onesOf c.exec).map fun l => ⟨l, addr l, b l, d l⟩

/-- A global address, and an offset into scratch or the constant bank, which is exact: below zero it stands in two's complement. -/
def State.globalOps (s : State) (c : Ctx) (o : MemF) : List LaneOp :=
  c.ops (fun l => s.get64 c o.a.toNat l + off18 o.off) (s.dataOf c o.t.toNat o.size) fun _ => 0
def State.offsetOps (s : State) (c : Ctx) (o : MemF) : List LaneOp :=
  c.ops (fun l => s.get c o.a.toNat l + off18 o.off) (s.dataOf c o.t.toNat o.size) fun _ => 0
def State.atomOps (s : State) (c : Ctx) (o : AtomF) (addr : Nat → DWord) : List LaneOp :=
  c.ops addr (s.dataOf c o.b.toNat o.size) fun l => if o.op = .cas then (s.dataOf c o.c.toNat o.size l).setWidth 64 else 0

/-- The captured instruction. -/
def State.capture (s : State) (c : Ctx) (i : Instr) (ops : List LaneOp) : MemOp := ⟨c.who, c.pc, i, ops, s.atHandler c.who⟩

/-! Issuing a memory instruction -/

/-- The instruction is written into a free entry of the log (08 R154): it counts in its scoreboard, or the next word waits on it. -/
def State.logFault (s : State) (op : MemOp) (ix : Nat) (t : TrapArgs) (pages : List (Nat × Nat)) : State :=
  (s.setLog op.who.core ix (some ⟨op, t.cause, t.addr, t.lanes, t.mig, pages, none⟩)).updFlight op.who fun f =>
    if sbOf op.ins = 0 then { f with waitLog := some ix } else f.addSb (sbOf op.ins)

/-- A scoreboard at its maximum (03 R52). -/
def State.sbFull (s : State) (w : Who) (sb : Nat) : Bool := sb != 0 && decide (Tbl.get 0 (s.flight w).sb sb ≥ 63)

/-- The outcome of a memory instruction that is performed as a word. -/
def State.memRun (s : State) (c : Ctx) (op : MemOp) (fin : Fin) : Res :=
  match s.perform c.blk op false with
  | .ok s f evs => Res.counted (s.settleMem op false f) c evs fin
  | .wait => .wait s false
  | .hold s => .wait s false
  | .trap s t => .trap s t
  | .log t pages => .done (s.logFault op (s.newLog c.who.core) t pages) fin

/-- What a memory instruction comes to: it waits on the log, or for a free entry or count; or it is performed, traps or is logged. A store that
has begun goes on. `ordered`: an acquire, a release, or an atomic, which every access of its party is ordered with (09 R165); `spans`: the
bytes it touches. -/
def State.memWord (s : State) (c : Ctx) (op : MemOp) (ordered : Bool) (spans : List (Nat × Nat)) (fin : Fin) : Res :=
  let core := c.who.core
  if (s.flight c.who).begun c.pc then s.memRun c op fin
  else match s.mustWait c.who ordered spans with
  | some ix => s.awaitLog core ix
  | none =>
    if (s.freeLogs core).isEmpty then
      match (s.owed c.who).head? with
      | some ix => s.awaitLog core ix
      | none => .wait (s.sweepLog core) false
    else if s.sbFull c.who (sbOf op.ins) then .wait s false
    else s.memRun c op fin

/-- The spans of an access of n bytes in each lane. -/
def spansOf (n : Nat) (ops : List LaneOp) : List (Nat × Nat) := ops.map fun o => (o.addr.toNat, n)

def State.memAccess (s : State) (c : Ctx) (i : Instr) (ops : List LaneOp) (o : Order) (n : Nat) (fin : Fin) : Res :=
  s.memWord c (s.capture c i ops) (o != .relaxed) (spansOf n ops) fin

def execLd (o : MemF) (s : State) : Out :=
  s.issue (.ld o) 0x60 o.g fun c s => s.memAccess c (.ld o) (s.globalOps c o) o.order o.size.bytes .go

def execLds (o : MemF) (s : State) : Out :=
  s.issue (.lds o) 0x61 o.g fun c s => s.memWord c (s.capture c (.lds o) (s.offsetOps c o)) (o.order != .relaxed) [] .go

def execLdc (o : MemF) (s : State) : Out :=
  s.issue (.ldc o) 0x62 o.g fun c s =>
    let ops := s.offsetOps c o
    s.memWord c (s.capture c (.ldc o) ops) false (ops.map fun k => ((c.blk.constBase + k.addr).toNat, o.size.bytes)) .go

def execSt (o : MemF) (s : State) : Out :=
  s.issue (.st o) 0x63 o.g fun c s => s.memAccess c (.st o) (s.globalOps c o) o.order o.size.bytes .go

def execSts (o : MemF) (s : State) : Out :=
  s.issue (.sts o) 0x64 o.g fun c s => s.memWord c (s.capture c (.sts o) (s.offsetOps c o)) (o.order != .relaxed) [] .go

def execAtom (o : AtomF) (s : State) : Out :=
  s.issue (.atom o) 0x65 o.g fun c s =>
    let ops := s.atomOps c o fun l => s.get64 c o.a.toNat l
    s.memWord c (s.capture c (.atom o) ops) true (spansOf o.size.bytes ops) .switch

def execAtoms (o : AtomF) (s : State) : Out :=
  s.issue (.atoms o) 0x66 o.g fun c s =>
    s.memWord c (s.capture c (.atoms o) (s.atomOps c o fun l => s.get c o.a.toNat l)) true [] .switch

def execRed (o : AtomF) (s : State) : Out :=
  s.issue (.red o) 0x67 o.g fun c s =>
    s.memAccess c (.red o) (s.atomOps c o fun l => s.get64 c o.a.toNat l) o.order o.size.bytes .go

def execStmc (o : MemF) (s : State) : Out :=
  s.issue (.stmc o) 0x68 o.g fun c s =>
    let op := s.capture c (.stmc o) (s.globalOps c o)
    s.memWord c op (o.order != .relaxed) (s.stmcSpans c.blk op o.size.bytes) .go

/-! Prefetch (08 R150, 22 R365) -/

/-- The line of a lane's PREF and whether it goes to L1: none where the request is dropped. -/
def State.prefLine (s : State) (c : Ctx) (pol : Policy) (va : DWord) : Option (Nat × Bool) :=
  match s.access c.who.core c.blk.dealt.asid (some c.who) .load true (s.atHandler c.who) va with
  | .error _ => none
  | .ok l =>
    let line := l.phys / 128
    if (s.readBad (dieOf c.who.core) false { l with phys := 128 * line } 128).isSome || l.c == 2 ||
        (s.locked c.who.core false c.blk.dealt.asid false (va.toNat / 128 * 128) 128).isSome then none
    else some (line, pol != .byp && l.c != 1)

/-- A line already held at the level the policy targets is not requested: L1 may have evicted a line it held, and what L2 holds is free
(entry 4). -/
def State.prefHeld (s : State) (core line : Nat) (l1 : Bool) : Bool :=
  s.coin 10 line && (!l1 || (s.core core).l1.lines.contains line)

/-- One line requested: counted once; to L1, as the die's L2 holds it. -/
def Core.prefetch (k : Core) (line : Nat) (l1 : Bool) : Core :=
  let p := if k.l1.pref.any (·.line == line) then k.l1.pref else ⟨line, l1⟩ :: k.l1.pref
  let x := if l1 then { k.l1.refresh line with lines := if k.l1.lines.contains line then k.l1.lines else line :: k.l1.lines } else k.l1
  { k with pfiss := bump48 k.pfiss, l1 := { x with pref := p } }

def execPref (a : BitVec 8) (g : Guard) (off : BitVec 18) (pol : Policy) (s : State) : Out :=
  s.issue (.pref a g off pol) 0x69 g fun c s =>
    let want := ((onesOf c.exec).filterMap fun l => s.prefLine c pol (s.get64 c a.toNat l + off18 off)).dedup
    .done (want.foldl (fun (s' : State) r => if s.prefHeld c.who.core r.1 r.2 then s' else s'.updCore c.who.core fun k => k.prefetch r.1 r.2)
      (s.evictPref c.who.core)) .go

/-! Ranges -/

/-- DISC: lengths of 0 in every lane need no wait (20 R308). -/
def execDisc (t a : BitVec 8) (g : Guard) (s : State) : Out :=
  s.issue (.disc t a g) 0x6A g fun c s =>
    let ops := c.ops (fun l => s.get64 c a.toNat l) (fun l => (s.get c t.toNat l).setWidth 128) fun _ => 0
    let op := s.capture c (.disc t a g) ops
    if ops.all (·.b == 0) then s.memRun c op .go else s.memWord c op false (ops.map fun k => (k.addr.toNat, k.b.toNat)) .go

/-- CLAIM takes its operands from the lowest executing lane; one of length 0 completes at once (20 R302). It is an access that later ones of the
party follow. -/
def execClaim (t a : BitVec 8) (g : Guard) (sb : BitVec 3) (s : State) : Out :=
  s.issue (.claim t a g sb) 0x6D g fun c s =>
    let l := lowest c.exec
    let op := s.capture c (.claim t a g sb) [⟨l, s.get64 c a.toNat l, (s.get c t.toNat l).setWidth 128, 0⟩]
    let spans := [((s.get64 c a.toNat l).toNat, (s.get c t.toNat l).toNat)]
    if s.get c t.toNat l == 0 then .done s .go
    else if s.effFmode 285 c.blk.dealt.region && !(s.freeLogs c.who.core).isEmpty && (s.mustWait c.who true spans).isNone then
      match s.perform c.blk op false with
      | .ok s (.claim asid lo len) _ =>
        let s := s.holdRange c.who asid lo len
        if s.claimQuiet asid lo len then .left (s.parkClaim c.who c.pc c.pc c.next asid lo len) else .wait s false
      | _ => s.memWord c op true spans .go
    else s.memWord c op true spans .go

/-! Fences -/

/-- FENCE (21 R322): it waits for the log, for its stores to reach the point of its scope, and, where it promotes, for the link; then it
is a release and an acquire as its order says, at a place. DEDUCED (entry 35). -/
def State.fence (s : State) (c : Ctx) (order : Order) (sc : Scope) (ga : Bool) (at_ : Place := .any) : Res :=
  let promote := scopePkg sc || ga
  match (s.owed c.who).head? with
  | some ix => s.awaitLog c.who.core ix
  | none =>
    match (if isRel order || promote then s.takeLost c.who (if promote then anyLost else queuedLost) else none) with
    | some (s, line) => Res.ackLost s line c.exec
    | none =>
      if (isRel order || promote) && !(s.flight c.who).sq.ents.isEmpty then .wait s false
      else if promote && !s.linkQuiet then .wait s false
      else if isRel order && sc == .sys && !s.peerQuiet c.who then .wait s false
      else
        let s := if isRel order then s.release c.who sc at_ else s
        .done (if isAcq order then s.acquire c.who sc at_ else s) .close

def execFence (order : Order) (scope : Scope) (ga : Bool) (g : Guard) (s : State) : Out :=
  s.issue (.fence order scope ga g) 0x6B g fun c s =>
    if scope = .blk && s.migrated c.who then .trap s (TrapArgs.of .migScope 0 0 c.exec) else s.fence c order scope ga

/-- FENCEP (08 R141): the party's own stores have left its queue before the reading path may see them, and stand at their homes before an
engine reads, which may read there. -/
def execFencep (w r : Path) (g : Guard) (s : State) : Out :=
  s.issue (.fencep w r g) 0x6C g fun c s =>
    if w = .ls && !(s.flight c.who).sq.ents.isEmpty then
      match s.takeLost c.who queuedLost with
      | some (s, line) => Res.ackLost s line c.exec
      | none => .wait s false
    else if w = .ls && r = .tile && !s.storesHome c.who then .wait s false
    else
      let s := { s with mem := { s.mem with path := fencePaths s.mem.path (fun _ => false) (s.pid c.who) w r } }
      .done (s.updB c fun b => { b with scratch := { b.scratch with path := fencePaths b.scratch.path b.engineHolds (s.pid c.who) w r } }) .go

/-! Migration (08 R157, 22 R351) -/

/-- The slot a warp came from: its own slot while it is at home. -/
def Warp.originOf (x : Warp) (w : Who) : Nat × Nat :=
  x.origin.getD (w.core, match w.party with | .warp n => n | _ => 0)

/-- The landing slot that a warp moves to: the cores of the die round-robin from its own core number, where the slot is free and the
frame cuts can be granted (03 R62). -/
def State.landingFor (s : State) (who : Who) (die : Nat) (own : List (Nat × Nat)) (cuts : Nat) : Option Nat :=
  ((List.range 112).map fun k => 112 * die + (who.core + k) % 112).find? fun c =>
    !(s.die die).dead && (s.core c).landing.isNone && s.poolFits c own cuts && (s.core c).pool.grows.all fun g => g.state != .waiting

/-- A warp leaves a landing slot: the slot and its cuts are free (08 R157). -/
def State.leaveLanding (s : State) (w : Who) (own : List (Nat × Nat)) (cuts : Nat) : State :=
  match w.party with
  | .landing => ((s.poolGive w.core own cuts).setWarp w none).closeAccounts w.core
  | _ => s

/-- The warp moves to a landing slot. Its slot of origin stays held and marks where it is. The acquire of its fence holds on the core where
it arrives (09 R162). -/
def State.moveAway (s : State) (w : Who) (d : Dealt) (core : Nat) : State :=
  match s.warp w with
  | none => s
  | some x =>
    let cuts := frameCuts x.frame
    let o := x.originOf w
    let s := s.poolTake core d.pool cuts
    let s := s.leaveLanding w d.pool cuts
    let s := s.setWarp ⟨o.1, .warp o.2⟩ (some { x with away := some core, origin := none })
    let s := s.setWarp ⟨core, .landing⟩ (some { x with origin := some o, away := none })
    (s.updCore core fun k => k.openAccount d.region).dropL1 core

/-- The warp returns to its slot of origin. -/
def State.moveHome (s : State) (w : Who) (d : Dealt) : State :=
  match s.warp w with
  | none => s
  | some x =>
    let o := x.originOf w
    ((s.leaveLanding w d.pool (frameCuts x.frame)).setWarp ⟨o.1, .warp o.2⟩ (some { x with origin := none, away := none })).dropL1 o.1

/-- The first steps of MIGR and MIGR.home: the whole warp, its fence, its scoreboards and its log. -/
def State.migrReady (s : State) (c : Ctx) (go : Warp → State → Res) : Res :=
  match s.warp c.who with
  | none => .left s
  | some x =>
    if !x.whole then .trap s (TrapArgs.of .illegal 0 0 c.active)
    else match s.fence c .acqRel .pkg false with
      | .done s _ => if !x.flight.sb.isEmpty then .wait s false else go x s
      | r => r

/-- The moved warp goes on at the next word. -/
def State.afterMove (s : State) (c : Ctx) (w : Who) : Res := .left (s.goOn { c with who := w } .close)

def execMigr (a : BitVec 8) (s : State) : Out :=
  s.issue (.migr a) 0x6E ⟨0, false⟩ fun c s => s.migrReady c fun x s =>
    let l := c.lane0
    let op := s.capture c (.migr a) [⟨l, s.get64 c a.toNat l, 0, 0⟩]
    match (s.freeLogs c.who.core).isEmpty, s.translateAll op c.blk.dealt.asid .load op.ops with
    | true, _ => .wait (s.sweepLog c.who.core) false
    | false, .error t => .done (s.logFault op (s.newLog c.who.core) t (s.pagesOf c.blk.dealt.asid (op.ops.map (·.addr)))) .go
    | false, .ok ls =>
      let die := ((ls.head?.map fun p => p.2.home)).getD 0
      let d := c.blk.dealt
      let o := x.originOf c.who
      let read : State := s.cacheWord s c ((Instr.migr a).use .lane)
      if die = dieOf c.who.core then .done s .go
      else if die = dieOf o.1 then (read.moveHome c.who d).afterMove c ⟨o.1, .warp o.2⟩
      else match s.landingFor c.who die c.blk.dealt.pool (frameCuts x.frame) with
        | some core => (read.moveAway c.who d core).afterMove c ⟨core, .landing⟩
        | none => .wait s true

def execMigrHome (s : State) : Out :=
  s.issue .migrHome 0x6E ⟨0, false⟩ fun c s => s.migrReady c fun x s =>
    if x.origin.isNone then .done s .go
    else
      let o := x.originOf c.who
      (s.moveHome c.who c.blk.dealt).afterMove c ⟨o.1, .warp o.2⟩

end Sys2Proof.Machine
end

