-- ==== Sys2Proof/Machine/Sync.lean ====
section
/-! DEFINITION. Synchronisation words (05 Table 8; 20 R294 to R296, R309; 21 R329, R330; 23 R375 to R377): named barriers, byte-counting
barriers, rings, card barriers, the decision queue and roles. -/

namespace Sys2Proof.Machine

/-! What the words share -/

/-- Register a + i of the quad, in the lowest active lane (20 R289). -/
def State.quadReg (s : State) (c : Ctx) (a : BitVec 8) (i : Nat) : Nat := (s.get c (a.toNat + i) c.lane0).toNat % 2 ^ 32
/-- The b register of a Format E word. -/
def State.breg (s : State) (c : Ctx) (b : BitVec 8) : Nat := (s.get c b.toNat c.lane0).toNat % 2 ^ 32

/-- A migrated warp may not synchronise (08 R157). -/
def State.atHome (s : State) (c : Ctx) (k : State → Res) : Res :=
  if s.migrated c.who then .trap s (TrapArgs.of .migScope 0 0 c.active) else k s

/-- A release at a place, then what follows it (09 R163). -/
def State.released (s : State) (c : Ctx) (sc : Scope) (k : State → Res) (at_ : Place := .any) : Res :=
  match s.fence c .rel sc false at_ with
  | .done s _ => k s
  | r => r

/-- An acquire waits on the party's logged instructions (08 R154). -/
def State.logged (s : State) (c : Ctx) (k : State → Res) : Res :=
  match (s.owed c.who).head? with
  | some ix => s.awaitLog c.who.core ix
  | none => k s

/-- A word that is ordered after its party's own stores waits until its queue is empty, or reports a lost one (09 R176). -/
def State.queueDone (s : State) (c : Ctx) (k : State → Res) : Res :=
  if (s.flight c.who).sq.ents.isEmpty then k s
  else match s.takeLost c.who queuedLost with
    | some (s, line) => Res.ackLost s line c.exec
    | none => .wait s false

def trapAux (s : State) (c : Ctx) (x : Cause) (addr aux : Nat) : Res := .trap s (TrapArgs.of x (BitVec.ofNat 64 addr) aux c.active)

/-! Arrivals and waits -/

/-- The arrivals of the word's party: by slice of the gang, or the one of a front end or a matrix stream; each with the lanes it counts. -/
def State.arrivals (s : State) (c : Ctx) : List (Nat × Nat × Option Arrival) :=
  match c.who.party with
  | .front b => [(0, 1, ((s.block c.who.core b).bind (·.front)).bind (·.arr))]
  | .matrix b => [(0, 1, ((s.block c.who.core b).bind (·.matrix)).bind (·.arr))]
  | _ =>
    match s.warp c.who with
    | none => []
    | some w => (onesOf w.gang).filterMap fun k => (w.slices[k]?).map fun x => (k, popCount x.mask, x.arr)

/-- The lanes that have not arrived yet count toward the phase (09 R182). -/
def freshCount (l : List (Nat × Nat × Option Arrival)) : Nat := ((l.filter fun e => e.2.2.isNone).map (·.2.1)).sum

/-- Change the arrivals of the gang, or of the party. -/
def State.setArr (s : State) (c : Ctx) (f : Option Arrival → Option Arrival) : State :=
  match c.who.party with
  | .front b => s.updFront c.who.core b fun x => { x with arr := f x.arr }
  | .matrix b => s.updMatrix c.who.core b fun x => { x with arr := f x.arr }
  | _ => s.updWarp c.who fun w => w.mapGang fun x => { x with arr := f x.arr }

/-- How a wait for a phase stands. -/
inductive WaitState
  | waiting
  | complete
  | failed (c : Cause)
  deriving DecidableEq, Repr

/-- The slices of a gang whose wait is over go on; the others stay parked. -/
def Warp.release (w : Warp) (next : DWord) (over_ : Arrival → Bool) : Warp :=
  Warp.boundary (w.mapGang fun x =>
    match x.arr with
    | some a => if over_ a then { x with pc := next, arr := none } else x
    | none => x) true

/-- A word waits for the phases that its arrivals joined (20 R294, 21 R329): parked at a switch point until they complete, then an
acquire at the barrier; a phase that failed traps. -/
def State.waitAll (s : State) (c : Ctx) (st : Arrival → WaitState) (sc : Scope) (aux : Nat) (at_ : Place) : Res :=
  let as := (s.arrivals c).filterMap (·.2.2)
  let bad := as.findSome? fun a => match st a with | .failed x => some x | _ => none
  match bad with
  | some x => trapAux (s.setArr c fun _ => none) c x 0 (if x = .peerLost then 0 else aux)
  | none =>
    if as.all fun a => st a == .complete then .done (s.acquire c.who sc at_) .go
    else if as.any fun a => st a == .complete then
      .left ((s.acquire c.who sc at_).updWarp c.who fun w => w.release c.next fun a => st a == .complete)
    else .wait s true

/-! Named barriers (09 R182) -/

def Bar.init : Bar := ⟨0, 0, 0, []⟩

/-- An arrival that counts k with expected count x: the barrier after it, and whether it traps. -/
def Bar.arrive (b : Bar) (k x : Nat) : Bar × Bool :=
  if (b.count != 0 && x != b.expect) || decide (b.count + k > x) then
    ({ b with count := 0, expect := 0, phase := b.phase + 1, failed := b.phase :: b.failed }, true)
  else if b.count + k = x then ({ b with count := 0, expect := 0, phase := b.phase + 1 }, false)
  else ({ b with count := b.count + k, expect := x }, false)

def Block.bar (b : Block) (id : Nat) : Bar := (Tbl.get none b.bars id).getD Bar.init
def Block.setBar (b : Block) (id : Nat) (x : Bar) : Block := { b with bars := Tbl.set none b.bars id (some x) }

/-- Where a phase of a barrier stands. -/
def Bar.state (b : Bar) (phase : Nat) : WaitState :=
  if b.failed.contains phase then .failed .barErr else if b.phase > phase then .complete else .waiting

/-- One arrival at a barrier of the block: the state and the phase joined, none where it traps (BARERR). -/
def State.barArrive (s : State) (core slot id k x : Nat) : State × Option Nat :=
  match s.block core slot with
  | none => (s, none)
  | some b =>
    let (y, bad) := (b.bar id).arrive k x
    (s.setBlock core slot (some (b.setBar id y)), if bad then none else some (b.bar id).phase)

/-- The arrival of BARA and BARW (20 R294): id and count are checked, then it is a release. -/
def State.barWord (s : State) (c : Ctx) (id x k : Nat) (go : State → Nat → Res) : Res :=
  if id > 15 || x < 1 || x > 1026 then trapAux s c .illegal 0 0
  else s.released c .blk (fun s =>
    match s.barArrive (s.bcore c) (s.bslot c) id k x with
    | (s, none) => trapAux s c .barErr 0 id
    | (s, some phase) => go s phase) (.bar id)

def State.barState (s : State) (c : Ctx) (a : Arrival) : WaitState :=
  match s.blockOf c.who with
  | some b => (b.bar a.id).state a.phase
  | none => .waiting

def execBarw (id : BitVec 16) (b : BitVec 8) (s : State) : Out :=
  s.issue (.barw id b) 0x70 ⟨0, false⟩ fun c s => s.atHome c fun s =>
    let k := freshCount (s.arrivals c)
    if k = 0 then s.logged c fun s => s.waitAll c (s.barState c) .blk id.toNat (.bar id.toNat)
    else s.barWord c id.toNat (s.breg c b) k fun s phase =>
      let s := s.setArr c fun a => some (a.getD ⟨false, id.toNat, phase⟩)
      s.waitAll c (s.barState c) .blk id.toNat (.bar id.toNat)

def execBara (id : BitVec 16) (b : BitVec 8) (s : State) : Out :=
  s.issue (.bara id b) 0x71 ⟨0, false⟩ fun c s => s.atHome c fun s =>
    s.barWord c id.toNat (s.breg c b) (freshCount ((s.arrivals c).map fun e => (e.1, e.2.1, none))) fun s _ => .done s .go

/-! Byte-counting barriers (09 R178 to R180) -/

/-- The fields of 09 Table 5. -/
structure Bcb where
  expb : Nat
  arrb : Nat
  arrn : Nat
  remn : Nat
  ph : Bool
  ep : Bool
  err : Bool
  cause : Nat
  eaddr : Nat
  deriving DecidableEq, Repr

def Bcb.read (v : Nat) : Bcb where
  expb := v % 2 ^ 32
  arrb := v / 2 ^ 32 % 2 ^ 32
  arrn := v / 2 ^ 64 % 2 ^ 16
  remn := v / 2 ^ 80 % 2 ^ 16
  ph := v.testBit 96
  ep := v.testBit 97
  err := v.testBit 98
  cause := v / 2 ^ 104 % 2 ^ 8
  eaddr := v / 2 ^ 128 % 2 ^ 64

/-- The record: reserved fields are written as zero. -/
def Bcb.word (b : Bcb) : Nat :=
  b.expb + b.arrb * 2 ^ 32 + b.arrn * 2 ^ 64 + b.remn * 2 ^ 80 + b.ph.toNat * 2 ^ 96 + b.ep.toNat * 2 ^ 97 + b.err.toNat * 2 ^ 98 +
    b.cause * 2 ^ 104 + b.eaddr * 2 ^ 128

/-- Error(c) (09 R179). -/
def Bcb.fail (b : Bcb) (c : Cause) (addr : Nat) : Bcb :=
  { b with err := true, cause := c.code, eaddr := addr, ph := !b.ph, ep := false, expb := 0, arrb := 0, remn := b.arrn }

/-- Check, with the BCB's scratch offset (09 R179). -/
def Bcb.check (b : Bcb) (off : Nat) : Bcb :=
  if b.ep && decide (b.arrb > b.expb) then b.fail .barOver off
  else if b.ep && b.arrb == b.expb && b.remn == 0 then { b with ph := !b.ph, ep := false, expb := 0, arrb := 0, remn := b.arrn }
  else b

/-- The operations of 09 Table 6. -/
inductive BcbOp
  | init (n : Nat)
  | expect (n : Nat)
  | bytes (n : Nat)
  | arrive
  | refuse (c : Cause) (addr : Nat)
  deriving DecidableEq, Repr

/-- One operation on a BCB at an offset, then Check; with an error set only BCBINIT changes it. The result says whether an arriving word
traps. -/
def Bcb.op (b : Bcb) (off : Nat) : BcbOp → Bcb × Bool
  | .init n => (⟨0, 0, n, n, false, false, false, 0, 0⟩, false)
  | .expect n =>
    if b.err then (b, false)
    else
      let e := (if b.ep then b.expb else 0) + n
      if e ≥ 2 ^ 32 then (b.fail .barOver off, false) else (Bcb.check { b with expb := e, ep := true } off, false)
  | .bytes n =>
    if b.err then (b, false)
    else if b.arrb + n ≥ 2 ^ 32 then (b.fail .barOver off, false)
    else (Bcb.check { b with arrb := b.arrb + n } off, false)
  | .arrive =>
    if b.err then (b, false)
    else if b.remn = 0 then (b.fail .barErr off, true)
    else (Bcb.check { b with remn := b.remn - 1 } off, false)
  | .refuse c a => if b.err then (b, false) else (b.fail c a, false)

/-- The record of a BCB in a block's scratch, and its new value: one operation of the record's order, which writes every unit of it, seen by
every path. -/
def State.bcb (s : State) (core slot off : Nat) : Bcb := Bcb.read (natOf (Tbl.getList 0 (s.scratch core slot).bytes off 32))
def State.setBcb (s : State) (core slot off : Nat) (b : Bcb) : State :=
  s.updBlock core slot fun x =>
    let y := x.scratch
    { x with scratch := { y with
        bytes := Tbl.setList 0 y.bytes off (bytesOf 32 b.word)
        bad := Tbl.drop y.bad fun k => decide (off ≤ 4 * k) && decide (4 * k < off + 32)
        path := Tbl.drop y.path fun a => decide (off ≤ a) && decide (a < off + 32) } }

/-- An operation on a BCB. One other than BCBINIT changes nothing where ERR is set (09 R179). -/
def State.bcbOp (s : State) (core slot off : Nat) (o : BcbOp) : State × Bool :=
  let x := s.bcb core slot off
  let (b, bad) := x.op off o
  match o with
  | .init _ => (s.setBcb core slot off b, bad)
  | _ => if x.err then (s, bad) else (s.setBcb core slot off b, bad)

/-- The fault of a copy request that its BCB or its ring reports (08 R146): a cause of 08 R153 is that of a translated access (12 R226). -/
def TrapArgs.reported (c : Cause) (addr : DWord) (lanes : BitVec 32) : TrapArgs :=
  { TrapArgs.of c addr 0 lanes with access := [.readDeny, .writeDeny, .atomDeny, .privDeny, .remote].contains c }

/-- A wait for phase p (09 R180): none while it is not satisfied. -/
def Bcb.wait (b : Bcb) (off p : Nat) : Option (Except TrapArgs Unit) :=
  if b.err then
    some (.error (match Cause.ofCode b.cause with
      | some c => TrapArgs.reported c (BitVec.ofNat 64 b.eaddr) 0
      | none => TrapArgs.of .barErr (BitVec.ofNat 64 off) 0 0))
  else if b.ph != (p % 2 == 1) then some (.ok ())
  else none

/-- Where an object of scratch may not stand (20 R289): alignment, the scratch size. -/
def State.placeTrap (s : State) (c : Ctx) (off align n : Nat) : Option TrapArgs :=
  if off % align != 0 then some (TrapArgs.of .align (BitVec.ofNat 64 off) 0 c.active)
  else if off + n > (s.scratch (s.bcore c) (s.bslot c)).size then some (TrapArgs.of .notPresent (BitVec.ofNat 64 off) 0 c.active)
  else none

/-- What makes an object that a word reads unusable: where it stands, or poison (12 R241). -/
def State.objTrap (s : State) (c : Ctx) (off align n : Nat) : Option TrapArgs :=
  match s.placeTrap c off align n with
  | some t => some t
  | none => ((s.scratch (s.bcore c) (s.bslot c)).badAt off n).map fun a => TrapArgs.of .poison (BitVec.ofNat 64 a) 0 c.active

/-- A BCB word at home, on the record at Q0 (20 R295, R296). -/
def State.bcbWord (s : State) (c : Ctx) (a : BitVec 8) (k : State → Nat → Res) : Res :=
  s.atHome c fun s =>
    let off := s.quadReg c a 0
    match s.objTrap c off 32 32 with
    | some t => .trap s t
    | none => k s off

/-- BCBINIT reads nothing of the record, and writes all of it. -/
def execBcbinit (a : BitVec 8) (s : State) : Out :=
  s.issue (.bcbinit a) 0x72 ⟨0, false⟩ fun c s => s.atHome c fun s =>
    let off := s.quadReg c a 0
    let n := s.quadReg c a 1
    match s.placeTrap c off 32 32 with
    | some t => .trap s t
    | none => if n > 65535 then trapAux s c .illegal 0 0 else .done (s.bcbOp (s.bcore c) (s.bslot c) off (.init n)).1 .go

def execBcbexp (a b : BitVec 8) (s : State) : Out :=
  s.issue (.bcbexp a b) 0x73 ⟨0, false⟩ fun c s => s.bcbWord c a fun s off => s.released c .blk (fun s =>
    .done (s.bcbOp (s.bcore c) (s.bslot c) off (.expect (s.breg c b))).1 .go) (.bcb off)

/-- BCBARV at REMN 0 traps, and the BCB takes the error (09 R179). -/
def execBcbarv (a : BitVec 8) (s : State) : Out :=
  s.issue (.bcbarv a) 0x74 ⟨0, false⟩ fun c s => s.bcbWord c a fun s off => s.released c .blk (fun s =>
    match s.bcbOp (s.bcore c) (s.bslot c) off .arrive with
    | (s, true) => trapAux s c .barErr off 0
    | (s, false) => .done s .go) (.bcb off)

def execBcbwait (a b : BitVec 8) (s : State) : Out :=
  s.issue (.bcbwait a b) 0x75 ⟨0, false⟩ fun c s => s.bcbWord c a fun s off => s.logged c fun s =>
    match (s.bcb (s.bcore c) (s.bslot c) off).wait off (s.breg c b) with
    | some (.ok _) => .done (s.acquire c.who .blk (.bcb off)) .go
    | some (.error t) => .trap s { t with lanes := c.active }
    | none => .wait s true

/-- BCBTRY: where the wait is not satisfied it neither waits nor acquires. -/
def execBcbtry (a b : BitVec 8) (s : State) : Out :=
  s.issue (.bcbtry a b) 0x76 ⟨0, false⟩ fun c s => s.bcbWord c a fun s off =>
    match (s.bcb (s.bcore c) (s.bslot c) off).wait off (s.breg c b) with
    | some (.ok _) => s.logged c fun s => .done ((s.acquire c.who .blk (.bcb off)).put c c.active b.toNat fun _ => 1) .go
    | some (.error t) => .trap s { t with lanes := c.active }
    | none => .done (s.put c c.active b.toNat fun _ => 0) .go

/-! Rings (09 R181, 08 R147) -/

def Block.ring (b : Block) (id : Nat) : Option Ring := Tbl.get none b.rings id
def State.ring (s : State) (core slot id : Nat) : Option Ring := (s.block core slot).bind (·.ring id)

/-- The number of FILLED slots (09 R181). -/
def Ring.filled (r : Ring) : Nat := (r.slots.filter (· == .filled)).length

/-- The role scheduler's view of its ring (02 R30): since when the occupancy has stayed below LOWT, or at or above HIGHT. -/
def Roles.note (x : Roles) (filled now : Nat) : Roles :=
  { x with
    lowSince := if filled < fld 328 8 x.table then some (x.lowSince.getD now) else none
    highSince := if filled ≥ fld 336 8 x.table then some (x.highSince.getD now) else none }

/-- A ring changes; the role scheduler sees its occupancy. -/
def State.setRing (s : State) (core slot id : Nat) (r : Ring) : State :=
  s.updBlock core slot fun b =>
    { b with
      rings := Tbl.set none b.rings id (some r)
      roles := b.roles.map fun x => if fld 320 8 x.table = id then x.note r.filled s.tref.toNat else x }

/-- A party takes the slot at a cursor: `fill` at the fill cursor (it becomes FILLING), else at the drain cursor (DRAINING). -/
def Ring.takeSlot (r : Ring) (h : Holder) (fill : Bool) : Ring × Nat :=
  let k := if fill then r.fillCur else r.drainCur
  let next := if k + 1 < r.slots.length then k + 1 else 0
  let r : Ring := { r with slots := r.slots.set k (if fill then .filling else .draining), taken := r.taken ++ [(⟨h, k, fill⟩ : Taken)] }
  (if fill then { r with fillCur := next } else { r with drainCur := next }, k)

/-- Whether the slot at a cursor can be taken. -/
def Ring.ready (r : Ring) (fill : Bool) : Bool :=
  if fill then r.slots[r.fillCur]? == some .free else r.slots[r.drainCur]? == some .filled

/-- Two waiters are one: the same holder, with gangs that have slices in common. -/
def RingWaiter.same (x : RingWaiter) (h : Holder) (gang : BitVec 8) : Bool :=
  x.holder == h && (gang == 0 || x.gang == 0 || (x.gang &&& gang) != 0)

def Ring.waiters (r : Ring) (fill : Bool) : List RingWaiter := if fill then r.waitFree else r.waitFill
def Ring.setWaiters (r : Ring) (fill : Bool) (l : List RingWaiter) : Ring :=
  if fill then { r with waitFree := l } else { r with waitFill := l }

/-- A take served in the order in which parties began to wait (23 R376): the slot, or none with the party among the waiters. -/
def Ring.acquire (r : Ring) (h : Holder) (gang : BitVec 8) (fill : Bool) : Ring × Option Nat :=
  let l := r.waiters fill
  let mine := match l with | [] => true | x :: _ => x.same h gang
  if mine && r.ready fill then
    let (r, k) := (r.setWaiters fill (l.filter fun x => !x.same h gang)).takeSlot h fill
    (r, some k)
  else if l.any fun x => x.same h gang then (r, none)
  else (r.setWaiters fill (l ++ [(⟨h, gang⟩ : RingWaiter)]), none)

/-- The party's oldest slot of a kind is released (09 R181): none where it holds none. -/
def Ring.give (r : Ring) (h : Holder) (fill : Bool) : Option Ring :=
  match r.taken.find? fun t => t.holder == h && t.fill == fill with
  | none => none
  | some t => some { r with
      slots := r.slots.set t.slot (if fill then .filled else .free)
      taken := r.taken.filter fun x => !(x.holder == h && x.slot == t.slot && x.fill == fill) }

/-- The holder that a party's word acts as: the warp across its gangs, or the front end. -/
def State.holder (s : State) (c : Ctx) : Holder × BitVec 8 :=
  match c.who.party with
  | .warp n => (.warp n, ((s.warp c.who).map (·.gang)).getD 0)
  | .landing => (.warp 0, 0)
  | .front _ => (.front, 0)
  | .matrix _ => (.matrix, 0)

/-- A ring of a word: its id, its presence and its error (23 R376, 08 R147). -/
def State.ringWord (s : State) (c : Ctx) (id : Nat) (k : State → Ring → Res) : Res :=
  s.atHome c fun s =>
    if id > 255 then trapAux s c .illegal 0 0
    else match s.ring (s.bcore c) (s.bslot c) id with
      | none => trapAux s c .ringErr 0 id
      | some r =>
        match r.err with
        | some (code, a) => .trap s (TrapArgs.reported ((Cause.ofCode code).getD .ringErr) a c.active)
        | none => k s r

/-- RINGACQ (23 R376). -/
def State.ringAcq (s : State) (c : Ctx) (id : Nat) (b : BitVec 8) (fill : Bool) : Res :=
  s.ringWord c id fun s _ => s.logged c fun s =>
    match s.ring (s.bcore c) (s.bslot c) id with
    | none => trapAux s c .ringErr 0 id
    | some r =>
      let h := s.holder c
      match r.acquire h.1 h.2 fill with
      | (r, some k) =>
        .done (((s.setRing (s.bcore c) (s.bslot c) id r).acquire c.who .blk (.ring id)).put c c.active b.toNat
          fun _ => BitVec.ofNat 64 (r.off + k * r.size)) .go
      | (r, none) => .wait (s.setRing (s.bcore c) (s.bslot c) id r) true

/-- RINGREL (23 R376). -/
def State.ringRel (s : State) (c : Ctx) (id : Nat) (fill : Bool) : Res :=
  s.ringWord c id fun s _ => s.released c .blk (fun s =>
    match (s.ring (s.bcore c) (s.bslot c) id).bind fun r => r.give (s.holder c).1 fill with
    | none => trapAux s c .ringErr 0 id
    | some r => .done (s.setRing (s.bcore c) (s.bslot c) id r) .go) (.ring id)

/-- A ring in error has requests of the refused command still in flight (23 R375). -/
def State.ringBusy (s : State) (core slot id : Nat) : Bool :=
  (s.core core).cmds.any fun x => x.blk == slot && x.ring == some id && !x.flight.isEmpty

def execRinginit (id : BitVec 16) (a : BitVec 8) (s : State) : Out :=
  s.issue (.ringinit id a) 0x77 ⟨0, false⟩ fun c s => s.atHome c fun s =>
    let off := s.quadReg c a 0
    let n := s.quadReg c a 1
    let size := s.quadReg c a 2
    let k := id.toNat
    let old := s.ring (s.bcore c) (s.bslot c) k
    let inError := (old.map (·.err.isSome)).getD false
    let busy := match old with
      | some r => r.slots.any (· != .free) || !r.waitFree.isEmpty || !r.waitFill.isEmpty
      | none => false
    if k > 255 then trapAux s c .illegal 0 0
    else if off % 128 != 0 then trapAux s c .align off 0
    else if size % 128 != 0 then trapAux s c .align size 0
    else if n < 1 || n > 256 || size = 0 then trapAux s c .illegal 0 0
    else if off + n * size > (s.scratch (s.bcore c) (s.bslot c)).size then trapAux s c .notPresent off 0
    else if busy && !inError then trapAux s c .ringErr 0 k
    else if inError && s.ringBusy (s.bcore c) (s.bslot c) k then .wait s false
    else
      let r : Ring := ⟨off, size, List.replicate n .free, [], 0, 0, [], [], none⟩
      .done ((s.setRing (s.bcore c) (s.bslot c) k r).updMatrix (s.bcore c) (s.bslot c) fun m => { m with pos := Tbl.set none m.pos k none }) .go

def execRingacqFill (id : BitVec 16) (b : BitVec 8) (s : State) : Out :=
  s.issue (.ringacqFill id b) 0x78 ⟨0, false⟩ fun c s => s.ringAcq c id.toNat b false

def execRingacqFree (id : BitVec 16) (b : BitVec 8) (s : State) : Out :=
  s.issue (.ringacqFree id b) 0x78 ⟨0, false⟩ fun c s => s.ringAcq c id.toNat b true

def execRingrelFill (id : BitVec 16) (s : State) : Out :=
  s.issue (.ringrelFill id) 0x79 ⟨0, false⟩ fun c s => s.ringRel c id.toNat true

def execRingrelFree (id : BitVec 16) (s : State) : Out :=
  s.issue (.ringrelFree id) 0x79 ⟨0, false⟩ fun c s => s.ringRel c id.toNat false

/-! Card barriers (21 R329, R330) -/

def CardBar.init : CardBar := ⟨none, [], 0, [], []⟩
def CardRun.bar (r : CardRun) (id : Nat) : CardBar := (Tbl.get none r.bars id).getD CardBar.init

/-- A card's flags (10 Table 1). -/
def cardCores (card : BitVec 1024) : Bool := flag 452 card
def cardHasFront (card : BitVec 1024) : Bool := fld 64 64 card != 0

/-- The blocks of a run that are placed, and those that are saved, each with its warps and its front end. -/
def State.runBlocks (s : State) (run : Nat) : List (Block × List Warp) :=
  (s.cores.flatMap fun (c, k) => k.blocks.filterMap fun (b, x) => match x with
    | some x => if x.dealt.run = run then some (x, (s.blockWarps c b).map (·.2)) else none
    | none => none) ++
  s.saved.filterMap fun x => if x.block.dealt.run = run then some (x.block, x.warps) else none

/-- The arrival of a block in the phase is complete: every lane that has not exited, and the front end. -/
def CardBar.blockIn (y : CardBar) (b : Block) (ws : List Warp) : Bool :=
  let arrived (k : Nat) : BitVec 32 := Tbl.get 0 y.arrived (33 * b.dealt.num + k)
  ws.all (fun w => w.alive &&& ~~~(arrived w.wid) == 0) &&
  match b.front with
  | some f => f.ended || arrived 32 != 0
  | none => true

/-- The phase of a card barrier completes once every block has (21 R329), but for those withdrawn with their die: it then fails with PEERLOST
(21 R330). -/
def State.cardBarSettle (s : State) (run id : Nat) : State :=
  match s.run run with
  | none => s
  | some r =>
    let y := r.bar id
    if y.arrived.isEmpty || !(s.runBlocks run).all fun p => y.gone.contains p.1.dealt.num || y.blockIn p.1 p.2 then s
    else
      let next : CardBar := ⟨none, [], y.phase + 1, if r.peerLost || !y.gone.isEmpty then (y.phase, .peerLost) :: y.failed else y.failed, []⟩
      s.setRun run (some { r with bars := Tbl.set none r.bars id (some next) })

/-- Every card barrier of a run settles. -/
def State.settleBars (s : State) (run : Nat) : State :=
  match s.run run with
  | none => s
  | some r => (r.bars.map (·.1)).foldl (fun s id => s.cardBarSettle run id) s

/-- The lanes that arrive: those of the gang's slices that have not arrived, by warp; bit 0 for a front end. -/
def State.freshLanes (s : State) (c : Ctx) : BitVec 32 :=
  let fresh := (s.arrivals c).filter fun e => e.2.2.isNone
  match c.who.party with
  | .front _ | .matrix _ => if fresh.isEmpty then 0 else 1
  | _ => maskOf 32 fun l => c.active.getLsbD l && fresh.any fun e => e.1 == l / 4

def State.gbarKey (s : State) (c : Ctx) : Nat :=
  33 * c.blk.dealt.num + (match c.who.party with | .front _ => 32 | _ => ((s.warp c.who).map (·.wid)).getD 0)

def State.cardBarState (s : State) (run : Nat) (a : Arrival) : WaitState :=
  match s.run run with
  | none => .waiting
  | some r =>
    match (r.bar a.id).failed.find? fun e => e.1 == a.phase with
    | some e => .failed e.2
    | none => if (r.bar a.id).phase > a.phase then .complete else .waiting

/-- One arrival: none where its scope differs, which fails the phase. -/
def State.gbarArrive (s : State) (c : Ctx) (id : Nat) (sc : Scope) : State × Option Nat :=
  let run := c.blk.dealt.run
  match s.run run with
  | none => (s, none)
  | some r =>
    let y := r.bar id
    if y.scope.any (· != sc) then
      let next : CardBar := ⟨none, [], y.phase + 1, (y.phase, .barErr) :: y.failed, []⟩
      (s.setRun run (some { r with bars := Tbl.set none r.bars id (some next) }), none)
    else
      let y' := { y with scope := some sc, arrived := Tbl.upd 0 y.arrived (s.gbarKey c) (· ||| s.freshLanes c) }
      ((s.setRun run (some { r with bars := Tbl.set none r.bars id (some y') })).setArr c fun a => some (a.getD ⟨true, id, y.phase⟩), some y.phase)

def execGbar (id : BitVec 16) (scope : Scope) (s : State) : Out :=
  s.issue (.gbar id scope) 0x7A ⟨0, false⟩ fun c s => s.atHome c fun s =>
    let run := c.blk.dealt.run
    let at_ : Place := .cardBar (16 * run + id.toNat)
    let wait (s : State) : Res :=
      let s := s.cardBarSettle run id.toNat
      s.waitAll c (s.cardBarState run) scope id.toNat at_
    if s.freshLanes c == 0 then s.logged c wait
    else if id.toNat > 15 || !cardCores c.blk.dealt.card then trapAux s c .illegal 0 0
    else s.released c scope (fun s =>
      match s.gbarArrive c id.toNat scope with
      | (s, none) => trapAux s c .barErr 0 id.toNat
      | (s, some _) => wait s) at_

/-! The decision queue (02 R27, R28; 20 R309) -/

def execDqpop (d : BitVec 8) (hd : Hint) (g : Guard) (s : State) : Out :=
  s.issue (.dqpop d hd g) 0x7B g fun c s => s.atHome c fun s => s.logged c fun s =>
    match s.blockOf c.who, s.warp c.who with
    | some b, some w =>
      match b.dq[w.dqPos - b.dqBase]? with
      | some v =>
        let s := (s.acquire c.who .blk .queue).put64 c c.exec d.toNat fun _ => v
        .done ((s.updWarp c.who fun w =>
          { w with dqPos := w.dqPos + 1, popping := w.popping &&& ~~~w.gang }).retireDq (s.bcore c) (s.bslot c)) .go
      | none =>
        if (b.front.map (!·.ended)).getD false then .wait (s.updWarp c.who fun w => { w with popping := w.popping ||| w.gang }) true
        else .trap (s.updWarp c.who fun w => { w with popping := w.popping &&& ~~~w.gang }) (TrapArgs.of .barErr 0 0 c.exec)
    | _, _ => .left s

/-! Roles (02 R29 to R31) -/

/-- A role table that R29 does not allow, with the block's rings and the number of its warps. -/
def rolesBroken (b : Block) (warps : Nat) (t : BitVec 512) : Bool :=
  fld 365 147 t != 0 || (b.ring (fld 320 8 t)).isNone || (List.range warps).any (fun w => roleEntry t (roleOf t w) == 0) ||
  decide (fld 336 8 t < fld 328 8 t) || (fld 344 16 t == 0 && fld 360 5 t != 0)

/-- ROLECHK (02 R31, 23 R377). DESIGN CHOICE (entry 16): a slice that has ended has no call depth that could hold the change back. -/
def execRolechk (s : State) : Out :=
  s.issue .rolechk 0x7C ⟨0, false⟩ fun c s => s.atHome c fun s =>
    match s.blockOf c.who, s.warp c.who with
    | some b, some w =>
      match b.roles with
      | none => trapAux s c .roleErr 0 0
      | some t =>
        if b.roleBad || rolesBroken b b.warpCount t.table then trapAux (s.updB c fun b => { b with roleBad := true }) c .illegal 0 0
        else match w.flag with
          | none => .done s .go
          | some role =>
            if w.whole && w.slices.all fun x => x.ended || (x.depth == 0 && x.stack.isEmpty) then
              let entry := roleEntry t.table role
              .jump (s.updWarp c.who fun w => { w with flag := none, role := role }) (fun _ => some (entry, 0))
                (decide (entry.toNat ≤ c.pc.toNat))
            else .done s .go
    | _, _ => .left s

/-- A warp that is blocked in RINGACQ, or in DQPOP with its view still empty (02 R30). -/
def Block.takingBlocked (b : Block) (n : Nat) (w : Warp) : Bool :=
  (b.rings.any fun e => match e.2 with
    | some r => (r.waitFree ++ r.waitFill).any fun x => x.holder == .warp n
    | none => false) ||
  (w.popping != 0 && decide (w.dqPos ≥ b.dqBase + b.dq.length))

/-- A flag is raised on, or cleared from, a warp of the block, in its slot or away (08 R157); the window starts again. -/
def State.setFlag (s : State) (core slot n : Nat) (f : Option Nat) : State :=
  let s := match s.slotWarp core n with
    | some p => s.updWarp p.1 fun w => { w with flag := f }
    | none => s
  s.updBlock core slot fun b => { b with roles := b.roles.map fun x =>
    { x with lowSince := x.lowSince.map fun _ => s.tref.toNat, highSince := x.highSince.map fun _ => s.tref.toNat } }

/-- The end of a window of the role scheduler (02 R30): at most one flag is raised or cleared. The LOAD role has code 0, CONVERT 1. DESIGN
CHOICE (entry 16): of several pending flags of one direction that of the lowest-numbered warp is cleared. -/
def State.roleWindow (s : State) (core slot : Nat) : State :=
  match s.block core slot with
  | none => s
  | some b =>
    match b.roles with
    | none => s
    | some t =>
      let win := 16 * fld 344 16 t.table
      let past (x : Option Nat) : Bool := match x with | some a => decide (a + win ≤ s.tref.toNat) | none => false
      let ws := b.warps.filterMap fun n => (s.slotWarp core n).map fun w => (n, w.2)
      let moved (w : Warp) : Bool := roleOf t.table w.wid == 1 && w.role == 0
      let counts := (ws.filter fun p => moved p.2 || p.2.flag == some 0).length
      let max := fld 360 5 t.table
      if b.roleBad || max = 0 || rolesBroken b b.warpCount t.table then s
      else if past t.lowSince then
        match ws.find? fun p => p.2.flag == some 1 with
        | some p => s.setFlag core slot p.1 none
        | none =>
          if counts ≥ max then s
          else match ws.find? fun p =>
              p.2.role == 1 && p.2.flag.isNone && b.takingBlocked p.1 p.2 with
            | some p => s.setFlag core slot p.1 (some 0)
            | none => s
      else if past t.highSince then
        match ws.find? fun p => p.2.flag == some 0 with
        | some p => s.setFlag core slot p.1 none
        | none =>
          match ws.reverse.find? fun p => moved p.2 && p.2.flag.isNone with
          | some p => s.setFlag core slot p.1 (some 1)
          | none => s
      else s

def execRoleFlagWindow (core blk : Nat) (s : State) : Out := .next (s.tick.roleWindow core blk)

end Sys2Proof.Machine
end

