-- ==== Sys2Proof/Machine/Yeline.lean ====
section
/-! DEFINITION. Yeline ports (13 R250 to R252): flits sealed and opened, the replay buffer, key slots, and the port that carries a request. -/

namespace Sys2Proof.Machine

def State.port (s : State) (p : Nat) : Port := Tbl.get Port.init s.host.ports p
def State.setPort (s : State) (p : Nat) (x : Port) : State := { s with host := { s.host with ports := Tbl.set Port.init s.host.ports p x } }

def Port.slot (x : Port) (k : Bool) : KeySlot := if k then x.slot1 else x.slot0
def Port.setSlot (x : Port) (k : Bool) (v : KeySlot) : Port := if k then { x with slot1 := v } else { x with slot0 := v }

/-! Flits (13 R251) -/

/-- The header: sequence number, key slot, type. -/
def flitHeader (seq : BitVec 48) (slot : Bool) (type : Nat) : List Byte :=
  bytesOf 8 (seq.toNat + (if slot then 2 ^ 48 else 0) + 2 ^ 49 * (type % 8))

/-- The nonce: the port number in 32 bits, then the slot's 64-bit flit counter, each little-endian (00 R6, DEDUCED, entry 15). -/
def flitNonce (port counter : Nat) : List Byte := bytesOf 4 port ++ bytesOf 8 counter

/-- A flit under a key slot. -/
def sealFlit (port : Nat) (k : KeySlot) (seq : BitVec 48) (slot : Bool) (type : Nat) (payload : List Byte) : List Byte :=
  let h := flitHeader seq slot type
  let c := gcmSeal (bytesOf 32 k.key.toNat) (flitNonce port k.sealed) h payload
  h ++ c.1 ++ c.2

/-- A port sends a flit: it is sealed under the slot in use, and kept for replay. -/
def Port.send (p : Nat) (x : Port) (type : Nat) (payload : List Byte) : Port :=
  let k := x.slot x.tx
  let f := sealFlit p k x.next x.tx type payload
  { x.setSlot x.tx { k with sealed := k.sealed + 1 } with
    next := x.next + 1, replay := x.replay ++ [⟨x.tx, f⟩], out := x.out ++ [f] }

/-- A port sends nothing more for now: the counter of its slot has reached 2^48 (13 R252), or its replay buffer lacks room for n flits. -/
def Port.stopped (x : Port) (n : Nat) : Bool := decide (2 ^ 48 < (x.slot x.tx).sealed + n) || decide (1024 < x.replay.length + n)

/-- The key slot, the type, and the payload where the tag verifies, of a flit received: its header fields are as the format has them. -/
def Port.unseal (p : Nat) (x : Port) (flit : List Byte) : Option (Bool × Nat × List Byte) :=
  let h := natOf (flit.take 8)
  let slot := h.testBit 48
  let k := x.slot slot
  if flit.length != 256 || h / 2 ^ 52 != 0 then none
  else (gcmOpen (bytesOf 32 k.key.toNat) (flitNonce (Config.linkPort p) k.opened) (flit.take 8) ((flit.drop 8).take 232) (flit.drop 240)).map
    fun b => (slot, h / 2 ^ 49 % 8, b)

/-- A flit arrives: one that is not the next in sequence is discarded; one that fails is discarded and asked for again; another is accepted, and
counts in the slot that it records (13 R251, R252). -/
def Port.receive (p : Nat) (x : Port) (flit : List Byte) : Port :=
  if natOf (flit.take 8) % 2 ^ 48 != x.expect.toNat then x
  else match x.unseal p flit with
    | none => { x with asked := true }
    | some (slot, type, b) =>
      let k := x.slot slot
      { x.setSlot slot { k with opened := k.opened + 1 } with
        expect := x.expect + 1, accepted := x.accepted ++ [(type, b)], asked := false }

/-- The other end has acknowledged n flits, and may ask for the rest again: they are sent exactly as sealed. -/
def Port.acknowledged (x : Port) (n : Nat) (again : Bool) : Port :=
  let x := { x with replay := x.replay.drop n }
  if again then { x with out := x.out ++ x.replay.map (·.bytes) } else x

/-- A key is loaded into the slot not in use and transmission switches to it. A slot of which the replay buffer holds flits is not retired,
and takes no key (13 R252). -/
def Port.switchKey (x : Port) (key : BitVec 256) : Port :=
  if x.replay.any (·.slot == !x.tx) then x else { x.setSlot (!x.tx) ⟨key, 0, 0⟩ with tx := !x.tx }

/-- FLIT_RECEIVE (13 R251): a port that has failed takes nothing. -/
def execFlitReceive (port : Nat) (flit : List Byte) (reply : FlitReply) (s : State) : Out :=
  let s := s.tick
  let x := s.port port
  .next (if port ≥ 24 || x.failed then s else s.setPort port ((x.receive port flit).acknowledged reply.acked reply.again))

def execKeySwitch (k : PortKey) (s : State) : Out :=
  let s := s.tick
  .next (if k.port < 24 then s.setPort k.port ((s.port k.port).switchKey k.key) else s)

/-- KEY_SLOT_EXHAUSTED: the slot in use has sealed 2^48 flits, and transmission on the port stops. Flits that carry no request, and which the
model does not show, count as well (entry 15). -/
def execKeySlotExhausted (port : Nat) (s : State) : Out :=
  let s := s.tick
  let x := s.port port
  .next (if port < 24 then s.setPort port (x.setSlot x.tx { x.slot x.tx with sealed := 2 ^ 48 }) else s)

def execYelinePortRetrainFail (port : Nat) (s : State) : Out :=
  let s := s.tick
  .next (if port < 24 then s.setPort port { s.port port with failed := true } else s)

/-! Requests to a peer (13 R250) -/

/-- The ports of a peer: by its mask, and those of them that have not failed. -/
def State.peerPorts (s : State) (p : Nat) : List Nat :=
  let mask := fld 0 24 (Tbl.get 0 s.regs.peermap p)
  (List.range 24).filter fun k => mask.testBit k
def State.livePorts (s : State) (p : Nat) : List Nat := (s.peerPorts p).filter fun k => !(s.port k).failed

/-- A peer that cannot be reached. -/
def State.peerStop (s : State) (p : Nat) : Option Cause :=
  if (s.peerPorts p).isEmpty then some .remote else if (s.livePorts p).isEmpty then some .peerLost else none

/-- The port that carries a request: one for each 4 KiB in turn. -/
def State.peerPort (s : State) (p a : Nat) : Option Nat := (s.livePorts p)[a / 4096 % (s.livePorts p).length]?

/-- The flits of a request of n bytes: DESIGN CHOICE (entry 15), one for each 232 bytes; what a flit carries of them is free. -/
def flitsOf (n : Nat) : Nat := max 1 ((n + 231) / 232)

/-- The port of a request lacks room for its flits. -/
def State.portStopped (s : State) (p a n : Nat) : Bool :=
  match s.peerPort p a with
  | some k => (s.port k).stopped (flitsOf n)
  | none => false

/-- A request goes to its port. -/
def State.sendPeer (s : State) (p a n : Nat) : State :=
  match s.peerPort p a with
  | none => s
  | some k =>
    s.setPort k ((List.range (flitsOf n)).foldl (fun x i =>
      x.send k (s.freeAt 1 (2 ^ 62 + 1024 * i)).toNat ((List.range 232).map fun j => (s.freeAt 1 (2 ^ 62 + 1024 * i + j + 1)).setWidth 8)) (s.port k))

end Sys2Proof.Machine
end

