-- ==== Sys2Proof/Machine/Engine.lean ====
section
/-! DEFINITION. Engine commands (08 R144 to R149; 20 R305; 21 R331; 22 R343, R344; 23 R369 to R371, R380; 13 R250, R254 to R256): their issue,
and the copy engine's requests as events. -/

namespace Sys2Proof.Machine

/-! The parts of a command -/

/-- A command is a party of its own (09 R181): its writes are its own until its completion releases them. -/
def Cmd.party (x : Cmd) : Who := ⟨x.who.core, .front (64 + x.seq)⟩

/-- Where a command's completion is observed (08 R148). -/
def Cmd.place (x : Cmd) : Place :=
  match x.ring, x.bcb with
  | some id, _ => .ring id
  | none, some off => .bcb off
  | none, none => .any

/-- The byte offset within a scratch row of byte j of row i (08 Table 4). -/
def swizzle (swz rowb i j : Nat) : Nat :=
  let z := if swz = 1 then 16 else 32
  if swz = 0 || rowb < z then j else (j / z + i) % (rowb / z) * z + j % z

/-- The scratch offset of byte j of row i, from the command's slot where it has one (08 R145, R147). -/
def Cmd.scrAddr (x : Cmd) (slotOff i j : Nat) : Nat :=
  slotOff + x.soff + i * x.sstride + swizzle x.swz x.rowb i j

/-- The pieces of n bytes from an address that lie within one 4 KiB block each (08 R146). -/
def splitReq (row : Nat) : Nat → Nat → Nat → Nat → List Req
  | 0, _, _, _ => []
  | f + 1, a, lo, n =>
    if n = 0 then []
    else
      let k := min n (4096 - a % 4096)
      ⟨row, lo, k, 0, 0, none, false, false, none⟩ :: splitReq row f (a + k) (lo + k) (n - k)

/-- The requests of a command of rows. -/
def Cmd.rowReqs (x : Cmd) : List Req :=
  (List.range x.rows).flatMap fun i =>
    let a := match x.rowAddr i 0 with | some v => v.toNat | none => 0
    splitReq i (x.rowb / 4096 + 2) a 0 x.rowb

/-- The ring of a command and the scratch offset of its slot. -/
def State.cmdSlot (s : State) (core : Nat) (x : Cmd) : Nat :=
  match x.ring, x.slot with
  | some id, some k => match s.ring core x.blk id with | some r => r.off + k * r.size | none => 0
  | _, _ => 0

def State.updCmd (s : State) (core seq : Nat) (f : Cmd → Cmd) : State :=
  s.updCore core fun k => { k with cmds := k.cmds.map fun x => if x.seq = seq then f x else x }

/-! The end of a command -/

/-- A command leaves: its locks with it (08 R149). -/
def State.dropCmd (s : State) (core seq : Nat) : State :=
  s.updCore core fun k => { k with cmds := k.cmds.filter (·.seq != seq), locks := k.locks.filter (·.owner != some seq) }

/-- A command whose requests have all completed ends; in ring mode it releases its slot (08 R147). A refused one ends with its last
request in flight. -/
def State.settleCmd (s : State) (core seq : Nat) : State :=
  match (s.core core).cmds.find? (·.seq == seq) with
  | none => s
  | some x =>
    if !x.flight.isEmpty || (x.refused.isNone && !x.reqs.isEmpty) then s
    else
      let s := s.dropCmd core seq
      match x.refused, x.ring with
      | none, some id =>
        match (s.ring core x.blk id).bind fun r => r.give (.cmd seq) x.toScratch with
        | some r => s.setRing core x.blk id r
        | none => s
      | _, _ => s

/-- The bytes that LDIMG wrote before its refusal hold their old or their new value, each by a free choice, since the spec leaves it open
(13 R256, entry 17). A byte that another store has changed since stays. -/
def State.unwrite (s : State) (core : Nat) (x : Cmd) : State :=
  ((x.image.map (·.wrote)).getD []).foldl (fun s e =>
    if Tbl.get 0 s.mem.mem e.1 == e.2.2 && s.coin 13 (e.1 + 2 ^ 61) then s.gaStore core e.1 [e.2.1] else s) s

/-- A REFUSAL (08 R146, R147): no further request starts; the completion BCB takes the error, or the ring does. -/
def State.refuseCmd (s : State) (core : Nat) (x : Cmd) (c : Cause) (addr : DWord) : State :=
  let s := s.unwrite core x
  let s := s.updCmd core x.seq fun y => { y with refused := some (c, addr), reqs := [] }
  let s := match x.ring, x.bcb with
    | some id, _ =>
      match s.ring core x.blk id with
      | some r => s.setRing core x.blk id { r with
          err := some (c.code, addr)
          taken := r.taken.filter fun t => t.holder != Holder.cmd x.seq
          waitFree := r.waitFree.filter fun t => t.holder != Holder.cmd x.seq
          waitFill := r.waitFill.filter fun t => t.holder != Holder.cmd x.seq }
      | none => s
    | none, some off => (s.bcbOp core x.blk off (.refuse c addr.toNat)).1
    | none, none => s
  s.settleCmd core x.seq

/-! Translating a request (08 R146) -/

/-- How a request stands; a refusal names the poisoned address where that is not the request's own (12 Table 1, POISON). -/
inductive Way
  | go (phys home : Nat) (peer : Option Nat) (byp : Bool)
  | busy
  | hold (c : Cause)
  | refuse (c : Cause) (at_ : Option DWord)
  deriving DecidableEq, Repr

/-- A request's access: outside handler level, and to peer pages as well. The leaf's C field may have it act at the home (08 R142), as
`.byp` does. -/
def State.engineWay (s : State) (core asid : Nat) (kind : Access) (byp : Bool) (va : DWord) (n : Nat) : Way :=
  match s.access core asid none kind false false va with
  | .ok l =>
    if l.q then match s.peerStop l.peer with
      | some c => .refuse c none
      | none => if s.portStopped l.peer l.peerAddr n then .busy else .go l.peerAddr l.home (some l.peer) false
    else if kind == .store then (if (s.die l.home).dead then .refuse .poison none else .go l.phys l.home none (bypasses .dflt l))
    else match s.readBad (dieOf core) (byp || kind == .rmw || bypasses .dflt l) l n with
      | some k => .refuse .poison (some (va + BitVec.ofNat 64 k))
      | none => .go l.phys l.home none (bypasses .dflt l)
  | .error f =>
    if f.cause = .migrating then .hold .migrating
    else if f.cause = .notPresent then
      match s.walk asid va with
      | .absent _ _ | .noSpace => .hold .notPresent
      | _ => .refuse .notPresent none
    else .refuse f.cause (if f.cause = .poison then some f.addr else none)

def Cmd.access (x : Cmd) : Access :=
  match x.kind with
  | .ratom => .rmw
  | .ldimg => .load
  | _ => if x.toScratch then .load else .store

/-- The lowest poisoned scratch byte that a request reads (12 R241). -/
def State.reqScrBad (s : State) (core : Nat) (x : Cmd) (r : Req) : Option Nat :=
  let sc := s.scratch core x.blk
  let off := s.cmdSlot core x
  if x.toScratch || x.kind == .ldimg || x.kind == .ratom then none
  else (List.range r.n).foldl (fun m j => match m, sc.badAt (x.scrAddr off r.row (r.lo + j)) 1 with
    | none, k => k
    | some a, some k => some (min a k)
    | some a, none => some a) none

def State.reqWay (s : State) (core : Nat) (x : Cmd) (r : Req) : Way :=
  match s.block core x.blk, x.reqAddr r with
  | some b, some va =>
    let n := match x.atom with | some (_, true, _, _) => 8 | some (_, false, _, _) => 4 | none => r.n
    if x.kind = .ratom && va.toNat % n != 0 then .refuse .align none
    else
      let kind := if x.kind = .ldimg && r.row != 0 then .store else x.access
      match s.engineWay core b.dealt.asid kind x.byp va n with
      | .go p h q y => match s.reqScrBad core x r with
        | some k => .refuse .poison (some (BitVec.ofNat 64 k))
        | none => .go p h q y
      | w => w
  | _, _ => .refuse .notPresent none

/-- Another held request has reported the page (08 R146). -/
def State.pageReported (s : State) (asid : Nat) (va : DWord) : Bool :=
  s.cores.any fun (c, k) => k.cmds.any fun x =>
    (match s.block c x.blk with | some b => b.dealt.asid == asid | none => false) &&
    x.reqs.any fun r => match r.held with | some (.notPresent, a) => a.toNat / 4096 == va.toNat / 4096 | _ => false

/-- A request is held at an address: a missing page is reported once to the host (08 R146). -/
def State.holdReq (s : State) (core : Nat) (x : Cmd) (c : Cause) (va : DWord) : State :=
  match s.block core x.blk with
  | none => s
  | some b =>
    let s' := if c = .notPresent && !s.pageReported b.dealt.asid va then
        s.postDevice 5 .notPresent va x.pc b.dealt.cardId x.blk core b.dealt.region
      else s
    s'.updCmd core x.seq fun y => { y with reqs := match y.reqs with | r :: rs => { r with held := some (c, va) } :: rs | [] => [] }

/-- The head request of a command starts, is held, or refuses the command. -/
def State.startReq (s : State) (core : Nat) (x : Cmd) : State :=
  match x.reqs with
  | [] => s
  | r :: rest =>
    let va := (x.reqAddr r).getD 0
    match s.reqWay core x r with
    | .busy => s
    | .hold c => if r.held = some (c, va) then s else s.holdReq core x c va
    | .refuse c a => s.refuseCmd core x c (a.getD va)
    | .go p h q at_ =>
      let s := match s.block core x.blk with | some b => s.tlbFill core b.dealt.asid va | none => s
      let s := match q with | some k => s.sendPeer k p r.n | none => s
      s.updCmd core x.seq fun y => { y with
        reqs := rest, flight := y.flight ++ [{ r with phys := p, home := h, peer := q, byp := x.byp || at_, held := none }] }

/-- Free entries of the range-lock table (08 R149). -/
def State.lockRoom (s : State) (core n : Nat) : Bool := decide ((s.core core).locks.length + n ≤ 32)

/-- The bounds of the global side of a CPY (08 R149): the lowest and the highest byte it touches. -/
def Cmd.globalSpan (x : Cmd) : Nat × Nat :=
  let a : Int := x.base.toNat
  let z : Int := a + (x.rows - 1 : Nat) * x.gstride
  ((min a z).toNat, (max a z).toNat + x.rowb)

/-- The locks of CPY, GTH and SCT. A ring-mode scratch entry covers nothing until the slot is taken (08 R147). -/
def Cmd.locks (x : Cmd) (asid : Nat) : List Lock :=
  let scr : Lock := ⟨none, x.blk, true, asid, x.soff, if x.ring.isSome then x.soff else x.soff + (x.rows - 1) * x.sstride + x.rowb, x.toScratch⟩
  match x.kind with
  | .cpy =>
    let g := x.globalSpan
    [scr, ⟨none, x.blk, false, asid, g.1, g.2, !x.toScratch⟩]
  | _ => [scr, ⟨none, x.blk, true, asid, x.idxOff, x.idxOff + 4 * x.rows, false⟩]

/-- A ring-mode command takes its slot, or waits for it (08 R147): the take acquires, as RINGACQ does (08 R148, 09 R181). Its lock then
covers the bytes it moves. A ring in error ends it. A command that was withdrawn and is issued again registers its entries first, and
stalls while the table lacks them (12 R232, 08 R149). -/
def State.takeRingSlot (s : State) (core : Nat) (x : Cmd) : State :=
  match x.ring with
  | none => s
  | some id =>
    match s.ring core x.blk id with
    | none => s
    | some r =>
      let new := if (s.core core).locks.any (·.owner == some x.seq) then []
        else (x.locks (((s.block core x.blk).map (·.dealt.asid)).getD 0)).map fun l => { l with owner := some x.seq }
      if r.err.isSome then s.dropCmd core x.seq
      else if !s.lockRoom core new.length then s
      else
        let s := s.updCore core fun k => { k with locks := k.locks ++ new }
        let (r', k) := r.acquire (.cmd x.seq) 0 x.toScratch
        let s := s.setRing core x.blk id r'
        match k with
        | none => s
        | some k =>
          let lo := r.off + k * r.size + x.soff
          let s := (s.updCmd core x.seq fun y => { y with slot := some k }).acquire x.party .blk (.ring id)
          s.updCore core fun c => { c with locks := c.locks.map fun l =>
            if (l.owner == some x.seq) && l.scratch && (l.hi == l.lo) then
              { l with lo := lo, hi := lo + (x.rows - 1) * x.sstride + x.rowb } else l }

/-- A command has a request that may start. -/
def Cmd.ready (x : Cmd) : Bool :=
  x.refused.isNone && (x.ring.isNone || x.slot.isSome) && (match x.reqs with | r :: _ => r.held.isNone | [] => false)

/-- COPY_REQUEST_START (08 R146): commands that wait for a ring slot try it; then the oldest command with a request ready, and which its port
takes, starts it, while fewer than 48 are in flight. -/
def execCopyRequestStart (core : Nat) (s : State) : Out :=
  let s := s.tick
  let s := ((s.core core).cmds.filter fun x => x.ring.isSome && x.slot.isNone && x.refused.isNone).foldl (fun s x => s.takeRingSlot core x) s
  let k := s.core core
  if (k.cmds.map fun x => x.flight.length).sum ≥ 48 then .next s
  else match k.cmds.find? fun x => x.ready && x.reqs.head?.any fun r => s.reqWay core x r != .busy with
    | none => .next s
    | some x => .next (s.startReq core x)

/-- How a held request stands at the address that holds it: its own, or one of LDIMG's source. -/
def State.heldWay (s : State) (core : Nat) (x : Cmd) (r : Req) : Way :=
  match r.held, s.block core x.blk with
  | some (_, a), some b => if x.reqAddr r = some a then s.reqWay core x r else s.engineWay core b.dealt.asid .load false a 1
  | _, _ => s.reqWay core x r

/-- The head request of a command translates again: one that no longer faults, or that now refuses, may start. One held for another cause
is now held for a missing page, and reports it; one that has reported its page stays so. -/
def State.retry (s : State) (core : Nat) (x : Cmd) : State :=
  match x.reqs with
  | [] => s
  | r :: rest =>
    match r.held, s.heldWay core x r with
    | none, _ | some _, .busy => s
    | some (c0, a), .hold c => if c0 = c || c0 = .notPresent then s else s.holdReq core x c a
    | some _, _ => s.updCmd core x.seq fun y => { y with reqs := { r with held := none } :: rest }

/-- The held requests of a core translate again (08 R146). -/
def State.retranslate (s : State) (core : Nat) : State := (s.core core).cmds.foldl (fun s x => s.retry core x) s

def execRequestRetranslate (core : Nat) (s : State) : Out := .next (s.tick.retranslate core)

/-! Completing a request -/

/-- Bytes of a peer's memory. -/
def peerKey (p a : Nat) : Nat := p * 2 ^ 52 + a

/-- A read of an engine must wait: for its die's EF stores on their way to the home where it reads (08 R141, R142), or for a replica that
is held there (09 R170). -/
def State.engineWaits (s : State) (core : Nat) (atHome : Bool) (r : Req) (n : Nat) : Bool :=
  r.peer.isNone && ((atHome && r.home != dieOf core && s.efPending (dieOf core) r.phys n) || s.heldAt (dieOf core) r.phys n)

/-- The global bytes that an engine reads (08 R140, R142): from the peer, from the die's L2, or at the home; and the copies that the read
leaves. -/
def State.engineRead (s : State) (who : Who) (r : Req) (n : Nat) : State × List Byte :=
  match r.peer with
  | some p => (s, Tbl.getList 0 s.mem.peer (peerKey p r.phys) n)
  | none =>
    if r.byp then (s.seeHome who .tile r.home r.phys n (s.readHome (dieOf who.core) r.home r.phys n), (span r.phys n).map (s.homeByte who .tile r.home))
    else (s.seeHere who .tile false (fun _ => true) r.phys n (s.addGuest (dieOf who.core) r.home r.phys n), s.pathBytes who .tile r.phys n)

/-- A global write of an engine (09 R177): EF, or GA performed at the home; at the peer's home for a peer page. -/
def State.engineWrite (s : State) (core : Nat) (x : Cmd) (region : Nat) (r : Req) (a : Nat) (bs : List Byte) : State :=
  let va := ((x.reqAddr r).getD 0).toNat + (a - r.phys)
  match r.peer with
  | some p => { s with mem := { s.mem with peer := Tbl.setList 0 s.mem.peer (peerKey p a) bs } }
  | none =>
    if x.ga || (r.byp && r.home != dieOf core) then (s.notePaths x.party .ewr a bs).gaStore core a bs
    else s.efStore x.party .ewr region r.home a va 0 bs

/-- The runs of bytes that may be written: of SCT, those that no row of higher index covers (08 R145). -/
def Cmd.covered (x : Cmd) (row : Nat) (va : Nat) : Bool :=
  x.kind == .sct && (List.range x.rows).any fun j =>
    decide (row < j) && (match x.rowAddr j 0 with | some a => decide (a.toNat ≤ va) && decide (va < a.toNat + x.rowb) | none => false)

/-- Bytes one at a time into scratch by the engine-write path. -/
def State.engineScr (s : State) (core : Nat) (x : Cmd) (off row lo : Nat) (bs : List Byte) : State :=
  (List.zip (List.range bs.length) bs).foldl (fun s (j, v) => s.scrStore core x.blk x.party .ewr (x.scrAddr off row (lo + j)) [v]) s

/-- The movement of a request of rows. -/
def State.moveReq (s : State) (core : Nat) (x : Cmd) (region : Nat) (r : Req) : State :=
  let off := s.cmdSlot core x
  if x.toScratch then
    let (s, bs) := s.engineRead x.party r r.n
    s.engineScr core x off r.row r.lo bs
  else
    let va := ((x.rowAddr r.row r.lo).map (·.toNat)).getD 0
    let at_ (j : Nat) : Nat := x.scrAddr off r.row (r.lo + j)
    let bs := (List.range r.n).map fun j => s.scrByte core x.blk (s.scratch core x.blk) x.party .tile (at_ j)
    let s := (List.range r.n).foldl (fun t j => s.scrSee core x.blk x.party .tile (at_ j) 1 t) s
    if x.kind = .sct && (List.range r.n).any fun j => x.covered r.row (va + j) then
      (List.zip (List.range r.n) bs).foldl (fun s (j, v) =>
        if x.covered r.row (va + j) then s else s.engineWrite core x region r (r.phys + j) [v]) s
    else s.engineWrite core x region r r.phys bs

/-- The read-modify-write of RATOM (23 R371), what stands at the home being read and written next to each other (09 R165); its old value in
bytes 16 to 23 of the record; and its events (20 R292). -/
def State.moveAtom (s : State) (core : Nat) (x : Cmd) (region : Nat) (r : Req) : State × List Ev :=
  match x.atom with
  | none => (s, [])
  | some (op, b64, b, c) =>
    let n := if b64 then 8 else 4
    let old := natOf (match r.peer with
      | some p => Tbl.getList 0 s.mem.peer (peerKey p r.phys) n
      | none => s.standing r.home r.phys n)
    let s := if r.peer.isNone then s.readStanding x.party .tile r.home r.phys n else s
    let (v, evs) := atomVal op (8 * n) old (b.toNat % 2 ^ (8 * n)) (c.toNat % 2 ^ (8 * n))
    let s := match v, r.peer with
      | none, _ => s
      | some v, some p => { s with mem := { s.mem with peer := Tbl.setList 0 s.mem.peer (peerKey p r.phys) (bytesOf n v) } }
      | some v, none => s.homeRmw x.party .ewr region r.phys ((x.reqAddr r).getD 0).toNat 0 false (bytesOf n v)
    (s.scrStore core x.blk x.party .ewr (x.soff + 16) (bytesOf 8 old), evs)

/-- n bytes that LDIMG reads by the tile path, page by page. -/
def State.imageBytes (s : State) (who : Who) (asid : Nat) : Nat → DWord → Nat → Except (Way × DWord) (List Byte)
  | 0, _, _ => .ok []
  | f + 1, va, n =>
    if n = 0 then .ok []
    else
      let k := min n (4096 - va.toNat % 4096)
      match s.engineWay who.core asid .load false va k with
      | .go p h q y =>
        let r : Req := ⟨0, 0, k, p, h, q, y, false, none⟩
        if s.engineWaits who.core y r k then .error (.busy, va)
        else match s.imageBytes who asid f (va + BitVec.ofNat 64 k) (n - k) with
          | .ok bs => .ok ((s.engineRead who r k).2 ++ bs)
          | .error e => .error e
      | w => .error (w, va)

/-- The fields of a relocation record and its value: none where it is invalid or does not fit its field (13 Table 4, R256). DEDUCED (entry
17): A is signed, and the difference of PC32 is taken of 64-bit addresses. -/
def relocValue (im : Image) (size : Nat) (r : BitVec 128) : Option Int :=
  let o := fld 0 32 r
  let a : Int := (r.extractLsb' 64 64).toInt
  let fits (v : Int) (n : Nat) : Option Int := if -(2 ^ (n - 1)) ≤ v && v < 2 ^ (n - 1) then some v else none
  if fld 34 30 r != 0 || o % 8 != 0 || o + 8 > size then none
  else match fld 32 2 r with
    | 0 =>
      let v : Int := im.dest.toNat + a
      if 0 ≤ v && v < 2 ^ 64 then some v else none
    | 1 =>
      let d : Int := (r.extractLsb' 64 64 - (im.dest + BitVec.ofNat 64 o)).toInt
      if d % 8 = 0 then fits (d / 8) 32 else none
    | 2 => fits (a + im.cbias) 18
    | _ => none

/-- A record patches a piece of the body that starts at `lo` (13 Table 4): none where a CONST18 record names no LDC word. -/
def relocate (im : Image) (size lo : Nat) (bs : List Byte) (r : BitVec 128) : Option (List Byte) :=
  let o := fld 0 32 r
  if o < lo || o + 8 > lo + bs.length then some bs
  else
    let w : DWord := BitVec.ofNat 64 (natOf ((bs.drop (o - lo)).take 8))
    let put (v : DWord) : List Byte := bs.take (o - lo) ++ bytesOf 8 v.toNat ++ bs.drop (o - lo + 8)
    match relocValue im size r with
    | none => none
    | some v =>
      match fld 32 2 r with
      | 0 => some (put (BitVec.ofInt 64 v))
      | 1 => some (put (setFld 0 32 (BitVec.ofInt 32 v).toNat w))
      | _ => if fld 56 8 w = 0x62 then some (put (setFld 14 18 (BitVec.ofInt 18 v).toNat w)) else none

def relocateAll (im : Image) (size lo : Nat) (bs : List Byte) : Option (List Byte) :=
  im.recs.foldl (fun b r => b.bind fun b => relocate im size lo b r) (some bs)

/-- A request of LDIMG that could not be performed waits again, or refuses the command. -/
def State.imageStop (s : State) (core : Nat) (x : Cmd) (r : Req) (w : Way) (va : DWord) : State :=
  match w with
  | .refuse c a => s.refuseCmd core x c (a.getD va)
  | .hold c =>
    let s := s.updCmd core x.seq fun y => { y with reqs := r :: y.reqs }
    s.holdReq core x c va
  | .busy => s.updCmd core x.seq fun y => { y with flight := r :: y.flight }
  | .go _ _ _ _ => s

/-- An entry of an EMO container: revision, baseline flag, and where the image lies (13 R254). -/
structure EmoEntry where
  major : Nat
  minor : Nat
  baseline : Bool
  off : Nat
  size : Nat
  deriving DecidableEq, Repr

/-- The entries of a container; none where its bytes are no container. -/
def emoEntries (bs : List Byte) : Option (List EmoEntry) :=
  let f (o n : Nat) : Nat := natOf ((bs.drop o).take n)
  let count := f 4 2
  if bs.take 4 != [0x45, 0x4D, 0x4F, 0x31] || f 6 58 != 0 || bs.length < 64 + 32 * count then none
  else some ((List.range count).map fun i =>
    let o := 64 + 32 * i
    ⟨f o 1, f (o + 1) 1, f (o + 2) 1 % 2 == 1, f (o + 8) 8, f (o + 16) 8⟩)

/-- The image that a loader must choose against the device's ISAVER (13 R254): none where the container cannot run. -/
def chooseImage (isaver : Word) (es : List EmoEntry) : Option EmoEntry :=
  let major := fld 8 8 isaver
  let minor := fld 0 8 isaver
  match es.find? fun e => e.major == major && e.minor == minor with
  | some e => some e
  | none =>
    let older := es.filter fun e => e.major == major && decide (e.minor ≤ minor)
    match older.find? fun e => older.all fun x => decide (x.minor ≤ e.minor) with
    | some e => some e
    | none => es.find? (·.baseline)

/-- The header of an image: the body's requests follow (13 R255, R256). -/
def State.imageHeader (s : State) (core : Nat) (x : Cmd) (im : Image) (asid : Nat) (r : Req) : State :=
  match s.imageBytes x.party asid 2 x.base 64 with
  | .error (w, va) => s.imageStop core x r w va
  | .ok h =>
    let f (o n : Nat) : Nat := natOf ((h.drop o).take n)
    let size := f 8 8
    match s.imageBytes x.party asid (f 24 4 * 16 / 4096 + 2) (x.base + BitVec.ofNat 64 (f 16 8)) (16 * f 24 4) with
    | .error (w, va) => s.imageStop core x r w va
    | .ok rb =>
      let recs := (List.range (f 24 4)).map fun i => BitVec.ofNat 128 (natOf ((rb.drop (16 * i)).take 16))
      let im := { im with body := f 0 8, recs := recs, table := f 16 8 }
      if size % 128 != 0 || size > im.limit || recs.any fun k => (relocValue im size k).isNone then s.refuseCmd core x .illegal x.base
      else
        (s.updCmd core x.seq fun y => { y with
          image := some im, rowb := size, reqs := splitReq 1 (size / 4096 + 2) im.dest.toNat 0 size }).settleCmd core x.seq

/-- An address lies in a range of n bytes. -/
def inBytes (a lo n : Nat) : Bool := decide (lo ≤ a) && decide (a < lo + n)

/-- Byte j of an LDIMG result is unspecified: its place lies in the image's source bytes, or its source lies in DEST (22 R344). -/
def Image.overlaps (im : Image) (base size j : Nat) : Bool :=
  let d := im.dest.toNat + j
  inBytes d base 64 || inBytes d (base + im.body) size || inBytes d (base + im.table) (16 * im.recs.length) ||
  inBytes (base + im.body + j) im.dest.toNat size

/-- A piece of the body: read, relocated, written as GA stores. A byte where source and DEST overlap is a free value (22 R344, entry
17). -/
def State.imageBody (s : State) (core : Nat) (x : Cmd) (im : Image) (asid region : Nat) (r : Req) : State × Bool :=
  let src := x.base + BitVec.ofNat 64 (im.body + r.lo)
  match s.imageBytes x.party asid 3 src r.n with
  | .error (w, va) => (s.imageStop core x r w va, false)
  | .ok bs =>
    match relocateAll im x.rowb r.lo bs with
    | none => (s.refuseCmd core x .illegal x.base, false)
    | some bs =>
      let bs := (List.zip (List.range bs.length) bs).map fun (j, v) =>
        if im.overlaps x.base.toNat x.rowb (r.lo + j) then (s.freeAt 13 (2 ^ 62 + r.lo + j)).setWidth 8 else v
      let olds := (List.zip (span r.phys bs.length) bs).map fun (a, v) => (a, Tbl.get 0 s.mem.mem a, v)
      let s := s.engineWrite core { x with ga := true } region r r.phys bs
      (if r.peer.isSome then s
       else s.updCmd core x.seq fun y => { y with image := y.image.map fun im => { im with wrote := im.wrote ++ olds } }, true)

/-- A COMPLETED REQUEST (08 R146, 09 R177): its bytes are released, the BCB counts them, and the command may end. -/
def State.completeReq (s : State) (core : Nat) (x : Cmd) (n : Nat) : State :=
  let s := s.release x.party .blk x.place
  let s := match x.bcb with | some off => (s.bcbOp core x.blk off (.bytes n)).1 | none => s
  s.settleCmd core x.seq

/-- The i-th request in flight of a core, with its command. -/
def State.flightAt (s : State) (core i : Nat) : Option (Cmd × Req) :=
  ((s.core core).cmds.flatMap fun x => x.flight.map fun r => (x, r))[i]?

/-- A request of RSEND to the other die's home completes once its bytes are performed there (23 R370): until then they are on the link. -/
def State.sendOut (s : State) (core : Nat) (x : Cmd) (region : Nat) (r : Req) : State :=
  let s := s.moveReq core x region r
  s.updCmd core x.seq fun y => { y with flight := { r with sent := true } :: y.flight }

/-- Where a party that issued a command is now: a warp that has moved since stands in its landing slot (08 R157). -/
def State.nowAt (s : State) (w : Who) : Who :=
  match (s.warp w).bind (·.away) with | some k => ⟨k, .landing⟩ | none => w

/-- The party that issued a command still is. -/
def State.stands (s : State) (w : Who) : Bool :=
  match w.party with
  | .front b => ((s.block w.core b).bind (·.front)).isSome
  | _ => (s.warp w).isSome

/-- The events of a RATOM count as it is performed (06 R115). A STATLIMIT waits in the operand log for the next word of its issuer, which
ERET.replay has issue the RATOM once more (06 R118; entry 45). -/
def State.countRatom (s : State) (b : Block) (x : Cmd) (evs : List Ev) : State :=
  let w := s.nowAt x.who
  match s.countEvents w b x.pc (evs.map fun e => (0, e)), x.atom with
  | (s, some (_, ev)), some (op, b64, _, _) =>
    if !s.stands w then s
    else
      let again : Cmd := { x with reqs := [⟨0, 0, 8, 0, 0, none, false, false, none⟩], flight := [] }
      s.setLog w.core (s.newLog w.core) (some
        ⟨⟨w, x.pc, .ratom 0 0 op b64, [], false⟩, .statLimit, BitVec.ofNat 64 ev.idx, 1, false, [], some again⟩)
  | (s, _), _ => s

/-- A RATOM whose events may have to be reported waits for a place in the operand log of its issuer. -/
def State.ratomWaits (s : State) (x : Cmd) : Bool :=
  x.kind == .ratom && (x.atom.any fun a => isFadd a.1) && s.stands (s.nowAt x.who) && (s.freeLogs (s.nowAt x.who).core).isEmpty

/-- COPY_REQUEST_COMPLETE (08 R146). A read-modify-write waits for its die's EF stores to the same bytes (09 R172). -/
def execCopyRequestComplete (core i : Nat) (s : State) : Out :=
  let s := s.tick
  match s.flightAt core i with
  | none => .next s
  | some (x, r) =>
    match s.block core x.blk with
    | none => .next (s.dropCmd core x.seq)
    | some b =>
      let reads := x.toScratch && (x.kind != .ldimg)
      if reads && s.engineWaits core (r.byp || x.kind == .ratom) r (if x.kind = .ratom then 8 else r.n) || s.ratomWaits x then .next s
      else if r.sent && s.mem.msgs.any (fun m => m.kind == .ef && m.who == x.party && (span r.phys r.n).any (msgCovers m)) then .next s else
      let s := s.updCmd core x.seq fun y => { y with flight := y.flight.erase r }
      let x := { x with flight := x.flight.erase r }
      let region := b.dealt.region
      match x.kind, x.image with
      | .ldimg, some im =>
        if r.row = 0 then .next (s.imageHeader core x im b.dealt.asid r)
        else match s.imageBody core x im b.dealt.asid region r with
          | (s, true) => .next (s.completeReq core x r.n)
          | (s, false) => .next s
      | .ratom, _ =>
        let (s, evs) := s.moveAtom core x region r
        .next ((s.completeReq core x 8).countRatom b x evs)
      | .rsend, _ =>
        if r.sent then .next (s.completeReq core x r.n)
        else if r.peer.isNone && !x.ga && r.home != dieOf core then .next (s.sendOut core x region r)
        else .next ((s.moveReq core x region r).completeReq core x r.n)
      | _, _ => .next ((s.moveReq core x region r).completeReq core x r.n)

/-! Issuing a command -/

/-- The command joins the core's list with its locks; in ring mode it begins to wait for its slot. -/
def State.issueCmd (s : State) (c : Ctx) (x : Cmd) (locks : List Lock) (f : Fin) : Res :=
  let core := s.bcore c
  if !s.lockRoom core locks.length then .wait s false
  else
    let x := { x with seq := s.seq }
    let s := { s with seq := s.seq + 1 }
    let s := s.updCore core fun k => { k with
      cmds := k.cmds ++ [x], locks := k.locks ++ locks.map fun l => { l with owner := some x.seq } }
    .done (s.takeRingSlot core x) f

/-- A command that finds poison as it is read takes the refusal at once (08 R146, 12 R241). -/
def State.refuseAtIssue (s : State) (c : Ctx) (x : Cmd) (addr : Nat) (f : Fin) : Res :=
  let core := s.bcore c
  let x := { x with seq := s.seq }
  let s := { s with seq := s.seq + 1 }
  let s := s.updCore core fun k => { k with cmds := k.cmds ++ [x] }
  .done (s.refuseCmd core x .poison (BitVec.ofNat 64 addr)) f

/-- Bytes of scratch that a command reads at issue, by the tile path; and that its issuer has read them. -/
def State.recordAt (s : State) (c : Ctx) (a n : Nat) : State × Nat :=
  let core := s.bcore c
  let slot := s.bslot c
  (s.scrSee core slot c.who .tile a n s, natOf (s.scrBytes core slot c.who .tile a n))

def Cmd.blank (who : Who) (pc : DWord) (slot : Nat) (kind : CmdKind) (base : DWord) (soff : Nat) : Cmd where
  seq := 0
  blk := slot
  who := who
  pc := pc
  kind := kind
  toScratch := true
  base := base
  gstride := 0
  soff := soff
  sstride := 0
  rowb := 0
  rows := 1
  swz := 0
  ga := false
  byp := false
  idx := []
  idxOff := 0
  bcb := none
  tileRec := none
  ring := none
  slot := none
  reqs := []
  flight := []
  refused := none
  atom := none
  image := none

/-- A RATOM whose operands have been read. -/
def Cmd.ratom (who : Who) (pc : DWord) (slot : Nat) (base : DWord) (off bcb : Nat) (atom : AtomOp × Bool × DWord × DWord) : Cmd :=
  { Cmd.blank who pc slot .ratom base off with
    rowb := 8, sstride := 8, bcb := some bcb, reqs := [⟨0, 0, 8, 0, 0, none, false, false, none⟩], atom := some atom }

/-- Q1:Q0, the global base of a quad (08 R144). -/
def State.quadBase (s : State) (c : Ctx) (a : BitVec 8) : DWord := BitVec.ofNat 64 (s.quadReg c a 0 + 2 ^ 32 * s.quadReg c a 1)

def swzCode : Swz → Nat
  | .none => 0
  | .c16 => 1
  | .c32 => 2

/-- CPY, GTH and SCT (08 R144, R145, 20 R305, 21 R331, 23 R380). -/
def State.copyWord (s : State) (c : Ctx) (o : CmdF) (kind : CmdKind) (toScratch : Bool) : Res :=
  s.atHome c fun s =>
    let core := s.bcore c
    let slot := s.bslot c
    let sc := s.scratch core slot
    let rec_ := s.quadReg c o.a 3
    let id := o.id.toNat
    let (s1, v) := s.recordAt c rec_ 32
    let t : BitVec 256 := BitVec.ofNat 256 v
    let rowb := fld 0 32 t
    let rows := fld 32 16 t
    let soff := s.quadReg c o.a 2
    let cpy := kind == .cpy
    let stride := if cpy then fld 128 32 t else rowb
    let idxOff := fld 160 32 t
    let x : Cmd := { Cmd.blank c.who c.pc slot kind (s.quadBase c o.a) soff with
      toScratch := toScratch
      gstride := (t.extractLsb' 64 64).toInt
      sstride := stride
      rowb := rowb
      rows := rows
      swz := swzCode o.swz
      ga := o.ga
      byp := o.pol == .byp
      bcb := if o.ring then none else some (128 * id)
      tileRec := some rec_
      ring := if o.ring then some id else none }
    if (o.ga && toScratch) || (if o.ring then decide (id > 255) else decide (128 * id + 32 > sc.size)) then trapAux s c .illegal 0 0
    else if rec_ % 32 != 0 then trapAux s c .align rec_ 0
    else if rec_ + 32 > sc.size then trapAux s c .notPresent rec_ 0
    else
    let unready : Option Res := if !o.ring then none else match s.ring core slot id with
      | none => some (trapAux s c .ringErr 0 id)
      | some r => r.err.map fun e => .trap s (TrapArgs.reported ((Cause.ofCode e.1).getD .ringErr) e.2 c.active)
    match sc.badAt rec_ 32 with
    | some a => unready.getD (s.refuseAtIssue c x a .go)
    | none =>
      let span_ := (rows - 1) * stride + rowb
      let bad := fld 48 16 t != 0 || fld 192 64 t != 0 || rowb < 1 || rowb > 65536 || rows < 1 || rows > 4096 || rows * rowb > 2 ^ 20 ||
        (cpy && decide (stride < rowb)) || (!o.ring && decide (soff + span_ > sc.size)) ||
        (!cpy && decide (idxOff + 4 * rows > sc.size)) ||
        (o.swz != .none && (rowb % 128 != 0 || soff % 128 != 0 || stride % 128 != 0))
      if bad then trapAux s c .illegal 0 0
      else if !cpy && idxOff % 4 != 0 then trapAux s c .align idxOff 0
      else
        let small := o.ring && (s.ring core slot id).any fun r => decide (rows * stride + soff > r.size)
        match unready, (if cpy then none else sc.badAt idxOff (4 * rows)) with
        | some r, _ => r
        | none, bad =>
        if small then trapAux s c .ringErr 0 id
        else match bad with
        | some a => s.refuseAtIssue c x a .go
        | none =>
          let idx := if cpy then [] else (List.range rows).map fun i => natOf (s.scrBytes core slot c.who .tile (idxOff + 4 * i) 4)
          let x := { x with idx := idx, idxOff := idxOff }
          (if cpy then s1 else (s1.recordAt c idxOff (4 * rows)).1).issueCmd c { x with reqs := x.rowReqs } (x.locks c.blk.dealt.asid) .go

def execCpy (o : CmdF) (s : State) : Out := s.issue (.cpy o) 0x80 ⟨0, false⟩ fun c s => s.copyWord c o .cpy (!o.s2g)
def execGth (o : CmdF) (s : State) : Out := s.issue (.gth o) 0x81 ⟨0, false⟩ fun c s => s.copyWord c o .gth true
def execSct (o : CmdF) (s : State) : Out := s.issue (.sct o) 0x82 ⟨0, false⟩ fun c s => s.copyWord c o .sct false

/-- A completion BCB beyond the scratch size (08 R145). -/
def State.bcbBeyond (s : State) (c : Ctx) (id : BitVec 16) : Bool :=
  decide (128 * id.toNat + 32 > (s.scratch (s.bcore c) (s.bslot c)).size)

/-- RSEND and RGET (23 R369, R370): one row of Q3 bytes. -/
def State.sendWord (s : State) (c : Ctx) (a : BitVec 8) (id : BitVec 16) (kind : CmdKind) (toScratch ga byp : Bool) : Res :=
  s.atHome c fun s =>
    let slot := s.bslot c
    let n := s.quadReg c a 3
    let off := s.quadReg c a 2
    if n < 1 || n > 2 ^ 20 || s.bcbBeyond c id then trapAux s c .illegal 0 0
    else if off + n > (s.scratch (s.bcore c) slot).size then trapAux s c .notPresent off 0
    else
      let x : Cmd := { Cmd.blank c.who c.pc slot kind (s.quadBase c a) off with
        toScratch := toScratch, rowb := n, sstride := n, ga := ga, byp := byp, bcb := some (128 * id.toNat) }
      s.issueCmd c { x with reqs := x.rowReqs } [⟨none, slot, true, c.blk.dealt.asid, off, off + n, toScratch⟩] .go

def execRsend (a : BitVec 8) (id : BitVec 16) (pol : Policy) (ga : Bool) (s : State) : Out :=
  s.issue (.rsend a id pol ga) 0x83 ⟨0, false⟩ fun c s => s.sendWord c a id .rsend false ga (pol == .byp)
def execRget (a : BitVec 8) (id : BitVec 16) (pol : Policy) (s : State) : Out :=
  s.issue (.rget a id pol) 0x84 ⟨0, false⟩ fun c s => s.sendWord c a id .rget true false (pol == .byp)

/-- RATOM (23 R369, R371): b and c are read from the record at issue. -/
def execRatom (a : BitVec 8) (id : BitVec 16) (op : AtomOp) (b64 : Bool) (s : State) : Out :=
  s.issue (.ratom a id op b64) 0x85 ⟨0, false⟩ fun c s => s.atHome c fun s =>
    let core := s.bcore c
    let slot := s.bslot c
    let off := s.quadReg c a 2
    let sc := s.scratch core slot
    let f (o : Nat) : DWord := BitVec.ofNat 64 (s.recordAt c (off + o) 8).2
    let x := Cmd.ratom c.who c.pc slot (s.quadBase c a) off (128 * id.toNat) (op, b64, f 0, f 8)
    if s.quadReg c a 3 != 0 || (isFadd op && b64) || s.bcbBeyond c id then trapAux s c .illegal 0 0
    else if off % 32 != 0 then trapAux s c .align off 0
    else if off + 32 > sc.size then trapAux s c .notPresent off 0
    else match sc.badAt off 16 with
      | some a => s.refuseAtIssue c x a .switch
      | none => (s.recordAt c off 16).1.issueCmd c x [⟨none, slot, true, c.blk.dealt.asid, off, off + 32, true⟩] .switch

/-- LDIMG (13 R256, 22 R343): a fault in Q3, the load record or the BCB offset traps (ILLEGAL). -/
def execLdimg (a : BitVec 8) (id : BitVec 16) (s : State) : Out :=
  s.issue (.ldimg a id) 0x86 ⟨0, false⟩ fun c s => s.atHome c fun s =>
    let core := s.bcore c
    let slot := s.bslot c
    let off := s.quadReg c a 2
    let sc := s.scratch core slot
    let (s1, v) := s.recordAt c off 32
    let t : BitVec 256 := BitVec.ofNat 256 v
    let im : Image := ⟨t.extractLsb' 0 64, fld 64 32 t, fld 96 32 t, 0, [], 0, []⟩
    let x : Cmd := { Cmd.blank c.who c.pc slot .ldimg (s.quadBase c a) off with
      ga := true, bcb := some (128 * id.toNat), reqs := [⟨0, 0, 64, 0, 0, none, false, false, none⟩], image := some im }
    if s.quadReg c a 3 != 0 || s.bcbBeyond c id then trapAux s c .illegal 0 0
    else if off % 32 != 0 then trapAux s c .align off 0
    else if off + 32 > sc.size then trapAux s c .notPresent off 0
    else match sc.badAt off 32 with
      | some a => s.refuseAtIssue c x a .go
      | none =>
        if fld 128 128 t != 0 || im.dest.toNat % 128 != 0 then trapAux s c .illegal 0 0
        else s1.issueCmd c x [⟨none, slot, true, c.blk.dealt.asid, off, off + 32, false⟩] .go

end Sys2Proof.Machine
end

