-- ==== Sys2Proof/Machine/Float.lean ====
section
/-! DEFINITION. Floating-point, special-function and conversion words (05 Tables 4 and 5; 21 R315 to R328; 20 R306; 22 R360 to R362; 23 R368,
R379, R393). They are LANE words. -/

namespace Sys2Proof.Machine

/-! Words that make elements -/

/-- The draws of a lane (06 R105). -/
def State.draw (s : State) (c : Ctx) (l k : Nat) : Nat :=
  match s.warp c.who with
  | some w => srDraw ((w.srseed[l]?).getD 0) k
  | none => 0

/-- The lanes of a mask take k draws. -/
def Warp.drawn (w : Warp) (m : BitVec 32) (k : Nat) : Warp :=
  { w with srseed := (List.range w.srseed.length).zipWith (fun l x => if m.getLsbD l then srAfter k x else x) w.srseed }

/-- Registers from d of one lane. -/
def Warp.setRegs (s : State) (w : Warp) (l d : Nat) : List Word → Warp
  | [] => w
  | v :: vs => Warp.setRegs s (w.setX s d l v) l (d + 1) vs

/-- A word whose executing lanes each make a list of elements, packed into registers from d (06 R101, R105, R106): where an element
traps, no lane writes, no draw is taken, and only the trapping elements count. -/
def State.elems (s : State) (c : Ctx) (d : Nat) (sr : Bool) (f : Nat → List Elem) (pack : List Nat → List Word) : Res :=
  let rs := (onesOf c.exec).map fun l => (l, f l)
  let bad := rs.filter fun r => r.2.any (·.trap)
  if !bad.isEmpty then
    Res.fpTrap s c (maskOf 32 fun l => bad.any (·.1 == l))
      (bad.flatMap fun r => (r.2.filter (·.trap)).flatMap fun e => e.ev.map fun v => (r.1, v)) 0
  else
    let s1 := s.updWarp c.who fun w =>
      let w := rs.foldl (fun w r => w.setRegs s r.1 d (pack (r.2.map (·.bits)))) w
      if sr then w.drawn c.exec ((rs.head?.map fun r => r.2.length).getD 0) else w
    Res.counted s1 c (rs.flatMap fun r => r.2.flatMap fun e => e.ev.map fun v => (r.1, v)) .go

/-- The format, the width of an element and the number of elements of a type (04 Table 3, 06 R101). -/
def ftFmt : FType → FloatFmt
  | .f32 => fF32
  | .f64 => fF64
  | .f16x2 => fF16
  | .bf16x2 => fBF16
def ftCount : FType → Nat
  | .f32 | .f64 => 1
  | .f16x2 | .bf16x2 => 2

/-- An operand of a type, and its e-th element. -/
def State.fsrc (s : State) (c : Ctx) (t : FType) (r l : Nat) : Nat := if t = .f64 then (s.get64 c r l).toNat else (s.get c r l).toNat
def elemOf (t : FType) (x e : Nat) : Nat := x / 2 ^ (16 * e) % 2 ^ (ftFmt t).width

/-- The registers of packed elements. -/
def packOf (t : FType) (l : List Nat) : List Word :=
  match t, l with
  | .f64, [x] => [BitVec.ofNat 32 x, BitVec.ofNat 32 (x / 2 ^ 32)]
  | .f32, [x] => [BitVec.ofNat 32 x]
  | _, [x, y] => [BitVec.ofNat 32 (x + 2 ^ 16 * y)]
  | _, _ => []

/-- An operand's element with its sign inverted where the modifier asks (21 R315). -/
def flipIf (t : FType) (n : Bool) (x : Nat) : Nat := if n then x ^^^ (ftFmt t).signBit else x

/-- A floating-point word of R315: the exact operation on the elements, rounded once. -/
def State.fword (s : State) (c : Ctx) (m : FMod) (d a b x : Nat) (op : Num → Num → Num → Exact) : Res :=
  s.elems c d (m.rm == .sr) (fun l => (List.range (ftCount m.t)).map fun e =>
    let f := ftFmt m.t
    f.finish m.rm m.ftz (s.draw c l e)
      (op (f.read (flipIf m.t m.na (elemOf m.t (s.fsrc c m.t a l) e))) (f.read (elemOf m.t (s.fsrc c m.t b l) e))
        (f.read (flipIf m.t m.nc (elemOf m.t (s.fsrc c m.t x l) e))))) (packOf m.t)

def execFadd (m : FMod) (o : A3) (s : State) : Out :=
  s.issue (.fadd m o) 0x30 o.g fun c s => s.fword c m o.d.toNat o.a.toNat o.b.toNat 0 fun x y _ => x.add m.rm y
def execFsub (m : FMod) (o : A3) (s : State) : Out :=
  s.issue (.fsub m o) 0x31 o.g fun c s => s.fword c m o.d.toNat o.a.toNat o.b.toNat 0 fun x y _ => x.add m.rm y.neg
def execFmul (m : FMod) (o : A3) (s : State) : Out :=
  s.issue (.fmul m o) 0x32 o.g fun c s => s.fword c m o.d.toNat o.a.toNat o.b.toNat 0 fun x y _ => x.mul y
def execFfma (m : FMod) (o : A4) (s : State) : Out :=
  s.issue (.ffma m o) 0x33 o.g fun c s => s.fword c m o.d.toNat o.a.toNat o.b.toNat o.c.toNat fun x y z => x.fma m.rm y z
def execFdiv (m : FMod) (o : A3) (s : State) : Out :=
  s.issue (.fdiv m o) 0x3A o.g fun c s => s.fword c m o.d.toNat o.a.toNat o.b.toNat 0 fun x y _ => x.div y
def execFsqrt (m : FMod) (o : A2) (s : State) : Out :=
  s.issue (.fsqrt m o) 0x42 o.g fun c s => s.fword c m o.d.toNat o.a.toNat 0 0 fun x _ _ => x.sqrt

/-- FMIN and FMAX (21 R325). -/
def State.fpick (s : State) (c : Ctx) (t : FType) (larger : Bool) (o : A3) : Res :=
  s.elems c o.d.toNat false (fun l => (List.range (ftCount t)).map fun e =>
    ⟨fminmax (ftFmt t) larger (elemOf t (s.fsrc c t o.a.toNat l) e) (elemOf t (s.fsrc c t o.b.toNat l) e), [], false⟩) (packOf t)

def execFmin (t : FType) (o : A3) (s : State) : Out := s.issue (.fmin t o) 0x34 o.g fun c s => s.fpick c t false o
def execFmax (t : FType) (o : A3) (s : State) : Out := s.issue (.fmax t o) 0x35 o.g fun c s => s.fpick c t true o

/-- FSET (21 R328): a packed word writes d from element 0 and d + 1 from element 1. -/
def execFset (t : FType) (cmp : FCmp) (na : Bool) (o : ASet) (s : State) : Out :=
  s.issue (.fset t cmp na o) 0x36 o.g fun c s =>
    let f := ftFmt t
    .done ((List.range (ftCount t)).foldl (fun r e => r.putPred c c.exec (o.d.toNat + e) fun l =>
      fcmp cmp (f.read (flipIf t na (elemOf t (s.fsrc c t o.a.toNat l) e))) (f.read (elemOf t (s.fsrc c t o.b.toNat l) e))) s) .go

/-- FCLASS (21 R319): one register even for f64. -/
def execFclass (t : FType) (o : A2) (s : State) : Out :=
  s.issue (.fclass t o) 0x37 o.g fun c s =>
    s.elems c o.d.toNat false (fun l => (List.range (ftCount t)).map fun e =>
      ⟨fclassBits (ftFmt t) (elemOf t (s.fsrc c t o.a.toNat l) e), [], false⟩)
      fun l => [BitVec.ofNat 32 ((l[0]?).getD 0 + 2 ^ 16 * (l[1]?).getD 0)]

/-- FSCALE (21 R327): k is the signed b, or its signed halves for packed types. -/
def execFscale (m : FMod) (o : A3) (s : State) : Out :=
  s.issue (.fscale m o) 0x38 o.g fun c s =>
    s.elems c o.d.toNat (m.rm == .sr) (fun l => (List.range (ftCount m.t)).map fun e =>
      let f := ftFmt m.t
      let b := s.get c o.b.toNat l
      let k : Int := if ftCount m.t = 2 then (b.extractLsb' (16 * e) 16).toInt else (b.extractLsb' 0 32).toInt
      f.finish m.rm m.ftz (s.draw c l e) ((f.read (flipIf m.t m.na (elemOf m.t (s.fsrc c m.t o.a.toNat l) e))).scaleBy k)) (packOf m.t)

/-- FRND of one element (21 R326): the sign is kept, and only SRUSE counts. -/
def frndElem (f : FloatFmt) (rm : Rm) (draw x : Nat) : Elem :=
  match f.read x with
  | .nan => ⟨f.nanBits, srEv rm, false⟩
  | .inf _ => ⟨x, srEv rm, false⟩
  | .fin neg n d =>
    if n ≥ d * 2 ^ f.fb then ⟨x, srEv rm, false⟩
    else ⟨f.withSign neg (f.magBits .rne neg 0 (roundInt rm neg draw n d) 1), srEv rm, false⟩

def execFrnd (m : FMod) (o : A2) (s : State) : Out :=
  s.issue (.frnd m o) 0x39 o.g fun c s =>
    s.elems c o.d.toNat (m.rm == .sr) (fun l => (List.range (ftCount m.t)).map fun e =>
      frndElem (ftFmt m.t) m.rm (s.draw c l e) (flipIf m.t m.na (elemOf m.t (s.fsrc c m.t o.a.toNat l) e))) (packOf m.t)

/-! Special functions (21 R320) -/

def State.sfu (s : State) (c : Ctx) (op : SfuOp) (ftz : Bool) (o : A2) : Res :=
  s.elems c o.d.toNat false (fun l => [sfuWord op ftz ((s.get c o.a.toNat l).setWidth 32)]) (packOf .f32)

def execFrcp (ftz : Bool) (o : A2) (s : State) : Out := s.issue (.frcp ftz o) 0x40 o.g fun c s => s.sfu c .rcp ftz o
def execFrsq (ftz : Bool) (o : A2) (s : State) : Out := s.issue (.frsq ftz o) 0x41 o.g fun c s => s.sfu c .rsq ftz o
def execFexp2 (ftz : Bool) (o : A2) (s : State) : Out := s.issue (.fexp2 ftz o) 0x43 o.g fun c s => s.sfu c .exp2 ftz o
def execFlog2 (ftz : Bool) (o : A2) (s : State) : Out := s.issue (.flog2 ftz o) 0x44 o.g fun c s => s.sfu c .log2 ftz o
def execFsin (ftz : Bool) (o : A2) (s : State) : Out := s.issue (.fsin ftz o) 0x45 o.g fun c s => s.sfu c .sin ftz o
def execFcos (ftz : Bool) (o : A2) (s : State) : Out := s.issue (.fcos ftz o) 0x46 o.g fun c s => s.sfu c .cos ftz o
def execFtanh (ftz : Bool) (o : A2) (s : State) : Out := s.issue (.ftanh ftz o) 0x47 o.g fun c s => s.sfu c .tanh ftz o

/-! Conversion -/

/-- CVT (20 R306, R307): the low bits of d take the result and the rest clears. -/
def execCvt (src dst : Fmt) (rm : Rm) (ov : Ov) (o : A2) (s : State) : Out :=
  s.issue (.cvt src dst rm ov o) 0x48 o.g fun c s =>
    let wide := fmtBits dst = 64
    s.elems c o.d.toNat (rm == .sr) (fun l =>
      let x := if fmtBits src = 64 then (s.get64 c o.a.toNat l).toNat else (s.get c o.a.toNat l).toNat
      [fmtConvert dst rm ov (s.draw c l 0) (fmtRead src x)])
      fun l => let x := (l[0]?).getD 0; if wide then [BitVec.ofNat 32 x, BitVec.ofNat 32 (x / 2 ^ 32)] else [BitVec.ofNat 32 x]

/-- Four bytes, or eight nibbles, in one register. -/
def packBytes (k : Nat) (l : List Nat) : List Word := [BitVec.ofNat 32 (l.foldr (fun x n => x % 2 ^ k + 2 ^ k * n) 0)]

def execPk8 (f : Fmt8) (rm : Rm) (ov : Ov) (o : A3) (s : State) : Out :=
  s.issue (.pk8 f rm ov o) 0x49 o.g fun c s =>
    s.elems c o.d.toNat (rm == .sr) (fun l => (List.range 4).map fun i =>
      pk8Elem f rm ov (s.draw c l i) ((s.get c o.b.toNat l).toNat % 256) (s.get c (o.a.toNat + i) l).toNat) (packBytes 8)

def execUpk8 (f : Fmt8) (o : A3) (s : State) : Out :=
  s.issue (.upk8 f o) 0x4A o.g fun c s =>
    s.elems c o.d.toNat false (fun l => (List.range 4).map fun i =>
      upk8Elem f ((s.get c o.b.toNat l).toNat % 256) ((s.get c o.a.toNat l).toNat / 2 ^ (8 * i) % 256))
      (List.map (BitVec.ofNat 32))

def execPk4 (o : A3) (s : State) : Out :=
  s.issue (.pk4 o) 0x4B o.g fun c s =>
    s.elems c o.d.toNat false (fun l => (List.range 8).map fun i =>
      pk4Elem (s.get c o.b.toNat l).toNat (s.get c (o.a.toNat + i) l).toNat) (packBytes 4)

def execUpk4 (o : A3) (s : State) : Out :=
  s.issue (.upk4 o) 0x4C o.g fun c s =>
    s.elems c o.d.toNat false (fun l => (List.range 8).map fun i =>
      upk4Elem (s.get c o.b.toNat l).toNat ((s.get c o.a.toNat l).toNat / 2 ^ (4 * i) % 16)) (List.map (BitVec.ofNat 32))

/-- QSCL (23 R368): M is 448 for E4M3 and 57,344 for E5M2. -/
def execQscl (m : QMode) (o : A3) (s : State) : Out :=
  s.issue (.qscl m o) 0x4D o.g fun c s =>
    s.elems c o.d.toNat false (fun l =>
      let a := (s.get c o.a.toNat l).toNat
      [match m with
        | .e8m0E4m3 => qsclE8m0 448 a
        | .e8m0E5m2 => qsclE8m0 57344 a
        | .sc8 => qsclSc8 a (s.get c o.b.toNat l).toNat]) (packOf .f32)

/-- One F32 step rounded RNE, without flush. -/
def rneStep (x : Exact) : Elem := fF32.finish .rne false 0 x

/-- RNE(RNE(RNE(a × b) × c) + d) (06 R114): the three roundings count on their own. -/
def scacElem (a b x d : Nat) : Elem :=
  let p := rneStep ((fF32.read a).mul (fF32.read b))
  let q := rneStep ((fF32.read p.bits).mul (fF32.read x))
  let r := rneStep ((fF32.read q.bits).add .rne (fF32.read d))
  ⟨r.bits, p.ev ++ q.ev ++ r.ev, false⟩

def execScac (o : A4) (s : State) : Out :=
  s.issue (.scac o) 0x4E o.g fun c s =>
    s.elems c o.d.toNat false (fun l =>
      [scacElem (s.get c o.a.toNat l).toNat (s.get c o.b.toNat l).toNat (s.get c o.c.toNat l).toNat (s.get c o.d.toNat l).toNat])
      (packOf .f32)

end Sys2Proof.Machine
end

