-- ==== Sys2Proof/Machine/Pool.lean ====
section
/-! DEFINITION. Pool words (03 R54 to R60; 21 R324; 22 R357; 23 R382) and the events of waiting grows. -/

namespace Sys2Proof.Machine

/-! Grows -/

/-- Free cuts pass to L1 once no grow waits (03 R56). -/
def Pool.settleFree (p : Pool) : Pool := if p.grows.any fun g => g.state == .waiting then p else { p with free := 0 }

/-- SGROW's new bytes join the top of scratch (03 R59): the cuts of `.swz` keep the swizzled mapping. -/
def Scratch.grow (x : Scratch) (cuts : Nat) (swz : Bool) : Scratch :=
  { x with size := x.size + 1024 * cuts, swz := if swz then x.swz ++ span (x.size / 1024) cuts else x.swz }

/-- A grant takes its cuts; a grow of scratch takes effect at once: the state and the offset of the first new byte. -/
def State.grant (s : State) (core slot : Nat) (own : List (Nat × Nat)) (cuts : Nat) (scr : Option Bool) : State × Nat :=
  let off := (s.scratch core slot).size
  let s := s.poolTake core own cuts
  match scr with
  | some swz => (s.updBlock core slot fun b => { b with scratch := b.scratch.grow cuts swz }, off)
  | none => (s, off)

/-- The grows of a core whose deadline has passed are granted no more (03 R57): STALLDL nanoseconds after issue; at once where TRAPNOW is set,
which reaches running blocks as STALLDL does (02 R23; entry 18). -/
def State.expireGrows (s : State) (core : Nat) : State :=
  let past (g : Grow) : Bool := g.state == .waiting && (s.effTrapnow g.region ||
    (s.effStalldl g.region != 0 && decide (g.since + s.effStalldl g.region ≤ s.tref.toNat)))
  s.updCore core fun k => { k with pool := Pool.settleFree { k.pool with
    grows := k.pool.grows.map fun g => if past g then { g with state := .expired } else g } }

def State.growOf (s : State) (c : Ctx) : Option Grow := (s.core c.who.core).pool.grows.find? fun g => g.who == c.who
def State.dropGrow (s : State) (c : Ctx) : State :=
  s.updCore c.who.core fun k => { k with pool := Pool.settleFree { k.pool with grows := k.pool.grows.filter fun g => g.who != c.who } }

/-- A grow of an instruction (03 R55 to R57): granted at once, or trapped, or waiting until it is granted or its deadline passes. `k`
completes the word with the offset of the first new byte. -/
def State.growWord (s : State) (c : Ctx) (cuts : Nat) (scr : Option Bool) (cause : Cause) (k : State → Nat → Res) : Res :=
  let core := c.who.core
  let region := c.blk.dealt.region
  let s := s.expireGrows core
  match s.growOf c with
  | some g =>
    match g.state with
    | .waiting => .wait s false
    | .granted => k (s.dropGrow c) g.off
    | .expired => trapAux (s.dropGrow c) c cause cuts 0
  | none =>
    let p := (s.core core).pool
    if p.grows.all (fun g => g.state != .waiting) && s.poolFits core c.blk.dealt.pool cuts then
      let (s, off) := s.grant core (s.bslot c) c.blk.dealt.pool cuts scr
      k s off
    else if s.effTrapnow region then trapAux s c cause cuts 0
    else
      let g : Grow := ⟨c.who, cuts, region, s.tref.toNat, .waiting, scr, 0⟩
      .wait (s.updCore core fun k => { k with pool := { k.pool with grows := k.pool.grows ++ [g] } }) false

/-- The whole warp must execute the word (03 R58). -/
def State.wholeGang (s : State) (c : Ctx) (k : State → Warp → Res) : Res :=
  s.atHome c fun s =>
    match s.warp c.who with
    | none => .left s
    | some w => if w.whole then k s w else trapAux s c .illegal 0 0

def execFgrow (n : BitVec 32) (s : State) : Out :=
  s.issue (.fgrow n) 0x88 ⟨0, false⟩ fun c s => s.wholeGang c fun s w =>
    let k := n.toNat
    if k = 0 || k % 16 != 0 || w.frame + k > 256 then trapAux s c .illegal 0 0
    else s.growWord c (k / 8) none .frameGrow fun s _ => .done (s.updWarp c.who fun w => { w with frame := w.frame + k }) .go

/-- FTRIM frees the names at or beyond the new F, with no write-back (03 R58). -/
def Warp.trim (w : Warp) (f : Nat) : Warp :=
  { w with
    frame := f
    regs := Tbl.drop w.regs fun k => decide (32 * f ≤ k)
    prev := Tbl.drop w.prev fun k => decide (32 * f ≤ k)
    bad := Tbl.drop w.bad fun k => decide (32 * f ≤ k)
    ocBad := Tbl.drop w.ocBad fun k => decide (32 * f ≤ k)
    oc := w.oc.filter fun e => decide (e.name < f) }

def execFtrim (n : BitVec 32) (s : State) : Out :=
  s.issue (.ftrim n) 0x89 ⟨0, false⟩ fun c s => s.wholeGang c fun s w =>
    let k := n.toNat
    let f := w.frame - k
    let pend (i : Instr) : Bool := (dstOf .lane i).any fun r => decide (f ≤ r)
    let logged := (s.logOf c.who).find? fun ix => match s.logEnt c.who.core ix with | some e => pend e.op.ins | none => false
    if k = 0 || k % 16 != 0 || w.frame < k + 16 then trapAux s c .illegal 0 0
    else match logged with
      | some ix => s.awaitLog c.who.core ix
      | none =>
        if w.flight.results.any fun r => r.dst.any fun d => decide (f ≤ d) then .wait s false
        else .done ((s.updWarp c.who fun w => w.trim f).poolGive c.who.core c.blk.dealt.pool (k / 8)) .go

/-- SGROW (23 R382): a release, then the grow. -/
def State.sgrowWord (s : State) (c : Ctx) (d : BitVec 8) (k : BitVec 22) (swz : Bool) : Res :=
  s.atHome c fun s =>
    if k = 0 then trapAux s c .illegal 0 0
    else s.released c .blk fun s =>
      s.growWord c k.toNat (some swz) .scrGrow fun s off => .done (s.put c c.active d.toNat fun _ => BitVec.ofNat 64 off) .go

def execSgrow (d : BitVec 8) (k : BitVec 22) (s : State) : Out :=
  s.issue (.sgrow d k) 0x8A ⟨0, false⟩ fun c s => s.sgrowWord c d k false
def execSgrowSwz (d : BitVec 8) (k : BitVec 22) (s : State) : Out :=
  s.issue (.sgrowSwz d k) 0x8A ⟨0, false⟩ fun c s => s.sgrowWord c d k true

/-- The top of scratch goes: what the bytes held goes with them, so that a later grow finds zero (03 R43). -/
def Scratch.trim (x : Scratch) (n : Nat) : Scratch :=
  let z := x.size - n
  { x with
    size := z
    bytes := Tbl.drop x.bytes fun a => decide (z ≤ a)
    swz := x.swz.filter fun k => decide (1024 * k < z)
    bad := Tbl.drop x.bad fun k => decide (z ≤ 4 * k)
    path := Tbl.drop x.path fun a => decide (z ≤ a) }

/-- An engine command of the block names something in the bytes from z on (03 R60). -/
def Cmd.names (x : Cmd) (b : Block) (z : Nat) : Bool :=
  (match x.bcb with | some o => decide (z < o + 32) | none => false) ||
  (match x.tileRec with | some o => decide (z < o + 32) | none => false) ||
  (match x.ring with | some id => (match b.ring id with | some r => decide (z < r.off + r.slots.length * r.size) | none => false) | none => false) ||
  ((x.kind == .ratom || x.kind == .ldimg) && decide (z < x.soff + 32))

/-- Stores to scratch that have not left their queues lose the bytes from z on: an access that is not ordered before a STRIM may act on the
old bytes alone (03 R60, 08 R139). -/
def Flight.cut (f : Flight) (z : Nat) : Flight :=
  { f with sq := { f.sq with ents := f.sq.ents.map fun e => if e.scratch then { e with bytes := e.bytes.take (z - e.addr) } else e } }
def State.cutStores (s : State) (core slot z : Nat) : State :=
  let s := s.updCore core fun k => { k with warps := k.warps.map fun e => (e.1, e.2.map fun x =>
    if x.blk == slot then { x with flight := x.flight.cut z } else x) }
  s.updFront core slot fun f => { f with flight := f.flight.cut z }

/-- What STRIM waits for (03 R60): the party's own accesses in flight, the locks on the removed bytes, and the commands that name them. -/
def State.trimBusy (s : State) (c : Ctx) (b : Block) (z : Nat) : Bool :=
  let core := s.bcore c
  let slot := s.bslot c
  (s.flight c.who).sq.ents.any (fun e => e.scratch) || (s.flight c.who).results.any (·.claim.isNone) ||
  ((s.core core).locks.any fun l => l.scratch && l.blk == slot && decide (z < l.hi)) ||
  (s.core core).cmds.any fun x => x.blk == slot && x.names b z

def execStrim (k : BitVec 22) (s : State) : Out :=
  s.issue (.strim k) 0x8B ⟨0, false⟩ fun c s => s.atHome c fun s =>
    match s.blockOf c.who with
    | none => .left s
    | some b =>
      let n := 1024 * k.toNat
      if n = 0 || n > b.scratch.size then trapAux s c .illegal 0 0
      else
        let loads := (s.logOf c.who).find? fun ix => match s.logEnt c.who.core ix with
          | some e => (match e.op.ins with | .lds _ => true | _ => false)
          | none => false
        match loads with
        | some ix => s.awaitLog c.who.core ix
        | none =>
          if s.trimBusy c b (b.scratch.size - n) then .wait s false
          else
            let s := s.cutStores (s.bcore c) (s.bslot c) (b.scratch.size - n)
            .done ((s.updB c fun b => { b with scratch := b.scratch.trim n }).poolGive (s.bcore c) b.dealt.pool k.toNat) .go

def execOcwb (g : Guard) (s : State) : Out := s.issue (.ocwb g) 0x8C g fun c s => .done (s.updWarp c.who Warp.writeBack) .go

/-! The events of waiting grows -/

/-- GROW_GRANT (03 R55 to R57): the oldest waiting grow of the core whose deadline has not passed, where it can be granted. -/
def execGrowGrant (core : Nat) (s : State) : Out :=
  let s := s.tick.expireGrows core
  match (s.core core).pool.grows.find? fun g => g.state == .waiting with
  | none => .next s
  | some g =>
    let own := ((s.blockOf g.who).map (·.dealt.pool)).getD []
    if !s.poolFits core own g.cuts then .next s
    else
      let (s, off) := s.grant core (s.home g.who).2 own g.cuts g.scr
      .next (s.updCore core fun k => { k with pool := Pool.settleFree { k.pool with
        grows := k.pool.grows.map fun x => if x.who == g.who then { x with state := .granted, off := off } else x } })

/-- GROW_DEADLINE (03 R57): the grows whose deadline has passed are granted no more. -/
def execGrowDeadline (core : Nat) (s : State) : Out := .next (s.tick.expireGrows core)

end Sys2Proof.Machine
end

