-- ==== Sys2Proof/Machine/Front.lean ====
section
/-! DEFINITION. The queues (10 R187 to R190), and the words of the front end alone (05 Table 10; 20 R310, R311; 22 R354, R355). -/

namespace Sys2Proof.Machine

/-! Queues -/

/-- A queue's entry as it stands in the queue table (10 R187). -/
def State.entryInMemory (s : State) (q : Nat) : BitVec 256 := BitVec.ofNat 256 (natOf (s.homeBytes (s.regs.qtab.toNat + 32 * q) 32))

/-- The device reads an entry at QSYNC and at the first use of the queue after reset. -/
def State.readQueue (s : State) (q : Nat) : State := s.setQueue q { s.queue q with entry := some (s.entryInMemory q) }
def State.useQueue (s : State) (q : Nat) : State := if (s.queue q).entry.isSome then s else s.readQueue q
def Queue.word (x : Queue) : BitVec 256 := x.entry.getD 0

def Queue.base (x : Queue) : Nat := fld 0 64 x.word
def Queue.slots (x : Queue) : Nat := 2 ^ fld 64 4 x.word
def Queue.region (x : Queue) : Nat := fld 68 12 x.word
def Queue.prio (x : Queue) : Nat := fld 80 3 x.word

/-- An entry that is not valid acts as EN = 0 and HOST = 0 (10 R187). -/
def Queue.valid (x : Queue) : Bool :=
  fld 0 7 x.word == 0 && decide (4 ≤ fld 64 4 x.word) && fld 85 43 x.word == 0 && fld 192 64 x.word == 0
def Queue.open (x : Queue) : Bool := x.valid && flag 83 x.word
def Queue.hostOpen (x : Queue) : Bool := x.open && flag 84 x.word

def Queue.taken (x : Queue) (k : Nat) : Bool := x.cards.any fun c => c.slot == k

/-- The slot a card of a depth takes (10 R188): a free unreserved one, or its depth's of the 8 last. -/
def Queue.slotFor (x : Queue) (depth : Nat) (free : Nat → DWord) : Option Nat :=
  match (chooseFrom free 1 ((List.range (x.slots - 8)).filter fun k => !x.taken k)).head? with
  | some k => some k
  | none => if depth = 0 || depth > 8 || x.taken (x.slots - 9 + depth) then none else some (x.slots - 9 + depth)

/-- The unreserved slots that are free. -/
def Queue.free (x : Queue) : Nat := ((List.range (x.slots - 8)).filter fun k => !x.taken k).length

/-- The device writes FREE at every change (10 Table 2). -/
def State.writeFree (s : State) (q : Nat) : State :=
  let x := s.queue q
  if x.valid then s.gaStore 224 (s.regs.qtab.toNat + 32 * q + 16) (bytesOf 4 x.free) else s

/-- A card's DEPTH (10 Table 1). -/
def cardDepth (card : BitVec 1024) : Nat := fld 376 4 card

/-- A card's REGION and WAITCTR (10 Table 1). -/
def cardRegion (c : BitVec 1024) : Nat := fld 432 12 c
def cardWaitctr (c : BitVec 1024) : DWord := c.extractLsb' 576 64

/-- A card may be dealt (10 R191): its wait counter as it was last read. -/
def QCard.waiting (c : QCard) : Bool := cardWaitctr c.card != 0 && !c.ready

/-! The watchdog's view (12 R238) -/

/-- A region is busy: a resident block, a card that may be dealt, or a block that awaits placement. -/
def State.busy (s : State) (r : Nat) : Bool :=
  (s.cores.any fun (_, k) => k.blocks.any fun (_, b) => match b with | some b => b.dealt.region == r | none => false) ||
  (s.queues.any fun (_, x) => x.valid && match x.cards with | c :: _ => cardRegion c.card == r && !c.waiting | [] => false) ||
  s.saved.any fun x => x.block.dealt.region == r

/-- The period of the watchdog starts when a region becomes busy, and again with `again` (12 R238). -/
def State.noteBusy (s : State) (again : Bool) (r : Nat) : State :=
  let x := s.region r
  let since := if !s.busy r then none else if again then some s.tref.toNat else some (x.busySince.getD s.tref.toNat)
  if x.busySince = since then s else s.setRegion r { x with busySince := since }

/-- A card enters a queue: none while no slot of its depth is free, or its domain is under reset (12 R239). `origin`: the address from which ENQ read it; else the slot's. -/
def State.enqueue (s : State) (q : Nat) (card : BitVec 1024) (origin : Option DWord) : Option State :=
  let x := s.queue q
  match (if s.resets.any fun z => z.fdom == s.effFdom x.region then none else x.slotFor (cardDepth card) (s.places 1)) with
  | none => none
  | some k =>
    let a := x.base + 128 * k
    let s := s.gaStore 224 a (bytesOf 128 card.toNat)
    let c : QCard := ⟨k, card, origin.getD (BitVec.ofNat 64 a), false, false, s.seq⟩
    let s := { s with seq := s.seq + 1 }
    some ((s.setQueue q { x with cards := x.cards ++ [c] }).writeFree q |>.noteBusy false (cardRegion card))

/-! The decision queue -/

def execDqpush (a : BitVec 8) (g : Guard) (s : State) : Out :=
  s.issue (.dqpush a g) 0x90 g fun c s => s.released c .blk (at_ := .queue) fun s =>
    match s.blockOf c.who with
    | none => .left s
    | some b =>
      if b.dq.length ≥ 16 then .wait s false
      else
        let v := s.get c a.toNat 0
        .done ((s.updB c fun b => { b with dq := b.dq ++ [v] }).retireDq (s.bcore c) (s.bslot c)) .go

/-! The matrix stream -/

/-- EMATRIX of a card (10 Table 1). -/
def cardMatrix (card : BitVec 1024) : DWord := card.extractLsb' 128 64

def State.matrixOf (s : State) (core b : Nat) : Option Matrix := (s.block core b).bind (·.matrix)

/-- The stream ends as after MEND (07 R136, 22 R355): a wait is abandoned, slots stay held. -/
def State.endMatrix (s : State) (core b : Nat) : State :=
  let s := s.dropWide ⟨core, .matrix b⟩
  let s := s.updBlock core b fun x => { x with rings := x.rings.map fun e => (e.1, e.2.map fun r => { r with
    waitFree := r.waitFree.filter fun w => w.holder != .matrix
    waitFill := r.waitFill.filter fun w => w.holder != .matrix }) }
  let s := s.updCore core fun k => { k with locks := k.locks.filter fun l => !(l.owner.isNone && l.blk == b) }
  s.updMatrix core b fun m => { m with running := false, clause := none, row := 0, steps := 0, started := false, due := none, arr := none, park := none }

/-- The stream ends for MSTOP, which its effects are handed to (22 R355). -/
def State.stopMatrix (s : State) (core b : Nat) : State := (s.release ⟨core, .matrix b⟩ .blk .stream).endMatrix core b

/-- The matrix stream of a block has a range lock: its word is under way (08 R149). -/
def State.matrixLocks (s : State) (core b : Nat) : List Lock := (s.core core).locks.filter fun l => l.owner.isNone && l.blk == b

/-- MSTART: a release, which the stream's first word is ordered after (22 R354). -/
def execMstart (s : State) : Out :=
  s.issue .mstart 0x91 ⟨0, false⟩ fun c s => s.released c .blk (at_ := .stream) fun s =>
    let entry := cardMatrix c.blk.dealt.card
    match s.matrixOf (s.bcore c) (s.bslot c) with
    | none => trapAux s c .illegal 0 0
    | some m =>
      if m.running then .done s .go
      else
        let s := s.updMatrix (s.bcore c) (s.bslot c) fun m => { m with
          running := true, pc := entry, clause := none, row := 0, steps := 0, started := false, due := none, stop := false }
        .done (s.acquire ⟨s.bcore c, .matrix (s.bslot c)⟩ .blk .stream) .go

/-- MSTOP (07 R136, 22 R355): a row under way is passed first; then an acquire. -/
def execMstop (s : State) : Out :=
  s.issue .mstop 0x92 ⟨0, false⟩ fun c s => s.logged c fun s =>
    let core := s.bcore c
    let b := s.bslot c
    match s.matrixOf core b with
    | none => .done s .go
    | some m =>
      if !m.running then
        if m.stop then .done ((s.updMatrix core b fun m => { m with stop := false }).acquire c.who .blk .stream) .go else .done s .go
      else if m.park.isSome then .done (s.endMatrix core b) .go
      else if m.steps = 0 && (s.matrixLocks core b).isEmpty then .done ((s.stopMatrix core b).acquire c.who .blk .stream) .go
      else .wait (s.updMatrix core b fun m => { m with stop := true }) false

/-! ENQ (20 R311) -/

/-- The card that ENQ reads, as loads of the front end: none while they must wait, for a CLAIM that moves the page (08 R156), for a held
replica (09 R170) or for the die's own stores on their way to a home where they are performed (08 R142). -/
def State.readCard (s : State) (c : Ctx) (va : DWord) : Except TrapArgs (Option (State × BitVec 1024)) :=
  let core := c.who.core
  let d := dieOf core
  match s.access core c.blk.dealt.asid (some c.who) .load true false va with
  | .error f => if f.cause = .migrating then .ok none else .error (f.trap 0)
  | .ok l =>
    let atHome := bypasses .dflt l
    match s.readBad d atHome l 128, (if atHome then none else (s.core core).l1.badAt l.phys 128) with
    | some k, _ | none, some k => .error (TrapArgs.of .poison (va + BitVec.ofNat 64 k) 0 0)
    | none, none =>
      if s.loadHeld c.who l.phys 128 || (atHome && l.home != d && s.efPending d l.phys 128) then .ok none
      else
        let s := s.tlbFill core c.blk.dealt.asid va
        let card (bs : List Byte) : BitVec 1024 := BitVec.ofNat 1024 (natOf bs)
        .ok (some (if atHome then
          (s.seeHome c.who .ls l.home l.phys 128 ((s.readHome d l.home l.phys 128).afterLoad core true l.phys 128),
            card ((span l.phys 128).map (s.homeByte c.who .ls l.home)))
        else
          (s.seeHere c.who .ls false (fun b => (s.staleL1 core b).isNone) l.phys 128 ((s.addGuest d l.home l.phys 128).afterLoad core false l.phys 128),
            card (s.lsBytes c.who false l.phys 128))))

def execEnq (a : BitVec 8) (id : BitVec 16) (s : State) : Out :=
  s.issue (.enq a id) 0x93 ⟨0, false⟩ fun c s =>
    let q := id.toNat
    let va := s.get c a.toNat 0
    let s := s.useQueue q
    let x := s.queue q
    if !x.open || !s.isAncestor c.blk.dealt.region x.region then trapAux s c .privDeny 0 0
    else if va.toNat % 128 != 0 then trapAux s c .align va.toNat 0
    else s.released c .pkg fun s =>
      match s.readCard c va with
      | .error t => .trap s t
      | .ok none => .wait s false
      | .ok (some (s, card)) =>
        let depth := cardDepth c.blk.dealt.card + 1
        if depth > 8 then trapAux s c .illegal 0 0
        else match s.enqueue q (setFld 376 4 depth card) (some va) with
          | some s => .done s .go
          | none => .wait s true

end Sys2Proof.Machine
end

