-- ==== Sys2Proof/Machine/Integer.lean ====
section
/-! DEFINITION. Integer, logic and bit words (05 Tables 2 and 3; 20 R290, R297, R300, R304; 21 R332 to R338; 22 R345, R346, R353, R358,
R359, R363, R364; 23 R378, R381, R397, R398). They act on 32 bits in a lane and on 64 bits in a FRONT clause (21 R334). -/

namespace Sys2Proof.Machine

/-! Values of w bits -/

/-- IDIV (21 Table 8). -/
def divBits (sgd : Bool) {w : Nat} (a b : BitVec w) : BitVec w :=
  if b = 0 then BitVec.allOnes w else if sgd then BitVec.ofInt w (a.toInt.tdiv b.toInt) else BitVec.ofNat w (a.toNat / b.toNat)

/-- IREM (21 Table 8): the remainder takes the sign of a. -/
def remBits (sgd : Bool) {w : Nat} (a b : BitVec w) : BitVec w :=
  if b = 0 then a else if sgd then BitVec.ofInt w (a.toInt.tmod b.toInt) else BitVec.ofNat w (a.toNat % b.toNat)

/-- IMULH (21 R337). -/
def mulHigh (sgd : Bool) {w : Nat} (a b : BitVec w) : BitVec w :=
  if sgd then BitVec.ofInt w (a.toInt * b.toInt / 2 ^ w) else BitVec.ofNat w (a.toNat * b.toNat / 2 ^ w)

/-- IMIN and IMAX (21 R336). -/
def pick (sgd larger : Bool) {w : Nat} (a b : BitVec w) : BitVec w :=
  let less := if sgd then a.slt b else a.ult b
  if less == larger then b else a

/-- IABS (21 R332). -/
def absBits {w : Nat} (a : BitVec w) : BitVec w := if a.toInt < 0 then -a else a

/-- Shifts by the whole value of b (23 R378). -/
def shlBits {w : Nat} (a b : BitVec w) : BitVec w := if b.toNat ≥ w then 0 else a <<< b.toNat
def shrBits {w : Nat} (a b : BitVec w) : BitVec w := if b.toNat ≥ w then 0 else a >>> b.toNat
def sarBits {w : Nat} (a b : BitVec w) : BitVec w := a.sshiftRight (min b.toNat w)
def rotBits {w : Nat} (a b : BitVec w) : BitVec w := a.rotateLeft (b.toNat % w)

/-- CLZ, POPC and BREV (20 R304, 22 R364, 20 R300). -/
def clzBits {w : Nat} (a : BitVec w) : BitVec w := BitVec.ofNat w (if a = 0 then w else w - 1 - Nat.log2 a.toNat)
def popcBits {w : Nat} (a : BitVec w) : BitVec w := BitVec.ofNat w (popCount a)
def brevBits {w : Nat} (a : BitVec w) : BitVec w := maskOf w fun i => a.getLsbD (w - 1 - i)

/-- The field that b selects (20 R297): its position and length within w bits. -/
def fieldOf (w : Nat) (b : Nat) : Nat × Nat :=
  let pos := min (b % 256) w
  (pos, min (b / 256 % 256) (w - pos))

def bfxBits (sgd : Bool) {w : Nat} (a b : BitVec w) : BitVec w :=
  let (pos, len) := fieldOf w b.toNat
  let f := a.toNat / 2 ^ pos % 2 ^ len
  if len = 0 then 0 else if sgd && f.testBit (len - 1) then BitVec.ofInt w ((f : Int) - 2 ^ len) else BitVec.ofNat w f

def bfiBits {w : Nat} (a b c : BitVec w) : BitVec w :=
  let (pos, len) := fieldOf w b.toNat
  let mask := BitVec.ofNat w ((2 ^ len - 1) * 2 ^ pos)
  (c &&& ~~~mask) ||| ((a <<< pos) &&& mask)

/-- LOP3 (22 R346): a selects the lowest index bit. -/
def lop3Bits (t : BitVec 8) {w : Nat} (a b c : BitVec w) : BitVec w :=
  maskOf w fun i => t.getLsbD ((a.getLsbD i).toNat + 2 * (b.getLsbD i).toNat + 4 * (c.getLsbD i).toNat)

/-! The words -/

/-- A function of one operand, in every executing lane at the width of the class. -/
def State.alu1 (s : State) (c : Ctx) (o : A2) (f : (w : Nat) → BitVec w → BitVec w) : Res :=
  .done (s.put c c.exec o.d.toNat fun l =>
    if c.cls = .front then f 64 (s.get c o.a.toNat 0) else (f 32 ((s.get c o.a.toNat l).setWidth 32)).setWidth 64) .go

/-- A function of two operands. -/
def State.alu2 (s : State) (c : Ctx) (o : A3) (f : (w : Nat) → BitVec w → BitVec w → BitVec w) : Res :=
  .done (s.put c c.exec o.d.toNat fun l =>
    if c.cls = .front then f 64 (s.get c o.a.toNat 0) (s.get c o.b.toNat 0)
    else (f 32 ((s.get c o.a.toNat l).setWidth 32) ((s.get c o.b.toNat l).setWidth 32)).setWidth 64) .go

/-- A function of three operands. -/
def State.alu3 (s : State) (c : Ctx) (o : A4) (f : (w : Nat) → BitVec w → BitVec w → BitVec w → BitVec w) : Res :=
  .done (s.put c c.exec o.d.toNat fun l =>
    if c.cls = .front then f 64 (s.get c o.a.toNat 0) (s.get c o.b.toNat 0) (s.get c o.c.toNat 0)
    else (f 32 ((s.get c o.a.toNat l).setWidth 32) ((s.get c o.b.toNat l).setWidth 32)
      ((s.get c o.c.toNat l).setWidth 32)).setWidth 64) .go

def execIadd (o : A3) (s : State) : Out := s.issue (.iadd o) 0x10 o.g fun c s => s.alu2 c o fun _ a b => a + b
def execIsub (o : A3) (s : State) : Out := s.issue (.isub o) 0x11 o.g fun c s => s.alu2 c o fun _ a b => a - b
def execImul (o : A3) (s : State) : Out := s.issue (.imul o) 0x12 o.g fun c s => s.alu2 c o fun _ a b => a * b
def execImulh (sgd : Bool) (o : A3) (s : State) : Out :=
  s.issue (.imulh sgd o) 0x13 o.g fun c s => s.alu2 c o fun _ => mulHigh sgd
def execImad (o : A4) (s : State) : Out := s.issue (.imad o) 0x14 o.g fun c s => s.alu3 c o fun _ a b x => a * b + x
def execIdiv (sgd : Bool) (o : A3) (s : State) : Out := s.issue (.idiv sgd o) 0x15 o.g fun c s => s.alu2 c o fun _ => divBits sgd
def execIrem (sgd : Bool) (o : A3) (s : State) : Out := s.issue (.irem sgd o) 0x16 o.g fun c s => s.alu2 c o fun _ => remBits sgd
def execImin (sgd : Bool) (o : A3) (s : State) : Out := s.issue (.imin sgd o) 0x17 o.g fun c s => s.alu2 c o fun _ => pick sgd false
def execImax (sgd : Bool) (o : A3) (s : State) : Out := s.issue (.imax sgd o) 0x18 o.g fun c s => s.alu2 c o fun _ => pick sgd true
def execIabs (o : A2) (s : State) : Out := s.issue (.iabs o) 0x19 o.g fun c s => s.alu1 c o fun _ => absBits

def execIset (cmp : ICmp) (o : ASet) (s : State) : Out :=
  s.issue (.iset cmp o) 0x1A o.g fun c s =>
    .done (s.putPred c c.exec o.d.toNat fun l =>
      if c.cls = .front then icmp cmp (s.get c o.a.toNat 0) (s.get c o.b.toNat 0)
      else icmp (w := 32) cmp ((s.get c o.a.toNat l).setWidth 32) ((s.get c o.b.toNat l).setWidth 32)) .go

def execSel (o : A3) (c : BitVec 8) (s : State) : Out :=
  s.issue (.sel o c) 0x1B o.g fun x s =>
    .done (s.put x x.exec o.d.toNat fun l => if s.pred x c.toNat l then s.get x o.a.toNat l else s.get x o.b.toNat l) .go

def execLea (o : A3) (sh : BitVec 6) (s : State) : Out :=
  s.issue (.lea o sh) 0x1C o.g fun c s => s.alu2 c o fun _ a b => a + b <<< sh.toNat

def execMov (o : A2) (s : State) : Out := s.issue (.mov o) 0x1D o.g fun c s => s.alu1 c o fun _ a => a

def execMovi (d : BitVec 8) (g : Guard) (imm : BitVec 32) (s : State) : Out :=
  s.issue (.movi d g imm) 0x1E g fun c s => .done (s.put c c.exec d.toNat fun _ => imm.signExtend 64) .go

/-- Predicates from n on take the bits of a value (23 R397). -/
def State.setBits (s : State) (c : Ctx) (n k : Nat) (v : Nat → DWord) : State :=
  (List.range k).foldl (fun s i => s.putPred c c.exec (n + i) fun l => (v l).getLsbD i) s

def execX2p (d a : BitVec 8) (g : Guard) (ha : Hint) (s : State) : Out :=
  s.issue (.x2p d a g ha) 0x1F g fun c s =>
    .done (s.setBits c d.toNat (if c.cls = .front then 16 else 32) fun l => s.get c a.toNat l) .go

def execAnd (o : A3) (s : State) : Out := s.issue (.and o) 0x20 o.g fun c s => s.alu2 c o fun _ a b => a &&& b
def execOr (o : A3) (s : State) : Out := s.issue (.or o) 0x21 o.g fun c s => s.alu2 c o fun _ a b => a ||| b
def execXor (o : A3) (s : State) : Out := s.issue (.xor o) 0x22 o.g fun c s => s.alu2 c o fun _ a b => a ^^^ b
def execAndn (o : A3) (s : State) : Out := s.issue (.andn o) 0x23 o.g fun c s => s.alu2 c o fun _ a b => a &&& ~~~b
def execLop3 (o : A4) (tab : BitVec 8) (s : State) : Out :=
  s.issue (.lop3 o tab) 0x24 o.g fun c s => s.alu3 c o fun _ => lop3Bits tab
def execShl (o : A3) (s : State) : Out := s.issue (.shl o) 0x25 o.g fun c s => s.alu2 c o fun _ => shlBits
def execShr (o : A3) (s : State) : Out := s.issue (.shr o) 0x26 o.g fun c s => s.alu2 c o fun _ => shrBits
def execSar (o : A3) (s : State) : Out := s.issue (.sar o) 0x27 o.g fun c s => s.alu2 c o fun _ => sarBits
def execRot (o : A3) (s : State) : Out := s.issue (.rot o) 0x28 o.g fun c s => s.alu2 c o fun _ => rotBits
def execClz (o : A2) (s : State) : Out := s.issue (.clz o) 0x29 o.g fun c s => s.alu1 c o fun _ => clzBits
def execPopc (o : A2) (s : State) : Out := s.issue (.popc o) 0x2A o.g fun c s => s.alu1 c o fun _ => popcBits
def execBrev (o : A2) (s : State) : Out := s.issue (.brev o) 0x2B o.g fun c s => s.alu1 c o fun _ => brevBits
def execBfx (sgd : Bool) (o : A3) (s : State) : Out := s.issue (.bfx sgd o) 0x2C o.g fun c s => s.alu2 c o fun _ => bfxBits sgd
def execBfi (o : A4) (s : State) : Out := s.issue (.bfi o) 0x2D o.g fun c s => s.alu3 c o fun _ => bfiBits

def execPlop (d a b c : BitVec 8) (g : Guard) (tab : BitVec 8) (s : State) : Out :=
  s.issue (.plop d a b c g tab) 0x2E g fun x s =>
    .done (s.putPred x x.exec d.toNat fun l =>
      tab.getLsbD ((s.pred x a.toNat l).toNat + 2 * (s.pred x b.toNat l).toNat + 4 * (s.pred x c.toNat l).toNat)) .go

def execP2x (d a : BitVec 8) (g : Guard) (hd : Hint) (s : State) : Out :=
  s.issue (.p2x d a g hd) 0x2F g fun c s =>
    .done (s.put c c.exec d.toNat fun l => maskOf 64 fun i =>
      decide (i < if c.cls = .front then 16 else 32) && s.pred c (a.toNat + i) l) .go

end Sys2Proof.Machine
end

