-- ==== Sys2Proof/Machine/Matrix.lean ====
section
/-! DEFINITION. The words of the matrix stream (05 Table 11; 07 R119 to R138; 22 R348 to R350): the aligned arithmetic of a row pass, and
one meaning per word. -/

namespace Sys2Proof.Machine

/-! Operand pairs (07 Table 1) -/

/-- The accumulator formats. -/
inductive AccFmt | f32 | i32 | f64
  deriving DecidableEq, Repr

/-- A row of 07 Table 1: W_A, W_B, slices, tile width N, accumulator, steps. -/
structure PairInfo where
  wa : Nat
  wb : Nat
  slices : Nat
  cols : Nat
  acc : AccFmt
  steps : Nat
  deriving DecidableEq, Repr

def pairOf : Fmt → Fmt → Option PairInfo
  | .e4m3, .e4m3 | .e4m3, .e5m2 | .e5m2, .e4m3 | .e5m2, .e5m2 | .e4m3, .nq4 | .e5m2, .nq4 => some ⟨8, 8, 1, 1280, .f32, 1⟩
  | .i8, .i8 => some ⟨8, 8, 1, 1280, .i32, 1⟩
  | .bf16, .bf16 => some ⟨12, 16, 2, 640, .f32, 2⟩
  | .f16, .f16 => some ⟨16, 16, 2, 640, .f32, 2⟩
  | .f32, .f32 => some ⟨28, 32, 4, 320, .f32, 4⟩
  | .f64, .f64 => some ⟨56, 64, 8, 160, .f64, 7⟩
  | _, _ => none

/-- The width of a tile of a B format, none where MLDB does not accept it. -/
def tileCols : Fmt → Option Nat
  | .e4m3 | .e5m2 | .nq4 | .i8 => some 1280
  | .bf16 | .f16 => some 640
  | .f32 => some 320
  | .f64 => some 160
  | _ => none

/-- The bytes of one column of a tile (07 R124). -/
def colBytes (f : Fmt) : Nat := 128 * fmtBits f

/-- The bits of B element (k, c) of a tile (07 R124). -/
def Tile.elem (t : Tile) (k c : Nat) : Nat :=
  if t.fb = .nq4 then
    let v := (Tbl.get 0 t.bytes (512 * c + k / 2)).toNat
    if k % 2 = 0 then v % 16 else v / 16
  else
    let z := fmtBits t.fb / 8
    natOf (Tbl.getList 0 t.bytes (colBytes t.fb * c + z * k) z)

/-! Alignment and partials (07 R125, R127, R128) -/

/-- The value of an element: an NQ4 index stands for its level. -/
def matNum (f : Fmt) (x : Nat) : Num :=
  if f = .nq4 then (let v := nq4Level (x % 16); .fin (decide (v < 0)) v.natAbs 1) else fmtRead f x

def floatOf : Fmt → Option FloatFmt
  | .f32 => some fF32
  | .f64 => some fF64
  | .f16 => some fF16
  | .bf16 => some fBF16
  | .e4m3 => some fE4M3
  | .e5m2 => some fE5M2
  | _ => none

/-- The unbiased exponent of an element, a zero or subnormal one at the smallest normal exponent. -/
def elemExp (g : FloatFmt) (x : Nat) : Int := ((max 1 (x / 2 ^ g.fb % 2 ^ g.eb) : Nat) : Int) - g.bias

/-- The largest exponent of a sub-block, and the power of two of a held value: 0 for I8 and NQ4. -/
def blockExp (f : Fmt) (w : Nat) (xs : List Nat) : Int :=
  match floatOf f with
  | none => 0
  | some g => (xs.map (elemExp g)).foldl max (1 - (g.bias : Int)) - w + 2

/-- The integer that the array holds of an element, under a block's power of two. -/
def heldInt (f : Fmt) (e : Int) (x : Nat) : Int :=
  match matNum f x with
  | .fin neg n d => if (floatOf f).isNone then sgn neg n else let (a, b) := scale2 n d (-e); sgn neg (a / b)
  | _ => 0

def Num.isInf : Num → Bool
  | .inf _ => true
  | _ => false
def Num.isZero : Num → Bool
  | .fin _ n _ => n == 0
  | _ => false

/-- The bits of an I32. -/
def i32Bits (v : Int) : Nat := (BitVec.ofInt 32 v).toNat

/-- Round_acc, with the events of 07 R138. -/
def roundAcc (acc : AccFmt) (x : Exact) : Elem :=
  match acc with
  | .f32 => fF32.finish .rne false 0 x
  | .f64 => fF64.finish .rne false 0 x
  | .i32 => match x with | .fin neg n d => ⟨i32Bits (sgn neg (n / d)), [], false⟩ | _ => ⟨0, [], false⟩

/-- THE PARTIAL of one sub-block of a row and a column (07 R128), from the element bits. -/
def partialOf (acc : AccFmt) (wa wb : Nat) (fa fb : Fmt) (as bs : List Nat) : Elem :=
  let ea := blockExp fa wa as
  let eb := blockExp fb wb bs
  let ps := List.zip (as.map (matNum fa)) (bs.map (matNum fb))
  let sum : Int := ((List.zip as bs).map fun p => heldInt fa ea p.1 * heldInt fb eb p.2).sum
  let infs := ps.filter fun p => p.1.isInf || p.2.isInf
  let signs := infs.map fun p => xor p.1.negative p.2.negative
  if ps.any (fun p => p.1.isNan || p.2.isNan) then roundAcc acc (.nan false)
  else if infs.any (fun p => p.1.isZero || p.2.isZero) then roundAcc acc (.nan true)
  else if signs.contains true && signs.contains false then roundAcc acc (.nan true)
  else match signs with
    | neg :: _ => roundAcc acc (.inf neg)
    | [] =>
      let (n, d) := scale2 sum.natAbs 1 (ea + eb)
      roundAcc acc (.fin (decide (sum < 0)) n d)

/-- A partial or a sum with its events and its poison. -/
structure AccVal where
  bits : Nat
  ev : List Ev
  bad : Bool
  deriving DecidableEq, Repr

/-- One addition in the accumulator format: RNE, or saturating (07 R129). -/
def accAdd (acc : AccFmt) (x y : AccVal) : AccVal :=
  let r : Elem :=
    match acc with
    | .f32 => fF32.finish .rne false 0 ((fF32.read x.bits).add .rne (fF32.read y.bits))
    | .f64 => fF64.finish .rne false 0 ((fF64.read x.bits).add .rne (fF64.read y.bits))
    | .i32 =>
      let v := (BitVec.ofNat 32 x.bits).toInt + (BitVec.ofNat 32 y.bits).toInt
      if v < -(2 ^ 31) then ⟨i32Bits (-(2 ^ 31)), [.sat], false⟩
      else if v > 2 ^ 31 - 1 then ⟨i32Bits (2 ^ 31 - 1), [.sat], false⟩ else ⟨i32Bits v, [], false⟩
  ⟨r.bits, x.ev ++ y.ev ++ r.ev, x.bad || y.bad⟩

/-- One level of the tree of 07 R129, and the tree. -/
def accPairs (acc : AccFmt) : List AccVal → List AccVal
  | x :: y :: r => accAdd acc x y :: accPairs acc r
  | l => l
def accTree (acc : AccFmt) (l : List AccVal) : AccVal :=
  ((accPairs acc (accPairs acc (accPairs acc (accPairs acc l)))).head?).getD ⟨0, [], false⟩

/-! The accumulator memory (07 R122, R133) -/

/-- The words of an element. -/
def AccFmt.words : AccFmt → Nat
  | .f64 => 2
  | _ => 1

def Matrix.accWord (m : Matrix) (a : Nat) : Nat := (Tbl.get 0 m.acc a).toNat
def Matrix.accBadAt (m : Matrix) (acc : AccFmt) (a : Nat) : Option Nat := (span a acc.words).find? fun k => Tbl.get false m.accBad k
/-- An element as a format, with its poison. -/
def Matrix.accGet (m : Matrix) (acc : AccFmt) (a : Nat) : AccVal :=
  ⟨m.accWord a + (if acc = .f64 then 2 ^ 32 * m.accWord (a + 1) else 0), [], (m.accBadAt acc a).isSome⟩
def Matrix.accPut (m : Matrix) (acc : AccFmt) (a : Nat) (v : AccVal) : Matrix :=
  let ws : List Word := if acc = .f64 then [BitVec.ofNat 32 v.bits, BitVec.ofNat 32 (v.bits / 2 ^ 32)] else [BitVec.ofNat 32 v.bits]
  { m with acc := Tbl.setList 0 m.acc a ws, accBad := Tbl.setList false m.accBad a (ws.map fun _ => v.bad) }

/-- Elements at base + j × stride + c × w for j below n and c below cols lie in the memory, even where they must (07 R122). -/
def accFits (acc : AccFmt) (base stride n cols unit : Nat) : Bool :=
  decide (base + (n - 1) * stride + (cols - 1) * unit + acc.words ≤ 0x20000) &&
  (acc != .f64 || (base % 2 == 0 && (n ≤ 1 || stride % 2 == 0)))

/-! A row pass -/

/-- At most one event of each class (07 R138). -/
def oneEach (l : List Ev) : List Ev := l.dedup

/-- The 16 partials of a column of a row, poisoned where a macro of the column has a parity error (07 R119, R133). -/
def Tile.partials (t : Tile) (p : PairInfo) (fa : Fmt) (row : List Nat) (c : Nat) : List AccVal :=
  (List.range 16).map fun kb =>
    let e := partialOf p.acc p.wa p.wb fa t.fb ((row.drop (64 * kb)).take 64) ((span (64 * kb) 64).map fun k => t.elem k c)
    ⟨e.bits, e.ev, t.bad.any fun q => q.1 == kb && decide (p.slices * c / 64 ≤ q.2) && decide (q.2 ≤ (p.slices * c + p.slices - 1) / 64)⟩

/-- MMUL of one row and one column (07 R129). -/
def Matrix.mulElem (m : Matrix) (p : PairInfo) (a : Nat) (ps : List AccVal) : Matrix × List Ev :=
  let v := accAdd p.acc (m.accGet p.acc a) (accTree p.acc ps)
  (m.accPut p.acc a v, oneEach v.ev)

/-- MMULB of one row and one column: the partials as they are, which clear the poison of their words unless they are poisoned. DESIGN CHOICE
(entry 47): the output element of 07 R138 is the column, with one event of each class over its 16 partials. -/
def Matrix.storeParts (m : Matrix) (a : Nat) (ps : List AccVal) : Matrix × List Ev :=
  ((List.zip (List.range 16) ps).foldl (fun m q => m.accPut .f32 (a + q.1) q.2) m, oneEach (ps.flatMap (·.ev)))

/-- THE ROW PASS (07 R127 to R129): every column in increasing order. -/
def Matrix.pass (m : Matrix) (t : Tile) (p : PairInfo) (fa : Fmt) (parts : Bool) (base : Nat) (row : List Nat) : Matrix × List Ev :=
  (List.range p.cols).foldl (fun (st : Matrix × List Ev) c =>
    let ps := t.partials p fa row c
    let (m, ev) := if parts then st.1.storeParts (base + 16 * c) ps else st.1.mulElem p (base + c * p.acc.words) ps
    (m, st.2 ++ ev)) (m, [])

/-! What the words share -/

/-- Register m[k] of the stream. -/
def Matrix.reg (m : Matrix) (k : Nat) : Nat := (Tbl.get 0 m.m k).toNat
def State.mat (s : State) (c : Ctx) : Option Matrix := s.matrixOf (s.bcore c) (s.bslot c)
def State.updMat (s : State) (c : Ctx) (f : Matrix → Matrix) : State := s.updMatrix (s.bcore c) (s.bslot c) f

/-- A word of the stream: it takes no guard and costs nothing at issue (22 R348). A stream that MSTOP has stopped ends once no word is
under way (07 R136). -/
def State.matWord (s : State) (i : Instr) (op : Nat) (k : Ctx → State → Matrix → Res) : Out :=
  s.issue i op ⟨0, false⟩ fun c s =>
    match s.mat c with
    | some m =>
      if m.stop && m.steps == 0 && (s.matrixLocks (s.bcore c) (s.bslot c)).isEmpty then .left (s.stopMatrix (s.bcore c) (s.bslot c))
      else k c s m
    | none => .left s

/-- Events of the stream: lane 0 of a party without lanes. -/
def State.matEvents (s : State) (c : Ctx) (evs : List Ev) : State × Option Nat :=
  let (s, t) := s.countEvents c.who c.blk c.pc (evs.map fun e => (0, e))
  (s, t.map fun p => p.2.idx)

/-- The word completes, with the STATLIMIT that an event raised (06 R118). -/
def matDone (s : State) (due : Option Nat) : Res :=
  match due with
  | some e => .after s (TrapArgs.of .statLimit 0 e 0)
  | none => .done s .go

/-- A scratch range lies below the scratch size (07 R123). -/
def State.scrFits (s : State) (c : Ctx) (hi : Nat) : Bool := decide (hi ≤ (s.scratch (s.bcore c) (s.bslot c)).size)

/-- Bytes of scratch as the engine reads them, or the trap on a poisoned word (12 R241). -/
def State.matRead (s : State) (c : Ctx) (a n : Nat) : Except TrapArgs (State × List Byte) :=
  let core := s.bcore c
  let b := s.bslot c
  match (s.scratch core b).badAt a n with
  | some k => .error (TrapArgs.of .poison (BitVec.ofNat 64 k) 0 0)
  | none => .ok (s.scrSee core b c.who .tile a n s, s.scrBytes core b c.who .tile a n)

/-- A word that moves scratch bytes holds its range locks for its duration (08 R149): it registers them, stalling while entries are
missing, and moves the bytes at a later issue. `k` receives the first range. -/
def State.underLocks (s : State) (c : Ctx) (locks : List (Nat × Nat)) (dest : Bool) (k : State → Nat → Res) : Res :=
  let core := s.bcore c
  match s.matrixLocks core (s.bslot c) with
  | l :: _ =>
    k (s.updCore core fun x => { x with locks := x.locks.filter fun y => !(y.owner.isNone && y.blk == s.bslot c) }) l.lo
  | [] =>
    if !s.lockRoom core locks.length then .wait s false
    else
      let new := locks.map fun r => (⟨none, s.bslot c, true, c.blk.dealt.asid, r.1, r.2, dest⟩ : Lock)
      .wait (s.updCore core fun x => { x with locks := x.locks ++ new }) false

/-! Ring slots of the engine (07 R126) -/

def RowPos.init : RowPos := ⟨none, 0, []⟩
def Matrix.rowPos (m : Matrix) (id : Nat) : RowPos := (Tbl.get none m.pos id).getD RowPos.init
def Matrix.setPos (m : Matrix) (id : Nat) (p : RowPos) : Matrix := { m with pos := Tbl.set none m.pos id (some p) }

/-- The slots that the engine holds, oldest first, and those that carry rows. -/
def Ring.matrixSlots (r : Ring) : List Nat := (r.taken.filter fun t => t.holder == .matrix && !t.fill).map (·.slot)
def Ring.rowSlots (r : Ring) (p : RowPos) : List Nat := r.matrixSlots.filter fun k => !p.tiles.contains k

/-- The row slots at and after the row position. -/
def Ring.ahead (r : Ring) (p : RowPos) : List Nat :=
  match p.slot with
  | none => []
  | some k => (r.rowSlots p).dropWhile (· != k)

/-- The position at row 0 of the slot that follows slot k. -/
def Ring.follow (r : Ring) (p : RowPos) : RowPos := { p with slot := (r.ahead p)[1]?, row := 0 }

/-- A ring that a word of the stream uses: present, and not in error (07 R126, 08 R147). -/
def State.matRing (s : State) (c : Ctx) (id : Nat) (k : Ring → Res) : Res :=
  match s.ring (s.bcore c) (s.bslot c) id with
  | none => trapAux s c .ringErr 0 id
  | some r =>
    match r.err with
    | some (code, a) => .trap s (TrapArgs.reported ((Cause.ofCode code).getD .ringErr) a 0)
    | none => k r

/-- The engine takes the next filled slot in ring order, with acquire semantics (07 R126): none while it must wait. The acquire hands over
what was written before the engine holds the slot (08 R148). -/
def State.matTake (s : State) (c : Ctx) (id : Nat) (r : Ring) : State × Option Nat :=
  let (r', k) := r.acquire .matrix 0 false
  let s := if k.isSome then s.acquire c.who .blk (.ring id) else s
  (s.setRing (s.bcore c) (s.bslot c) id r', k)

/-- The engine's oldest slot is released, with release semantics (07 R126, R134). -/
def State.matGive (s : State) (c : Ctx) (id : Nat) (slot : Nat) : State :=
  match s.ring (s.bcore c) (s.bslot c) id with
  | none => s
  | some r =>
    let s := (s.release c.who .blk (.ring id)).setRing (s.bcore c) (s.bslot c) id { r with
      slots := r.slots.set slot .free
      taken := r.taken.filter (fun t => !(t.holder == Holder.matrix && t.slot == slot)) }
    s.updMat c fun m =>
      let p := m.rowPos id
      let keep := { p with tiles := p.tiles.filter (· != slot) }
      m.setPos id (if p.slot = some slot then { keep with slot := ((r.rowSlots p).filter (· != slot)).head?, row := 0 } else keep)

/-- The row position stands in a slot: it takes the next one where none follows. Only the take meets a ring in error (08 R147). -/
def State.atRow (s : State) (c : Ctx) (id : Nat) (k : State → Nat → Nat → Res) : Res :=
  let p := ((s.mat c).map fun m => m.rowPos id).getD RowPos.init
  match p.slot with
  | some slot => k s slot p.row
  | none =>
    s.matRing c id fun r =>
    match s.matTake c id r with
    | (s, none) => .wait s false
    | (s, some slot) => k (s.updMat c fun m => m.setPos id { m.rowPos id with slot := some slot, row := 0 }) slot 0

/-! MLDB -/

/-- The tile read from scratch (07 R124): groups of 16 columns at their stride. -/
def State.readTile (s : State) (c : Ctx) (fb : Fmt) (cols base stride : Nat) : Except TrapArgs (State × Tile) :=
  let g := 16 * colBytes fb
  ((List.range (cols / 16)).foldl (fun (r : Except TrapArgs (State × Tbl Byte)) k =>
    r.bind fun p => (p.1.matRead c (base + k * stride) g).map fun q => (q.1, Tbl.setList 0 p.2 (k * g) q.2)) (.ok (s, []))).map
    fun p => (p.1, ⟨fb, p.2, []⟩)

/-- The load itself, under its lock: the tile, and the descriptor that a pre-emption saves (07 R137). -/
def State.loadTile (s : State) (c : Ctx) (fb : Fmt) (cols base stride : Nat) (give : State → State) : Res :=
  match s.readTile c fb cols base stride with
  | .error t => .trap (give s) t
  | .ok (s, t) => .done (s.updMat c fun m => { m with tile := some t, last := some (fb, base, stride) }) .go

/-- MLDB (07 R124, 22 R349): with `.slot` it takes the slot before it checks the bytes, and a trap that follows releases it again. -/
def execMldb (fb : Fmt) (id : BitVec 8) (ma mb : BitVec 4) (slot : Bool) (s : State) : Out :=
  s.matWord (.mldb fb id ma mb slot) 0xA0 fun c s m =>
    let off := m.reg ma.toNat
    let stride := m.reg mb.toNat
    match tileCols fb with
    | none => trapAux s c .illegal 0 0
    | some cols =>
      let n := (cols / 16 - 1) * stride + 16 * colBytes fb
      let held := (s.matrixLocks (s.bcore c) (s.bslot c)).head?
      let give (s : State) (k : Nat) : State := s.matGive c id.toNat k
      if off % 128 != 0 || stride % 128 != 0 || decide (stride < 16 * colBytes fb) then trapAux s c .illegal 0 0
      else if !slot then
        if !s.scrFits c (off + n) then trapAux s c .illegal 0 0
        else s.underLocks c [(off, off + n)] false fun s base => s.loadTile c fb cols base stride fun s => s
      else match held with
      | some _ => s.underLocks c [] false fun s base => s.loadTile c fb cols base stride fun s =>
          match (m.rowPos id.toNat).tiles with
          | k :: _ => give s k
          | [] => s
      | none => s.matRing c id.toNat fun r =>
          if !s.lockRoom (s.bcore c) 1 then .wait s false
          else match s.matTake c id.toNat r with
            | (s, none) => .wait s false
            | (s, some k) =>
              let base := r.off + k * r.size + off
              let s := s.updMat c fun m => m.setPos id.toNat { m.rowPos id.toNat with tiles := k :: (m.rowPos id.toNat).tiles }
              if off + n > r.size then trapAux (give s k) c .ringErr 0 id.toNat
              else if !s.scrFits c (base + n) then trapAux (give s k) c .illegal 0 0
              else s.underLocks c [(base, base + n)] false fun s base => s.loadTile c fb cols base stride fun s => give s k
/-! MMUL and MMULB -/

/-- The A row at an offset: 1,024 elements (07 R126). -/
def rowElems (fa : Fmt) (bs : List Byte) : List Nat :=
  let z := fmtBits fa / 8
  (List.range 1024).map fun k => natOf ((bs.drop (z * k)).take z)

/-- The slot and row at which row j of a word is read, in ring order from its position on (07 R126). -/
def Ring.rowAt (r : Ring) (p : RowPos) (rps j : Nat) : Nat × Nat :=
  let hold := r.ahead p
  let q := (p.row + j) / rps
  ((hold[q]?).getD ((r.drainCur + (q - hold.length)) % r.slots.length), (p.row + j) % rps)

/-- What must hold when the word starts (07 R122, R123, R126, R127, R129). DEDUCED (entry 36). -/
def State.mulTrap (s : State) (c : Ctx) (m : Matrix) (o : MulF) (p : PairInfo) (parts : Bool) (r : Ring) : Option (Cause × Nat) :=
  let rps := o.rps.toNat
  let n := o.n.toNat
  if rps = 0 || rps * (128 * fmtBits o.fa) > r.size then some (.ringErr, o.id.toNat)
  else if n = 0 then some (.illegal, 0)
  else if (match m.tile with | some t => t.fb != o.fb | none => true) then some (.illegal, 0)
  else if !(if parts then accFits .f32 (m.reg o.ma.toNat) (m.reg o.mb.toNat) n (16 * p.cols) 1
            else accFits p.acc (m.reg o.ma.toNat) (m.reg o.mb.toNat) n p.cols p.acc.words) then some (.illegal, 0)
  else if (List.range n).any fun j =>
      let (k, row) := r.rowAt (m.rowPos o.id.toNat) rps j
      !s.scrFits c (r.off + k * r.size + (row + 1) * (128 * fmtBits o.fa)) then some (.illegal, 0)
  else none

/-- After a row: the position advances, a slot whose last row is read is released with REL, and the word goes on, ends, or stops at
this boundary (07 R126, R136). DESIGN CHOICE (entry 47): a STATLIMIT that an earlier row of a word owes is not taken where the word ends
without completing, by MSTOP or by a resume past a later trap. -/
def State.rowDone (s : State) (c : Ctx) (o : MulF) (slot row : Nat) : Res :=
  let id := o.id.toNat
  let s := if row + 1 < o.rps.toNat then s.updMat c fun m => m.setPos id { m.rowPos id with row := row + 1 }
    else
      let s := match s.ring (s.bcore c) (s.bslot c) id with
        | some r => s.updMat c fun m => m.setPos id (r.follow (m.rowPos id))
        | none => s
      if o.rel then s.matGive c id slot else s
  match s.mat c with
  | none => .left s
  | some m =>
    if m.stop then .left (s.stopMatrix (s.bcore c) (s.bslot c))
    else if m.row ≥ o.n.toNat then
      matDone (s.updMat c fun m => { m with row := 0, steps := 0, started := false, due := none }) m.due
    else .wait s false

/-- One row, whose steps are paid (07 R127 to R129, R133, R138). A row that a STRIM has removed since lies beyond scratch. After a trap its steps
are to be paid again (11 R208), and the stream stands at the boundary before the row (07 R137). -/
def State.mulRow (s : State) (c : Ctx) (o : MulF) (p : PairInfo) (parts : Bool) (r : Ring) : Res :=
  s.atRow c o.id.toNat fun s slot row =>
    let n := 128 * fmtBits o.fa
    match s.mat c, (s.mat c).bind (·.tile) with
    | some m, some t =>
      let unpaid : State := s.updMat c fun m => { m with steps := 0 }
      if !s.scrFits c (r.off + slot * r.size + (row + 1) * n) then trapAux unpaid c .illegal 0 0
      else match s.matRead c (r.off + slot * r.size + row * n) n with
      | .error t => .trap unpaid t
      | .ok (s, bs) =>
        let base := m.reg o.ma.toNat + m.row * m.reg o.mb.toNat
        let (m', evs) := m.pass t p o.fa parts base (rowElems o.fa bs)
        let s := s.updMat c fun _ => { m' with row := m.row + 1, steps := 0 }
        let (s, due) := s.matEvents c evs
        (s.updMat c fun m => { m with due := m.due <|> due }).rowDone c o slot row
    | _, _ => .left s

/-- The word under way: one step of the row at a time, each paid before it starts, then the row (07 R135). -/
def State.mulRun (s : State) (c : Ctx) (o : MulF) (p : PairInfo) (parts : Bool) (r : Ring) : Res :=
  match s.mat c with
  | none => .left s
  | some m =>
    if m.steps ≥ p.steps then s.mulRow c o p parts r
    else if s.cap c.who.core < 1000 then
      .trap ((s.dropWide c.who).updMat c fun m => { m with steps := 0 }) (TrapArgs.of .tokenCap 0 1000 0)
    else s.atRow c o.id.toNat fun s _ _ =>
      let s := (s.requestWide c.who 1000 c.blk.dealt.region).payWide c.who.core
      match s.mat c with
      | some m => if m.steps ≥ p.steps then s.mulRow c o p parts r else .wait s false
      | none => .left s

/-- MMUL and MMULB (07 R123, R126 to R129, R135): the checks when the word starts, then its rows. -/
def State.mulWord (s : State) (c : Ctx) (m : Matrix) (o : MulF) (parts : Bool) : Res :=
  match pairOf o.fa o.fb with
  | none => trapAux s c .illegal 0 0
  | some p =>
    if parts && p.acc != .f32 then trapAux s c .illegal 0 0
    else if !m.started && decide (s.cap c.who.core < 1000) then .trap (s.dropWide c.who) (TrapArgs.of .tokenCap 0 1000 0)
    else match s.ring (s.bcore c) (s.bslot c) o.id.toNat with
      | none => trapAux s c .ringErr 0 o.id.toNat
      | some r =>
        if m.started then s.mulRun c o p parts r
        else match s.mulTrap c m o p parts r with
          | some (x, aux) => trapAux s c x 0 aux
          | none => (s.updMat c fun m => { m with started := true }).mulRun c o p parts r

def execMmul (o : MulF) (s : State) : Out := s.matWord (.mmul o) 0xA1 fun c s m => s.mulWord c m o false

def execMmulb (o : MulF) (s : State) : Out := s.matWord (.mmulb o) 0xA2 fun c s m => s.mulWord c m o true

/-! MSCALE, MZERO and MDRAIN -/

/-- One fold of MSCALE (07 R130, 06 R114), with its events. -/
def foldScale (v p a b : Nat) : Elem :=
  let x := fF32.finish .rne false 0 ((fF32.read p).mul (fF32.read a))
  let y := fF32.finish .rne false 0 ((fF32.read x.bits).mul (fF32.read b))
  let z := fF32.finish .rne false 0 ((fF32.read y.bits).add .rne (fF32.read v))
  ⟨z.bits, oneEach (x.ev ++ y.ev ++ z.ev), false⟩

/-- MSCALE of one output element (07 R130, R133): src the 16 partials' address, dst the element's. -/
def Matrix.scaleElem (m : Matrix) (src dst : Nat) (sa sb : Nat → Nat) : Matrix × List Ev :=
  let v := (List.range 16).foldl (fun (v : AccVal) kb =>
    let p := m.accGet .f32 (src + kb)
    let e := foldScale v.bits p.bits (sa kb) (sb kb)
    ⟨e.bits, v.ev ++ e.ev, v.bad || p.bad⟩) (m.accGet .f32 dst)
  (m.accPut .f32 dst v, v.ev)

/-- Every element of MSCALE in order. -/
def Matrix.scaleAll (m : Matrix) (g : Nat → Nat) (rows cols : Nat) (sa sb : Nat → Nat → Nat) : Matrix × List Ev :=
  (List.range (rows * cols)).foldl (fun (st : Matrix × List Ev) k =>
    let j := k / cols
    let c := k % cols
    let (m, ev) := st.1.scaleElem (g 0 + j * g 1 + 16 * c) (g 2 + j * g 3 + c) (sa j) fun kb => sb kb c
    (m, st.2 ++ ev)) (m, [])

def execMscale (id : BitVec 8) (ma mb : BitVec 4) (s : State) : Out :=
  s.matWord (.mscale id ma mb) 0xA3 fun c s m =>
    let g (k : Nat) : Nat := m.reg (ma.toNat + k)
    let offA := m.reg mb.toNat
    let offB := m.reg (mb.toNat + 1)
    let n := m.reg (mb.toNat + 2)
    let cols := 32 * id.toNat
    if id.toNat < 1 || id.toNat > 40 then trapAux s c .illegal 0 0
    else if offA % 4 != 0 || offB % 4 != 0 then trapAux s c .illegal 0 0
    else if n = 0 then .done s .go
    else if !s.scrFits c (offA + 64 * n) || !s.scrFits c (offB + 64 * cols) || !accFits .f32 (g 0) (g 1) n (16 * cols) 1 ||
        !accFits .f32 (g 2) (g 3) n cols 1 then trapAux s c .illegal 0 0
    else s.underLocks c [(offA, offA + 64 * n), (offB, offB + 64 * cols)] false fun s _ =>
      match s.matRead c offA (64 * n) with
      | .error t => .trap s t
      | .ok (s, as) =>
      match s.matRead c offB (64 * cols) with
      | .error t => .trap s t
      | .ok (s, bs) =>
        let word (l : List Byte) (k : Nat) : Nat := natOf ((l.drop (4 * k)).take 4)
        let (m', evs) := m.scaleAll g n cols (fun j kb => word as (16 * j + kb)) fun kb k => word bs (cols * kb + k)
        let (s, due) := (s.updMat c fun _ => m').matEvents c evs
        matDone s due

def execMzero (ma mb : BitVec 4) (s : State) : Out :=
  s.matWord (.mzero ma mb) 0xA4 fun c s m =>
    let a := m.reg ma.toNat
    let n := m.reg mb.toNat
    if n = 0 then .done s .go
    else if a + n > 0x20000 then trapAux s c .illegal 0 0
    else
      let inside (k : Nat) : Bool := decide (a ≤ k) && decide (k < a + n)
      .done (s.updMat c fun m => { m with acc := Tbl.drop m.acc inside, accBad := Tbl.drop m.accBad inside }) .go

/-- The source format of a destination format (07 R132): none where MDRAIN does not accept it. -/
def drainFrom : Fmt → Option AccFmt
  | .f64 => some .f64
  | .i8 | .u8 | .i16 | .i32 | .u32 | .i64 => some .i32
  | .f32 | .f16 | .bf16 | .e4m3 | .e5m2 => some .f32
  | .nq4 | .e8m0 | .sc8 => none

/-- The value of an accumulator element. -/
def accNum : AccFmt → Nat → Num
  | .f32, x => fF32.read x
  | .f64, x => fF64.read x
  | .i32, x => intNum 32 true x

/-- MDRAIN (07 R132, R138): every source element is checked before any byte is written or any draw taken. -/
def execMdrain (fa : Fmt) (id : BitVec 8) (ma mb : BitVec 4) (rm : Rm) (ov : Ov) (s : State) : Out :=
  s.matWord (.mdrain fa id ma mb rm ov) 0xA5 fun c s m =>
    let g (k : Nat) : Nat := m.reg (ma.toNat + k)
    let n := m.reg mb.toNat
    let cols := 32 * id.toNat
    let z := fmtBits fa / 8
    match drainFrom fa with
    | none => trapAux s c .illegal 0 0
    | some acc =>
      if id.toNat < 1 || id.toNat > 40 then trapAux s c .illegal 0 0
      else if g 2 % z != 0 || g 3 % z != 0 then trapAux s c .illegal 0 0
      else if n = 0 then .done s .go
      else if !accFits acc (g 0) (g 1) n cols acc.words || !s.scrFits c (g 2 + (n - 1) * g 3 + cols * z) then trapAux s c .illegal 0 0
      else
        let at_ (k : Nat) : Nat := g 0 + k / cols * g 1 + k % cols * acc.words
        let bad := ((List.range (n * cols)).filterMap fun k => m.accBadAt acc (at_ k)).foldl
          (fun (r : Option Nat) a => some (match r with | some b => min a b | none => a)) none
        let es := (List.range (n * cols)).map fun k =>
          (k, fmtConvert fa rm ov (srDraw c.blk.msrseed k) (accNum acc (m.accGet acc (at_ k)).bits))
        match bad, es.filter (·.2.trap) with
        | some a, _ => .trap s (TrapArgs.of .poison (BitVec.ofNat 64 a) 0 0)
        | none, (k, e) :: rest =>
          Res.fpTrap s c 0 ((((k, e) :: rest).flatMap fun p => p.2.ev).map fun v => (0, v)) (BitVec.ofNat 64 (at_ k))
        | none, [] =>
          s.underLocks c [(g 2, g 2 + (n - 1) * g 3 + cols * z)] true fun s _ =>
            let s := es.foldl (fun s p => s.scrStore (s.bcore c) (s.bslot c) c.who .ewr (g 2 + p.1 / cols * g 3 + p.1 % cols * z)
              (bytesOf z p.2.bits)) s
            let s := if rm = .sr then s.updB c fun b => { b with msrseed := srAfter (n * cols) b.msrseed } else s
            let (s, due) := s.matEvents c (es.flatMap fun p => p.2.ev)
            matDone s due

/-! Signals, waits and control (07 R134, 22 R349) -/

/-- A byte-counting barrier of the stream, at m[ma]. -/
def State.matBcb (s : State) (c : Ctx) (off : Nat) (k : State → Res) : Res :=
  match s.objTrap c off 32 32 with
  | some t => .trap s t
  | none => k s

def execMsig (k : SigKind) (id : BitVec 8) (ma : BitVec 4) (s : State) : Out :=
  s.matWord (.msig k id ma) 0xA6 fun c s m =>
    let v := m.reg ma.toNat
    match k with
    | .bcb => s.matBcb c v fun s => s.released c .blk (fun s =>
        match s.bcbOp (s.bcore c) (s.bslot c) v .arrive with
        | (s, true) => trapAux s c .barErr v 0
        | (s, false) => .done s .go) (.bcb v)
    | .ring =>
      if v = 0 then .done s .go
      else match s.ring (s.bcore c) (s.bslot c) id.toNat with
        | none => trapAux s c .ringErr 0 id.toNat
        | some r =>
          if v > r.matrixSlots.length then trapAux s c .ringErr 0 id.toNat
          else .done ((r.matrixSlots.take v).foldl (fun s slot => s.matGive c id.toNat slot) s) .go
    | .bar => s.barWord c id.toNat v 1 fun s _ => .done s .go

/-- MWAIT.ring takes slots until the engine holds m[ma] at and after its row position. DESIGN CHOICE (entry 47): the slot in which the position
stands counts, also when some of its rows have been read. -/
def State.matWaitRing (s : State) (c : Ctx) (id v : Nat) : Nat → Res
  | 0 => .wait s false
  | f + 1 =>
    s.matRing c id fun r =>
      let p := ((s.mat c).map fun m => m.rowPos id).getD RowPos.init
      if v > r.slots.length then trapAux s c .ringErr 0 id
      else if (r.ahead p).length ≥ v then .done s .go
      else match s.matTake c id r with
        | (s, none) => .wait s false
        | (s, some slot) =>
          (s.updMat c fun m => if p.slot.isSome then m else m.setPos id { p with slot := some slot, row := 0 }).matWaitRing c id v f

def execMwait (k : SigKind) (id : BitVec 8) (ma : BitVec 4) (s : State) : Out :=
  s.matWord (.mwait k id ma) 0xA7 fun c s m =>
    let v := m.reg ma.toNat
    match k with
    | .bcb =>
      if ma.toNat % 2 != 0 then trapAux s c .illegal 0 0
      else s.matBcb c v fun s =>
        match (s.bcb (s.bcore c) (s.bslot c) v).wait v (m.reg (ma.toNat + 1)) with
        | some (.ok _) => .done (s.acquire c.who .blk (.bcb v)) .go
        | some (.error t) => .trap s { t with lanes := 0 }
        | none => .wait s false
    | .ring => if v = 0 then .done s .go else s.matWaitRing c id.toNat v 257
    | .bar =>
      if freshCount (s.arrivals c) = 0 then s.waitAll c (s.barState c) .blk id.toNat (.bar id.toNat)
      else s.barWord c id.toNat v 1 fun s phase =>
        (s.setArr c fun a => some (a.getD ⟨false, id.toNat, phase⟩)).waitAll c (s.barState c) .blk id.toNat (.bar id.toNat)

def execMloop (ma : BitVec 4) (off : BitVec 32) (s : State) : Out :=
  s.matWord (.mloop ma off) 0xA8 fun c s m =>
    let v : Word := Tbl.get 0 m.m ma.toNat - 1
    let s := s.updMat c fun m => { m with m := Tbl.set 0 m.m ma.toNat v }
    .jump s (fun _ => if v = 0 then none else some (c.pc + wordOff off, 0)) false

def execMset (ma : BitVec 4) (imm : BitVec 32) (s : State) : Out :=
  s.matWord (.mset ma imm) 0xA9 fun c s _ => .done (s.updMat c fun m => { m with m := Tbl.set 0 m.m ma.toNat imm }) .go

def execMend (s : State) : Out := s.matWord .mend 0xAA fun c s _ => .left (s.endMatrix (s.bcore c) (s.bslot c))

end Sys2Proof.Machine
end

