-- ==== Sys2Proof/Machine/Record.lean ====
section
/-! DEFINITION. The warp state record and the frame image that WSAVE and WLOAD move (12 Table 4; 23 R395, R396; 02 R33), and the bytes of a
save slot (12 Tables 5 and 6). The places within the rows that the spec does not fix are the model's (entry 40). -/

namespace Sys2Proof.Machine

/-! Spilled split entries (02 R33) -/

/-- A split entry of 16 bytes (02 R33). -/
def Split.bytes (e : Split) : List Byte := bytesOf 8 e.pc.toNat ++ bytesOf 8 (e.mask.toNat + 16 * (e.depth % 128))
def Split.ofBytes (bs : List Byte) : Split :=
  let m := natOf ((bs.drop 8).take 8)
  ⟨BitVec.ofNat 64 (natOf (bs.take 8)), BitVec.ofNat 4 m, m / 16 % 128⟩

/-- Entry i of slice k of the frame headers: one that was never in use reads zero (03 R43), one that is no longer in use holds a free
value. -/
def State.headerEntry (s : State) (w : Warp) (k i : Nat) : Split :=
  match w.spilled k i with
  | some e => e
  | none =>
    if i ≥ Tbl.get 0 w.headers k then ⟨0, 0, 0⟩ else
    let v := s.freeAt 14 (16 * k + i)
    ⟨v, s.freeAt 15 (16 * k + i) |>.setWidth 4, fld 4 7 (s.freeAt 15 (16 * k + i))⟩

/-- A stack of n entries: its top ones, and the rest as the headers hold them. -/
def stackOf (n : Nat) (top : List Split) (header : Nat → Split) : List Split :=
  top.take n ++ ((List.range (n - 4)).map header).reverse

/-! The operand-log entries of a record -/

/-- An entry of 800 bytes: the word, the faulting address, the faulting lanes, the lanes, the program counter with the cause and flags, and
24 bytes a lane; of a RATOM the operands that it was issued with. -/
def LogEnt.bytes (e : LogEnt) : List Byte :=
  let pc := fld 0 58 e.op.pc / 8 * 8 + 1 + (if e.mig then 2 else 0) + (if e.op.priv then 4 else 0) + 2 ^ 58 * e.cause.code
  bytesOf 8 (encode e.op.ins).toNat ++ bytesOf 8 e.addr.toNat ++ bytesOf 4 e.lanes.toNat ++ bytesOf 4 (lanesOfOps e.op.ops).toNat ++ bytesOf 8 pc ++
  match e.cmd with
  | some x =>
    let (b, c) : Nat × Nat := match x.atom with | some a => (a.2.2.1.toNat, a.2.2.2.toNat) | none => (0, 0)
    (bytesOf 8 x.base.toNat ++ bytesOf 8 b ++ bytesOf 8 c ++ bytesOf 8 x.soff ++ bytesOf 8 (x.bcb.getD 0) ++ List.replicate 728 0)
  | none => (List.range 32).flatMap fun l =>
    match e.op.ops.find? (·.lane == l) with
    | some o => bytesOf 8 o.addr.toNat ++ (match e.op.ins with
        | .atom _ | .red _ | .atoms _ => bytesOf 8 o.b.toNat ++ bytesOf 8 o.c.toNat
        | _ => bytesOf 16 o.b.toNat)
    | none => List.replicate 24 0

/-- An entry as it is loaded for a warp: none where the record holds none. -/
def State.logOfBytes (s : State) (w : Who) (asid : Nat) (bs : List Byte) : Option LogEnt :=
  let n (a k : Nat) : Nat := natOf ((bs.drop a).take k)
  let pc := n 24 8
  if pc % 2 = 0 then none
  else match decode (BitVec.ofNat 64 (n 0 8)), Cause.ofCode (pc / 2 ^ 58) with
    | .ok ins, some cause =>
      let ops := (onesOf (BitVec.ofNat 32 (n 20 4))).map fun l =>
        let b := 32 + 24 * l
        let half := match ins with | .atom _ | .red _ | .atoms _ => true | _ => false
        (⟨l, BitVec.ofNat 64 (n b 8), BitVec.ofNat 128 (n (b + 8) (if half then 8 else 16)), BitVec.ofNat 64 (if half then n (b + 16) 8 else 0)⟩ : LaneOp)
      let at_ : DWord := (BitVec.ofNat 58 (pc / 8 * 8)).signExtend 64
      let v (k : Nat) : DWord := BitVec.ofNat 64 (n (32 + 8 * k) 8)
      let cmd := match ins with
        | .ratom _ _ op b64 => some (Cmd.ratom w at_ (s.home w).2 (v 0) (n 56 8) (n 64 8) (op, b64, v 1, v 2))
        | _ => none
      some ⟨⟨w, at_, ins, ops, pc / 4 % 2 = 1⟩, cause, BitVec.ofNat 64 (n 8 8),
        BitVec.ofNat 32 (n 16 4), pc / 2 % 2 = 1, s.pagesOf asid (ops.map (·.addr)), cmd⟩
    | _, _ => none

/-! The record (12 Table 4) -/

/-- The gangs that a warp's slices form (02 R35). -/
def Warp.gangCount (w : Warp) : Nat :=
  let live := (List.range w.slices.length).filterMap fun k => (w.slices[k]?).bind fun x => if x.ended then none else some x
  ((List.range live.length).filter fun k =>
    match live[k]? with | some x => !((live.take k).any x.sameGang) | none => false).length

def Warp.dirty (w : Warp) : List Nat := ((w.oc.filter (·.dirty)).map (·.name)).take 8

/-- n bytes of a list, filled up with zeros. -/
def pad (n : Nat) (bs : List Byte) : List Byte := (bs ++ List.replicate n 0).take n

/-- The flag of handler level with the recorded return state: its gang, the gang's call depth and masks, and one more than the place of the
handled log entry among the record's (12 Table 4). -/
def HandlerSave.word (h : HandlerSave) (logs : List Nat) : Nat :=
  let lead := ((onesOf h.gang).head?).bind (h.slices[·]?)
  let at_ := match h.info.log with | some ix => logs.idxOf ix % 16 + 1 | none => 0
  1 + 2 ^ 8 * h.gang.toNat + 2 ^ 16 * ((lead.map (·.depth)).getD 0) + 2 ^ 24 * at_ +
    2 ^ 32 * ((List.range 8).map fun k => 16 ^ k * (((h.slices[k]?).map (·.mask.toNat)).getD 0)).sum

/-- How many of a slice's split entries the trap recorded, at handler level: 5 bits a slice. -/
def Warp.recordedDepths (w : Warp) : Nat := ((List.range 8).map fun k => 32 ^ k * (w.recorded k).length).sum

def Warp.record (w : Warp) (logs : List (Nat × LogEnt)) : List Byte :=
  let o := w.origin.getD (0, 0)
  let cause := (w.handler.map (·.info.cause.code)).getD 0
  let back := (w.handler.map fun h => h.word (logs.map (·.1))).getD 0
  let pc := (w.handler.map (·.info.pc.toNat)).getD 0
  pad 64 ([w.frame, w.role + 2 ^ 8 * cause + 2 ^ 16 * w.recordedDepths, w.dqPos, w.gangCount, back, o.2, o.1, pc].flatMap (bytesOf 8)) ++
  pad 64 (w.slices.flatMap fun x => bytesOf 8 x.pc.toNat) ++
  pad 64 (w.stacks.flatMap fun x => bytesOf 1 x.mask.toNat ++ bytesOf 1 x.depth ++ bytesOf 1 x.stack.length ++ List.replicate 5 0) ++
  pad 512 (w.stacks.flatMap fun x => pad 64 ((x.stack.take 4).flatMap Split.bytes)) ++
  pad 512 ((List.range 128).flatMap fun n => bytesOf 4 (maskOf 32 fun l => w.p n l).toNat) ++
  pad 128 (w.srseed.flatMap fun v => bytesOf 4 v.toNat) ++
  pad 8 ((List.range 6).flatMap fun k => bytesOf 1 (Tbl.get 0 w.flight.sb (k + 1))) ++
  pad 64 (w.dirty.flatMap (bytesOf 8)) ++ List.replicate 1144 0 ++
  pad 1024 (w.dirty.flatMap fun n => (lanesOf w.regs n).flatMap fun v => bytesOf 4 v.toNat) ++
  pad 12800 (logs.flatMap fun e => e.2.bytes)

/-- The record of a warp, with its log entries. -/
def State.recordOf (s : State) (t : Who) (w : Warp) : List Byte :=
  w.record ((s.logOf t).filterMap fun ix => (s.logEnt t.core ix).map fun e => (ix, e))

/-- What makes a record refused (23 R396), for a target of frame size f: its slices, its split entries and its return state are all held to the
greatest call depth. -/
def recordBad (f : Nat) (bs : List Byte) : Bool :=
  let n (a k : Nat) : Nat := natOf ((bs.drop a).take k)
  n 0x588 1144 != 0 || n 0x546 2 != 0 || n 0 8 != f || n 0x18 8 = 0 || n 0x18 8 > 8 ||
  (n 0x20 1 != 0 && n 0x22 1 > 64) ||
  (List.range 8).any fun k => n (0x83 + 8 * k) 5 != 0 || n (0x81 + 8 * k) 1 > 64 || n (0x82 + 8 * k) 1 > 20 ||
    (List.range (min 4 (n (0x82 + 8 * k) 1))).any fun i => decide ((Split.ofBytes ((bs.drop (0xC0 + 64 * k + 16 * i)).take 16)).depth > 64)

/-- The slices of a record: what it does not hold of a split stack stands in the target's headers. -/
def State.recordSlices (s : State) (old : Warp) (bs : List Byte) : List Slice :=
  let n (a k : Nat) : Nat := natOf ((bs.drop a).take k)
  (List.range 8).map fun k =>
    let top := (List.range 4).map fun i => Split.ofBytes ((bs.drop (0xC0 + 64 * k + 16 * i)).take 16)
    ⟨BitVec.ofNat 64 (n (0x40 + 8 * k) 8), n (0x81 + 8 * k) 1, BitVec.ofNat 4 (n (0x80 + 8 * k) 1),
      stackOf (n (0x82 + 8 * k) 1) top (s.headerEntry old k), none⟩

/-- Lanes that stand in some mask of their slice have not exited. -/
def aliveOf (sl : List Slice) : BitVec 32 :=
  maskOf 32 fun l => match sl[l / 4]? with
    | some x => x.mask.getLsbD (l % 4) || x.stack.any fun e => e.mask.getLsbD (l % 4)
    | none => false

/-- How many split entries of slice k belong to the return state of a record. -/
def recordedDepth (bs : List Byte) (k : Nat) : Nat := if natOf ((bs.drop 0x20).take 1) = 0 then 0 else natOf ((bs.drop 0xA).take 5) / 32 ^ k % 32

/-- The slices that go on from a record with slices sl: at handler level, without the split entries of the return state. -/
def handlerSlices (bs : List Byte) (sl : List Slice) : List Slice :=
  (List.range sl.length).zipWith (fun k x => { x with stack := x.stack.take (x.stack.length - recordedDepth bs k) }) sl

/-- The return state of a record with slices sl: its gang goes on at the recorded word (entry 40). -/
def Warp.returnState (w : Warp) (bs : List Byte) (sl : List Slice) : Option HandlerSave :=
  let n (a k : Nat) : Nat := natOf ((bs.drop a).take k)
  if n 0x20 1 = 0 then none
  else
    let gang : BitVec 8 := BitVec.ofNat 8 (n 0x21 1)
    let pc : DWord := BitVec.ofNat 64 (n 0x38 8)
    let sl := (List.range sl.length).zipWith (fun k x =>
      if gang.getLsbD k then
        ⟨pc, n 0x22 1, BitVec.ofNat 4 (n 0x24 4 / 16 ^ k), x.stack.drop (x.stack.length - recordedDepth bs k), none⟩ else x) sl
    some ⟨sl, gang, none, ⟨(Cause.ofCode (n 9 1)).getD .illegal, w.frec, pc, pc + 8, if n 0x23 1 = 0 then none else some (n 0x23 1 - 1), none⟩⟩

/-- The target takes the record (23 R396): a dirty entry goes to its frame, which it clears of poison (12 R241), and no entry stays valid. -/
def State.loadRecord (s : State) (w : Warp) (bs : List Byte) : Warp :=
  let n (a k : Nat) : Nat := natOf ((bs.drop a).take k)
  let sl := s.recordSlices w bs
  let names := (List.range 8).filter fun i => n (0x548 + 8 * i) 8 != 0 && decide (n (0x548 + 8 * i) 8 < w.frame)
  let put (v : Nat → Nat → Nat → Word) (t : Tbl Word) : Tbl Word := names.foldl (fun t i =>
    (List.range 32).foldl (fun t l => Tbl.set 0 t (32 * n (0x548 + 8 * i) 8 + l) (v i (n (0x548 + 8 * i) 8) l)) t) t
  let regs := put (fun i _ l => BitVec.ofNat 32 (n (0xA00 + 128 * i + 4 * l) 4)) w.regs
  let preds := (List.range 127).foldl (fun t i =>
    let m : BitVec 32 := BitVec.ofNat 32 (n (0x2C0 + 4 * (i + 1)) 4)
    (List.range 32).foldl (fun t l => Tbl.set false t (32 * (i + 1) + l) (m.getLsbD l)) t) w.preds
  let sb := (List.range 6).foldl (fun t k => Tbl.set 0 t (k + 1) (n (0x540 + k) 1)) w.flight.sb
  { w with
    role := n 8 1 % 4
    dqPos := n 0x10 8
    handler := w.returnState bs sl
    slices := handlerSlices bs sl
    headers := noteHeaders sl w.headers
    prev := put (fun _ name l => Tbl.get 0 w.regs (32 * name + l)) w.prev
    alive := aliveOf sl
    regs := regs
    preds := preds
    bad := Tbl.drop w.bad fun k => names.any fun i => n (0x548 + 8 * i) 8 == k / 32
    ocBad := []
    oc := []
    srseed := (List.range 32).map fun l => BitVec.ofNat 32 (n (0x4C0 + 4 * l) 4)
    flight := { w.flight with sb := sb, waitLog := none } }

/-! The frame image (23 R395) -/

/-- The headers of lanes 0 to 31: lane 4k + j holds entries 4j to 4j + 3 of slice k. -/
def State.headers (s : State) (w : Warp) : List Byte :=
  (List.range 32).flatMap fun l => (List.range 4).flatMap fun i => (s.headerEntry w (l / 4) (4 * (l % 4) + i)).bytes

def State.image (s : State) (w : Warp) : List Byte :=
  ((List.range (32 * w.frame)).flatMap fun k => bytesOf 4 (Tbl.get 0 w.regs k).toNat) ++ s.headers w

/-- Entry i of slice k in the headers of an image of f words. -/
def imageEntry (f : Nat) (bs : List Byte) (k i : Nat) : Split :=
  Split.ofBytes ((bs.drop (128 * f + 64 * (4 * k + i / 4) + 16 * (i % 4))).take 16)

/-- A spilled entry of an image with a call depth above 64. -/
def imageBad (w : Warp) (bs : List Byte) : Bool :=
  (List.range w.slices.length).any fun k => match w.stacks[k]? with
    | some x => (List.range x.spilled.length).any fun i => decide ((imageEntry w.frame bs k i).depth > 64)
    | none => false

/-- The target takes the image: x0's word stays as it is. -/
def Warp.loadImage (w : Warp) (bs : List Byte) : Warp :=
  let stack (k : Nat) : List Split := match w.stacks[k]? with
    | some x => stackOf x.stack.length (x.stack.take 4) (imageEntry w.frame bs k)
    | none => []
  { w with
    regs := (span 32 (32 * w.frame - 32)).foldl (fun t k => Tbl.set 0 t k (BitVec.ofNat 32 (natOf ((bs.drop (4 * k)).take 4)))) w.regs
    prev := w.regs
    bad := []
    ocBad := []
    oc := []
    headers := (List.range w.slices.length).map fun k => (k, 16)
    hdrBad := []
    slices := (List.range w.slices.length).zipWith (fun k x => { x with stack := (stack k).take x.stack.length }) w.slices
    handler := w.handler.map fun h => { h with slices := (List.range h.slices.length).zipWith (fun k x =>
      if h.gang.getLsbD k then { x with stack := (stack k).drop ((stack k).length - x.stack.length) } else { x with stack := stack k }) h.slices } }

/-! A save slot (12 Tables 5 and 6) -/

/-- The header of a save slot (12 Table 6). -/
def saveHeader (time : DWord) (b : Block) : List Byte :=
  bytesOf 8 time.toNat ++ bytesOf 8 b.dealt.cardId.toNat ++ bytesOf 8 b.dealt.region ++ bytesOf 8 b.dealt.lo ++ bytesOf 8 b.dealt.hi ++
  bytesOf 8 b.dealt.num ++ bytesOf 8 b.warpCount ++ bytesOf 8 b.scratch.size ++
  ((List.range 736).map fun i => BitVec.ofNat 8 (((List.range 8).map fun j =>
    if b.scratch.swz.contains (8 * i + j) then 2 ^ j else 0).sum)) ++ List.replicate 3296 0

def SlotState.code : SlotState → Nat
  | .free => 0
  | .filling => 1
  | .filled => 2
  | .draining => 3

/-- A ring in 128 bytes: its cursors, and 2 bits a slot. -/
def Ring.bytes (r : Ring) : List Byte :=
  pad 128 ([r.off, r.size, r.slots.length, r.fillCur, r.drainCur].flatMap (bytesOf 8) ++
    bytesOf 64 ((List.range r.slots.length).map fun k => 4 ^ k * (((r.slots[k]?).map SlotState.code).getD 0)).sum)

/-- The front end's 64 KiB: its registers and position, the decision queue with its read pointers, the named barriers and the rings. -/
def Block.frontBytes (b : Block) (ws : List Warp) : List Byte :=
  let f : Front := b.front.getD (Front.start 0)
  pad 1024 ((List.range 64).flatMap (fun n => bytesOf 8 (Tbl.get 0 f.s n).toNat) ++
    bytesOf 8 (maskOf 16 fun k => Tbl.get false f.q k).toNat ++ bytesOf 8 f.pc.toNat ++ bytesOf 8 f.depth ++
    pad 8 ((List.range 6).flatMap fun k => bytesOf 1 (Tbl.get 0 f.flight.sb (k + 1))) ++
    bytesOf 8 b.dqBase ++ bytesOf 8 b.dq.length ++ pad 128 (b.dq.flatMap fun v => bytesOf 8 v.toNat)) ++
  pad 256 (ws.flatMap fun w => bytesOf 8 w.dqPos) ++
  pad 512 ((List.range 16).flatMap fun id => pad 32 (match Tbl.get none b.bars id with
    | some x => [1, x.count, x.expect, x.phase].flatMap (bytesOf 8)
    | none => [])) ++ pad 2304 [] ++
  pad 61440 ((List.range 256).flatMap fun id => pad 128 (match Tbl.get none b.rings id with | some r => r.bytes | none => []))

/-- The matrix stream's 4 KiB (07 R137). -/
def Matrix.bytes (m : Matrix) (gen : Word) : List Byte :=
  let last : List Nat := match m.last with | some l => [l.1.code.toNat + 16, l.2.1, l.2.2] | none => [0, 0, 0]
  pad 1024 (bytesOf 8 (if m.running then 1 else 0) ++ bytesOf 8 m.pc.toNat ++ bytesOf 8 m.row ++
    (List.range 16).flatMap (fun k => bytesOf 4 (Tbl.get 0 m.m k).toNat) ++ bytesOf 8 gen.toNat ++ last.flatMap (bytesOf 8)) ++
  pad 3072 ((List.range 256).flatMap fun id => match Tbl.get none m.pos id with
    | some p => bytesOf 4 ((p.slot.map (· + 1)).getD 0) ++ bytesOf 8 p.row
    | none => List.replicate 12 0)

/-- The accumulator memory and its poison bitmap: 528 KiB. -/
def Matrix.accBytes (m : Matrix) : List Byte :=
  (List.range 131072).flatMap (fun k => bytesOf 4 (Tbl.get 0 m.acc k).toNat) ++
  (List.range 16384).map fun i => (BitVec.ofNat 8 (((List.range 8).map fun j => if Tbl.get false m.accBad (8 * i + j) then 2 ^ j else 0).sum) : Byte)

/-- The parts of a save slot but for the completion word, each with its offset (12 Table 5): `recs` are the warp state records, made before
the dirty entries went to the frames. -/
def State.slotParts (s : State) (time : DWord) (b : Block) (ws : List Warp) (recs : List (List Byte)) : List (Nat × List Byte) :=
  [(0, saveHeader time b), (0x1000, b.frontBytes ws), (0x11000, (recs.map (pad 16384)).flatten)] ++
  (match b.matrix with
   | some m => [(0x91000, m.bytes b.msrseed), (0x92000, m.accBytes)]
   | none => []) ++
  [(0x116000, Tbl.getList 0 b.scratch.bytes 0 b.scratch.size ++ ws.flatMap s.image)]

end Sys2Proof.Machine
end

