-- ==== Sys2Proof/Machine/Launch.lean ====
section
/-! DEFINITION. Cards, queues and placement (10 R185 to R200, R401; 02 R18 to R24), pre-emption and resumption of blocks (12 R231 to R234,
R403), the end of a block, and the trace (13 R257). -/

namespace Sys2Proof.Machine

/-! Reading the region table (02 R18, R23) -/

/-- The device reads the RCB of a region, and its statistics-threshold table. -/
def State.readRegion (s : State) (r : Nat) : State :=
  let rcb := BitVec.ofNat 512 (natOf (s.homeBytes (s.regs.regtab.toNat + 64 * r) 64))
  s.setRegion r { s.region r with rcb := some rcb }
def State.readTable (s : State) (r : Nat) : State :=
  s.setRegion r { s.region r with thresh := if s.effStattab r = 0 then none else some (s.readThresh (s.effStattab r)) }

/-- A region read in the course of a rotation has the allowance of that rotation, or takes nothing in it (11 R206). -/
def State.enterRotation (s : State) (d r : Nat) : State :=
  let m := (s.die d).mint
  if s.hasShare r then
    let a : Int := (s.appliedShare r * m.reff0 * 113 / 1000 : Nat)
    s.setRegion r (if d = 0 then { s.region r with rem0 := (s.region r).rem0 + a } else { s.region r with rem1 := (s.region r).rem1 + a })
  else s.setDie d { s.die d with mint := { m with noShare := r :: m.noShare } }

/-- The device reads the RCBs that it has not read yet, up to the root, when it deals a card. -/
def State.useRegion (s : State) (r : Nat) : State :=
  let new := (s.chain r).filter fun a => (s.region a).rcb.isNone
  let s := new.foldl (fun s a => (s.readRegion a).readTable a) s
  new.foldl (fun s a => (s.enterRotation 0 a).enterRotation 1 a) s

/-- RCBSYNC: the region and every descendant are read again (02 R23). -/
def State.syncRegion (s : State) (r : Nat) : State :=
  let below (s : State) : List Nat := (s.regions.map (·.1)).filter fun a => (s.region a).rcb.isSome && s.isAncestor r a
  let old := below s
  let s := (r :: old).foldl State.readRegion s
  let s := ((below s).filter fun a => !old.contains a).foldl State.readRegion s
  (r :: below s).foldl State.readTable s

/-! Cards (10 Table 1) -/

def cardLane (c : BitVec 1024) : Nat := fld 0 64 c
def cardArgbase (c : BitVec 1024) : Nat := fld 192 64 c
def cardRecsize (c : BitVec 1024) : Nat := fld 256 32 c
def cardReccount (c : BitVec 1024) : Nat := fld 288 32 c
def cardScratch (c : BitVec 1024) : Nat := fld 320 32 c
def cardFrame (c : BitVec 1024) : Nat := fld 352 16 c
def cardWarps (c : BitVec 1024) : Nat := fld 368 8 c
def cardFloor (c : BitVec 1024) : Nat := fld 384 32 c
def cardDiv (c : BitVec 1024) : Nat := fld 416 16 c
def cardIdem (c : BitVec 1024) : Bool := flag 451 c
def cardPlace (c : BitVec 1024) : Nat := fld 453 2 c
def cardWaitval (c : BitVec 1024) : BitVec 32 := c.extractLsb' 480 32
def cardPlacetab (c : BitVec 1024) : DWord := c.extractLsb' 512 64
def cardDonectr (c : BitVec 1024) : DWord := c.extractLsb' 640 64
def cardRoletab (c : BitVec 1024) : DWord := c.extractLsb' 704 64

/-- A card's effective class and priority (10 R186). -/
def State.cardClass (s : State) (c : BitVec 1024) : Nat := if flag 446 c then fld 444 2 c else s.effClass (cardRegion c)
def State.cardPrio (s : State) (c : BitVec 1024) : Nat :=
  if flag 450 c then min (fld 447 3 c) (s.effPrio (cardRegion c)) else s.effPrio (cardRegion c)

/-- A field outside its range, a reserved field, or streams that 02 R24 does not allow, but for the role table. -/
def cardBad (c : BitVec 1024) (region : Nat) : Bool :=
  fld 380 4 c != 0 || fld 455 25 c != 0 || fld 864 32 c != 0 || fld 960 64 c != 0 ||
  cardScratch c % 1024 != 0 || cardFrame c < 16 || cardFrame c > 256 || cardFrame c % 16 != 0 || cardWarps c < 1 || cardWarps c > 32 ||
  cardDepth c > 8 || cardFloor c < 1 || cardDiv c < 1 || fld 444 2 c == 3 || cardPlace c == 3 || fld 768 6 c != 0 ||
  fld 832 32 c > 65536 || fld 896 7 c != 0 || cardRegion c != region ||
  (cardMatrix c != 0 && !cardHasFront c) || (cardLane c == 0 && cardRoletab c == 0)

/-- The nonzero entries of a card's warps lie in one 4 GiB window (02 R24). -/
def windowBad (c : BitVec 1024) (t : Option (BitVec 512)) : Bool :=
  let roles := match t with
    | some t => (List.range (cardWarps c)).map fun w => (roleEntry t (roleOf t w)).toNat
    | none => []
  let highs := ((cardLane c :: roles).filter (· != 0)).map fun e => e / 2 ^ 32
  match highs with
  | [] => false
  | h :: rest => rest.any (· != h)

/-- The role table of a card, as the device reads it. -/
def State.readRoles (s : State) (c : BitVec 1024) : Except (Cause × DWord) (Option (BitVec 512)) :=
  if cardRoletab c = 0 then .ok none
  else (s.deviceRead (s.effAsid (cardRegion c)) 64 64 (cardRoletab c)).map fun bs => some (BitVec.ofNat 512 (natOf bs))

/-- The die byte of a placement table for chunk g: none for any (10 R195). -/
def State.placeByte (s : State) (c : BitVec 1024) (g : Nat) : Except (Cause × DWord) (Option Nat) :=
  match s.deviceRead (s.effAsid (cardRegion c)) 4 4 (cardPlacetab c) with
  | .error e => .error e
  | .ok l =>
    if g / 64 ≥ natOf l then .ok none
    else (s.deviceRead (s.effAsid (cardRegion c)) 1 1 (cardPlacetab c + 4 + BitVec.ofNat 64 (g / 64))).map fun b =>
      if natOf b % 4 < 2 then some (natOf b % 4) else none

/-- The size of the next chunk (10 R194). DESIGN CHOICE (entry 31). -/
def State.chunkSize (s : State) (c : BitVec 1024) (remaining : Nat) : Nat :=
  let d := cardDiv c * (min (s.effCores 0 (cardRegion c)) 112 + min (s.effCores 1 (cardRegion c)) 112)
  min remaining (max (cardFloor c) ((remaining + d - 1) / d))

/-- The chunks of a card grabbed together: at most `fuel` of them (10 R197). -/
def State.chunks (s : State) (c : BitVec 1024) : Nat → Nat → List Nat
  | 0, _ => []
  | f + 1, remaining => if remaining = 0 then [] else
      let n := s.chunkSize c remaining
      n :: (if n = 0 then [] else s.chunks c f (remaining - n))

/-- The first chunk group whose placement byte cannot be read. -/
def State.placeFault (s : State) (c : BitVec 1024) : Option (Cause × DWord) :=
  if cardPlace c != 1 then none
  else (List.range (cardReccount c / (64 * cardFloor c) + 1)).findSome? fun k =>
    match s.placeByte c (64 * k) with | .error e => some e | .ok _ => none

/-- WHETHER A CARD IS REFUSED (10 R185, 02 R22, R24): its cause and ADDR; its region is judged first. A table on a page that a CLAIM moves
makes it wait (08 R156): MIGRATING. -/
def State.judge (s : State) (c : BitVec 1024) (cardId : DWord) (region : Nat) : Option (Cause × DWord) :=
  match s.regionInvalid (cardRegion c) with
  | some a => some (.illegal, BitVec.ofNat 64 a)
  | none =>
    if cardBad c region then some (.illegal, cardId)
    else match s.readRoles c, s.placeFault c with
      | .error e, _ => some e
      | .ok _, some e => some e
      | .ok t, none =>
        let cores := min (s.effCores 0 region) 112 + min (s.effCores 1 region) 112
        if windowBad c t then some (.illegal, cardId)
        else if cardCores c && decide ((s.chunks c 3585 (cardReccount c)).length > 16 * cores) then some (.illegal, cardId)
        else none

/-! Queues as the dispatcher sees them -/

/-- The head card leaves its queue, and its slot is free: the next card of the queue may make its region busy. -/
def State.leaveQueue (s : State) (q : Nat) : State :=
  let x := s.queue q
  let s := (s.setQueue q { x with cards := x.cards.drop 1 }).writeFree q
  ((x.cards.take 2).map fun c => cardRegion c.card).foldl (fun s r => s.noteBusy false r) s

/-- The run of the card at the head of a queue, once its first chunk is grabbed. -/
def State.headRun (s : State) (q : Nat) : Option (Nat × CardRun) :=
  s.cards.findSome? fun (k, r) => match r with | some r => if r.queue = q && r.remaining != 0 then some (k, r) else none | none => none

/-- The wait counter of the oldest card of a queue is read (10 R191, R401): a card of an invalid region is judged at once. -/
def State.readWait (s : State) (q : Nat) : State :=
  let x := s.queue q
  match x.cards with
  | [] => s
  | c :: rest =>
    if cardWaitctr c.card = 0 || !x.valid then s
    else if (s.regionInvalid (cardRegion c.card)).isSome then s.setQueue q { x with cards := { c with ready := true } :: rest }
    else
      let r := cardRegion c.card
      match s.deviceRead (s.effAsid r) 4 4 (cardWaitctr c.card) with
      | .ok bs =>
        let d : BitVec 32 := BitVec.ofNat 32 (natOf bs) - cardWaitval c.card
        s.setQueue q { x with cards := { c with reported := false, ready := c.ready || !d.msb } :: rest }
      | .error (.migrating, _) => s
      | .error (cause, _) =>
        let s := if c.reported then s else s.postDevice 4 cause (cardWaitctr c.card) 0 c.cardId 0 0 r
        s.setQueue q { x with cards := { c with reported := true } :: rest }

/-! The trace (13 R257) -/

/-- In replay mode an event of a region waits for its turn: none while another is recorded first. -/
def State.replays (s : State) (r kind : Nat) (d0 d1 : DWord) : Option State :=
  let x := s.region r
  if !flag 1 x.trCtl || 32 * (x.trPos + 1) > x.trSize.toNat then some s
  else
    let e := s.homeBytes (x.trBase.toNat + 32 * x.trPos) 32
    let k := natOf (e.take 1)
    if k = 0 || k > 4 then some s
    else if k = kind && natOf ((e.drop 16).take 8) = d0.toNat && natOf (e.drop 24) = d1.toNat then
      some (s.setRegion r { x with trPos := x.trPos + 1 })
    else none

/-- An event waits for its turn in replay mode, and is recorded in record mode. -/
def State.traced (s : State) (r kind : Nat) (d0 d1 : DWord) : Option State := (s.replays r kind d0 d1).map fun s => s.trace r kind d0 d1

/-! Where a block fits (10 R195, R196; 11 R221, R222) -/

/-- What a block needs of a core. -/
structure Need where
  region : Nat
  cls : Nat
  pool : List (Nat × Nat)
  warps : Nat
  cuts : Nat
  engine : Bool
  logs : Nat

def freeSlots {α : Type} (t : Tbl (Option α)) (n : Nat) : List Nat := (List.range n).filter fun k => (Tbl.get none t k).isNone

/-- The cores of a die that a region and its descendants, as their blocks were dealt, occupy (02 R21, R23). -/
def State.occupied (s : State) (d a : Nat) : List Nat :=
  s.cores.filterMap fun (c, k) =>
    if dieOf c = d && k.blocks.any (fun (_, b) => match b with | some b => b.dealt.pool.any (·.1 == a) | none => false) then some c else none

/-- A core that holds a block's needs (10 R196). -/
def State.fits (s : State) (n : Need) (core : Nat) : Bool :=
  let k := s.core core
  let x := s.cluster (clusterOf core)
  let d := dieOf core
  !(s.die d).dead && x.cls == n.cls && x.target.isNone && decide (n.warps ≤ (freeSlots k.warps 64).length) &&
  !(freeSlots k.blocks 16).isEmpty && s.poolFits core n.pool n.cuts && k.pool.grows.all (fun g => g.state != .waiting) &&
  !(n.engine && k.blocks.any fun (_, b) => match b with | some b => b.matrix.isSome | none => false) &&
  decide (n.logs ≤ (freeSlots k.log 16).length) &&
  (s.chain n.region).all fun a =>
    let l := s.occupied d a
    decide ((if l.contains core then l.length else l.length + 1) ≤ min (s.effCores d a) 112)

/-- The headroom score of a core (11 R222). -/
def State.score (s : State) (core : Nat) : Nat :=
  let die := s.die (dieOf core)
  let tc := (die.temps[core % 112 / 8]?).getD 0
  min 64 (4 * (tc + 16 - fld 0 8 die.thermCfg)) + min 64 (8 * (s.cluster (clusterOf core)).recent) +
    (if (s.core core).tokens.heldLast then 32 else 0)

/-- The walk of the dispatcher (10 R196): `k` fitting cores were skipped, the first of them is `first`. -/
def pickCore (fit hot : Nat → Bool) (skipd : Nat) : List Nat → Nat → Option Nat → Option Nat
  | [], _, first => first
  | c :: cs, k, first =>
    if !fit c then pickCore fit hot skipd cs k first
    else if hot c && decide (k < skipd) then pickCore fit hot skipd cs (k + 1) (first <|> some c)
    else some c

def State.coreOf (s : State) (n : Need) (d : Nat) : Option Nat :=
  let die := s.die d
  pickCore (s.fits n) (fun c => decide (s.score c > fld 0 8 die.headThr)) (s.effSkipd n.region)
    ((List.range 112).map fun k => 112 * d + (die.cursor + k) % 112) 0 none

/-- The headroom of a die (11 R221). -/
def State.headroom (s : State) (d : Nat) : Nat := if (s.die d).level.getLsbD 1 then 0 else (s.die d).mint.tokRet

/-- The dies that a chunk may go to, in order of choice (10 R195). -/
inductive Where
  | any
  | strict (d : Nat)
  | first (d : Nat)
  /-- not known while a CLAIM moves the page that says it -/
  | wait
  deriving DecidableEq, Repr

def State.whereOf (s : State) (c : BitVec 1024) (g lo : Nat) : Where :=
  match cardPlace c with
  | 1 => match s.placeByte c g with
    | .ok (some d) => .strict d
    | .ok none => .any
    | .error _ => .wait
  | 2 =>
    let va : DWord := BitVec.ofNat 64 (cardArgbase c + cardRecsize c * lo)
    match s.access 0 (s.effAsid (cardRegion c)) none .load true false va with
    | .ok l => if fld 8 2 l.e = 2 then .any else .first l.home
    | .error f => if f.cause = .migrating then .wait else .any
  | _ => .any

def State.placeFor (s : State) (n : Need) : Where → Option Nat
  | .wait => none
  | .strict d => s.coreOf n d
  | .first d => s.coreOf n d <|> s.coreOf n (1 - d)
  | .any =>
    match s.coreOf n 0, s.coreOf n 1 with
    | some a, some b => if s.headroom 1 > s.headroom 0 then some b else some a
    | a, b => a <|> b

/-! Installing a block -/

/-- The cuts of a block: the frames of its warps and its scratch. -/
def blockCuts (b : Block) (ws : List Warp) : Nat := (ws.map fun w => frameCuts w.frame).sum + b.scratch.size / 1024

/-- Slots of ring holders on the new core. -/
def remapHolder (m : List (Nat × Nat)) : Holder → Holder
  | .warp n => .warp (((m.find? fun p => p.1 == n).map (·.2)).getD n)
  | h => h

/-- An index of the operand log on the new core. -/
def remapInfo (m : List (Nat × Nat)) (t : TrapInfo) : TrapInfo :=
  { t with log := t.log.bind fun i => (m.find? fun p => p.1 == i).map (·.2) }
def remapWarp (m : List (Nat × Nat)) (w : Warp) : Warp :=
  { w with
    park := w.park.map (remapInfo m)
    handler := w.handler.map fun h => { h with info := remapInfo m h.info }
    flight := { w.flight with waitLog := w.flight.waitLog.bind fun i => (m.find? fun p => p.1 == i).map (·.2) } }

/-- The replay of the last MLDB from its recorded base (07 R137). -/
def scrTile (x : Scratch) (fb : Fmt) (base stride : Nat) : Option Tile :=
  (tileCols fb).map fun cols =>
    let g := 16 * colBytes fb
    ⟨fb, (List.range (cols / 16)).foldl (fun t k => Tbl.setList 0 t (k * g) (Tbl.getList 0 x.bytes (base + k * stride) g)) [], []⟩

/-- A party of a saved block on its new core: warp k of the block, or the front end. -/
def newParty (core slot : Nat) (slots : List Nat) (k : Nat) : Who :=
  match slots[k]? with | some n => ⟨core, .warp n⟩ | none => ⟨core, .front slot⟩

/-- The occupancy that the role scheduler watches starts its window (02 R30). -/
def Block.startWindow (b : Block) (now : Nat) : Block :=
  { b with roles := b.roles.map fun x => match b.ring (fld 320 8 x.table) with
      | some r => { x with lowSince := none, highSince := none }.note r.filled now
      | none => x }

/-- THE PLACEMENT of a block with its warps on a core that fits (10 R196, 12 R232): free slots, its cuts, its account, its log
entries, its granted grows and its withdrawn commands. The cursor moves past the core. The dealing acquired what the card's block may read:
the core's L1 holds nothing older (10 R190, R191). -/
def State.install (s : State) (core : Nat) (x : Saved) : State :=
  let k := s.core core
  let slot := ((chooseFrom (s.places 2) 1 (freeSlots k.blocks 16)).head?).getD 0
  let slots := chooseFrom (s.places 3) x.warps.length (freeSlots k.warps 64)
  let move := List.zip x.block.warps slots
  let logs := List.zip x.logs (chooseFrom (s.places 4) x.logs.length (freeSlots k.log 16))
  let logMove := logs.map fun p => (p.1.1, p.2)
  let b := x.block
  let region := b.dealt.region
  let b : Block := { b with
    warps := slots
    front := b.front.map fun f => { f with
      park := f.park.map (remapInfo logMove)
      flight := { f.flight with waitLog := f.flight.waitLog.bind fun i => (logMove.find? fun p => p.1 == i).map (·.2) } }
    dealt := { b.dealt with age := s.seq }
    matrix := b.matrix.map fun m => { m with tile := m.last.bind fun l => scrTile b.scratch l.1 l.2.1 l.2.2 }
    rings := b.rings.map fun e => (e.1, e.2.map fun r => { r with
      taken := r.taken.map fun t => { t with holder := remapHolder move t.holder } }) }
  let b := b.startWindow s.tref.toNat
  let s := { s with seq := s.seq + 1 }.dropL1 core
  let s := s.poolTake core b.dealt.pool (blockCuts b x.warps)
  let s := s.setBlock core slot (some b)
  let s := (List.zip slots x.warps).foldl (fun s p => s.setWarp ⟨core, .warp p.1⟩ (some { remapWarp logMove p.2 with blk := slot })) s
  let s := logs.foldl (fun s p =>
    let who := newParty core slot slots p.1.2.1
    s.setLog core p.2 (some { p.1.2.2 with op := { p.1.2.2.op with who := who }, cmd := p.1.2.2.cmd.map fun x => { x with who := who, blk := slot } })) s
  let s := s.updCore core fun k =>
    let back := x.withdrawn.map fun y => { y with blk := slot, who := ⟨core, match y.who.party with
      | .warp n => (match remapHolder move (.warp n) with | .warp m => .warp m | _ => .warp n)
      | _ => .front slot⟩ }
    { k.openAccount region with
      cmds := k.cmds ++ back
      pool := { k.pool with grows := k.pool.grows ++ (x.grants.map fun (g : Nat × Grow) => { g.2 with who := newParty core slot slots g.1 }) } }
  let s := ((s.core core).cmds.filter fun y => y.blk == slot).foldl (fun s y => s.takeRingSlot core y) s
  let d := dieOf core
  let s := s.setDie d { s.die d with cursor := (core % 112 + 1) % 112 }
  let y := s.region region
  (s.setRegion region { y with dealt := some s.seq }).noteBusy true region

/-- A block at its start (02 R24, 10 R194, 07 R121): fresh frames and zeroed scratch. -/
def freshBlock (d : Dealt) (roles : Option (BitVec 512)) : Block where
  dealt := d
  warps := List.range (cardWarps d.card)
  scratch := ⟨[], cardScratch d.card, [], [], []⟩
  bars := []
  rings := []
  dq := []
  dqBase := 0
  roles := roles.map fun t => ⟨t, none, none⟩
  roleBad := false
  front := if cardHasFront d.card then some (Front.start (d.card.extractLsb' 64 64)) else none
  matrix := if cardMatrix d.card = 0 then none else some (Matrix.start (cardMatrix d.card))
  msrseed := 1

/-- A warp at its start: at its role's entry, or at the lane entry (02 R24). -/
def freshWarp (d : Dealt) (roles : Option (BitVec 512)) (n : Nat) : Warp :=
  match roles with
  | none => Warp.start 0 n (cardFrame d.card) (BitVec.ofNat 64 (cardLane d.card))
  | some t => { Warp.start 0 n (cardFrame d.card) (roleEntry t (roleOf t n)) with role := roleOf t n }

def freshSaved (d : Dealt) (roles : Option (BitVec 512)) : Saved :=
  ⟨none, 0, 0, freshBlock d roles, (List.range (cardWarps d.card)).map (freshWarp d roles), [], [], []⟩

def Saved.need (x : Saved) : Need where
  region := x.block.dealt.region
  cls := x.block.dealt.cls
  pool := x.block.dealt.pool
  warps := x.warps.length
  cuts := blockCuts x.block x.warps
  engine := x.block.matrix.isSome
  logs := x.logs.length

/-! Saving and discarding a block (12 R231 to R234, R403) -/

def Party.sameWarp : Holder → Party → Bool
  | .warp a, .warp b => a == b
  | _, _ => false

/-- A word of a party, issued, leaves the party where it stands. -/
def stays (w : Who) (s : State) : Out → Bool
  | .next t => t.runnable w && t.pcOf w == s.pcOf w && t.atHandler w == s.atHandler w
  | _ => false

/-- A warp is parked in a blocking wait (02 R37): at a barrier that it has arrived at, at a ring's cursor, at an empty decision queue, or at
a BCBWAIT or MIGR that would wait. -/
def State.blocked (s : State) (w : Who) (x : Warp) (b : Block) : Bool :=
  let here := (x.slices.zipIdx.filter fun e => x.gang.getLsbD e.2).map (·.1)
  here.any (·.arr.isSome) || (x.popping &&& x.gang) != 0 ||
  (b.rings.any fun e => match e.2 with
    | some r => (r.waitFree ++ r.waitFill).any fun y => Party.sameWarp y.holder w.party && y.gang == x.gang
    | none => false) ||
  match x.clause with
  | none => false
  | some cl =>
    let t := { s with cur := w }
    match decode (s.lineWord w cl.phys ((s.pcOf w).toNat % 128 / 8)) with
    | .ok (.bcbwait a b) => stays w s (execBcbwait a b t)
    | .ok (.migr a) => stays w s (execMigr a t)
    | .ok .migrHome => stays w s (execMigrHome t)
    | _ => false

/-- A warp may be switched out (12 R231): at a clause boundary, parked, in a blocking wait, or in a grow that is withdrawn. -/
def State.switchable (s : State) (w : Who) (x : Warp) (b : Block) : Bool :=
  x.clause.isNone || x.park.isSome || ((s.core w.core).pool.grows.any fun g => g.who == w && g.state == .waiting) || s.blocked w x b

/-- Nothing of a party is under way: no result in flight, no store in its queue or on the link. -/
def State.drained (s : State) (w : Who) : Bool := (s.flight w).results.isEmpty && s.storesHome w

/-- The warps of a block that are away are brought back as by MIGR.home, each at a clause boundary (22 R352). -/
def State.recall (s : State) (core slot : Nat) : State :=
  match s.block core slot with
  | none => s
  | some b => b.warps.foldl (fun s n =>
    match s.slotWarp core n with
    | some (⟨c, .landing⟩, x) =>
      let w : Who := ⟨c, .landing⟩
      if (x.clause.isNone || x.park.isSome) && s.drained w && x.flight.sb.isEmpty && (s.logOf w).isEmpty then s.moveHome w b.dealt
      else s
    | _ => s) s

/-- A block may be stopped now (12 R232): its warps are home and may be switched out, its matrix stream is between rows and words, and
its commands have run to completion but for those that wait for a ring slot. -/
def State.quiet (s : State) (core slot : Nat) : Bool :=
  match s.block core slot with
  | none => false
  | some b =>
    (b.warps.all fun n =>
      let w : Who := ⟨core, .warp n⟩
      match s.warp w with
      | some x => x.away.isNone && s.switchable w x b && s.drained w
      | none => false) &&
    s.drained ⟨core, .front slot⟩ &&
    (match b.matrix with | some m => m.steps == 0 && (s.matrixLocks core slot).isEmpty | none => true) &&
    (s.core core).cmds.all fun x => x.blk != slot || (x.ring.isSome && x.slot.isNone && x.flight.isEmpty)

/-- A warp as it is switched out (03 R61): its dirty entries are in the frame, and no entry is valid. -/
def Warp.switchOut (w : Warp) : Warp := w.keepBad { w with oc := [], clause := none, paid := false } []

/-- The cuts of a frame grow that was granted to a word that has not completed: a pre-emption withdraws that grow (03 R57). -/
def State.giveFrameGrants (s : State) (core : Nat) (b : Block) : State :=
  (s.core core).pool.grows.foldl (fun s g =>
    let mine := match g.who.party with | .warp n => b.warps.contains n | _ => false
    if mine && g.state == .granted && g.scr.isNone then s.poolGive core b.dealt.pool g.cuts else s) s

/-- A block leaves its core: what a save keeps (12 R232). Its cuts, slots, log entries and locks are free and its accounts close. -/
def State.unload (s : State) (core slot : Nat) : Option (Saved × State) :=
  match s.block core slot with
  | none => none
  | some b =>
    let ws := b.warps.filterMap fun n => s.warp ⟨core, .warp n⟩
    let parties := (b.warps.map fun n => (⟨core, .warp n⟩ : Who)) ++ [⟨core, .front slot⟩, ⟨core, .matrix slot⟩]
    let logs := (s.core core).log.filterMap fun (ix, e) => e.bind fun e =>
      match e.op.who.party with
      | .warp n => if b.warps.contains n then some (ix, b.warps.idxOf n, e) else none
      | .front k => if k = slot then some (ix, 32, e) else none
      | _ => none
    let cmds := (s.core core).cmds.filter fun x => x.blk == slot
    let grants := (s.core core).pool.grows.filterMap fun g =>
      if g.state != .granted || g.scr.isNone then none
      else match g.who.party with
        | .warp n => if b.warps.contains n then some (b.warps.idxOf n, g) else none
        | .front k => if k = slot then some (32, g) else none
        | _ => none
    let s := s.giveFrameGrants core b
    let kept := { b with
      front := b.front.map fun f => { f with clause := none }
      matrix := b.matrix.map fun m => { m with clause := none, tile := none, stop := false }
      roles := b.roles.map fun x => { x with lowSince := none, highSince := none }
      rings := b.rings.map fun e => (e.1, e.2.map fun r => { r with waitFree := [], waitFill := [] }) }
    let s := parties.foldl State.withdraw s
    let s := s.updCore core fun k => { k with
      warps := k.warps.filter (fun e => !b.warps.contains e.1)
      cmds := k.cmds.filter (fun x => x.blk != slot)
      locks := k.locks.filter (fun l => !(l.blk == slot && (l.owner.isNone || cmds.any fun x => l.owner == some x.seq))) }
    let s := s.poolGive core b.dealt.pool (blockCuts b ws)
    let s := (s.setBlock core slot none).closeAccounts core
    some (⟨none, 0, s.tref, kept, ws.map Warp.switchOut, logs, cmds, grants⟩, s)

/-- The save arena (12 R233, R237). -/
def State.arenaUsable (s : State) : Bool :=
  s.regs.savebase != 0 && s.regs.savebase.toNat % 2 ^ 23 == 0 && decide (s.regs.saven.toNat ≥ 3584)
def State.arenaUsed (s : State) : List Nat := s.saved.filterMap fun x => if x.base = s.regs.savebase.toNat then x.slot else none
/-- The lowest-numbered free slot. -/
def State.freeArena (s : State) : Option Nat := (List.range s.regs.saven.toNat).find? fun k => !s.arenaUsed.contains k
/-- A saving pre-emption leaves 3,584 slots free. -/
def State.arenaRoom (s : State) : Bool := s.arenaUsable && decide (s.regs.saven.toNat - s.arenaUsed.length > 3584)

/-- SAVETIME is nonzero. -/
def State.saveTime (s : State) : DWord := if s.tref = 0 then 1 else s.tref

def State.slotBase (s : State) (k : Nat) : Nat := s.regs.savebase.toNat + 2 ^ 23 * k

/-- BLOCK_SAVE (12 R231, R232, R403): the block's state is written to the slot, and the completion word last. None where no slot is free. -/
def State.saveBlock (s : State) (core slot : Nat) : Option State :=
  let recs := (((s.block core slot).map (·.warps)).getD []).map fun n =>
    ((s.warp ⟨core, .warp n⟩).map fun w => s.recordOf ⟨core, .warp n⟩ w).getD []
  match s.freeArena, s.unload core slot with
  | some k, some (x, s) =>
    let t := s.saveTime
    let s := (s.slotParts t x.block x.warps recs).foldl (fun s p => s.gaStore 224 (s.slotBase k + p.1) p.2) s
    let s := s.gaStore 224 (s.slotBase k + 0x7FFFF8) (bytesOf 8 t.toNat)
    some { s with saved := s.saved ++ [{ x with slot := some k, base := s.regs.savebase.toNat, time := t }] }
  | _, _ => none

/-- A saved block as its slot's memory holds it: scratch, frames and accumulator memory are read back (12 R232). DESIGN CHOICE (entry 41): the
rest of the slot the device does not read back from memory. -/
def State.readSlot (s : State) (x : Saved) (base : Nat) : Saved :=
  let word (a k : Nat) : Word := BitVec.ofNat 32 (natOf (s.homeBytes (a + 4 * k) 4))
  let size := x.block.scratch.size
  let frames := (List.range x.warps.length).map fun i =>
    base + 0x116000 + size + ((x.warps.take i).map fun w => 128 * w.frame + 2048).sum
  { x with
    warps := List.zipWith (fun w a => { w with
      regs := (span 32 (32 * w.frame - 32)).foldl (fun t k => Tbl.set 0 t k (word a k)) w.regs }) x.warps frames
    block := { x.block with
      scratch := { x.block.scratch with bytes := Tbl.setList 0 x.block.scratch.bytes 0 (s.homeBytes (base + 0x116000) size) }
      matrix := x.block.matrix.map fun m => { m with
        acc := (List.range 131072).foldl (fun t k => Tbl.set 0 t k (word (base + 0x92000) k)) m.acc } } }

/-- A chunk that starts again (12 R234, R240). -/
def State.restart (s : State) (d : Dealt) (roles : Option (BitVec 512)) : State :=
  { s with seq := s.seq + 1, saved := s.saved ++ [freshSaved { d with life := s.seq } roles] }

/-- BLOCK_DISCARD (12 R234). -/
def State.discardBlock (s : State) (core slot : Nat) : Option State :=
  (s.unload core slot).map fun p => p.2.restart p.1.block.dealt (p.1.block.roles.map (·.table))

/-- The running blocks of the package. -/
def State.allBlocks (s : State) : List (Nat × Nat × Block) :=
  s.cores.flatMap fun (c, k) => k.blocks.filterMap fun (b, x) => x.map fun x => (c, b, x)

/-- Chunks that have not been dealt stay undealt: the card of a saved block completes only when it has none. -/
def State.closeRuns (s : State) : State :=
  { s with cards := s.cards.map fun e => (e.1, e.2.map fun r => { r with remaining := 0, lostChunk := r.lostChunk || r.remaining != 0 }) }

/-- The emergency save ends (12 R235, R237): the regions left unsaved and the completion word are written, and the core supply goes. -/
def State.finishSave (s : State) (unsaved : List Nat) : State :=
  let s := s.closeRuns
  let side := s.host.side
  { s with
    power := false
    host := { s.host with side := { side with
      saving := false, log := side.log.map fun l => { l with unsaved := unsaved.dedup, complete := some l.time } } } }

/-- A STEP OF THE EMERGENCY SAVE (12 R235): blocks that have stopped as in R232 are saved. It ends with the last, or where the blocks left find
no free slot (R237). -/
def State.saveStep (s : State) : State :=
  let s := s.allBlocks.foldl (fun s e =>
    let s := s.recall e.1 e.2.1
    if s.quiet e.1 e.2.1 then (s.saveBlock e.1 e.2.1).getD s else s) s
  let left := s.allBlocks.map fun e => e.2.2.dealt.region
  if left.isEmpty || s.freeArena.isNone then s.finishSave left else s

/-- Pre-empt one block, saved or discarded (10 R198, 12 R233, R234). -/
def State.preemptOne (s : State) (core slot : Nat) : Option State :=
  match s.block core slot with
  | none => none
  | some b =>
    let s := s.recall core slot
    if !s.quiet core slot || b.dealt.preempt = 0 then none
    else if cardIdem b.dealt.card && b.dealt.preempt == 2 then s.discardBlock core slot
    else if s.arenaRoom then s.saveBlock core slot else none

/-- The blocks of a core that a priority may pre-empt, the lowest priority and the youngest first (10 R198). -/
def State.victims (s : State) (core prio : Nat) : List Nat :=
  let l := (s.core core).blocks.filterMap fun (k, b) => b.bind fun b =>
    if b.dealt.prio < prio && b.dealt.preempt != 0 then some (k, b.dealt.prio, b.dealt.age) else none
  let ins (x : Nat × Nat × Nat) (l : List (Nat × Nat × Nat)) : List (Nat × Nat × Nat) :=
    let p := l.takeWhile fun y => y.2.1 < x.2.1 || (y.2.1 == x.2.1 && decide (y.2.2 > x.2.2))
    p ++ x :: l.drop p.length
  (l.foldr ins []).map (·.1)

/-- Pre-empt blocks of one core until the need fits, and no more. -/
def State.makeRoom (s : State) (n : Need) (core : Nat) : List Nat → Option State
  | [] => none
  | v :: vs =>
    match s.preemptOne core v with
    | none => none
    | some s => if s.fits n core then some s else s.makeRoom n core vs

/-! The dispatcher (10 R193) -/

inductive CandKind
  | fresh (q : Nat) (c : QCard)
  | saved (i : Nat) (x : Saved)
  deriving DecidableEq, Repr

/-- A card that competes, with what ranks it: the smaller comes first. -/
structure Cand where
  key : List Int
  kind : CandKind
  deriving DecidableEq, Repr

def lexLt : List Int → List Int → Bool
  | a :: as, b :: bs => decide (a < b) || (a == b && lexLt as bs)
  | _, _ => false

def insertCand (x : Cand) : List Cand → List Cand
  | [] => [x]
  | y :: ys => if lexLt y.key x.key then y :: insertCand x ys else x :: y :: ys

/-- What ranks a card or a block that waits (10 R193). DEDUCED (entry 29). -/
def State.keyOf (s : State) (region q seq rank : Nat) : List Int :=
  [-(s.effPrio region : Int), match (s.region region).dealt with | some t => (t : Int) | none => -1, (region : Int),
   -((s.queue q).prio : Int), (seq : Int), (rank : Int)]

/-- The cards that compete: those that may be dealt, and those with a block to place again, whose records wait behind it. A domain under
reset deals nothing. -/
def State.candidates (s : State) : List Cand :=
  let fresh := s.queues.filterMap fun (q, x) =>
    match x.cards with
    | c :: _ =>
      let behind := match s.headRun q with | some (k, _) => s.saved.any fun x => x.block.dealt.run == k | none => false
      if x.valid && !c.waiting && !behind then
        some (⟨s.keyOf (cardRegion c.card) q c.seq 1, .fresh q c⟩ : Cand) else none
    | [] => none
  let saved := (List.range s.saved.length).filterMap fun i => (s.saved[i]?).bind fun x =>
    (s.run x.block.dealt.run).map fun r => (⟨s.keyOf x.block.dealt.region r.queue r.seq 0, .saved i x⟩ : Cand)
  ((fresh ++ saved).filter fun c => !(s.resets.any fun z => z.fdom == (match c.kind with
    | .fresh _ c => s.effFdom (cardRegion c.card)
    | .saved _ x => s.effFdom x.block.dealt.region))).foldr insertCand []

/-- The run of a card: the one under way, or a new one, with its role table as it is read at dealing (02 R24). -/
def State.runOf (s : State) (q : Nat) (c : QCard) : Nat × CardRun × State :=
  match s.headRun q with
  | some (k, r) => (k, r, s)
  | none =>
    let roles := match s.readRoles c.card with | .ok t => t | .error _ => none
    let r : CardRun := ⟨q, c.seq, c.card, c.cardId, cardRegion c.card, cardReccount c.card, 0, [], false, [], roles, false⟩
    (s.seq, r, { s with seq := s.seq + 1 })

/-- What a block is dealt under (02 R23, 10 R186, R194). DESIGN CHOICE (entry 18): each chunk takes the region's fields as they stand at its
grab, the later chunks of a card after an RCBSYNC too. -/
def State.deal (s : State) (run : Nat) (r : CardRun) (n : Nat) : Dealt :=
  let a := r.region
  let lo := cardReccount r.card - r.remaining
  { run := run, card := r.card, cardId := r.cardId, region := a, asid := s.effAsid a, fdom := s.effFdom a, cls := s.cardClass r.card
    prio := s.cardPrio r.card, preempt := s.effPreempt a, pool := s.poolBudgets a, vec := s.trapVector r.card a, lo := lo, hi := lo + n, num := r.next, age := 0
    life := s.seq }

/-- A pre-empted block no longer keeps what it was dealt under (02 R23): placed again, it takes the region's fields as they stand. Its trap
vector came with its card. -/
def State.renew (s : State) (d : Dealt) : Dealt :=
  { d with
    asid := s.effAsid d.region, fdom := s.effFdom d.region, cls := s.cardClass d.card, prio := s.cardPrio d.card
    preempt := s.effPreempt d.region, pool := s.poolBudgets d.region }
def State.renewed (s : State) (x : Saved) : Saved := { x with block := { x.block with dealt := s.renew x.block.dealt } }

/-- CHUNK_GRAB and PLACE_BLOCK of one chunk: none where it fits nowhere, or a replay waits for another event. -/
def State.grab (s : State) (run : Nat) (r : CardRun) : Option (State × CardRun) :=
  let n := s.chunkSize r.card r.remaining
  let d := s.deal run r n
  let x := freshSaved d r.roles
  match s.placeFor x.need (s.whereOf r.card r.next d.lo) with
  | none => none
  | some core =>
    let s? := if r.next = 0 then s.traced r.region 1 r.cardId 0 else some s
    match s?.bind fun s => s.traced r.region 3 r.cardId (BitVec.ofNat 64 (r.next + 2 ^ 32 * d.lo)) with
    | none => none
    | some s =>
      let r := { r with remaining := r.remaining - n, next := r.next + 1, live := r.live ++ [d.num] }
      some ((s.setRun run (some r)).install core x, r)

/-- All the chunks of a co-resident card, or none (10 R197). -/
def State.grabAll (s : State) (run : Nat) (r : CardRun) : Nat → Option (State × CardRun)
  | 0 => some (s, r)
  | f + 1 =>
    if r.remaining = 0 then some (s, r)
    else match s.grab run r with
      | none => none
      | some (s, r) => s.grabAll run r f

/-! The done counter (10 R192) -/

/-- The stores of a run's blocks, and what they observed, are released with its done counter (09 R163, 10 R192). -/
def State.releaseRun (s : State) (run a : Nat) : State :=
  let at_ : Place := .bytes false a (a + 4)
  { s with mem := { s.mem with path := mapPath s.mem.path fun _ e =>
      match (e.who :: e.obs).find? (·.run == run) with
      | some w => { e with rel := ⟨w, 224, .sys, at_⟩ :: e.rel }
      | none => e } }

/-- DONE_INCREMENT: an atomic with release at `.sys`, outside handler level; a fault posts a record and the increment is not made. It waits
until every store of the package is ordered at its home, and while a CLAIM moves the counter's page (08 R156). -/
def State.doneIncrement (s : State) (run : Nat) (r : CardRun) : Option State :=
  let va := cardDonectr r.card
  let fail (c : Cause) : Option State := some (s.postDevice 4 c va 0 r.cardId 0 0 r.region)
  if va = 0 then some s
  else if va.toNat % 4 != 0 then fail .align
  else match s.access 0 (s.effAsid r.region) none .rmw true false va with
    | .error f => if f.cause = .migrating then none else fail f.cause
    | .ok l =>
      match s.unitBad l 4 with
      | some _ => fail .poison
      | none => if s.linkQuiet then some ((s.releaseRun run l.phys).gaStore 224 l.phys (bytesOf 4 (natOf (s.homeBytes l.phys 4) + 1))) else none

/-- A card whose blocks have all ended is done: its counter, and the wait counters of other cards are read again (10 R191). -/
def State.settleRun (s : State) (run : Nat) : State :=
  match s.run run with
  | none => s
  | some r =>
    if r.remaining != 0 || !r.live.isEmpty then s
    else if r.lostChunk then s.setRun run none
    else match (s.setRun run none).doneIncrement run r with
      | none => s
      | some s =>
        (s.queues.map (·.1)).foldl (fun s q => match (s.queue q).cards with
          | c :: _ => if c.waiting then s.readWait q else s
          | [] => s) s

/-- The done counters that wait (10 R192). -/
def State.settleRuns (s : State) : State := (s.cards.map (·.1)).foldl State.settleRun s

/-- CARD_REFUSE (10 R185): the card leaves its queue. One whose chunks are partly dealt deals no more and never counts as done. -/
def State.refuseCard (s : State) (q : Nat) (c : QCard) (cause : Cause) (addr : DWord) : State :=
  let s := match s.headRun q with
    | some (k, r) => (s.setRun k (some { r with remaining := 0, lostChunk := true })).settleRun k
    | none => s
  (s.postDevice 4 cause addr 0 c.cardId 0 0 (cardRegion c.card)).leaveQueue q

/-- Where a block that awaits placement may go: a saved one on any die (12 R232), a discarded one as its card says (10 R195, R198). -/
def State.savedWhere (s : State) (x : Saved) : Where :=
  if x.slot.isSome then .any else s.whereOf x.block.dealt.card x.block.dealt.num x.block.dealt.lo

/-- A block that awaits placement is placed: only from a slot whose completion word is intact (12 R232). -/
def State.placeSaved (s : State) (i : Nat) (x : Saved) : Option State :=
  let intact := match x.slot with
    | some k => natOf (s.homeBytes (x.base + 2 ^ 23 * k + 0x7FFFF8) 8) == x.time.toNat
    | none => true
  let gone (s : State) : State := { s with saved := s.saved.eraseIdx i }
  if !intact then
    some (match s.run x.block.dealt.run with
      | some r => ((gone s).setRun x.block.dealt.run (some { r with
          live := r.live.filter (· != x.block.dealt.num), lostChunk := true })).settleRun x.block.dealt.run
      | none => gone s)
  else
    let x := s.renewed x
    match s.placeFor x.need (s.savedWhere x) with
    | none => none
    | some core => some ((gone s).install core (match x.slot with
        | none => freshSaved x.block.dealt (x.block.roles.map (·.table))
        | some k => s.readSlot x (x.base + 2 ^ 23 * k)))

/-- One candidate: dealt, refused, done at once, or none where it must wait (10 R185, R193, R197). -/
def State.tryDeal (s : State) (c : Cand) : Option State :=
  match c.kind with
  | .saved i x => s.placeSaved i x
  | .fresh q c =>
    let bad := match s.headRun q with
      | none => s.judge c.card c.cardId (s.queue q).region
      | some (_, r) => if cardPlace c.card != 1 then none else match s.placeByte c.card r.next with | .error e => some e | .ok _ => none
    match bad with
    | some (.migrating, _) => none
    | some (cause, addr) => some (s.refuseCard q c cause addr)
    | none =>
      let (run, r, s) := s.runOf q c
      if cardReccount c.card = 0 then
        (s.traced r.region 1 r.cardId 0).map fun s =>
          let s := { s with seq := s.seq + 1 }.setRegion r.region { s.region r.region with dealt := some s.seq }
          ((s.leaveQueue q).setRun run (some r)).settleRun run
      else
        let placed := if cardCores c.card then s.grabAll run r 3585 else s.grab run r
        placed.map fun (s, r) => if r.remaining = 0 then s.leaveQueue q else s

/-- What a candidate's next block needs, where it may go, and its priority. -/
def State.candNeed (s : State) (c : Cand) : Need × Where × Nat :=
  match c.kind with
  | .saved _ x => let x := s.renewed x; (x.need, s.savedWhere x, x.block.dealt.prio)
  | .fresh q c =>
    let (run, r, s) := s.runOf q c
    let d := s.deal run r (s.chunkSize r.card r.remaining)
    ((freshSaved d r.roles).need, s.whereOf r.card r.next d.lo, d.prio)

/-- The dies on which room may be made. -/
def Where.allows : Where → Nat → Bool
  | .wait, _ => false
  | .strict d, core => dieOf core == d
  | _, _ => true

/-- PREEMPT_BLOCK (10 R198), for a block that fits nowhere: the first core, in core order, where pre-emption makes room. -/
def State.preempt (s : State) (c : Cand) : Option State :=
  let (n, wh, prio) := s.candNeed c
  if (s.placeFor n wh).isSome then none
  else ((s.cores.map (·.1)).filter wh.allows).findSome? fun core => s.makeRoom n core (s.victims core prio)

/-! Ingest windows (13 R247 to R249) -/

def State.ingest (s : State) (w : Nat) : Ingest := Tbl.get Ingest.init s.host.ingest w
def State.setIngest (s : State) (w : Nat) (x : Ingest) : State :=
  { s with host := { s.host with ingest := Tbl.set Ingest.init s.host.ingest w x } }

def Ingest.word (x : Ingest) : BitVec 512 := x.desc.getD 0
def Ingest.base (x : Ingest) : DWord := x.word.extractLsb' 0 64
def Ingest.size (x : Ingest) : Nat := 2 ^ fld 64 5 x.word
def Ingest.region (x : Ingest) : Nat := fld 69 12 x.word
def Ingest.queue (x : Ingest) : Nat := fld 81 16 x.word
def Ingest.perCard (x : Ingest) : Nat := fld 128 32 x.word
def Ingest.reqid (x : Ingest) : Nat := fld 160 16 x.word
def Ingest.tmpl (x : Ingest) : DWord := x.word.extractLsb' 192 64

/-- The template card, read in the region's address space. -/
def State.template (s : State) (x : Ingest) : Except Cause (BitVec 1024) :=
  match s.deviceRead (s.effAsid x.region) 128 128 x.tmpl with
  | .ok bs => .ok (BitVec.ofNat 1024 (natOf bs))
  | .error e => .error e.1

/-- Whether every field of a descriptor with EN set is in range (13 Table 3): not known while a CLAIM moves the page of its template (08
R156). -/
def State.ingestOk (s : State) (x : Ingest) : Option Bool :=
  let n := x.perCard
  if flag 97 x.word && fld 98 30 x.word == 0 && fld 176 16 x.word == 0 && fld 256 256 x.word == 0 && decide (16 ≤ fld 64 5 x.word) &&
  decide (fld 64 5 x.word ≤ 24) && x.base.toNat % x.size == 0 && decide (4096 ≤ n) && decide (n ≤ x.size) && popCount (BitVec.ofNat 32 n) == 1 &&
  (s.queue x.queue).region == x.region && (List.range 64).any (fun f => s.isAncestor (s.funcRegion f) x.region) then
    match s.template x with
    | .ok c => some (cardRecsize c != 0 && n % cardRecsize c == 0)
    | .error c => if c = .migrating then none else some false
  else some false

/-- The ingest error interrupt (13 R244): of every function that reaches the region. DESIGN CHOICE (entry 20): of function 0 where none does. -/
def State.raiseIngest (s : State) (region : Nat) : State :=
  if (List.range 64).any fun f => s.isAncestor (s.funcRegion f) region then s.raise 2 region
  else { s with host := { s.host with msix := Tbl.upd 0 s.host.msix 2 (· + 1) } }

/-- A descriptor that the device has read is judged: one that is wrong leaves the window disabled and raises vector 2. -/
def State.judgeIngest (s : State) (w : Nat) : State :=
  let x := s.ingest w
  match (if flag 97 x.word then s.ingestOk x else some true) with
  | some true => s.setIngest w { x with unjudged := false }
  | some false => State.raiseIngest (s.setIngest w { x with desc := some 0, unjudged := false }) x.region
  | none => s.setIngest w { x with unjudged := true }

/-- The device reads a descriptor and judges it. The multiples of a new N that the
counter has passed already post no card. -/
def State.readIngest (s : State) (w : Nat) : State :=
  let d := BitVec.ofNat 512 (natOf (s.homeBytes (s.regs.ingtab.toNat + 64 * w) 64))
  let y := s.ingest w
  let n := fld 128 32 d
  let x := { y with desc := some d, posted := if n = y.perCard || n = 0 then y.posted else y.count.toNat / n }
  ((s.useQueue x.queue).setIngest w x).judgeIngest w

/-- INGEST_CARD_POST (13 R249): the cards of the multiples of N that the counter has passed, in order, while the queue has an unreserved
free slot, and while no CLAIM moves the template's page (08 R156). A template that cannot be read posts no card and raises vector 2. -/
def State.postIngest (w : Nat) : Nat → State → State
  | 0, s => s
  | n + 1, s =>
    let x := s.ingest w
    let q := s.queue x.queue
    if !flag 97 x.word || x.unjudged || decide (x.count.toNat / x.perCard ≤ x.posted) || !q.open || q.free = 0 then s
    else
      let done (s : State) : State := State.postIngest w n (s.setIngest w { x with posted := x.posted + 1 })
      match s.template x with
      | .error .migrating => s
      | .error _ => done (s.raiseIngest x.region)
      | .ok c =>
        let c := setFld 192 64 (x.base.toNat + x.posted * x.perCard % x.size) c
        let c := setFld 288 32 (x.perCard / cardRecsize c) c
        match s.enqueue x.queue (setFld 376 4 0 c) none with
        | some s => done s
        | none => s

/-- A store of the device to a virtual address, one 4 KiB piece after another, or the first fault of a piece. -/
def State.deviceStore (s : State) (asid : Nat) : Nat → DWord → List Byte → Except Cause State
  | 0, _, bs => if bs.isEmpty then .ok s else .error .notPresent
  | n + 1, va, bs =>
    if bs.isEmpty then .ok s
    else
      let k := min bs.length (4096 - va.toNat % 4096)
      match s.access 0 asid none .store true false va, State.deviceStore s asid n (va + BitVec.ofNat 64 k) (bs.drop k) with
      | .error f, _ => .error f.cause
      | .ok _, .error c => .error c
      | .ok l, .ok s => .ok (s.gaStore 224 l.phys (bs.take k))

/-- In replay mode an arrival is checked against the recorded one: a mismatch stops replay and raises vector 2 (13 R257). -/
def State.checkIngest (s : State) (r w : Nat) (count : DWord) : State :=
  let x := s.region r
  if !flag 1 x.trCtl || 32 * (x.trPos + 1) > x.trSize.toNat then s
  else
    let e := s.homeBytes (x.trBase.toNat + 32 * x.trPos) 32
    if natOf (e.take 1) = 2 && natOf ((e.drop 16).take 8) = w && natOf (e.drop 24) = count.toNat then
      s.setRegion r { x with trPos := x.trPos + 1 }
    else State.raiseIngest (s.setRegion r { x with trCtl := x.trCtl &&& ~~~2#32 }) r

/-- A write of a requester that its window takes (13 R248): dropped where the requester is another or the bytes cross a multiple of SIZE; else it
lands in the ring, and INGCNT and the cards follow. None while a CLAIM moves a page of it (08 R156). -/
def State.ingestLand (s : State) (w : Nat) (r : Nat × Nat × List Byte) : Option State :=
  let x := s.ingest w
  let (req, off, data) := r
  if req != x.reqid || decide (off % x.size + data.length > x.size) then some (s.raiseIngest x.region)
  else match s.deviceStore (s.effAsid x.region) (data.length / 4096 + 2) (x.base + BitVec.ofNat 64 (off % x.size)) data with
    | .error .migrating => none
    | .error _ => some (s.raiseIngest x.region)
    | .ok s =>
      let count := x.count + BitVec.ofNat 64 data.length
      let s := s.setIngest w { x with count := count }
      let s := (s.checkIngest x.region w count).trace x.region 2 (BitVec.ofNat 64 w) count
      some (State.postIngest w (data.length / x.perCard + 2) s)

/-- A window withholds credit while its queue is not open or has no unreserved free slot, while cards wait to be posted (10 R187, 13 R249), and
while its descriptor is not judged. -/
def State.withholds (s : State) (x : Ingest) : Bool :=
  x.unjudged || !(s.queue x.queue).open || (s.queue x.queue).free == 0 || decide (x.count.toNat / x.perCard > x.posted)

/-- The cards that a window owes, then the writes that wait for it, in order: at most `fuel` of them. A disabled window takes none. -/
def State.serveIngest (w : Nat) : Nat → State → State
  | 0, s => s
  | n + 1, s =>
    let s := if (s.ingest w).unjudged then s.judgeIngest w else s
    let s := State.postIngest w (s.ingest w).count.toNat s
    let x := s.ingest w
    match x.waiting with
    | [] => s
    | r :: rest =>
      if !flag 97 x.word then s.setIngest w { x with waiting := [] }
      else if s.withholds x then s
      else match (s.setIngest w { x with waiting := rest }).ingestLand w r with
        | none => s
        | some s => State.serveIngest w n s

/-- What every window may do. -/
def State.postPending (s : State) : State :=
  (s.host.ingest.map (·.1)).foldl (fun s w => State.serveIngest w ((s.ingest w).waiting.length + 1) s) s

/-- The regions' watchdogs, after anything that may have changed which regions are busy (12 R238). -/
def State.noteAll (s : State) : State :=
  ((s.regions.map (·.1) ++ s.queues.filterMap fun e => e.2.cards.head?.map fun c => cardRegion c.card).dedup).foldl (fun s r => s.noteBusy false r) s

/-- DISPATCH (10 R193): the regions of the cards are read; the first candidate that can be dealt is dealt; where none can, the dispatcher
may pre-empt for one (10 R198). In an emergency save it deals nothing: blocks are saved. -/
def execDispatch (s : State) : Out :=
  if s.host.side.saving then .next s.tick.saveStep else
  let s := s.tick.postPending.settleRuns
  let s := (s.queues.filterMap fun (_, x) => x.cards.head?.map fun c => cardRegion c.card).foldl State.useRegion s
  let cs := s.candidates
  match cs.findSome? s.tryDeal with
  | some s => .next s.noteAll
  | none =>
    match (if s.coin 12 0 then cs.findSome? s.preempt else none) with
    | some s => .next s.noteAll
    | none => .next s.noteAll

def execWaitctrRead (q : Nat) (s : State) : Out :=
  let s := s.tick.readWait q
  .next ((match (s.queue q).cards.head? with | some c => s.noteBusy false (cardRegion c.card) | none => s))

/-! The end of a block (02 R26) -/

/-- A block has ended. -/
def State.blockOver (s : State) (core slot : Nat) (b : Block) : Bool :=
  b.warps.isEmpty && (match b.front with | some f => f.ended | none => true) &&
  (match b.matrix with | some m => !m.running | none => true) && (s.core core).cmds.all fun x => x.blk != slot

/-- A cluster without blocks takes its target class (10 R200). The edges of class 1 are those of the ring cycle (18 R277). -/
def State.settleClass (s : State) (cl : Nat) : State :=
  let x := s.cluster cl
  let used := s.cores.any fun (c, k) => clusterOf c == cl && k.blocks.any (·.2.isSome)
  match x.target with
  | some t =>
    if used then s else s.setCluster cl { x with cls := t, target := none, edge := if t = 1 then (x.edge + 7) / 8 * 8 else x.edge }
  | none => s

/-- A block leaves the run that dealt it, and its card is done with the last. -/
def State.leaveRun (s : State) (d : Dealt) : State :=
  match s.run d.run with
  | none => s
  | some r =>
    let s := s.setRun d.run (some { r with live := r.live.filter (· != d.num) })
    (s.settleBars d.run).settleRun d.run

def execBlockEnd (core blk : Nat) (s : State) : Out :=
  let s := s.tick
  match s.block core blk with
  | none => .next s
  | some b =>
    if !s.blockOver core blk b then .next s
    else
      let s := s.poolGive core b.dealt.pool (b.scratch.size / 1024)
      let s := ((s.setBlock core blk none).closeAccounts core).settleClass (clusterOf core)
      .next ((s.leaveRun b.dealt).noteBusy true b.dealt.region).noteAll

end Sys2Proof.Machine
end

