-- ==== Sys2Proof/Machine/Link.lean ====
section
/-! DEFINITION. The events of stores and results (03 R53; 09 R164, R167 to R172, R175, R176; 08 R156): an entry leaves its queue, a
message arrives on the bridge link or is lost, a result arrives; and what a party leaves behind when it is stopped. -/

namespace Sys2Proof.Machine

/-! Store queues -/

/-- The oldest entry leaves, and its scoreboard counts down (03 R52). -/
def Flight.pop (f : Flight) : Flight :=
  match f.sq.ents with
  | [] => f
  | e :: rest => { f with sq := { f.sq with ents := rest } }.subSb e.sb

/-- The entries of a queue change. -/
def Flight.setEnts (f : Flight) (es : List StoreEnt) : Flight := { f with sq := { f.sq with ents := es } }

/-- Entries of a queue that satisfy a test change. -/
def State.mapStores (s : State) (w : Who) (p : StoreEnt → Bool) (f : StoreEnt → StoreEnt) : State :=
  s.updFlight w fun x => x.setEnts (x.sq.ents.map fun e => if p e then f e else e)

/-- The entries at the head that have been performed leave, in order (09 R164). -/
def Flight.popDone : Nat → Flight → Flight
  | 0, f => f
  | n + 1, f =>
    match f.sq.ents with
    | e :: _ => if e.done then Flight.popDone n f.pop else f
    | [] => f

/-- An entry has been performed: with it a release takes effect (09 R163). -/
def State.finishStore (s : State) (w : Who) (e : StoreEnt) : State :=
  let s := match e.rel with | some sc => s.release w sc | none => s
  (s.mapStores w (·.age == e.age) fun y => { y with done := true, acked := y.sent }).updFlight w fun f => f.popDone f.sq.ents.length

/-- A lost store joins the party's report (09 R176). -/
def State.noteLost (s : State) (w : Who) (l : LostStore) : State :=
  s.updFlight w fun x => { x with sq := { x.sq with lost := x.sq.lost ++ [l] } }
def StoreEnt.loss (e : StoreEnt) : LostStore := ⟨e.va / 128 * 128, e.ga, e.age⟩

/-- The region whose ACKTO bounds a party's stores. -/
def State.regionOf (s : State) (w : Who) : Nat := ((s.blockOf w).map (·.dealt.region)).getD 0

/-! GA stores (09 R170) -/

/-- The home takes a GA store, and the other die's guest copy is gone. -/
def State.gaPerform (s : State) (w : Who) (e : StoreEnt) : State := (s.notePaths w .ls e.addr e.bytes).gaStore w.core e.addr e.bytes

/-- The home takes a GA store: it has its place in the coherence order. A replica of a group is held invisible there. -/
def State.gaTake (s : State) (w : Who) (e : StoreEnt) : State :=
  let s := s.gaPerform w e
  if e.group = 0 then s else { s with mem := { s.mem with held := (e.group, e.addr, e.bytes.length) :: s.mem.held } }

/-- No core hits an older copy of n bytes in its L1. -/
def State.freshL1 (s : State) (a n : Nat) : State :=
  { s with cores := s.cores.map fun e => (e.1, { e.2 with l1 := { e.2.l1 with old := Tbl.drop e.2.l1.old fun b => decide (a ≤ b) && decide (b < a + n) } }) }

/-- A GA store is acknowledged. A replica group is seen, and leaves the queue, once each of its stores is: whoever has seen one replica finds
no older value of another, in an L1 neither. -/
def State.gaDone (s : State) (w : Who) (e : StoreEnt) : State :=
  if e.group = 0 then s.finishStore w { e with sent := true }
  else
    let s := s.mapStores w (·.age == e.age) fun y => { y with acked := true }
    let es := (s.flight w).sq.ents.filter e.sameGroup
    if es.all (·.acked) then
      es.foldl (fun s x => (s.freshL1 x.addr x.bytes.length).finishStore w x) { s with mem := { s.mem with held := s.mem.held.filter (·.1 != e.group) } }
    else s

/-- A GA store crosses the bridge link where its home, or a guest copy of its line, is on the other die. -/
def State.crosses (s : State) (w : Who) (e : StoreEnt) : Bool :=
  e.home != dieOf w.core || (linesOf e.addr e.bytes.length).any (s.mem.guests (1 - dieOf w.core)).contains

/-! Lost stores (09 R175, R176) -/

/-- A GA store is lost, and with it its whole replica group: their lines are poisoned, the party has a report of each, and the replicas that
were held are seen. A dead die's copies of the lines count no more (entry 21). -/
def State.loseGa (s : State) (w : Who) (e : StoreEnt) : State :=
  let es := (s.flight w).sq.ents.filter e.sameGroup
  let o := 1 - dieOf w.core
  let s := es.foldl (fun s x =>
    let s := (s.poisonLines x.addr x.bytes.length).noteLost w x.loss
    if (s.die o).dead then { s with mem := s.mem.dropGuest o x.addr x.bytes.length } else s) s
  let other (y : Msg) : Bool := !((y.kind == .ga || y.kind == .gaAck) && y.who == w && es.any fun x => x.age == y.age)
  let s := { s with mem := { s.mem with
      msgs := s.mem.msgs.filter other, held := s.mem.held.filter fun h => e.group = 0 || h.1 != e.group } }
  s.mapStores w e.sameGroup fun y => { y with lost := true }

/-- A GA store sends its request; one that need not cross the link is performed at once, and one that a dead die would have to acknowledge is
lost (19 R287; entry 21). -/
def State.sendGa (s : State) (w : Who) (e : StoreEnt) : State :=
  let m : Msg := ⟨.ga, dieOf w.core, w, s.regionOf w, e.addr, e.va, e.bytes, s.tref.toNat, e.age⟩
  let t := s.mapStores w (·.age == e.age) fun y => { y with sent := true }
  if !s.crosses w e then (t.gaTake w e).gaDone w e
  else if (s.die (1 - dieOf w.core)).dead then t.loseGa w e
  else { t with mem := { t.mem with msgs := t.mem.msgs ++ [m] } }

/-- A RED is performed at the home (09 R165, 23 R372): the state after, and the events. -/
def State.performRed (s : State) (w : Who) (e : StoreEnt) (op : AtomOp) (v : DWord) : State × List Ev :=
  let r := s.atomLane (s.regionOf w) w .ls op e.ga e.bytes.length e.addr e.va e.home e.age v.toNat 0
  (r.1, r.2.2)

/-- A RED's entries of one word at one address are performed together: they are next to each other in the coherence order (23 R372). Those of
`.fadd` leave their events for the word, which waits for them (06 R115). -/
def State.performReds (s : State) (w : Who) (e : StoreEnt) : State :=
  ((s.flight w).sq.ents.filter fun x => x.sameWord e && x.addr == e.addr && x.waits).foldl (fun s x =>
    match x.rmw with
    | some (op, v) =>
      let (s, evs) := s.performRed w x op v
      let s := if evs.isEmpty then s else s.updFlight w fun f => { f with evs := f.evs ++ evs.map fun v => (x.age % 256, v) }
      s.finishStore w x
    | none => s) s

/-- The entries of a party's queue that may be performed now (09 R164, R166): of its 16 slots, the oldest, a scratch store and a release in
order. A global store may go ahead of older ones to other bytes, as other cores see it: within the core each party's stores keep their order,
so that one party at a time goes ahead, and no other touches the bytes until it is level again. DEDUCED (entry 44). -/
def State.readyStores (s : State) (w : Who) : List StoreEnt :=
  let q := (s.flight w).sq.ents
  let others := (s.core w.core).flightsBut w.party
  (List.range (min 16 q.length)).filterMap fun i => (q[i]?).bind fun e =>
    let before := (q.take i).filter fun x => !x.done
    let level := before.all e.sameGroup
    let ahead := !(before.any fun x => !x.acked && x.touches false e.addr e.bytes.length) && (level || others.all fun f => (aheadEnts f.sq.ents).isEmpty)
    let free := if e.scratch || e.rel.isSome then level else ahead
    let clash := !e.scratch && others.any fun f => (aheadEnts f.sq.ents).any (·.touches false e.addr e.bytes.length)
    if e.waits && !e.sent && free && !clash then some e else none

/-- An entry is performed: a scratch store, an EF store and a RED at once; a GA store sends its request. A RED follows its die's EF stores
to the same bytes (09 R172). A store to a dead die is lost (09 R175). It is a demand access (08 R150); one that bypasses L1 leaves no copy
there (08 R142). -/
def State.performStore (s : State) (w : Who) (e : StoreEnt) : State :=
  let n := e.bytes.length
  if e.scratch then (s.scrStore (s.home w).1 (s.home w).2 w .ls e.addr e.bytes).finishStore w e
  else if (s.die e.home).dead then
    if e.ga then s.loseGa w e else ((s.poisonLines e.addr n).noteLost w e.loss).finishStore w e
  else if e.rmw.isSome then
    if s.efPending (dieOf w.core) e.addr n || s.heldAt (dieOf w.core) e.addr n then s else s.performReds w e
  else
    let s := s.demandAll w.core e.addr n
    let s := if e.byp then s.leaveL1 w.core e.addr n else s
    if e.ga then s.sendGa w e
    else (s.efStore w .ls (s.regionOf w) e.home e.addr e.va e.age e.bytes).finishStore w e

/-- STORES DRAIN TO L2 (09 R164, R166): one of the entries that may be performed is, and the performed ones at the head leave. Which one is
free. -/
def State.leaveQueueStore (s : State) (w : Who) : State :=
  match s.readyStores w with
  | [] => s
  | [e] => s.performStore w e
  | e :: es => s.performStore w (((e :: es)[(s.freeAt 6 (2 ^ 61 + w.core)).toNat % (es.length + 1)]?).getD e)

def execStoreLeaveQueue (w : Who) (s : State) : Out := .next (s.tick.leaveQueueStore w)

/-! Acknowledgements -/

/-- The sent entry of a queue that a GA message belongs to. -/
def State.gaEntry (s : State) (m : Msg) : Option StoreEnt := (s.flight m.who).sq.ents.find? fun e => e.ga && e.sent && !e.acked && !e.lost && e.age == m.age

/-- A message of a GA store arrives (09 R170): the other die's acknowledgement of the invalidation, or of the store; or the store at a home on
the other die, which takes it and acknowledges it. -/
def State.gaArrive (s : State) (i : Nat) (m : Msg) (e : StoreEnt) : State :=
  if m.kind == .gaAck then (s.dropMsg i).gaDone m.who e
  else if e.home = m.die then ((s.dropMsg i).gaTake m.who e).gaDone m.who e
  else
    let s := s.gaTake m.who e
    { s with mem := { s.mem with msgs := s.mem.msgs.modify i fun y => { y with kind := .gaAck } } }

/-- A message arrives and is acknowledged. -/
def State.acked (s : State) (i : Nat) : State :=
  match s.msgReady i with
  | none => s
  | some m =>
    match m.kind with
    | .ef => s
    | .inval => s.invalArrive i m
    | .ga | .gaAck => match s.gaEntry m with | some e => s.gaArrive i m e | none => s.dropMsg i

def execAckArrival (i : Nat) (s : State) : Out := .next (s.tick.acked i)

def State.efHome (s : State) (i : Nat) : State :=
  match s.msgReady i with
  | some m => if m.kind = .ef then s.efArrive i m else s
  | none => s

def execEfStoreHomeArrival (i : Nat) (s : State) : Out := .next (s.tick.efHome i)

/-- The store of a message is lost: its line is poisoned and its party has a report. -/
def State.loseStore (s : State) (m : Msg) : State :=
  let s := s.poisonLines m.addr m.bytes.length
  match m.kind with
  | .ga | .gaAck => match s.gaEntry m with | none => s | some e => s.loseGa m.who e
  | _ => s.noteLost m.who ⟨m.va / 128 * 128, false, m.age⟩

/-- A message that will not be acknowledged (09 Table 4): an EF store has reached the home, or that makes no difference under the poison; a GA
store, which no party has read before its home took it, is lost before or after that. -/
def State.loseMsg (s : State) (i : Nat) (m : Msg) : State :=
  match m.kind with
  | .ef => (s.efArrive i m).loseStore m
  | .inval => (s.invalArrive i m).loseStore m
  | .ga | .gaAck => (s.dropMsg i).loseStore m

/-- ACK_TIMEOUT (09 R175): no acknowledgement within the effective ACKTO of the issuing block's region. -/
def execAckTimeout (i : Nat) (s : State) : Out :=
  let s := s.tick
  match s.mem.msgs[i]? with
  | none => .next s
  | some m => .next (if m.sent + s.effAckto m.region ≤ s.tref.toNat then s.loseMsg i m else s)

/-! Results -/

/-- A result has arrived: it is no longer in flight (03 R53). -/
def Flight.land (f : Flight) (i : Nat) (r : Result) : Flight := { f with results := f.results.eraseIdx i }.subSb r.sb

/-- The values of a result that reach registers: those of lanes that have ended are discarded (20 R313). -/
def State.liveVals (s : State) (w : Who) (vals : List (Nat × DWord)) : List (Nat × DWord) :=
  match s.warp w with
  | some x => vals.filter fun v => x.alive.getLsbD (v.1 % 32)
  | none => vals

/-- RESULT_ARRIVAL (03 R53): the values reach their registers. A CLAIM first holds its range, and re-homes it once its lines are written back
(08 R156). -/
def execResultArrival (w : Who) (i : Nat) (s : State) : Out :=
  let s := s.tick
  match (s.flight w).results[i]? with
  | none => .next s
  | some r =>
    match r.claim with
    | none => .next ((s.updFlight w fun f => f.land i r).arrive w r.dst r.hint (s.liveVals w r.vals))
    | some (asid, lo, len) =>
      if !s.mem.moving.contains ⟨w, asid, lo, len⟩ then .next (s.holdRange w asid lo len)
      else if s.claimQuiet asid lo len then .next ((s.updFlight w fun f => f.land i r).rehome w asid lo len true).sweepLogs else .next s

/-! Parties that are stopped -/

/-- Every message of the link that may arrive does, in order. -/
def State.settleLink : Nat → State → State
  | 0, s => s
  | n + 1, s =>
    match s.mem.msgs with
    | [] => s
    | m :: _ => State.settleLink n (if m.kind = .ef then s.efHome 0 else s.acked 0)

/-- The parties of a core with a store queue. -/
def State.queueParties (s : State) (core : Nat) : List Who :=
  let k := s.core core
  (k.warps.filterMap fun e => e.2.map fun _ => ⟨core, .warp e.1⟩) ++ (if k.landing.isSome then [⟨core, .landing⟩] else []) ++
  k.blocks.filterMap fun e => (e.2.bind (·.front)).map fun _ => ⟨core, .front e.1⟩

/-- One more of a party's stores is performed: first those of a party of its core that is ahead. -/
def State.drainOne (s : State) (w : Who) : State :=
  let p := ((s.queueParties w.core).find? fun p => p != w && !(aheadEnts (s.flight p).sq.ents).isEmpty && !(s.readyStores p).isEmpty).getD w
  if !(s.readyStores p).isEmpty then s.leaveQueueStore p
  else match (s.flight w).sq.ents.find? fun e => e.waits && !e.sent with
    | some e => s.performStore w e
    | none => s

/-- A party's stores are performed at their homes: entries leave and messages arrive. -/
def State.drainStores (w : Who) : Nat → State → State
  | 0, s => s
  | n + 1, s =>
    let s := State.settleLink (2 * s.mem.msgs.length + 2) s
    if (s.flight w).sq.ents.isEmpty then s else State.drainStores w n (s.drainOne w)

/-- The results in flight of a party arrive. -/
def State.drainResults (s : State) (w : Who) : State :=
  (s.flight w).results.foldl (fun s r =>
    let s := s.updFlight w fun f => f.land 0 r
    match r.claim with
    | none => s.arrive w r.dst r.hint (s.liveVals w r.vals)
    | some (asid, lo, len) => s.rehome w asid lo len true) s

/-- A party has nothing under way: its stores are home, lost ones are not reported, its results have arrived. -/
def State.drain (s : State) (w : Who) : State :=
  let s := (s.drainResults w).updFlight w Flight.dropLost
  let n := ((s.queueParties w.core).map fun p => (s.flight p).sq.ents.length).foldl (· + ·) 2
  (State.drainStores w (2 * n) s).updFlight w Flight.dropLost

/-- What a die reads of the bytes of a message is the home's again, but for later EF stores on their way. -/
def State.clearView (s : State) (m : Msg) : State :=
  { s with mem := s.mem.setViews m.die m.addr m.bytes.length fun b =>
      if s.mem.msgs.any (fun e => e.kind == .ef && e.die == m.die && msgCovers e b) then Tbl.get none (s.mem.view m.die) b else none }

/-- The stores of a stopped party that have not been ordered at their home are performed or not, each on its own (12 R239). An
invalidation goes on with no party to report to. -/
def State.dropTraffic (s : State) (w : Who) : State :=
  let gone := s.mem.msgs.filter fun m => m.who == w && m.kind != .inval
  let kept := s.mem.msgs.filter fun m => m.who != w || m.kind == .inval
  let kept := kept.map fun m => if m.who = w then { m with who := ⟨w.core, .matrix 16⟩ } else m
  let s := { s with mem := { s.mem with msgs := kept } }
  let s := (gone.filter (·.kind != .gaAck)).foldl (fun s m => if s.coin 13 m.addr then (s.homeStore w.core m.addr m.bytes).clearView m else s.clearView m) s
  let es := (s.flight w).sq.ents
  let s := { s with mem := { s.mem with held := s.mem.held.filter fun h => !(es.any fun e => e.group == h.1) } }
  let s := (es.filter fun e => !e.scratch && !e.sent && !e.lost && !e.done).foldl (fun s e =>
    if s.coin 13 (e.addr + 2 ^ 60) then
      match e.rmw with
      | some (op, v) => (s.performRed w e op v).1
      | none => s.gaStore w.core e.addr e.bytes
    else s) s
  s.updFlight w fun f => { f with sq := StoreQueue.init, results := [] }

/-- The parties of a block, its warps where they are: in their slots or away in landing slots (08 R157). -/
def State.blockParties (s : State) (core slot : Nat) : List Who :=
  (s.blockWarps core slot).map (·.1) ++ [⟨core, .front slot⟩, ⟨core, .matrix slot⟩]

/-- A block leaves its core at once, with its warps that are away, its pages under CLAIM and its traffic. -/
def State.removeBlock (s : State) (core slot : Nat) : Option (Saved × State) :=
  let ps := s.blockParties core slot
  let s := ps.foldl State.dropTraffic s
  let s := { s with mem := { s.mem with moving := s.mem.moving.filter fun m => !ps.contains m.who } }
  let own := ((s.block core slot).map (·.dealt.pool)).getD []
  let s := ps.foldl (fun s w => match w.party, s.warp w with
    | .landing, some x => s.withdraw w |>.leaveLanding w own (frameCuts x.frame)
    | _, _ => s) s
  s.unload core slot

end Sys2Proof.Machine
end

