-- ==== Sys2Proof/Machine/Power.lean ====
section
/-! DEFINITION. The token ring, the mint, accounts and hold (11 R203 to R213), loans (R219, R220), droop (R214), heat (R216 to R218), the
emergency save, what bring-up restores, and package reset (12 R235 to R237, 10 R201). -/

namespace Sys2Proof.Machine

/-! The mint (11 R204, R206, R211) -/

/-- REFF (11 R204). -/
def Die.reff (d : Die) : Nat :=
  let r := fld 0 14 d.mintCfg
  let b : Int := if 1 ≤ r ∧ r ≤ 1023 then 1024 else r
  let v := (((b + d.mint.loan) * (8 - (d.mint.cut : Int))) / 8).toNat
  let v := min v 16383
  if 1 ≤ v ∧ v ≤ 1023 then 1024 else v

def Die.updMint (d : Die) (f : Mint → Mint) : Die := { d with mint := f d.mint }
def State.updMint (s : State) (d : Nat) (f : Mint → Mint) : State := s.setDie d ((s.die d).updMint f)

/-- The packet that the mint emits (11 R211). -/
def Die.emit (d : Die) : Packet × List Nat :=
  match d.mint.list with
  | c :: rest => let r := min 4096 d.reff; (⟨d.reff - r, r, some c, 0⟩, rest)
  | [] => (⟨d.reff, 0, none, 0⟩, [])

/-- The remaining allowance of a region on a die (11 R206). -/
def Region.rem (x : Region) (d : Nat) : Int := if d = 0 then x.rem0 else x.rem1
def Region.setRem (x : Region) (d : Nat) (v : Int) : Region := if d = 0 then { x with rem0 := v } else { x with rem1 := v }

/-- The available allowance of an account, and a debit from its region and every ancestor (11 R206). -/
def State.available (s : State) (d r : Nat) : Int :=
  (s.chain r).foldl (fun m a => min m ((s.region a).rem d)) ((s.region r).rem d)
def State.debit (s : State) (d r t : Nat) : State :=
  (s.chain r).foldl (fun s a => let x := s.region a; s.setRegion a (x.setRem d (x.rem d - (t : Int)))) s

/-! The take (11 R207) -/

/-- A core credits t tokens to an account. -/
def State.credit (s : State) (core r t : Nat) : State :=
  let s := s.updCore core fun k => { k with tokens := { k.tokens with bal := Tbl.set none k.tokens.bal r (some (k.tokens.balance r + t)) } }
  s.debit (dieOf core) r t

/-- The open account with the lowest balance among the regions whose effective SHARE was nonzero when the rotation began, the lowest region id
on a tie. -/
def State.poorest (s : State) (core : Nat) : Option Nat :=
  ((s.core core).tokens.bal.foldl (fun (m : Option (Nat × Nat)) e =>
    match e.2, m with
    | some b, some (r, x) => if s.mayTake (dieOf core) e.1 && decide (b < x) then some (e.1, b) else some (r, x)
    | some b, none => if s.mayTake (dieOf core) e.1 then some (e.1, b) else none
    | none, m => m) none).map (·.1)

def State.takingAccount (s : State) (core : Nat) : Option Nat :=
  match s.oldestWide core with
  | some x => some x.region
  | none => s.poorest core

/-- The reserved take of the core that a packet names. -/
def State.takeReserved (s : State) (core : Nat) (p : Packet) : State × Packet :=
  match s.oldestWide core with
  | none => (s, p)
  | some x =>
    let t := min p.rtok (s.cap core - (s.core core).tokens.balance x.region)
    (s.credit core x.region t, { p with rtok := p.rtok - t, rcore := none })

/-- The take of free tokens. -/
def State.takeFree (s : State) (core : Nat) (p : Packet) : State × Packet :=
  match s.takingAccount core with
  | none => (s, p)
  | some r =>
    let d := dieOf core
    let t := min (min p.tok (s.cap core - (s.core core).tokens.balance r)) (s.available d r).toNat
    let t := if (s.cluster (clusterOf core)).window then min t ((s.die d).reff / 224) else t
    (s.credit core r t, { p with tok := p.tok - t })

/-- A core in hold marks the packet once (11 R207, R210); only a reservation that has arrived lets it mark again, at the next cycle. -/
def State.markPacket (s : State) (core : Nat) (p : Packet) (served : Bool) : State × Packet :=
  let t := (s.core core).tokens
  let mark := t.hold.isSome && !t.marked
  let p := if mark then { p with mask := p.mask ||| (1#112 <<< (core % 112)) } else p
  (s.updCore core fun k => { k with tokens := { k.tokens with marked := (k.tokens.marked || mark) && !served } }, p)

/-- A core stop acts on the packet that passes it. -/
def State.coreStop (s : State) (core : Nat) (p : Packet) : State × Packet :=
  let mine := p.rcore == some (core % 112)
  let (s, p) := if mine then s.takeReserved core p else (s, p)
  let (s, p) := s.takeFree core p
  s.markPacket core p mine

/-! Hold (11 R210) -/

/-- A core whose oldest request has waited 226 ring cycles enters hold for it. -/
def State.enterHold (s : State) (core : Nat) : State :=
  match s.oldestWide core with
  | none => s
  | some x =>
    if (s.core core).tokens.hold.isSome || (s.die (dieOf core)).mint.cycle < x.age + 226 then s
    else s.updCore core fun k => { k with tokens := { k.tokens with hold := some x.who, heldNow := true } }

def execHoldEnter (core : Nat) (s : State) : Out := .next (s.tick.enterHold core)

/-! The ring (11 R203, R207, R211) -/

/-- The cores of a die that hold anything. -/
def State.coresOf (s : State) (d : Nat) : List Nat := (s.cores.map (·.1)).filter fun c => dieOf c == d

/-- Every core stop of a die acts on its packet: the packet after k hops passes core k − 1. -/
def State.coreStops (s : State) (d : Nat) (ps : List Packet) : State × List Packet :=
  (s.coresOf d).foldl (fun (st : State × List Packet) c =>
    match st.2[c % 112 + 1]? with
    | none => st
    | some p => let (s, p) := st.1.coreStop c p; (s, st.2.set (c % 112 + 1) p)) (s, ps)

/-- A packet returns to the mint: its tokens are destroyed, and its marks join the list, which holds a core once. -/
def Mint.collect (m : Mint) (p : Packet) : Mint := { m with list := m.list ++ (onesOf p.mask).filter (fun c => !m.list.contains c), destroyed := m.destroyed + p.tok + p.rtok }

/-! Cluster cycles (18 R277, 11 R214). Clusters are numbered 14 × die + cluster. -/

/-- STRETCH, where 0 acts as 1, and WINDOW of a cluster (11 Table 1). -/
def Cluster.stretch (x : Cluster) : Nat := max 1 (fld 6 4 x.droopCfg)
def Cluster.windowLen (x : Cluster) : Nat := fld 10 8 x.droopCfg

/-- The length of cluster cycle n in eighths of a ring cycle: 1.25, 1 and 0.875 ring cycles at classes 0, 1 and 2, twice that while the clock
stretches. -/
def Cluster.period (x : Cluster) (n : Nat) : Nat :=
  (if x.detected && decide (x.from_ ≤ n) && decide (n < x.from_ + x.stretch) then 2 else 1) *
    (match x.cls with | 0 => 10 | 1 => 8 | _ => 7)

/-- As cluster cycle n begins: after the last stretched cycle the droop window starts; it ends after WINDOW cycles. -/
def Cluster.windowStart (x : Cluster) (n : Nat) : Cluster :=
  if x.detected && decide (x.from_ + x.stretch ≤ n) then
    { x with detected := false, window := x.windowLen != 0, since := n, until_ := n + x.windowLen }
  else x
def Cluster.windowEnd (x : Cluster) (n : Nat) : Cluster := if x.window && decide (x.until_ ≤ n) then { x with window := false } else x
def Cluster.windowFor (x : Cluster) (n : Nat) : Cluster := (x.windowStart n).windowEnd n

/-- The number of the cluster cycle that has begun last. -/
def Cluster.latest (x : Cluster) : Nat := x.cycle + x.open_ - 1

/-- The open cluster cycle of a cluster ends: its cores have paid what they can. -/
def State.closeCycle (s : State) (c : Nat) : State :=
  let s := ((s.cores.map (·.1)).filter fun k => clusterOf k == c).foldl State.payWide s
  let x := s.cluster c
  s.setCluster c { x with cycle := x.cycle + 1, open_ := x.open_ - 1 }
def State.closeCycles (c : Nat) : Nat → State → State
  | 0, s => s
  | n + 1, s => if (s.cluster c).open_ = 0 then s else State.closeCycles c n (s.closeCycle c)

/-- The cluster cycles that start in a ring cycle open, after its takes. -/
def Cluster.openCycles : Nat → Cluster → Cluster
  | 0, x => { x with edge := x.edge - 8 }
  | n + 1, x =>
    if x.edge ≥ 8 then { x with edge := x.edge - 8 }
    else
      let x := x.windowFor (x.cycle + x.open_)
      Cluster.openCycles n { x with open_ := x.open_ + 1, edge := x.edge + x.period (x.cycle + x.open_) }

/-- A cluster cycle that begins with a ring cycle decides whether its takes fall in a droop window. -/
def Cluster.beforeTakes (x : Cluster) : Cluster := if x.edge = 0 then x.windowFor (x.cycle + x.open_) else x

def clustersOf (d : Nat) : List Nat := span (14 * d) 14

/-- RING_CYCLE of a die: the cluster cycles that are open make their payments; one hop, the takes of the die's cores, and the mint; then the
cluster cycles that start in the new ring cycle open. The first cycle of a rotation follows ROTATION_START. -/
def State.ringCycle (s : State) (d : Nat) : State :=
  let m := (s.die d).mint
  if (s.die d).dead || decide (m.cycle ≥ 113 * m.rot) then s
  else
    let s := (clustersOf d).foldl (fun s c => State.closeCycles c 2 s) s
    let s := (clustersOf d).foldl (fun s c => s.setCluster c (s.cluster c).beforeTakes) s
    let (p, rest) := (s.die d).emit
    let back := m.packets[112]?
    let s := s.updMint d fun m => { m with cycle := m.cycle + 1, list := rest }
    let s := (s.coresOf d).foldl State.enterHold s
    let (s, ps) := s.coreStops d (p :: m.packets.take 112)
    let s := s.updMint d fun m => match back with
      | some p => { m with packets := ps }.collect p
      | none => { m with packets := ps }
    (clustersOf d).foldl (fun s c => s.setCluster c (Cluster.openCycles 2 (s.cluster c))) s

def execRingCycle (die : Nat) (s : State) : Out := .next (if die < 2 then s.tick.ringCycle die else s.tick)

/-! Rotations and loans (11 R206, R219, R220) -/

/-- The allowances of a rotation: ⌊SHARE × REFF × 113 ÷ 1,000⌋ where the effective SHARE is nonzero, and a negative remainder carried over. A
region that has not been read takes its own as it is (`State.useRegion`). -/
def State.allow (s : State) (d : Nat) : State :=
  let reff := (s.die d).reff
  let s := s.updMint d fun m => { m with reff0 := reff, noShare := (s.regions.map (·.1)).filter fun r => !s.hasShare r }
  ((s.regions.map (·.1)).filter fun r => (s.region r).rcb.isSome).foldl (fun s r =>
    let x := s.region r
    let a : Int := if s.hasShare r then (s.appliedShare r * reff * 113 / 1000 : Nat) else 0
    s.setRegion r (x.setRem d (a + min 0 (x.rem d)))) s

def State.addLoan (s : State) (d : Nat) (l : Int) : State := s.updMint d fun m => { m with loan := m.loan + l }

/-- A loan under way at a rotation boundary of die d. Nothing of it moves while the sideband is down. -/
def State.loanBoundary (s : State) (d : Nat) : State :=
  match s.loan with
  | none => s
  | some l =>
    let next (st : LoanStage) (left : Nat) : Option Loan := some { l with stage := st, left := left }
    if !s.host.side.linkUp then s
    else match l.stage with
      | .asked => if d = l.lender then { s.addLoan d (-(l.amount : Int)) with loan := next .granting 0 } else s
      | .granted => if d != l.lender then { s.addLoan d l.amount with loan := next .running l.term } else s
      | .running => if d = l.lender then { s with loan := next .running (l.left - 1) } else s
      | .ending => if d != l.lender then { s.addLoan d (-(l.amount : Int)) with loan := next .notice 0 } else s
      | _ => s

/-- A die is needy, or idle, at the end of a rotation (11 R219). -/
def State.needy (s : State) (d : Nat) : Bool :=
  decide (16 * (s.die d).mint.tokRet < (s.die d).reff * 113) &&
  (s.coresOf d).any fun c => (s.core c).tokens.hold.isSome || !(s.core c).tokens.wide.isEmpty
def State.idle (s : State) (d : Nat) : Bool := decide ((s.die d).reff * 113 ≤ 2 * (s.die d).mint.tokRet)

/-- LOAN_REQUEST: a needy die asks, and the other grants it where it may (11 R219). -/
def State.askLoan (s : State) (d : Nat) : State :=
  let l := 1 - d
  let b := s.die d
  let x := s.die l
  let amount : Int := min (min ((x.reff / 4 : Nat) : Int) ((x.mint.tokRet / 226 : Nat) : Int)) (min (16383 - (b.reff : Int)) ((x.reff : Int) - 1024))
  if s.needy d && flag 15 b.mintCfg && s.idle l && flag 14 x.mintCfg && !b.level.getLsbD 1 && !x.level.getLsbD 1 && s.loan.isNone &&
      s.host.side.linkUp && !b.dead && !x.dead && decide (0 < amount) then
    { s with loan := some ⟨l, amount.toNat, max 1 (fld 16 8 x.mintCfg), 0, .asked, false⟩ }
  else s

/-- ROTATION_START of a die: TOKRET, hold in the last rotation, the loans at the boundary, and the allowances. -/
def State.rotationStart (s : State) (d : Nat) : State :=
  let m := (s.die d).mint
  if (s.die d).dead || m.cycle != 113 * m.rot then s
  else
    let s := s.updMint d fun m => { m with rot := m.rot + 1, tokRet := m.destroyed, destroyed := 0 }
    let s := (s.coresOf d).foldl (fun s c => s.updCore c fun k => { k with tokens := { k.tokens with
      heldLast := k.tokens.heldNow, heldNow := k.tokens.hold.isSome } }) s
    ((s.loanBoundary d).askLoan d).allow d

def execRotationStart (die : Nat) (s : State) : Out := .next (if die < 2 then s.tick.rotationStart die else s.tick)

/-- The grant arrives at the borrower, which raises its Loan term at its next boundary. -/
def execLoanGrant (die : Nat) (s : State) : Out :=
  let s := s.tick
  match s.loan with
  | some l => .next (if l.stage = .granting && die != l.lender && s.host.side.linkUp then { s with loan := some { l with stage := .granted } } else s)
  | none => .next s

/-- LOANROT rotations of the lender have passed: the borrower lowers its rate at its next boundary. -/
def execLoanTermEnd (die : Nat) (s : State) : Out :=
  let s := s.tick
  match s.loan with
  | some l =>
    .next (if l.stage = .running && l.left = 0 && die != l.lender && s.host.side.linkUp then { s with loan := some { l with stage := .ending } } else s)
  | none => .next s

/-- The lender removes its negative term on receipt, and repayment begins: a loan of the same size the other way. -/
def execLoanEndNotice (die : Nat) (s : State) : Out :=
  let s := s.tick
  match s.loan with
  | some l =>
    .next (if l.stage = .notice && die = l.lender && s.host.side.linkUp then
      { s.addLoan die l.amount with loan := if l.repay then none else some { l with lender := 1 - die, stage := .asked, repay := true } }
    else s)
  | none => .next s

/-- Each die drops a positive Loan and keeps a negative one (11 R220). -/
def State.dropLoans (s : State) : State :=
  let f (m : Mint) : Mint := { m with loan := min m.loan 0 }
  (s.updMint 0 f).updMint 1 f

def State.updSide (s : State) (f : Sideband → Sideband) : State := { s with host := { s.host with side := f s.host.side } }

def execSidebandFail (s : State) : Out := .next (s.tick.dropLoans.updSide fun x => { x with linkUp := false })

def execSidebandReturn (s : State) : Out :=
  let s := s.tick
  if s.host.side.linkUp then .next s
  else
    let f (m : Mint) : Mint := { m with loan := 0 }
    .next { (((s.updMint 0 f).updMint 1 f).updSide fun x => { x with linkUp := true }) with loan := none }

/-! Payment (11 R208 to R210, 07 R135) -/

def execWideRequestPayment (core : Nat) (s : State) : Out := .next (s.tick.payWide core)

/-- The word at which a matrix stream stands and the word after it. -/
def State.matrixNext (s : State) (w : Who) : DWord := nextWord (s.pcOf w) (hdrCount (((s.clauseOf w).map (·.hdr)).getD 0x03C0000000000000#64))

/-- MATRIX_STEP_START: the engine's waiting step is paid once the balance covers it; with the cap below 1,000 it traps (TOKENCAP), and the row
is not applied (07 R135). -/
def execMatrixStepStart (core : Nat) (s : State) : Out :=
  let s := s.tick
  match (s.core core).tokens.wide.find? fun x => match x.who.party with | .matrix _ => true | _ => false with
  | none => .next s
  | some x =>
    if s.cap core < 1000 then
      let s := match x.who.party with | .matrix b => s.updMatrix core b fun m => { m with steps := 0 } | _ => s
      .next ((s.dropWide x.who).takeTrap x.who (s.pcOf x.who) (s.matrixNext x.who) (TrapArgs.of .tokenCap 0 1000 0))
    else .next (s.payOne core x)

/-- TOKCAP: every account of the die is clipped at once (11 R205). -/
def State.writeTokcap (s : State) (d : Nat) (v : BitVec 32) : State :=
  let s := s.setDie d { s.die d with tokCap := v &&& 0x1FFF#32 }
  let cap := (s.die d).cap
  (s.coresOf d).foldl (fun s c => s.updCore c fun k => { k with tokens := { k.tokens with
    bal := k.tokens.bal.map fun e => (e.1, e.2.map (min · cap)) } }) s

def execTokcapWrite (die : Nat) (v : BitVec 32) (s : State) : Out := .next (if die < 2 then s.tick.writeTokcap die v else s.tick)

/-! Droop (11 R214) -/

/-- DROOP_DETECT: within 2 cluster cycles the clock stretches, and DROOPCNT counts 1. A detection before that stretch, or in it, is ignored.
DESIGN CHOICE (entry 34). -/
def execDroopDetect (die cluster : Nat) (s : State) : Out :=
  let s := s.tick
  let c := 14 * die + cluster
  let x := s.cluster c
  if die < 2 && cluster < 14 && flag 18 x.droopCfg && !x.detected then
    .next (s.setCluster c { x with
      detected := true, from_ := x.latest + (if s.coin 6 (2 ^ 60 + c) then 2 else 1), droopCnt := x.droopCnt + 1, recent := x.recent + 1 })
  else .next s

def execDroopWindowStart (die cluster : Nat) (s : State) : Out :=
  let s := s.tick
  let x := s.cluster (14 * die + cluster)
  .next (s.setCluster (14 * die + cluster) (x.windowStart x.latest))

def execDroopWindowEnd (die cluster : Nat) (s : State) : Out :=
  let s := s.tick
  let x := s.cluster (14 * die + cluster)
  .next (s.setCluster (14 * die + cluster) (x.windowEnd x.latest))

def State.clearDroop (s : State) (c : Nat) : State := s.setCluster c { s.cluster c with droopCnt := 0 }
def execDroopcntClear (die cluster : Nat) (s : State) : Out :=
  .next (if die < 2 && cluster < 14 then s.tick.clearDroop (14 * die + cluster) else s.tick)

/-! The emergency save (12 R235 to R237) -/

/-- The regions with a running block, each with a flag that is set when all of its running cards have IDEM. -/
def State.runningRegions (s : State) : List (Nat × Bool) :=
  let bs := s.allBlocks.map (·.2.2.dealt)
  (bs.map (·.region)).dedup.map fun r => (r, bs.all fun d => d.region != r || cardIdem d.card)

/-- EMERGENCY_SAVE (12 R235, R237): the log header is written and every block is to stop; without a usable arena no block is saved, and the
save ends at once. DESIGN CHOICE (entry 39). -/
def State.emergencySave (s : State) : State :=
  if s.host.side.saving then s
  else
    let log : EmergencyLog := ⟨s.saveTime, s.runningRegions, s.arenaUsable, [], none, false⟩
    let s := s.updSide fun x => { x with log := some log, saving := true }
    if s.arenaUsable then s else s.finishSave []

/-! Heat (11 R216 to R218) -/

/-- Whether a level is active after a poll: threshold i of THERMCFG and its hysteresis. -/
def Die.levelAt (d : Die) (temps : List Nat) (i : Nat) : Bool :=
  let t := fld (8 * i) 8 d.thermCfg
  if temps.any fun x => decide (t ≤ x) then true
  else if temps.all fun x => decide (x < t - fld (4 * i) 4 d.thermHys) then false
  else d.level.getLsbD i

/-- The highest reading of a poll and the lowest sensor that has it. -/
def hottest (temps : List Nat) : Nat × Nat :=
  let m := temps.foldl max 0
  (min m 255, temps.idxOf m)

/-- THERMAL_POLL: the levels, CUT, and at T3 the emergency save. -/
def State.thermalPoll (s : State) (d : Nat) (temps : List Nat) : State :=
  let x := s.die d
  let lv (i : Nat) : Bool := x.levelAt temps i
  let (hot, sensor) := hottest temps
  let cut := if lv 1 then min 7 (x.mint.cut + 1) else x.mint.cut - 1
  let s := s.setDie d { x with
    hot := hot, sensor := sensor, level := maskOf 3 lv, temps := temps, mint := { x.mint with cut := cut } }
  let s := (List.range 14).foldl (fun s k =>
    let c := 14 * d + k
    if (s.cluster c).recent = 0 then s else s.setCluster c { s.cluster c with recent := 0 }) s
  let s := if lv 0 && !x.level.getLsbD 0 then s.updSide fun y => { y with alerts := y.alerts + 1 } else s
  if lv 2 then s.emergencySave else s

def execThermalPoll (die : Nat) (temps : List Nat) (s : State) : Out :=
  let s := s.tick
  .next (if die < 2 && temps.length = 20 && !(s.die die).dead then s.thermalPoll die temps else s)

/-- ANALOG_TRIP (11 R218): every supply goes, and HBM4E contents with it; an emergency save under way stays without its completion word. Once
a save has removed the core supply, a trip changes nothing: the example of 12 R236 has every block resume (entry 30). -/
def execAnalogTrip (_die _sensor : Nat) (s : State) : Out :=
  .next (if !s.power then s.tick else { s.tick with power := false, mem := { MemState.init with peer := s.mem.peer }, saved := [] }.updSide fun x => { x with saving := false })

/-! Package reset and bring-up -/

/-- The log is complete and its arena was usable: every saved block is resumable (12 R236, R237). -/
def EmergencyLog.good (l : EmergencyLog) : Bool := l.usable && l.complete == some l.time

/-- PACKAGE_RESET: every register at its reset value. HBM4E, the sideband controller and the counters of the model's own stay; blocks
that an unread complete log covers await bring-up. -/
def State.packageReset (s : State) : State :=
  let keep := match s.host.side.log with | some l => l.good && !l.read | none => false
  { State.reset with
    mem := { MemState.init with mem := s.mem.mem, bad := s.mem.bad, disc := s.mem.disc, peer := s.mem.peer }
    die0 := { Die.init with upper := s.die0.upper, clmap := s.die0.clmap }
    die1 := { Die.init with upper := s.die1.upper, clmap := s.die1.clmap }
    saved := if keep then s.saved.filter (fun x => x.slot.isSome) else []
    cards := if keep then s.cards else []
    host := { HostIf.init with tdisp := s.host.tdisp.map (fun e => (e.1, e.2.map fun _ => .unlocked)), side := { s.host.side with response := none, linkUp := true, saving := false } }
    seq := s.seq
    fresh := s.fresh
    turn := s.turn
    agenda := s.agenda }

def execPackageReset (s : State) : Out := .next s.tick.packageReset

/-- BRING_UP_LOG_READ (12 R236, R237): once for each log. -/
def execBringUpLogRead (s : State) : Out :=
  let s := s.tick
  match s.host.side.log with
  | none => .next s
  | some l =>
    if l.read || !s.power then .next s
    else
      let out := if l.good then l.regions.filter fun e => l.unsaved.contains e.1 else l.regions
      let s := s.updSide fun x => { x with
        log := some { l with read := true }
        restartable := x.restartable ++ (out.filter (fun e => e.2)).map (fun e => e.1)
        lost := x.lost ++ (out.filter (fun e => !e.2)).map (fun e => e.1) }
      .next (if l.good then
        { s with
          saved := s.saved.filter fun x => !l.unsaved.contains x.block.dealt.region
          cards := s.cards.filter fun e => match e.2 with | some r => !l.unsaved.contains r.region | none => true }
      else { s with saved := [], cards := [] })

/-! SAVEBASE and SAVEN (12 R237) -/

/-- A saved block of the old arena is discarded: a chunk of an idempotent card starts again, another's region is reported LOST. -/
def State.dropSaved (s : State) (x : Saved) : State :=
  let d := x.block.dealt
  if cardIdem d.card then s.restart d (x.block.roles.map (·.table))
  else
    let s := s.updSide fun y => { y with lost := y.lost ++ [d.region] }
    (match s.run d.run with
    | some r => (s.setRun d.run (some { r with lostChunk := true })).leaveRun d
    | none => s).noteBusy false d.region

def State.dropArena (s : State) : State :=
  if !s.arenaUsable then s
  else
    let mine (x : Saved) : Bool := x.slot.isSome && x.base == s.regs.savebase.toNat
    (s.saved.filter mine).foldl State.dropSaved { s with saved := s.saved.filter fun x => !mine x }

def State.writeSavebase (s : State) (v : BitVec 64) : State := { s.dropArena with regs := { s.regs with savebase := v } }
def State.writeSaven (s : State) (v : BitVec 32) : State := { s.dropArena with regs := { s.regs with saven := v } }

def execSavebaseWrite (v : BitVec 64) (s : State) : Out := .next (s.tick.writeSavebase v)
def execSavenWrite (v : BitVec 32) (s : State) : Out := .next (s.tick.writeSaven v)

end Sys2Proof.Machine
end

