-- ==== Sys2Proof/Machine/Mgmt.lean ====
section
/-! DEFINITION. The host interface, TDISP and ingest windows (13 R243 to R249), FRESUME (12 R228, R229), region reset (12 R238,
R239), die fatal errors (12 R240), soft errors (12 R241, R242), and the writes that make the device read its tables (02 R23, 10 R187). -/

namespace Sys2Proof.Machine

/-! FRESUME (12 R228, R229) -/

/-- What a parked party keeps. -/
def State.parkOf (s : State) (w : Who) : Option TrapInfo :=
  match w.party with
  | .front b => ((s.block w.core b).bind (·.front)).bind (·.park)
  | .matrix b => ((s.block w.core b).bind (·.matrix)).bind (·.park)
  | _ => (s.warp w).bind (·.park)

/-- The parked party that FRESUME names: of a core's landing slot where the warp there came from the slot. -/
def State.fresumeParty (s : State) (v : BitVec 32) : Option (Who × TrapInfo) :=
  let core := 112 * fld 7 1 v + fld 0 7 v
  let slot := fld 8 6 v
  let landed : Bool := match (s.core core).landing with
    | some x => (x.origin.map (·.2)) == some slot && x.park.isSome
    | none => false
  let w : Option Who := match fld 14 2 v with
    | 0 => some ⟨core, if landed then .landing else .warp slot⟩
    | 1 => some ⟨core, .front slot⟩
    | 2 => some ⟨core, .matrix slot⟩
    | _ => none
  if fld 0 7 v ≥ 112 then none else w.bind fun w => (s.parkOf w).map fun i => (w, i)

/-- The pages of a party's CLAIM are its own no more. -/
def State.dropMoving (s : State) (w : Who) : State := { s with mem := { s.mem with moving := s.mem.moving.filter (·.who != w) } }

/-- Replay: the trapping word again, or the log entry. An entry that must wait is replayed by the device once it can be. -/
def State.replayParty (s : State) (w : Who) (i : TrapInfo) : State :=
  let s := (if i.claim.isSome then s.dropMoving w else s).unpark w i false
  match i.log with
  | none => s
  | some ix =>
    match s.replayLog w.core ix with
    | some s => s
    | none => s.setLog w.core ix ((s.logEnt w.core ix).map fun (e : LogEnt) => { e with cause := .migrating })

/-- Resume: after the trapping word. A CLAIM whose leaves system software has rewritten completes (12 R229). -/
def State.resumeParty (s : State) (w : Who) (i : TrapInfo) : State :=
  let s := match i.claim with
    | some (asid, lo, len) => (s.rehome w asid lo len false).sweepLogs
    | none => s
  let s := match i.log with
    | some ix => s.freeEntry w.core ix
    | none => s
  s.unpark w i true

/-- Kill: EXIT of every lane of a warp, EXIT of a front end, MEND of a matrix stream. -/
def State.killParty (s : State) (w : Who) : State :=
  let s := (s.drain w).dropMoving w
  match w.party with
  | .front b => (s.withdraw w).updFront w.core b fun x => { x with ended := true, park := none, clause := none }
  | .matrix b => s.endMatrix w.core b
  | _ => s.endWarp w

/-! Requests of the host (13 R243, R245) -/

def State.tdisp (s : State) (f : Nat) : Option Tdisp := Tbl.get none s.host.tdisp f
def State.setTdisp (s : State) (f : Nat) (x : Tdisp) : State :=
  { s with host := { s.host with tdisp := Tbl.set none s.host.tdisp f (some x) } }

/-- What becomes of a request through a function: taken, dropped, or an error of the interface. -/
inductive Gate | pass | drop | error
  deriving DecidableEq, Repr

/-- A request that function f's selective IDE stream carries. -/
def State.inStream (s : State) (f : Nat) (stream : Option Nat) : Bool :=
  match stream with
  | some k => Tbl.get none s.host.streams k == some f
  | none => false

/-- A function's posts and ingest writes (13 Table 2), and with `window` its accesses of the register window, which only ERROR drops. -/
def State.gate (s : State) (window : Bool) (f : Nat) (stream : Option Nat) : Gate :=
  if f ≥ 64 || !s.host.up || s.die0.dead then .drop
  else match s.tdisp f with
    | none => .pass
    | some .run => if s.inStream f stream then .pass else .error
    | some .error => .drop
    | some _ => if window then .pass else .drop

/-- A function reaches a region: its own or a descendant (13 R243). -/
def State.reaches (s : State) (f r : Nat) : Bool := s.isAncestor (s.funcRegion f) r
/-- A function reaches a fault domain: that of a region that it reaches. -/
def State.reachesDomain (s : State) (f fdom : Nat) : Bool :=
  s.effFdom (s.funcRegion f) == fdom || (s.regions.map (·.1)).any fun r => s.effFdom r == fdom && s.reaches f r

/-! Region reset (12 R238, R239) -/

/-- A run of the domain is gone: no done counter. Its cards leave their queues. -/
def State.clearQueues (s : State) (fdom : Nat) : State :=
  let s := (s.queues.map (·.1)).foldl (fun s q =>
    if s.effFdom (s.queue q).region = fdom && !(s.queue q).cards.isEmpty then (s.setQueue q { s.queue q with cards := [] }).writeFree q
    else s) s
  { s with cards := s.cards.filter fun e => match e.2 with | some r => s.effFdom r.region != fdom | none => false }

/-- Every block of the domain stops at once; one that awaits placement goes. -/
def State.clearBlocks (s : State) (fdom : Nat) : State :=
  let s := (s.allBlocks.filter fun e => e.2.2.dealt.fdom == fdom).foldl (fun s e =>
    match s.removeBlock e.1 e.2.1 with
    | some (_, s) => s.settleClass (clusterOf e.1)
    | none => s) s
  { s with saved := s.saved.filter fun x => s.effFdom x.block.dealt.region != fdom }

/-- The domain's address spaces: of its regions, and of the blocks it had. -/
def State.domainAsids (s : State) (fdom : Nat) : List Nat :=
  ((s.allBlocks.filter fun e => e.2.2.dealt.fdom == fdom).map (·.2.2.dealt.asid)) ++
  ((s.regions.map (·.1)).filter fun r => s.effFdom r == fdom).map s.effAsid

/-- REGION_RESET of a fault domain starts. -/
def State.startReset (s : State) (fdom : Nat) : State :=
  let asids := s.domainAsids fdom
  let s := (s.clearBlocks fdom).clearQueues fdom
  let s := (s.tlbDrop fun t => asids.contains t.asid).noteAll
  if s.resets.any (·.fdom == fdom) then s else { s with resets := s.resets ++ [⟨fdom, s.tref.toNat⟩] }

/-- TDISP_ERROR: the interface is in ERROR, and a region reset of the function's fault domain starts. -/
def State.tdispError (s : State) (f : Nat) : State := (s.setTdisp f .error).startReset (s.effFdom (s.funcRegion f))

/-- A write of a register that the window shows: the host's takes effect where its function's gate lets it pass and the function reaches the
resource. -/
def State.viaWindow (s : State) (via : Via) (reach : Nat → Bool) (k : State → State) : State :=
  match via with
  | .soft => k s
  | .host f stream =>
    match s.gate true f stream with
    | .drop => s
    | .error => s.tdispError f
    | .pass => if reach f then k s else s

/-- FRESUME of the party that the value names, which the function must reach. -/
def State.fresumeBy (s : State) (x : RegWrite 32) (k : State → Who → TrapInfo → State) : State :=
  match s.fresumeParty x.v with
  | some (w, i) => s.viaWindow x.via (fun f => match s.blockOf w with | some b => s.reaches f b.dealt.region | none => false) fun s => k s w i
  | none => s

def execFresumeReplay (w : RegWrite 32) (s : State) : Out := .next (s.tick.fresumeBy w State.replayParty)
def execFresumeResume (w : RegWrite 32) (s : State) : Out := .next (s.tick.fresumeBy w State.resumeParty)
def execFresumeKill (w : RegWrite 32) (s : State) : Out := .next (s.tick.fresumeBy w fun s w _ => s.killParty w)

/-- FRESUME by the action field; 11 names none. -/
def State.writeFresume (s : State) (v : BitVec 32) : State :=
  match fld 16 2 v, s.fresumeParty v with
  | 0, some (w, i) => s.replayParty w i
  | 1, some (w, i) => s.resumeParty w i
  | 2, some (w, _) => s.killParty w
  | _, _ => s

/-- WATCHDOG_FIRE (12 R238): the region has been busy for a whole WDOG period, in milliseconds. -/
def execWatchdogFire (region : Nat) (s : State) : Out :=
  let s := s.tick
  match (s.region region).busySince with
  | none => .next s
  | some t =>
    if !s.busy region then .next (s.noteBusy false region)
    else if s.effWdog region = 0 || s.tref.toNat < t + 1000000 * s.effWdog region then .next s
    else .next ((s.setRegion region { s.region region with busySince := some s.tref.toNat }).startReset (s.effFdom region))

def execRreset (v : BitVec 32) (s : State) : Out := .next (s.tick.startReset (fld 0 16 v))

/-- The functions that reach a region of a domain (13 R243). -/
def State.raiseDomain (s : State) (vector fdom : Nat) : State :=
  (List.range 64).foldl (fun s f =>
    if s.reachesDomain f fdom then
      { s with host := { s.host with msix := Tbl.upd 0 s.host.msix (3 * f + vector) (· + 1) } }
    else s) s

/-- REGION_RESET_DONE: RSTDONE and the reset interrupt. -/
def execRegionResetDone (fdom : Nat) (s : State) : Out :=
  let s := s.tick
  if !(s.resets.any fun z => z.fdom == fdom) then .next s
  else
    let bits := Tbl.upd 0 s.regs.rstdone (fdom / 32) (· ||| (1#32 <<< (fdom % 32)))
    .next (({ s with resets := s.resets.filter (·.fdom != fdom), regs := { s.regs with rstdone := bits } }).raiseDomain 1 fdom)

/-! TDISP (13 R245, R246) -/

/-- The functions whose items are frozen. -/
def State.frozen (s : State) : List Nat :=
  (List.range 64).filter fun f => match s.tdisp f with | some .locked | some .run => true | _ => false

def execLockInterface (f : Nat) (s : State) : Out :=
  let s := s.tick
  .next (match s.tdisp f with
    | none | some .unlocked => if f < 64 then s.setTdisp f .locked else s
    | _ => s)

def execStartInterface (f : Nat) (s : State) : Out :=
  let s := s.tick
  .next (match s.tdisp f with | some .locked => s.setTdisp f .run | _ => s)

def execStopInterface (f : Nat) (s : State) : Out :=
  let s := s.tick
  .next (if (s.tdisp f).isSome then s.setTdisp f .unlocked else s)

/-- A BAR register and an MSI-X table entry of a function. -/
def State.bar (s : State) (f b : Nat) : DWord := Tbl.get 0 s.host.bars (8 * f + b)
def State.msixEntry (s : State) (f v : Nat) : BitVec 128 := Tbl.get 0 s.host.msixTab (3 * f + v)

/-- The size of a BAR (13 Table 1); 0: the function has none of that number. -/
def barSize (b : Nat) : Nat := if b = 0 then 2 ^ 16 else if b = 2 then 2 ^ 23 else if b = 4 then 2 ^ 30 else 0

/-- The frozen items of a function, in the order in which R245 lists them; of the queues and windows that it reaches, those that the device has
read. DESIGN CHOICE (entry 15): the spec gives no serialisation. -/
def State.frozenBytes (s : State) (f : Nat) : List Byte :=
  ([0, 2, 4].flatMap fun b => bytesOf 8 (s.bar f b).toNat) ++ ((List.range 3).flatMap fun v => bytesOf 16 (s.msixEntry f v).toNat) ++
  bytesOf 2 (s.funcRegion f) ++
  (s.queues.flatMap fun (q, x) => match x.entry with
    | some e => if s.reaches f (fld 68 12 e) then bytesOf 4 q ++ bytesOf 2 (fld 68 12 e) ++ bytesOf 1 (fld 83 2 e) else []
    | none => []) ++
  s.host.ingest.flatMap fun (w, x) => match x.desc with
    | some d => if s.reaches f (fld 69 12 d) then bytesOf 1 w ++ bytesOf 64 d.toNat else []
    | none => []

/-- The interface report (13 R246): its digest changes with any frozen item. DEDUCED (entry 15): it is available in RUN as well. -/
def State.report (s : State) (f : Nat) : Option Report :=
  if s.frozen.contains f then
    some ⟨[(s.bar f 0, barSize 0, .window), (s.bar f 2, barSize 2, .queues), (s.bar f 4, barSize 4, .ingest)],
      s.funcRegion f, s.effFdom (s.funcRegion f), Config.isaver, sha256 (s.frozenBytes f)⟩
  else none

/-- A write of a BAR register or of an MSI-X table entry: of a frozen function, an error of the interface. -/
def State.writeFrozen (s : State) (f : Nat) (k : HostIf → HostIf) : State :=
  if f ≥ 64 || !s.host.up || s.die0.dead then s
  else match s.tdisp f with
    | none | some .unlocked => { s with host := k s.host }
    | some .error => s
    | some _ => s.tdispError f

/-- HOST_INTERFACE_RESET: going down resets the functions. -/
def execHostInterfaceReset (up : Bool) (s : State) : Out :=
  let s := s.tick
  .next { s with host := if up then { s.host with up := true } else { s.host with
      up := false, bars := [], msixTab := [], streams := []
      tdisp := s.host.tdisp.map fun e => (e.1, e.2.map fun _ => .unlocked)
      ingest := s.host.ingest.map fun e => (e.1, { e.2 with waiting := [] }) } }

/-! Queues (10 R187, R189) -/

/-- Functions whose frozen queue fields REGION, EN and HOST a new entry would change. -/
def State.queueFrozen (s : State) (q : Nat) : List Nat :=
  match (s.queue q).entry with
  | none => []
  | some e =>
    let n := s.entryInMemory q
    if fld 68 12 e = fld 68 12 n && fld 83 2 e = fld 83 2 n then []
    else s.frozen.filter fun f => s.reaches f (fld 68 12 e)

/-- QSYNC: the device reads and checks the entry. A changed frozen field is an error of its interface and is not taken. -/
def State.writeQsync (s : State) (v : BitVec 32) : State :=
  let q := fld 0 16 v
  match s.queueFrozen q with
  | [] => ((s.readQueue q).writeFree q).noteAll
  | fs => fs.foldl State.tdispError s

def execQsync (v : BitVec 32) (s : State) : Out := .next (s.tick.writeQsync v)

def execRcbsync (v : BitVec 32) (s : State) : Out := .next (s.tick.syncRegion (fld 0 12 v))

/-- A dropped host post is counted in DROPS. -/
def State.countDrop (s : State) (q : Nat) : State :=
  let a := s.regs.qtab.toNat + 32 * q + 20
  s.gaStore 224 a (bytesOf 4 (natOf (s.homeBytes a 4) + 1))

/-- HOST_POST (10 R189, 13 R243). -/
def State.hostEnqueue (s : State) (f q : Nat) (data : List Byte) : State :=
  if q ≥ 65536 then s
  else
    let s := s.useQueue q
    let x := s.queue q
    if !s.reaches f x.region then s
    else
      let card := BitVec.ofNat 1024 (natOf data)
      if data.length = 128 && cardDepth card = 0 && x.hostOpen then (s.enqueue q card none).getD (s.countDrop q) else s.countDrop q

/-- What the host reads of a resource: none outside the function's regions. The fault queue holds records of every region, and is reached from
region 0 alone (DEDUCED, entry 15). RSTDONE shows a domain out of reach as 1. The spec states no value of FRESUME or of an aperture: free. -/
def State.readRes (s : State) (f : Nat) (r : WinRes) : Option DWord :=
  let root (v : Nat) : Option DWord := if s.funcRegion f = 0 then some (BitVec.ofNat 64 v) else none
  match r with
  | .fresume => some (s.freeAt 1 (2 ^ 61))
  | .fqbase => root s.regs.fqbase.toNat
  | .fqsize => root s.regs.fqsize.toNat
  | .fqhead => root s.regs.fqhead.toNat
  | .fqtail => root s.regs.fqtail.toNat
  | .fqdrop => root s.regs.fqdrop.toNat
  | .rstdone i => some ((Tbl.get 0 s.regs.rstdone i ||| maskOf 32 fun k => !s.reachesDomain f (32 * i + k)).setWidth 64)
  | .ingcnt w => if s.reaches f (s.ingest w).region then some (s.ingest w).count else none
  | .queue q off => if s.reaches f (s.queue q).region then some (s.freeAt 1 (2 ^ 61 + 1 + off)) else none
  | .ingest w off => if s.reaches f (s.ingest w).region then some (s.freeAt 1 (2 ^ 61 + 1 + off)) else none

/-- A host read: all ones where the function does not reach the resource, or its interface is in ERROR (13 R243, Table 2). -/
def State.hostRead (s : State) (f : Nat) (stream : Option Nat) (r : WinRes) : State :=
  let give (s : State) (v : DWord) : State := { s with host := { s.host with read := v } }
  if f ≥ 64 || !s.host.up || s.die0.dead then s
  else match s.gate true f stream with
    | .pass => match r with
      | .queue q _ => let s := s.useQueue q; give s ((s.readRes f r).getD (BitVec.allOnes 64))
      | _ => give s ((s.readRes f r).getD (BitVec.allOnes 64))
    | .drop => give s (BitVec.allOnes 64)
    | .error => give (s.tdispError f) (BitVec.allOnes 64)

/-- A request through function f. A selective IDE stream serves one function (13 R245). -/
def execHostPost (f : Nat) (stream : Option Nat) (t : Tlp) (data : List Byte) (s : State) : Out :=
  let s := s.tick
  .next (match t with
    | .post q =>
      match s.gate false f stream with
      | .drop => s
      | .error => s.tdispError f
      | .pass => s.hostEnqueue f q data
    | .read r => s.hostRead f stream r
    | .bar b => if barSize b = 0 then s else s.writeFrozen f fun h =>
        { h with bars := Tbl.set 0 h.bars (8 * f + b) (BitVec.ofNat 64 (natOf data) &&& ~~~BitVec.ofNat 64 (barSize b - 1)) }
    | .msix v => if v < 3 then s.writeFrozen f fun h =>
        { h with msixTab := Tbl.set 0 h.msixTab (3 * f + v) (BitVec.ofNat 128 (natOf data)) } else s
    | .ideStream k =>
      if k < 64 && f < 64 && (Tbl.get none s.host.streams k).isNone then
        { s with host := { s.host with streams := Tbl.set none s.host.streams k (some f) } }
      else s)

/-! Ingest (13 R247, R248) -/

/-- INGSYNC: a changed descriptor of a frozen interface is an error and is not taken. -/
def State.writeIngsync (s : State) (v : BitVec 32) : State :=
  let w := fld 0 6 v
  let x := s.ingest w
  let n := BitVec.ofNat 512 (natOf (s.homeBytes (s.regs.ingtab.toNat + 64 * w) 64))
  let fs := if x.desc.isNone || x.desc == some n then [] else s.frozen.filter fun f => s.reaches f x.region
  if fs.isEmpty then s.readIngest w else fs.foldl State.tdispError s

def execIngsync (v : BitVec 32) (s : State) : Out := .next (s.tick.writeIngsync v)

/-- INGEST_WRITE (13 R248, R249): while its window withholds credit a write waits, and keeps its place. -/
def execIngestWrite (f w off req : Nat) (stream : Option Nat) (data : List Byte) (s : State) : Out :=
  let s := s.tick
  if w ≥ 64 || off ≥ 2 ^ 24 then .next s
  else match s.gate false f stream with
    | .drop => .next s
    | .error => .next (s.tdispError f)
    | .pass =>
      let s := if (s.ingest w).desc.isSome then s else s.readIngest w
      let x := s.ingest w
      if !flag 97 x.word || !s.reaches f x.region then .next s
      else .next (State.serveIngest w (x.waiting.length + 2) (s.setIngest w { x with waiting := x.waiting ++ [(req, off, data)] }))

/-! Die fatal errors (12 R240, 21 R330) -/

/-- A chunk is withdrawn from the phases of its card's barriers that have waiters (21 R330). -/
def CardBar.withdraw (y : CardBar) (num : Nat) : CardBar :=
  if y.arrived.isEmpty then y
  else
    let a := Tbl.drop y.arrived fun k => k / 33 == num
    if a.isEmpty then { y with scope := none, arrived := [] } else { y with arrived := a, gone := num :: y.gone }

/-- A lost block: an idempotent card's chunk is placed again; another card never completes, and its loss is reported. -/
def State.loseBlock (s : State) (core slot : Nat) : State :=
  match s.block core slot with
  | none => s
  | some b =>
    let d := b.dealt
    match s.removeBlock core slot with
    | none => s
    | some (_, s) =>
      let s := match s.run d.run with
        | some r => s.setRun d.run (some { r with bars := r.bars.map fun (e : Nat × Option CardBar) => (e.1, e.2.map (CardBar.withdraw · d.num)) })
        | none => s
      if cardIdem d.card then (s.restart d (b.roles.map fun (x : Roles) => x.table)).settleBars d.run
      else
        let s := s.postDevice 4 .peerLost d.cardId 0 d.cardId 0 0 d.region
        match s.run d.run with
        | some r => (s.setRun d.run (some { r with lostChunk := true, peerLost := true })).leaveRun d
        | none => s

/-- The blocks that a die takes with it: its own, and those with a warp away on it, which is lost (DEDUCED, entry 21: a block that has lost a
warp is lost). -/
def State.blocksOn (s : State) (d : Nat) : List (Nat × Nat) :=
  (s.allBlocks.filter fun e => dieOf e.1 == d || (s.blockWarps e.1 e.2.1).any fun p => dieOf p.1.core == d).map fun e => (e.1, e.2.1)

/-- A message that a dead die will not acknowledge, or that it sent: its line is poisoned (09 R175). -/
def State.loseDieMsgs (s : State) (d : Nat) : State :=
  let dead (m : Msg) : Bool := m.die == d || (match m.kind with
    | .ga => (match s.gaEntry m with | some e => e.home == d | none => true) || (linesOf m.addr m.bytes.length).any (s.mem.guests d).contains
    | _ => true)
  let gone := s.mem.msgs.filter dead
  let s := { s with mem := { s.mem with msgs := s.mem.msgs.filter fun m => !dead m } }
  gone.foldl (fun s m =>
    (match m.kind with
     | .ef => s.clearView m
     | .inval => { s with mem := s.mem.freshen (1 - m.die) m.addr m.bytes.length }
     | .ga | .gaAck => s).loseStore m) s

/-- The GA stores of a queue that await an acknowledgement of a dead die are lost, those not sent yet as well (19 R287, Table 5). -/
def State.loseDieStores (s : State) (d : Nat) (w : Who) : State :=
  ((s.flight w).sq.ents.filter fun e => e.ga && !e.scratch && !e.done && !e.acked && !e.lost && s.crosses w e).foldl (fun s e =>
    if dieOf w.core = d || (s.flight w).sq.ents.any (fun x => x.age == e.age && x.lost) then s else s.loseGa w e) s

/-- The parties of the package. -/
def State.parties (s : State) : List Who := s.allBlocks.flatMap fun e => s.blockParties e.1 e.2.1

/-- DIE_FATAL_ERROR: what the surviving die does. The copies that the dead die held stay on record: a later GA store to one of their lines finds
no acknowledgement (19 R287, Table 5; entry 21). -/
def State.dieFatal (s : State) (d : Nat) : State :=
  let s := s.setDie d { s.die d with dead := true }
  let s := s.parties.foldl (fun s w => s.loseDieStores d w) (s.loseDieMsgs d)
  let s := ((s.blocksOn d).foldl (fun s e => s.loseBlock e.1 e.2) s).loseDieMsgs d
  { s.dropLoans.noteAll with loan := none }

/-- A die's fatal error; where the bridge link has failed to retrain, each die has one and treats the other as dead: the two go on apart, each as
the survivor of its own run (DEDUCED, entry 21). -/
def execDieFatalError (die : Nat) (s : State) : Out :=
  let s := s.tick
  let report (s : State) (l : List Nat) : State := s.updSide fun x => { x with dieErrors := x.dieErrors ++ l }
  .next (if die < 2 then (if (s.die die).dead then s else report (s.dieFatal die) [die])
    else if die < 4 && !s.die0.dead && !s.die1.dead then report (s.dieFatal (3 - die)) [0, 1] else s)

/-! Soft errors (12 R241, R242; 07 R133) -/

/-- A count of 8 bits that saturates. -/
def satByte (v : Word) (unit : Nat) : Word := setFld (8 * unit) 8 (min 255 (fld (8 * unit) 8 v + 1)) v

def execEccCorrected (die : Nat) (unit : Nat) (s : State) : Out :=
  let s := s.tick
  .next (if die < 2 && unit < 4 then s.setDie die { s.die die with eccCor := satByte (s.die die).eccCor unit } else s)

/-- The block whose matrix stream has the engine of a core. -/
def State.engineBlock (s : State) (core : Nat) : Option Nat :=
  (s.core core).blocks.findSome? fun (b, x) => x.bind fun x => if x.matrix.isSome then some b else none

/-- The unit that an uncorrectable error of a die strikes is poisoned, and its counter (12 R242). A guest copy in L2 is that die's own. DESIGN
CHOICE (entry 33). -/
def State.poisonSite (s : State) (die : Nat) : EccSite → State × Nat
  | .frame w r l => (s.updWarp w fun x => { x with bad := Tbl.set false x.bad (32 * r + l) true }, 0)
  | .cache w r l => (s.updWarp w fun x =>
      if x.oc.any (·.name == r) then { x with ocBad := Tbl.set false x.ocBad (32 * r + l) true } else x, 0)
  | .scratch core b k => (s.updBlock core b fun x => { x with scratch := { x.scratch with bad := Tbl.set false x.scratch.bad k true } }, 0)
  | .header w l k => (s.updWarp w fun x =>
      if l < 32 && k < 16 then { x with hdrBad := Tbl.set false x.hdrBad (16 * l + k) true } else x, 0)
  | .l1 core k => (s.updCore core fun x =>
      if x.l1.lines.contains (k / 32) then { x with l1 := { x.l1 with bad := Tbl.set false x.l1.bad k true } } else x, 0)
  | .l2 k => (if (s.mem.guests die).contains (k / 4) then { s with mem := s.mem.setGbad die (Tbl.set false (s.mem.gbad die) k true) }
      else { s with mem := { s.mem with bad := Tbl.set false s.mem.bad k true } }, 1)
  | .hbm k => ({ s with mem := { s.mem with bad := Tbl.set false s.mem.bad k true } }, 2)
  | .acc core a => (match s.engineBlock core with
      | some b => s.updMatrix core b fun m => { m with accBad := Tbl.set false m.accBad a true }
      | none => s, 3)
  | .array core kq nq => (match s.engineBlock core with
      | some b => s.updMatrix core b fun m => { m with tile := m.tile.map fun t => { t with bad := (kq, nq) :: t.bad } }
      | none => s, 3)

def execEccUncorrectable (die : Nat) (site : EccSite) (s : State) : Out :=
  let s := s.tick
  if die ≥ 2 then .next s
  else
    let (s, unit) := s.poisonSite die site
    .next (s.setDie die { s.die die with eccUnc := satByte (s.die die).eccUnc unit })

/-! Statistics and the host's fault queue -/

def execStatcClear (region cls : Nat) (s : State) : Out := .next (if cls < 6 then s.tick.clearStat region cls else s.tick)

/-- FQHEAD: a write that would make the queue hold more than it can is ignored (12 R230). -/
def State.writeFqhead (s : State) (v : BitVec 32) : State :=
  let log := if 4 ≤ fld 0 5 s.regs.fqsize && fld 0 5 s.regs.fqsize ≤ 16 then fld 0 5 s.regs.fqsize else 4
  let h := v.extractLsb' 0 17
  if (s.regs.fqtail - h).toNat > 2 ^ log then s else { s with regs := { s.regs with fqhead := h } }

def execFqheadWrite (w : RegWrite 32) (s : State) : Out :=
  .next (s.tick.viaWindow w.via (fun f => s.funcRegion f == 0) fun s => s.writeFqhead w.v)

/-! CLASSMAP (10 R200) -/

/-- A cluster takes its target at once when no block runs on it, else when its last block ends. -/
def State.retarget (s : State) (c t : Nat) : State :=
  let x := s.cluster c
  if t = 3 || t = x.cls then (if x.target.isNone then s else s.setCluster c { x with target := none })
  else (s.setCluster c { x with target := some t }).settleClass c

def State.writeClassmap (s : State) (v : BitVec 64) : State :=
  let v := v &&& 0x00FFFFFFFFFFFFFF
  (List.range 28).foldl (fun s c => s.retarget c (fld (2 * c) 2 v)) { s with regs := { s.regs with classmap := v } }

def execClassmapWrite (v : BitVec 64) (s : State) : Out := .next (s.tick.writeClassmap v)

end Sys2Proof.Machine
end

