-- ==== Sys2Proof/Machine/System.lean ====
section
/-! DEFINITION. The words of 05 Table 12: special registers (23 R384 to R386, 11 R213), TIME (23 R390), ERET (22 R312), TLBINV (23 R391),
PROBE (22 R366, R367), WSAVE and WLOAD (23 R395, R396); and the sideband port's registers and requests (13 R253). -/

namespace Sys2Proof.Machine

/-! Reading special registers -/

/-- POOLCAP (01 Table 1). -/
def State.poolcap (s : State) (d : Nat) : Word := if (s.die d).upper then 6144 + 64 * 2 ^ 16 + 2 ^ 23 else 3072 + 32 * 2 ^ 16

/-- MINTSTAT.LOAN (11 R213). -/
def State.loanField (s : State) (d : Nat) : Nat :=
  match s.loan with
  | none => 0
  | some l => if (s.die d).mint.loan = 0 then 0 else (if d = l.lender then 1 else 2) + if l.repay then 2 else 0

/-- The registers of 11 Table 1 but TOKBAL, as a core reaches them. -/
def State.powerReg (s : State) (core id : Nat) : Nat :=
  let d := dieOf core
  let x := s.die d
  match id with
  | 0x0011 => (s.cluster (clusterOf core)).droopCnt.toNat
  | 0x0050 => x.mintCfg.toNat
  | 0x0051 => x.reff + 2 ^ 14 * s.loanField d + 2 ^ 17 * x.mint.cut + (if s.host.side.linkUp then 2 ^ 20 else 0)
  | 0x0052 => x.mint.tokRet % 2 ^ 21
  | 0x0053 => x.tokCap.toNat
  | 0x0054 => x.headThr.toNat
  | 0x0055 => (s.cluster (clusterOf core)).droopCfg.toNat
  | 0x0056 => x.thermCfg.toNat
  | 0x0057 => x.thermHys.toNat
  | 0x0058 => x.hot + 2 ^ 8 * x.sensor + 2 ^ 13 * x.level.toNat
  | _ => 0

/-- TOKBAL (11 R213): the reader's region account. -/
def State.tokbal (s : State) (core region : Nat) : Nat :=
  (s.core core).tokens.balance region + (if (s.core core).tokens.hold.isSome then 2 ^ 13 else 0) +
    if (s.cluster (clusterOf core)).window then 2 ^ 14 else 0

/-- The registers of package scope, of a die and of a region (23 Table 7). -/
def State.pkgReg (s : State) (core id idx : Nat) : Nat :=
  let r := s.regs
  match id with
  | 0x0000 => Config.isaver.toNat
  | 0x0001 => (s.poolcap (dieOf core)).toNat
  | 0x0012 => (s.core core).pfiss.toNat
  | 0x0013 => (s.core core).pfused.toNat
  | 0x0014 => (s.core core).pflate.toNat
  | 0x0015 => (s.core core).pfevict.toNat
  | 0x0030 => r.regtab.toNat
  | 0x0032 => r.astab.toNat
  | 0x0033 => r.qtab.toNat
  | 0x0035 => r.classmap.toNat
  | 0x0036 => r.savebase.toNat
  | 0x0037 => r.saven.toNat
  | 0x0039 => (Tbl.get 0 r.rstdone idx).toNat
  | 0x0040 => r.fqbase.toNat
  | 0x0041 => r.fqsize.toNat
  | 0x0042 => r.fqhead.toNat
  | 0x0043 => r.fqtail.toNat
  | 0x0044 => r.fqdrop.toNat
  | 0x0048 => (s.die (dieOf core)).eccCor.toNat
  | 0x0049 => (s.die (dieOf core)).eccUnc.toNat
  | 0x0060 => (Tbl.get 0 r.funcmap idx).toNat
  | 0x0061 => r.ingtab.toNat
  | 0x0063 => (Tbl.get 0 r.peermap idx).toNat
  | 0x0068 => (s.region idx).trBase.toNat
  | 0x0069 => (s.region idx).trSize.toNat
  | 0x006A => (s.region idx).trCtl.toNat
  | _ => s.powerReg core id

/-- A register as a lane of a word reads it. -/
def State.readReg (s : State) (c : Ctx) (id idx l : Nat) : DWord :=
  let w := s.warp c.who
  let d := c.blk.dealt
  BitVec.ofNat 64 (match id with
  | 0x0002 => l
  | 0x0003 => (w.map (·.wid)).getD 0
  | 0x0004 => d.lo
  | 0x0005 => d.hi
  | 0x0006 => d.num
  | 0x0007 => (w.map (·.role)).getD 0
  | 0x0008 => ((match w with | some x => x.srseed[l]? | none => none).getD 0).toNat
  | 0x0009 => c.blk.msrseed.toNat
  | 0x000A => (match w with | some x => x.mctab.toNat | none => 0)
  | 0x0010 => s.tokbal c.who.core d.region
  | _ =>
    if 0x0020 ≤ id ∧ id ≤ 0x0025 then (Tbl.get Stat.init (s.region d.region).stats (id - 0x0020)).count.toNat
    else if 0x0028 ≤ id ∧ id ≤ 0x002F then fld (64 * (id - 0x0028)) 64 ((w.map (·.frec)).getD 0)
    else s.pkgReg c.who.core id idx)

/-- Whether a level of privilege holds (05 R97, 23 R384). -/
def State.mayUse (s : State) (c : Ctx) : Priv → Bool
  | .any => true
  | .handler => s.atHandler c.who
  | .region0 => s.atHandler c.who && c.blk.dealt.region == 0
  | .never => false

/-- The traps of special-register words after the issue checks (23 R385): the privilege, then a migrated warp's block scope. -/
def State.sregStop (s : State) (c : Ctx) (r : SReg) (allowed : Bool) (id : BitVec 16) : Option TrapArgs :=
  if !allowed then some (TrapArgs.of .privDeny 0 id.toNat c.exec)
  else if r.scope == .block && s.migrated c.who then some (TrapArgs.of .migScope 0 0 c.exec)
  else none

def execSread (d : BitVec 8) (g : Guard) (id idx : BitVec 16) (s : State) : Out :=
  s.issue (.sread d g id idx) 0xB0 g fun c s =>
    match sreg id.toNat with
    | none => .left s
    | some r =>
      match s.sregStop c r (s.mayUse c r.rd) id with
      | some t => .trap s t
      | none =>
        let v (l : Nat) : DWord := s.readReg c id.toNat idx.toNat l
        .done (if r.w64 then s.put64 c c.exec d.toNat v else s.put c c.exec d.toNat v) .go

/-! Writing special registers -/

/-- Fields that a write of 11 Table 1 changes; THERMCFG is ignored as a whole unless T1 < T2 < T3 ≤ 115. -/
def State.writePower (s : State) (core id : Nat) (v : Word) : State :=
  let d := dieOf core
  let x := s.die d
  let c := clusterOf core
  match id with
  | 0x0011 => s.clearDroop c
  | 0x0050 => s.setDie d { x with mintCfg := v &&& 0x00FFFFFF#32 }
  | 0x0053 => s.writeTokcap d v
  | 0x0054 => s.setDie d { x with headThr := v &&& 0xFF#32 }
  | 0x0055 => s.setCluster c { s.cluster c with droopCfg := v &&& 0x7FFFF#32 }
  | 0x0056 => if fld 0 8 v < fld 8 8 v && fld 8 8 v < fld 16 8 v && fld 16 8 v ≤ 115 then s.setDie d { x with thermCfg := v &&& 0x00FFFFFF#32 } else s
  | 0x0057 => s.setDie d { x with thermHys := v &&& 0xFFF#32 }
  | _ => s

/-- FUNCMAP word i: a change of a frozen function's entry is an error of its interface and is not taken (13 R245). -/
def State.writeFuncmap (s : State) (i : Nat) (v : Word) : State :=
  let t : State := { s with regs := { s.regs with funcmap := Tbl.set 0 s.regs.funcmap i v } }
  match s.frozen.filter fun f => s.funcRegion f != t.funcRegion f with
  | [] => t
  | fs => fs.foldl State.tdispError s

/-- The trace registers of a region (13 R257): a write starts the trace at its first entry. -/
def State.writeTrace (s : State) (id r : Nat) (v : DWord) : State :=
  let x := { s.region r with trPos := 0 }
  s.setRegion r (match id with
    | 0x0068 => { x with trBase := v }
    | 0x0069 => { x with trSize := v.setWidth 32 }
    | _ => { x with trCtl := (v.setWidth 32) &&& 7#32 })

/-- A write of a register that has no behaviour of its own (23 R384): reserved bits stay zero. DESIGN CHOICE (entry 22): REGTAB, ASTAB, QTAB and INGTAB
keep their low bits as they are written, and the table stands from that address on: the spec asks for an aligned one and states no result of
another. -/
def State.writePlain (s : State) (core id idx : Nat) (v : DWord) : State :=
  let w : Word := v.setWidth 32
  let upd (r : PkgRegs) : State := { s with regs := r }
  let r := s.regs
  match id with
  | 0x0012 => s.updCore core fun k => { k with pfiss := 0 }
  | 0x0013 => s.updCore core fun k => { k with pfused := 0 }
  | 0x0014 => s.updCore core fun k => { k with pflate := 0 }
  | 0x0015 => s.updCore core fun k => { k with pfevict := 0 }
  | 0x0030 => upd { r with regtab := v }
  | 0x0032 => upd { r with astab := v }
  | 0x0033 => upd { r with qtab := v }
  | 0x0039 => upd { r with rstdone := Tbl.upd 0 r.rstdone idx (· &&& ~~~w) }
  | 0x0040 => upd { r with fqbase := v &&& ~~~63#64 }
  | 0x0041 => upd { r with fqsize := w &&& 31#32 }
  | 0x0044 => upd { r with fqdrop := 0 }
  | 0x0048 => s.setDie (dieOf core) { s.die (dieOf core) with eccCor := 0 }
  | 0x0049 => s.setDie (dieOf core) { s.die (dieOf core) with eccUnc := 0 }
  | 0x0060 => s.writeFuncmap idx w
  | 0x0061 => upd { r with ingtab := v }
  | 0x0063 => upd { r with peermap := Tbl.set 0 r.peermap idx (w &&& 0xFFFFFF#32) }
  | 0x0068 | 0x0069 | 0x006A => s.writeTrace id idx v
  | _ => s.writePower core id w

/-- A write of any register that is not a party's own: the ones with a behaviour of their own, and the rest. -/
def State.writeReg (s : State) (core region id idx : Nat) (v : DWord) : State :=
  let w : Word := v.setWidth 32
  match id with
  | 0x0031 => s.syncRegion (fld 0 12 w)
  | 0x0034 => s.writeQsync w
  | 0x0035 => s.writeClassmap v
  | 0x0036 => s.writeSavebase v
  | 0x0037 => s.writeSaven w
  | 0x0038 => s.startReset (fld 0 16 w)
  | 0x003A => s.writeFresume w
  | 0x0042 => s.writeFqhead w
  | 0x0062 => s.writeIngsync w
  | _ => if 0x0020 ≤ id ∧ id ≤ 0x0025 then s.clearStat region (id - 0x0020) else s.writePlain core id idx v

/-- A register of the host's register window but FRESUME and FQHEAD, which are events of their own, and the read-only ones (13 Table 1): the
fault-queue registers, of region 0's functions, and RSTDONE, whose bits a function clears of the domains it reaches (entry 15). -/
def State.writeWindow (s : State) (id idx : Nat) (v : DWord) (f : Nat) : State :=
  match id with
  | 0x0040 | 0x0041 | 0x0044 => if s.funcRegion f = 0 then s.writePlain 0 id 0 v else s
  | 0x0039 => s.writePlain 0 id idx (v &&& (maskOf 32 fun k => s.reachesDomain f (32 * idx + k)).setWidth 64)
  | _ => s

/-- REGISTER_WRITE: through the host's register window or system software's other means. -/
def execRegisterWrite (id idx : BitVec 16) (core : Nat) (w : RegWrite 64) (s : State) : Out :=
  let s := s.tick
  match sreg id.toNat with
  | none => .next s
  | some r =>
    if core ≥ 224 || !(if r.count = 0 then idx == 0 else decide (idx.toNat < r.count)) then .next s
    else match w.via with
      | .soft => .next (s.writePlain core id.toNat idx.toNat w.v)
      | .host f _ => .next (s.viaWindow w.via (fun _ => true) fun s => s.writeWindow id.toNat idx.toNat w.v f)

/-- SRSEED of lanes (06 R105), lane by lane: each write is an event of the trace, and replay applies the recorded seed in its turn. None
while another event is recorded first. -/
def State.writeSeeds (s : State) (w : Who) (region slot : Nat) : List (Nat × BitVec 32) → Option State
  | [] => some s
  | (l, v) :: rest =>
    let x := s.region region
    let e := s.homeBytes (x.trBase.toNat + 32 * x.trPos) 32
    let replay := flag 1 x.trCtl && decide (32 * (x.trPos + 1) ≤ x.trSize.toNat)
    let seen := natOf (e.take 1) = 4 && natOf ((e.drop 16).take 8) = slot + 2 ^ 32 * l
    let other : Bool := 1 ≤ natOf (e.take 1) && natOf (e.take 1) ≤ 4 && !seen
    if replay && other then none
    else
      let v := if replay && seen then BitVec.ofNat 32 (natOf (e.drop 24)) else v
      let v := if v = 0 then 1 else v
      let s := if replay && seen then s.setRegion region { x with trPos := x.trPos + 1 } else s
      let s := s.updWarp w fun y => { y with srseed := setAt y.srseed l v }
      State.writeSeeds (s.trace region 4 (BitVec.ofNat 64 (slot + 2 ^ 32 * l)) (v.setWidth 64)) w region slot rest

/-- The warp slot that a trace names. -/
def State.seedSlot (s : State) (w : Who) : Nat := (((s.warp w).bind (·.origin)).map (·.2)).getD (partySlot w.party)

def execSrseedWrite (w : Who) (vals : List (Nat × BitVec 32)) (s : State) : Out :=
  let s := s.tick
  match s.warp w with
  | none => .next s
  | some _ => .next ((s.writeSeeds w (s.regionOf w) (s.seedSlot w) (vals.filter fun e => e.1 < 32)).getD s)

/-- SWRITE (23 R384 to R386): a read-only register ignores it; a privileged one is first a release at `.sys`. -/
def execSwrite (a : BitVec 8) (g : Guard) (id idx : BitVec 16) (s : State) : Out :=
  s.issue (.swrite a g id idx) 0xB1 g fun c s =>
    match sreg id.toNat with
    | none => .left s
    | some r =>
      let l := lowest c.exec
      let v : DWord := if r.w64 then s.get64 c a.toNat l else (s.get c a.toNat l) &&& 0xFFFFFFFF#64
      match s.sregStop c r (r.wr == .never || s.mayUse c r.wr) id with
      | some t => .trap s t
      | none =>
        if r.wr = .never then .done s .go
        else if id = 0x0008 then
          match s.writeSeeds c.who c.blk.dealt.region (s.seedSlot c.who) ((onesOf c.exec).map fun l => (l, (s.get c a.toNat l).setWidth 32)) with
          | some s => .done s .go
          | none => .wait s false
        else if id = 0x0009 then .done (s.updB c fun b => { b with msrseed := if v = 0 then 1 else v.setWidth 32 }) .go
        else if id = 0x000A then .done (s.updWarp c.who fun w => { w with mctab := v.setWidth 32 }) .go
        else if id = 0x0038 && fld 0 16 v = c.blk.dealt.fdom then .trap s (TrapArgs.of .illegal 0 0 c.exec)
        else s.released c .sys fun s => .done (s.writeReg c.who.core c.blk.dealt.region id.toNat idx.toNat v) .go

/-! TIME -/

def execTimeRef (d : BitVec 8) (g : Guard) (s : State) : Out :=
  s.issue (.timeRef d g) 0xB2 g fun c s => .done (s.put64 c c.exec d.toNat fun _ => s.tref) .go

/-- TIME.cyc of the reading core (10 R201): the edges of its clock since its reset, before the edge of the cluster cycle in which the word
issues (18 R278). -/
def execTimeCyc (d : BitVec 8) (g : Guard) (s : State) : Out :=
  s.issue (.timeCyc d g) 0xB2 g fun c s =>
    .done (s.put64 c c.exec d.toNat fun _ => BitVec.ofNat 64 (s.cluster (clusterOf c.who.core)).latest) .go

/-! ERET -/

/-- The handler's state ends, and the recorded state goes on (12 R227). -/
def State.eret (s : State) (c : Ctx) (resume : Bool) : Res :=
  match (s.warp c.who).bind (·.handler) with
  | none => .left s
  | some h =>
    let leave (s : State) : Res := .left (s.updWarp c.who fun w => w.leaveHandler h resume)
    match h.info.log with
    | none => leave s
    | some ix =>
      if resume then leave (s.freeEntry c.who.core ix)
      else match (s.updWarp c.who fun w => w.leaveHandler h false).replayLog c.who.core ix with
        | some s => .left s
        | none => .wait s false

def execEretReplay (s : State) : Out := s.issue .eretReplay 0xB3 ⟨0, false⟩ fun c s => s.eret c false
def execEretResume (s : State) : Out := s.issue .eretResume 0xB3 ⟨0, false⟩ fun c s => s.eret c true

/-! TLBINV -/

/-- The cores that a scope reaches. -/
def State.reached (s : State) (core : Nat) (sc : Scope) : List Nat :=
  (s.cores.map (·.1)).filter fun c => match sc with
    | .core => c == core
    | .die => dieOf c == dieOf core
    | _ => true

/-- An access of a core is under way with a translation that TLBINV removes (23 R391): a store in a queue, or a request of an engine in
flight. Of a translation that no TLB holds any more its address space decides: such a wait is longer, and 08 R404 binds no latency. -/
def State.usesRemoved (s : State) (q : TlbEnt → Bool) (space : Nat → Bool) (core : Nat) : Bool :=
  let used (asid : Nat) (va : DWord) : Bool := match s.tlbHit core asid va with | some t => q t | none => space asid
  ((s.parties.filter (·.core == core)).any fun w => match s.blockOf w with
    | some b => (s.flight w).sq.ents.any fun e => !e.scratch && !e.lost && used b.dealt.asid (BitVec.ofNat 64 e.va)
    | none => false) ||
  (s.core core).cmds.any fun x => match s.block core x.blk with
    | some b => x.flight.any fun r => match x.reqAddr r with | some va => used b.dealt.asid va | none => false
    | none => false

/-- TLBINV: outside region 0 only the block's own address space; accesses that used what it removes are performed first; then the release, the
removal, and the held requests of the reached cores translate again (08 R146). -/
def State.tlbinv (s : State) (c : Ctx) (sc : Scope) (asid : Option (BitVec 16)) (p : TlbEnt → Bool) : Res :=
  let own := match asid with | some a => a.toNat == c.blk.dealt.asid | none => false
  if c.blk.dealt.region != 0 && !own then .trap s (TrapArgs.of .privDeny 0 0 c.exec)
  else
  let core := c.who.core
  let space (n : Nat) : Bool := match asid with | some a => n == a.toNat | none => true
  let q (t : TlbEnt) : Bool := p t && space t.asid
  if (s.reached core sc).any (s.usesRemoved q space) then .wait s false
  else s.released c .sys fun s =>
    let s := match sc with
      | .core => s.tlbDropCore core q
      | .die => s.tlbDrop fun t => t.cluster / 14 == dieOf core && q t
      | _ => s.tlbDrop q
    .done ((s.reached core sc).foldl State.retranslate s) .go

def execTlbinv (a : BitVec 8) (g : Guard) (scope : Scope) (asid : BitVec 16) (s : State) : Out :=
  s.issue (.tlbinv a g scope asid) 0xB4 g fun c s => s.tlbinv c scope (some asid) fun t =>
    (onesOf c.exec).any fun l =>
      let va := (s.get64 c a.toNat l).toNat % 2 ^ 57
      decide (t.base ≤ va) && decide (va < t.base + t.size)
def execTlbinvAsid (g : Guard) (scope : Scope) (asid : BitVec 16) (s : State) : Out :=
  s.issue (.tlbinvAsid g scope asid) 0xB4 g fun c s => s.tlbinv c scope (some asid) fun _ => true
def execTlbinvAll (g : Guard) (scope : Scope) (s : State) : Out :=
  s.issue (.tlbinvAll g scope) 0xB4 g fun c s => s.tlbinv c scope none fun _ => true

/-! PROBE -/

/-- ENTRY, LEVEL and STATUS of a walk (22 Table 6). -/
def Walk.result : Walk → DWord × Nat × Nat
  | .leaf l => (l.e, l.level, 0)
  | .absent level e => (e, level, 1)
  | .malformed level e => (e, level, 2)
  | .nonCanonical => (0, 0, 3)
  | .noSpace => (0, 5, 4)
  | .poisoned _ => (0, 0, 0)

/-- PROBE reads the tables at their homes, after the warp's own stores have arrived there (22 R367). -/
def State.probe (s : State) (c : Ctx) (d a : BitVec 8) (asid : Nat) : Res :=
  s.logged c fun s => s.queueDone c fun s =>
    if !s.storesHome c.who then .wait s false else
    let r (l : Nat) : Walk := s.walk asid (s.get64 c a.toNat l)
    match laneTrap .poison ((onesOf c.exec).filterMap fun l => match r l with | .poisoned pa => some (l, pa) | _ => none) with
    | some t => .trap s t
    | none =>
      let t := ((s.acquire c.who .sys).put64 c c.exec d.toNat fun l => (r l).result.1).put c c.exec (d.toNat + 2)
        fun l => BitVec.ofNat 64 ((r l).result.2.1 + 2 ^ 8 * (r l).result.2.2)
      .done (t.put c c.exec (d.toNat + 3) fun _ => 0) .go

def execProbe (d a : BitVec 8) (g : Guard) (s : State) : Out :=
  s.issue (.probe d a g) 0xB5 g fun c s => s.probe c d a c.blk.dealt.asid
def execProbeAs (d a : BitVec 8) (g : Guard) (asid : BitVec 16) (s : State) : Out :=
  s.issue (.probeAs d a g asid) 0xB5 g fun c s => s.probe c d a asid.toNat

/-! WSAVE and WLOAD -/

/-- The target and the address (23 R395), or the trap. -/
def State.recordTarget (s : State) (c : Ctx) (a : BitVec 8) (slot : BitVec 6) : Except TrapArgs (Who × Warp × DWord) :=
  let t : Who := ⟨c.who.core, .warp slot.toNat⟩
  let va := s.get64 c a.toNat (lowest c.exec)
  let no (x : Cause) (addr : DWord) : Except TrapArgs (Who × Warp × DWord) := .error (TrapArgs.of x addr 0 c.exec)
  match s.warp t with
  | none => no .illegal 0
  | some w =>
    if t == c.who || w.park.isNone || w.away.isSome then no .illegal 0
    else if ((s.blockOf t).map (·.dealt.region)) != some c.blk.dealt.region then no .privDeny 0
    else if va.toNat % 128 != 0 then no .align va
    else .ok (t, w, va)

/-- The pages of n bytes at an address, as accesses of the executing warp, or the fault: a locked range, or a poisoned unit read. -/
def State.recordPieces (s : State) (c : Ctx) (kind : Access) (va : DWord) (n : Nat) : Except TrapArgs (List (DWord × Nat × Leaf)) :=
  let op : MemOp := ⟨c.who, c.pc, .nop ⟨0, false⟩, [], true⟩
  let asid := c.blk.dealt.asid
  let lane := lowest c.exec
  let ps := s.pieces op asid kind (n / 4096 + 2) va n
  match worst (pieceFaults lane ps), s.locked c.who.core false asid (kind == .store) va.toNat n with
  | some t, _ => .error t
  | none, some a => .error (TrapArgs.of .rangeLock (BitVec.ofNat 64 a) 0 (1#32 <<< lane))
  | none, none =>
    match (goodPieces ps).findSome? fun p =>
        (if kind = .store then (if (s.die p.2.2.home).dead then some 0 else none) else s.readBad (dieOf c.who.core) false p.2.2 p.2.1).map fun k => p.1 + BitVec.ofNat 64 k with
    | some a => .error (TrapArgs.of .poison a 0 (1#32 <<< lane))
    | none => .ok (goodPieces ps)

/-- The bytes are stored at `.sys`, before the warp's next word: they are seen by every party (09 R170). -/
def State.storeRecord (s : State) (c : Ctx) (va : DWord) (bs : List Byte) (ps : List (DWord × Nat × Leaf)) : State :=
  ps.foldl (fun s p =>
    let b := (bs.drop (p.1 - va).toNat).take p.2.1
    (s.notePaths c.who .ls p.2.2.phys b).gaStore c.who.core p.2.2.phys b) s

/-- The bytes as the die's L2 has them, and the state in which they have been read. -/
def State.fetchRecord (s : State) (c : Ctx) (ps : List (DWord × Nat × Leaf)) : State × List Byte :=
  (ps.foldl (fun r p => s.seeHere c.who .ls true (fun _ => true) p.2.2.phys p.2.1 r) s, ps.flatMap fun p => s.lsBytes c.who true p.2.2.phys p.2.1)

/-- A word that writes bytes of its target: it waits for its own stores and for the target's results. -/
def State.saveWord (s : State) (c : Ctx) (a : BitVec 8) (slot : BitVec 6) (k : State → Who → Warp → Except TrapArgs (State × List Byte)) : Res :=
  match s.recordTarget c a slot with
  | .error t => .trap s t
  | .ok (t, w, va) =>
    if !(s.flight t).results.isEmpty then .wait s false
    else s.queueDone c fun s => match k s t w with
      | .error t => .trap s t
      | .ok (s', bs) =>
        match s.recordPieces c .store va bs.length with
        | .error t => .trap s t
        | .ok ps => .done (s'.storeRecord c va bs ps) .go

def execWsave (a : BitVec 8) (g : Guard) (slot : BitVec 6) (s : State) : Out :=
  s.issue (.wsave a g slot) 0xB6 g fun c s => s.saveWord c a slot fun s t w =>
    .ok (s, s.recordOf t w)

/-- The frame image: dirty entries are written back first; a poisoned word of the frame or of its headers traps (12 R241). -/
def execWsaveFrame (a : BitVec 8) (g : Guard) (slot : BitVec 6) (s : State) : Out :=
  s.issue (.wsaveFrame a g slot) 0xB6 g fun c s => s.saveWord c a slot fun s t w =>
    if !(w.writeBack.bad.isEmpty && w.hdrBad.isEmpty) then .error (TrapArgs.of .poison 0 0 c.exec) else .ok (s.updWarp t Warp.writeBack, s.image w)

/-- A word that reads n bytes for its target. -/
def State.loadWord (s : State) (c : Ctx) (a : BitVec 8) (slot : BitVec 6) (n : Warp → Nat) (k : State → Who → Warp → List Byte → Res) : Res :=
  match s.recordTarget c a slot with
  | .error t => .trap s t
  | .ok (t, w, va) =>
    if !(s.flight t).results.isEmpty then .wait s false
    else s.queueDone c fun s => match s.recordPieces c .load va (n w) with
      | .error t => .trap s t
      | .ok ps =>
        if ps.any fun p => s.heldAt (dieOf c.who.core) p.2.2.phys p.2.1 then .wait s false
        else
          let (s, bs) := s.fetchRecord c ps
          k s t w bs

/-- What a parked warp resumes at after a load: the word of its first path. A logged fault is the one of its log entries that is the same
instruction with the same fault. -/
def TrapInfo.at (i : TrapInfo) (pc next : DWord) (log : Option Nat) : TrapInfo := { i with pc := pc, next := next, log := log, claim := none }

/-- The word after the one at pc, by the clause's header in memory. -/
def State.wordAfter (s : State) (w : Who) (pc : DWord) : DWord :=
  match (s.blockOf w).map fun b => s.fetchLine w b (lineOf pc) with
  | some (.ok (_, phys)) => nextWord pc (hdrCount (s.lineWord w phys 0))
  | _ => pc + 8

/-- The entries of a record take free places of the log: the state, and the places in the record's order. -/
def State.placeLogs (s : State) (t : Who) (logs : List LogEnt) : State × List Nat :=
  logs.foldl (fun (p : State × List Nat) e =>
    if (p.1.freeLogs t.core).isEmpty then p
    else
      let ix := p.1.newLog t.core
      let s := p.1.setLog t.core ix (some e)
      (if sbOf e.op.ins = 0 then s.updFlight t fun f => { f with waitLog := some ix } else s, p.2 ++ [ix])) (s, [])

/-- A loaded warp regangs; its log entries take free places, and its return state names the one it had (23 R396). -/
def State.placeRecord (s : State) (t : Who) (w : Warp) (bs : List Byte) (logs : List LogEnt) : State :=
  let x := { (s.loadRecord w bs).boundary true with clause := none }
  let pc := (x.lead.map (·.pc)).getD 0
  let fault := w.park.bind fun i => (i.log.bind (s.logEnt t.core)).map fun e => (e.op.pc, e.op.ins, e.cause, e.addr)
  let s := (s.logOf t).foldl (fun s ix => s.setLog t.core ix none) s
  let (s, at_) := (s.setWarp t (some x)).placeLogs t logs
  let fix (i : TrapInfo) : TrapInfo := { i with log := i.log.bind (at_[·]?), next := s.wordAfter t i.pc }
  let held := fault.bind fun f => at_.find? fun ix => match s.logEnt t.core ix with | some e => (e.op.pc, e.op.ins, e.cause, e.addr) == f | none => false
  s.updWarp t fun y => { y with
    handler := y.handler.map fun h => { h with info := fix h.info }
    park := y.park.map fun i => i.at pc (s.wordAfter t pc) held }

def execWload (a : BitVec 8) (g : Guard) (slot : BitVec 6) (s : State) : Out :=
  s.issue (.wload a g slot) 0xB7 g fun c s => s.loadWord c a slot (fun _ => 16384) fun s t w bs =>
    let logs := (List.range 16).filterMap fun i => s.logOfBytes t c.blk.dealt.asid ((bs.drop (0xE00 + 800 * i)).take 800)
    if recordBad w.frame bs then .trap s (TrapArgs.of .illegal 0 0 c.exec)
    else if (freeSlots (s.core t.core).log 16).length + (s.logOf t).length < logs.length then .wait s false
    else .done (s.placeRecord t w bs logs) .go

def execWloadFrame (a : BitVec 8) (g : Guard) (slot : BitVec 6) (s : State) : Out :=
  s.issue (.wloadFrame a g slot) 0xB7 g fun c s => s.loadWord c a slot (fun w => 128 * w.frame + 2048) fun s t w bs =>
    if imageBad w bs then .trap s (TrapArgs.of .illegal 0 0 c.exec) else .done (s.updWarp t fun x => x.loadImage bs) .go

/-! Unassigned opcodes (05 R93) -/

/-- The word traps (ILLEGAL) at step 1, in every engine class. -/
def execUnassignedOpcode (_w : BitVec 64) (s : State) : Out := s.refuse .illegal

/-! The sideband port (13 R253) -/

def State.respond (s : State) (r : Response) : State := s.updSide fun x => { x with response := some r }

/-- What is measured (13 R253), and its bytes. -/
def State.measured (s : State) : Measurements :=
  ⟨sha256 s.host.side.firmware, Config.isaver, s.poolcap 0, s.poolcap 1, s.die0.clmap, s.die1.clmap⟩
def Measurements.bytes (m : Measurements) : List Byte :=
  m.firmware ++ bytesOf 4 m.isaver.toNat ++ bytesOf 4 m.poolcap0.toNat ++ bytesOf 4 m.poolcap1.toNat ++ bytesOf 2 m.clmap0.toNat ++
  bytesOf 2 m.clmap1.toNat

/-- SPDM: an attestation signs the measurements and the requester's nonce. TDISP's messages come this way too: the interface report (13 R246). -/
def execSpdmRequest (kind : SpdmKind) (s : State) : Out :=
  let s := s.tick
  .next (match kind with
    | .identity => s.respond (.identity Config.isaver (ecdsaPublic Config.deviceKey))
    | .measurements => s.respond (.measurements s.measured)
    | .attestation nonce =>
      s.respond (.attestation s.measured (ecdsaSign Config.deviceKey (Config.signNonce s.fresh) (s.measured.bytes ++ nonce)))
    | .report f => match s.report f with | some r => s.respond (.report f r) | none => s)

def execPldmRequest (kind : PldmKind) (s : State) : Out :=
  let s := s.tick
  .next (match kind with
    | .monitor d k => match (s.die d).temps[k]? with | some t => s.respond (.sensor t) | none => s
    | .firmware image => (s.updSide fun x => { x with firmware := image }).respond (.firmware image.length))

/-- The registers of 11 R213 that the vendor message reaches. -/
def vendorReg (id : BitVec 16) : Bool := id == 0x0011 || (decide (0x0050 ≤ id.toNat) && decide (id.toNat ≤ 0x0058))

/-- The vendor-defined message: without core power it serves the log alone. -/
def execVendorMctpMessage (m : Vendor) (s : State) : Out :=
  let s := s.tick
  .next (match m with
    | .readLog => s.respond (.log s.host.side.log)
    | .writeLog time regions usable unsaved complete =>
      (s.updSide fun x => { x with log := some ⟨time, regions, usable, unsaved, complete, false⟩ }).respond .ok
    | .read id core => if s.power && vendorReg id && core < 224 then s.respond (.value (BitVec.ofNat 64 (s.powerReg core id.toNat))) else s
    | .write id core v => if s.power && vendorReg id && core < 224 then (s.writePower core id.toNat v).respond .ok else s
    | .rreset v => if s.power then (s.startReset (fld 0 16 v)).respond .ok else s)

end Sys2Proof.Machine
end

