-- ==== Sys2Proof/Machine/Dispatch.lean ====
section
/-! DEFINITION. The one match over `Instr`: each arm calls the meaning of its row. -/

namespace Sys2Proof.Machine

def exec (i : Instr) (s : State) : Host.Outcome State Fault Refusal :=
  match i with
  | .nop g => Sys2Proof.Machine.execNop g s
  | .bra g off => Sys2Proof.Machine.execBra g off s
  | .brx a g => Sys2Proof.Machine.execBrx a g s
  | .call l g off => Sys2Proof.Machine.execCall l g off s
  | .callx l a g => Sys2Proof.Machine.execCallx l a g s
  | .ret a g => Sys2Proof.Machine.execRet a g s
  | .yield g => Sys2Proof.Machine.execYield g s
  | .exit g => Sys2Proof.Machine.execExit g s
  | .trap g imm => Sys2Proof.Machine.execTrap g imm s
  | .bkpt g imm => Sys2Proof.Machine.execBkpt g imm s
  | .iadd o => Sys2Proof.Machine.execIadd o s
  | .isub o => Sys2Proof.Machine.execIsub o s
  | .imul o => Sys2Proof.Machine.execImul o s
  | .imulh sg o => Sys2Proof.Machine.execImulh sg o s
  | .imad o => Sys2Proof.Machine.execImad o s
  | .idiv sg o => Sys2Proof.Machine.execIdiv sg o s
  | .irem sg o => Sys2Proof.Machine.execIrem sg o s
  | .imin sg o => Sys2Proof.Machine.execImin sg o s
  | .imax sg o => Sys2Proof.Machine.execImax sg o s
  | .iabs o => Sys2Proof.Machine.execIabs o s
  | .iset cmp o => Sys2Proof.Machine.execIset cmp o s
  | .sel o c => Sys2Proof.Machine.execSel o c s
  | .lea o sh => Sys2Proof.Machine.execLea o sh s
  | .mov o => Sys2Proof.Machine.execMov o s
  | .movi d g imm => Sys2Proof.Machine.execMovi d g imm s
  | .x2p d a g ha => Sys2Proof.Machine.execX2p d a g ha s
  | .and o => Sys2Proof.Machine.execAnd o s
  | .or o => Sys2Proof.Machine.execOr o s
  | .xor o => Sys2Proof.Machine.execXor o s
  | .andn o => Sys2Proof.Machine.execAndn o s
  | .lop3 o tab => Sys2Proof.Machine.execLop3 o tab s
  | .shl o => Sys2Proof.Machine.execShl o s
  | .shr o => Sys2Proof.Machine.execShr o s
  | .sar o => Sys2Proof.Machine.execSar o s
  | .rot o => Sys2Proof.Machine.execRot o s
  | .clz o => Sys2Proof.Machine.execClz o s
  | .popc o => Sys2Proof.Machine.execPopc o s
  | .brev o => Sys2Proof.Machine.execBrev o s
  | .bfx sg o => Sys2Proof.Machine.execBfx sg o s
  | .bfi o => Sys2Proof.Machine.execBfi o s
  | .plop d a b c g tab => Sys2Proof.Machine.execPlop d a b c g tab s
  | .p2x d a g hd => Sys2Proof.Machine.execP2x d a g hd s
  | .fadd m o => Sys2Proof.Machine.execFadd m o s
  | .fsub m o => Sys2Proof.Machine.execFsub m o s
  | .fmul m o => Sys2Proof.Machine.execFmul m o s
  | .ffma m o => Sys2Proof.Machine.execFfma m o s
  | .fmin t o => Sys2Proof.Machine.execFmin t o s
  | .fmax t o => Sys2Proof.Machine.execFmax t o s
  | .fset t cmp na o => Sys2Proof.Machine.execFset t cmp na o s
  | .fclass t o => Sys2Proof.Machine.execFclass t o s
  | .fscale m o => Sys2Proof.Machine.execFscale m o s
  | .frnd m o => Sys2Proof.Machine.execFrnd m o s
  | .fdiv m o => Sys2Proof.Machine.execFdiv m o s
  | .frcp ftz o => Sys2Proof.Machine.execFrcp ftz o s
  | .frsq ftz o => Sys2Proof.Machine.execFrsq ftz o s
  | .fsqrt m o => Sys2Proof.Machine.execFsqrt m o s
  | .fexp2 ftz o => Sys2Proof.Machine.execFexp2 ftz o s
  | .flog2 ftz o => Sys2Proof.Machine.execFlog2 ftz o s
  | .fsin ftz o => Sys2Proof.Machine.execFsin ftz o s
  | .fcos ftz o => Sys2Proof.Machine.execFcos ftz o s
  | .ftanh ftz o => Sys2Proof.Machine.execFtanh ftz o s
  | .cvt src dst rm ov o => Sys2Proof.Machine.execCvt src dst rm ov o s
  | .pk8 f rm ov o => Sys2Proof.Machine.execPk8 f rm ov o s
  | .upk8 f o => Sys2Proof.Machine.execUpk8 f o s
  | .pk4 o => Sys2Proof.Machine.execPk4 o s
  | .upk4 o => Sys2Proof.Machine.execUpk4 o s
  | .qscl m o => Sys2Proof.Machine.execQscl m o s
  | .scac o => Sys2Proof.Machine.execScac o s
  | .shfl m b64 seg o => Sys2Proof.Machine.execShfl m b64 seg o s
  | .vote m d a g hd => Sys2Proof.Machine.execVote m d a g hd s
  | .redux op o => Sys2Proof.Machine.execRedux op o s
  | .scan op o => Sys2Proof.Machine.execScan op o s
  | .matchLanes b64 o => Sys2Proof.Machine.execMatchLanes b64 o s
  | .ld o => Sys2Proof.Machine.execLd o s
  | .lds o => Sys2Proof.Machine.execLds o s
  | .ldc o => Sys2Proof.Machine.execLdc o s
  | .st o => Sys2Proof.Machine.execSt o s
  | .sts o => Sys2Proof.Machine.execSts o s
  | .atom o => Sys2Proof.Machine.execAtom o s
  | .atoms o => Sys2Proof.Machine.execAtoms o s
  | .red o => Sys2Proof.Machine.execRed o s
  | .stmc o => Sys2Proof.Machine.execStmc o s
  | .pref a g off pol => Sys2Proof.Machine.execPref a g off pol s
  | .disc t a g => Sys2Proof.Machine.execDisc t a g s
  | .fence order scope ga g => Sys2Proof.Machine.execFence order scope ga g s
  | .fencep w r g => Sys2Proof.Machine.execFencep w r g s
  | .claim t a g sb => Sys2Proof.Machine.execClaim t a g sb s
  | .migr a => Sys2Proof.Machine.execMigr a s
  | .migrHome => Sys2Proof.Machine.execMigrHome s
  | .barw id b => Sys2Proof.Machine.execBarw id b s
  | .bara id b => Sys2Proof.Machine.execBara id b s
  | .bcbinit a => Sys2Proof.Machine.execBcbinit a s
  | .bcbexp a b => Sys2Proof.Machine.execBcbexp a b s
  | .bcbarv a => Sys2Proof.Machine.execBcbarv a s
  | .bcbwait a b => Sys2Proof.Machine.execBcbwait a b s
  | .bcbtry a b => Sys2Proof.Machine.execBcbtry a b s
  | .ringinit id a => Sys2Proof.Machine.execRinginit id a s
  | .ringacqFill id b => Sys2Proof.Machine.execRingacqFill id b s
  | .ringacqFree id b => Sys2Proof.Machine.execRingacqFree id b s
  | .ringrelFill id => Sys2Proof.Machine.execRingrelFill id s
  | .ringrelFree id => Sys2Proof.Machine.execRingrelFree id s
  | .gbar id scope => Sys2Proof.Machine.execGbar id scope s
  | .dqpop d hd g => Sys2Proof.Machine.execDqpop d hd g s
  | .rolechk => Sys2Proof.Machine.execRolechk s
  | .cpy o => Sys2Proof.Machine.execCpy o s
  | .gth o => Sys2Proof.Machine.execGth o s
  | .sct o => Sys2Proof.Machine.execSct o s
  | .rsend a id pol ga => Sys2Proof.Machine.execRsend a id pol ga s
  | .rget a id pol => Sys2Proof.Machine.execRget a id pol s
  | .ratom a id op b64 => Sys2Proof.Machine.execRatom a id op b64 s
  | .ldimg a id => Sys2Proof.Machine.execLdimg a id s
  | .fgrow n => Sys2Proof.Machine.execFgrow n s
  | .ftrim n => Sys2Proof.Machine.execFtrim n s
  | .sgrow d k => Sys2Proof.Machine.execSgrow d k s
  | .sgrowSwz d k => Sys2Proof.Machine.execSgrowSwz d k s
  | .strim k => Sys2Proof.Machine.execStrim k s
  | .ocwb g => Sys2Proof.Machine.execOcwb g s
  | .dqpush a g => Sys2Proof.Machine.execDqpush a g s
  | .mstart => Sys2Proof.Machine.execMstart s
  | .mstop => Sys2Proof.Machine.execMstop s
  | .enq a id => Sys2Proof.Machine.execEnq a id s
  | .mldb fb id ma mb slot => Sys2Proof.Machine.execMldb fb id ma mb slot s
  | .mmul o => Sys2Proof.Machine.execMmul o s
  | .mmulb o => Sys2Proof.Machine.execMmulb o s
  | .mscale id ma mb => Sys2Proof.Machine.execMscale id ma mb s
  | .mzero ma mb => Sys2Proof.Machine.execMzero ma mb s
  | .mdrain fa id ma mb rm ov => Sys2Proof.Machine.execMdrain fa id ma mb rm ov s
  | .msig k id ma => Sys2Proof.Machine.execMsig k id ma s
  | .mwait k id ma => Sys2Proof.Machine.execMwait k id ma s
  | .mloop ma off => Sys2Proof.Machine.execMloop ma off s
  | .mset ma imm => Sys2Proof.Machine.execMset ma imm s
  | .mend => Sys2Proof.Machine.execMend s
  | .sread d g id idx => Sys2Proof.Machine.execSread d g id idx s
  | .swrite a g id idx => Sys2Proof.Machine.execSwrite a g id idx s
  | .timeRef d g => Sys2Proof.Machine.execTimeRef d g s
  | .timeCyc d g => Sys2Proof.Machine.execTimeCyc d g s
  | .eretReplay => Sys2Proof.Machine.execEretReplay s
  | .eretResume => Sys2Proof.Machine.execEretResume s
  | .tlbinv a g scope asid => Sys2Proof.Machine.execTlbinv a g scope asid s
  | .tlbinvAsid g scope asid => Sys2Proof.Machine.execTlbinvAsid g scope asid s
  | .tlbinvAll g scope => Sys2Proof.Machine.execTlbinvAll g scope s
  | .probe d a g => Sys2Proof.Machine.execProbe d a g s
  | .probeAs d a g asid => Sys2Proof.Machine.execProbeAs d a g asid s
  | .wsave a g slot => Sys2Proof.Machine.execWsave a g slot s
  | .wsaveFrame a g slot => Sys2Proof.Machine.execWsaveFrame a g slot s
  | .wload a g slot => Sys2Proof.Machine.execWload a g slot s
  | .wloadFrame a g slot => Sys2Proof.Machine.execWloadFrame a g slot s
  | .packageReset => Sys2Proof.Machine.execPackageReset s
  | .bringUpLogRead => Sys2Proof.Machine.execBringUpLogRead s
  | .hostPost f stream t data => Sys2Proof.Machine.execHostPost f stream t data s
  | .ingestWrite f w off req stream data => Sys2Proof.Machine.execIngestWrite f w off req stream data s
  | .dispatch => Sys2Proof.Machine.execDispatch s
  | .waitctrRead q => Sys2Proof.Machine.execWaitctrRead q s
  | .blockEnd core blk => Sys2Proof.Machine.execBlockEnd core blk s
  | .roleFlagWindow core blk => Sys2Proof.Machine.execRoleFlagWindow core blk s
  | .ringCycle die => Sys2Proof.Machine.execRingCycle die s
  | .rotationStart die => Sys2Proof.Machine.execRotationStart die s
  | .holdEnter core => Sys2Proof.Machine.execHoldEnter core s
  | .wideRequestPayment core => Sys2Proof.Machine.execWideRequestPayment core s
  | .matrixStepStart core => Sys2Proof.Machine.execMatrixStepStart core s
  | .droopDetect die cluster => Sys2Proof.Machine.execDroopDetect die cluster s
  | .droopWindowStart die cluster => Sys2Proof.Machine.execDroopWindowStart die cluster s
  | .droopWindowEnd die cluster => Sys2Proof.Machine.execDroopWindowEnd die cluster s
  | .thermalPoll die temps => Sys2Proof.Machine.execThermalPoll die temps s
  | .analogTrip die sensor => Sys2Proof.Machine.execAnalogTrip die sensor s
  | .loanGrant die => Sys2Proof.Machine.execLoanGrant die s
  | .loanTermEnd die => Sys2Proof.Machine.execLoanTermEnd die s
  | .loanEndNotice die => Sys2Proof.Machine.execLoanEndNotice die s
  | .sidebandFail => Sys2Proof.Machine.execSidebandFail s
  | .sidebandReturn => Sys2Proof.Machine.execSidebandReturn s
  | .growGrant core => Sys2Proof.Machine.execGrowGrant core s
  | .growDeadline core => Sys2Proof.Machine.execGrowDeadline core s
  | .copyRequestStart core => Sys2Proof.Machine.execCopyRequestStart core s
  | .copyRequestComplete core k => Sys2Proof.Machine.execCopyRequestComplete core k s
  | .requestRetranslate core => Sys2Proof.Machine.execRequestRetranslate core s
  | .storeLeaveQueue w => Sys2Proof.Machine.execStoreLeaveQueue w s
  | .ackArrival k => Sys2Proof.Machine.execAckArrival k s
  | .ackTimeout k => Sys2Proof.Machine.execAckTimeout k s
  | .watchdogFire region => Sys2Proof.Machine.execWatchdogFire region s
  | .regionResetDone fdom => Sys2Proof.Machine.execRegionResetDone fdom s
  | .dieFatalError die => Sys2Proof.Machine.execDieFatalError die s
  | .eccCorrected die unit => Sys2Proof.Machine.execEccCorrected die unit s
  | .eccUncorrectable die site => Sys2Proof.Machine.execEccUncorrectable die site s
  | .flitReceive port flit reply => Sys2Proof.Machine.execFlitReceive port flit reply s
  | .keySwitch k => Sys2Proof.Machine.execKeySwitch k s
  | .keySlotExhausted port => Sys2Proof.Machine.execKeySlotExhausted port s
  | .lockInterface f => Sys2Proof.Machine.execLockInterface f s
  | .startInterface f => Sys2Proof.Machine.execStartInterface f s
  | .stopInterface f => Sys2Proof.Machine.execStopInterface f s
  | .spdmRequest kind => Sys2Proof.Machine.execSpdmRequest kind s
  | .pldmRequest kind => Sys2Proof.Machine.execPldmRequest kind s
  | .vendorMctpMessage m => Sys2Proof.Machine.execVendorMctpMessage m s
  | .rcbsync v => Sys2Proof.Machine.execRcbsync v s
  | .qsync v => Sys2Proof.Machine.execQsync v s
  | .rreset v => Sys2Proof.Machine.execRreset v s
  | .ingsync v => Sys2Proof.Machine.execIngsync v s
  | .fresumeReplay w => Sys2Proof.Machine.execFresumeReplay w s
  | .fresumeResume w => Sys2Proof.Machine.execFresumeResume w s
  | .fresumeKill w => Sys2Proof.Machine.execFresumeKill w s
  | .tokcapWrite die v => Sys2Proof.Machine.execTokcapWrite die v s
  | .droopcntClear die cluster => Sys2Proof.Machine.execDroopcntClear die cluster s
  | .statcClear region cls => Sys2Proof.Machine.execStatcClear region cls s
  | .fqheadWrite w => Sys2Proof.Machine.execFqheadWrite w s
  | .savebaseWrite v => Sys2Proof.Machine.execSavebaseWrite v s
  | .savenWrite v => Sys2Proof.Machine.execSavenWrite v s
  | .classmapWrite v => Sys2Proof.Machine.execClassmapWrite v s
  | .srseedWrite w vals => Sys2Proof.Machine.execSrseedWrite w vals s
  | .registerWrite id idx core w => Sys2Proof.Machine.execRegisterWrite id idx core w s
  | .unassignedOpcode w => Sys2Proof.Machine.execUnassignedOpcode w s
  | .resultArrival w k => Sys2Proof.Machine.execResultArrival w k s
  | .efStoreHomeArrival k => Sys2Proof.Machine.execEfStoreHomeArrival k s
  | .yelinePortRetrainFail port => Sys2Proof.Machine.execYelinePortRetrainFail port s
  | .hostInterfaceReset up => Sys2Proof.Machine.execHostInterfaceReset up s

end Sys2Proof.Machine
end

