-- ==== Sys2Proof/Machine/Order.lean ====
section
/-! DEFINITION. Who moves next when the agenda is empty (entry 5): every party and every agent of the device in turn. -/

namespace Sys2Proof.Machine

/-- The rows of the opcode table that are events of the device and no words. -/
def isEvent : Instr → Bool
  | .packageReset | .bringUpLogRead | .hostPost _ _ _ _ | .ingestWrite _ _ _ _ _ _ | .dispatch | .waitctrRead _ | .blockEnd _ _
  | .roleFlagWindow _ _ | .ringCycle _ | .rotationStart _ | .holdEnter _ | .wideRequestPayment _ | .matrixStepStart _
  | .droopDetect _ _ | .droopWindowStart _ _ | .droopWindowEnd _ _ | .thermalPoll _ _ | .analogTrip _ _ | .loanGrant _ | .loanTermEnd _
  | .loanEndNotice _ | .sidebandFail | .sidebandReturn | .growGrant _ | .growDeadline _ | .copyRequestStart _
  | .copyRequestComplete _ _ | .requestRetranslate _ | .storeLeaveQueue _ | .ackArrival _ | .ackTimeout _ | .watchdogFire _
  | .regionResetDone _ | .dieFatalError _ | .eccCorrected _ _ | .eccUncorrectable _ _ | .flitReceive _ _ _ | .keySwitch _
  | .keySlotExhausted _ | .lockInterface _ | .startInterface _ | .stopInterface _ | .spdmRequest _ | .pldmRequest _
  | .vendorMctpMessage _ | .rcbsync _ | .qsync _ | .rreset _ | .ingsync _ | .fresumeReplay _ | .fresumeResume _ | .fresumeKill _
  | .tokcapWrite _ _ | .droopcntClear _ _ | .statcClear _ _ | .fqheadWrite _ | .savebaseWrite _ | .savenWrite _ | .classmapWrite _
  | .srseedWrite _ _ | .registerWrite _ _ _ _ | .resultArrival _ _ | .efStoreHomeArrival _ | .yelinePortRetrainFail _
  | .hostInterfaceReset _ => true
  | _ => false

/-- What the standby supply still serves (11 R218, 12 R235, 13 R253). -/
def onStandby : Instr → Bool
  | .packageReset | .bringUpLogRead | .spdmRequest _ | .pldmRequest _ | .vendorMctpMessage _ | .analogTrip _ _ => true
  | _ => false

/-- The parties of a core. -/
def coreParties (c : Nat) (k : Core) : List Who :=
  (k.warps.filterMap fun (n, w) => if w.isSome then some ⟨c, .warp n⟩ else none) ++ (if k.landing.isSome then [⟨c, .landing⟩] else []) ++
  k.blocks.flatMap fun (b, x) => match x with
    | some x => (if x.front.isSome then [⟨c, .front b⟩] else []) ++ (if x.matrix.isSome then [⟨c, .matrix b⟩] else [])
    | none => []

/-- What the agents of a core may do on their own. -/
def coreEvents (s : State) (c : Nat) (k : Core) : List Instr :=
  ((coreParties c k).flatMap fun w =>
    let f := s.flight w
    (List.range f.results.length).map (fun i => .resultArrival w i) ++ (if f.sq.ents.isEmpty then [] else [.storeLeaveQueue w])) ++
  (if k.cmds.isEmpty then [] else
    [.copyRequestStart c, .requestRetranslate c] ++
      (List.range (k.cmds.map fun x => x.flight.length).sum).map fun i => .copyRequestComplete c i) ++
  (if k.pool.grows.isEmpty then [] else [.growGrant c, .growDeadline c]) ++
  (if k.tokens.wide.isEmpty then [] else [.wideRequestPayment c, .matrixStepStart c, .holdEnter c]) ++
  k.blocks.flatMap fun (b, _) => [.blockEnd c b, .roleFlagWindow c b]

/-- The moves open to the package. -/
def State.moves (s : State) : List Move :=
  (s.cores.flatMap fun (c, k) => ((coreParties c k).filter s.runnable).map Move.issue) ++
  ((s.cores.flatMap fun (c, k) => coreEvents s c k) ++
   ((List.range s.mem.msgs.length).flatMap fun i => [Instr.efStoreHomeArrival i, .ackArrival i, .ackTimeout i]) ++
   (s.resets.map fun r => Instr.regionResetDone r.fdom) ++ (s.regions.map fun r => Instr.watchdogFire r.1) ++
   (s.queues.map fun q => Instr.waitctrRead q.1) ++
   (s.clusters.flatMap fun (c, x) => (if x.detected then [Instr.droopWindowStart (c / 14) (c % 14)] else []) ++
     if x.window then [Instr.droopWindowEnd (c / 14) (c % 14)] else []) ++
   (if s.loan.isNone then [] else [0, 1].flatMap fun d => [Instr.loanGrant d, .loanTermEnd d, .loanEndNotice d]) ++
   [Instr.rotationStart 0, .rotationStart 1, .ringCycle 0, .ringCycle 1, .dispatch]).map Move.event

/-- The next move of the model's own order: each in turn. -/
def State.nextMove (s : State) : Option Move :=
  let l := s.moves
  l[s.turn % l.length]?

/-- One move. A word on the agenda that is no event does nothing: words issue from memory. -/
def State.play (ex : Instr → State → Out) (s : State) : Move → Out
  | .issue w => issueMove ex s w
  | .event i => if isEvent i then ex i s else .next s

/-- Without power only what the standby supply serves moves (11 R218, 12 R235). DEDUCED (entry 30). -/
def State.servable (s : State) : Bool :=
  s.power || match s.agenda with | .event i :: _ => onStandby i | _ => false

end Sys2Proof.Machine
end

