-- ==== Sys2Proof/Machine/Step.lean ====
section
/-! DEFINITION. One step: time passes, and the next move of the agenda, or of the model's own order, is made. -/

namespace Sys2Proof.Machine

/-- ONE STEP: a word of one party or an event of one agent. -/
def step (s : State) : Host.Outcome State Fault Refusal :=
  if !s.servable then .fault .powerOff
  else
    match s.agenda with
    | m :: rest => State.play exec { s.advance with agenda := rest } m
    | [] =>
      match s.nextMove with
      | some m => State.play exec { s.advance with turn := s.turn + 1 } m
      | none => .next { s.advance with turn := s.turn + 1 }

/-- The word placed where the next step fetches it. -/
def State.withFetchWord (s : State) (nbits w : Nat) : State := s.placeWord (BitVec.ofNat 64 (w % 2 ^ nbits))

end Sys2Proof.Machine
end

