-- ==== Sys2Proof/Safety.lean ====
section
/-! DEFINITION. The terms in which claims are stated: the invariant that every step keeps, a word that stands ready to have its effect,
the registers and predicates of a party, and two states that agree but for one party. -/

namespace Sys2Proof.Safety

open Sys2Proof.Machine

/-- Physical memory and the peers' memory are in canonical form. -/
def Inv (s : State) : Prop := Memory.wf s.mem.mem = true ∧ Memory.wf s.mem.peer = true

/-- A step that stops neither by a fault nor by a refusal. -/
def Steps (s t : State) : Prop := step s = .next t

/-- An instruction that stops neither by a fault nor by a refusal. -/
def Runs (i : Instr) (s t : State) : Prop := exec i s = .next t

/-- The state in which the effect of a word is made: time has passed and its tokens are paid (11 R208). -/
def paid (s : State) (c : Ctx) (i : Instr) : State := (s.tick.pay c (priceOf i)).1

/-- The running party's word i, with opcode `op` and guard g, has its effect: the party may issue and sees c (04 R66), nothing it
logged, no STATLIMIT owed and no CLAIM of its own holds it (08 R154, 06 R118, 20 R302), it passes the issue checks (04 R85), its price is paid (11 R209), some lane
executes it (04 R70), and no register it reads is poisoned (12 R241). -/
structure Ready (s : State) (i : Instr) (op : Nat) (g : Guard) (c : Ctx) : Prop where
  sees : s.ctx s.cur g = some c
  noLog : s.nextWaits s.cur = none
  noClaim : s.claimWaits s.cur = false
  checks : s.issueTrap c i op (priceOf i) = none
  pays : (s.tick.pay c (priceOf i)).2 = true
  some_lane : c.exec ≠ 0
  clean : ((paid s c i).warp c.who).bind (·.poisoned (i.use c.cls) c.exec) = none

/-- The word is not the second of a pair whose first word takes STATLIMIT when the pair ends (06 R118). -/
def NotDue (s : State) (c : Ctx) : Prop := c.second = true → (s.warp c.who).bind (·.due) = none

/-- The word stands ready, and no STATLIMIT of its pair is due: it has its own effect and its party goes on. -/
structure Issues (s : State) (i : Instr) (op : Nat) (g : Guard) (c : Ctx) : Prop where
  ready : Ready s i op g c
  notDue : NotDue s c

/-- The state once a word's effect s' is made on s and its party goes on (03 R44, R53; 04 R66). -/
def goesOn (s : State) (c : Ctx) (i : Instr) (s' : State) (f : Fin) : State :=
  (s.landNow (s.cacheWord s' c (i.use c.cls)) c.who).goOn c f

/-- The word completes with its own effect E, and its party goes on at the next word. -/
def Gives (s : State) (c : Ctx) (i : Instr) (E : State) (f : Fin := .go) : Prop := Runs i s (goesOn (paid s c i) c i E f)

/-- What register r of a lane holds: x0 holds zero; s[r] of a front end (03 R42). Results in flight are not counted. -/
def val (s : State) (w : Who) (r l : Nat) : DWord :=
  match w.party with
  | .front b => match (s.block w.core b).bind (·.front) with | some f => Tbl.get 0 f.s r | none => 0
  | .matrix _ => 0
  | _ => match s.warp w with | some x => if r = 0 then 0 else (Tbl.get 0 x.regs (32 * r + l)).setWidth 64 | none => 0

/-- What predicate n of a lane, or q[n], holds (04 R70). -/
def pval (s : State) (w : Who) (n l : Nat) : Bool :=
  match w.party with
  | .front b => match (s.block w.core b).bind (·.front) with | some f => f.p n | none => false
  | .matrix _ => false
  | _ => match s.warp w with | some x => x.p n l | none => false

/-- The state without one party: what stands beside it. -/
def beside (w : Who) (s : State) : State :=
  match w.party with
  | .front b => s.updFront w.core b fun _ => Front.start 0
  | .matrix b => s.updMatrix w.core b fun _ => Matrix.start 0
  | _ => s.setWarp w none

/-- The parts of a warp that no register word changes. -/
def warpRest (s : State) (w : Who) : Option Warp :=
  (s.warp w).map fun x => { x with
    regs := [], preds := [], prev := [], bad := [], ocBad := [], oc := [], slices := [], headers := [], hdrBad := [], gang := 0, waits := [], clause := none
    paid := false, due := none, srseed := []
    flight := { x.flight with results := [] } }

/-- The parts of a front end that no register word changes. -/
def frontRest (s : State) (w : Who) : Option Front :=
  match w.party with
  | .front b => ((s.block w.core b).bind (·.front)).map fun x =>
      { x with s := [], q := [], pc := 0, clause := none, arr := none, flight := { x.flight with results := [] } }
  | _ => none

/-- The seeds of a warp's lanes (06 R105). -/
def seeds (s : State) (w : Who) : Option (List Word) := (s.warp w).map (·.srseed)

/-! Words that write registers -/

/-- The registers that a word frees at last use with no write-back (03 R47): what their frame words hold afterwards is free. -/
def lastUses (s : State) (c : Ctx) (i : Instr) : List Nat := ((s.warp c.who).map fun w => w.freedBy (i.use c.cls)).getD []

/-- A lane that has not exited; of the others the values of a word's destinations are free where the word takes an entry unfilled (03 R45). -/
def lives (s : State) (c : Ctx) (l : Nat) : Prop := ∀ w, s.warp c.who = some w → c.cls = .lane → w.alive.getLsbD l = true

/-- The lanes of a class: a front end and a matrix stream act as one. -/
def laneCount : Cls → Nat
  | .lane => 32
  | _ => 1

/-- What a register holds once a value is written to it: 32 bits of a lane, x0 stays zero; 64 bits of s[r] (03 R42, 21 R334). -/
def landed (k : Cls) (r : Nat) (v : DWord) : DWord := if k = .front then v else if r = 0 then 0 else (v.setWidth 32).setWidth 64

/-- What a predicate holds once a value is written to it: p0 and q0 stay true (04 R70). -/
def landedP (n : Nat) (b : Bool) : Bool := n == 0 || b

/-- THE EFFECT OF A WORD THAT WRITES REGISTERS. It completes in t; in each executing lane every register of dst, and every predicate of
pdst, holds its value; every other register and predicate of the party, all of memory and, as `keep` reads it, all of the state beside
the party are as before (the registers freed at last use apart); each executing lane has taken k draws. -/
structure Wrote (keep : Who → State → State) (s : State) (i : Instr) (c : Ctx) (t : State) (dst : List (Nat × (Nat → DWord)))
    (pdst : List (Nat × (Nat → Bool))) (k : Nat) : Prop where
  runs : Runs i s t
  value : ∀ e ∈ dst, ∀ l, c.exec.getLsbD l = true → val t c.who e.1 l = landed c.cls e.1 (e.2 l)
  truth : ∀ e ∈ pdst, ∀ l, c.exec.getLsbD l = true → pval t c.who e.1 l = landedP e.1 (e.2 l)
  regs : ∀ r l, l < laneCount c.cls → ((c.exec.getLsbD l = false ∧ lives s c l) ∨ ∀ e ∈ dst, e.1 ≠ r) → r ∉ lastUses s c i →
    val t c.who r l = val s c.who r l
  preds : ∀ n l, l < laneCount c.cls → (c.exec.getLsbD l = false ∨ ∀ e ∈ pdst, e.1 ≠ n) → pval t c.who n l = pval s c.who n l
  mem : t.mem = s.mem
  warp : warpRest t c.who = warpRest s c.who
  front : frontRest t c.who = frontRest s c.who
  draws : seeds t c.who = (s.warp c.who).map fun w => (w.drawn c.exec k).srseed
  rest : keep c.who t = keep c.who (paid s c i)

/-- A word that, whenever it issues, writes registers and predicates with values computed from the state in which it is paid, and
nothing else. -/
def Computes (i : Instr) (op : Nat) (g : Guard) (dst : State → Ctx → List (Nat × (Nat → DWord)))
    (pdst : State → Ctx → List (Nat × (Nat → Bool))) : Prop :=
  ∀ s c, Issues s i op g c → ∃ t, Wrote beside s i c t (dst (paid s c i) c) (pdst (paid s c i) c) 0

/-- A function of one, two and three operands at the width of the class: 32 bits in a lane, 64 in a front end (21 R334). -/
def wide1 (p : State) (c : Ctx) (a : BitVec 8) (f : (w : Nat) → BitVec w → BitVec w) (l : Nat) : DWord :=
  if c.cls = .front then f 64 (p.get c a.toNat l) else (f 32 ((p.get c a.toNat l).setWidth 32)).setWidth 64
def wide2 (p : State) (c : Ctx) (a b : BitVec 8) (f : (w : Nat) → BitVec w → BitVec w → BitVec w) (l : Nat) : DWord :=
  if c.cls = .front then f 64 (p.get c a.toNat l) (p.get c b.toNat l)
  else (f 32 ((p.get c a.toNat l).setWidth 32) ((p.get c b.toNat l).setWidth 32)).setWidth 64
def wide3 (p : State) (c : Ctx) (a b x : BitVec 8) (f : (w : Nat) → BitVec w → BitVec w → BitVec w → BitVec w) (l : Nat) : DWord :=
  if c.cls = .front then f 64 (p.get c a.toNat l) (p.get c b.toNat l) (p.get c x.toNat l)
  else (f 32 ((p.get c a.toNat l).setWidth 32) ((p.get c b.toNat l).setWidth 32) ((p.get c x.toNat l).setWidth 32)).setWidth 64

/-- A word of Format A with one, two or three sources that computes a function of them. -/
def Computes1 (i : A2 → Instr) (op : Nat) (f : (w : Nat) → BitVec w → BitVec w) : Prop :=
  ∀ o, Computes (i o) op o.g (fun p c => [(o.d.toNat, wide1 p c o.a f)]) fun _ _ => []
def Computes2 (i : A3 → Instr) (op : Nat) (f : (w : Nat) → BitVec w → BitVec w → BitVec w) : Prop :=
  ∀ o, Computes (i o) op o.g (fun p c => [(o.d.toNat, wide2 p c o.a o.b f)]) fun _ _ => []
def Computes3 (i : A4 → Instr) (op : Nat) (f : (w : Nat) → BitVec w → BitVec w → BitVec w → BitVec w) : Prop :=
  ∀ o, Computes (i o) op o.g (fun p c => [(o.d.toNat, wide3 p c o.a o.b o.c f)]) fun _ _ => []

/-- The unassigned opcodes (05 R93). -/
def unassigned (op : Nat) : Bool :=
  (0x0A ≤ op && op ≤ 0x0F) || (0x3B ≤ op && op ≤ 0x3F) || op == 0x4F || (0x55 ≤ op && op ≤ 0x5F) || op == 0x6F || (0x7D ≤ op && op ≤ 0x7F) ||
  op == 0x87 || (0x8D ≤ op && op ≤ 0x8F) || (0x94 ≤ op && op ≤ 0x9F) || (0xAB ≤ op && op ≤ 0xAF) || 0xB8 ≤ op

/-- The issue checks of Table 14, in order (04 R85): the cause and AUX of the first that fails. A word whose price is paid has passed its
last (11 R208). -/
def failedChecks (s : State) (c : Ctx) (i : Instr) (op : Nat) : List (Cause × Nat) :=
  let frame := ((s.warp c.who).map (·.frame)).getD 256
  (if acceptsOp c.cls op then [] else [(.engine, 0)]) ++ (if i.legalIn c.cls then [] else [(.illegal, 0)]) ++
  (if c.cls = .lane ∧ (i.use c.cls).beyond frame = true then [(.frameBound, 0)] else []) ++
  (if privileged i = true ∧ s.atHandler c.who = false then [(.privDeny, 0)] else []) ++
  (if c.cls = .lane ∧ s.isPaid c.who = false ∧ priceOf i > s.cap c.who.core then [(.tokenCap, priceOf i)] else [])

/-- The next move of s is a word's of c's party: with the word's line in force, or entered in this step, the machine stands in s1 (04 R66),
where the word is v and v2 is the one after it in the line. -/
def Fetches (s s1 : State) (c : Ctx) (v v2 : DWord) : Prop :=
  ∃ rest b cl, s.servable = true ∧ s.agenda = .issue c.who :: rest ∧
    (let p := { s.advance with agenda := rest, cur := c.who }
     p.blockOf c.who = some b ∧ p.runnable c.who = true ∧ p.halted c.who = false ∧
     if (p.clauseOf c.who).any (·.line == lineOf (p.pcOf c.who)) then s1 = p else p.enter c.who b = (s1, true)) ∧
    s1.clauseOf c.who = some cl ∧ s1.ctx c.who ⟨0, false⟩ = some c ∧
    v = s1.lineWord c.who cl.phys (c.pc.toNat % 128 / 8) ∧ v2 = s1.lineWord c.who cl.phys (c.pc.toNat % 128 / 8 + 1)

/-- What steps 1 to 3 of 04 Table 14 find of a raw word in an engine class. -/
def early (k : Cls) (v : DWord) : Option Cause :=
  if unassigned (opcodeOf v) then some .illegal
  else if acceptsOp k (opcodeOf v) then
    match decode v with
    | .ok i => if i.legalIn k then none else some .illegal
    | .error _ => some .illegal
  else some .engine

/-- A register or predicate, other than the constant one, that fields name. -/
def Named (l : List RegUse) (r : Nat) : Prop := r ≠ 0 ∧ ∃ e ∈ l, e.r ≤ r ∧ r < e.r + e.n
def NamedP (l : List (Nat × Nat)) (r : Nat) : Prop := r ≠ 0 ∧ ∃ e ∈ l, e.1 ≤ r ∧ r < e.1 + e.2

/-- The pair rules (04 R82) on the words v1 and v2, which decode to i1 and i2: one is of the FMA pipe and the other of the ALU pipe, neither is
FP64, and the second names nothing that the first writes. -/
structure MayPair (v1 v2 : DWord) (i1 i2 : Instr) : Prop where
  pipes : (0x30 ≤ opcodeOf v1 ∧ opcodeOf v1 ≤ 0x3A ∧ 0x10 ≤ opcodeOf v2 ∧ opcodeOf v2 ≤ 0x2F) ∨
    (0x10 ≤ opcodeOf v1 ∧ opcodeOf v1 ≤ 0x2F ∧ 0x30 ≤ opcodeOf v2 ∧ opcodeOf v2 ≤ 0x3A)
  single : ∀ v ∈ [v1, v2], 0x30 ≤ opcodeOf v → fld 6 2 v ≠ 1
  regs : ∀ r, Named (i1.use .lane).dst r → ¬Named ((i2.use .lane).src ++ (i2.use .lane).dst) r
  preds : ∀ r, NamedP (i1.use .lane).pdst r → ¬NamedP ((i2.use .lane).psrc ++ (i2.use .lane).pdst) r

/-- No event of the running block can take an action (06 R117, R118): every threshold is 0. -/
def NoStat (s : State) : Prop := ∀ r e, (s.threshOf r e).1 = 0

/-- What stands beside a party, the statistics of regions (06 R117) apart. -/
def besideStats (w : Who) (s : State) : State := beside w { s with regions := [] }

/-- A word whose executing lanes each write n registers from d, and draw k times, and that counts events alone beside (06 R105, R115). -/
def Makes (i : Instr) (op : Nat) (g : Guard) (d n k : Nat) (ok : State → Ctx → Prop) (v : State → Ctx → Nat → Nat → DWord) : Prop :=
  ∀ s c, Issues s i op g c → NoStat (paid s c i) → ok (paid s c i) c →
    ∃ t, Wrote besideStats s i c t ((List.range n).map fun j => (d + j, fun l => v (paid s c i) c l j)) [] k

/-- The state once the branch of a word whose own effect is E is taken: lane l of the executing ones goes to t l, the others to the next
word; a target at or below the word is a switch point (02 R32, R36, R37). -/
def targets (c : Ctx) (t : Nat → DWord × Nat) (l : Nat) : Option (DWord × Nat) := if c.exec.getLsbD l then some (t l) else none
def branched (s : State) (c : Ctx) (i : Instr) (E : State) (t : Nat → DWord × Nat) : State :=
  (s.cacheWord E c (i.use c.cls)).transfer c (targets c t) ((onesOf c.exec).any fun l => decide ((t l).1.toNat ≤ c.pc.toNat))

/-- No slice of the gang would need a twenty-first split entry (02 R34). -/
def Fits (E : State) (c : Ctx) (t : Nat → DWord × Nat) : Prop := ∀ w, E.warp c.who = some w → w.overflow c (targets c t) = 0

/-- Registers, predicates, memory and what stands beside the party are the same, but for the registers of `dst` in executing lanes. -/
structure Kept (s : State) (c : Ctx) (i : Instr) (t : State) (dst : List Nat) : Prop where
  regs : ∀ r l, l < laneCount c.cls → ((c.exec.getLsbD l = false ∧ lives s c l) ∨ r ∉ dst) → r ∉ lastUses s c i → val t c.who r l = val s c.who r l
  preds : ∀ n l, l < laneCount c.cls → pval t c.who n l = pval s c.who n l
  mem : t.mem = s.mem
  warp : warpRest t c.who = warpRest s c.who
  draws : seeds t c.who = seeds s c.who
  rest : beside c.who t = beside c.who (paid s c i)

/-! Memory words -/

/-- Nothing holds a memory word back: its party waits on no log entry, the log has a free entry, its scoreboard is below its maximum
(08 R154, 03 R52). -/
structure Unheld (p : State) (w : Who) (sb : Nat) : Prop where
  owes : p.owed w = []
  log : p.freeLogs w.core ≠ []
  sb : p.sbFull w sb = false

/-- Bytes that every path, core and die reads as they stand: none is discarded, stale in the core's L1, not yet handed over to every path,
or a replica that its home holds invisible (08 R140, R155; 09 R166, R170). -/
def Plain (p : State) (w : Who) (a n : Nat) : Prop :=
  p.heldAt (dieOf w.core) a n = false ∧ ∀ k, a ≤ k → k < a + n → Tbl.get false p.mem.disc (k / 32) = false ∧ Tbl.get none (p.core w.core).l1.old k = none ∧
    Tbl.get [] p.mem.path k = []

/-- What a memory word changes nothing of: predicates, generators, the parts of its warp other than registers, place, cache and stores in
flight, the other warps, the package's registers, the regions, the dies, and the bytes of memory and of the peers. -/
structure Aside (p t : State) (c : Ctx) : Prop where
  preds : ∀ n l, l < laneCount c.cls → pval t c.who n l = pval p c.who n l
  draws : seeds t c.who = seeds p c.who
  warp : (warpRest t c.who).map (fun w => { w with flight := Flight.init }) = (warpRest p c.who).map fun w => { w with flight := Flight.init }
  others : ∀ w, w ≠ c.who → t.warp w = p.warp w
  pkg : t.regs = p.regs
  regions : t.regions = p.regions
  dies : t.die0 = p.die0 ∧ t.die1 = p.die1
  peers : t.mem.peer = p.mem.peer

/-- The values of a load or an atomic, v l for lane l, reach n registers from d: at once without a scoreboard; else as one result in
flight, counted in its scoreboard (03 R52, R53; 22 R340). No other register of the party changes. -/
structure Delivers (p t : State) (c : Ctx) (sb d n : Nat) (v : Nat → Nat) : Prop where
  now : sb = 0 → ∀ l j, c.exec.getLsbD l = true → j < n →
    val t c.who (d + j) l = landed c.cls (d + j) (BitVec.ofNat 64 (if c.cls = .front then v l else v l / 2 ^ (32 * j) % 2 ^ 32))
  later : sb ≠ 0 → (∀ r l, l < laneCount c.cls → val t c.who r l = val p c.who r l) ∧
    Tbl.get 0 (t.flight c.who).sb sb = Tbl.get 0 (p.flight c.who).sb sb + 1 ∧
    ∃ r : Result, (t.flight c.who).results = (p.flight c.who).results ++ [r] ∧ r.sb = sb ∧ r.claim = none ∧
      ∀ l j, c.exec.getLsbD l = true → j < n → (c.cls = .front → (d, BitVec.ofNat 64 (v l)) ∈ r.vals) ∧
        (c.cls = .lane → d + j ≠ 0 → (32 * (d + j) + l, BitVec.ofNat 64 (v l / 2 ^ (32 * j) % 2 ^ 32)) ∈ r.vals)
  others : ∀ r l, l < laneCount c.cls → (c.exec.getLsbD l = false ∨ r < d ∨ d + n ≤ r) → val t c.who r l = val p c.who r l

/-- A value of a size as it stands in registers (22 R340): signed sizes are sign-extended to 64 bits. -/
def extended (z : Size) (bs : List Byte) : Nat :=
  match z with
  | .s8 => ((BitVec.ofNat 8 (natOf bs)).signExtend 64).toNat
  | .s16 => ((BitVec.ofNat 16 (natOf bs)).signExtend 64).toNat
  | _ => natOf bs

/-- The address of a global access of Format M, and its data: registers from t, or s[t]. -/
def memAddr (p : State) (c : Ctx) (o : MemF) (l : Nat) : DWord := p.get64 c o.a.toNat l + o.off.signExtend 64
def memData (p : State) (c : Ctx) (t : BitVec 8) (z : Size) (l : Nat) : Nat :=
  if c.cls = .front then (p.get c t.toNat l).toNat
  else ((List.range (z.regs .lane)).map fun j => (p.get c (t.toNat + j) l).toNat * 2 ^ (32 * j)).sum

/-- An access of n bytes at va by a word of c passes every check (08 R153, 12 R240, R241, 08 R149, R139): the leaf it reaches. -/
structure Reaches (p : State) (c : Ctx) (kind : Access) (n : Nat) (va : DWord) (l : Leaf) : Prop where
  aligned : va.toNat % n = 0
  leaf : p.access c.who.core c.blk.dealt.asid (some c.who) kind true (p.atHandler c.who) va = .ok l
  free : p.locked c.who.core false c.blk.dealt.asid (kind != .load) va.toNat n = none
  alive : l.q = false → (p.die l.home).dead = false
  clean : kind = .store ∨ (p.readBad (dieOf c.who.core) false l n = none ∧ (p.core c.who.core).l1.badAt l.phys n = none)

/-- A release may go on at once (09 R163, R171): no store is lost, and at `.pkg` or wider none is outstanding, at `.sys` none to a peer
either. The word is not itself a store that has begun (09 R164, R176). -/
def ReleaseFree (p : State) (c : Ctx) (o : Order) (sc : Scope) : Prop :=
  (p.flight c.who).begun c.pc = false ∧ (isRel o = true → (p.flight c.who).sq.lost = [] ∧
    (scopePkg sc = true → (p.flight c.who).sq.ents = [] ∧ p.linkQuiet = true) ∧ (sc = .sys → p.peerQuiet c.who = true))

/-! Words on what a block shares -/

/-- What a word on shared objects leaves alone: all that a memory word does, every register of its party but those of `dst` in executing
lanes, and every byte of memory. -/
structure Calm (p t : State) (c : Ctx) (dst : List Nat) : Prop where
  aside : Aside p t c
  regs : ∀ r l, l < laneCount c.cls → ((c.exec.getLsbD l = false ∧ lives p c l) ∨ r ∉ dst) → val t c.who r l = val p c.who r l
  mem : t.mem.mem = p.mem.mem

/-- A block but for its streams and the hand-offs of its scratch. -/
def blockRest (s : State) (core slot : Nat) : Option Block :=
  (s.block core slot).map fun b => { b with front := none, matrix := none, scratch := { b.scratch with path := [] } }

/-- The word completes: it changes no register but those of `dst` and no memory, and leaves of its block what E holds. -/
def Shares (s : State) (c : Ctx) (i : Instr) (dst : List Nat) (E : State) (more : State → Prop) : Prop :=
  ∃ t, Runs i s t ∧ Calm (paid s c i) t c dst ∧ blockRest t (s.bcore c) (s.bslot c) = blockRest E (s.bcore c) (s.bslot c) ∧ more t

/-- Nothing of the party is outstanding that a release waits for (09 R163, R171; 08 R154). -/
structure Settled (p : State) (w : Who) (sc : Scope) : Prop where
  owes : p.owed w = []
  stored : (p.flight w).sq = ⟨[], []⟩
  link : scopePkg sc = true → p.linkQuiet = true
  peers : sc = .sys → p.peerQuiet w = true

/-- The value of w bits given one by one. -/
def ofBits (w : Nat) (f : Nat → Bool) : BitVec w := BitVec.ofNat w (((List.range w).map fun k => (f k).toNat * 2 ^ k).sum)

end Sys2Proof.Safety
end

