-- ==== Sys2Proof/Certificates/Slice0/Obligations.lean ====
section
/-! DEFINITION. The statements for the provers, each a claim about the machine that the rules of spec/ make. `Issues s i op g c` says
when a word stands ready to have its own effect (04 R66, R70, R85; 08 R154; 11 R208; 12 R241; 20 R302). -/

open Sys2Proof Sys2Proof.Machine Sys2Proof.Safety

/-! Encoding -/

/-- Every well-formed word is read back from its encoding, with every operand (04 R69 to R78, 05 R90). -/
def Obligations.EncodedWordDecodes : Prop := ∀ i : Instr, i.wf = true → decode (encode i) = .ok i

/-- The decoder drops no bit: a word that decodes is the encoding of what it decodes to. -/
def Obligations.DecodedWordReencodes : Prop := ∀ (v : DWord) (i : Instr), decode v = .ok i → encode i = v

/-- Words that the reference entries write out (R290, R338, R345, R346, R353, R363, R378, R381, R383, R394, R397, R398). -/
def Obligations.SpecWordsDecode : Prop :=
  let g : Guard := ⟨0, false⟩
  decode 0x2003040500000000#64 = .ok (.and ⟨3, 4, 5, g, .none, .none, .none⟩) ∧
  decode 0x1A01001406000000#64 = .ok (.iset .ltU ⟨1, 0, 20, g, .none, .none⟩) ∧
  decode 0x1C02020600000404#64 = .ok (.lea ⟨2, 2, 6, g, .none, .none, .last⟩ 4) ∧
  decode 0x2403040506000096#64 = .ok (.lop3 ⟨3, 4, 5, 6, g, .none, .none, .none, .none⟩ 0x96) ∧
  decode 0x1D052F0000001000#64 = .ok (.mov ⟨5, 47, g, .none, .last⟩) ∧
  decode 0x2E03010200000088#64 = .ok (.plop 3 1 2 0 g 0x88) ∧
  decode 0x2601001A00000000#64 = .ok (.shr ⟨1, 0, 26, g, .none, .none, .none⟩) ∧
  decode 0x1B211F1E08000000#64 = .ok (.sel ⟨33, 31, 30, g, .none, .none, .none⟩ 8) ∧
  decode 0x1F20090000000000#64 = .ok (.x2p 32 9 g .none) ∧
  decode 0x2236051B00000000#64 = .ok (.xor ⟨54, 5, 27, g, .none, .none, .none⟩) ∧
  decode 0x50090A0B0000001A#64 = .ok (.shfl .ahead false 3 ⟨9, 10, 11, g, .none, .none, .none⟩) ∧
  decode 0x5109030000000002#64 = .ok (.vote .mask 9 3 g .none)

/-- A word with an unassigned opcode is the row UNASSIGNED_OPCODE; whatever the party that it stands before, in every engine class, it traps
ILLEGAL, with the party's active lanes, before it has any effect. A word of all zeros is NOP with guard p0. -/
def Obligations.UnassignedOpcodeTraps : Prop :=
  decode 0 = .ok (.nop ⟨0, false⟩) ∧ ∀ (v : DWord) (s : State) (c : Ctx), unassigned (opcodeOf v) = true → s.ctx s.cur ⟨0, false⟩ = some c → s.nextWaits c.who = none →
    s.claimWaits c.who = false →
    decode v = .ok (.unassignedOpcode v) ∧
    Runs (.unassignedOpcode v) s (s.takeTrap c.who c.pc c.next (TrapArgs.of .illegal 0 0 c.active))

/-! The machine -/

/-- What reset leaves, where the spec gives the value (11 R213, 12 R230, 23 R384, 06 R105): the fields of the token, droop and thermal registers,
every register of package, die, cluster, core and region scope as 23 Table 7 lists it, no party anywhere; and the registers that a block and
a warp start with. -/
def Obligations.ResetGivesStatedValues : Prop :=
  let s := State.reset
  (∀ d, fld 0 14 (s.die d).mintCfg = 14336 ∧ flag 14 (s.die d).mintCfg = true ∧ flag 15 (s.die d).mintCfg = true ∧
    fld 16 8 (s.die d).mintCfg = 32 ∧ (s.die d).tokCap = 4096 ∧ (s.die d).headThr = 64 ∧ fld 0 8 (s.die d).thermCfg = 95 ∧
    fld 8 8 (s.die d).thermCfg = 105 ∧ fld 16 8 (s.die d).thermCfg = 115 ∧ fld 0 4 (s.die d).thermHys = 5 ∧
    fld 4 4 (s.die d).thermHys = 5 ∧ fld 8 4 (s.die d).thermHys = 5 ∧ (s.die d).level = 0 ∧ (s.die d).mint.tokRet = 0) ∧
  (∀ k, fld 0 6 (s.cluster k).droopCfg = 18 ∧ fld 6 4 (s.cluster k).droopCfg = 6 ∧ fld 10 8 (s.cluster k).droopCfg = 64 ∧
    flag 18 (s.cluster k).droopCfg = true ∧ (s.cluster k).droopCnt = 0) ∧
  s.regs.fqbase = 0 ∧ s.regs.fqsize = 4 ∧ s.regs.fqhead = 0 ∧ s.regs.fqtail = 0 ∧ s.regs.fqdrop = 0 ∧
  (∀ w, s.warp w = none) ∧ (∀ core b, s.block core b = none) ∧ s.tref = 0 ∧
  (∀ core idx, s.pkgReg core 0x00 idx = 0x100 ∧ s.pkgReg core 0x35 idx = 0x00FFFFFFFFFFFFFF ∧ s.pkgReg core 0x41 idx = 4 ∧
    s.pkgReg core 0x50 idx = 14336 + 2 ^ 14 + 2 ^ 15 + 32 * 2 ^ 16 ∧ s.pkgReg core 0x51 idx = 14336 + 2 ^ 20 ∧
    s.pkgReg core 0x53 idx = 4096 ∧ s.pkgReg core 0x54 idx = 64 ∧ s.pkgReg core 0x55 idx = 18 + 6 * 2 ^ 6 + 64 * 2 ^ 10 + 2 ^ 18 ∧
    s.pkgReg core 0x56 idx = 95 + 105 * 2 ^ 8 + 115 * 2 ^ 16 ∧ s.pkgReg core 0x57 idx = 5 + 5 * 2 ^ 4 + 5 * 2 ^ 8 ∧
    fld 13 3 (BitVec.ofNat 32 (s.pkgReg core 0x58 idx)) = 0 ∧
    ∀ id ∈ [0x11, 0x12, 0x13, 0x14, 0x15, 0x30, 0x32, 0x33, 0x36, 0x37, 0x39, 0x40, 0x42, 0x43, 0x44, 0x48, 0x49, 0x52, 0x60, 0x61, 0x63,
      0x68, 0x69, 0x6A], s.pkgReg core id idx = 0) ∧
  (∀ core r, s.tokbal core r = 0) ∧ (∀ r i, (Tbl.get Stat.init (s.region r).stats i).count = 0) ∧
  ∀ d t n, (freshBlock d t).msrseed = 1 ∧ (freshWarp d t n).mctab = 0 ∧ (t = none → (freshWarp d t n).role = 3) ∧
    ∀ l, l < 32 → (freshWarp d t n).srseed[l]? = some (BitVec.ofNat 32 ((64 * n + l + 1) * 0x9E3779B9))

/-- Memory is in canonical form after reset. -/
def Obligations.ResetMemoryIsCanonical : Prop := Inv State.reset

/-- Every step, of any word of any party and any event of the device, keeps memory and the peers' memory in canonical form. -/
def Obligations.StepKeepsMemoryCanonical : Prop := ∀ s t : State, Inv s → Steps s t → Inv t

/-- A package that has power, or whose next event the standby supply serves, always steps to a next state; without power it stops with the
fault that says so, the model's choice (entry 30); no step ever ends in a refusal. -/
def Obligations.PoweredPackageSteps : Prop :=
  ∀ s : State, (s.servable = true → ∃ t, Steps s t) ∧ (s.servable = false → step s = .fault .powerOff)

/-- A STEP RUNS THE DECODED WORD: where a party moves and has its line in force, or enters it in this step (s1 is the state then), and the
word of that line at its program counter is no first word of a pair and decodes to i, the step is exec of i at s1. A step whose next move is
an event of the device runs that event. In both the time has advanced. A word with an assigned opcode that the engine class does not allow
traps ENGINE, and one that does not decode, since a fixed-zero field is not zero or a code is invalid, traps ILLEGAL (04 R85, steps 2 and
3), before any effect. The first word of a pair is issued with the second. -/
def Obligations.StepRunsDecodedWord : Prop :=
  (∀ (s s1 : State) (c : Ctx) (v v2 : DWord) (i : Instr), Fetches s s1 c v v2 → (c.first && c.cls == .lane) = false →
      acceptsOp c.cls (opcodeOf v) = true → decode v = .ok i → step s = exec i s1) ∧
  (∀ (s s1 : State) (c : Ctx) (v v2 : DWord) (x : Cause), Fetches s s1 c v v2 → (c.first && c.cls == .lane) = false →
      s1.nextWaits c.who = none → s1.claimWaits c.who = false → early c.cls v = some x → (∀ i, decode v = .ok i → acceptsOp c.cls (opcodeOf v) = false) →
      step s = .next (s1.takeTrap c.who c.pc c.next (TrapArgs.of x 0 0 c.active))) ∧
  (∀ (s s1 : State) (c : Ctx) (v v2 : DWord), Fetches s s1 c v v2 → c.first = true → c.cls = .lane → step s = issuePair exec s1 c v v2) ∧
  (∀ (s : State) (i : Instr) (rest : List Move), s.servable = true → s.agenda = .event i :: rest → isEvent i = true →
      step s = exec i { s.advance with agenda := rest })

/-! Issue -/

/-- A word that fails issue checks raises the first trap found, before it pays or has any effect; a word that waits for its payment is checked
against TOKENCAP again, and a paid one is not (entry 32).
A PAIR (04 R82, R85): a word of it that fails steps 1 to 3 traps first, then the pair rules, which trap at the first word, then FRAMEBOUND, then
TOKENCAP on the summed price (entry 12 has the order between the two words); a pair that is not paid asks for the sum once and waits with no
effect; a paid one issues its first word and then, where that completed, its second, and asks for nothing more.
ERET, TLBINV, PROBE, WSAVE and WLOAD outside handler level trap PRIVDENY at issue, in a lane clause whose frame holds their operands
(05 R97). -/
def Obligations.FailedChecksTrap : Prop :=
  (
    ∀ (s : State) (i : Instr) (op : Nat) (g : Guard) (k : Ctx → State → Res) (c : Ctx) (x : Cause) (aux : Nat) (l : List (Cause × Nat)),
      s.ctx s.cur g = some c → s.nextWaits s.cur = none → s.claimWaits s.cur = false → failedChecks s c i op = (x, aux) :: l →
      s.issue i op g k = .next ((s.tick.dropWide c.who).takeTrap c.who c.pc c.next (TrapArgs.of x 0 aux c.active))) ∧
  (
    ∀ (s : State) (c : Ctx) (w : Warp) (v1 v2 : DWord), s.warp c.who = some w → c.cls = .lane → s.nextWaits c.who = none → s.claimWaits c.who = false →
      let after : DWord := nextWord c.next (hdrCount (((s.clauseOf c.who).map (·.hdr)).getD 0))
      let first (x : Cause) (aux : Nat) : Prop :=
        issuePair exec s c v1 v2 = .next ((s.dropWide c.who).takeTrap c.who c.pc c.next (TrapArgs.of x 0 aux c.active))
      let second (x : Cause) : Prop :=
        issuePair exec s c v1 v2 = .next ((s.dropWide c.who).takeTrapAt c.who c.next c.pc after (TrapArgs.of x 0 0 c.active))
      (∀ x, early .lane v1 = some x → first x 0) ∧ (∀ x, early .lane v1 = none → early .lane v2 = some x → second x) ∧
      ∀ i1 i2, early .lane v1 = none → early .lane v2 = none → decode v1 = .ok i1 → decode v2 = .ok i2 →
        let price := priceOf i1 + priceOf i2
        let far (i : Instr) : Prop := (i.use .lane).beyond w.frame = true
        let mark (k : Nat) (t : State) : State := t.updWarp c.who fun x => { x with paid := decide (0 < k) }
        (¬MayPair v1 v2 i1 i2 → first .pair 0) ∧
        (MayPair v1 v2 i1 i2 →
          (far i1 → first .frameBound 0) ∧ (¬far i1 → far i2 → second .frameBound) ∧
          (¬far i1 → ¬far i2 →
            (w.paid = false → price > s.cap c.who.core → first .tokenCap price) ∧
            (w.paid = false → 0 < price → price ≤ s.cap c.who.core →
              issuePair exec s c v1 v2 = .next (s.requestWide c.who price c.blk.dealt.region)) ∧
            (w.paid = true → 0 < price → ∀ t, exec i1 (mark (priceOf i1) s) = .next t →
              (t.runnable c.who = true → t.pcOf c.who = c.pc + 8 → (t.clauseOf c.who).isSome = true →
                issuePair exec s c v1 v2 = exec i2 (mark (priceOf i2) t)) ∧
              ((t.runnable c.who = true ∧ t.pcOf c.who = c.pc + 8 ∧ (t.clauseOf c.who).isSome = true) ∨
                issuePair exec s c v1 v2 = .next (mark 0 t)))))) ∧
  (
    let denied (i : Instr) (g : Guard) : Prop := ∀ (s : State) (c : Ctx), s.ctx s.cur g = some c → c.cls = .lane →
      s.nextWaits s.cur = none → s.claimWaits s.cur = false → s.atHandler c.who = false →
      i.legalIn .lane = true → (∀ w, s.warp c.who = some w → (i.use .lane).beyond w.frame = false) →
      Runs i s ((s.tick.dropWide c.who).takeTrap c.who c.pc c.next (TrapArgs.of .privDeny 0 0 c.active))
    denied .eretReplay noGuard ∧ denied .eretResume noGuard ∧
    (∀ a g sc n, denied (.tlbinv a g sc n) g) ∧ (∀ g sc n, denied (.tlbinvAsid g sc n) g) ∧ (∀ g sc, denied (.tlbinvAll g sc) g) ∧
    (∀ d a g, denied (.probe d a g) g) ∧ (∀ d a g n, denied (.probeAs d a g n) g) ∧
    (∀ a g k, denied (.wsave a g k) g) ∧ (∀ a g k, denied (.wsaveFrame a g k) g) ∧
    (∀ a g k, denied (.wload a g k) g) ∧ (∀ a g k, denied (.wloadFrame a g k) g))

/-- A guard selects the lanes (04 R70), and a word that executes in none has no effect on registers, predicates, memory or scoreboards;
it is charged, and its party goes on. -/
def Obligations.GuardSelectsLanes : Prop :=
  (∀ (s : State) (g : Guard) (c : Ctx), s.ctx s.cur g = some c → c.cls ≠ .matrix → ∀ l, l < laneCount c.cls →
    c.exec.getLsbD l = (c.active.getLsbD l && pval s c.who g.p.toNat l != g.n)) ∧
  (∀ (s : State) (i : Instr) (op : Nat) (g : Guard) (k : Ctx → State → Res) (c : Ctx),
    s.ctx s.cur g = some c → s.nextWaits s.cur = none → s.claimWaits s.cur = false → s.issueTrap c i op (priceOf i) = none →
    (s.tick.pay c (priceOf i)).2 = true → c.exec = 0 → NotDue s c →
    ∃ t, s.issue i op g k = .next t ∧ (∀ r l, l < laneCount c.cls → val t c.who r l = val s c.who r l) ∧
      (∀ n l, l < laneCount c.cls → pval t c.who n l = pval s c.who n l) ∧ t.mem = s.mem ∧ t.flight c.who = s.flight c.who ∧
      warpRest t c.who = warpRest s c.who ∧ frontRest t c.who = frontRest s c.who ∧ beside c.who t = beside c.who (paid s c i))

/-- THE PAYMENT OF A WIDE REQUEST (11 R208, R209): a word of price 0, or of no warp, asks for nothing; another issues only once it has been
paid, and until then it waits, uncharged, among its core's requests, the oldest first. A request that no hold bars and whose scheduler is
free in the cluster cycle is paid where its account covers the price: it is then charged that price and no other account changes; a balance
below the price charges nothing. -/
def Obligations.WideRequestIsCharged : Prop :=
  let bal (s : State) (core k : Nat) : Nat := (s.core core).tokens.balance k
  let wide (s : State) (core : Nat) : List Wide := (s.core core).tokens.wide
  (∀ (s : State) (c : Ctx) (price : Nat), price = 0 ∨ c.cls ≠ .lane → s.pay c price = (s, true)) ∧
  (∀ (s : State) (c : Ctx) (price : Nat) (x : Warp), s.warp c.who = some x → 0 < price → c.cls = .lane →
    let t := s.pay c price
    (x.paid = true → t = (s.updWarp c.who fun y => { y with paid := false }, true)) ∧
    (x.paid = false → t.2 = false ∧ (∀ k, bal t.1 c.who.core k = bal s c.who.core k) ∧
      (∃ q ∈ wide t.1 c.who.core, q.who = c.who) ∧ (∀ q ∈ wide s c.who.core, q ∈ wide t.1 c.who.core) ∧
      (∀ q ∈ wide t.1 c.who.core, q ∈ wide s c.who.core ∨ q = ⟨c.who, price, c.blk.dealt.region, (s.die (dieOf c.who.core)).mint.cycle⟩) ∧
      ((wide s c.who.core).Pairwise (fun a b => a.age ≤ b.age) → (wide t.1 c.who.core).Pairwise fun a b => a.age ≤ b.age))) ∧
  (∀ (s : State) (core : Nat) (q : Wide), (s.core core).tokens.hold = none → s.payerFree core q.who.party = true →
    let t := s.payOne core q
    (q.price ≤ bal s core q.region → bal t core q.region = bal s core q.region - q.price ∧ (∀ k, k ≠ q.region → bal t core k = bal s core k) ∧
      q ∉ wide t core ∧ (∀ x, s.warp q.who = some x → partyCls q.who.party = .lane → t.isPaid q.who = true)) ∧
    (bal s core q.region < q.price → t = s))

/-- An operand is what its register holds, where no result is in flight to the party (03 R42, R53); x0 reads zero whatever is in flight,
and a write to it leaves every register as it was. -/
def Obligations.OperandsReadRegisters : Prop :=
  (∀ (s : State) (c : Ctx) (r l : Nat), (s.flight c.who).results = [] → s.get c r l = val s c.who r l) ∧
  (∀ (s : State) (c : Ctx) (l : Nat), partyCls c.who.party = .lane → s.get c 0 l = 0) ∧
  (∀ (s : State) (c : Ctx) (m : BitVec 32) (v : Nat → DWord) (w : Who) (r l : Nat), partyCls c.who.party = .lane →
    val (s.put c m 0 v) w r l = val s w r l)

/-! Traps -/

/-- TAKING A TRAP IN HARDWARE MODE (12 R227): the trapping gang's slices are recorded, the record stands in FREC, the gang enters the
trap vector at word 1 with the same lanes, and the other slices, the registers, the frame and everything beside the warp are as before. -/
def Obligations.HardwareTrapEntersHandler : Prop :=
  ∀ (s : State) (w : Who) (at_ pc next : DWord) (a : TrapArgs) (b : Block) (x : Warp),
    s.blockOf w = some b → s.warp w = some x → x.handler = none → s.hostAssisted b.dealt.region b.dealt.vec a = false →
    let r := s.trapRecord w b at_ false a
    let t := s.takeTrapAt w at_ pc next a
    ∃ y, t.warp w = some y ∧ y.handler = some ⟨x.slices, x.gang, x.clause, ⟨a.cause, r, pc, next, a.log, none⟩⟩ ∧ y.frec = r ∧ y.clause = none ∧
      (∀ k e, x.slices[k]? = some e → ∃ e', y.slices[k]? = some e' ∧ e'.mask = e.mask ∧ e'.depth = e.depth ∧
        (x.gang.getLsbD k = true → e'.pc = b.dealt.vec + 8 ∧ e'.stack = []) ∧ (x.gang.getLsbD k = false → e' = e)) ∧
      { y with handler := x.handler, frec := x.frec, clause := x.clause, slices := x.slices, oc := x.oc } = x ∧
      y.oc.length = x.oc.length ∧ (∀ e ∈ y.oc, e.pin = false) ∧ t.atHandler w = true ∧ beside w t = beside w s

/-- TAKING A TRAP IN HOST-ASSISTED MODE (12 R228): the record is posted to the fault queue and the party parks; it may not issue until
it is released, and its registers are as before. -/
def Obligations.HostAssistedTrapParks : Prop :=
  ∀ (s : State) (w : Who) (at_ pc next : DWord) (a : TrapArgs) (b : Block), s.blockOf w = some b →
    let r := s.trapRecord w b at_ true a
    let t := s.takeTrapAt w at_ pc next a
    let q := s.post b.dealt.region r
    let info : TrapInfo := ⟨a.cause, r, pc, next, a.log, none⟩
    (∀ x, s.warp w = some x → (x.handler.isSome = true ∨ s.hostAssisted b.dealt.region b.dealt.vec a = true) →
      t = q.updWarp w (fun y => { y with park := some info }) ∧ t.runnable w = false ∧ t.mem = q.mem ∧ t.regs = q.regs ∧
      (∀ n l, val t w n l = val s w n l)) ∧
    (∀ k, w.party = .front k → t = q.updFront w.core k (fun y => { y with park := some info }) ∧ t.runnable w = false) ∧
    (∀ k, w.party = .matrix k → t = q.updMatrix w.core k (fun y => { y with park := some info }) ∧ t.runnable w = false)

/-- THE MODE OF A TRAP OF A WARP (12 R226), given its block's trap vector. -/
def Obligations.TrapModeFollowsFmode : Prop :=
  ∀ (s : State) (r : Nat) (v : DWord) (a : TrapArgs),
    let host := s.hostAssisted r v a
    let bit (k : Nat) : Bool := s.effFmode k r
    (v = 0 → host = true) ∧
    (v ≠ 0 →
      (a.cause ∈ [.poison, .ackLost, .peerLost] → host = bit 286) ∧ (a.cause = .statLimit → host = bit 287) ∧
      (a.cause = .migrating → host = bit 285) ∧ (a.cause = .remote → a.access = true → host = bit (if a.mig then 284 else 283)) ∧
      (a.cause ∈ [.notPresent, .privDeny, .readDeny, .writeDeny, .atomDeny, .execDeny] → host = (a.access && bit 283)) ∧
      (a.cause ∈ [.align, .rangeLock, .mcPerm, .illegal, .engine, .pair, .retEmpty, .divDepth, .frameGrow, .scrGrow, .frameBound, .barOver,
        .barErr, .tokenCap, .fpTrap, .swTrap, .bkpt, .migScope, .ringErr, .roleErr] → host = false))

/-- ERET (12 R227, 22 R312): handler level ends; the recorded slices of the trapping gang stand again, at the word a replay issues or at
the one after it, with the lanes that are still alive; other slices keep their place; registers and memory are as the handler left
them. -/
def Obligations.EretRestoresTrappedGang : Prop :=
  ∀ (resume : Bool) (s : State) (c : Ctx) (x : Warp) (h : HandlerSave),
    let i : Instr := if resume then .eretResume else .eretReplay
    Ready s i 0xB3 noGuard c → s.warp c.who = some x → x.handler = some h → h.info.log = none → h.slices.length = x.slices.length →
    ∃ t y, Runs i s t ∧ t.warp c.who = some y ∧ y.handler = none ∧ y.gang = h.gang ∧ y.clause = none ∧
      (∀ k e f, h.slices[k]? = some e → x.slices[k]? = some f → ∃ z, y.slices[k]? = some z ∧
        (h.gang.getLsbD k = true → z.pc = (if resume then h.info.next else h.info.pc) ∧ z.depth = e.depth ∧
          z.mask = e.mask &&& x.alive.extractLsb' (4 * k) 4 ∧ z.stack.length = e.stack.length) ∧
        (h.gang.getLsbD k = false → z.pc = f.pc ∧ z.depth = f.depth)) ∧
      { y with handler := x.handler, gang := x.gang, clause := x.clause, slices := x.slices, oc := x.oc, resumed := x.resumed } = x ∧
      t.mem = s.mem ∧ beside c.who t = beside c.who (paid s c i)

/-- THE HOST'S FAULT QUEUE (12 R230), while die 0 lives: a record is written at FQBASE + 64 × (FQTAIL mod 2^LOG) and FQTAIL advances by
1; where the queue is full or FQBASE is 0 it is dropped and counted, and memory is as before. -/
def Obligations.FaultQueueTakesRecords : Prop :=
  ∀ (s : State) (region : Nat) (r : BitVec 512), s.die0.dead = false → s.regs.fqbase.toNat % 64 = 0 →
    let log := fld 0 5 s.regs.fqsize
    let n := if 4 ≤ log ∧ log ≤ 16 then 2 ^ log else 2 ^ 4
    let a := s.regs.fqbase.toNat + 64 * (s.regs.fqtail.toNat % n)
    let t := s.post region r
    (s.regs.fqbase ≠ 0 → (s.regs.fqtail - s.regs.fqhead).toNat ≠ n →
      t.regs = { s.regs with fqtail := s.regs.fqtail + 1 } ∧
      (∀ k, Tbl.get 0 t.mem.mem k = if a ≤ k ∧ k < a + 64 then r.extractLsb' (8 * (k - a)) 8 else Tbl.get 0 s.mem.mem k)) ∧
    (s.regs.fqbase = 0 ∨ (s.regs.fqtail - s.regs.fqhead).toNat = n →
      t = { s with regs := { s.regs with fqdrop := s.regs.fqdrop + 1 } })

/-! Integer words (21 R332 to R338): W is 32 in a lane and 64 in a FRONT clause -/

/-- IADD, ISUB, IMUL, IMAD, IMULH (21 R333, R337): sums and products mod 2^W, and the high half of the product.
IDIV and IREM with their edge cases (21 R335), IMIN and IMAX, and IABS: the most negative value is its own absolute value (21 R332,
R336). -/
def Obligations.IntegerArithmetic : Prop :=
  (
    Computes2 .iadd 0x10 (fun _ a b => a + b) ∧ Computes2 .isub 0x11 (fun _ a b => a - b) ∧ Computes2 .imul 0x12 (fun _ a b => a * b) ∧
    Computes3 .imad 0x14 (fun _ a b x => a * b + x) ∧
    Computes2 (.imulh true) 0x13 (fun w a b => (a.signExtend (2 * w) * b.signExtend (2 * w)).extractLsb' w w) ∧
    Computes2 (.imulh false) 0x13 (fun w a b => (a.setWidth (2 * w) * b.setWidth (2 * w)).extractLsb' w w)) ∧
  (
    (Computes2 (.idiv true) 0x15 (fun w a b => if b = 0 then BitVec.allOnes w else a.sdiv b) ∧
      Computes2 (.idiv false) 0x15 (fun w a b => if b = 0 then BitVec.allOnes w else a.udiv b) ∧
      Computes2 (.irem true) 0x16 (fun _ a b => a.srem b) ∧ Computes2 (.irem false) 0x16 (fun _ a b => a.umod b)) ∧
    (Computes2 (.imin true) 0x17 (fun _ a b => if a.sle b then a else b) ∧ Computes2 (.imin false) 0x17 (fun _ a b => if a.ule b then a else b) ∧
      Computes2 (.imax true) 0x18 (fun _ a b => if b.sle a then a else b) ∧ Computes2 (.imax false) 0x18 (fun _ a b => if b.ule a then a else b) ∧
      Computes1 .iabs 0x19 (fun _ a => if a.msb then -a else a)))

/-- ISET (21 Table 9), and PLOP, P2X and X2P (22 R359, R363, 23 R397): p0 and q0 read true and keep so; P2X and X2P move 32 predicates in a
lane and 16 in a FRONT clause. -/
def Obligations.CompareAndPredicateWords : Prop :=
  (
    let holds (cmp : ICmp) (w : Nat) (a b : BitVec w) : Bool :=
      match cmp with
      | .eq => decide (a = b) | .ne => decide (a ≠ b) | .ltS => decide (a.toInt < b.toInt) | .leS => decide (a.toInt ≤ b.toInt)
      | .gtS => decide (a.toInt > b.toInt) | .geS => decide (a.toInt ≥ b.toInt) | .ltU => decide (a.toNat < b.toNat)
      | .leU => decide (a.toNat ≤ b.toNat) | .gtU => decide (a.toNat > b.toNat) | .geU => decide (a.toNat ≥ b.toNat)
    ∀ (cmp : ICmp) (o : ASet), Computes (.iset cmp o) 0x1A o.g (fun _ _ => []) fun p c => [(o.d.toNat, fun l =>
      if c.cls = .front then holds cmp 64 (p.get c o.a.toNat l) (p.get c o.b.toNat l)
      else holds cmp 32 ((p.get c o.a.toNat l).setWidth 32) ((p.get c o.b.toNat l).setWidth 32))]) ∧
  (
    let group (c : Ctx) : Nat := if c.cls = .front then 16 else 32
    (∀ d a b x g tab, Computes (.plop d a b x g tab) 0x2E g (fun _ _ => []) fun p c => [(d.toNat, fun l =>
      tab.getLsbD ((pval p c.who a.toNat l).toNat + 2 * (pval p c.who b.toNat l).toNat + 4 * (pval p c.who x.toNat l).toNat))]) ∧
    (∀ d a g h, Computes (.p2x d a g h) 0x2F g
      (fun p c => [(d.toNat, fun l => ofBits 64 fun k => decide (k < group c) && pval p c.who (a.toNat + k) l)]) fun _ _ => []) ∧
    ∀ d a g h, Computes (.x2p d a g h) 0x1F g (fun _ _ => []) fun p c =>
      (List.range (group c)).map fun k => (d.toNat + k, fun l => (p.get c a.toNat l).getLsbD k))

/-- MOV, MOVI, SEL and LEA (22 R353, 23 R381, 22 R345). MOVI writes imm32, sign-extended in a FRONT clause; SEL takes a where
predicate c is true and b elsewhere.
CLZ, POPC and BREV (20 R300, R304, 22 R364), and BFX and BFI (20 R297): the field of length b[15:8] at position b[7:0], cut to the word. -/
def Obligations.MoveSelectAndBitWords : Prop :=
  (Computes1 .clz 0x29 (fun w a => BitVec.ofNat w ((List.range w).takeWhile fun k => !a.getLsbD (w - 1 - k)).length) ∧
    Computes1 .popc 0x2A (fun w a => BitVec.ofNat w (((List.range w).map fun k => (a.getLsbD k).toNat).sum)) ∧
    Computes1 .brev 0x2B (fun w a => ofBits w fun k => a.getLsbD (w - 1 - k))) ∧
  (
    let pos (w b : Nat) : Nat := min (b % 256) w
    let len (w b : Nat) : Nat := min (b / 256 % 256) (w - pos w b)
    (∀ sgd : Bool, Computes2 (.bfx sgd) 0x2C fun w a b => ofBits w fun k =>
      let p := pos w b.toNat
      let n := len w b.toNat
      if k < n then a.getLsbD (p + k) else sgd && decide (0 < n) && a.getLsbD (p + n - 1)) ∧
    Computes3 .bfi 0x2D fun w a b x => ofBits w fun k =>
      let p := pos w b.toNat
      if p ≤ k ∧ k < p + len w b.toNat then a.getLsbD (k - p) else x.getLsbD k) ∧
  Computes1 .mov 0x1D (fun _ a => a) ∧
  (∀ d g imm, Computes (.movi d g imm) 0x1E g (fun _ _ => [(d.toNat, fun _ => imm.signExtend 64)]) fun _ _ => []) ∧
  (∀ o n, Computes (.sel o n) 0x1B o.g
    (fun p c => [(o.d.toNat, fun l => if pval p c.who n.toNat l then p.get c o.a.toNat l else p.get c o.b.toNat l)]) fun _ _ => []) ∧
  ∀ sh : BitVec 6, Computes2 (fun o => .lea o sh) 0x1C fun _ a b => a + b <<< sh.toNat

/-! Logic words (20 R290; 22 R346, R358; 23 R378, R398) -/

/-- AND, ANDN, OR, XOR and LOP3 (20 R290, 22 R346, R358, 23 R398): bit by bit; of LOP3, a selects the lowest bit of the table's index. -/
def Obligations.LogicWords : Prop :=
  let bitwise (f : Bool → Bool → Bool) (w : Nat) (a b : BitVec w) : BitVec w := ofBits w fun k => f (a.getLsbD k) (b.getLsbD k)
  Computes2 .and 0x20 (bitwise fun x y => x && y) ∧ Computes2 .or 0x21 (bitwise fun x y => x || y) ∧
  Computes2 .xor 0x22 (bitwise fun x y => x != y) ∧ Computes2 .andn 0x23 (bitwise fun x y => x && !y) ∧
  ∀ tab : BitVec 8, Computes3 (fun o => .lop3 o tab) 0x24 fun w a b x => ofBits w fun k =>
    tab.getLsbD ((a.getLsbD k).toNat + 2 * (b.getLsbD k).toNat + 4 * (x.getLsbD k).toNat)

/-- SHL, SHR, SAR and ROT (23 R378): bit k of each, for the whole value of b as the count. -/
def Obligations.ShiftWords : Prop :=
  Computes2 .shl 0x25 (fun w a b => ofBits w fun k => decide (b.toNat ≤ k) && a.getLsbD (k - b.toNat)) ∧
  Computes2 .shr 0x26 (fun w a b => ofBits w fun k => a.getLsbD (k + b.toNat)) ∧
  Computes2 .sar 0x27 (fun w a b => ofBits w fun k => if k + b.toNat < w then a.getLsbD (k + b.toNat) else a.getLsbD (w - 1)) ∧
  Computes2 .rot 0x28 (fun w a b => ofBits w fun k => a.getLsbD ((k + w - b.toNat % w) % w))

/-! Floating-point words (21 R315 to R328; 20 R306; 22 R360 to R362; 23 R368, R379, R393) -/

/-- ROUNDING of a magnitude n ÷ d to an integer (06 R103, R104): it never moves by more than one unit and leaves integers alone; RTZ
goes down and RUP and RDN towards their end; RNE and RNA go to the nearest, on a tie to the even one and to the larger; SR goes up where
the fraction's 16 bits and the draw carry.
A value that is exact in the destination is never changed by any rounding (06 R103, R104): every finite pattern of every format is what
its own value rounds to. -/
def Obligations.RoundingRules : Prop :=
  (
    ∀ (rm : Rm) (neg : Bool) (draw n d : Nat), 0 < d → draw < 65536 →
      let q := roundInt rm neg draw n d
      (q = n / d ∨ q = n / d + 1) ∧ (d ∣ n → q * d = n) ∧ (rm = .rtz → q * d ≤ n) ∧
      (rm = .rup → if neg then q * d ≤ n else n ≤ q * d) ∧ (rm = .rdn → if neg then n ≤ q * d else q * d ≤ n) ∧
      (rm = .rne ∨ rm = .rna → 2 * (q * d) ≤ 2 * n + d ∧ 2 * n ≤ 2 * (q * d) + d) ∧
      (2 * (n % d) = d → (rm = .rne → q % 2 = 0) ∧ (rm = .rna → q = n / d + 1)) ∧
      (rm = .sr → (q = n / d ↔ n % d * 65536 / d + draw < 65536))) ∧
  (
    ∀ f ∈ [fF64, fF32, fF16, fBF16, fE4M3, fE5M2], ∀ (rm : Rm) (neg : Bool) (draw x n d : Nat), draw < 65536 → x ≤ f.maxBits →
      f.read x = .fin false n d → f.magBits rm neg draw n d = x)

/-- FADD, FSUB, FMUL, FFMA, FDIV, FSQRT, FSCALE and FRND (21 R315, R318, R321, R326, R327): in each lane and for each element of the type, A and C with their signs inverted
where the modifiers ask, the exact operation rounded once with rm, flushed where asked. Under `.sr` each element takes one draw. -/
def Obligations.FloatArithmetic : Prop :=
  let elem (m : FMod) (x : Nat) (e : Nat) (n : Bool) : Machine.Num :=
    let f := ftFmt m.t
    let v := x / 2 ^ (16 * e) % 2 ^ f.width
    f.read (if n then (if v / f.signBit % 2 = 1 then v - f.signBit else v + f.signBit) else v)
  let src (p : State) (c : Ctx) (m : FMod) (r : BitVec 8) (l : Nat) : Nat :=
    if m.t = .f64 then (p.get64 c r.toNat l).toNat else (p.get c r.toNat l).toNat
  let out (m : FMod) (l : List Nat) (j : Nat) : DWord := BitVec.ofNat 64 ((((packOf m.t l)[j]?).getD 0).toNat)
  let makes (i : Instr) (op : Nat) (g : Guard) (m : FMod) (d a b x : BitVec 8) (f : Machine.Num → Machine.Num → Machine.Num → Exact) : Prop :=
    Makes i op g d.toNat m.t.regs (if m.rm = .sr then ftCount m.t else 0) (fun _ _ => True) fun p c l => out m
      ((List.range (ftCount m.t)).map fun e => ((ftFmt m.t).finish m.rm m.ftz (p.draw c l e)
        (f (elem m (src p c m a l) e m.na) (elem m (src p c m b l) e false) (elem m (src p c m x l) e m.nc))).bits)
  (∀ m o, makes (.fadd m o) 0x30 o.g m o.d o.a o.b 0 fun x y _ => x.add m.rm y) ∧
  (∀ m o, makes (.fsub m o) 0x31 o.g m o.d o.a o.b 0 fun x y _ => x.add m.rm y.neg) ∧
  (∀ m o, makes (.fmul m o) 0x32 o.g m o.d o.a o.b 0 fun x y _ => x.mul y) ∧
  (∀ m o, makes (.ffma m o) 0x33 o.g m o.d o.a o.b o.c fun x y z => x.fma m.rm y z) ∧
  (∀ m o, makes (.fdiv m o) 0x3A o.g m o.d o.a o.b 0 fun x y _ => x.div y) ∧
  (∀ m o, makes (.fsqrt m o) 0x42 o.g m o.d o.a 0 0 fun x _ _ => x.sqrt) ∧
  (∀ m o, Makes (.fscale m o) 0x38 o.g o.d.toNat m.t.regs (if m.rm = .sr then ftCount m.t else 0) (fun _ _ => True) fun p c l => out m
    ((List.range (ftCount m.t)).map fun e =>
      let b := p.get c o.b.toNat l
      let k : Int := if ftCount m.t = 2 then (b.extractLsb' (16 * e) 16).toInt else (b.setWidth 32).toInt
      ((ftFmt m.t).finish m.rm m.ftz (p.draw c l e) ((elem m (src p c m o.a l) e m.na).scaleBy k)).bits)) ∧
  (∀ m o, Makes (.frnd m o) 0x39 o.g o.d.toNat m.t.regs (if m.rm = .sr then ftCount m.t else 0) (fun _ _ => True) fun p c l => out m
    ((List.range (ftCount m.t)).map fun e =>
      let f := ftFmt m.t
      let v := src p c m o.a l / 2 ^ (16 * e) % 2 ^ f.width
      let v := if m.na then (if v / f.signBit % 2 = 1 then v - f.signBit else v + f.signBit) else v
      match f.read v with
      | .nan => f.nanBits
      | .inf _ => v
      | .fin neg n d => if n ≥ d * 2 ^ f.fb then v else f.withSign neg (f.magBits .rne neg 0 (roundInt m.rm neg (p.draw c l e) n d) 1)))

/-- FMIN, FMAX, FSET and FCLASS (21 R319, R325, R328). -/
def Obligations.FloatSelection : Prop :=
  let elem (t : FType) (p : State) (c : Ctx) (r : BitVec 8) (l e : Nat) : Nat :=
    (if t = .f64 then (p.get64 c r.toNat l).toNat else (p.get c r.toNat l).toNat) / 2 ^ (16 * e) % 2 ^ (ftFmt t).width
  let out (t : FType) (l : List Nat) (j : Nat) : DWord := BitVec.ofNat 64 ((((packOf t l)[j]?).getD 0).toNat)
  let below (f : FloatFmt) (a b : Nat) : Bool :=
    (f.read a).cmp (f.read b) == some .lt || ((f.read a).cmp (f.read b) == some .eq && (f.read a).negative)
  let nanOr (f : FloatFmt) (a b : Nat) (r : Nat) : Nat :=
    if (f.read a).isNan && (f.read b).isNan then f.nanBits else if (f.read a).isNan then b else if (f.read b).isNan then a else r
  (∀ t o, Makes (.fmin t o) 0x34 o.g o.d.toNat t.regs 0 (fun _ _ => True) fun p c l => out t ((List.range (ftCount t)).map fun e =>
    let a := elem t p c o.a l e
    let b := elem t p c o.b l e
    nanOr (ftFmt t) a b (if below (ftFmt t) a b then a else b))) ∧
  (∀ t o, Makes (.fmax t o) 0x35 o.g o.d.toNat t.regs 0 (fun _ _ => True) fun p c l => out t ((List.range (ftCount t)).map fun e =>
    let a := elem t p c o.a l e
    let b := elem t p c o.b l e
    nanOr (ftFmt t) a b (if below (ftFmt t) a b then b else a))) ∧
  (∀ t o, Makes (.fclass t o) 0x37 o.g o.d.toNat 1 0 (fun _ _ => True) fun p c l _ => BitVec.ofNat 64
    (((List.range (ftCount t)).map fun e => 2 ^ (16 * e) * fclassBits (ftFmt t) (elem t p c o.a l e)).sum)) ∧
  (∀ t cmp na o, Computes (.fset t cmp na o) 0x36 o.g (fun _ _ => []) fun p c => (List.range (ftCount t)).map fun e => (o.d.toNat + e, fun l =>
    let f := ftFmt t
    let x := if na then (f.read (elem t p c o.a l e)).neg else f.read (elem t p c o.a l e)
    let r := x.cmp (f.read (elem t p c o.b l e))
    match cmp with
    | .eq => r == some .eq | .ne => r != some .eq | .lt => r == some .lt | .le => r == some .lt || r == some .eq
    | .gt => r == some .gt | .ge => r == some .gt || r == some .eq | .num => r != none | .nan => r == none))

/-- The special-function words (06 R113, 21 R320): every lane takes the unit's result for its argument, and no draw; the results at every
special point of Table 5, a negative argument or an infinite one of either sign among them, and at NaN are the ones listed there. -/
def Obligations.SpecialFunctions : Prop :=
  let makes (i : Instr) (op : Nat) (o : A2) (f : SfuOp) (ftz : Bool) : Prop := Makes i op o.g o.d.toNat 1 0 (fun _ _ => True) fun p c l _ =>
    BitVec.ofNat 64 (sfuWord f ftz ((p.get c o.a.toNat l).setWidth 32)).bits
  (∀ z o, makes (.frcp z o) 0x40 o .rcp z) ∧ (∀ z o, makes (.frsq z o) 0x41 o .rsq z) ∧ (∀ z o, makes (.fexp2 z o) 0x43 o .exp2 z) ∧
  (∀ z o, makes (.flog2 z o) 0x44 o .log2 z) ∧ (∀ z o, makes (.fsin z o) 0x45 o .sin z) ∧ (∀ z o, makes (.fcos z o) 0x46 o .cos z) ∧
  (∀ z o, makes (.ftanh z o) 0x47 o .tanh z) ∧
  (∀ f z (x : Word), (fF32.read x.toNat).isNan = true → (sfuWord f z x).bits = 0x7FC00000) ∧
  (∀ z, (sfuWord .rcp z 0).bits = 0x7F800000 ∧ (sfuWord .rcp z 0x80000000).bits = 0xFF800000 ∧ (sfuWord .rcp z 0x7F800000).bits = 0 ∧
    (sfuWord .rcp z 0xFF800000).bits = 0x80000000 ∧ (sfuWord .rsq z 0).bits = 0x7F800000 ∧ (sfuWord .rsq z 0x80000000).bits = 0xFF800000 ∧
    (sfuWord .rsq z 0x7F800000).bits = 0 ∧ (sfuWord .rsq z 0xFF800000).bits = 0x7FC00000 ∧ (sfuWord .log2 z 0xFF800000).bits = 0x7FC00000 ∧
    (sfuWord .sin z 0xFF800000).bits = 0x7FC00000 ∧ (sfuWord .cos z 0x7F800000).bits = 0x7FC00000 ∧ (sfuWord .exp2 z 0xFF800000).bits = 0 ∧ (sfuWord .exp2 z 0x7F800000).bits = 0x7F800000 ∧
    (sfuWord .log2 z 0).bits = 0xFF800000 ∧ (sfuWord .log2 z 0x80000000).bits = 0xFF800000 ∧ (sfuWord .log2 z 0x3F800000).bits = 0 ∧
    (sfuWord .log2 z 0x7F800000).bits = 0x7F800000 ∧ (sfuWord .sin z 0x7F800000).bits = 0x7FC00000 ∧
    (sfuWord .cos z 0xFF800000).bits = 0x7FC00000 ∧ (sfuWord .sin z 0).bits = 0 ∧ (sfuWord .sin z 0x80000000).bits = 0x80000000 ∧
    (sfuWord .tanh z 0x7F800000).bits = 0x3F800000 ∧ (sfuWord .tanh z 0xFF800000).bits = 0xBF800000 ∧
    (sfuWord .tanh z 0).bits = 0 ∧ (sfuWord .tanh z 0x80000000).bits = 0x80000000) ∧
  (∀ z (x : Word) n d, fF32.read x.toNat = .fin true n d → n ≠ 0 → (sfuWord .rsq z x).bits = 0x7FC00000 ∧ (sfuWord .log2 z x).bits = 0x7FC00000)

/-- THE BOUNDS OF THE SPECIAL FUNCTIONS (06 Table 5): a finite result of a finite nonzero argument, not flushed, lies no further from the function's
value than the table allows; the value is the model's fixed-point one (sfuVal), far finer than the bounds (entry 6). THE EXACT CASES (21
R320): FEXP2 of an integer from -149 to 127, FLOG2 of a power of two, and FRCP and FRSQ of one whose result F32 holds, under the
Flush bit as a normal number, give the exact result. -/
def Obligations.SpecialFunctionBounds : Prop :=
  let power (x : Nat) (k : Int) : Prop := ∃ n d, fF32.read x = .fin false n d ∧ d ≠ 0 ∧ n * 2 ^ (-k).toNat = d * 2 ^ k.toNat
  let int (x : Nat) (k : Int) : Prop := ∃ neg n d, fF32.read x = .fin neg n d ∧ d ≠ 0 ∧ sgn neg n = k * d
  let held (z : Bool) (k : Int) : Prop := k ≤ 127 ∧ (if z then -126 ≤ k else -149 ≤ k)
  let bound (op : SfuOp) (n d vn vd : Nat) : Nat × Nat :=
    let ulp (k : Nat) : Nat × Nat := scale2 k 1 (ulpExp vn vd)
    match op with
    | .rcp | .rsq => ulp 1
    | .exp2 => ulp 2
    | .log2 => if d ≤ 2 * n ∧ n ≤ 2 * d then (1, 2 ^ 22) else ulp 2
    | .sin | .cos => (1, 2 ^ 21)
    | .tanh => if (ulp 2).2 ≤ (ulp 2).1 * 2 ^ 24 then ulp 2 else (1, 2 ^ 24)
  (∀ (op : SfuOp) (x : Word) (s : Bool) (n d : Nat) (s' : Bool) (m e : Nat), fF32.read x.toNat = .fin s n d → n ≠ 0 →
    (s = true → op ≠ .rsq ∧ op ≠ .log2) → fF32.read (sfuWord op false x).bits = .fin s' m e →
    let v := sfuVal op s n d
    within (s', m, e) v (false, bound op n d v.2.1 v.2.2) = true) ∧
  (∀ (z : Bool) (x : Word) (k : Int),
    (int x.toNat k → held z k → power (sfuWord .exp2 z x).bits k) ∧ (power x.toNat k → int (sfuWord .log2 z x).bits k) ∧
    (power x.toNat k → held z (-k) → power (sfuWord .rcp z x).bits (-k)) ∧
    (power x.toNat (2 * k) → held z (-k) → power (sfuWord .rsq z x).bits (-k)))

/-- CVT, PK8, UPK8, PK4, UPK4, QSCL and SCAC (20 R306, R307; 22 R361, R362; 23 R368, R379, R393), where no element traps. -/
def Obligations.Conversions : Prop :=
  let no (_ : State) (_ : Ctx) : Prop := True
  let x (p : State) (c : Ctx) (r : BitVec 8) (l : Nat) : Nat := (p.get c r.toNat l).toNat
  let code (p : State) (c : Ctx) (o : A3) (l : Nat) : Nat := x p c o.b l % 256
  let cvt (src dst : Fmt) (rm : Rm) (ov : Ov) (o : A2) (p : State) (c : Ctx) (l : Nat) : Elem :=
    fmtConvert dst rm ov (p.draw c l 0) (fmtRead src (if fmtBits src = 64 then (p.get64 c o.a.toNat l).toNat else x p c o.a l))
  let pk8 (f : Fmt8) (rm : Rm) (ov : Ov) (o : A3) (p : State) (c : Ctx) (l i : Nat) : Elem :=
    pk8Elem f rm ov (p.draw c l i) (code p c o l) (p.get c (o.a.toNat + i) l).toNat
  (∀ src dst rm ov o, Makes (.cvt src dst rm ov o) 0x48 o.g o.d.toNat dst.regs (if rm = .sr then 1 else 0)
    (fun p c => ∀ l, c.exec.getLsbD l = true → (cvt src dst rm ov o p c l).trap = false)
    fun p c l j => BitVec.ofNat 64 ((cvt src dst rm ov o p c l).bits / 2 ^ (32 * j) % 2 ^ 32)) ∧
  (∀ f rm ov o, Makes (.pk8 f rm ov o) 0x49 o.g o.d.toNat 1 (if rm = .sr then 4 else 0)
    (fun p c => ∀ l i, c.exec.getLsbD l = true → i < 4 → (pk8 f rm ov o p c l i).trap = false)
    fun p c l _ => BitVec.ofNat 64 (((List.range 4).map fun i => 2 ^ (8 * i) * ((pk8 f rm ov o p c l i).bits % 256)).sum)) ∧
  (∀ f o, Makes (.upk8 f o) 0x4A o.g o.d.toNat 4 0 no fun p c l j => BitVec.ofNat 64
    (if code p c o l = 255 then 0x7FC00000 else
      (fF32.finish .rne false 0 ((fmtRead (fmtOf8 f) (x p c o.a l / 2 ^ (8 * j) % 256)).scaleBy ((code p c o l : Int) - 127))).bits)) ∧
  (∀ o, Makes (.pk4 o) 0x4B o.g o.d.toNat 1 0 no fun p c l _ => BitVec.ofNat 64
    (((List.range 8).map fun i => 2 ^ (4 * i) * ((pk4Elem (x p c o.b l) (p.get c (o.a.toNat + i) l).toNat).bits % 16)).sum)) ∧
  (∀ o, Makes (.upk4 o) 0x4C o.g o.d.toNat 8 0 no fun p c l j => BitVec.ofNat 64
    (let lv := nq4Level (x p c o.a l / 2 ^ (4 * j) % 16)
     (fF32.finish .rne false 0 ((Machine.Num.fin (decide (lv < 0)) lv.natAbs 127).mul (fF32.read (x p c o.b l)))).bits)) ∧
  (∀ o, Makes (.qscl .e8m0E4m3 o) 0x4D o.g o.d.toNat 1 0 no fun p c l _ => BitVec.ofNat 64 (qsclE8m0 448 (x p c o.a l)).bits) ∧
  (∀ o, Makes (.qscl .e8m0E5m2 o) 0x4D o.g o.d.toNat 1 0 no fun p c l _ => BitVec.ofNat 64 (qsclE8m0 57344 (x p c o.a l)).bits) ∧
  (∀ o, Makes (.qscl .sc8 o) 0x4D o.g o.d.toNat 1 0 no fun p c l _ => BitVec.ofNat 64 (qsclSc8 (x p c o.a l) (x p c o.b l)).bits) ∧
  (∀ o, Makes (.scac o) 0x4E o.g o.d.toNat 1 0 no fun p c l _ =>
    let rne (e : Exact) : Machine.Num := fF32.read (fF32.finish .rne false 0 e).bits
    BitVec.ofNat 64 (fF32.finish .rne false 0 ((rne ((rne ((fF32.read (x p c o.a l)).mul (fF32.read (x p c o.b l)))).mul
      (fF32.read (x p c o.c l)))).add .rne (fF32.read (x p c o.d l)))).bits)

/-- FPTRAP (06 R106, 07 R132): where some element of a CVT or PK8 overflows under policy 11, the word traps with the lanes that overflowed; an MDRAIN
traps with the accumulator address of the first element that does. The trap is taken on the state in which the word was paid: no lane has written
and none has drawn, no byte of scratch is stored, and nothing but the statistics of regions has changed. -/
def Obligations.OverflowTrapLeavesRegisters : Prop :=
  let traps (i : Instr) (s : State) (c : Ctx) (addr : DWord) (lanes : BitVec 32) : Prop :=
    let p := paid s c i
    NoStat p → ∃ q : State, { q with regions := p.regions } = p ∧ Runs i s (q.takeTrap c.who c.pc c.next (TrapArgs.of .fpTrap addr 0 lanes))
  (∀ (src dst : Fmt) (rm : Rm) (o : A2) (s : State) (c : Ctx),
    let i : Instr := .cvt src dst rm .trap o
    let p := paid s c i
    let bad (l : Nat) : Bool := c.exec.getLsbD l && (fmtConvert dst rm .trap (p.draw c l 0)
      (fmtRead src (if fmtBits src = 64 then (p.get64 c o.a.toNat l).toNat else (p.get c o.a.toNat l).toNat))).trap
    Ready s i 0x48 o.g c → (∃ l, l < 32 ∧ bad l = true) → traps i s c 0 (maskOf 32 bad)) ∧
  (∀ (f : Fmt8) (rm : Rm) (o : A3) (s : State) (c : Ctx),
    let i : Instr := .pk8 f rm .trap o
    let p := paid s c i
    let bad (l : Nat) : Bool := c.exec.getLsbD l && (List.range 4).any fun k =>
      (pk8Elem f rm .trap (p.draw c l k) ((p.get c o.b.toNat l).toNat % 256) (p.get c (o.a.toNat + k) l).toNat).trap
    Ready s i 0x49 o.g c → (∃ l, l < 32 ∧ bad l = true) → traps i s c 0 (maskOf 32 bad)) ∧
  (∀ (fa : Fmt) (id : BitVec 8) (ma mb : BitVec 4) (rm : Rm) (s : State) (c : Ctx) (m : Matrix) (acc : AccFmt) (k : Nat),
    let i : Instr := .mdrain fa id ma mb rm .trap
    let p := paid s c i
    let g (k : Nat) : Nat := m.reg (ma.toNat + k)
    let n := m.reg mb.toNat
    let cols := 32 * id.toNat
    let z := fmtBits fa / 8
    let place (k : Nat) : Nat := g 0 + k / cols * g 1 + k % cols * acc.words
    let spills (k : Nat) : Bool := (fmtConvert fa rm .trap (srDraw c.blk.msrseed k) (accNum acc (m.accGet acc (place k)).bits)).trap
    Issues s i 0xA5 noGuard c → p.mat c = some m → m.stop = false → drainFrom fa = some acc → 1 ≤ id.toNat → id.toNat ≤ 40 →
    g 2 % z = 0 → g 3 % z = 0 → accFits acc (g 0) (g 1) n cols acc.words = true → p.scrFits c (g 2 + (n - 1) * g 3 + cols * z) = true →
    (∀ j, j < n * cols → m.accBadAt acc (place j) = none) → k < n * cols → spills k = true → (∀ j, j < k → spills j = false) →
    traps i s c (BitVec.ofNat 64 (place k)) 0)

/-- THE COUNTING OF AN EVENT at TIME.ref t (06 R117): the window that has passed restarts, the count goes up by one, and the action is
taken at THRESH, at most once for a window. -/
def Obligations.StatisticsWindow : Prop :=
  ∀ (x : Stat) (t thresh window : Nat), x.count ≠ BitVec.allOnes 64 →
    let start := x.start.getD t
    let again : Prop := window ≠ 0 ∧ start + window ≤ t
    let r := x.event t thresh window
    (again → r.1.count = 1 ∧ r.1.start = some t ∧ (r.2 = true ↔ thresh = 1) ∧ (r.1.fired = true ↔ thresh = 1)) ∧
    (¬again → r.1.count = x.count + 1 ∧ r.1.start = some start ∧
      (r.2 = true ↔ thresh ≠ 0 ∧ thresh ≤ x.count.toNat + 1 ∧ x.fired = false) ∧ (r.1.fired = true ↔ x.fired = true ∨ r.2 = true))

/-! Cross-lane words (22 R347; 23 R373, R383, R394): the participants are the executing lanes -/

/-- SHFL, VOTE, MATCH, REDUX and SCAN (22 R347; 23 R373, R383, R394; 06 R114). SHFL gives a lane the value of its source lane, its own where that
lane does not execute; VOTE and MATCH tell which lanes agree; REDUX gives every participant the combination of all, an `.fadd`, `.fmin` or
`.fmax` in the tree order, and SCAN the combination of those up to it, in lane order; a NaN that a participant brings to `.fadd` counts as the
canonical one, also where nothing is added to it. -/
def Obligations.CrossLaneWords : Prop :=
  let from_ (m : ShflMode) (seg : BitVec 3) (p : State) (c : Ctx) (b : BitVec 8) (l : Nat) : Nat :=
    let size := if seg = 0 then 32 else 2 ^ seg.toNat
    let n := (p.get c b.toNat l).toNat
    let q : Int := match m with
      | .at => ((n % size : Nat) : Int)
      | .back => ((l % size : Nat) : Int) - (n : Int)
      | .ahead => ((l % size : Nat) : Int) + (n : Int)
      | .swap => ((l % size ^^^ n % size : Nat) : Int)
    let k := l / size * size + q.toNat
    if 0 ≤ q ∧ q < size ∧ c.exec.getLsbD k = true then k else l
  let yes (p : State) (c : Ctx) (a : BitVec 8) (k : Nat) : Bool := c.exec.getLsbD k && pval p c.who a.toNat k
  (∀ m seg o, Computes (.shfl m false seg o) 0x50 o.g
    (fun p c => [(o.d.toNat, fun l => p.get c o.a.toNat (from_ m seg p c o.b l))]) fun _ _ => []) ∧
  (∀ m seg o, Computes (.shfl m true seg o) 0x50 o.g
    (fun p c => [(o.d.toNat, fun l => p.get64 c o.a.toNat (from_ m seg p c o.b l)),
      (o.d.toNat + 1, fun l => p.get64 c o.a.toNat (from_ m seg p c o.b l) >>> 32)]) fun _ _ => []) ∧
  (∀ d a g h, Computes (.vote .every d a g h) 0x51 g (fun _ _ => [])
    fun p c => [(d.toNat, fun _ => (List.range 32).all fun k => !c.exec.getLsbD k || pval p c.who a.toNat k)]) ∧
  (∀ d a g h, Computes (.vote .some d a g h) 0x51 g (fun _ _ => []) fun p c => [(d.toNat, fun _ => (List.range 32).any (yes p c a))]) ∧
  (∀ d a g h, Computes (.vote .mask d a g h) 0x51 g
    (fun p c => [(d.toNat, fun _ => ofBits 64 fun k => decide (k < 32) && yes p c a k)]) fun _ _ => []) ∧
  (∀ d a g h, Computes (.vote .count d a g h) 0x51 g
    (fun p c => [(d.toNat, fun _ => BitVec.ofNat 64 ((List.range 32).countP (yes p c a)))]) fun _ _ => []) ∧
  (∀ b64 o, Computes (.matchLanes b64 o) 0x54 o.g (fun p c => [(o.d.toNat, fun l => ofBits 64 fun k => decide (k < 32) && c.exec.getLsbD k &&
    (if b64 then p.get64 c o.a.toNat k == p.get64 c o.a.toNat l else p.get c o.a.toNat k == p.get c o.a.toNat l))]) fun _ _ => []) ∧
  let brings (op : RedOp) (v : Nat) : Nat := if op = .fadd ∧ (fF32.read v).isNan = true then 0x7FC00000 else v
  let vals (p : State) (c : Ctx) (op : RedOp) (a : BitVec 8) (n : Nat) : List Nat :=
    ((List.range n).filter fun k => c.exec.getLsbD k).map fun k => brings op (p.get c a.toNat k).toNat
  let run (op : RedOp) (l : List Nat) : Nat := match l with | [] => 0 | x :: xs => xs.foldl (fun x y => (redCombine op x y).1) x
  (∀ op o, Makes (.redux op o) 0x52 o.g o.d.toNat 1 0 (fun _ _ => True) fun p c _ _ => BitVec.ofNat 64
    (match op with
     | .fadd | .fmin | .fmax => (((treeSum op 5 ((List.range 32).map fun k =>
         if c.exec.getLsbD k then some (brings op (p.get c o.a.toNat k).toNat) else none)).1).getD 0)
     | _ => run op (vals p c op o.a 32))) ∧
  ∀ op o, Makes (.scan op o) 0x53 o.g o.d.toNat 1 0 (fun _ _ => True) fun p c l _ => BitVec.ofNat 64 (run op (vals p c op o.a (l + 1)))

/-! Control words (02 R32 to R37; 04 R66; 20 R298, R299, R301, R313, R314; 23 R374, R392, R399) -/

/-- Where a word stands and where the next one is (04 R66): after the last word of the clause, word 1 of the line above. NOP and YIELD (23
R399) change nothing but where their party stands: after a NOP that is not the last word the clause stays in force and the party stands at
the next word; a YIELD, and a last word, end the clause. A
party that goes on keeps what its word's effect left, but for its place, its operand cache, the registers freed at last use and lanes that
have exited. -/
def Obligations.WordsGoOn : Prop :=
  (∀ (s : State) (w : Who) (g : Guard) (c : Ctx) (k : Clause), s.ctx w g = some c → s.clauseOf w = some k →
      let n := c.pc.toNat % 128 / 8
      c.who = w ∧ c.pc = s.pcOf w ∧ c.cls = partyCls w.party ∧ (c.last = true ↔ hdrCount k.hdr ≤ n) ∧
      (n < hdrCount k.hdr → c.next = c.pc + 8) ∧ (hdrCount k.hdr ≤ n → c.next = BitVec.ofNat 64 ((c.pc.toNat / 128 + 1) * 128 + 8))) ∧
  ((∀ (s : State) (g : Guard) (c : Ctx), Issues s (.nop g) 0x00 g c → ∃ t, Wrote beside s (.nop g) c t [] [] 0 ∧
      (c.last = false → t.clauseOf c.who = s.clauseOf c.who ∧ t.pcOf c.who = c.next) ∧ (c.last = true → t.clauseOf c.who = none)) ∧
    (∀ (s : State) (g : Guard) (c : Ctx), Issues s (.yield g) 0x06 g c → ∃ t, Wrote beside s (.yield g) c t [] [] 0 ∧ t.clauseOf c.who = none)) ∧
  (∀ (p E : State) (c : Ctx) (i : Instr) (f : Fin),
    let t := goesOn p c i E f
    beside c.who t = beside c.who E ∧ t.mem = E.mem ∧ warpRest t c.who = warpRest E c.who ∧
      (∀ r l, l < laneCount c.cls → lives E c l → r ∉ lastUses E c i → val t c.who r l = val E c.who r l) ∧
      ∀ n l, pval t c.who n l = pval E c.who n l)

/-- BRA, BRX, CALL, CALLX and RET complete: in executing lanes the target is the word's own address + 8 × offset, or the code window's
high half with the register's low half, s[a] in a FRONT clause; a call writes its link first and goes one level deeper, a return one level
up. Nothing else changes. A call from depth 64, direct or not, and a transfer for which a slice would need a twenty-first split entry (02
R34), trap DIVDEPTH, and a return at depth 0 RETEMPTY, before any effect.
A DIVERGENT BRANCH OF A SLICE (02 R32): every lane keeps a path with its own next program counter and depth, as the running one or
deferred; the running path is the earliest and holds exactly the lanes that go there; what was deferred before still is. -/
def Obligations.BranchesCallsReturns : Prop :=
  (
    let own (c : Ctx) (off : BitVec 32) : DWord := c.pc + (off.signExtend 64) * 8
    let tgt (p : State) (c : Ctx) (a : BitVec 8) (l : Nat) : DWord :=
      if c.cls = .front then p.get c a.toNat 0 else windowBase c.blk ||| (p.get c a.toNat l &&& 0xFFFFFFFF)
    let goes (s : State) (c : Ctx) (i : Instr) (E : State) (dst : List Nat) (t : Nat → DWord × Nat) : Prop :=
      (Fits E c t → Runs i s (branched (paid s c i) c i E t) ∧ Kept s c i (branched (paid s c i) c i E t) dst) ∧
      ∀ w, E.warp c.who = some w → w.overflow c (targets c t) ≠ 0 →
        Runs i s ((paid s c i).takeTrap c.who c.pc c.next (TrapArgs.of .divDepth 0 0 (w.overflow c (targets c t))))
    let linked (s : State) (c : Ctx) (l : BitVec 8) (i : Instr) : State := (paid s c i).put c c.exec l.toNat fun _ => c.next
    let shallow (p : State) (c : Ctx) : Prop := ∀ l, c.exec.getLsbD l = true → p.depthOf c l < 64
    let called (p : State) (c : Ctx) : Prop := ∀ l, c.exec.getLsbD l = true → 0 < p.depthOf c l
    (∀ s g off c, let i : Instr := .bra g off
      Issues s i 0x01 g c → goes s c i (paid s c i) [] fun l => (own c off, (paid s c i).depthOf c l)) ∧
    (∀ s a g c, let i : Instr := .brx a g
      Issues s i 0x02 g c → goes s c i (paid s c i) [] fun l => (tgt (paid s c i) c a l, (paid s c i).depthOf c l)) ∧
    (∀ s l g off c, let i : Instr := .call l g off
      Issues s i 0x03 g c → shallow (paid s c i) c →
        goes s c i (linked s c l i) [l.toNat] fun k => (own c off, (paid s c i).depthOf c k + 1)) ∧
    (∀ s l a g c, let i : Instr := .callx l a g
      Issues s i 0x04 g c → shallow (paid s c i) c →
        goes s c i (linked s c l i) [l.toNat] fun k => (tgt (paid s c i) c a k, (paid s c i).depthOf c k + 1)) ∧
    (∀ s a g c, let i : Instr := .ret a g
      Issues s i 0x05 g c → called (paid s c i) c →
        goes s c i (paid s c i) [] fun l => (tgt (paid s c i) c a l, (paid s c i).depthOf c l - 1)) ∧
    (∀ s l g off c, let i : Instr := .call l g off
      Ready s i 0x03 g c → ¬shallow (paid s c i) c → Runs i s ((paid s c i).takeTrap c.who c.pc c.next (TrapArgs.of .divDepth 0 0
        (ofBits 32 fun k => c.exec.getLsbD k && decide (64 ≤ (paid s c i).depthOf c k))))) ∧
    (∀ s l a g c, let i : Instr := .callx l a g
      Ready s i 0x04 g c → ¬shallow (paid s c i) c → Runs i s ((paid s c i).takeTrap c.who c.pc c.next (TrapArgs.of .divDepth 0 0
        (ofBits 32 fun k => c.exec.getLsbD k && decide (64 ≤ (paid s c i).depthOf c k))))) ∧
    (∀ s a g c, let i : Instr := .ret a g
      Ready s i 0x05 g c → ¬called (paid s c i) c → Runs i s ((paid s c i).takeTrap c.who c.pc c.next (TrapArgs.of .retEmpty 0 0
        (ofBits 32 fun k => c.exec.getLsbD k && decide ((paid s c i).depthOf c k = 0)))))) ∧
  (
    ∀ (x : Slice) (next : Nat → DWord × Nat), x.mask ≠ 0 →
      let y := x.branch next
      (∀ b, b < 4 → (y.mask.getLsbD b = true ↔ x.mask.getLsbD b = true ∧ next b = (y.pc, y.depth))) ∧
      (∀ b, b < 4 → x.mask.getLsbD b = true → earlier (next b).2 (next b).1 y.depth y.pc = false ∧
        (next b = (y.pc, y.depth) ∨ ∃ e ∈ y.stack, e.mask.getLsbD b = true ∧ next b = (e.pc, e.depth))) ∧
      (∀ e ∈ x.stack, ∃ e' ∈ y.stack, e'.pc = e.pc ∧ e'.depth = e.depth ∧ e.mask &&& e'.mask = e.mask))

/-- EXIT (20 R313, R314): lanes that end leave the masks and the other lanes go on; a warp whose last lanes end, with nothing outstanding,
is gone; a front end whose stream and commands are done has ended. -/
def Obligations.ExitEndsLanes : Prop :=
  ∀ (s : State) (g : Guard) (c : Ctx), let i : Instr := .exit g
    Issues s i 0x07 g c →
    (∀ x, s.warp c.who = some x → x.alive &&& ~~~c.exec ≠ 0 →
      let t := goesOn (paid s c i) c i ((paid s c i).updWarp c.who fun y => y.endLanes c.exec) .close
      Runs i s t ∧ Kept s c i { t with cores := (t.updWarp c.who fun y => { y with alive := x.alive }).cores } [] ∧
      ∃ y, t.warp c.who = some y ∧ y.alive = x.alive &&& ~~~c.exec ∧ y.clause = none) ∧
    (∀ x, s.warp c.who = some x → (c.who.party = .landing → x.origin ≠ none) → x.alive &&& ~~~c.exec = 0 → s.handled c.who = none → s.logOf c.who = [] → x.flight.sb = [] →
      x.flight.results = [] → x.flight.sq.lost = [] → s.storesHome c.who = true →
      Runs i s ((paid s c i).endWarp c.who) ∧ ((paid s c i).endWarp c.who).warp c.who = none ∧
      ((paid s c i).endWarp c.who).mem = s.mem) ∧
    (∀ b f, c.who.party = .front b → (s.block c.who.core b).bind (·.front) = some f → s.logOf c.who = [] → f.flight.sb = [] →
      f.flight.results = [] → f.flight.sq.lost = [] → s.storesHome c.who = true → (c.blk.matrix.map (·.running)).getD false = false →
      (∀ k ∈ (s.core c.who.core).cmds, k.blk ≠ b) →
      Runs i s ((paid s c i).updFront c.who.core b fun y => { y with ended := true, clause := none }))

/-- TRAP and BKPT, when a lane executes them, take the trap SWTRAP or BKPT with AUX := imm32 and the executing lanes (20 R298, 23
R392). -/
def Obligations.SoftwareTraps : Prop :=
  (∀ s g imm c, let i : Instr := .trap g imm
    Ready s i 0x08 g c → Runs i s ((paid s c i).takeTrap c.who c.pc c.next (TrapArgs.of .swTrap 0 imm.toNat c.exec))) ∧
  (∀ s g imm c, let i : Instr := .bkpt g imm
    Ready s i 0x09 g c → Runs i s ((paid s c i).takeTrap c.who c.pc c.next (TrapArgs.of .bkpt 0 imm.toNat c.exec)))

/-! Memory words (08, 09; 20 R291 to R293; 21 R322; 22 R339 to R342; 23 R372, R387 to R389) -/

/-- LD (22 R340 to R342): each lane's address is its pair plus the offset; the value is what the party's own queue holds for those bytes, or
else the bytes of its die's L2, of the home for a bypass access, little-endian; no byte of memory changes.
LDS and LDC (22 R340 to R342): the bytes of the block's scratch at the offset, or those of the constant bank at CONSTBASE plus it, at their
home where the page's policy says so. -/
def Obligations.LoadsDeliverBytes : Prop :=
  (
    ∀ (o : MemF) (s : State) (c : Ctx) (leaf : Nat → Leaf),
      let i : Instr := .ld o
      let p := paid s c i
      let n := o.size.bytes
      let own (l : Nat) := forward (p.flight c.who).sq.ents false (leaf l).phys n
      Issues s i 0x60 o.g c → Unheld p c.who o.sb.toNat → (p.flight c.who).begun c.pc = false → (o.scope = .blk → p.migrated c.who = false) →
      (∀ l, c.exec.getLsbD l = true → Reaches p c .load n (memAddr p c o l) (leaf l) ∧ own l ≠ .part ∧ Plain p c.who (leaf l).phys n ∧
        (own l = .miss → p.loadHeld c.who (leaf l).phys n = false ∧
          (bypasses o.pol (leaf l) = true → p.efPending (dieOf c.who.core) (leaf l).phys n = false))) →
      ∃ t, Runs i s t ∧ Aside p t c ∧ t.mem.mem = p.mem.mem ∧
        Delivers p t c o.sb.toNat o.t.toNat (o.size.regs c.cls) fun l => extended o.size
          (match own l with
           | .hit bs => bs
           | _ => (span (leaf l).phys n).map (p.mem.at (if bypasses o.pol (leaf l) then (leaf l).home else dieOf c.who.core)))) ∧
  (
    let off (p : State) (c : Ctx) (o : MemF) (l : Nat) : DWord := p.get c o.a.toNat l + o.off.signExtend 64
    (∀ (o : MemF) (s : State) (c : Ctx),
      let i : Instr := .lds o
      let p := paid s c i
      let n := o.size.bytes
      let own (l : Nat) := forward (p.flight c.who).sq.ents true (off p c o l).toNat n
      Issues s i 0x61 o.g c → Unheld p c.who o.sb.toNat → (p.flight c.who).begun c.pc = false → p.migrated c.who = false →
      (∀ l, c.exec.getLsbD l = true → (off p c o l).toNat % n = 0 ∧ (off p c o l).toNat + n ≤ c.blk.scratch.size ∧ own l ≠ .part ∧
        p.locked (p.bcore c) true (p.bslot c) false (off p c o l).toNat n = none ∧ c.blk.scratch.badAt (off p c o l).toNat n = none ∧
        ∀ k, (off p c o l).toNat ≤ k → k < (off p c o l).toNat + n → Tbl.get [] c.blk.scratch.path k = []) →
      ∃ t, Runs i s t ∧ Aside p t c ∧ t.mem.mem = p.mem.mem ∧
        Delivers p t c o.sb.toNat o.t.toNat (o.size.regs c.cls) fun l => extended o.size
          (match own l with | .hit bs => bs | _ => Tbl.getList 0 c.blk.scratch.bytes (off p c o l).toNat n)) ∧
    (∀ (o : MemF) (s : State) (c : Ctx) (leaf : Nat → Leaf),
      let i : Instr := .ldc o
      let p := paid s c i
      let n := o.size.bytes
      Issues s i 0x62 o.g c → Unheld p c.who o.sb.toNat → (p.flight c.who).begun c.pc = false → p.migrated c.who = false →
      (∀ l, c.exec.getLsbD l = true → (off p c o l).toNat % n = 0 ∧ (off p c o l).toNat + n ≤ c.blk.constSize ∧
        p.access c.who.core c.blk.dealt.asid (some c.who) .load true (p.atHandler c.who) (c.blk.constBase + off p c o l) = .ok (leaf l) ∧
        p.readBad (dieOf c.who.core) (bypasses .dflt (leaf l)) (leaf l) n = none ∧ Plain p c.who (leaf l).phys n) →
      ∃ t, Runs i s t ∧ Aside p t c ∧ t.mem.mem = p.mem.mem ∧
        Delivers p t c o.sb.toNat o.t.toNat (o.size.regs c.cls) fun l => extended o.size
          ((span (leaf l).phys n).map (p.mem.at (if bypasses .dflt (leaf l) then (leaf l).home else dieOf c.who.core)))))

/-- ST, STS, RED and STMC (23 R372, R387 to R389; 08 R158; 09 R164): one entry of the party's queue for each
executing lane, in lane order, and of STMC for each of its replicas, holding its bytes, with the scoreboard on the last; no register and no
byte of memory changes until it leaves the queue. Where more than 16 entries then stand, those beyond the sixteenth wait for a slot: the word
stands until they have one (the model's form of the wait, entry 44). A RED that adds in floating point stands until it has been performed,
and then counts its events (the model's reading, entry 25). A release at `.pkg` or wider puts its entries there without a scoreboard, stands at its
word, and completes once none of its party's releases is left in the queue (09 R163, R176; the model's reading, entry 28). -/
def Obligations.StoresJoinTheQueue : Prop :=
  let lanes (c : Ctx) : List Nat := (List.range 32).filter fun l => c.exec.getLsbD l
  let begins (o : Order) (sc : Scope) : Bool := isRel o && scopePkg sc
  let joins (i : Instr) (s : State) (c : Ctx) (sb : Nat) (hold fadd : Bool) (l : List StoreEnt) : Prop :=
    let p := paid s c i
    let stands : Prop := hold = true ∨ fadd = true ∨ 16 < (p.flight c.who).sq.ents.length + l.length
    ∃ t q, Runs i s t ∧ Aside p t c ∧ t.mem.mem = p.mem.mem ∧ (∀ r l, l < laneCount c.cls → val t c.who r l = val p c.who r l) ∧
      (t.flight c.who).sq.lost = (p.flight c.who).sq.lost ∧ (t.flight c.who).results = (p.flight c.who).results ∧
      (t.flight c.who).sq.ents = (p.flight c.who).sq.ents ++ q ∧ q.map (fun e => { e with sb := 0, age := 0 }) = l ∧
      q.Pairwise (fun a b => a.age < b.age) ∧ (∀ e ∈ q.dropLast, e.sb = 0) ∧
      (q.getLast?).map (·.sb) = some (if hold then 0 else sb) ∧
      (hold = false → sb ≠ 0 → Tbl.get 0 (t.flight c.who).sb sb = Tbl.get 0 (p.flight c.who).sb sb + 1) ∧
      (stands → t.pcOf c.who = s.pcOf c.who ∧ (if hold then (t.flight c.who).relAt else (t.flight c.who).entAt) = some c.pc) ∧
      (¬stands → ∃ E, t = goesOn p c i E .go)
  let ends (i : Instr) (op : Nat) (g : Guard) : Prop := ∀ (s : State) (c : Ctx),
    let p := paid s c i
    let f := p.flight c.who
    Issues s i op g c → NoStat p →
    (f.relAt = some c.pc ∧ (∀ e ∈ f.sq.ents, e.rel = none)) ∨
      (f.relAt ≠ some c.pc ∧ f.entAt = some c.pc ∧ f.sq.ents.length ≤ 16 ∧ ∀ e ∈ f.sq.ents, e.isFadd = true → e.done = true ∨ e.lost = true) →
    ∃ q, { q with regions := p.regions } = p.updFlight c.who (fun f => { f with relAt := none, entAt := none, evs := [] }) ∧ Gives s c i q ∧
      (f.evs = [] → q.regions = p.regions)
  let room (p : State) (c : Ctx) : Prop := (p.flight c.who).sq.ents.length < 16
  (∀ (o : MemF) (s : State) (c : Ctx) (leaf : Nat → Leaf),
    let i : Instr := .st o
    let p := paid s c i
    Issues s i 0x63 o.g c → Unheld p c.who o.sb.toNat → (o.scope = .blk → p.migrated c.who = false) → room p c → ReleaseFree p c o.order o.scope →
    (∀ l, c.exec.getLsbD l = true → Reaches p c .store o.size.bytes (memAddr p c o l) (leaf l)) →
    joins i s c o.sb.toNat (begins o.order o.scope) false ((lanes c).map fun l =>
      ⟨false, (leaf l).phys, (memAddr p c o l).toNat, bytesOf o.size.bytes (memData p c o.t o.size l), none, (leaf l).home,
        storesGa o.ga (isRel o.order) o.scope (bypasses o.pol (leaf l)) (leaf l).home (dieOf c.who.core), 0, false, false, false, 0,
        if isRel o.order then some o.scope else none, bypasses o.pol (leaf l), false, 0⟩)) ∧
  (∀ o : MemF, ends (.st o) 0x63 o.g) ∧ (∀ o : MemF, ends (.stmc o) 0x68 o.g) ∧ (∀ o : MemF, ends (.sts o) 0x64 o.g) ∧
  (∀ o : AtomF, ends (.red o) 0x67 o.g) ∧
  (∀ (o : MemF) (s : State) (c : Ctx),
    let i : Instr := .sts o
    let p := paid s c i
    let off (l : Nat) : Nat := (p.get c o.a.toNat l + o.off.signExtend 64).toNat
    Issues s i 0x64 o.g c → Unheld p c.who 0 → p.migrated c.who = false → room p c → ReleaseFree p c o.order .blk → o.sb = 0 →
    (∀ l, c.exec.getLsbD l = true → off l % o.size.bytes = 0 ∧ off l + o.size.bytes ≤ c.blk.scratch.size ∧
      p.locked (p.bcore c) true (p.bslot c) true (off l) o.size.bytes = none) →
    joins i s c 0 false false ((lanes c).map fun l =>
      ⟨true, off l, 0, bytesOf o.size.bytes (memData p c o.t o.size l), none, 0, false, 0, false, false, false, 0,
        if isRel o.order then some .blk else none, false, false, 0⟩)) ∧
  (∀ (o : AtomF) (s : State) (c : Ctx) (leaf : Nat → Leaf),
    let i : Instr := .red o
    let p := paid s c i
    let b (l : Nat) : Nat := memData p c o.b o.size l
    Issues s i 0x67 o.g c → Unheld p c.who o.sb.toNat → (o.scope = .blk → p.migrated c.who = false) → room p c → ReleaseFree p c o.order o.scope →
    o.op ≠ .cas →
    (∀ l, c.exec.getLsbD l = true → Reaches p c .rmw o.size.bytes (p.get64 c o.a.toNat l) (leaf l)) →
    joins i s c o.sb.toNat (begins o.order o.scope) (isFadd o.op) ((lanes c).map fun l =>
      ⟨false, (leaf l).phys, (p.get64 c o.a.toNat l).toNat, bytesOf o.size.bytes (b l), some (o.op, BitVec.ofNat 64 (b l)), (leaf l).home,
        o.ga || (isRel o.order && scopePkg o.scope), 0, false, false, false, 0, if isRel o.order then some o.scope else none, false, false, 0⟩)) ∧
  (∀ (o : MemF) (s : State) (c : Ctx) (L : Leaf) (ds : List DWord) (leaf : Nat → DWord → Leaf),
    let i : Instr := .stmc o
    let p := paid s c i
    let tab : Nat := ((p.warp c.who).map fun w => w.mctab.toNat).getD 0
    let ga := o.ga || (isRel o.order && scopePkg o.scope)
    Issues s i 0x68 o.g c → Unheld p c.who 0 → p.migrated c.who = false → room p c → ReleaseFree p c o.order o.scope →
    tab + 64 ≤ c.blk.constSize →
    p.access c.who.core c.blk.dealt.asid (some c.who) .load true (p.atHandler c.who) (c.blk.constBase + BitVec.ofNat 64 tab) = .ok L →
    p.readBad (dieOf c.who.core) (bypasses .dflt L) L 64 = none → replicas (p.constBytes c.who L 64) = some ds →
    (∀ l, c.exec.getLsbD l = true → ∀ d ∈ ds, Reaches p c .store o.size.bytes (memAddr p c o l + d) (leaf l d)) →
    joins i s c 0 (begins o.order o.scope) false ((lanes c).flatMap fun l => ds.map fun d =>
      ⟨false, (leaf l d).phys, (memAddr p c o l + d).toNat, bytesOf o.size.bytes (memData p c o.t o.size l), none, (leaf l d).home,
        storesGa o.ga (isRel o.order) o.scope (bypasses o.pol (leaf l d)) (leaf l d).home (dieOf c.who.core), if ga then p.seq + l else 0,
        false, false, false, 0, if isRel o.order then some o.scope else none, bypasses o.pol (leaf l d), false, 0⟩))

/-- THE ATOMIC OPERATIONS on words of w bits (20 Table 2), old value and operands in range, and one lane of a global atomic (20 R291, R292;
09 R165): it reads the word at the home and, where the operation writes, leaves the new value there; every other byte of memory is as
before. -/
def Obligations.AtomicOperations : Prop :=
  (∀ (n : Nat) (old b x : BitVec n),
      let v (op : AtomOp) : Option Nat := (atomVal op n old.toNat b.toNat x.toNat).1
      v .add = some (old + b).toNat ∧ v .minS = some (if b.slt old then b else old).toNat ∧ v .maxS = some (if old.slt b then b else old).toNat ∧
      v .minU = some (min old.toNat b.toNat) ∧ v .maxU = some (max old.toNat b.toNat) ∧ v .and = some (old &&& b).toNat ∧
      v .or = some (old ||| b).toNat ∧ v .xor = some (old ^^^ b).toNat ∧ v .xchg = some b.toNat ∧
      v .cas = (if old = x then some b.toNat else none) ∧ v .inc = some (if b.toNat ≤ old.toNat then 0 else old.toNat + 1)) ∧
  (∀ (s : State) (region age : Nat) (w : Who) (op : AtomOp) (ga : Bool) (n a va home v x : Nat), Plain s w a n →
      s.efPending (dieOf w.core) a n = false →
      let r := s.atomLane region w .ls op ga n a va home age v x
      let old := natOf ((span a n).map (s.mem.at home))
      r.2.1 = old ∧ (∀ k, Tbl.get 0 r.1.mem.mem k =
        match (atomVal op (8 * n) old v x).1 with
        | some y => if a ≤ k ∧ k < a + n then BitVec.ofNat 8 (y / 2 ^ (8 * (k - a))) else Tbl.get 0 s.mem.mem k
        | none => Tbl.get 0 s.mem.mem k) ∧
      (n ≠ 0 → (atomVal op (8 * n) old v x).1 ≠ none → ∀ k, a ≤ k → k < a + n → r.1.mem.at (dieOf w.core) k = Tbl.get 0 r.1.mem.mem k))

/-- ATOM and ATOMS (20 R291 to R293): the lanes in increasing order, each on the state the one
before left; they deliver the old values, each as it stands at the home when its lane writes (09 R165). They wait for the party's own queue. -/
def Obligations.AtomicsComplete : Prop :=
  let global (i : Instr) (op : Nat) (o : AtomF) (s : State) (c : Ctx) (leaf : Nat → Leaf) : Prop :=
    let p := paid s c i
    Issues s i op o.g c ∧ Unheld p c.who o.sb.toNat ∧ NoStat p ∧ (o.scope = .blk → p.migrated c.who = false) ∧ (p.flight c.who).sq.ents = [] ∧
    ReleaseFree p c o.order o.scope ∧ ∀ l, c.exec.getLsbD l = true → Reaches p c .rmw o.size.bytes (p.get64 c o.a.toNat l) (leaf l) ∧
      p.efPending (dieOf c.who.core) (leaf l).phys o.size.bytes = false ∧ p.loadHeld c.who (leaf l).phys o.size.bytes = false
  let lanes (p : State) (c : Ctx) (o : AtomF) (leaf : Nat → Leaf) (q : State) (n : Nat) : State :=
    ((List.range n).filter fun l => c.exec.getLsbD l).foldl (fun q l =>
      (q.atomLane c.blk.dealt.region c.who .ls o.op (o.ga || (isRel o.order && scopePkg o.scope)) o.size.bytes (leaf l).phys
        (p.get64 c o.a.toNat l).toNat (leaf l).home (256 * p.fresh + l) (memData p c o.b o.size l % 2 ^ (8 * o.size.bytes))
        (if o.op = .cas then memData p c o.c o.size l % 2 ^ (8 * o.size.bytes) else 0)).1) q
  let on (c : Ctx) (f : Nat → Nat) : List Nat := ((List.range 32).filter fun l => c.exec.getLsbD l).map f
  let ready (p : State) (c : Ctx) (o : AtomF) (sc : Scope) (scratch : Bool) (f : Nat → Nat) : State :=
    if isRel o.order then p.releaseAt c.who sc scratch o.size.bytes (on c f) else p
  (∀ (o : AtomF) (s : State) (c : Ctx) (leaf : Nat → Leaf), o.size = .b32 ∨ o.size = .b64 → global (.atom o) 0x65 o s c leaf →
    let p := paid s c (.atom o)
    ∃ t q, Runs (.atom o) s t ∧ t.mem.mem = (lanes p c o leaf q 32).mem.mem ∧ t.regs = p.regs ∧
      q.mem = { (ready p c o o.scope false fun l => (leaf l).phys).mem with tlb := q.mem.tlb } ∧ q.fresh = p.fresh ∧
      Delivers p t c o.sb.toNat o.d.toNat (o.size.regs c.cls) fun l =>
        natOf ((lanes p c o leaf q l).standing (leaf l).home (leaf l).phys o.size.bytes)) ∧
  (∀ (o : AtomF) (s : State) (c : Ctx), o.size = .b32 ∨ o.size = .b64 →
    let i : Instr := .atoms o
    let p := paid s c i
    let n := o.size.bytes
    let off (l : Nat) : Nat := (p.get c o.a.toNat l).toNat
    let step (q : State) (l : Nat) : State := (q.atomsLane (p.bcore c) (p.bslot c) c.who o.op n (off l) (memData p c o.b o.size l % 2 ^ (8 * n))
      (if o.op = .cas then memData p c o.c o.size l % 2 ^ (8 * n) else 0)).1
    let lanes (n : Nat) : State := ((List.range n).filter fun l => c.exec.getLsbD l).foldl step (ready p c o .blk true off)
    Issues s i 0x66 o.g c → Unheld p c.who o.sb.toNat → NoStat p → p.migrated c.who = false → (p.flight c.who).sq.ents = [] →
    ReleaseFree p c o.order .blk →
    (∀ l, c.exec.getLsbD l = true → off l % n = 0 ∧ off l + n ≤ c.blk.scratch.size ∧ c.blk.scratch.badAt (off l) n = none ∧
      p.locked (p.bcore c) true (p.bslot c) true (off l) n = none) →
    ∃ t, Runs i s t ∧ t.mem.mem = p.mem.mem ∧ t.regs = p.regs ∧
      (t.block (p.bcore c) (p.bslot c)).map (·.scratch.bytes) = ((lanes 32).block (p.bcore c) (p.bslot c)).map (·.scratch.bytes) ∧
      Delivers p t c o.sb.toNat o.d.toNat (o.size.regs c.cls) fun l => natOf (Tbl.getList 0 ((lanes l).scratch (p.bcore c) (p.bslot c)).bytes (off l) n))

/-- PREF, DISC and CLAIM (08 R150, R155, R156; 20 R302, R308; 22 R365). PREF changes no register and no memory; PFISS counts each line
requested once. DISC makes the sectors of its ranges discarded. CLAIM, of a range that checks, is under way, counted in its scoreboard if it
names one; a length of 0 does nothing, whatever the party has outstanding. -/
def Obligations.RangeWords : Prop :=
  let op (p : State) (c : Ctx) (i : Instr) : MemOp := p.capture c i []
  let len (p : State) (c : Ctx) (t : BitVec 8) (l : Nat) : Nat := (p.get c t.toNat l).toNat % 2 ^ 32
  (∀ a g off pol s c, let i : Instr := .pref a g off pol
    let p := paid s c i
    let lines := (((List.range 32).filter fun l => c.exec.getLsbD l).filterMap fun l =>
      p.prefLine c pol (p.get64 c a.toNat l + BitVec.signExtend 64 off)).dedup
    let asked := lines.filter fun r => !p.prefHeld c.who.core r.1 r.2
    Issues s i 0x69 g c → ∃ t, Runs i s t ∧ Calm p t c [] ∧ t.mem = p.mem ∧
      ((p.core c.who.core).pfiss.toNat + asked.length < 2 ^ 48 →
        (t.core c.who.core).pfiss.toNat = (p.core c.who.core).pfiss.toNat + asked.length)) ∧
  (∀ t a g s c, let i : Instr := .disc t a g
    let p := paid s c i
    let va (l : Nat) : DWord := p.get64 c a.toNat l
    let ps (l : Nat) := p.pieces (op p c i) c.blk.dealt.asid .store (len p c t l / 4096 + 2) (va l) (len p c t l)
    Issues s i 0x6A g c → (p.flight c.who).begun c.pc = false →
    ((∀ l, c.exec.getLsbD l = true → p.get c t.toNat l = 0 ∧ (va l).toNat % 32 = 0) → Runs i s (goesOn p c i p .go)) ∧
    (Unheld p c.who 0 → (p.flight c.who).sq = ⟨[], []⟩ →
    (∀ l, c.exec.getLsbD l = true → (va l).toNat % 32 = 0 ∧ len p c t l % 32 = 0 ∧ pieceFaults l (ps l) = [] ∧
      p.locked c.who.core false c.blk.dealt.asid true (va l).toNat (len p c t l) = none ∧
      ∀ q ∈ goodPieces (ps l), p.efPending (dieOf c.who.core) q.2.2.phys q.2.1 = false ∧ (p.die q.2.2.home).dead = false) →
    ∃ u, Runs i s u ∧ Calm p u c [] ∧ ∀ k, Tbl.get false u.mem.disc k = (Tbl.get false p.mem.disc k ||
      (List.range 32).any fun l => c.exec.getLsbD l && (goodPieces (ps l)).any fun q => (sectorsOf q.2.2.phys q.2.1).contains k))) ∧
  (∀ t a g sb s c, let i : Instr := .claim t a g sb
    let p := paid s c i
    let l := lowest c.exec
    let va : DWord := p.get64 c a.toNat l
    let n := len p c t l
    let rd := p.claimPieces (op p c i) c.blk.dealt.asid .load va n
    let wr := p.claimPieces (op p c i) c.blk.dealt.asid .store va n
    Issues s i 0x6D g c → (p.get c t.toNat l = 0 → Runs i s (goesOn p c i p .go)) ∧
    (Unheld p c.who sb.toNat → (p.flight c.who).begun c.pc = false → p.effFmode 285 c.blk.dealt.region = false → n ≠ 0 → va.toNat % 4096 = 0 → n % 4096 = 0 → pieceFaults l rd = [] → pieceFaults l wr = [] →
      (∀ q ∈ p.rangeLeaves c.blk.dealt.asid va.toNat n,
        q.1.toNat % 2 ^ 57 = q.2.2.base ∧ q.2.1 = q.2.2.size ∧ (p.die q.2.2.home).dead = false) →
      (p.flight c.who).sq = ⟨[], []⟩ → (p.flight c.who).results = [] → p.storesHome c.who = true →
      ∃ u, Runs i s u ∧ Calm p u c [] ∧ u.mem = p.mem ∧
        (u.flight c.who).results = [⟨sb.toNat, [], .none, [], some (c.blk.dealt.asid, va.toNat, n)⟩] ∧
        (sb ≠ 0 → Tbl.get 0 (u.flight c.who).sb sb.toNat = Tbl.get 0 (p.flight c.who).sb sb.toNat + 1)))

/-- FENCE and FENCEP (08 R141, 09 R162, R163, 21 R322, R323): with nothing outstanding they complete. A FENCE ends its clause; after one
with an acquire at `.die` or wider the core's L1 holds nothing (the model's way to return no older value, entry 35); after FENCEP every byte that the party wrote or observed by path w is read
as written by path r, in memory and in its block's scratch, but for bytes of a slot that the matrix engine holds (07 R126). -/
def Obligations.FencesComplete : Prop :=
  (∀ order sc ga g s c, let i : Instr := .fence order sc ga g
    let p := paid s c i
    Issues s i 0x6B g c → order ≠ .relaxed → (sc = .blk → p.migrated c.who = false) → p.owed c.who = [] →
    (isRel order = true ∨ scopePkg sc = true ∨ ga = true → (p.flight c.who).sq = ⟨[], []⟩) → (scopePkg sc = true ∨ ga = true → p.linkQuiet = true) →
    (isRel order = true → sc = .sys → p.peerQuiet c.who = true) →
    ∃ t, Runs i s t ∧ Calm p t c [] ∧ t.clauseOf c.who = none ∧
      (isAcq order = true → scopeWide sc = true → (t.core c.who.core).l1.lines = [] ∧ (t.core c.who.core).l1.old = [])) ∧
  (∀ w r g s c, let i : Instr := .fencep w r g
    let p := paid s c i
    Issues s i 0x6C g c → w ≠ r → (w = .ls → (p.flight c.who).sq.ents = []) → (w = .ls → r = .tile → p.storesHome c.who = true) →
    ∃ t, Runs i s t ∧ Calm p t c [] ∧
      (∀ k, ∀ e ∈ Tbl.get [] t.mem.path k, e.path = w → e.known (p.pid c.who) = true → e.seen.contains r = true) ∧
      ∀ b, t.block (p.bcore c) (p.bslot c) = some b → ∀ k, (r = .tile → c.blk.engineHolds k = false) → ∀ e ∈ Tbl.get [] b.scratch.path k,
        e.path = w → e.known (p.pid c.who) = true → e.seen.contains r = true)

/-- MIGR and MIGR.home (08 R157, 22 R351), of a whole warp with nothing outstanding: no move where the page's home is the warp's die, or
at its origin; else the warp stands in a landing slot, its origin slot marking where it is, or again in its slot of origin, with its
registers and predicates. -/
def Obligations.MigrationMovesWarps : Prop :=
  let free (p : State) (c : Ctx) (x : Warp) : Prop := p.warp c.who = some x ∧ x.whole = true ∧ p.owed c.who = [] ∧ p.freeLogs c.who.core ≠ [] ∧
    x.flight.sq = ⟨[], []⟩ ∧ x.flight.sb = [] ∧ p.linkQuiet = true
  let moved (s t : State) (c : Ctx) (x : Warp) (w : Who) : Prop := t.mem.mem = s.mem.mem ∧ ∃ y, t.warp w = some y ∧
    y.preds = x.preds ∧ y.srseed = x.srseed ∧ y.frame = x.frame ∧ y.alive = x.alive ∧ (∀ r l, l < 32 → val t w r l = val s c.who r l)
  (∀ a s c x (l : Leaf), let i : Instr := .migr a
    let p := paid s c i
    Issues s i 0x6E noGuard c → free p c x →
    p.access c.who.core c.blk.dealt.asid (some c.who) .load true (p.atHandler c.who) (p.get64 c a.toNat (lowest c.active)) = .ok l →
    (l.home = dieOf c.who.core → ∃ t, Runs i s t ∧ moved p t c x c.who) ∧
    (l.home ≠ dieOf c.who.core → l.home = dieOf (x.originOf c.who).1 →
      ∃ t, Runs i s t ∧ moved p t c x ⟨(x.originOf c.who).1, .warp (x.originOf c.who).2⟩) ∧
    (l.home ≠ dieOf c.who.core → l.home ≠ dieOf (x.originOf c.who).1 →
      ∀ k, p.landingFor c.who l.home c.blk.dealt.pool (frameCuts x.frame) = some k →
      ∃ t, Runs i s t ∧ moved p t c x ⟨k, .landing⟩ ∧
        (t.warp ⟨k, .landing⟩).map (·.origin) = some (some (x.originOf c.who)) ∧
        (t.warp ⟨(x.originOf c.who).1, .warp (x.originOf c.who).2⟩).map (·.away) = some (some k))) ∧
  (∀ s c x, let p := paid s c .migrHome
    Issues s .migrHome 0x6E noGuard c → free p c x →
    (x.origin = none → ∃ t, Runs .migrHome s t ∧ moved p t c x c.who) ∧
    (x.origin ≠ none → ∃ t, Runs .migrHome s t ∧ moved p t c x ⟨(x.originOf c.who).1, .warp (x.originOf c.who).2⟩))

/-- STORES LEAVE THEIR QUEUE (09 R164, R166 to R170; 08 R158): STORE_LEAVE_QUEUE performs one of the entries that may be performed, among
them the oldest that waits; none that may be performed touches bytes of an entry that another party of the core has performed ahead of
older ones (entry 44). Performed, an entry of scratch is written there; an EF store at its home changes exactly its bytes; one to the
other die's memory is seen by its own die and is on its way home; a GA store that has to cross the link is sent, or lost where the other die
is dead (entry 21), another is seen by both
dies at once; a replica of a group is held until every store of the group is acknowledged; a RED reads and writes its word at the home. Where the die
holds few enough lines, none of its guest copies gives way (entry 24). -/
def Obligations.StoresLeaveTheQueue : Prop :=
  let put (a : Nat) (bs : List Byte) (f : Nat → Byte) (k : Nat) : Byte := if a ≤ k ∧ k < a + bs.length then (bs[k - a]?).getD 0 else f k
  let byte (s : State) (k : Nat) : Byte := Tbl.get 0 s.mem.mem k
  let clear (s : State) (a n : Nat) : Prop := ∀ k, a ≤ k → k < a + n → Tbl.get false s.mem.disc (k / 32) = false
  (∀ (s : State) (w : Who),
    let q := s.tick.readyStores w
    (q ≠ [] → ∃ e ∈ q, Runs (.storeLeaveQueue w) s (s.tick.performStore w e)) ∧ (q = [] → Runs (.storeLeaveQueue w) s s.tick)) ∧
  (∀ (s : State) (w : Who),
    let apart (e : StoreEnt) : Prop := ∀ f ∈ (s.core w.core).flightsBut w.party, ∀ x ∈ aheadEnts f.sq.ents, x.touches false e.addr e.bytes.length = false
    (∀ (pre rest : List StoreEnt) (e : StoreEnt), (s.flight w).sq.ents = pre ++ e :: rest → pre.length < 16 → (∀ x ∈ pre, x.done = true) →
      e.done = false → e.sent = false → e.lost = false → (e.scratch = false → apart e) → e ∈ s.readyStores w) ∧
    ∀ e ∈ s.readyStores w, e.scratch = false → apart e) ∧
  ∀ (s : State) (w : Who) (e : StoreEnt) (rest : List StoreEnt), (s.flight w).sq.ents = e :: rest → e.lost = false → e.sent = false → e.done = false →
    (∀ x ∈ rest, x.age ≠ e.age) → (rest.head?).map (·.done) ≠ some true →
    let t := s.performStore w e
    let d := dieOf w.core
    let n := e.bytes.length
    let msg (k : MsgKind) : Msg := ⟨k, d, w, s.regionOf w, e.addr, e.va, e.bytes, s.tref.toNat, e.age⟩
    (e.scratch = true → t.mem.mem = s.mem.mem ∧ (t.flight w).sq.ents = rest ∧
      ∀ b, s.block (s.home w).1 (s.home w).2 = some b → ∃ b', t.block (s.home w).1 (s.home w).2 = some b' ∧
        ∀ k, Tbl.get 0 b'.scratch.bytes k = put e.addr (e.bytes.take (b.scratch.size - e.addr)) (fun k => Tbl.get 0 b.scratch.bytes k) k) ∧
    (e.scratch = false → (s.die e.home).dead = true → e.ga = false → (t.flight w).sq.ents = rest ∧
      (t.flight w).sq.lost = (s.flight w).sq.lost ++ [e.loss] ∧
      ∀ l ∈ linesOf e.addr n, ∀ j, j < 4 → Tbl.get false t.mem.bad (4 * l + j) = true) ∧
    (e.scratch = false → (s.die e.home).dead = false → clear s e.addr n →
      (e.rmw = none → e.ga = false → e.home = d → (t.flight w).sq.ents = rest ∧ (∀ k, byte t k = put e.addr e.bytes (byte s) k) ∧
        ∀ k, e.addr ≤ k → k < e.addr + n → t.mem.at d k = byte t k) ∧
      (e.rmw = none → e.ga = false → e.home ≠ d → (t.flight w).sq.ents = rest ∧ t.mem.mem = s.mem.mem ∧ t.mem.msgs = s.mem.msgs ++ [msg .ef] ∧
        (∀ k, e.addr ≤ k → k < e.addr + n → t.mem.at d k = put e.addr e.bytes (s.mem.at d) k) ∧
        ((s.mem.guests d).length + n ≤ 786432 → ∀ k, t.mem.at d k = put e.addr e.bytes (s.mem.at d) k)) ∧
      (e.rmw = none → e.ga = true → s.crosses w e = true → (s.die (1 - d)).dead = true → e.group = 0 →
        (t.flight w).sq.lost = (s.flight w).sq.lost ++ [e.loss] ∧
        ∀ l ∈ linesOf e.addr n, ∀ j, j < 4 → Tbl.get false t.mem.bad (4 * l + j) = true) ∧
      (e.rmw = none → e.ga = true → s.crosses w e = true → (s.die (1 - d)).dead = false → t.mem.mem = s.mem.mem ∧
        (t.flight w).sq.ents = { e with sent := true } :: rest ∧ t.mem.msgs = s.mem.msgs ++ [msg .ga]) ∧
      (e.rmw = none → e.ga = true → s.crosses w e = false → e.group = 0 → (t.flight w).sq.ents = rest ∧
        (∀ k, byte t k = put e.addr e.bytes (byte s) k) ∧
        ∀ d k, d < 2 → e.addr ≤ k → k < e.addr + n → s.mem.efOf d k = false → t.mem.at d k = byte t k) ∧
      (e.rmw = none → e.ga = true → s.crosses w e = false → e.group ≠ 0 → (∃ x ∈ rest, x.group = e.group ∧ x.acked = false) →
        (t.flight w).sq.ents = { e with sent := true, acked := true } :: rest ∧ (n ≠ 0 → ∀ k, t.heldAt k e.addr n = true)) ∧
      (∀ op v, e.rmw = some (op, v) → s.efPending d e.addr n = false → Plain s w e.addr n →
        (∀ x ∈ rest, x.sameWord e = false ∨ x.addr ≠ e.addr) → (t.flight w).sq.ents = rest ∧
          ∀ k, byte t k = match (atomVal op (8 * n) (natOf ((span e.addr n).map (s.mem.at e.home))) v.toNat 0).1 with
            | some x => put e.addr (bytesOf n x) (byte s) k
            | none => byte s k))

/-- MESSAGES AND RESULTS ARRIVE (09 R169, R170, R175; 03 R53; 08 R156; 20 R313): an EF store changes exactly its bytes at its home; an
invalidation changes no byte there; a GA store of no group, as it reaches a home on the other die or as that die has acknowledged its
invalidation, shows exactly its bytes to both dies, and a home on the other die acknowledges it. One that is overdue
poisons its line. A result reaches the registers of lanes that have not ended, and no others; a CLAIM first holds its range and is re-homed
once nothing of it is on the link. -/
def Obligations.StoresAndResultsArrive : Prop :=
  let put (a : Nat) (bs : List Byte) (f : Nat → Byte) (k : Nat) : Byte := if a ≤ k ∧ k < a + bs.length then (bs[k - a]?).getD 0 else f k
  let byte (s : State) (k : Nat) : Byte := Tbl.get 0 s.mem.mem k
  let clear (s : State) (a n : Nat) : Prop := ∀ k, a ≤ k → k < a + n → Tbl.get false s.mem.disc (k / 32) = false
  (∀ (s : State) (i : Nat) (m : Msg), s.msgReady i = some m → clear s m.addr m.bytes.length →
    (m.kind = .ef → ∃ t, Runs (.efStoreHomeArrival i) s t ∧ (∀ k, byte t k = put m.addr m.bytes (byte s) k) ∧ t.mem.msgs = s.mem.msgs.eraseIdx i) ∧
    (m.kind = .inval → ∃ t, Runs (.ackArrival i) s t ∧ t.mem.mem = s.mem.mem ∧ t.mem.msgs = s.mem.msgs.eraseIdx i) ∧
    (m.kind = .ga → ∀ e, s.gaEntry m = some e → e.group = 0 → clear s e.addr e.bytes.length →
      ∃ t, Runs (.ackArrival i) s t ∧ (∀ k, byte t k = put e.addr e.bytes (byte s) k) ∧
      t.mem.msgs = (if e.home = m.die then s.mem.msgs.eraseIdx i else s.mem.msgs.modify i fun y => { y with kind := .gaAck }) ∧
      ∀ d k, d < 2 → e.addr ≤ k → k < e.addr + e.bytes.length → s.mem.efOf d k = false → t.mem.at d k = byte t k) ∧
    (m.kind = .gaAck → ∀ e, s.gaEntry m = some e → e.group = 0 →
      ∃ t, Runs (.ackArrival i) s t ∧ t.mem.mem = s.mem.mem ∧ t.mem.msgs = s.mem.msgs.eraseIdx i)) ∧
  (∀ (s : State) (i : Nat) (m : Msg), s.mem.msgs[i]? = some m →
    (m.sent + s.effAckto m.region ≤ s.tref.toNat → ∃ t, Runs (.ackTimeout i) s t ∧
      ∀ l, l ∈ linesOf m.addr m.bytes.length → ∀ j, j < 4 → Tbl.get false t.mem.bad (4 * l + j) = true) ∧
    (s.tref.toNat < m.sent + s.effAckto m.region → Runs (.ackTimeout i) s s.tick)) ∧
  (∀ (s : State) (w : Who) (i : Nat) (r : Result), (s.flight w).results[i]? = some r → r.claim = none →
    ∃ t, Runs (.resultArrival w i) s t ∧ t.mem = s.mem ∧
      ∀ x, s.warp w = some x → ∀ n l, l < 32 → n ≠ 0 →
        (x.alive.getLsbD l = true → ∀ v, r.vals.filter (fun e => e.1 == 32 * n + l) = [(32 * n + l, v)] →
          val t w n l = (v.setWidth 32).setWidth 64) ∧
        ((x.alive.getLsbD l = false ∨ ∀ v, (32 * n + l, v) ∉ r.vals) → val t w n l = val s w n l)) ∧
  ∀ (s : State) (w : Who) (i asid lo len : Nat) (r : Result), (s.flight w).results[i]? = some r → r.claim = some (asid, lo, len) →
    let m : Moving := ⟨w, asid, lo, len⟩
    (m ∉ s.mem.moving → ∃ t, Runs (.resultArrival w i) s t ∧ t.mem = { s.mem with moving := s.mem.moving ++ [m] } ∧ t.flight w = s.flight w) ∧
    (m ∈ s.mem.moving → s.claimQuiet asid lo len = false → Runs (.resultArrival w i) s s.tick) ∧
    (m ∈ s.mem.moving → s.claimQuiet asid lo len = true →
      let t := s.tick.updFlight w fun f => f.land i r
      Runs (.resultArrival w i) s (t.rehome w asid lo len true).sweepLogs ∧ m ∉ (t.rehome w asid lo len true).mem.moving ∧
        ((t.flight w).results = (s.flight w).results.eraseIdx i))

/-! Synchronisation words (09 R178 to R182; 20 R294 to R296, R309; 21 R329; 23 R375 to R377; 02 R27 to R31) -/

/-- NAMED BARRIERS (09 R182, 20 R294). An arrival of k lanes with expected count x joins the phase; at x lanes the phase completes; a lane
too many, or another x, traps and fails the phase. BARA goes on at once; the BARW whose arrival completes the phase goes on; an arrival that
fails the phase traps BARERR, with the barrier's id in AUX. -/
def Obligations.NamedBarriers : Prop :=
  let lanes (c : Ctx) : Nat := if c.cls = .front then 1 else popCount c.active
  let comes (p : State) (c : Ctx) (id : BitVec 16) (e : Nat) (x : Block) (bad : Bool) : Prop := p.migrated c.who = false ∧ Settled p c.who .blk ∧
    id.toNat ≤ 15 ∧ 1 ≤ e ∧ e ≤ 1026 ∧ p.block (p.bcore c) (p.bslot c) = some x ∧ ((x.bar id.toNat).arrive (lanes c) e).2 = bad
  let arrived (p : State) (c : Ctx) (id : BitVec 16) (e : Nat) : State :=
    p.updBlock (p.bcore c) (p.bslot c) fun x => x.setBar id.toNat ((x.bar id.toNat).arrive (lanes c) e).1
  let rel (p : State) (c : Ctx) (id : BitVec 16) : State := p.release c.who .blk (.bar id.toNat)
  let fails (s p : State) (c : Ctx) (i : Instr) (id : BitVec 16) (e : Nat) : Prop :=
    Runs i s ((arrived (rel p c id) c id e).takeTrap c.who c.pc c.next (TrapArgs.of .barErr 0 id.toNat c.active))
  (∀ (b : Bar) (k x : Nat),
    let r := b.arrive k x
    let joins : Prop := (b.count = 0 ∨ x = b.expect) ∧ b.count + k ≤ x
    (¬joins → r.2 = true ∧ r.1.count = 0 ∧ r.1.phase = b.phase + 1 ∧ r.1.state b.phase = .failed .barErr) ∧
    (joins → b.count + k = x → r = (⟨0, 0, b.phase + 1, b.failed⟩, false)) ∧
    (joins → b.count + k < x → r = (⟨b.count + k, x, b.phase, b.failed⟩, false))) ∧
  (∀ id b s c x, let i : Instr := .bara id b
    let p := paid s c i
    (Issues s i 0x71 noGuard c → comes p c id (p.breg c b) x false → Gives s c i (arrived (rel p c id) c id (p.breg c b))) ∧
    (Ready s i 0x71 noGuard c → comes p c id (p.breg c b) x true → fails s p c i id (p.breg c b))) ∧
  (∀ id b s c x, let i : Instr := .barw id b
    let p := paid s c i
    (∀ e ∈ p.arrivals c, e.2.2 = none) →
    (Issues s i 0x70 noGuard c → comes p c id (p.breg c b) x false →
      (x.bar id.toNat).count + lanes c = p.breg c b → (x.bar id.toNat).failed.contains (x.bar id.toNat).phase = false →
      Shares s c i [] (arrived p c id (p.breg c b)) fun t => t.clauseOf c.who = s.clauseOf c.who ∨ t.clauseOf c.who = none) ∧
    (Ready s i 0x70 noGuard c → comes p c id (p.breg c b) x true → fails s p c i id (p.breg c b)))

/-- BYTE-COUNTING BARRIERS (09 R178 to R180, 20 R295, R296): the phase completes when an expectation stands, its bytes have come and every
arrival is in; too many bytes, a 32-bit overflow or an arrival too many set the error, which only BCBINIT clears, and until then the record
stays as it is; a record reads back as it was written; and BCBINIT, BCBEXP, BCBARV, a satisfied BCBWAIT and BCBTRY complete. BCBARV with
no arrival left to come traps BARERR, and BCBWAIT and BCBTRY trap with the cause and the address of a record in error. -/
def Obligations.ByteCountingBarriers : Prop :=
  let ended (b : Bcb) : Bcb := { b with ph := !b.ph, ep := false, expb := 0, arrb := 0, remn := b.arrn }
  let failed (b : Bcb) (c : Cause) (a : Nat) : Bcb := { ended b with err := true, cause := c.code, eaddr := a }
  let checked (b : Bcb) (a : Nat) : Bcb :=
    if b.ep = true ∧ b.expb < b.arrb then failed b .barOver a else if b.ep = true ∧ b.arrb = b.expb ∧ b.remn = 0 then ended b else b
  let at_ (p : State) (c : Ctx) (a : BitVec 8) : Nat := p.quadReg c a 0
  let usable (p : State) (c : Ctx) (a : BitVec 8) : Prop := p.migrated c.who = false ∧ p.objTrap c (at_ p c a) 32 32 = none
  let now (p : State) (c : Ctx) (a : BitVec 8) : Bcb := p.bcb (p.bcore c) (p.bslot c) (at_ p c a)
  let set (p q : State) (c : Ctx) (a : BitVec 8) (b : Bcb) : State := q.setBcb (p.bcore c) (p.bslot c) (at_ p c a) b
  let rel (p : State) (c : Ctx) (a : BitVec 8) : State := p.release c.who .blk (.bcb (at_ p c a))
  let acq (p : State) (c : Ctx) (a : BitVec 8) : State := p.acquire c.who .blk (.bcb (at_ p c a))
  let told (s p : State) (c : Ctx) (i : Instr) (a : BitVec 8) : Prop :=
    (now p c a).err = true → ∀ x, Cause.ofCode (now p c a).cause = some x →
      Runs i s (p.takeTrap c.who c.pc c.next (TrapArgs.reported x (BitVec.ofNat 64 (now p c a).eaddr) c.active))
  (∀ (b : Bcb) (a n : Nat),
    let e := (if b.ep then b.expb else 0) + n
    b.op a (.init n) = (⟨0, 0, n, n, false, false, false, 0, 0⟩, false) ∧
    (b.err = true → b.op a (.expect n) = (b, false) ∧ b.op a (.bytes n) = (b, false) ∧ b.op a .arrive = (b, false)) ∧
    (b.err = false →
      b.op a (.expect n) = (if e < 2 ^ 32 then checked { b with expb := e, ep := true } a else failed b .barOver a, false) ∧
      b.op a (.bytes n) = (if b.arrb + n < 2 ^ 32 then checked { b with arrb := b.arrb + n } a else failed b .barOver a, false) ∧
      b.op a .arrive = (if b.remn = 0 then (failed b .barErr a, true) else (checked { b with remn := b.remn - 1 } a, false)))) ∧
  (∀ b : Bcb, b.expb < 2 ^ 32 → b.arrb < 2 ^ 32 → b.arrn < 2 ^ 16 → b.remn < 2 ^ 16 → b.cause < 2 ^ 8 → b.eaddr < 2 ^ 64 →
    ∀ (s : State) (core slot a : Nat), s.block core slot ≠ none → (s.setBcb core slot a b).bcb core slot a = b) ∧
  (∀ a s c, let i : Instr := .bcbinit a
    let p := paid s c i
    let n := p.quadReg c a 1
    Issues s i 0x72 noGuard c → p.migrated c.who = false → p.placeTrap c (at_ p c a) 32 32 = none → n ≤ 65535 → Gives s c i (set p p c a ⟨0, 0, n, n, false, false, false, 0, 0⟩)) ∧
  (∀ a b s c, let i : Instr := .bcbexp a b
    let p := paid s c i
    Issues s i 0x73 noGuard c → usable p c a → Settled p c.who .blk →
    ((now p c a).err = true → Gives s c i (rel p c a)) ∧ ((now p c a).err = false →
      Gives s c i (set p (rel p c a) c a ((now p c a).op (at_ p c a) (.expect (p.breg c b))).1))) ∧
  (∀ a s c, let i : Instr := .bcbarv a
    let p := paid s c i
    usable p c a → Settled p c.who .blk →
    (Issues s i 0x74 noGuard c → (now p c a).err = true → Gives s c i (rel p c a)) ∧
    (Issues s i 0x74 noGuard c → (now p c a).err = false → (now p c a).remn ≠ 0 →
      Gives s c i (set p (rel p c a) c a ((now p c a).op (at_ p c a) .arrive).1)) ∧
    (Ready s i 0x74 noGuard c → (now p c a).err = false → (now p c a).remn = 0 →
      Runs i s ((set p (rel p c a) c a ((now p c a).op (at_ p c a) .arrive).1).takeTrap c.who c.pc c.next
        (TrapArgs.of .barErr (BitVec.ofNat 64 (at_ p c a)) 0 c.active)))) ∧
  (∀ a b s c, let i : Instr := .bcbwait a b
    let p := paid s c i
    usable p c a → p.owed c.who = [] →
    (Issues s i 0x75 noGuard c → (now p c a).err = false → (now p c a).ph.toNat ≠ p.breg c b % 2 → Gives s c i (acq p c a)) ∧
    (Ready s i 0x75 noGuard c → told s p c i a)) ∧
  (∀ a b s c, let i : Instr := .bcbtry a b
    let p := paid s c i
    usable p c a →
    (Issues s i 0x76 noGuard c → (now p c a).err = false → p.owed c.who = [] → (now p c a).ph.toNat ≠ p.breg c b % 2 →
      Gives s c i ((acq p c a).put c c.active b.toNat fun _ => 1)) ∧
    (Issues s i 0x76 noGuard c → (now p c a).err = false → (now p c a).ph.toNat = p.breg c b % 2 →
      Gives s c i (p.put c c.active b.toNat fun _ => 0)) ∧
    (Ready s i 0x76 noGuard c → told s p c i a))

/-- RINGS (09 R181; 23 R375, R376; 07 R126): RINGINIT makes N free slots, of which the matrix engine holds none; RINGACQ takes the slot at its cursor, the oldest FILLED or FREE one, and
writes its offset; RINGREL releases the holder's oldest slot of its kind. -/
def Obligations.RingWords : Prop :=
  let ring (p : State) (c : Ctx) (id : BitVec 16) : Option Ring := p.ring (p.bcore c) (p.bslot c) id.toNat
  let set (p q : State) (c : Ctx) (id : BitVec 16) (r : Ring) : State := q.setRing (p.bcore c) (p.bslot c) id.toNat r
  let next (r : Ring) (k : Nat) : Nat := if k + 1 < r.slots.length then k + 1 else 0
  let found (p : State) (c : Ctx) (id : BitVec 16) (r : Ring) : Prop :=
    p.migrated c.who = false ∧ id.toNat ≤ 255 ∧ ring p c id = some r ∧ r.err = none
  let offset (q : State) (c : Ctx) (id : BitVec 16) (b : BitVec 8) (r : Ring) (k : Nat) : State :=
    (q.acquire c.who .blk (.ring id.toNat)).put c c.active b.toNat fun _ => BitVec.ofNat 64 (r.off + k * r.size)
  (∀ id a s c, let i : Instr := .ringinit id a
    let p := paid s c i
    let off := p.quadReg c a 0
    let n := p.quadReg c a 1
    let size := p.quadReg c a 2
    Issues s i 0x77 noGuard c → p.migrated c.who = false → id.toNat ≤ 255 → off % 128 = 0 → size % 128 = 0 → 1 ≤ n → n ≤ 256 → size ≠ 0 →
    off + n * size ≤ (p.scratch (p.bcore c) (p.bslot c)).size →
    (∀ r, ring p c id = some r → r.err = none ∧ (∀ k ∈ r.slots, k = .free) ∧ r.waitFree = [] ∧ r.waitFill = []) →
    Gives s c i ((set p p c id ⟨off, size, List.replicate n .free, [], 0, 0, [], [], none⟩).updMatrix (p.bcore c) (p.bslot c) fun m =>
      { m with pos := Tbl.set none m.pos id.toNat none })) ∧
  (∀ id b s c r, let i : Instr := .ringacqFill id b
    let p := paid s c i
    Issues s i 0x78 noGuard c → found p c id r → p.owed c.who = [] → r.waitFill = [] → r.slots[r.drainCur]? = some .filled →
    Gives s c i (offset (set p p c id { r with
      slots := r.slots.set r.drainCur .draining, drainCur := next r r.drainCur
      taken := r.taken ++ [⟨(p.holder c).1, r.drainCur, false⟩] }) c id b r r.drainCur)) ∧
  (∀ id b s c r, let i : Instr := .ringacqFree id b
    let p := paid s c i
    Issues s i 0x78 noGuard c → found p c id r → p.owed c.who = [] → r.waitFree = [] → r.slots[r.fillCur]? = some .free →
    Gives s c i (offset (set p p c id { r with
      slots := r.slots.set r.fillCur .filling, fillCur := next r r.fillCur
      taken := r.taken ++ [⟨(p.holder c).1, r.fillCur, true⟩] }) c id b r r.fillCur)) ∧
  (∀ fill id s c r e, let i : Instr := if fill then .ringrelFill id else .ringrelFree id
    let p := paid s c i
    Issues s i 0x79 noGuard c → found p c id r → Settled p c.who .blk →
    (r.taken.find? fun t => decide (t.holder = (p.holder c).1 ∧ t.fill = fill)) = some e →
    Gives s c i (set p (p.release c.who .blk (.ring id.toNat)) c id { r with
      slots := r.slots.set e.slot (if fill then .filled else .free)
      taken := r.taken.filter fun t => !decide (t.holder = (p.holder c).1 ∧ t.slot = e.slot ∧ t.fill = fill) }))

/-- GBAR, the decision queue and ROLECHK (21 R329; 20 R309, R310; 02 R27, R31, 23 R377): the arrival that every block's lanes and front
end have made completes the card barrier's phase; DQPUSH appends s[a]; DQPOP takes the warp's next entry; ROLECHK goes on with no flag up,
and else to its new role's entry, with the depth 0, where every slice is at depth 0 (but for those that have ended, the model's choice, entry
16). -/
def Obligations.CardAndQueueWords : Prop :=
  (∀ id sc s c r, let i : Instr := .gbar id sc
    let p := paid s c i
    let y := r.bar id.toNat
    let y' : CardBar := { y with scope := some sc, arrived := Tbl.upd 0 y.arrived (p.gbarKey c) (· ||| if c.cls = .front then 1 else c.active) }
    Issues s i 0x7A noGuard c → p.migrated c.who = false → id.toNat ≤ 15 → flag 452 c.blk.dealt.card = true → Settled p c.who sc →
    (∀ e ∈ p.arrivals c, e.2.2 = none) → p.run c.blk.dealt.run = some r → (y.scope = none ∨ y.scope = some sc) → r.peerLost = false → y.gone = [] →
    (∀ q ∈ p.runBlocks c.blk.dealt.run, y'.blockIn q.1 q.2 = true) → (∀ e ∈ y.failed, e.1 ≠ y.phase) →
    ∃ t, Runs i s t ∧ Calm p t c [] ∧ (t.run c.blk.dealt.run).map (fun r => r.bar id.toNat) = some ⟨none, [], y.phase + 1, y.failed, []⟩) ∧
  (∀ a g s c b, let i : Instr := .dqpush a g
    let p := paid s c i
    Issues s i 0x90 g c → Settled p c.who .blk → p.blockOf c.who = some b → b.dq.length < 16 →
    Gives s c i (((p.release c.who .blk .queue).updB c fun b => { b with dq := b.dq ++ [p.get c a.toNat 0] }).retireDq (p.bcore c) (p.bslot c))) ∧
  (∀ d h g s c b x v, let i : Instr := .dqpop d h g
    let p := paid s c i
    Issues s i 0x7B g c → p.migrated c.who = false → p.owed c.who = [] → p.blockOf c.who = some b → p.warp c.who = some x →
    b.dq[x.dqPos - b.dqBase]? = some v →
    Gives s c i ((((p.acquire c.who .blk .queue).put64 c c.exec d.toNat fun _ => v).updWarp c.who fun w =>
      { w with dqPos := x.dqPos + 1, popping := x.popping &&& ~~~x.gang }).retireDq (p.bcore c) (p.bslot c))) ∧
  (∀ s c b x t, let i : Instr := .rolechk
    let p := paid s c i
    Issues s i 0x7C noGuard c → p.migrated c.who = false → p.blockOf c.who = some b → p.warp c.who = some x → b.roles = some t →
    b.roleBad = false → rolesBroken b b.warpCount t.table = false →
    (x.flag = none → Gives s c i p) ∧
    (∀ role, x.flag = some role → x.whole = true → (∀ y ∈ x.slices, y.ended = false → y.depth = 0 ∧ y.stack = []) →
      let entry : DWord := t.table.extractLsb' (64 * role) 64
      let E := p.updWarp c.who fun w => { w with flag := none, role := role }
      (∀ w, E.warp c.who = some w → w.overflow c (fun _ => some (entry, 0)) = 0) →
      Runs i s ((p.cacheWord E c (i.use c.cls)).transfer c (fun _ => some (entry, 0)) (decide (entry.toNat ≤ c.pc.toNat)))))

/-! Engine commands (08 R144 to R149; 13 R256; 20 R305; 21 R331; 22 R343, R344; 23 R369 to R371, R380) -/

/-- A command that passes its checks joins the core's list with the locks of the bytes it names, in issue order, its record read: CPY, GTH and
SCT with their tile record's rows, RSEND, RGET, RATOM and LDIMG. The oldest request that is ready, and that nothing makes wait, is in flight
once it translates; a completed one of rows to scratch has moved its bytes, and its command counts it, an RSEND to the other die's home once
its bytes are performed there. A held request whose page no longer faults may start. -/
def Obligations.EngineCommands : Prop :=
  let joins (s : State) (c : Ctx) (i : Instr) (p : State) (x : Cmd) (locks : List Lock) (f : Fin) : Prop :=
    (paid s c i).migrated c.who = false → (p.core (p.bcore c)).locks.length + locks.length ≤ 32 →
    let q := ({ p with seq := p.seq + 1 } : State).updCore (p.bcore c) fun k => { k with
      cmds := k.cmds ++ [{ x with seq := p.seq }], locks := k.locks ++ locks.map fun l => { l with owner := some p.seq } }
    Gives s c i (q.takeRingSlot (p.bcore c) { x with seq := p.seq }) f
  let size (p : State) (c : Ctx) : Nat := (p.scratch (p.bcore c) (p.bslot c)).size
  let bcb (p : State) (c : Ctx) (id : BitVec 16) : Prop := 128 * id.toNat + 32 ≤ size p c
  let sound (p : State) (c : Ctx) (a n : Nat) : Prop := a + n ≤ size p c ∧ (p.scratch (p.bcore c) (p.bslot c)).badAt a n = none
  let record (p : State) (c : Ctx) (a : Nat) : BitVec 256 := BitVec.ofNat 256 (p.recordAt c a 32).2
  let blank (p : State) (c : Ctx) (k : CmdKind) (a : BitVec 8) : Cmd := Cmd.blank c.who c.pc (p.bslot c) k (p.quadBase c a) (p.quadReg c a 2)
  (∀ (o : CmdF) (s : State) (c : Ctx),
    ∀ e ∈ [((.cpy o : Instr), 0x80, CmdKind.cpy, !o.s2g), (.gth o, 0x81, .gth, true), (.sct o, 0x82, .sct, false)],
    let p := paid s c e.1
    let rec_ := p.quadReg c o.a 3
    let t := record p c rec_
    let rowb := fld 0 32 t
    let rows := fld 32 16 t
    let cpy := e.2.2.1 == .cpy
    let stride := if cpy then fld 128 32 t else rowb
    let idx := fld 160 32 t
    let soff := p.quadReg c o.a 2
    let x : Cmd := { blank p c e.2.2.1 o.a with
      toScratch := e.2.2.2, gstride := (t.extractLsb' 64 64).toInt, sstride := stride, rowb := rowb, rows := rows, swz := swzCode o.swz
      ga := o.ga, byp := o.pol == .byp, bcb := if o.ring then none else some (128 * o.id.toNat), tileRec := some rec_
      ring := if o.ring then some o.id.toNat else none
      idx := if cpy then [] else (List.range rows).map fun k => (p.recordAt c (idx + 4 * k) 4).2
      idxOff := idx }
    Issues s e.1 e.2.1 noGuard c → (o.ga = true → e.2.2.2 = false) → (o.ring = false → bcb p c o.id ∧ soff + ((rows - 1) * stride + rowb) ≤ size p c) →
    (o.ring = true → o.id.toNat ≤ 255 ∧ ∃ r, p.ring (p.bcore c) (p.bslot c) o.id.toNat = some r ∧ r.err = none ∧ rows * stride + soff ≤ r.size) →
    rec_ % 32 = 0 → sound p c rec_ 32 → fld 48 16 t = 0 → fld 192 64 t = 0 → 1 ≤ rowb → rowb ≤ 65536 → 1 ≤ rows → rows ≤ 4096 →
    rows * rowb ≤ 2 ^ 20 → (cpy = true → rowb ≤ stride) → (cpy = false → idx % 4 = 0 ∧ sound p c idx (4 * rows)) →
    (o.swz ≠ .none → rowb % 128 = 0 ∧ soff % 128 = 0 ∧ stride % 128 = 0) →
    let read := (p.recordAt c rec_ 32).1
    joins s c e.1 (if cpy then read else (read.recordAt c idx (4 * rows)).1) { x with reqs := x.rowReqs } (x.locks c.blk.dealt.asid) .go) ∧
  (∀ (a : BitVec 8) (id : BitVec 16) (pol : Policy) (ga : Bool) (s : State) (c : Ctx),
    ∀ e ∈ [((.rsend a id pol ga : Instr), 0x83, CmdKind.rsend, false, ga), (.rget a id pol, 0x84, .rget, true, false)],
    let p := paid s c e.1
    let n := p.quadReg c a 3
    let off := p.quadReg c a 2
    let x : Cmd := { blank p c e.2.2.1 a with
      toScratch := e.2.2.2.1, rowb := n, sstride := n, ga := e.2.2.2.2, byp := pol == .byp, bcb := some (128 * id.toNat) }
    Issues s e.1 e.2.1 noGuard c → 1 ≤ n → n ≤ 2 ^ 20 → bcb p c id → off + n ≤ size p c →
    joins s c e.1 p { x with reqs := x.rowReqs } [⟨none, p.bslot c, true, c.blk.dealt.asid, off, off + n, e.2.2.2.1⟩] .go) ∧
  (∀ (a : BitVec 8) (id : BitVec 16) (op : AtomOp) (b64 : Bool) (s : State) (c : Ctx), let i : Instr := .ratom a id op b64
    let p := paid s c i
    let off := p.quadReg c a 2
    let word (k : Nat) : DWord := BitVec.ofNat 64 (p.recordAt c (off + k) 8).2
    Issues s i 0x85 noGuard c → p.quadReg c a 3 = 0 → (isFadd op = true → b64 = false) → bcb p c id → off % 32 = 0 → off + 32 ≤ size p c →
    sound p c off 16 →
    joins s c i (p.recordAt c off 16).1 { blank p c .ratom a with
      rowb := 8, sstride := 8, bcb := some (128 * id.toNat), reqs := [⟨0, 0, 8, 0, 0, none, false, false, none⟩], atom := some (op, b64, word 0, word 8) }
      [⟨none, p.bslot c, true, c.blk.dealt.asid, off, off + 32, true⟩] .switch) ∧
  (∀ (a : BitVec 8) (id : BitVec 16) (s : State) (c : Ctx), let i : Instr := .ldimg a id
    let p := paid s c i
    let off := p.quadReg c a 2
    let t := record p c off
    Issues s i 0x86 noGuard c → p.quadReg c a 3 = 0 → bcb p c id → off % 32 = 0 → sound p c off 32 → fld 128 128 t = 0 → fld 0 64 t % 128 = 0 →
    joins s c i (p.recordAt c off 32).1 { blank p c .ldimg a with
      ga := true, bcb := some (128 * id.toNat), reqs := [⟨0, 0, 64, 0, 0, none, false, false, none⟩]
      image := some ⟨t.extractLsb' 0 64, fld 64 32 t, fld 96 32 t, 0, [], 0, []⟩ }
      [⟨none, p.bslot c, true, c.blk.dealt.asid, off, off + 32, false⟩] .go) ∧
  (∀ (s : State) (core : Nat) (x : Cmd) (r : Req) (rest : List Req) (a h : Nat) (q : Option Nat) (y : Bool),
    ((s.core core).cmds.all fun y => y.ring.isNone || y.slot.isSome || y.refused.isSome) = true →
    ((s.core core).cmds.map fun y => y.flight.length).sum < 48 → (s.core core).cmds.find? (fun x => x.ready && x.reqs.head?.any fun r => s.tick.reqWay core x r != .busy) = some x →
    x.reqs = r :: rest → s.tick.reqWay core x r = .go a h q y →
    ∃ t, Runs (.copyRequestStart core) s t ∧ t.mem.mem = s.mem.mem ∧ { x with
      reqs := rest, flight := x.flight ++ [{ r with phys := a, home := h, peer := q, byp := x.byp || y, held := none }] } ∈ (t.core core).cmds) ∧
  (∀ (s : State) (core : Nat) (x : Cmd) (r : Req) (c : Cause × DWord), (s.core core).cmds = [x] → x.reqs.head? = some r → r.held = some c →
    (∀ e, s.tick.heldWay core x r ≠ .hold e) → s.tick.heldWay core x r ≠ .busy →
    ∃ t, Runs (.requestRetranslate core) s t ∧ t.mem = s.mem ∧ (t.core core).cmds = [{ x with reqs := { r with held := none } :: x.reqs.drop 1 }]) ∧
  (∀ (s : State) (core i : Nat) (x : Cmd) (r : Req) (b : Block), s.flightAt core i = some (x, r) → s.block core x.blk = some b →
    x.kind ≠ .ratom → x.kind ≠ .ldimg → (x.toScratch = true → s.tick.engineWaits core r.byp r r.n = false) →
    let y := { x with flight := x.flight.erase r }
    let q := s.tick.updCmd core x.seq fun z => { z with flight := z.flight.erase r }
    let away : Prop := x.kind = .rsend ∧ r.peer = none ∧ x.ga = false ∧ r.home ≠ dieOf core
    (r.sent = false → ¬away → Runs (.copyRequestComplete core i) s ((q.moveReq core y b.dealt.region r).completeReq core y r.n)) ∧
    (r.sent = false → away → Runs (.copyRequestComplete core i) s (q.sendOut core y b.dealt.region r)) ∧
    (r.sent = true → x.kind = .rsend → (∀ m ∈ s.mem.msgs, m.kind = .ef → m.who = x.party → (span r.phys r.n).any (msgCovers m) = false) →
      Runs (.copyRequestComplete core i) s (q.completeReq core y r.n))) ∧
  (∀ (s : State) (core region : Nat) (x : Cmd) (r : Req) (b : Block), s.block core x.blk = some b → x.toScratch = true → x.swz = 0 →
    let a := s.cmdSlot core x + x.soff + r.row * x.sstride + r.lo
    ∃ b', (s.moveReq core x region r).block core x.blk = some b' ∧ ∀ k, Tbl.get 0 b'.scratch.bytes k =
      if a ≤ k ∧ k < a + r.n ∧ k < b.scratch.size then ((s.engineRead x.party r r.n).2[k - a]?).getD 0 else Tbl.get 0 b.scratch.bytes k)

/-! The pool (03 R54 to R60; 21 R324; 22 R357; 23 R382) -/

/-- FGROW, FTRIM, SGROW, STRIM and OCWB: a grow that the pool can grant takes its cuts at once, and one that was granted while it waited
completes; new registers and scratch bytes are as they stand beyond the old size; a trim gives its cuts back and drops what lay in them; the
oldest waiting grow is granted when it fits, and expires once its deadline has passed or TRAPNOW is set (the values in force then: entry 18);
what a block holds counts for the regions that it was dealt under. -/
def Obligations.PoolWords : Prop :=
  let whole (p : State) (c : Ctx) (x : Warp) : Prop := p.migrated c.who = false ∧ p.warp c.who = some x ∧ x.whole = true
  let fits (p : State) (c : Ctx) (n : Nat) : Prop := p.growOf c = none ∧ (∀ g ∈ (p.core c.who.core).pool.grows, g.state ≠ .waiting) ∧
    p.poolFits c.who.core c.blk.dealt.pool n = true
  (∀ (n : BitVec 32) (s : State) (c : Ctx) (x : Warp), let i : Instr := .fgrow n
    let p := paid s c i
    let q := p.expireGrows c.who.core
    let wider (q : State) : State := q.updWarp c.who fun w => { w with frame := x.frame + n.toNat }
    Issues s i 0x88 noGuard c → whole p c x → n ≠ 0 → n.toNat % 16 = 0 → x.frame + n.toNat ≤ 256 →
    (fits q c (n.toNat / 8) → Gives s c i (wider (q.poolTake c.who.core c.blk.dealt.pool (n.toNat / 8)))) ∧
    (∀ g, q.growOf c = some g → g.state = .granted → Gives s c i (wider (q.dropGrow c)))) ∧
  (∀ (n : BitVec 32) (s : State) (c : Ctx) (x : Warp), let i : Instr := .ftrim n
    let p := paid s c i
    let f := x.frame - n.toNat
    Issues s i 0x89 noGuard c → whole p c x → n ≠ 0 → n.toNat % 16 = 0 → n.toNat + 16 ≤ x.frame → p.logOf c.who = [] → x.flight.results = [] →
    Gives s c i ((p.updWarp c.who (·.trim f)).poolGive c.who.core c.blk.dealt.pool (n.toNat / 8)) ∧
    (x.trim f).frame = f ∧ ∀ r l, l < 32 → Tbl.get 0 (x.trim f).regs (32 * r + l) = if r < f then Tbl.get 0 x.regs (32 * r + l) else 0) ∧
  (∀ (swz : Bool) (d : BitVec 8) (k : BitVec 22) (s : State) (c : Ctx) (b : Block), let i : Instr := if swz then .sgrowSwz d k else .sgrow d k
    let p := paid s c i
    let off : DWord := BitVec.ofNat 64 b.scratch.size
    let q := (p.release c.who .blk).expireGrows c.who.core
    Issues s i 0x8A noGuard c → p.migrated c.who = false → Settled p c.who .blk → k ≠ 0 → p.block c.who.core (p.bslot c) = some b →
    (fits q c k.toNat → Gives s c i (((q.poolTake c.who.core c.blk.dealt.pool k.toNat).updBlock c.who.core (p.bslot c)
      fun y => { y with scratch := y.scratch.grow k.toNat swz }).put c c.active d.toNat fun _ => off)) ∧
    (∀ g, q.growOf c = some g → g.state = .granted →
      Gives s c i ((q.dropGrow c).put c c.active d.toNat fun _ => BitVec.ofNat 64 g.off))) ∧
  (∀ (k : BitVec 22) (s : State) (c : Ctx) (b : Block), let i : Instr := .strim k
    let p := paid s c i
    let z := b.scratch.size - 1024 * k.toNat
    Issues s i 0x8B noGuard c → p.migrated c.who = false → p.blockOf c.who = some b → k ≠ 0 → 1024 * k.toNat ≤ b.scratch.size →
    p.logOf c.who = [] → p.trimBusy c b z = false →
    Gives s c i (((p.cutStores (p.bcore c) (p.bslot c) z).updB c fun y => { y with scratch := y.scratch.trim (1024 * k.toNat) }).poolGive
      (p.bcore c) b.dealt.pool k.toNat) ∧
    (b.scratch.trim (1024 * k.toNat)).size = z ∧
    ∀ a, Tbl.get 0 (b.scratch.trim (1024 * k.toNat)).bytes a = if a < z then Tbl.get 0 b.scratch.bytes a else 0) ∧
  (∀ (g : Guard) (s : State) (c : Ctx), let i : Instr := .ocwb g
    Issues s i 0x8C g c → Gives s c i ((paid s c i).updWarp c.who Warp.writeBack)) ∧
  (∀ (x : Warp), { x.writeBack with oc := x.oc, bad := x.bad, ocBad := x.ocBad } = x ∧ ∀ e ∈ x.writeBack.oc, e.dirty = false) ∧
  (∀ (s : State) (core : Nat) (g : Grow), let q := s.tick.expireGrows core
    ((q.core core).pool.grows.find? fun g => decide (g.state = .waiting)) = some g →
    q.poolFits core (((q.blockOf g.who).map (·.dealt.pool)).getD []) g.cuts = true →
    (s.effTrapnow g.region = false ∧ (s.effStalldl g.region = 0 ∨ s.tref.toNat < g.since + s.effStalldl g.region)) ∧
    ∃ t, Runs (.growGrant core) s t ∧ (∀ x ∈ (t.core core).pool.grows, x.who = g.who → x.state = .granted) ∧
      ((t.core core).pool.grows.map (·.who)) = ((s.core core).pool.grows.map (·.who)) ∧
      (t.core core).pool.used = (s.core core).pool.used + g.cuts ∧
      ∀ swz b, g.scr = some swz → q.block core (q.home g.who).2 = some b →
        (t.block core (q.home g.who).2).map (·.scratch.size) = some (b.scratch.size + 1024 * g.cuts)) ∧
  (∀ (s : State) (core : Nat), ∃ t, Runs (.growDeadline core) s t ∧ (t.core core).pool.grows = (s.core core).pool.grows.map fun g =>
    if g.state = .waiting ∧ (s.effTrapnow g.region = true ∨ (s.effStalldl g.region ≠ 0 ∧ g.since + s.effStalldl g.region ≤ s.tref.toNat))
    then { g with state := .expired } else g)

/-! The matrix stream (07 R121 to R138; 22 R348 to R350, R354, R355) -/

/-- A ROW PASS (07 R128, R129): each accumulator element of the tile's columns becomes its sum with the tree of the column's 16 partials;
MMULB stores the partials as they are; no other word of the accumulator memory changes. -/
def Obligations.RowPassAccumulates : Prop :=
  (∀ (m : Matrix) (t : Tile) (p : PairInfo) (fa : Fmt) (base : Nat) (row : List Nat),
    let y := (m.pass t p fa false base row).1
    let w := p.acc.words
    (∀ k, k < p.cols → (y.accGet p.acc (base + k * w)).bits =
      (accAdd p.acc (m.accGet p.acc (base + k * w)) (accTree p.acc (t.partials p fa row k))).bits % 2 ^ (32 * w)) ∧
    (∀ a, a < base ∨ base + p.cols * w ≤ a → y.accWord a = m.accWord a) ∧ { y with acc := m.acc, accBad := m.accBad } = m) ∧
  (∀ (m : Matrix) (t : Tile) (p : PairInfo) (fa : Fmt) (base : Nat) (row : List Nat),
    let y := (m.pass t p fa true base row).1
    (∀ k q e, k < p.cols → q < 16 → (t.partials p fa row k)[q]? = some e → y.accWord (base + 16 * k + q) = e.bits % 2 ^ 32) ∧
    (∀ a, a < base ∨ base + 16 * p.cols ≤ a → y.accWord a = m.accWord a) ∧ { y with acc := m.acc, accBad := m.accBad } = m) ∧
  (∀ (x y : AccVal), (accAdd .i32 x y).bits = (let v := (BitVec.ofNat 32 x.bits).toInt + (BitVec.ofNat 32 y.bits).toInt
    (BitVec.ofInt 32 (max (-(2 ^ 31)) (min v (2 ^ 31 - 1)))).toNat) ∧ (accAdd .i32 x y).bad = (x.bad || y.bad))

/-- THE WORDS OF THE STREAM. MSET, MLOOP, MZERO, MEND, MSIG and MWAIT complete; MLDB, MSCALE and MDRAIN hold range locks first and then
move their bytes; the last row of an MMUL or MMULB whose steps are paid ends the word. -/
def Obligations.MatrixWords : Prop :=
  let on (s : State) (c : Ctx) (i : Instr) (op : Nat) (m : Matrix) : Prop :=
    Issues s i op noGuard c ∧ (paid s c i).mat c = some m ∧ m.stop = false
  let locks (p : State) (c : Ctx) : List Lock := p.matrixLocks (p.bcore c) (p.bslot c)
  let freed (p : State) (c : Ctx) : State := p.updCore (p.bcore c) fun k =>
    { k with locks := k.locks.filter fun y => !(y.owner.isNone && y.blk == p.bslot c) }
  let holds (s : State) (c : Ctx) (i : Instr) (l : List (Nat × Nat)) (dest : Bool) : Prop :=
    let p := paid s c i
    locks p c = [] → (p.core (p.bcore c)).locks.length + l.length ≤ 32 → Runs i s (p.updCore (p.bcore c) fun k =>
      { k with locks := k.locks ++ l.map fun r => ⟨none, p.bslot c, true, c.blk.dealt.asid, r.1, r.2, dest⟩ })
  let put (p : State) (c : Ctx) (f : Matrix → Matrix) : State := p.updMat c f
  (∀ ma imm s c m, let i : Instr := .mset ma imm
    on s c i 0xA9 m → Gives s c i (put (paid s c i) c fun m => { m with m := Tbl.set 0 m.m ma.toNat imm })) ∧
  (∀ ma off s c m, let i : Instr := .mloop ma off
    let v : Word := Tbl.get 0 m.m ma.toNat - 1
    on s c i 0xA8 m → ∃ t y, Runs i s t ∧ t.mat c = some y ∧ y.m = Tbl.set 0 m.m ma.toNat v ∧
      y.pc = (if v = 0 then c.next else c.pc + off.signExtend 64 * 8) ∧ { y with m := m.m, pc := m.pc, clause := m.clause } = m ∧
      beside c.who t = beside c.who (paid s c i)) ∧
  (∀ ma mb s c m, let i : Instr := .mzero ma mb
    let a := m.reg ma.toNat
    let n := m.reg mb.toNat
    on s c i 0xA4 m → (n = 0 → Gives s c i (paid s c i)) ∧
      (n ≠ 0 → a + n ≤ 0x20000 → ∃ t y, Runs i s t ∧ t.mat c = some y ∧ (∀ k, y.accWord k = if a ≤ k ∧ k < a + n then 0 else m.accWord k) ∧
        (∀ k, Tbl.get false y.accBad k = (Tbl.get false m.accBad k && !decide (a ≤ k ∧ k < a + n))) ∧
        beside c.who t = beside c.who (paid s c i))) ∧
  (∀ s c m, on s c .mend 0xAA m → Runs .mend s ((paid s c .mend).endMatrix (s.bcore c) (s.bslot c))) ∧
  (∀ id ma s c m, let i : Instr := .msig .bcb id ma
    let p := paid s c i
    let b := p.bcb (p.bcore c) (p.bslot c) (m.reg ma.toNat)
    on s c i 0xA6 m → p.objTrap c (m.reg ma.toNat) 32 32 = none → Settled p c.who .blk →
    (b.err = true → Gives s c i (p.release c.who .blk (.bcb (m.reg ma.toNat)))) ∧
    (b.err = false → b.remn ≠ 0 →
      Gives s c i ((p.release c.who .blk (.bcb (m.reg ma.toNat))).setBcb (p.bcore c) (p.bslot c) (m.reg ma.toNat) (b.op (m.reg ma.toNat) .arrive).1))) ∧
  (∀ id ma s c m r, let i : Instr := .msig .ring id ma
    let p := paid s c i
    on s c i 0xA6 m → (m.reg ma.toNat = 0 → Gives s c i p) ∧
      (m.reg ma.toNat ≠ 0 → p.ring (p.bcore c) (p.bslot c) id.toNat = some r → m.reg ma.toNat ≤ r.matrixSlots.length →
        Gives s c i ((r.matrixSlots.take (m.reg ma.toNat)).foldl (fun q k => q.matGive c id.toNat k) p))) ∧
  (∀ (id : BitVec 8) ma s c m x, let i : Instr := .msig .bar id ma
    let p := paid s c i
    let e := m.reg ma.toNat
    on s c i 0xA6 m → Settled p c.who .blk → id.toNat ≤ 15 → 1 ≤ e → e ≤ 1026 → p.block (p.bcore c) (p.bslot c) = some x →
    ((x.bar id.toNat).arrive 1 e).2 = false →
    Gives s c i ((p.release c.who .blk (.bar id.toNat)).updBlock (p.bcore c) (p.bslot c) fun x => x.setBar id.toNat ((x.bar id.toNat).arrive 1 e).1)) ∧
  (∀ id ma s c m, let i : Instr := .mwait .bcb id ma
    let p := paid s c i
    let b := p.bcb (p.bcore c) (p.bslot c) (m.reg ma.toNat)
    on s c i 0xA7 m → ma.toNat % 2 = 0 → p.objTrap c (m.reg ma.toNat) 32 32 = none → b.err = false →
    b.ph.toNat ≠ m.reg (ma.toNat + 1) % 2 → Gives s c i (p.acquire c.who .blk (.bcb (m.reg ma.toNat)))) ∧
  (∀ (id : BitVec 8) ma s c m r, let i : Instr := .mwait .ring id ma
    let p := paid s c i
    on s c i 0xA7 m → (m.reg ma.toNat = 0 ∨ (p.ring (p.bcore c) (p.bslot c) id.toNat = some r ∧ r.err = none ∧
      m.reg ma.toNat ≤ r.slots.length ∧ m.reg ma.toNat ≤ (r.ahead (m.rowPos id.toNat)).length) → Gives s c i p)) ∧
  (∀ (id : BitVec 8) ma s c m x, let i : Instr := .mwait .bar id ma
    let p := paid s c i
    let e := m.reg ma.toNat
    on s c i 0xA7 m → m.arr = none → Settled p c.who .blk → id.toNat ≤ 15 → 1 ≤ e → e ≤ 1026 → p.block (p.bcore c) (p.bslot c) = some x →
    ((x.bar id.toNat).arrive 1 e).2 = false → (x.bar id.toNat).count + 1 = e → (x.bar id.toNat).failed.contains (x.bar id.toNat).phase = false →
    Shares s c i [] (p.updBlock (p.bcore c) (p.bslot c) fun x => x.setBar id.toNat ((x.bar id.toNat).arrive 1 e).1) fun _ => True) ∧
  (∀ fb id ma mb s c m cols, let i : Instr := .mldb fb id ma mb false
    let p := paid s c i
    let off := m.reg ma.toNat
    let stride := m.reg mb.toNat
    let n := (cols / 16 - 1) * stride + 16 * colBytes fb
    on s c i 0xA0 m → tileCols fb = some cols → off % 128 = 0 → stride % 128 = 0 → 16 * colBytes fb ≤ stride →
    off + n ≤ (p.scratch (p.bcore c) (p.bslot c)).size →
    holds s c i [(off, off + n)] false ∧
    (∀ l rest q t, locks p c = l :: rest → (freed p c).readTile c fb cols l.lo stride = .ok (q, t) →
      Gives s c i (put q c fun m => { m with tile := some t, last := some (fb, l.lo, stride) }))) ∧
  (∀ fb (id : BitVec 8) ma mb s c m cols, let i : Instr := .mldb fb id ma mb true
    let p := paid s c i
    let n := (cols / 16 - 1) * m.reg mb.toNat + 16 * colBytes fb
    on s c i 0xA0 m → tileCols fb = some cols → m.reg ma.toNat % 128 = 0 → m.reg mb.toNat % 128 = 0 → 16 * colBytes fb ≤ m.reg mb.toNat →
    (∀ l rest q t, locks p c = l :: rest → (freed p c).readTile c fb cols l.lo (m.reg mb.toNat) = .ok (q, t) →
      Gives s c i (put q c fun m => { m with tile := some t, last := some (fb, l.lo, m.reg mb.toNat) })) ∧
    (∀ r q k, let base := r.off + k * r.size + m.reg ma.toNat
      locks p c = [] → (p.core (p.bcore c)).locks.length < 32 → p.ring (p.bcore c) (p.bslot c) id.toNat = some r → r.err = none →
      r.acquire .matrix 0 false = (q, some k) → m.reg ma.toNat + n ≤ r.size → base + n ≤ (p.scratch (p.bcore c) (p.bslot c)).size →
      ∃ t y, Runs i s t ∧ t.mat c = some y ∧ (y.rowPos id.toNat).tiles = k :: (m.rowPos id.toNat).tiles ∧
        (t.ring (p.bcore c) (p.bslot c) id.toNat).map (·.slots) = some q.slots ∧
        locks t c = [⟨none, p.bslot c, true, c.blk.dealt.asid, base, base + n, false⟩])) ∧
  (∀ parts (o : MulF) s c m w r slot q bs, let i : Instr := if parts then .mmulb o else .mmul o
    let p := paid s c i
    let pos := m.rowPos o.id.toNat
    on s c i (if parts then 0xA2 else 0xA1) m → NoStat p → pairOf o.fa o.fb = some w → (parts = true → w.acc = .f32) →
    p.ring (p.bcore c) (p.bslot c) o.id.toNat = some r →
    (m.started = true ∨ (1000 ≤ p.cap c.who.core ∧ p.mulTrap c m o w parts r = none)) → w.steps ≤ m.steps →
    pos.slot = some slot → pos.row + 1 < o.rps.toNat → m.due = none → o.n.toNat ≤ m.row + 1 → m.tile.isSome = true →
    p.scrFits c (r.off + slot * r.size + (pos.row + 1) * (128 * fmtBits o.fa)) = true →
    p.matRead c (r.off + slot * r.size + pos.row * (128 * fmtBits o.fa)) (128 * fmtBits o.fa) = .ok (q, bs) →
    ∃ t tile y, m.tile = some tile ∧ Runs i s t ∧ t.mat c = some y ∧ y.row = 0 ∧ y.steps = 0 ∧ y.started = false ∧
      y.rowPos o.id.toNat = { pos with row := pos.row + 1 } ∧
      y.acc = (m.pass tile w o.fa parts (m.reg o.ma.toNat + m.row * m.reg o.mb.toNat) (rowElems o.fa bs)).1.acc ∧ t.mem = p.mem) ∧
  (∀ (id : BitVec 8) ma mb s c m q as q2 bs, let i : Instr := .mscale id ma mb
    let p := paid s c i
    let g (k : Nat) : Nat := m.reg (ma.toNat + k)
    let cols := 32 * id.toNat
    let word (l : List Byte) (k : Nat) : Nat := natOf ((l.drop (4 * k)).take 4)
    let a := m.reg mb.toNat
    let b := m.reg (mb.toNat + 1)
    let n := m.reg (mb.toNat + 2)
    on s c i 0xA3 m → NoStat p → 1 ≤ id.toNat → id.toNat ≤ 40 → a % 4 = 0 → b % 4 = 0 → (n = 0 → Gives s c i p) ∧
    (n ≠ 0 → p.scrFits c (a + 64 * n) = true → p.scrFits c (b + 64 * cols) = true → accFits .f32 (g 0) (g 1) n (16 * cols) 1 = true →
      accFits .f32 (g 2) (g 3) n cols 1 = true → holds s c i [(a, a + 64 * n), (b, b + 64 * cols)] false ∧
      (locks p c ≠ [] → (freed p c).matRead c a (64 * n) = .ok (q, as) → q.matRead c b (64 * cols) = .ok (q2, bs) →
        ∃ t y, Runs i s t ∧ t.mat c = some y ∧ t.mem = p.mem ∧
          y.acc = (m.scaleAll g n cols (fun j kb => word as (16 * j + kb)) fun kb k => word bs (cols * kb + k)).1.acc))) ∧
  (∀ fa (id : BitVec 8) ma mb rm ov s c m acc, let i : Instr := .mdrain fa id ma mb rm ov
    let p := paid s c i
    let g (k : Nat) : Nat := m.reg (ma.toNat + k)
    let n := m.reg mb.toNat
    let cols := 32 * id.toNat
    let z := fmtBits fa / 8
    let elem (k : Nat) : Elem := fmtConvert fa rm ov (srDraw c.blk.msrseed k) (accNum acc (m.accGet acc (g 0 + k / cols * g 1 + k % cols * acc.words)).bits)
    on s c i 0xA5 m → NoStat p → drainFrom fa = some acc → 1 ≤ id.toNat → id.toNat ≤ 40 → g 2 % z = 0 → g 3 % z = 0 → (n = 0 → Gives s c i p) ∧
    (n ≠ 0 → accFits acc (g 0) (g 1) n cols acc.words = true → p.scrFits c (g 2 + (n - 1) * g 3 + cols * z) = true →
      (∀ k, k < n * cols → m.accBadAt acc (g 0 + k / cols * g 1 + k % cols * acc.words) = none ∧ (elem k).trap = false) →
      holds s c i [(g 2, g 2 + (n - 1) * g 3 + cols * z)] true ∧
      (locks p c ≠ [] → ∃ t, Runs i s t ∧ t.mem = p.mem ∧ (t.mat c).map (·.acc) = some m.acc ∧
        (t.block (p.bcore c) (p.bslot c)).map (·.scratch.bytes) = (((List.range (n * cols)).foldl (fun q k => q.scrStore (p.bcore c) (p.bslot c)
          c.who .ewr (g 2 + k / cols * g 3 + k % cols * z) (bytesOf z (elem k).bits)) p).block (p.bcore c) (p.bslot c)).map (·.scratch.bytes) ∧
        (t.block (p.bcore c) (p.bslot c)).map (·.msrseed) =
          some (if rm = .sr then srAfter (n * cols) c.blk.msrseed else c.blk.msrseed)))) ∧
  (∀ (s : State) (core : Nat) (x : Wide) (b : Nat), x.who.party = .matrix b →
    ((s.core core).tokens.wide.find? fun x => match x.who.party with | .matrix _ => true | _ => false) = some x →
    1000 ≤ s.cap core → Runs (.matrixStepStart core) s (s.tick.payOne core x))

/-- MSTART, MSTOP and ENQ (20 R311; 22 R354, R355; 07 R136): the stream starts at EMATRIX, ordered after MSTART's release, unless it runs;
MSTOP ends it between words, a parked one at once, and acquires its writes; ENQ places the card that it read, one level deeper. A card enters a valid queue behind the others, at a free slot. -/
def Obligations.FrontWords : Prop :=
  let at_ (p : State) (c : Ctx) : Option Matrix := p.matrixOf (p.bcore c) (p.bslot c)
  (∀ s c m, let i : Instr := .mstart
    let p := paid s c i
    Issues s i 0x91 noGuard c → Settled p c.who .blk → at_ p c = some m →
    Gives s c i (if m.running then p.release c.who .blk .stream else ((p.release c.who .blk .stream).updMatrix (p.bcore c) (p.bslot c)
      fun m => { m with running := true, pc := c.blk.dealt.card.extractLsb' 128 64, clause := none, row := 0, steps := 0, started := false
                        due := none, stop := false }).acquire ⟨p.bcore c, .matrix (p.bslot c)⟩ .blk .stream)) ∧
  (∀ s c, let i : Instr := .mstop
    let p := paid s c i
    Issues s i 0x92 noGuard c → p.owed c.who = [] →
    (at_ p c = none → Gives s c i p) ∧ (∀ m, at_ p c = some m → m.running = false → m.stop = false → Gives s c i p) ∧
    (∀ m, at_ p c = some m → m.running = true → m.park = none → m.steps = 0 → p.matrixLocks (p.bcore c) (p.bslot c) = [] →
      Gives s c i ((p.stopMatrix (p.bcore c) (p.bslot c)).acquire c.who .blk .stream) ∧
      (at_ (p.stopMatrix (p.bcore c) (p.bslot c)) c).map (·.running) = some false) ∧
    (∀ m, at_ p c = some m → m.running = true → m.park ≠ none → Gives s c i (p.endMatrix (p.bcore c) (p.bslot c)) ∧
      (at_ (p.endMatrix (p.bcore c) (p.bslot c)) c).map (·.running) = some false) ∧
    (∀ m, at_ p c = some m → m.running = false → m.stop = true →
      Gives s c i ((p.updMatrix (p.bcore c) (p.bslot c) fun m => { m with stop := false }).acquire c.who .blk .stream))) ∧
  (∀ (a : BitVec 8) (id : BitVec 16) s c r card E, let i : Instr := .enq a id
    let p := (paid s c i).useQueue id.toNat
    let va := p.get c a.toNat 0
    let depth := fld 376 4 c.blk.dealt.card + 1
    Issues s i 0x93 noGuard c → (p.queue id.toNat).open = true → p.isAncestor c.blk.dealt.region (p.queue id.toNat).region = true →
    va.toNat % 128 = 0 → Settled p c.who .pkg → (p.release c.who .pkg).readCard c va = .ok (some (r, card)) → depth ≤ 8 →
    r.enqueue id.toNat (setFld 376 4 depth card) (some va) = some E → Gives s c i E) ∧
  (∀ (s t : State) (q : Nat) (card : BitVec 1024) (o : Option DWord), (s.queue q).valid = true → s.enqueue q card o = some t →
    ∃ k e, k < (s.queue q).slots ∧ (s.queue q).taken k = false ∧ (t.queue q).cards = (s.queue q).cards ++ [e] ∧ e.slot = k ∧ e.card = card ∧
      e.cardId = o.getD (BitVec.ofNat 64 ((s.queue q).base + 128 * k)) ∧ ∀ c ∈ (s.queue q).cards, c.slot ≠ k)

/-! Special registers, the words of handler level, and the events of the device -/

/-- SREAD, SWRITE and TIME (10 R201; 23 R384 to R386, R390). A permitted read gives each executing lane the register; a refused access traps
PRIVDENY with AUX the register's id. A write of a read-only register is ignored; SRSEED 0 is stored as 1; a privileged write is a release
at `.sys` and then takes effect with the value of the lowest executing lane. System software's writes have the same effects; a host's, through
the register window, changes what its function reaches alone (13 R243; the fault-queue registers from region 0, the model's reading, entry 15). That a write of REGTAB,
ASTAB, QTAB or INGTAB keeps the bits below the alignment is the model's choice (entry 22). -/
def Obligations.SpecialRegisterWords : Prop :=
  let own (p : State) (c : Ctx) (r : SReg) : Prop := r.scope = .block → p.migrated c.who = false
  let src (p : State) (c : Ctx) (r : SReg) (a : BitVec 8) : DWord :=
    if r.w64 then p.get64 c a.toNat (lowest c.exec) else p.get c a.toNat (lowest c.exec) &&& 0xFFFFFFFF#64
  let denied (p : State) (c : Ctx) (id : BitVec 16) : State := p.takeTrap c.who c.pc c.next (TrapArgs.of .privDeny 0 id.toNat c.exec)
  (∀ d g id idx s c r, let i : Instr := .sread d g id idx
    let p := paid s c i
    let v (l : Nat) : DWord := p.readReg c id.toNat idx.toNat l
    sreg id.toNat = some r →
    (Issues s i 0xB0 g c → p.mayUse c r.rd = true → own p c r →
      Gives s c i (if r.w64 then p.put64 c c.exec d.toNat v else p.put c c.exec d.toNat v)) ∧
    (Ready s i 0xB0 g c → p.mayUse c r.rd = false → Runs i s (denied p c id))) ∧
  (∀ (s : State) (c : Ctx) (w : Warp) (l : Nat), s.warp c.who = some w → l < w.srseed.length →
    let reads (id : Nat) (v : Nat) : Prop := s.readReg c id 0 l = BitVec.ofNat 64 v
    reads 2 l ∧ reads 3 w.wid ∧ reads 4 c.blk.dealt.lo ∧ reads 5 c.blk.dealt.hi ∧ reads 6 c.blk.dealt.num ∧ reads 7 w.role ∧
    w.srseed[l]? = some ((s.readReg c 8 0 l).setWidth 32) ∧ reads 9 c.blk.msrseed.toNat ∧ reads 10 w.mctab.toNat ∧
    reads 0x30 s.regs.regtab.toNat ∧ reads 0x33 s.regs.qtab.toNat ∧ reads 0x40 s.regs.fqbase.toNat ∧ reads 0x43 s.regs.fqtail.toNat) ∧
  (∀ a g id idx s c r, let i : Instr := .swrite a g id idx
    let p := paid s c i
    sreg id.toNat = some r →
    (Issues s i 0xB1 g c → r.wr = .never → own p c r → Gives s c i p) ∧
    (Ready s i 0xB1 g c → r.wr ≠ .never → p.mayUse c r.wr = false → Runs i s (denied p c id)) ∧
    (Issues s i 0xB1 g c → r.wr = .handler ∨ r.wr = .region0 → p.mayUse c r.wr = true → Settled p c.who .sys →
      (id = 0x38 → fld 0 16 (src p c r a) ≠ c.blk.dealt.fdom) →
      Gives s c i ((p.release c.who .sys).writeReg c.who.core c.blk.dealt.region id.toNat idx.toNat (src p c r a)))) ∧
  (∀ a g idx s c (x : Warp), let i : Instr := .swrite a g 8 idx
    let p := paid s c i
    Issues s i 0xB1 g c → fld 0 2 (p.region c.blk.dealt.region).trCtl = 0 → p.warp c.who = some x →
    ∃ E y, Gives s c i E ∧ E.warp c.who = some y ∧ beside c.who E = beside c.who p ∧ { y with srseed := x.srseed } = x ∧
      y.srseed.length = x.srseed.length ∧ ∀ l z, x.srseed[l]? = some z → y.srseed[l]? = some (if c.exec.getLsbD l = true then
        (if (p.get c a.toNat l).setWidth 32 = 0#32 then 1#32 else (p.get c a.toNat l).setWidth 32) else z)) ∧
  (∀ a g idx s c, let i : Instr := .swrite a g 9 idx
    let p := paid s c i
    let v : Word := (p.get c a.toNat (lowest c.exec)).setWidth 32
    Issues s i 0xB1 g c → p.migrated c.who = false → Gives s c i (p.updB c fun b => { b with msrseed := if v = 0 then 1 else v })) ∧
  (∀ a g idx s c, let i : Instr := .swrite a g 10 idx
    let p := paid s c i
    Issues s i 0xB1 g c → Gives s c i (p.updWarp c.who fun w => { w with mctab := (p.get c a.toNat (lowest c.exec)).setWidth 32 })) ∧
  (∀ d g s c, let i : Instr := .timeRef d g
    Issues s i 0xB2 g c → Gives s c i ((paid s c i).put64 c c.exec d.toNat fun _ => s.tref)) ∧
  (∀ d g s c, let i : Instr := .timeCyc d g
    Issues s i 0xB2 g c → Gives s c i ((paid s c i).put64 c c.exec d.toNat fun _ =>
      BitVec.ofNat 64 ((paid s c i).cluster (clusterOf c.who.core)).latest)) ∧
  (∀ (id idx : BitVec 16) core v s r, sreg id.toNat = some r → core < 224 → (if r.count = 0 then idx = 0 else idx.toNat < r.count) →
    Runs (.registerWrite id idx core ⟨v, .soft⟩) s (s.tick.writePlain core id.toNat idx.toNat v) ∧
    ∀ f st, s.gate true f st = .pass → Runs (.registerWrite id idx core ⟨v, .host f st⟩) s (s.tick.writeWindow id.toNat idx.toNat v f)) ∧
  (∀ (s : State) (id idx f : Nat) (v : DWord), id ≠ 0x39 → s.funcRegion f ≠ 0 ∨ (id ≠ 0x40 ∧ id ≠ 0x41 ∧ id ≠ 0x44) → s.writeWindow id idx v f = s) ∧
  (∀ (s : State) (idx f k : Nat) (v : DWord), k < 32 → (Tbl.get 0 (s.writeWindow 0x39 idx v f).regs.rstdone idx).getLsbD k =
    ((Tbl.get 0 s.regs.rstdone idx).getLsbD k && !(v.getLsbD k && s.reachesDomain f (32 * idx + k)))) ∧
  (∀ (s : State) (core : Nat) (v : DWord),
    (s.writePlain core 0x30 0 v).regs = { s.regs with regtab := v } ∧ (s.writePlain core 0x32 0 v).regs = { s.regs with astab := v } ∧
    (s.writePlain core 0x33 0 v).regs = { s.regs with qtab := v } ∧ (s.writePlain core 0x61 0 v).regs = { s.regs with ingtab := v } ∧
    (s.writePlain core 0x40 0 v).regs = { s.regs with fqbase := v &&& ~~~63#64 } ∧ (s.writePlain core 0x44 0 v).regs.fqdrop = 0 ∧
    (∀ d, d < 2 → let y := (s.writePlain core 0x54 0 v).die d
      if d = dieOf core ∨ (d = 1 ∧ dieOf core ≠ 0) then y = { s.die d with headThr := v.setWidth 32 &&& 0xFF#32 } else y = s.die d)) ∧
  (∀ w vals s x, s.warp w = some x → (∀ e ∈ vals, e.1 < x.srseed.length ∧ e.1 < 32) → fld 0 2 (s.region (s.regionOf w)).trCtl = 0 →
    ∃ t y, Runs (.srseedWrite w vals) s t ∧ t.warp w = some y ∧ beside w t = beside w s.tick ∧ { y with srseed := x.srseed } = x ∧
      (∀ l, (∀ e ∈ vals, e.1 ≠ l) → y.srseed[l]? = x.srseed[l]?) ∧
      ∀ e ∈ vals, (∀ d ∈ vals, d.1 = e.1 → d = e) → y.srseed[e.1]? = some (if e.2 = 0 then 1 else e.2)) ∧
  (∀ region cls s, cls < 6 → ∃ t, Runs (.statcClear region cls) s t ∧
    Tbl.get Stat.init (t.region region).stats cls = ⟨0, some s.tref.toNat, false⟩ ∧
    (∀ k, k ≠ cls → Tbl.get Stat.init (t.region region).stats k = Tbl.get Stat.init (s.region region).stats k) ∧
    ∀ r, r ≠ region → t.region r = s.region r) ∧
  (∀ v s, let log := fld 0 5 s.regs.fqsize
    let n := if 4 ≤ log ∧ log ≤ 16 then 2 ^ log else 2 ^ 4
    let h : BitVec 17 := v.extractLsb' 0 17
    Runs (.fqheadWrite ⟨v, .soft⟩) s (if n < (s.regs.fqtail - h).toNat then s.tick else { s.tick with regs := { s.regs with fqhead := h } })) ∧
  (∀ v s, ∃ t, Runs (.savebaseWrite v) s t ∧ t.regs = { s.regs with savebase := v } ∧
    (s.arenaUsable = true → ∀ x ∈ t.saved, x.slot.isSome = true → x.base ≠ s.regs.savebase.toNat)) ∧
  (∀ v s, ∃ t, Runs (.savenWrite v) s t ∧ t.regs = { s.regs with saven := v } ∧
    (s.arenaUsable = true → ∀ x ∈ t.saved, x.slot.isSome = true → x.base ≠ s.regs.savebase.toNat)) ∧
  (∀ v s, ∃ t, Runs (.classmapWrite v) s t ∧ t.regs = { s.regs with classmap := v &&& 0x00FFFFFFFFFFFFFF } ∧
    ∀ k, k < 28 → let n := fld (2 * k) 2 v
      let x := s.cluster k
      (n = 3 → (t.cluster k).cls = x.cls ∧ (t.cluster k).target = none) ∧
      (n ≠ 3 → ((t.cluster k).cls = n ∧ (t.cluster k).target = none) ∨ ((t.cluster k).cls = x.cls ∧ (t.cluster k).target = some n))) ∧
  (∀ die v s, die < 2 → ∃ t, Runs (.tokcapWrite die v) s t ∧ t.die die = { s.die die with tokCap := v &&& 0x1FFF#32 } ∧
    ∀ core r, (t.core core).tokens.balance r =
      if dieOf core = die ∧ s.cores.any (·.1 == core) = true then min ((s.core core).tokens.balance r) (t.die die).cap else (s.core core).tokens.balance r) ∧
  (∀ die cluster s, die < 2 → cluster < 14 → Runs (.droopcntClear die cluster) s (s.tick.setCluster (14 * die + cluster)
    { s.cluster (14 * die + cluster) with droopCnt := 0 }))

/-- TLBINV, PROBE, WSAVE and WLOAD at handler level (08 R146; 22 R366, R367; 23 R391, R395, R396). TLBINV leaves no translation that it names
in a TLB of its scope, and held requests of the engines there translate again; where none is held, nothing else changes. While an access of
its scope is under way with such a translation it removes none. Outside region 0 it takes the block's own address space alone. PROBE reports the walk. WSAVE stores a parked warp's
record, or its frame with every dirty entry written back; WLOAD reads one back, and refuses one with a frame size other than its target's, a
reserved field that is not zero, a call depth above 64, also in a split entry or the return state, or more than 20 split entries; a wrong
target traps. The bytes of a record beyond what the spec
fixes are the model's choice (entry 40). -/
def Obligations.HandlerWords : Prop :=
  let gone (p t : State) (c : Ctx) (sc : Scope) (hit : TlbEnt → Prop) : Prop :=
    ((∀ core, ∀ x ∈ (p.core core).cmds, ∀ r ∈ x.reqs, r.held = none) → Calm p t c []) ∧ ∀ e ∈ t.mem.tlb, hit e →
    (sc = .core → e.cluster = clusterOf c.who.core → c.who.core ∈ e.dropped) ∧ (sc = .die → e.cluster / 14 ≠ dieOf c.who.core) ∧
    (sc = .core ∨ sc = .die)
  let under (p : State) (c : Ctx) (sc : Scope) (hit : TlbEnt → Bool) (space : Nat → Bool) : Bool := (p.reached c.who.core sc).any (p.usesRemoved hit space)
  let stands (i : Instr) (s p : State) : Prop := ∃ t, Runs i s t ∧ t.mem.tlb = p.mem.tlb
  let may (c : Ctx) (asid : BitVec 16) : Prop := c.blk.dealt.region = 0 ∨ asid.toNat = c.blk.dealt.asid
  let deny (p : State) (c : Ctx) : State := p.takeTrap c.who c.pc c.next (TrapArgs.of .privDeny 0 0 c.exec)
  (∀ a g sc asid s c, let i : Instr := .tlbinv a g sc asid
    let p := paid s c i
    let names (e : TlbEnt) : Prop := e.asid = asid.toNat ∧ ∃ l, c.exec.getLsbD l = true ∧
      e.base ≤ (p.get64 c a.toNat l).toNat % 2 ^ 57 ∧ (p.get64 c a.toNat l).toNat % 2 ^ 57 < e.base + e.size
    let busy := under p c sc (fun e => ((onesOf c.exec).any fun l => decide (e.base ≤ (p.get64 c a.toNat l).toNat % 2 ^ 57) &&
      decide ((p.get64 c a.toNat l).toNat % 2 ^ 57 < e.base + e.size)) && e.asid == asid.toNat) (· == asid.toNat)
    (Issues s i 0xB4 g c → may c asid → busy = false → Settled p c.who .sys → ∃ t, Runs i s t ∧ gone p t c sc names) ∧
    (Issues s i 0xB4 g c → may c asid → busy = true → stands i s p) ∧
    (Ready s i 0xB4 g c → ¬may c asid → Runs i s (deny p c))) ∧
  (∀ g sc asid s c, let i : Instr := .tlbinvAsid g sc asid
    let p := paid s c i
    let busy := under p c sc (fun e => e.asid == asid.toNat) (· == asid.toNat)
    (Issues s i 0xB4 g c → may c asid → busy = false → Settled p c.who .sys → ∃ t, Runs i s t ∧ gone p t c sc fun e => e.asid = asid.toNat) ∧
    (Issues s i 0xB4 g c → may c asid → busy = true → stands i s p) ∧
    (Ready s i 0xB4 g c → ¬may c asid → Runs i s (deny p c))) ∧
  (∀ g sc s c, let i : Instr := .tlbinvAll g sc
    let p := paid s c i
    let busy := under p c sc (fun _ => true) fun _ => true
    (Issues s i 0xB4 g c → c.blk.dealt.region = 0 → busy = false → Settled p c.who .sys → ∃ t, Runs i s t ∧ gone p t c sc fun _ => True) ∧
    (Issues s i 0xB4 g c → c.blk.dealt.region = 0 → busy = true → stands i s p) ∧
    (Ready s i 0xB4 g c → c.blk.dealt.region ≠ 0 → Runs i s (deny p c))) ∧
  (∀ d a g asid s c, let i : Instr := match asid with | some n => .probeAs d a g n | none => .probe d a g
    let p := paid s c i
    let walk (l : Nat) : Walk := p.walk ((asid.map BitVec.toNat).getD c.blk.dealt.asid) (p.get64 c a.toNat l)
    let tells (l : Nat) : DWord × Nat × Nat := match walk l with
      | .leaf x => (x.e, x.level, 0)
      | .absent n e => (e, n, 1)
      | .malformed n e => (e, n, 2)
      | .nonCanonical => (0, 0, 3)
      | .noSpace => (0, 5, 4)
      | .poisoned _ => (0, 0, 0)
    Issues s i 0xB5 g c → p.owed c.who = [] → p.storesHome c.who = true → (∀ l pa, c.exec.getLsbD l = true → walk l ≠ .poisoned pa) →
    Gives s c i ((((p.acquire c.who .sys).put64 c c.exec d.toNat fun l => (tells l).1).put c c.exec (d.toNat + 2)
      fun l => BitVec.ofNat 64 ((tells l).2.1 + 2 ^ 8 * (tells l).2.2)).put c c.exec (d.toNat + 3) fun _ => 0)) ∧
  (∀ a g (slot : BitVec 6) s c (i : Instr), i = .wsave a g slot ∨ i = .wsaveFrame a g slot ∨ i = .wload a g slot ∨ i = .wloadFrame a g slot →
    let op := if i = .wsave a g slot ∨ i = .wsaveFrame a g slot then 0xB6 else 0xB7
    let p := paid s c i
    let w : Who := ⟨c.who.core, .warp slot.toNat⟩
    let va := p.get64 c a.toNat (lowest c.exec)
    let stops (x : Cause) (at_ : DWord) : Prop := Runs i s (p.takeTrap c.who c.pc c.next (TrapArgs.of x at_ 0 c.exec))
    let alien : Prop := (p.blockOf w).map (·.dealt.region) ≠ some c.blk.dealt.region
    Ready s i op g c →
    (p.warp w = none ∨ w = c.who → stops .illegal 0) ∧
    (∀ x, p.warp w = some x → x.park = none ∨ x.away.isSome = true → stops .illegal 0) ∧
    (∀ x, p.warp w = some x → w ≠ c.who → x.park.isSome = true → x.away = none →
      (alien → stops .privDeny 0) ∧ (¬alien → va.toNat % 128 ≠ 0 → stops .align va))) ∧
  (∀ a g (slot : BitVec 6) s c x, let w : Who := ⟨c.who.core, .warp slot.toNat⟩
    let target (i : Instr) (op : Nat) : Prop :=
      let p := paid s c i
      Issues s i op g c ∧ p.warp w = some x ∧ w ≠ c.who ∧ x.park.isSome = true ∧ x.away = none ∧ x.flight.results = [] ∧
      (p.flight c.who).sq.ents = [] ∧ (p.blockOf w).map (·.dealt.region) = some c.blk.dealt.region ∧ (p.get64 c a.toNat (lowest c.exec)).toNat % 128 = 0
    let va (i : Instr) : DWord := (paid s c i).get64 c a.toNat (lowest c.exec)
    let here (p : State) (ps : List (DWord × Nat × Leaf)) : Prop := (ps.any fun e => p.heldAt (dieOf c.who.core) e.2.2.phys e.2.1) = false
    (let i : Instr := .wsave a g slot
     let p := paid s c i
     let bs := p.recordOf w x
     ∀ ps, target i 0xB6 → p.recordPieces c .store (va i) bs.length = .ok ps → Gives s c i (p.storeRecord c (va i) bs ps)) ∧
    (let i : Instr := .wsaveFrame a g slot
     let p := paid s c i
     ∀ ps, target i 0xB6 → x.writeBack.bad = [] → x.hdrBad = [] → p.recordPieces c .store (va i) (p.image x).length = .ok ps →
      Gives s c i ((p.updWarp w Warp.writeBack).storeRecord c (va i) (p.image x) ps)) ∧
    (let i : Instr := .wload a g slot
     let p := paid s c i
     ∀ ps, target i 0xB7 → p.recordPieces c .load (va i) 16384 = .ok ps → here p ps →
      let q := (p.fetchRecord c ps).1
      let bs := (p.fetchRecord c ps).2
      let logs := (List.range 16).filterMap fun k => q.logOfBytes w c.blk.dealt.asid ((bs.drop (0xE00 + 800 * k)).take 800)
      recordBad x.frame bs = false → logs.length ≤ (freeSlots (p.core w.core).log 16).length + (p.logOf w).length → Gives s c i (q.placeRecord w x bs logs)) ∧
    (let i : Instr := .wloadFrame a g slot
     let p := paid s c i
     ∀ ps, target i 0xB7 → p.recordPieces c .load (va i) (128 * x.frame + 2048) = .ok ps → here p ps → imageBad x (p.fetchRecord c ps).2 = false →
      Gives s c i ((p.fetchRecord c ps).1.updWarp w fun y => y.loadImage (p.fetchRecord c ps).2))) ∧
  (∀ (f : Nat) (bs : List Byte) (k i : Nat), let n (a k : Nat) : Nat := natOf ((bs.drop a).take k)
    k < 8 → i < 4 → n 0 8 ≠ f ∨ n 0x588 1144 ≠ 0 ∨ 64 < n (0x81 + 8 * k) 1 ∨ 20 < n (0x82 + 8 * k) 1 ∨
      (i < n (0x82 + 8 * k) 1 ∧ 64 < (Split.ofBytes ((bs.drop (0xC0 + 64 * k + 16 * i)).take 16)).depth) ∨ (n 0x20 1 ≠ 0 ∧ 64 < n 0x22 1) →
    recordBad f bs = true)

/-- CARDS AND QUEUES (02 R30; 10 R187, R189, R191 to R194; 13 R248). The next chunk of a card; the block that it becomes; the dispatcher's
order, by region, queue and posting, over the cards that compete (entry 29), and the card it deals or refuses; the wait counter as the dispatcher last read it; the end of a block and the done counter; the
host's posts, and its ingest writes, which wait while their window withholds credit; the tables read at QSYNC, RCBSYNC and INGSYNC, at the
addresses that the registers hold (entries 22, 27); the window of the role scheduler. A chunk takes its region's fields at its grab (entry 18). -/
def Obligations.LaunchEvents : Prop :=
  let heads (s : State) : State := (s.queues.filterMap fun (_, x) => x.cards.head?.map fun c => cardRegion c.card).foldl State.useRegion s
  let gated (s : State) (f : Nat) (stream : Option Nat) : Prop :=
    f < 64 ∧ s.host.up = true ∧ s.die0.dead = false ∧ (s.tdisp f = none ∨ (s.tdisp f = some .run ∧ s.inStream f stream = true))
  (∀ (s : State) (c : BitVec 1024) (rem : Nat),
    let d := cardDiv c * (min (s.effCores 0 (cardRegion c)) 112 + min (s.effCores 1 (cardRegion c)) 112)
    0 < d → ∃ n, rem ≤ n * d ∧ n * d < rem + d ∧ s.chunkSize c rem = min rem (max (cardFloor c) n)) ∧
  (∀ (s : State) (run : Nat) (r : CardRun) (t : State) (r' : CardRun), s.grab run r = some (t, r') →
    let n := s.chunkSize r.card r.remaining
    r'.remaining + n = r.remaining ∧ r'.next = r.next + 1 ∧ r'.live = r.live ++ [r.next] ∧ t.run run = some r' ∧
    ∃ core slot b, t.block core slot = some b ∧ b.dealt.run = run ∧ b.dealt.num = r.next ∧ b.dealt.lo = cardReccount r.card - r.remaining ∧
      b.dealt.hi = b.dealt.lo + n ∧ b.dealt.region = r.region ∧ b.dealt.asid = s.effAsid r.region) ∧
  (∀ s : State,
    let region (c : Cand) : Nat := match c.kind with | .fresh _ q => cardRegion q.card | .saved _ x => x.block.dealt.region
    let run (x : Saved) : Nat × Nat := ((s.run x.block.dealt.run).map fun r => (r.queue, r.seq)).getD (0, 0)
    let queue (c : Cand) : Nat := match c.kind with | .fresh q _ => q | .saved _ x => (run x).1
    let posted (c : Cand) : Nat := match c.kind with | .fresh _ q => q.seq | .saved _ x => (run x).2
    let again (c : Cand) : Prop := match c.kind with | .fresh .. => False | .saved .. => True
    let dealt (c : Cand) : Nat := match (s.region (region c)).dealt with | some t => t + 1 | none => 0
    s.candidates.Pairwise (fun a b =>
      s.effPrio (region b) ≤ s.effPrio (region a) ∧ (s.effPrio (region a) = s.effPrio (region b) →
        dealt a ≤ dealt b ∧ (dealt a = dealt b → region a ≤ region b ∧ (region a = region b →
          (s.queue (queue b)).prio ≤ (s.queue (queue a)).prio ∧ ((s.queue (queue a)).prio = (s.queue (queue b)).prio →
            posted a ≤ posted b ∧ (posted a = posted b → again b → again a)))))) ∧
    ∀ q c rest, (s.queue q).cards = c :: rest → (s.queue q).valid = true → c.waiting = false → s.headRun q = none →
      (∀ z ∈ s.resets, z.fdom ≠ s.effFdom (cardRegion c.card)) → ∃ x ∈ s.candidates, x.kind = .fresh q c) ∧
  (∀ (s : State) (l : List Cand) (c : Cand) (m : List Cand) (t : State), let p := heads s.tick.postPending.settleRuns
    s.host.side.saving = false → p.candidates = l ++ c :: m → (∀ x ∈ l, p.tryDeal x = none) → p.tryDeal c = some t →
    Runs .dispatch s t.noteAll) ∧
  (∀ (s : State) (q : Nat) (c : QCard) (key : List Int) (cause : Cause) (at_ : DWord), s.headRun q = none → s.judge c.card c.cardId (s.queue q).region = some (cause, at_) →
    cause ≠ .migrating → s.tryDeal ⟨key, .fresh q c⟩ = some ((s.postDevice 4 cause at_ 0 c.cardId 0 0 (cardRegion c.card)).leaveQueue q)) ∧
  (∀ (q : Nat) (s : State) (c : QCard) (rest : List QCard) (bs : List Byte), (s.queue q).cards = c :: rest → (s.queue q).valid = true → cardWaitctr c.card ≠ 0 →
    s.regionInvalid (cardRegion c.card) = none → s.tick.deviceRead (s.effAsid (cardRegion c.card)) 4 4 (cardWaitctr c.card) = .ok bs →
    ∃ t, Runs (.waitctrRead q) s t ∧ (t.queue q).cards = { c with
      reported := false, ready := c.ready || decide (0 ≤ (BitVec.ofNat 32 (natOf bs) - cardWaitval c.card).toInt) } :: rest) ∧
  (∀ (core blk : Nat) (s : State) (b : Block) (r : CardRun), s.block core blk = some b → s.blockOver core blk b = true → s.run b.dealt.run = some r →
    ∃ t, Runs (.blockEnd core blk) s t ∧ t.block core blk = none ∧
      (let live := r.live.filter (· != b.dealt.num)
       if r.remaining = 0 ∧ live = [] then r.lostChunk = true ∨ cardDonectr r.card = 0 → t.run b.dealt.run = none
       else ∃ r', t.run b.dealt.run = some r' ∧ r'.live = live ∧ r'.remaining = r.remaining)) ∧
  (∀ (s : State) (run : Nat) (r : CardRun) (l : Leaf), let va := cardDonectr r.card
    va ≠ 0 → va.toNat % 4 = 0 → s.access 0 (s.effAsid r.region) none .rmw true false va = .ok l → s.unitBad l 4 = none →
    Tbl.get false s.mem.disc (l.phys / 32) = false → l.phys % 4 = 0 → s.linkQuiet = true →
    ∃ t, s.doneIncrement run r = some t ∧ ∀ k, Tbl.get 0 t.mem.mem k = if l.phys ≤ k ∧ k < l.phys + 4 then
      BitVec.ofNat 8 ((natOf (s.homeBytes l.phys 4) + 1) / 256 ^ (k - l.phys)) else Tbl.get 0 s.mem.mem k) ∧
  (∀ (f q : Nat) (ide : Option Nat) (data : List Byte) (s : State), let p := s.tick.useQueue q
    let card := BitVec.ofNat 1024 (natOf data)
    let fit : Prop := data.length = 128 ∧ cardDepth card = 0 ∧ (p.queue q).hostOpen = true
    gated s f ide → q < 65536 → p.isAncestor (p.funcRegion f) (p.queue q).region = true →
    (∀ t, fit → p.enqueue q card none = some t → Runs (.hostPost f ide (.post q) data) s t) ∧
    (¬fit ∨ p.enqueue q card none = none → Runs (.hostPost f ide (.post q) data) s (p.countDrop q))) ∧
  (∀ (f w off req : Nat) (ide : Option Nat) (data : List Byte) (s : State), let x := s.ingest w
    let q := s.queue x.queue
    gated s f ide → w < 64 → off < 2 ^ 24 → x.desc.isSome = true → flag 97 x.word = true → s.isAncestor (s.funcRegion f) x.region = true →
    (x.unjudged = false → q.open = false ∨ q.free = 0 → Runs (.ingestWrite f w off req ide data) s
      (s.tick.setIngest w { x with waiting := x.waiting ++ [(req, off, data)] })) ∧
    (x.unjudged = false → q.open = true → q.free ≠ 0 → x.waiting = [] → x.count.toNat / x.perCard ≤ x.posted →
      (req ≠ x.reqid ∨ x.size < off % x.size + data.length → ∃ t, Runs (.ingestWrite f w off req ide data) s t ∧ t.mem = s.mem ∧
        t.ingest w = x ∧ ∀ g, g < 64 → s.isAncestor (s.funcRegion g) x.region = true →
          Tbl.get 0 t.host.msix (3 * g + 2) = Tbl.get 0 s.host.msix (3 * g + 2) + 1) ∧
      (req = x.reqid → off % x.size + data.length ≤ x.size →
        let store := s.tick.deviceStore (s.effAsid x.region) (data.length / 4096 + 2) (x.base + BitVec.ofNat 64 (off % x.size)) data
        (∀ z, store = .ok z → ∃ t, Runs (.ingestWrite f w off req ide data) s t ∧ (t.ingest w).count = x.count + BitVec.ofNat 64 data.length ∧
          (t.ingest w).desc = x.desc ∧ (t.ingest w).waiting = []) ∧
        (store = .error .migrating → Runs (.ingestWrite f w off req ide data) s
          (s.tick.setIngest w { x with waiting := [(req, off, data)] }))))) ∧
  (∀ (v : BitVec 32) (s : State), s.queueFrozen (fld 0 16 v) = [] → ∃ t, Runs (.qsync v) s t ∧ (t.queue (fld 0 16 v)).entry = some (s.entryInMemory (fld 0 16 v)) ∧
    (t.queue (fld 0 16 v)).cards = (s.queue (fld 0 16 v)).cards ∧ ∀ q, q ≠ fld 0 16 v → t.queue q = s.queue q) ∧
  (∀ (v : BitVec 32) (s : State), ∃ t, Runs (.rcbsync v) s t ∧ ∀ a, a = fld 0 12 v ∨ ((s.region a).rcb.isSome = true ∧ s.isAncestor (fld 0 12 v) a = true) →
    (t.region a).rcb = some (BitVec.ofNat 512 (natOf (s.homeBytes (s.regs.regtab.toNat + 64 * a) 64)))) ∧
  (∀ (v : BitVec 32) (s : State), let w := fld 0 6 v
    let n := BitVec.ofNat 512 (natOf (s.homeBytes (s.regs.ingtab.toNat + 64 * w) 64))
    s.frozen = [] → ∃ t, Runs (.ingsync v) s t ∧ ((t.ingest w).desc = some n ∨ (t.ingest w).desc = some 0) ∧
      (flag 97 n = false → (t.ingest w).desc = some n) ∧ (t.ingest w).count = (s.ingest w).count) ∧
  (∀ (core slot : Nat) (s : State) (b : Block) (x : Roles), s.block core slot = some b → b.roles = some x →
    let max := fld 360 5 x.table
    let ws (s : State) : List (Nat × Warp) := b.warps.filterMap fun n => (s.slotWarp core n).map fun w => (n, w.2)
    let counts (s : State) : Nat := ((ws s).filter fun p =>
      (roleOf x.table p.2.wid == 1 && p.2.role == 0) || p.2.flag == some 0).length
    ∃ t, Runs (.roleFlagWindow core slot) s t ∧
      (∃ n, ∀ w, (s.slotWarp core n).map (·.1) ≠ some w → t.warp w = s.warp w) ∧ (∀ w, (t.warp w).map (·.role) = (s.warp w).map (·.role)) ∧
      ((b.warps.filterMap fun n => (s.slotWarp core n).map (·.1)).Nodup → counts s ≤ max → counts t ≤ max) ∧
      (∀ a n w, b.roleBad = false → max ≠ 0 → rolesBroken b b.warpCount x.table = false → x.lowSince = some a →
        a + 16 * fld 344 16 x.table ≤ s.tref.toNat → (∀ p ∈ ws s, p.2.flag ≠ some 1) → counts s < max →
        ((ws s).find? fun p => p.2.role == 1 && p.2.flag.isNone && b.takingBlocked p.1 p.2) = some (n, w) →
        ∀ y, s.slotWarp core n = some y → (t.warp y.1).map (·.flag) = some (some 0)))

/-- TOKENS, DROOP, HEAT AND POWER (11 R204, R206, R207, R210, R211, R214, R216 to R220; 12 R235 to R237): a take moves tokens from a packet
to an account and debits the allowances; a ring cycle and a rotation; hold and payment, which a droop window spaces; loans; droop windows; a
thermal poll, with the emergency save that starts at its third threshold, and which the dispatcher's steps carry out; the analog trip, which
changes nothing once a save has removed the power (the model's reading, entry 30); package reset and what bring-up restores. The model's own are
also: that DROOPCNT counts at the detection (entry 34), that the save runs in the dispatcher's steps (entry 39), and that package reset keeps
memory and that lost memory reads zero (entry 1). -/
def Obligations.PowerEvents : Prop :=
  let mint (s : State) (d : Nat) : Mint := (s.die d).mint
  let bal (s : State) (core r : Nat) : Nat := (s.core core).tokens.balance r
  (∀ d : Die, d.emit.1.tok + d.emit.1.rtok = d.reff ∧ d.emit.1.mask = 0 ∧ (d.mint.list = [] → d.emit.1.rcore = none ∧ d.emit.1.rtok = 0) ∧
    ∀ c l, d.mint.list = c :: l → d.emit.1.rcore = some c ∧ d.emit.1.rtok = min 4096 d.reff ∧ d.emit.2 = l) ∧
  (∀ (s : State) (core : Nat) (p : Packet),
    let r := s.takeFree core p
    let x := s.cluster (clusterOf core)
    (s.takingAccount core = none → r = (s, p)) ∧
    ∀ a, s.takingAccount core = some a →
      let most := min (min p.tok (s.cap core - bal s core a)) (s.available (dieOf core) a).toNat
      let k := if x.window = true then min most ((s.die (dieOf core)).reff / 224) else most
      r.2 = { p with tok := p.tok - k } ∧ bal r.1 core a = bal s core a + k ∧ (∀ b, b ≠ a → bal r.1 core b = bal s core b) ∧
      ((s.chain a).Nodup → ∀ b, (r.1.region b).rem (dieOf core) = (s.region b).rem (dieOf core) - (if b ∈ s.chain a then (k : Int) else 0))) ∧
  (∀ (d : Nat) (s : State), d < 2 → (s.die d).dead = false → (mint s d).cycle < 113 * (mint s d).rot → ∃ t, Runs (.ringCycle d) s t ∧
    (mint t d).cycle = (mint s d).cycle + 1 ∧ (mint t d).rot = (mint s d).rot ∧ (mint t d).tokRet = (mint s d).tokRet ∧
    (s.coresOf d = [] → (mint t d).packets = (s.die d).emit.1 :: (mint s d).packets.take 112) ∧
    ((mint s d).packets[112]? = none → (mint t d).list = (s.die d).emit.2 ∧ (mint t d).destroyed = (mint s d).destroyed) ∧
    ∀ p, (mint s d).packets[112]? = some p →
      (mint t d).list = (s.die d).emit.2 ++ (onesOf p.mask).filter (fun c => !(s.die d).emit.2.contains c) ∧
      (mint t d).destroyed = (mint s d).destroyed + p.tok + p.rtok) ∧
  (∀ (d : Nat) (s : State), d < 2 → (s.die d).dead = false → (mint s d).cycle = 113 * (mint s d).rot → ∃ t, Runs (.rotationStart d) s t ∧
    (mint t d).rot = (mint s d).rot + 1 ∧ (mint t d).cycle = (mint s d).cycle ∧ (mint t d).tokRet = (mint s d).destroyed ∧
    (mint t d).destroyed = 0 ∧ (mint t d).packets = (mint s d).packets ∧
    ((s.regions.map (·.1)).Nodup → ∀ r ∈ s.regions.map (·.1), (s.region r).rcb.isSome = true → (t.region r).rem d =
      (if s.hasShare r = true then ((s.appliedShare r * (t.die d).reff * 113 / 1000 : Nat) : Int) else 0) + min 0 ((s.region r).rem d))) ∧
  (∀ (core : Nat) (s : State) (x : Wide), s.oldestWide core = some x → (s.core core).tokens.hold = none →
    x.age + 226 ≤ (mint s (dieOf core)).cycle → Runs (.holdEnter core) s (s.tick.updCore core fun k =>
      { k with tokens := { k.tokens with hold := some x.who, heldNow := true } })) ∧
  (∀ (core : Nat) (s : State) (x : Wide), (s.core core).tokens.wide = [x] →
    (bal s core x.region < x.price ∨ s.payerFree core x.who.party = false → Runs (.wideRequestPayment core) s s.tick) ∧
    (x.price ≤ bal s core x.region → s.payerFree core x.who.party = true → ∃ t, Runs (.wideRequestPayment core) s t ∧ (t.core core).tokens.wide = [] ∧
      bal t core x.region = bal s core x.region - x.price ∧
      (t.core core).tokens.hold = (if (s.core core).tokens.hold = some x.who then none else (s.core core).tokens.hold) ∧ (∀ r, r ≠ x.region → bal t core r = bal s core r) ∧
      ∀ w, s.warp x.who = some w → t.warp x.who = some { w with paid := true })) ∧
  (∀ (d : Nat) (s : State) (l : Loan), s.loan = some l → l.stage = .granting → d ≠ l.lender → s.host.side.linkUp = true →
    Runs (.loanGrant d) s { s.tick with loan := some { l with stage := .granted } }) ∧
  (∀ (d : Nat) (s : State) (l : Loan), s.loan = some l → l.stage = .running → l.left = 0 → d ≠ l.lender → s.host.side.linkUp = true →
    Runs (.loanTermEnd d) s { s.tick with loan := some { l with stage := .ending } }) ∧
  (∀ (d : Nat) (s : State) (l : Loan), d < 2 → s.loan = some l → l.stage = .notice → d = l.lender → s.host.side.linkUp = true →
    ∃ t, Runs (.loanEndNotice d) s t ∧ (mint t d).loan = (mint s d).loan + l.amount ∧
      t.loan = if l.repay = true then none else some { l with lender := 1 - d, stage := .asked, repay := true }) ∧
  (∀ s : State, ∃ t, Runs .sidebandFail s t ∧ t.host.side.linkUp = false ∧ ∀ d, d < 2 → mint t d = { mint s d with loan := min (mint s d).loan 0 }) ∧
  (∀ s : State, s.host.side.linkUp = false → ∃ t, Runs .sidebandReturn s t ∧ t.host.side.linkUp = true ∧ t.loan = none ∧
    ∀ d, d < 2 → mint t d = { mint s d with loan := 0 }) ∧
  (∀ (d k : Nat) (s : State), let c := 14 * d + k
    let x := s.cluster c
    let stretch := max 1 (fld 6 4 x.droopCfg)
    (d < 2 → k < 14 → flag 18 x.droopCfg = true → x.detected = false → ∃ n, (n = 1 ∨ n = 2) ∧ Runs (.droopDetect d k) s (s.tick.setCluster c
      { x with detected := true, from_ := x.latest + n, droopCnt := x.droopCnt + 1, recent := x.recent + 1 })) ∧
    (x.detected = true → x.from_ + stretch ≤ x.latest → Runs (.droopWindowStart d k) s (s.tick.setCluster c { x with
      detected := false, window := decide (fld 10 8 x.droopCfg ≠ 0), since := x.latest, until_ := x.latest + fld 10 8 x.droopCfg })) ∧
    (x.window = true → x.until_ ≤ x.latest → Runs (.droopWindowEnd d k) s (s.tick.setCluster c { x with window := false })) ∧
    (∀ core, clusterOf core = c → x.since ≤ x.cycle → x.cycle < x.until_ → ∀ p, s.payerFree core p = true → 1 ≤ x.open_ ∧
      (Tbl.get 0 (s.core core).tokens.last (payer p) ≤ min x.since x.cycle ∨
      Tbl.get 0 (s.core core).tokens.last (payer p) + (if payer p = 0 then 16 else 2) ≤ x.cycle + 1)) ∧
    ∀ core p, clusterOf core = c → Tbl.get 0 (s.core core).tokens.last (payer p) = x.cycle + 1 → s.payerFree core p = false) ∧
  (∀ (d : Nat) (temps : List Nat) (s : State), d < 2 → temps.length = 20 → (s.die d).dead = false →
    let x := s.die d
    let on (i : Nat) : Bool :=
      let t := fld (8 * i) 8 x.thermCfg
      if ∃ y ∈ temps, t ≤ y then true else if ∀ y ∈ temps, y < t - fld (4 * i) 4 x.thermHys then false else x.level.getLsbD i
    ∃ t, Runs (.thermalPoll d temps) s t ∧
      (on 2 = false → (t.die d).hot = min (temps.foldl max 0) 255 ∧ (∀ i, i < 3 → (t.die d).level.getLsbD i = on i) ∧
        (mint t d).cut = (if on 1 = true then min 7 (x.mint.cut + 1) else x.mint.cut - 1) ∧ t.power = s.power ∧ t.cores = s.cores ∧
        t.mem = s.mem) ∧
      (on 2 = true → s.host.side.saving = false → ∃ l, t.host.side.log = some l ∧ l.usable = s.arenaUsable ∧
        (if s.arenaUsable = true then t.host.side.saving = true ∧ t.power = s.power ∧ l.complete = none
         else t.host.side.saving = false ∧ t.power = false ∧ l.complete = some l.time))) ∧
  (∀ s : State, s.host.side.saving = true → ∃ t, Runs .dispatch s t ∧
    ((t.power = false ∧ t.host.side.saving = false ∧ ∀ l, s.host.side.log = some l → ∃ u, t.host.side.log = some { l with unsaved := u, complete := some l.time }) ∨
     (t.power = s.power ∧ t.host.side.saving = true ∧ t.host.side.log = s.host.side.log ∧ t.allBlocks ≠ [] ∧ t.freeArena.isSome = true))) ∧
  (∀ d sensor (s : State), s.power = false → Runs (.analogTrip d sensor) s s.tick) ∧
  (∀ d sensor (s : State), s.power = true → Runs (.analogTrip d sensor) s
    ({ s.tick with power := false, mem := { MemState.init with peer := s.mem.peer }, saved := [] }.updSide fun x => { x with saving := false })) ∧
  (∀ s : State, ∃ t, Runs .packageReset s t ∧ t.regs = State.reset.regs ∧ t.cores = [] ∧ t.clusters = [] ∧ t.regions = [] ∧ t.queues = [] ∧
    t.resets = [] ∧ t.tref = 0 ∧ t.power = true ∧ t.mem.mem = s.mem.mem ∧ t.mem.msgs = [] ∧
    ∀ d, d < 2 → t.die d = { Die.init with upper := (s.die d).upper, clmap := (s.die d).clmap }) ∧
  (∀ (s : State) (l : EmergencyLog), s.host.side.log = some l → l.read = false → s.power = true →
    ∃ t, Runs .bringUpLogRead s t ∧ t.host.side.log = some { l with read := true } ∧
      (let good := l.usable = true ∧ l.complete = some l.time
       (good → t.saved = s.saved.filter (fun x => !l.unsaved.contains x.block.dealt.region) ∧
          ∀ k r, (k, some r) ∈ t.cards ↔ (k, some r) ∈ s.cards ∧ r.region ∉ l.unsaved) ∧ (¬good → t.saved = [] ∧ t.cards = []) ∧
       ∀ e ∈ l.regions, (¬good ∨ e.1 ∈ l.unsaved) → if e.2 = true then e.1 ∈ t.host.side.restartable else e.1 ∈ t.host.side.lost))

/-- RESUMPTION, RESET AND ERRORS (12 R228, R229, R238 to R242). FRESUME lets a parked party issue again, at its trapping word or after it, or
ends it, but for a host's of a region that its function does not reach (13 R243); a region reset leaves no block, queued card or saved block of
its fault domain, and its end sets the RSTDONE bit; the watchdog starts one of a region that is busy; a die's fatal error ends every block there,
and where the bridge link fails to retrain either die goes on alone (the model's reading, entry 21); soft errors are counted at their event,
also where nothing holds the unit (the model's choice, entry 33), and poison the unit they strike. -/
def Obligations.FaultEvents : Prop :=
  let names (v : BitVec 32) (kind core slot : Nat) : Prop :=
    fld 0 7 v < 112 ∧ core = 112 * fld 7 1 v + fld 0 7 v ∧ slot = fld 8 6 v ∧ fld 14 2 v = kind
  let clear (t : State) (fdom : Nat) : Prop := (∀ core b x, t.block core b = some x → x.dealt.fdom ≠ fdom) ∧
    (∀ x ∈ t.saved, t.effFdom x.block.dealt.region ≠ fdom) ∧ t.resets.any (·.fdom == fdom) = true
  let emptied (s t : State) (fdom : Nat) : Prop :=
    ∀ q, (t.queue q).cards = if s.effFdom (s.queue q).region = fdom then [] else (s.queue q).cards
  (∀ v s, s.fresumeParty v = none →
    ∀ via, Runs (.fresumeReplay ⟨v, via⟩) s s.tick ∧ Runs (.fresumeResume ⟨v, via⟩) s s.tick ∧ Runs (.fresumeKill ⟨v, via⟩) s s.tick) ∧
  (∀ v w i b f st s, s.fresumeParty v = some (w, i) → s.blockOf w = some b → s.gate true f st = .pass →
    s.isAncestor (s.funcRegion f) b.dealt.region = false →
    Runs (.fresumeReplay ⟨v, .host f st⟩) s s.tick ∧ Runs (.fresumeResume ⟨v, .host f st⟩) s s.tick ∧ Runs (.fresumeKill ⟨v, .host f st⟩) s s.tick) ∧
  (∀ (resume : Bool) (v : BitVec 32) (core slot : Nat) (s : State) (i : TrapInfo), i.log = none → i.claim = none →
    let ins : Instr := if resume then .fresumeResume ⟨v, .soft⟩ else .fresumeReplay ⟨v, .soft⟩
    let to_ : DWord := if resume then i.next else i.pc
    (∀ x, names v 0 core slot → (s.core core).landing = none → s.warp ⟨core, .warp slot⟩ = some x → x.park = some i →
      ∃ t y, Runs ins s t ∧ t.warp ⟨core, .warp slot⟩ = some y ∧ y.park = none ∧ y.clause = none ∧
        (∀ k e, x.slices[k]? = some e → ∃ z, y.slices[k]? = some z ∧ z.depth = e.depth ∧ z.mask = e.mask &&& x.alive.extractLsb' (4 * k) 4 ∧
          z.pc = if x.gang.getLsbD k = true then to_ else e.pc) ∧
        { y with park := x.park, clause := x.clause, slices := x.slices, resumed := x.resumed, oc := x.oc } = x ∧
        y.oc.map (fun e => (e.name, e.dirty)) = x.oc.map (fun e => (e.name, e.dirty)) ∧ (∀ e ∈ y.oc, e.pin = false) ∧ t.mem = s.mem ∧
        beside ⟨core, .warp slot⟩ t = beside ⟨core, .warp slot⟩ s.tick) ∧
    (∀ b x, names v 1 core slot → s.block core slot = some b → b.front = some x → x.park = some i →
      Runs ins s (s.tick.updFront core slot fun x => { x with park := none, clause := none, pc := to_ })) ∧
    (∀ b x, names v 2 core slot → s.block core slot = some b → b.matrix = some x → x.park = some i →
      ∃ t, Runs ins s t ∧ (t.matrixOf core slot).map (fun y => (y.park, y.clause, y.pc, y.acc)) = some (none, none, to_, x.acc) ∧
        t.mem = s.mem)) ∧
  (∀ (v : BitVec 32) (core slot : Nat) (s : State) (i : TrapInfo),
    (∀ x b, names v 0 core slot → (s.core core).landing = none → s.warp ⟨core, .warp slot⟩ = some x → x.park = some i → x.origin = none →
      s.block core x.blk = some b → ∃ t, Runs (.fresumeKill ⟨v, .soft⟩) s t ∧ t.warp ⟨core, .warp slot⟩ = none) ∧
    (∀ b x, names v 1 core slot → s.block core slot = some b → b.front = some x → x.park = some i →
      ∃ t, Runs (.fresumeKill ⟨v, .soft⟩) s t ∧ ((t.block core slot).bind (·.front)).map (fun y => (y.ended, y.park)) = some (true, none)) ∧
    (∀ b x, names v 2 core slot → s.block core slot = some b → b.matrix = some x → x.park = some i →
      ∃ t, Runs (.fresumeKill ⟨v, .soft⟩) s t ∧ (t.matrixOf core slot).map (fun y => (y.running, y.park)) = some (false, none))) ∧
  (∀ v s, ∃ t, Runs (.rreset v) s t ∧ clear t (fld 0 16 v) ∧ emptied s t (fld 0 16 v) ∧ t.regs = s.regs) ∧
  (∀ region s a, (s.region region).busySince = some a → s.busy region = false → ∃ t, Runs (.watchdogFire region) s t ∧
    t.resets = s.resets ∧ (t.region region).busySince = none ∧ t.cores = s.cores) ∧
  (∀ region s a, (s.region region).busySince = some a → s.busy region = true → s.effWdog region ≠ 0 →
    (s.tref.toNat < a + 1000000 * s.effWdog region → Runs (.watchdogFire region) s s.tick) ∧
    (a + 1000000 * s.effWdog region ≤ s.tref.toNat → ∃ t, Runs (.watchdogFire region) s t ∧ clear t (s.effFdom region))) ∧
  (∀ fdom s, (s.resets.any fun z => z.fdom == fdom) = true → ∃ t, Runs (.regionResetDone fdom) s t ∧
    t.resets = s.resets.filter (·.fdom != fdom) ∧ ∀ k, Tbl.get 0 t.regs.rstdone k =
      if k = fdom / 32 then Tbl.get 0 s.regs.rstdone k ||| (1#32 <<< (fdom % 32)) else Tbl.get 0 s.regs.rstdone k) ∧
  (∀ d s, d < 2 → (s.die d).dead = false → ∃ t, Runs (.dieFatalError d) s t ∧ (t.die d).dead = true ∧
    (t.die (1 - d)).dead = (s.die (1 - d)).dead ∧ t.loan = none ∧ t.host.side.dieErrors = s.host.side.dieErrors ++ [d] ∧
    (∀ core b, dieOf core = d → t.block core b = none) ∧ ∀ m ∈ t.mem.msgs, m.die ≠ d) ∧
  (∀ d s, d < 2 → s.die0.dead = false → s.die1.dead = false → ∃ t, Runs (.dieFatalError (2 + d)) s t ∧ (t.die (1 - d)).dead = true ∧
    (t.die d).dead = false ∧ t.host.side.dieErrors = s.host.side.dieErrors ++ [0, 1] ∧ ∀ core b, dieOf core = 1 - d → t.block core b = none) ∧
  (∀ d unit s, d < 2 → unit < 4 → Runs (.eccCorrected d unit) s (s.tick.setDie d { s.die d with eccCor := satByte (s.die d).eccCor unit })) ∧
  (∀ v unit k, unit < 4 → k < 4 → fld (8 * k) 8 (satByte v unit) = if k = unit then min 255 (fld (8 * k) 8 v + 1) else fld (8 * k) 8 v) ∧
  (∀ d site s, d < 2 → ∃ t, Runs (.eccUncorrectable d site) s t ∧
    t.die d = { s.die d with eccUnc := satByte (s.die d).eccUnc (match site with
      | .frame .. | .cache .. | .scratch .. | .header .. | .l1 .. => 0 | .l2 _ => 1 | .hbm _ => 2 | .acc .. | .array .. => 3) } ∧
    match site with
    | .frame w r l => ∀ x, s.warp w = some x → ∃ y, t.warp w = some y ∧ Tbl.get false y.bad (32 * r + l) = true ∧ { y with bad := x.bad } = x
    | .cache w r l => ∀ x, s.warp w = some x → (x.oc.any fun e => e.name == r) = true → ∃ y, t.warp w = some y ∧
        Tbl.get false y.ocBad (32 * r + l) = true ∧ { y with ocBad := x.ocBad } = x
    | .scratch core b k => ∀ x, s.block core b = some x → ∃ y, t.block core b = some y ∧ Tbl.get false y.scratch.bad k = true ∧
        { y with scratch := { y.scratch with bad := x.scratch.bad } } = x
    | .header w l k => l < 32 → k < 16 → ∀ x, s.warp w = some x → ∃ y, t.warp w = some y ∧ Tbl.get false y.hdrBad (16 * l + k) = true ∧
        { y with hdrBad := x.hdrBad } = x
    | .l1 core k => (s.core core).l1.lines.contains (k / 32) = true → Tbl.get false (t.core core).l1.bad k = true ∧ t.mem = s.mem
    | .l2 k => if (s.mem.guests d).contains (k / 4) = true then t.mem = s.mem.setGbad d (Tbl.set false (s.mem.gbad d) k true)
        else t.mem = { s.mem with bad := Tbl.set false s.mem.bad k true }
    | .hbm k => t.mem = { s.mem with bad := Tbl.set false s.mem.bad k true }
    | .acc core a => ∀ b m, s.engineBlock core = some b → s.matrixOf core b = some m →
        (t.matrixOf core b).map (·.accBad) = some (Tbl.set false m.accBad a true)
    | .array core kq nq => ∀ b m x, s.engineBlock core = some b → s.matrixOf core b = some m → m.tile = some x →
        (t.matrixOf core b).map (·.tile) = some (some { x with bad := (kq, nq) :: x.bad }))

/-- THE HOST INTERFACE, THE PORTS AND THE SIDEBAND (13 R243, R245, R246, R250 to R253): the states of a TDISP interface, and the error of a post
that a running interface may not take, or of a write of a frozen BAR; what a read shows; the interface report; flits in order, opened as the
other end sealed them, and kept for replay; keys; the replies to SPDM, PLDM and the vendor's message. The model's own are: FQTAIL shown to region 0
alone, the report also in RUN and the bytes that its digest covers (entry 15), and the bytes that an attestation signs
(entry 19). -/
def Obligations.HostEvents : Prop :=
  let port (s : State) (p : Nat) (y : Port) : State := s.tick.setPort p y
  let tells (s : State) (r : Response) : State := s.tick.updSide fun x => { x with response := some r }
  (∀ f s, f < 64 → s.tdisp f = none ∨ s.tdisp f = some .unlocked → Runs (.lockInterface f) s (s.tick.setTdisp f .locked)) ∧
  (∀ f s, s.tdisp f = some .locked → Runs (.startInterface f) s (s.tick.setTdisp f .run)) ∧
  (∀ f s, (s.tdisp f).isSome = true → Runs (.stopInterface f) s (s.tick.setTdisp f .unlocked)) ∧
  (∀ f s, s.tdisp f ≠ some .locked → Runs (.startInterface f) s s.tick) ∧
  (∀ f s, s.tdisp f = some .locked ∨ s.tdisp f = some .run ∨ s.tdisp f = some .error → Runs (.lockInterface f) s s.tick) ∧
  (∀ up s, ∃ t, Runs (.hostInterfaceReset up) s t ∧ t.host.up = up ∧
    (∀ f, t.tdisp f = if up = true then s.tdisp f else (s.tdisp f).map fun _ => .unlocked) ∧ t.mem = s.mem ∧ t.cores = s.cores) ∧
  (∀ f st q data s, s.host.up = false ∨ s.die0.dead = true → Runs (.hostPost f st (.post q) data) s s.tick) ∧
  (∀ f st r data s, s.host.up = false ∨ s.die0.dead = true → Runs (.hostPost f st (.read r) data) s s.tick) ∧
  (∀ f st q data s, f < 64 → s.host.up = true → s.die0.dead = false → s.tdisp f = some .run → s.inStream f st = false →
    ∃ t, Runs (.hostPost f st (.post q) data) s t ∧ t.tdisp f = some .error ∧
      (t.resets.any fun z => z.fdom == s.effFdom (s.funcRegion f)) = true ∧
      ∀ k, (t.queue k).cards = [] ∨ (t.queue k).cards = (s.queue k).cards) ∧
  (∀ f st r data s, f < 64 → s.host.up = true → s.die0.dead = false →
    (s.tdisp f = some .error → ∃ t, Runs (.hostPost f st (.read r) data) s t ∧ t.host.read = BitVec.allOnes 64 ∧ t.mem = s.mem) ∧
    (∀ w, r = .ingcnt w → s.tdisp f = none → Runs (.hostPost f st (.read r) data) s { s.tick with host := { s.host with
      read := if s.isAncestor (s.funcRegion f) (s.ingest w).region = true then (s.ingest w).count else BitVec.allOnes 64 } }) ∧
    (r = .fqtail → s.tdisp f = none → Runs (.hostPost f st (.read r) data) s { s.tick with host := { s.host with
      read := if s.funcRegion f = 0 then BitVec.ofNat 64 s.regs.fqtail.toNat else BitVec.allOnes 64 } })) ∧
  (∀ f st b data s, f < 64 → s.host.up = true → s.die0.dead = false → b = 0 ∨ b = 2 ∨ b = 4 →
    (s.tdisp f = none ∨ s.tdisp f = some .unlocked → ∃ t, Runs (.hostPost f st (.bar b) data) s t ∧
      t.bar f b = BitVec.ofNat 64 (natOf data) &&& ~~~BitVec.ofNat 64 (barSize b - 1) ∧ t.mem = s.mem ∧ t.cores = s.cores) ∧
    (s.tdisp f = some .locked ∨ s.tdisp f = some .run → ∃ t, Runs (.hostPost f st (.bar b) data) s t ∧ t.tdisp f = some .error ∧
      t.host.bars = s.host.bars)) ∧
  (∀ (p n : Nat) (flit : List Byte) (again : Bool) (s : State), p < 24 →
    let x := s.port p
    let done (y : Port) : Port :=
      let z := { y with replay := y.replay.drop n }
      if again then { z with out := z.out ++ z.replay.map (·.bytes) } else z
    (x.failed = true → Runs (.flitReceive p flit ⟨n, again⟩) s s.tick) ∧
    (x.failed = false → natOf (flit.take 8) % 2 ^ 48 ≠ x.expect.toNat → Runs (.flitReceive p flit ⟨n, again⟩) s (port s p (done x))) ∧
    (x.failed = false → natOf (flit.take 8) % 2 ^ 48 = x.expect.toNat →
      (x.unseal p flit = none → Runs (.flitReceive p flit ⟨n, again⟩) s (port s p (done { x with asked := true }))) ∧
      (∀ k type b, x.unseal p flit = some (k, type, b) → ∃ y, Runs (.flitReceive p flit ⟨n, again⟩) s (port s p (done y)) ∧
        y.expect = x.expect + 1 ∧ y.accepted = x.accepted ++ [(type, b)] ∧ y.asked = false ∧ y.replay = x.replay ∧ y.out = x.out ∧ y.tx = x.tx ∧
        y.slot k = { x.slot k with opened := (x.slot k).opened + 1 } ∧ y.slot (!k) = x.slot (!k)))) ∧
  (∀ (p q : Nat) (x y : Port) (k : Bool) (seq : BitVec 48) (type : Nat) (payload : List Byte), payload.length = 232 → type < 8 →
    Config.linkPort p = q → (y.slot k).key = (x.slot k).key → (y.slot k).opened = (x.slot k).sealed →
    (sealFlit q (x.slot k) seq k type payload).length = 256 ∧
    y.unseal p (sealFlit q (x.slot k) seq k type payload) = some (k, type, payload)) ∧
  (∀ (p type : Nat) (x : Port) (payload : List Byte), let y := x.send p type payload
    let f := sealFlit p (x.slot x.tx) x.next x.tx type payload
    y.next = x.next + 1 ∧ y.replay = x.replay ++ [⟨x.tx, f⟩] ∧ y.out = x.out ++ [f] ∧ y.tx = x.tx ∧
    y.slot x.tx = { x.slot x.tx with sealed := (x.slot x.tx).sealed + 1 } ∧ y.slot (!x.tx) = x.slot (!x.tx)) ∧
  (∀ (p : Nat) (key : BitVec 256) (s : State), p < 24 → let x := s.port p
    ∃ y, Runs (.keySwitch ⟨p, key⟩) s (port s p y) ∧
      if (x.replay.any fun e => e.slot != x.tx) = true then y = x
      else y.tx = !x.tx ∧ y.slot y.tx = ⟨key, 0, 0⟩ ∧ y.slot x.tx = x.slot x.tx ∧ y.next = x.next ∧ y.expect = x.expect ∧ y.replay = x.replay) ∧
  (∀ (p : Nat) (s : State), p < 24 → let x := s.port p
    (∃ y, Runs (.keySlotExhausted p) s (port s p y) ∧ (y.slot x.tx).sealed = 2 ^ 48 ∧ y.slot (!x.tx) = x.slot (!x.tx) ∧ y.tx = x.tx ∧
      ∀ n, 0 < n → y.stopped n = true) ∧
    Runs (.yelinePortRetrainFail p) s (port s p { x with failed := true })) ∧
  (∀ s, let m : Measurements := ⟨sha256 s.host.side.firmware, Config.isaver, s.poolcap 0, s.poolcap 1, s.die0.clmap, s.die1.clmap⟩
    Runs (.spdmRequest .identity) s (tells s (.identity Config.isaver (ecdsaPublic Config.deviceKey))) ∧
    Runs (.spdmRequest .measurements) s (tells s (.measurements m)) ∧
    ∀ nonce, ∃ n, Runs (.spdmRequest (.attestation nonce)) s
      (tells s (.attestation m (ecdsaSign Config.deviceKey (Config.signNonce n) (m.bytes ++ nonce))))) ∧
  (∀ f s, f < 64 → s.tdisp f = some .locked ∨ s.tdisp f = some .run → ∃ r, Runs (.spdmRequest (.report f)) s (tells s (.report f r)) ∧
    r.bars.map (·.1) = [s.bar f 0, s.bar f 2, s.bar f 4] ∧ r.region = s.funcRegion f ∧ r.fdom = s.effFdom (s.funcRegion f) ∧
    r.isaver = Config.isaver ∧ r.digest = sha256 (s.frozenBytes f)) ∧
  (∀ d k v s, (s.die d).temps[k]? = some v → Runs (.pldmRequest (.monitor d k)) s (tells s (.sensor v))) ∧
  (∀ image s, ∃ t, Runs (.pldmRequest (.firmware image)) s t ∧ t.host.side.firmware = image ∧ t.mem = s.mem ∧
    t.host.side.response = some (.firmware image.length)) ∧
  (∀ s, Runs (.vendorMctpMessage .readLog) s (tells s (.log s.host.side.log))) ∧
  (∀ (id : BitVec 16) (core : Nat) (v : BitVec 32) (s : State),
    s.power = true → core < 224 → (id = 0x11 ∨ (0x50 ≤ id.toNat ∧ id.toNat ≤ 0x58)) →
    Runs (.vendorMctpMessage (.read id core)) s (tells s (.value (BitVec.ofNat 64 (s.powerReg core id.toNat)))) ∧
    ∃ t, Runs (.vendorMctpMessage (.write id core v)) s t ∧ t.host.side.response = some .ok ∧ t.mem = s.mem ∧
      (id = 0x54 → core < 112 → t.die0.headThr = v &&& 0xFF#32)) ∧
  (∀ v s, s.power = true → ∃ t, Runs (.vendorMctpMessage (.rreset v)) s t ∧ (t.resets.any fun z => z.fdom == fld 0 16 v) = true ∧
    t.host.side.response = some .ok) ∧
  (∀ time regions usable unsaved complete s, ∃ t, Runs (.vendorMctpMessage (.writeLog time regions usable unsaved complete)) s t ∧
    t.host.side.log = some ⟨time, regions, usable, unsaved, complete, false⟩ ∧ t.mem = s.mem ∧ t.host.side.response = some .ok) ∧
  (∀ m s, s.power = false → (∀ id core, m = .read id core → Runs (.vendorMctpMessage m) s s.tick) ∧
    (∀ id core v, m = .write id core v → Runs (.vendorMctpMessage m) s s.tick) ∧ ∀ v, m = .rreset v → Runs (.vendorMctpMessage m) s s.tick)
end

