-- ==== Sys2Proof/Laws/Encoding.lean ====
section
/-! SUPPORT. The fields of an encoded word are the fields that were packed, and every code reads back (04 R69 to R81). -/

namespace Sys2Proof.Laws

open Sys2Proof

theorem extract_append_high {m k : Nat} (x : BitVec m) (y : BitVec k) (lo n : Nat) (h : k ≤ lo) :
    (x ++ y).extractLsb' lo n = x.extractLsb' (lo - k) n := by
  apply BitVec.eq_of_getLsbD_eq
  intro i _
  simp only [BitVec.getLsbD_extractLsb', BitVec.getLsbD_append]
  rw [if_neg (by omega), show lo + i - k = lo - k + i by omega]

theorem extract_append_low {m k : Nat} (x : BitVec m) (y : BitVec k) (lo n : Nat) (h : lo + n ≤ k) :
    (x ++ y).extractLsb' lo n = y.extractLsb' lo n := by
  apply BitVec.eq_of_getLsbD_eq
  intro i _
  simp only [BitVec.getLsbD_extractLsb', BitVec.getLsbD_append]
  rw [if_pos (by omega)]

theorem bit_append_high {m k : Nat} (x : BitVec m) (y : BitVec k) (i : Nat) (h : k ≤ i) :
    (x ++ y).getLsbD i = x.getLsbD (i - k) := by
  rw [BitVec.getLsbD_append, if_neg (by omega)]

theorem bit_append_low {m k : Nat} (x : BitVec m) (y : BitVec k) (i : Nat) (h : i < k) : (x ++ y).getLsbD i = y.getLsbD i := by
  rw [BitVec.getLsbD_append, if_pos h]

theorem extract_whole {m : Nat} (x : BitVec m) : x.extractLsb' 0 m = x := by simp

/-! Every format -/

@[simp] theorem unpack_packA (r : RawA) : unpackA (packA r) = r := by
  cases r
  simp (disch := omega) only [unpackA, packA, bits, bit, extract_append_high, extract_append_low,
    bit_append_high, bit_append_low, extract_whole]
  simp

@[simp] theorem opcodeOf_packA (r : RawA) : opcodeOf (packA r) = r.op.toNat := by
  cases r
  simp (disch := omega) only [opcodeOf, packA, bits, extract_append_high]
  simp

@[simp] theorem unpack_packI (r : RawI) : unpackI (packI r) = r := by
  cases r
  simp (disch := omega) only [unpackI, packI, bits, bit, extract_append_high, extract_append_low,
    bit_append_high, bit_append_low, extract_whole]
  simp

@[simp] theorem opcodeOf_packI (r : RawI) : opcodeOf (packI r) = r.op.toNat := by
  cases r
  simp (disch := omega) only [opcodeOf, packI, bits, extract_append_high]
  simp

@[simp] theorem unpack_packM (r : RawM) : unpackM (packM r) = r := by
  cases r
  simp (disch := omega) only [unpackM, packM, bits, bit, extract_append_high, extract_append_low,
    bit_append_high, bit_append_low, extract_whole]
  simp

@[simp] theorem opcodeOf_packM (r : RawM) : opcodeOf (packM r) = r.op.toNat := by
  cases r
  simp (disch := omega) only [opcodeOf, packM, bits, extract_append_high]
  simp

@[simp] theorem unpack_packT (r : RawT) : unpackT (packT r) = r := by
  cases r
  simp (disch := omega) only [unpackT, packT, bits, bit, extract_append_high, extract_append_low,
    bit_append_high, bit_append_low, extract_whole]
  simp

@[simp] theorem opcodeOf_packT (r : RawT) : opcodeOf (packT r) = r.op.toNat := by
  cases r
  simp (disch := omega) only [opcodeOf, packT, bits, extract_append_high]
  simp

@[simp] theorem unpack_packE (r : RawE) : unpackE (packE r) = r := by
  cases r
  simp (disch := omega) only [unpackE, packE, bits, extract_append_high, extract_append_low,
    extract_whole]
  simp

@[simp] theorem opcodeOf_packE (r : RawE) : opcodeOf (packE r) = r.op.toNat := by
  cases r
  simp (disch := omega) only [opcodeOf, packE, bits, extract_append_high]
  simp

@[simp] theorem unpack_packX (r : RawX) : unpackX (packX r) = r := by
  cases r
  simp (disch := omega) only [unpackX, packX, bits, extract_append_high, extract_append_low,
    extract_whole]
  simp

@[simp] theorem opcodeOf_packX (r : RawX) : opcodeOf (packX r) = r.op.toNat := by
  cases r
  simp (disch := omega) only [opcodeOf, packX, bits, extract_append_high]
  simp

@[simp] theorem unpack_packS (r : RawS) : unpackS (packS r) = r := by
  cases r
  simp (disch := omega) only [unpackS, packS, bits, bit, extract_append_high, extract_append_low,
    bit_append_high, bit_append_low, extract_whole]
  simp

@[simp] theorem opcodeOf_packS (r : RawS) : opcodeOf (packS r) = r.op.toNat := by
  cases r
  simp (disch := omega) only [opcodeOf, packS, bits, extract_append_high]
  simp

/-! A word is its fields -/

theorem append_extract (w : BitVec 64) (hi lo m n : Nat) (h : hi = lo + n) :
    w.extractLsb' hi m ++ w.extractLsb' lo n = w.extractLsb' lo (m + n) := by
  subst h
  apply BitVec.eq_of_getLsbD_eq
  intro i _
  simp only [BitVec.getLsbD_extractLsb', BitVec.getLsbD_append]
  split
  · simp [*]
  · rw [show lo + n + (i - n) = lo + i by omega]
    congr 1
    simp
    omega

theorem ofBool_bit (w : BitVec 64) (k : Nat) : BitVec.ofBool (w.getLsbD k) = w.extractLsb' k 1 := by
  apply BitVec.eq_of_getLsbD_eq
  intro i _
  simp [show i = 0 by omega]

theorem pack_unpackA (w : BitVec 64) : packA (unpackA w) = w := by
  simp only [packA, unpackA, bits, bit, ofBool_bit]
  rw [append_extract _ 56 48 _ _ rfl, append_extract _ 48 40 _ _ rfl, append_extract _ 40 32 _ _ rfl, append_extract _ 32
    24 _ _ rfl, append_extract _ 24 17 _ _ rfl, append_extract _ 17 16 _ _ rfl, append_extract _ 16 14 _ _ rfl,
    append_extract _ 14 12 _ _ rfl, append_extract _ 12 10 _ _ rfl, append_extract _ 10 8 _ _ rfl, append_extract _ 8 0
    _ _ rfl]
  simp

theorem pack_unpackI (w : BitVec 64) : packI (unpackI w) = w := by
  simp only [packI, unpackI, bits, bit, ofBool_bit]
  rw [append_extract _ 56 48 _ _ rfl, append_extract _ 48 40 _ _ rfl, append_extract _ 40 33 _ _ rfl, append_extract _ 33
    32 _ _ rfl, append_extract _ 32 0 _ _ rfl]
  simp

theorem pack_unpackM (w : BitVec 64) : packM (unpackM w) = w := by
  simp only [packM, unpackM, bits, bit, ofBool_bit]
  rw [append_extract _ 56 48 _ _ rfl, append_extract _ 48 40 _ _ rfl, append_extract _ 40 33 _ _ rfl, append_extract _ 33
    32 _ _ rfl, append_extract _ 32 14 _ _ rfl, append_extract _ 14 12 _ _ rfl, append_extract _ 12 9 _ _ rfl,
    append_extract _ 9 6 _ _ rfl, append_extract _ 6 5 _ _ rfl, append_extract _ 5 3 _ _ rfl, append_extract _ 3 0 _ _
    rfl]
  simp

theorem pack_unpackT (w : BitVec 64) : packT (unpackT w) = w := by
  simp only [packT, unpackT, bits, bit, ofBool_bit]
  rw [append_extract _ 56 48 _ _ rfl, append_extract _ 48 40 _ _ rfl, append_extract _ 40 32 _ _ rfl, append_extract _ 32
    24 _ _ rfl, append_extract _ 24 17 _ _ rfl, append_extract _ 17 16 _ _ rfl, append_extract _ 16 12 _ _ rfl,
    append_extract _ 12 9 _ _ rfl, append_extract _ 9 6 _ _ rfl, append_extract _ 6 5 _ _ rfl, append_extract _ 5 3 _ _
    rfl, append_extract _ 3 0 _ _ rfl]
  simp

theorem pack_unpackE (w : BitVec 64) : packE (unpackE w) = w := by
  simp only [packE, unpackE, bits]
  rw [append_extract _ 56 48 _ _ rfl, append_extract _ 48 40 _ _ rfl, append_extract _ 40 32 _ _ rfl, append_extract _ 32
    16 _ _ rfl, append_extract _ 16 8 _ _ rfl, append_extract _ 8 0 _ _ rfl]
  simp

theorem pack_unpackX (w : BitVec 64) : packX (unpackX w) = w := by
  simp only [packX, unpackX, bits]
  rw [append_extract _ 56 52 _ _ rfl, append_extract _ 52 48 _ _ rfl, append_extract _ 48 40 _ _ rfl, append_extract _ 40
    36 _ _ rfl, append_extract _ 36 32 _ _ rfl, append_extract _ 32 0 _ _ rfl]
  simp

theorem pack_unpackS (w : BitVec 64) : packS (unpackS w) = w := by
  simp only [packS, unpackS, bits, bit, ofBool_bit]
  rw [append_extract _ 56 48 _ _ rfl, append_extract _ 48 40 _ _ rfl, append_extract _ 40 33 _ _ rfl, append_extract _ 33
    32 _ _ rfl, append_extract _ 32 16 _ _ rfl, append_extract _ 16 0 _ _ rfl]
  simp

/-! Every code table -/

@[simp] theorem Hint_ofCode_code (x : Hint) : Hint.ofCode x.code = some x := by cases x <;> rfl
@[simp] theorem Rm_ofCode_code (x : Rm) : Rm.ofCode x.code = some x := by cases x <;> rfl
@[simp] theorem Ov_ofCode_code (x : Ov) : Ov.ofCode x.code = some x := by cases x <;> rfl
@[simp] theorem FType_ofCode_code (x : FType) : FType.ofCode x.code = some x := by cases x <;> rfl
@[simp] theorem Fmt_ofCode_code (x : Fmt) : Fmt.ofCode x.code = some x := by cases x <;> rfl
@[simp] theorem Size_ofCode_code (x : Size) : Size.ofCode x.code = some x := by cases x <;> rfl
@[simp] theorem Scope_ofCode_code (x : Scope) : Scope.ofCode x.code = some x := by cases x <;> rfl
@[simp] theorem Order_ofCode_code (x : Order) : Order.ofCode x.code = some x := by cases x <;> rfl
@[simp] theorem Policy_ofCode_code (x : Policy) : Policy.ofCode x.code = some x := by cases x <;> rfl
@[simp] theorem AtomOp_ofCode_code (x : AtomOp) : AtomOp.ofCode x.code = some x := by cases x <;> rfl
@[simp] theorem ICmp_ofCode_code (x : ICmp) : ICmp.ofCode x.code = some x := by cases x <;> rfl
@[simp] theorem FCmp_ofCode_code (x : FCmp) : FCmp.ofCode x.code = some x := by cases x <;> rfl
@[simp] theorem RedOp_ofCode_code (x : RedOp) : RedOp.ofCode x.code = some x := by cases x <;> rfl
@[simp] theorem ShflMode_ofCode_code (x : ShflMode) : ShflMode.ofCode x.code = some x := by cases x <;> rfl
@[simp] theorem VoteMode_ofCode_code (x : VoteMode) : VoteMode.ofCode x.code = some x := by cases x <;> rfl
@[simp] theorem Fmt8_ofCode_code (x : Fmt8) : Fmt8.ofCode x.code = some x := by cases x <;> rfl
@[simp] theorem QMode_ofCode_code (x : QMode) : QMode.ofCode x.code = some x := by cases x <;> rfl
@[simp] theorem Path_ofCode_code (x : Path) : Path.ofCode x.code = some x := by cases x <;> rfl
@[simp] theorem Swz_ofCode_code (x : Swz) : Swz.ofCode x.code = some x := by cases x <;> rfl
@[simp] theorem SigKind_ofCode_code (x : SigKind) : SigKind.ofCode x.code = some x := by cases x <;> rfl

theorem Hint_code_ofCode {c : BitVec 2} {x : Hint} (h : Hint.ofCode c = some x) : x.code = c := by
  apply BitVec.eq_of_toNat_eq
  have := c.isLt
  unfold Hint.ofCode at h
  split at h <;> cases h <;> simp_all [Hint.code]
  omega

theorem Rm_code_ofCode {c : BitVec 3} {x : Rm} (h : Rm.ofCode c = some x) : x.code = c := by
  apply BitVec.eq_of_toNat_eq
  unfold Rm.ofCode at h
  split at h <;> cases h <;> simp_all [Rm.code]

theorem Ov_code_ofCode {c : BitVec 2} {x : Ov} (h : Ov.ofCode c = some x) : x.code = c := by
  apply BitVec.eq_of_toNat_eq
  have := c.isLt
  unfold Ov.ofCode at h
  split at h <;> cases h <;> simp_all [Ov.code]
  omega

theorem FType_code_ofCode {c : BitVec 2} {x : FType} (h : FType.ofCode c = some x) : x.code = c := by
  apply BitVec.eq_of_toNat_eq
  have := c.isLt
  unfold FType.ofCode at h
  split at h <;> cases h <;> simp_all [FType.code]
  omega

theorem Fmt_code_ofCode {c : BitVec 4} {x : Fmt} (h : Fmt.ofCode c = some x) : x.code = c := by
  apply BitVec.eq_of_toNat_eq
  unfold Fmt.ofCode at h
  split at h <;> cases h <;> simp_all [Fmt.code]

theorem Size_code_ofCode {c : BitVec 3} {x : Size} (h : Size.ofCode c = some x) : x.code = c := by
  apply BitVec.eq_of_toNat_eq
  unfold Size.ofCode at h
  split at h <;> cases h <;> simp_all [Size.code]

theorem Scope_code_ofCode {c : BitVec 3} {x : Scope} (h : Scope.ofCode c = some x) : x.code = c := by
  apply BitVec.eq_of_toNat_eq
  unfold Scope.ofCode at h
  split at h <;> cases h <;> simp_all [Scope.code]

theorem Order_code_ofCode {c : BitVec 2} {x : Order} (h : Order.ofCode c = some x) : x.code = c := by
  apply BitVec.eq_of_toNat_eq
  have := c.isLt
  unfold Order.ofCode at h
  split at h <;> cases h <;> simp_all [Order.code]
  omega

theorem Policy_code_ofCode {c : BitVec 2} {x : Policy} (h : Policy.ofCode c = some x) : x.code = c := by
  apply BitVec.eq_of_toNat_eq
  unfold Policy.ofCode at h
  split at h <;> cases h <;> simp_all [Policy.code]

theorem AtomOp_code_ofCode {c : BitVec 4} {x : AtomOp} (h : AtomOp.ofCode c = some x) : x.code = c := by
  apply BitVec.eq_of_toNat_eq
  unfold AtomOp.ofCode at h
  split at h <;> cases h <;> simp_all [AtomOp.code]

theorem ICmp_code_ofCode {c : BitVec 8} {x : ICmp} (h : ICmp.ofCode c = some x) : x.code = c := by
  apply BitVec.eq_of_toNat_eq
  unfold ICmp.ofCode at h
  split at h <;> cases h <;> simp_all [ICmp.code]

theorem FCmp_code_ofCode {c : BitVec 8} {x : FCmp} (h : FCmp.ofCode c = some x) : x.code = c := by
  apply BitVec.eq_of_toNat_eq
  unfold FCmp.ofCode at h
  split at h <;> cases h <;> simp_all [FCmp.code]

theorem RedOp_code_ofCode {c : BitVec 8} {x : RedOp} (h : RedOp.ofCode c = some x) : x.code = c := by
  apply BitVec.eq_of_toNat_eq
  unfold RedOp.ofCode at h
  split at h <;> cases h <;> simp_all [RedOp.code]

theorem ShflMode_code_ofCode {c : BitVec 2} {x : ShflMode} (h : ShflMode.ofCode c = some x) : x.code = c := by
  apply BitVec.eq_of_toNat_eq
  have := c.isLt
  unfold ShflMode.ofCode at h
  split at h <;> cases h <;> simp_all [ShflMode.code]
  omega

theorem VoteMode_code_ofCode {c : BitVec 8} {x : VoteMode} (h : VoteMode.ofCode c = some x) : x.code = c := by
  apply BitVec.eq_of_toNat_eq
  unfold VoteMode.ofCode at h
  split at h <;> cases h <;> simp_all [VoteMode.code]

theorem Fmt8_code_ofCode {c : BitVec 8} {x : Fmt8} (h : Fmt8.ofCode c = some x) : x.code = c := by
  apply BitVec.eq_of_toNat_eq
  unfold Fmt8.ofCode at h
  split at h <;> cases h <;> simp_all [Fmt8.code]

theorem QMode_code_ofCode {c : BitVec 8} {x : QMode} (h : QMode.ofCode c = some x) : x.code = c := by
  apply BitVec.eq_of_toNat_eq
  unfold QMode.ofCode at h
  split at h <;> cases h <;> simp_all [QMode.code]

theorem Path_code_ofCode {c : BitVec 2} {x : Path} (h : Path.ofCode c = some x) : x.code = c := by
  apply BitVec.eq_of_toNat_eq
  have := c.isLt
  unfold Path.ofCode at h
  split at h <;> cases h <;> simp_all [Path.code]
  omega

theorem Swz_code_ofCode {c : BitVec 2} {x : Swz} (h : Swz.ofCode c = some x) : x.code = c := by
  apply BitVec.eq_of_toNat_eq
  unfold Swz.ofCode at h
  split at h <;> cases h <;> simp_all [Swz.code]

theorem SigKind_code_ofCode {c : BitVec 32} {x : SigKind} (h : SigKind.ofCode c = some x) : x.code = c := by
  apply BitVec.eq_of_toNat_eq
  unfold SigKind.ofCode at h
  split at h <;> cases h <;> simp_all [SigKind.code]

/-! A packed word has the format of its opcode, and its fields read as the instruction -/

/-- The word of an instruction reads back field by field. -/
def Reads (w : BitVec 64) (i : Instr) : Prop := ∃ f, formatOf (opcodeOf w) = some f ∧ decodeFields w f = .ok i

theorem reads_packA {r : RawA} {i : Instr} (hf : formatOf r.op.toNat = some .A) (h : decodeA r = .ok i) :
    Reads (packA r) i :=
  ⟨.A, by rw [opcodeOf_packA, hf], by simp only [decodeFields, unpack_packA, h]⟩

theorem reads_packI {r : RawI} {i : Instr} (hf : formatOf r.op.toNat = some .I) (h : decodeI r = .ok i) :
    Reads (packI r) i :=
  ⟨.I, by rw [opcodeOf_packI, hf], by simp only [decodeFields, unpack_packI, h]⟩

theorem reads_packM {r : RawM} {i : Instr} (hf : formatOf r.op.toNat = some .M) (h : decodeM r = .ok i) :
    Reads (packM r) i :=
  ⟨.M, by rw [opcodeOf_packM, hf], by simp only [decodeFields, unpack_packM, h]⟩

theorem reads_packT {r : RawT} {i : Instr} (hf : formatOf r.op.toNat = some .T) (h : decodeT r = .ok i) :
    Reads (packT r) i :=
  ⟨.T, by rw [opcodeOf_packT, hf], by simp only [decodeFields, unpack_packT, h]⟩

theorem reads_packE {r : RawE} {i : Instr} (hf : formatOf r.op.toNat = some .E) (h : decodeE r = .ok i) :
    Reads (packE r) i :=
  ⟨.E, by rw [opcodeOf_packE, hf], by simp only [decodeFields, unpack_packE, h]⟩

theorem reads_packX {r : RawX} {i : Instr} (hf : formatOf r.op.toNat = some .X) (h : decodeX r = .ok i) :
    Reads (packX r) i :=
  ⟨.X, by rw [opcodeOf_packX, hf], by simp only [decodeFields, unpack_packX, h]⟩

theorem reads_packS {r : RawS} {i : Instr} (hf : formatOf r.op.toNat = some .S) (h : decodeS r = .ok i) :
    Reads (packS r) i :=
  ⟨.S, by rw [opcodeOf_packS, hf], by simp only [decodeFields, unpack_packS, h]⟩

theorem reads_packB {r : RawI} {i : Instr} (hf : formatOf r.op.toNat = some .B) (h : decodeB r = .ok i) :
    Reads (packI r) i :=
  ⟨.B, by rw [opcodeOf_packI, hf], by simp only [decodeFields, unpack_packI, h]⟩


@[simp] theorem hintOf_code (x : Hint) : hintOf x.code = x := by cases x <;> rfl

@[simp] theorem FMod_ofByte_byte (m : FMod) : FMod.ofByte m.byte = some m := by
  obtain ⟨t, rm, na, nc, ftz⟩ := m
  cases t <;> cases rm <;> cases na <;> cases nc <;> cases ftz <;> decide

/-! Fields that are composed of smaller ones -/

@[simp] theorem sByte_high (s : Bool) : (sByte s).extractLsb' 1 7 = 0 := by cases s <;> rfl
@[simp] theorem sByte_bit (s : Bool) : (sByte s)[0] = s := by cases s <;> rfl
@[simp] theorem rmOv_byte (rm : Rm) (ov : Ov) (k : Rm → Ov → Except DecodeError Instr) : rmOv (rmOvByte rm ov) k = k rm ov := by
  cases rm <;> cases ov <;> rfl
@[simp] theorem typeOnly_byte (t : FType) (na : Bool) (k : FType → Bool → Except DecodeError Instr) :
    typeOnly (t.byte na) k = k t na := by
  cases t <;> cases na <;> rfl

theorem cmdOf_mode (r : RawE) (o : CmdF) (k : CmdF → Except DecodeError Instr) (h : r.mode = o.mode) (ha : r.a = o.a) (hi : r.id = o.id)
    (hb : r.b = 0) (hc : r.c = 0) : cmdOf r k = k o := by
  simp only [cmdOf, h, ha, hi, hb, hc, CmdF.mode]
  simp (disch := omega) only [extract_append_high, extract_append_low, bit_append_high, bit_append_low]
  simp [codeOr]

theorem mulOf_imm (r : RawX) (o : MulF) (k : MulF → Instr) (h : r.imm = o.imm) (ha : r.fa = o.fa.code) (hb : r.fb = o.fb.code)
    (hi : r.id = o.id) (hma : r.ma = o.ma) (hmb : r.mb = o.mb) : mulOf r k = .ok (k o) := by
  simp only [mulOf, h, ha, hb, hi, hma, hmb, MulF.imm, Fmt_ofCode_code, codeOr, fixedZero]
  simp (disch := omega) only [extract_append_high, extract_append_low, bit_append_high, extract_whole]
  simp

@[simp] theorem growImm_swz (k : BitVec 22) (z : Bool) : (growImm k z)[0] = z := by
  rw [← BitVec.getLsbD_eq_getElem]
  unfold growImm
  simp (disch := omega) only [bit_append_low]
  simp
@[simp] theorem growImm_zero (k : BitVec 22) (z : Bool) : (growImm k z).extractLsb' 1 9 = 0 := by
  unfold growImm
  simp (disch := omega) only [extract_append_high, extract_append_low]
  simp
@[simp] theorem growImm_bytes (k : BitVec 22) (z : Bool) : (growImm k z).extractLsb' 10 22 = k := by
  unfold growImm
  simp (disch := omega) only [extract_append_high]
  simp
@[simp] theorem growImm_low (k : BitVec 22) : (growImm k false).extractLsb' 0 10 = 0 := by
  apply BitVec.eq_of_getLsbD_eq
  intro i hi
  simp only [growImm, BitVec.getLsbD_extractLsb', hi, decide_true, Bool.true_and, BitVec.getLsbD_append]
  split <;> [simp; (rw [if_pos (by omega)]; simp)]

@[simp] theorem slotImm_high (f : Bool) (k : BitVec 6) : (slotImm f k).extractLsb' 7 9 = 0 := by
  unfold slotImm
  simp (disch := omega) only [extract_append_high]
  simp
@[simp] theorem slotImm_frame (f : Bool) (k : BitVec 6) : (slotImm f k)[6] = f := by
  rw [← BitVec.getLsbD_eq_getElem]
  unfold slotImm
  simp (disch := omega) only [bit_append_high, bit_append_low]
  simp
@[simp] theorem slotImm_slot (f : Bool) (k : BitVec 6) : (slotImm f k).extractLsb' 0 6 = k := by
  unfold slotImm
  simp (disch := omega) only [extract_append_low]
  simp

end Sys2Proof.Laws
end

