-- ==== Sys2Proof/Laws/Tbl.lean ====
section
/-! SUPPORT. Reading a table after a write, and the canonical form that every write keeps. -/

namespace Sys2Proof.Laws

open Sys2Proof Sys2Proof.Machine

variable {α : Type}

@[simp] theorem Tbl_get_nil (d : α) (k : Nat) : Tbl.get d [] k = d := rfl

theorem Tbl_get_cons (d : α) (k k' : Nat) (v : α) (t : Tbl α) :
    Tbl.get d ((k', v) :: t) k = if k' = k then v else Tbl.get d t k := rfl

theorem Tbl_get_del_same (d : α) (t : Tbl α) (k : Nat) : Tbl.get d (Tbl.del t k) k = d := by
  induction t with
  | nil => rfl
  | cons e t ih =>
    obtain ⟨k', v⟩ := e
    by_cases h : k' = k <;> simp [Tbl.del, h, ih, Tbl.get]

theorem Tbl_get_del_other (d : α) (t : Tbl α) {j k : Nat} (h : j ≠ k) : Tbl.get d (Tbl.del t k) j = Tbl.get d t j := by
  induction t with
  | nil => rfl
  | cons e t ih =>
    obtain ⟨k', v⟩ := e
    by_cases hk : k' = k
    · subst hk
      simp [Tbl.del, ih, Tbl.get, h.symm]
    · simp [Tbl.del, hk, Tbl.get, ih]

theorem Tbl_get_insert_other (d : α) (t : Tbl α) {j k : Nat} (v : α) (h : j ≠ k) :
    Tbl.get d (Tbl.insert t k v) j = Tbl.get d t j := by
  induction t with
  | nil => simp [Tbl.insert, Tbl.get, h.symm]
  | cons e t ih =>
    obtain ⟨k', v'⟩ := e
    by_cases hk : k < k' <;> simp [Tbl.insert, hk, Tbl.get, ih, h.symm]

theorem Tbl_get_insert_del (d : α) (t : Tbl α) (k : Nat) (v : α) : Tbl.get d (Tbl.insert (Tbl.del t k) k v) k = v := by
  induction t with
  | nil => simp [Tbl.del, Tbl.insert, Tbl.get]
  | cons e t ih =>
    obtain ⟨k', v'⟩ := e
    by_cases h : k' = k
    · simpa [Tbl.del, h] using ih
    · by_cases hk : k < k' <;> simp [Tbl.del, h, Tbl.insert, hk, Tbl.get, ih]

theorem Tbl_del_insert (t : Tbl α) (k : Nat) (v : α) : Tbl.del (Tbl.insert t k v) k = Tbl.del t k := by
  induction t with
  | nil => simp [Tbl.insert, Tbl.del]
  | cons e t ih =>
    obtain ⟨k', v'⟩ := e
    by_cases hk : k < k' <;> simp [Tbl.insert, hk, Tbl.del, ih]

theorem Tbl_del_del (t : Tbl α) (k : Nat) : Tbl.del (Tbl.del t k) k = Tbl.del t k := by
  induction t with
  | nil => rfl
  | cons e t ih =>
    obtain ⟨k', v'⟩ := e
    by_cases h : k' = k <;> simp [Tbl.del, h, ih]

variable [DecidableEq α]

/-- A read after a write to the same key gives the value written. -/
@[simp] theorem Tbl_get_set_same (d : α) (t : Tbl α) (k : Nat) (v : α) : Tbl.get d (Tbl.set d t k v) k = v := by
  unfold Tbl.set
  split
  · rename_i h
    rw [Tbl_get_del_same, h]
  · exact Tbl_get_insert_del d t k v

/-- A write leaves every other key alone. -/
theorem Tbl_get_set_other (d : α) (t : Tbl α) {j k : Nat} (v : α) (h : j ≠ k) : Tbl.get d (Tbl.set d t k v) j = Tbl.get d t j := by
  unfold Tbl.set
  split
  · exact Tbl_get_del_other d t h
  · rw [Tbl_get_insert_other d _ v h, Tbl_get_del_other d t h]

theorem Tbl_get_set (d : α) (t : Tbl α) (j k : Nat) (v : α) :
    Tbl.get d (Tbl.set d t k v) j = if j = k then v else Tbl.get d t j := by
  split
  · rename_i h
    rw [h, Tbl_get_set_same]
  · rename_i h
    exact Tbl_get_set_other d t v h

/-- The later of two writes to a key stands. -/
@[simp] theorem Tbl_set_set (d : α) (t : Tbl α) (k : Nat) (v w : α) : Tbl.set d (Tbl.set d t k v) k w = Tbl.set d t k w := by
  unfold Tbl.set
  split <;> split <;> simp [Tbl_del_insert, Tbl_del_del]

/-- A list written at rising keys reads back, and leaves every other key alone. -/
theorem Tbl_get_setList (d : α) (vs : List α) (t : Tbl α) (j k : Nat) :
    Tbl.get d (Tbl.setList d t k vs) j = if k ≤ j ∧ j < k + vs.length then (vs[j - k]?).getD d else Tbl.get d t j := by
  induction vs generalizing t k with
  | nil => simp [Tbl.setList]
  | cons v vs ih =>
    rw [Tbl.setList, ih, Tbl_get_set]
    simp only [List.length_cons]
    by_cases h1 : j = k
    · subst h1
      rw [if_neg (by omega), if_pos rfl, if_pos (by omega)]
      simp
    · rw [if_neg h1]
      by_cases h2 : k + 1 ≤ j ∧ j < k + 1 + vs.length
      · rw [if_pos h2, if_pos (by omega), show j - k = (j - (k + 1)) + 1 by omega]
        simp
      · rw [if_neg h2, if_neg (by omega)]

/-! The canonical form -/

theorem Tbl_wfFrom_mono (d : α) (t : Tbl α) {lo hi : Nat} (h : lo ≤ hi) (w : Tbl.wfFrom d hi t = true) : Tbl.wfFrom d lo t = true := by
  cases t with
  | nil => rfl
  | cons e t =>
    obtain ⟨k, v⟩ := e
    simp only [Tbl.wfFrom, Bool.and_eq_true, decide_eq_true_eq] at w ⊢
    exact ⟨⟨by omega, w.1.2⟩, w.2⟩

theorem Tbl_wfFrom_del (d : α) (t : Tbl α) (k lo : Nat) (w : Tbl.wfFrom d lo t = true) : Tbl.wfFrom d lo (Tbl.del t k) = true := by
  induction t generalizing lo with
  | nil => rfl
  | cons e t ih =>
    obtain ⟨k', v⟩ := e
    simp only [Tbl.wfFrom, Bool.and_eq_true, decide_eq_true_eq] at w
    unfold Tbl.del
    split
    · exact ih _ (Tbl_wfFrom_mono d t (by omega) w.2)
    · simp only [Tbl.wfFrom, Bool.and_eq_true, decide_eq_true_eq]
      exact ⟨w.1, ih _ w.2⟩

theorem Tbl_wfFrom_insert (d : α) (t : Tbl α) (k lo : Nat) (v : α) (hv : v ≠ d) (hk : lo ≤ k) (hn : Tbl.del t k = t)
    (w : Tbl.wfFrom d lo t = true) : Tbl.wfFrom d lo (Tbl.insert t k v) = true := by
  induction t generalizing lo with
  | nil => simp [Tbl.insert, Tbl.wfFrom, hv, hk]
  | cons e t ih =>
    obtain ⟨k', v'⟩ := e
    simp only [Tbl.wfFrom, Bool.and_eq_true, decide_eq_true_eq] at w
    have hne : k' ≠ k := by
      intro h
      have h2 := congrArg List.length hn
      have h3 : ∀ u : Tbl α, (Tbl.del u k).length ≤ u.length := by
        intro u
        induction u with
        | nil => simp [Tbl.del]
        | cons x u iu =>
          unfold Tbl.del
          split
          · exact Nat.le_succ_of_le iu
          · exact Nat.succ_le_succ iu
      simp only [Tbl.del, h, if_true, List.length_cons] at h2
      have := h3 t
      omega
    simp only [Tbl.del, hne, if_false, List.cons.injEq, true_and] at hn
    unfold Tbl.insert
    split
    · simp only [Tbl.wfFrom, Bool.and_eq_true, decide_eq_true_eq]
      exact ⟨⟨hk, hv⟩, ⟨by omega, w.1.2⟩, w.2⟩
    · simp only [Tbl.wfFrom, Bool.and_eq_true, decide_eq_true_eq]
      exact ⟨w.1, ih _ (by omega) hn w.2⟩

theorem Tbl_wf_set (d : α) (t : Tbl α) (k : Nat) (v : α) (w : Tbl.wf d t = true) : Tbl.wf d (Tbl.set d t k v) = true := by
  unfold Tbl.wf Tbl.set at *
  split
  · exact Tbl_wfFrom_del d t k 0 w
  · rename_i h
    exact Tbl_wfFrom_insert d _ k 0 v h (Nat.zero_le k) (Tbl_del_del t k) (Tbl_wfFrom_del d t k 0 w)

theorem Tbl_wf_setList (d : α) (vs : List α) (t : Tbl α) (k : Nat) (w : Tbl.wf d t = true) : Tbl.wf d (Tbl.setList d t k vs) = true := by
  induction vs generalizing t k with
  | nil => exact w
  | cons v vs ih => exact ih _ _ (Tbl_wf_set d t k v w)

@[simp] theorem Tbl_wf_nil (d : α) : Tbl.wf d ([] : Tbl α) = true := rfl

end Sys2Proof.Laws
end

