-- ==== Sys2Proof/Laws/State.lean ====
section
/-! SUPPORT. What each update of the state leaves alone, field by field, and what it puts where. -/

namespace Sys2Proof.Laws

open Sys2Proof Sys2Proof.Machine


/-! Fields: updates of one field -/

@[simp] theorem tick_regs (s : State) : (s.tick).regs = s.regs := rfl
@[simp] theorem tick_mem (s : State) : (s.tick).mem = s.mem := rfl
@[simp] theorem tick_cores (s : State) : (s.tick).cores = s.cores := rfl
@[simp] theorem tick_clusters (s : State) : (s.tick).clusters = s.clusters := rfl
@[simp] theorem tick_die0 (s : State) : (s.tick).die0 = s.die0 := rfl
@[simp] theorem tick_die1 (s : State) : (s.tick).die1 = s.die1 := rfl
@[simp] theorem tick_regions (s : State) : (s.tick).regions = s.regions := rfl
@[simp] theorem tick_queues (s : State) : (s.tick).queues = s.queues := rfl
@[simp] theorem tick_cards (s : State) : (s.tick).cards = s.cards := rfl
@[simp] theorem tick_saved (s : State) : (s.tick).saved = s.saved := rfl
@[simp] theorem tick_resets (s : State) : (s.tick).resets = s.resets := rfl
@[simp] theorem tick_loan (s : State) : (s.tick).loan = s.loan := rfl
@[simp] theorem tick_host (s : State) : (s.tick).host = s.host := rfl
@[simp] theorem tick_tref (s : State) : (s.tick).tref = s.tref := rfl
@[simp] theorem tick_power (s : State) : (s.tick).power = s.power := rfl
@[simp] theorem tick_seq (s : State) : (s.tick).seq = s.seq := rfl
@[simp] theorem tick_cur (s : State) : (s.tick).cur = s.cur := rfl
@[simp] theorem tick_turn (s : State) : (s.tick).turn = s.turn := rfl
@[simp] theorem tick_agenda (s : State) : (s.tick).agenda = s.agenda := rfl
@[simp] theorem tick_fresh (s : State) : s.tick.fresh = s.fresh + 1 := rfl
@[simp] theorem setCore_regs (s : State) (c : Nat) (k : Core) : (s.setCore c k).regs = s.regs := rfl
@[simp] theorem setCore_mem (s : State) (c : Nat) (k : Core) : (s.setCore c k).mem = s.mem := rfl
@[simp] theorem setCore_clusters (s : State) (c : Nat) (k : Core) : (s.setCore c k).clusters = s.clusters := rfl
@[simp] theorem setCore_die0 (s : State) (c : Nat) (k : Core) : (s.setCore c k).die0 = s.die0 := rfl
@[simp] theorem setCore_die1 (s : State) (c : Nat) (k : Core) : (s.setCore c k).die1 = s.die1 := rfl
@[simp] theorem setCore_regions (s : State) (c : Nat) (k : Core) : (s.setCore c k).regions = s.regions := rfl
@[simp] theorem setCore_queues (s : State) (c : Nat) (k : Core) : (s.setCore c k).queues = s.queues := rfl
@[simp] theorem setCore_cards (s : State) (c : Nat) (k : Core) : (s.setCore c k).cards = s.cards := rfl
@[simp] theorem setCore_saved (s : State) (c : Nat) (k : Core) : (s.setCore c k).saved = s.saved := rfl
@[simp] theorem setCore_resets (s : State) (c : Nat) (k : Core) : (s.setCore c k).resets = s.resets := rfl
@[simp] theorem setCore_loan (s : State) (c : Nat) (k : Core) : (s.setCore c k).loan = s.loan := rfl
@[simp] theorem setCore_host (s : State) (c : Nat) (k : Core) : (s.setCore c k).host = s.host := rfl
@[simp] theorem setCore_tref (s : State) (c : Nat) (k : Core) : (s.setCore c k).tref = s.tref := rfl
@[simp] theorem setCore_power (s : State) (c : Nat) (k : Core) : (s.setCore c k).power = s.power := rfl
@[simp] theorem setCore_seq (s : State) (c : Nat) (k : Core) : (s.setCore c k).seq = s.seq := rfl
@[simp] theorem setCore_fresh (s : State) (c : Nat) (k : Core) : (s.setCore c k).fresh = s.fresh := rfl
@[simp] theorem setCore_cur (s : State) (c : Nat) (k : Core) : (s.setCore c k).cur = s.cur := rfl
@[simp] theorem setCore_turn (s : State) (c : Nat) (k : Core) : (s.setCore c k).turn = s.turn := rfl
@[simp] theorem setCore_agenda (s : State) (c : Nat) (k : Core) : (s.setCore c k).agenda = s.agenda := rfl
@[simp] theorem setCluster_regs (s : State) (c : Nat) (k : Cluster) : (s.setCluster c k).regs = s.regs := rfl
@[simp] theorem setCluster_mem (s : State) (c : Nat) (k : Cluster) : (s.setCluster c k).mem = s.mem := rfl
@[simp] theorem setCluster_cores (s : State) (c : Nat) (k : Cluster) : (s.setCluster c k).cores = s.cores := rfl
@[simp] theorem setCluster_die0 (s : State) (c : Nat) (k : Cluster) : (s.setCluster c k).die0 = s.die0 := rfl
@[simp] theorem setCluster_die1 (s : State) (c : Nat) (k : Cluster) : (s.setCluster c k).die1 = s.die1 := rfl
@[simp] theorem setCluster_regions (s : State) (c : Nat) (k : Cluster) : (s.setCluster c k).regions = s.regions := rfl
@[simp] theorem setCluster_queues (s : State) (c : Nat) (k : Cluster) : (s.setCluster c k).queues = s.queues := rfl
@[simp] theorem setCluster_cards (s : State) (c : Nat) (k : Cluster) : (s.setCluster c k).cards = s.cards := rfl
@[simp] theorem setCluster_saved (s : State) (c : Nat) (k : Cluster) : (s.setCluster c k).saved = s.saved := rfl
@[simp] theorem setCluster_resets (s : State) (c : Nat) (k : Cluster) : (s.setCluster c k).resets = s.resets := rfl
@[simp] theorem setCluster_loan (s : State) (c : Nat) (k : Cluster) : (s.setCluster c k).loan = s.loan := rfl
@[simp] theorem setCluster_host (s : State) (c : Nat) (k : Cluster) : (s.setCluster c k).host = s.host := rfl
@[simp] theorem setCluster_tref (s : State) (c : Nat) (k : Cluster) : (s.setCluster c k).tref = s.tref := rfl
@[simp] theorem setCluster_power (s : State) (c : Nat) (k : Cluster) : (s.setCluster c k).power = s.power := rfl
@[simp] theorem setCluster_seq (s : State) (c : Nat) (k : Cluster) : (s.setCluster c k).seq = s.seq := rfl
@[simp] theorem setCluster_fresh (s : State) (c : Nat) (k : Cluster) : (s.setCluster c k).fresh = s.fresh := rfl
@[simp] theorem setCluster_cur (s : State) (c : Nat) (k : Cluster) : (s.setCluster c k).cur = s.cur := rfl
@[simp] theorem setCluster_turn (s : State) (c : Nat) (k : Cluster) : (s.setCluster c k).turn = s.turn := rfl
@[simp] theorem setCluster_agenda (s : State) (c : Nat) (k : Cluster) : (s.setCluster c k).agenda = s.agenda := rfl
@[simp] theorem setRegion_regs (s : State) (c : Nat) (k : Region) : (s.setRegion c k).regs = s.regs := rfl
@[simp] theorem setRegion_mem (s : State) (c : Nat) (k : Region) : (s.setRegion c k).mem = s.mem := rfl
@[simp] theorem setRegion_cores (s : State) (c : Nat) (k : Region) : (s.setRegion c k).cores = s.cores := rfl
@[simp] theorem setRegion_clusters (s : State) (c : Nat) (k : Region) : (s.setRegion c k).clusters = s.clusters := rfl
@[simp] theorem setRegion_die0 (s : State) (c : Nat) (k : Region) : (s.setRegion c k).die0 = s.die0 := rfl
@[simp] theorem setRegion_die1 (s : State) (c : Nat) (k : Region) : (s.setRegion c k).die1 = s.die1 := rfl
@[simp] theorem setRegion_queues (s : State) (c : Nat) (k : Region) : (s.setRegion c k).queues = s.queues := rfl
@[simp] theorem setRegion_cards (s : State) (c : Nat) (k : Region) : (s.setRegion c k).cards = s.cards := rfl
@[simp] theorem setRegion_saved (s : State) (c : Nat) (k : Region) : (s.setRegion c k).saved = s.saved := rfl
@[simp] theorem setRegion_resets (s : State) (c : Nat) (k : Region) : (s.setRegion c k).resets = s.resets := rfl
@[simp] theorem setRegion_loan (s : State) (c : Nat) (k : Region) : (s.setRegion c k).loan = s.loan := rfl
@[simp] theorem setRegion_host (s : State) (c : Nat) (k : Region) : (s.setRegion c k).host = s.host := rfl
@[simp] theorem setRegion_tref (s : State) (c : Nat) (k : Region) : (s.setRegion c k).tref = s.tref := rfl
@[simp] theorem setRegion_power (s : State) (c : Nat) (k : Region) : (s.setRegion c k).power = s.power := rfl
@[simp] theorem setRegion_seq (s : State) (c : Nat) (k : Region) : (s.setRegion c k).seq = s.seq := rfl
@[simp] theorem setRegion_fresh (s : State) (c : Nat) (k : Region) : (s.setRegion c k).fresh = s.fresh := rfl
@[simp] theorem setRegion_cur (s : State) (c : Nat) (k : Region) : (s.setRegion c k).cur = s.cur := rfl
@[simp] theorem setRegion_turn (s : State) (c : Nat) (k : Region) : (s.setRegion c k).turn = s.turn := rfl
@[simp] theorem setRegion_agenda (s : State) (c : Nat) (k : Region) : (s.setRegion c k).agenda = s.agenda := rfl
@[simp] theorem setQueue_regs (s : State) (c : Nat) (k : Queue) : (s.setQueue c k).regs = s.regs := rfl
@[simp] theorem setQueue_mem (s : State) (c : Nat) (k : Queue) : (s.setQueue c k).mem = s.mem := rfl
@[simp] theorem setQueue_cores (s : State) (c : Nat) (k : Queue) : (s.setQueue c k).cores = s.cores := rfl
@[simp] theorem setQueue_clusters (s : State) (c : Nat) (k : Queue) : (s.setQueue c k).clusters = s.clusters := rfl
@[simp] theorem setQueue_die0 (s : State) (c : Nat) (k : Queue) : (s.setQueue c k).die0 = s.die0 := rfl
@[simp] theorem setQueue_die1 (s : State) (c : Nat) (k : Queue) : (s.setQueue c k).die1 = s.die1 := rfl
@[simp] theorem setQueue_regions (s : State) (c : Nat) (k : Queue) : (s.setQueue c k).regions = s.regions := rfl
@[simp] theorem setQueue_cards (s : State) (c : Nat) (k : Queue) : (s.setQueue c k).cards = s.cards := rfl
@[simp] theorem setQueue_saved (s : State) (c : Nat) (k : Queue) : (s.setQueue c k).saved = s.saved := rfl
@[simp] theorem setQueue_resets (s : State) (c : Nat) (k : Queue) : (s.setQueue c k).resets = s.resets := rfl
@[simp] theorem setQueue_loan (s : State) (c : Nat) (k : Queue) : (s.setQueue c k).loan = s.loan := rfl
@[simp] theorem setQueue_host (s : State) (c : Nat) (k : Queue) : (s.setQueue c k).host = s.host := rfl
@[simp] theorem setQueue_tref (s : State) (c : Nat) (k : Queue) : (s.setQueue c k).tref = s.tref := rfl
@[simp] theorem setQueue_power (s : State) (c : Nat) (k : Queue) : (s.setQueue c k).power = s.power := rfl
@[simp] theorem setQueue_seq (s : State) (c : Nat) (k : Queue) : (s.setQueue c k).seq = s.seq := rfl
@[simp] theorem setQueue_fresh (s : State) (c : Nat) (k : Queue) : (s.setQueue c k).fresh = s.fresh := rfl
@[simp] theorem setQueue_cur (s : State) (c : Nat) (k : Queue) : (s.setQueue c k).cur = s.cur := rfl
@[simp] theorem setQueue_turn (s : State) (c : Nat) (k : Queue) : (s.setQueue c k).turn = s.turn := rfl
@[simp] theorem setQueue_agenda (s : State) (c : Nat) (k : Queue) : (s.setQueue c k).agenda = s.agenda := rfl
@[simp] theorem setRun_regs (s : State) (c : Nat) (k : Option CardRun) : (s.setRun c k).regs = s.regs := rfl
@[simp] theorem setRun_mem (s : State) (c : Nat) (k : Option CardRun) : (s.setRun c k).mem = s.mem := rfl
@[simp] theorem setRun_cores (s : State) (c : Nat) (k : Option CardRun) : (s.setRun c k).cores = s.cores := rfl
@[simp] theorem setRun_clusters (s : State) (c : Nat) (k : Option CardRun) : (s.setRun c k).clusters = s.clusters := rfl
@[simp] theorem setRun_die0 (s : State) (c : Nat) (k : Option CardRun) : (s.setRun c k).die0 = s.die0 := rfl
@[simp] theorem setRun_die1 (s : State) (c : Nat) (k : Option CardRun) : (s.setRun c k).die1 = s.die1 := rfl
@[simp] theorem setRun_regions (s : State) (c : Nat) (k : Option CardRun) : (s.setRun c k).regions = s.regions := rfl
@[simp] theorem setRun_queues (s : State) (c : Nat) (k : Option CardRun) : (s.setRun c k).queues = s.queues := rfl
@[simp] theorem setRun_saved (s : State) (c : Nat) (k : Option CardRun) : (s.setRun c k).saved = s.saved := rfl
@[simp] theorem setRun_resets (s : State) (c : Nat) (k : Option CardRun) : (s.setRun c k).resets = s.resets := rfl
@[simp] theorem setRun_loan (s : State) (c : Nat) (k : Option CardRun) : (s.setRun c k).loan = s.loan := rfl
@[simp] theorem setRun_host (s : State) (c : Nat) (k : Option CardRun) : (s.setRun c k).host = s.host := rfl
@[simp] theorem setRun_tref (s : State) (c : Nat) (k : Option CardRun) : (s.setRun c k).tref = s.tref := rfl
@[simp] theorem setRun_power (s : State) (c : Nat) (k : Option CardRun) : (s.setRun c k).power = s.power := rfl
@[simp] theorem setRun_seq (s : State) (c : Nat) (k : Option CardRun) : (s.setRun c k).seq = s.seq := rfl
@[simp] theorem setRun_fresh (s : State) (c : Nat) (k : Option CardRun) : (s.setRun c k).fresh = s.fresh := rfl
@[simp] theorem setRun_cur (s : State) (c : Nat) (k : Option CardRun) : (s.setRun c k).cur = s.cur := rfl
@[simp] theorem setRun_turn (s : State) (c : Nat) (k : Option CardRun) : (s.setRun c k).turn = s.turn := rfl
@[simp] theorem setRun_agenda (s : State) (c : Nat) (k : Option CardRun) : (s.setRun c k).agenda = s.agenda := rfl
@[simp] theorem updCore_regs (s : State) (c : Nat) (f : Core → Core) : (s.updCore c f).regs = s.regs := rfl
@[simp] theorem updCore_mem (s : State) (c : Nat) (f : Core → Core) : (s.updCore c f).mem = s.mem := rfl
@[simp] theorem updCore_clusters (s : State) (c : Nat) (f : Core → Core) : (s.updCore c f).clusters = s.clusters := rfl
@[simp] theorem updCore_die0 (s : State) (c : Nat) (f : Core → Core) : (s.updCore c f).die0 = s.die0 := rfl
@[simp] theorem updCore_die1 (s : State) (c : Nat) (f : Core → Core) : (s.updCore c f).die1 = s.die1 := rfl
@[simp] theorem updCore_regions (s : State) (c : Nat) (f : Core → Core) : (s.updCore c f).regions = s.regions := rfl
@[simp] theorem updCore_queues (s : State) (c : Nat) (f : Core → Core) : (s.updCore c f).queues = s.queues := rfl
@[simp] theorem updCore_cards (s : State) (c : Nat) (f : Core → Core) : (s.updCore c f).cards = s.cards := rfl
@[simp] theorem updCore_saved (s : State) (c : Nat) (f : Core → Core) : (s.updCore c f).saved = s.saved := rfl
@[simp] theorem updCore_resets (s : State) (c : Nat) (f : Core → Core) : (s.updCore c f).resets = s.resets := rfl
@[simp] theorem updCore_loan (s : State) (c : Nat) (f : Core → Core) : (s.updCore c f).loan = s.loan := rfl
@[simp] theorem updCore_host (s : State) (c : Nat) (f : Core → Core) : (s.updCore c f).host = s.host := rfl
@[simp] theorem updCore_tref (s : State) (c : Nat) (f : Core → Core) : (s.updCore c f).tref = s.tref := rfl
@[simp] theorem updCore_power (s : State) (c : Nat) (f : Core → Core) : (s.updCore c f).power = s.power := rfl
@[simp] theorem updCore_seq (s : State) (c : Nat) (f : Core → Core) : (s.updCore c f).seq = s.seq := rfl
@[simp] theorem updCore_fresh (s : State) (c : Nat) (f : Core → Core) : (s.updCore c f).fresh = s.fresh := rfl
@[simp] theorem updCore_cur (s : State) (c : Nat) (f : Core → Core) : (s.updCore c f).cur = s.cur := rfl
@[simp] theorem updCore_turn (s : State) (c : Nat) (f : Core → Core) : (s.updCore c f).turn = s.turn := rfl
@[simp] theorem updCore_agenda (s : State) (c : Nat) (f : Core → Core) : (s.updCore c f).agenda = s.agenda := rfl
@[simp] theorem setDie_regs (s : State) (d : Nat) (x : Die) : (s.setDie d x).regs = s.regs := by unfold State.setDie; split <;> rfl
@[simp] theorem setDie_mem (s : State) (d : Nat) (x : Die) : (s.setDie d x).mem = s.mem := by unfold State.setDie; split <;> rfl
@[simp] theorem setDie_cores (s : State) (d : Nat) (x : Die) : (s.setDie d x).cores = s.cores := by unfold State.setDie; split <;> rfl
@[simp] theorem setDie_clusters (s : State) (d : Nat) (x : Die) : (s.setDie d x).clusters = s.clusters := by unfold State.setDie; split <;> rfl
@[simp] theorem setDie_regions (s : State) (d : Nat) (x : Die) : (s.setDie d x).regions = s.regions := by unfold State.setDie; split <;> rfl
@[simp] theorem setDie_queues (s : State) (d : Nat) (x : Die) : (s.setDie d x).queues = s.queues := by unfold State.setDie; split <;> rfl
@[simp] theorem setDie_cards (s : State) (d : Nat) (x : Die) : (s.setDie d x).cards = s.cards := by unfold State.setDie; split <;> rfl
@[simp] theorem setDie_saved (s : State) (d : Nat) (x : Die) : (s.setDie d x).saved = s.saved := by unfold State.setDie; split <;> rfl
@[simp] theorem setDie_resets (s : State) (d : Nat) (x : Die) : (s.setDie d x).resets = s.resets := by unfold State.setDie; split <;> rfl
@[simp] theorem setDie_loan (s : State) (d : Nat) (x : Die) : (s.setDie d x).loan = s.loan := by unfold State.setDie; split <;> rfl
@[simp] theorem setDie_host (s : State) (d : Nat) (x : Die) : (s.setDie d x).host = s.host := by unfold State.setDie; split <;> rfl
@[simp] theorem setDie_tref (s : State) (d : Nat) (x : Die) : (s.setDie d x).tref = s.tref := by unfold State.setDie; split <;> rfl
@[simp] theorem setDie_power (s : State) (d : Nat) (x : Die) : (s.setDie d x).power = s.power := by unfold State.setDie; split <;> rfl
@[simp] theorem setDie_seq (s : State) (d : Nat) (x : Die) : (s.setDie d x).seq = s.seq := by unfold State.setDie; split <;> rfl
@[simp] theorem setDie_fresh (s : State) (d : Nat) (x : Die) : (s.setDie d x).fresh = s.fresh := by unfold State.setDie; split <;> rfl
@[simp] theorem setDie_cur (s : State) (d : Nat) (x : Die) : (s.setDie d x).cur = s.cur := by unfold State.setDie; split <;> rfl
@[simp] theorem setDie_turn (s : State) (d : Nat) (x : Die) : (s.setDie d x).turn = s.turn := by unfold State.setDie; split <;> rfl
@[simp] theorem setDie_agenda (s : State) (d : Nat) (x : Die) : (s.setDie d x).agenda = s.agenda := by unfold State.setDie; split <;> rfl

/-! Fields: updates of a core -/

@[simp] theorem setWarp_regs (s : State) (w : Who) (x : Option Warp) : (s.setWarp w x).regs = s.regs := by unfold State.setWarp; split <;> rfl
@[simp] theorem setWarp_mem (s : State) (w : Who) (x : Option Warp) : (s.setWarp w x).mem = s.mem := by unfold State.setWarp; split <;> rfl
@[simp] theorem setWarp_clusters (s : State) (w : Who) (x : Option Warp) : (s.setWarp w x).clusters = s.clusters := by unfold State.setWarp; split <;> rfl
@[simp] theorem setWarp_die0 (s : State) (w : Who) (x : Option Warp) : (s.setWarp w x).die0 = s.die0 := by unfold State.setWarp; split <;> rfl
@[simp] theorem setWarp_die1 (s : State) (w : Who) (x : Option Warp) : (s.setWarp w x).die1 = s.die1 := by unfold State.setWarp; split <;> rfl
@[simp] theorem setWarp_regions (s : State) (w : Who) (x : Option Warp) : (s.setWarp w x).regions = s.regions := by unfold State.setWarp; split <;> rfl
@[simp] theorem setWarp_queues (s : State) (w : Who) (x : Option Warp) : (s.setWarp w x).queues = s.queues := by unfold State.setWarp; split <;> rfl
@[simp] theorem setWarp_cards (s : State) (w : Who) (x : Option Warp) : (s.setWarp w x).cards = s.cards := by unfold State.setWarp; split <;> rfl
@[simp] theorem setWarp_saved (s : State) (w : Who) (x : Option Warp) : (s.setWarp w x).saved = s.saved := by unfold State.setWarp; split <;> rfl
@[simp] theorem setWarp_resets (s : State) (w : Who) (x : Option Warp) : (s.setWarp w x).resets = s.resets := by unfold State.setWarp; split <;> rfl
@[simp] theorem setWarp_loan (s : State) (w : Who) (x : Option Warp) : (s.setWarp w x).loan = s.loan := by unfold State.setWarp; split <;> rfl
@[simp] theorem setWarp_host (s : State) (w : Who) (x : Option Warp) : (s.setWarp w x).host = s.host := by unfold State.setWarp; split <;> rfl
@[simp] theorem setWarp_tref (s : State) (w : Who) (x : Option Warp) : (s.setWarp w x).tref = s.tref := by unfold State.setWarp; split <;> rfl
@[simp] theorem setWarp_power (s : State) (w : Who) (x : Option Warp) : (s.setWarp w x).power = s.power := by unfold State.setWarp; split <;> rfl
@[simp] theorem setWarp_seq (s : State) (w : Who) (x : Option Warp) : (s.setWarp w x).seq = s.seq := by unfold State.setWarp; split <;> rfl
@[simp] theorem setWarp_fresh (s : State) (w : Who) (x : Option Warp) : (s.setWarp w x).fresh = s.fresh := by unfold State.setWarp; split <;> rfl
@[simp] theorem setWarp_cur (s : State) (w : Who) (x : Option Warp) : (s.setWarp w x).cur = s.cur := by unfold State.setWarp; split <;> rfl
@[simp] theorem setWarp_turn (s : State) (w : Who) (x : Option Warp) : (s.setWarp w x).turn = s.turn := by unfold State.setWarp; split <;> rfl
@[simp] theorem setWarp_agenda (s : State) (w : Who) (x : Option Warp) : (s.setWarp w x).agenda = s.agenda := by unfold State.setWarp; split <;> rfl
@[simp] theorem updWarp_regs (s : State) (w : Who) (f : Warp → Warp) : (s.updWarp w f).regs = s.regs := by unfold State.updWarp; split <;> simp
@[simp] theorem updWarp_mem (s : State) (w : Who) (f : Warp → Warp) : (s.updWarp w f).mem = s.mem := by unfold State.updWarp; split <;> simp
@[simp] theorem updWarp_clusters (s : State) (w : Who) (f : Warp → Warp) : (s.updWarp w f).clusters = s.clusters := by unfold State.updWarp; split <;> simp
@[simp] theorem updWarp_die0 (s : State) (w : Who) (f : Warp → Warp) : (s.updWarp w f).die0 = s.die0 := by unfold State.updWarp; split <;> simp
@[simp] theorem updWarp_die1 (s : State) (w : Who) (f : Warp → Warp) : (s.updWarp w f).die1 = s.die1 := by unfold State.updWarp; split <;> simp
@[simp] theorem updWarp_regions (s : State) (w : Who) (f : Warp → Warp) : (s.updWarp w f).regions = s.regions := by unfold State.updWarp; split <;> simp
@[simp] theorem updWarp_queues (s : State) (w : Who) (f : Warp → Warp) : (s.updWarp w f).queues = s.queues := by unfold State.updWarp; split <;> simp
@[simp] theorem updWarp_cards (s : State) (w : Who) (f : Warp → Warp) : (s.updWarp w f).cards = s.cards := by unfold State.updWarp; split <;> simp
@[simp] theorem updWarp_saved (s : State) (w : Who) (f : Warp → Warp) : (s.updWarp w f).saved = s.saved := by unfold State.updWarp; split <;> simp
@[simp] theorem updWarp_resets (s : State) (w : Who) (f : Warp → Warp) : (s.updWarp w f).resets = s.resets := by unfold State.updWarp; split <;> simp
@[simp] theorem updWarp_loan (s : State) (w : Who) (f : Warp → Warp) : (s.updWarp w f).loan = s.loan := by unfold State.updWarp; split <;> simp
@[simp] theorem updWarp_host (s : State) (w : Who) (f : Warp → Warp) : (s.updWarp w f).host = s.host := by unfold State.updWarp; split <;> simp
@[simp] theorem updWarp_tref (s : State) (w : Who) (f : Warp → Warp) : (s.updWarp w f).tref = s.tref := by unfold State.updWarp; split <;> simp
@[simp] theorem updWarp_power (s : State) (w : Who) (f : Warp → Warp) : (s.updWarp w f).power = s.power := by unfold State.updWarp; split <;> simp
@[simp] theorem updWarp_seq (s : State) (w : Who) (f : Warp → Warp) : (s.updWarp w f).seq = s.seq := by unfold State.updWarp; split <;> simp
@[simp] theorem updWarp_fresh (s : State) (w : Who) (f : Warp → Warp) : (s.updWarp w f).fresh = s.fresh := by unfold State.updWarp; split <;> simp
@[simp] theorem updWarp_cur (s : State) (w : Who) (f : Warp → Warp) : (s.updWarp w f).cur = s.cur := by unfold State.updWarp; split <;> simp
@[simp] theorem updWarp_turn (s : State) (w : Who) (f : Warp → Warp) : (s.updWarp w f).turn = s.turn := by unfold State.updWarp; split <;> simp
@[simp] theorem updWarp_agenda (s : State) (w : Who) (f : Warp → Warp) : (s.updWarp w f).agenda = s.agenda := by unfold State.updWarp; split <;> simp
@[simp] theorem setBlock_regs (s : State) (c b : Nat) (x : Option Block) : (s.setBlock c b x).regs = s.regs := rfl
@[simp] theorem setBlock_mem (s : State) (c b : Nat) (x : Option Block) : (s.setBlock c b x).mem = s.mem := rfl
@[simp] theorem setBlock_clusters (s : State) (c b : Nat) (x : Option Block) : (s.setBlock c b x).clusters = s.clusters := rfl
@[simp] theorem setBlock_die0 (s : State) (c b : Nat) (x : Option Block) : (s.setBlock c b x).die0 = s.die0 := rfl
@[simp] theorem setBlock_die1 (s : State) (c b : Nat) (x : Option Block) : (s.setBlock c b x).die1 = s.die1 := rfl
@[simp] theorem setBlock_regions (s : State) (c b : Nat) (x : Option Block) : (s.setBlock c b x).regions = s.regions := rfl
@[simp] theorem setBlock_queues (s : State) (c b : Nat) (x : Option Block) : (s.setBlock c b x).queues = s.queues := rfl
@[simp] theorem setBlock_cards (s : State) (c b : Nat) (x : Option Block) : (s.setBlock c b x).cards = s.cards := rfl
@[simp] theorem setBlock_saved (s : State) (c b : Nat) (x : Option Block) : (s.setBlock c b x).saved = s.saved := rfl
@[simp] theorem setBlock_resets (s : State) (c b : Nat) (x : Option Block) : (s.setBlock c b x).resets = s.resets := rfl
@[simp] theorem setBlock_loan (s : State) (c b : Nat) (x : Option Block) : (s.setBlock c b x).loan = s.loan := rfl
@[simp] theorem setBlock_host (s : State) (c b : Nat) (x : Option Block) : (s.setBlock c b x).host = s.host := rfl
@[simp] theorem setBlock_tref (s : State) (c b : Nat) (x : Option Block) : (s.setBlock c b x).tref = s.tref := rfl
@[simp] theorem setBlock_power (s : State) (c b : Nat) (x : Option Block) : (s.setBlock c b x).power = s.power := rfl
@[simp] theorem setBlock_seq (s : State) (c b : Nat) (x : Option Block) : (s.setBlock c b x).seq = s.seq := rfl
@[simp] theorem setBlock_fresh (s : State) (c b : Nat) (x : Option Block) : (s.setBlock c b x).fresh = s.fresh := rfl
@[simp] theorem setBlock_cur (s : State) (c b : Nat) (x : Option Block) : (s.setBlock c b x).cur = s.cur := rfl
@[simp] theorem setBlock_turn (s : State) (c b : Nat) (x : Option Block) : (s.setBlock c b x).turn = s.turn := rfl
@[simp] theorem setBlock_agenda (s : State) (c b : Nat) (x : Option Block) : (s.setBlock c b x).agenda = s.agenda := rfl
@[simp] theorem updBlock_regs (s : State) (c b : Nat) (g : Block → Block) : (s.updBlock c b g).regs = s.regs := by
  unfold State.updBlock; split <;> simp
@[simp] theorem updBlock_mem (s : State) (c b : Nat) (g : Block → Block) : (s.updBlock c b g).mem = s.mem := by
  unfold State.updBlock; split <;> simp
@[simp] theorem updBlock_clusters (s : State) (c b : Nat) (g : Block → Block) : (s.updBlock c b g).clusters = s.clusters := by
  unfold State.updBlock; split <;> simp
@[simp] theorem updBlock_die0 (s : State) (c b : Nat) (g : Block → Block) : (s.updBlock c b g).die0 = s.die0 := by
  unfold State.updBlock; split <;> simp
@[simp] theorem updBlock_die1 (s : State) (c b : Nat) (g : Block → Block) : (s.updBlock c b g).die1 = s.die1 := by
  unfold State.updBlock; split <;> simp
@[simp] theorem updBlock_regions (s : State) (c b : Nat) (g : Block → Block) : (s.updBlock c b g).regions = s.regions := by
  unfold State.updBlock; split <;> simp
@[simp] theorem updBlock_queues (s : State) (c b : Nat) (g : Block → Block) : (s.updBlock c b g).queues = s.queues := by
  unfold State.updBlock; split <;> simp
@[simp] theorem updBlock_cards (s : State) (c b : Nat) (g : Block → Block) : (s.updBlock c b g).cards = s.cards := by
  unfold State.updBlock; split <;> simp
@[simp] theorem updBlock_saved (s : State) (c b : Nat) (g : Block → Block) : (s.updBlock c b g).saved = s.saved := by
  unfold State.updBlock; split <;> simp
@[simp] theorem updBlock_resets (s : State) (c b : Nat) (g : Block → Block) : (s.updBlock c b g).resets = s.resets := by
  unfold State.updBlock; split <;> simp
@[simp] theorem updBlock_loan (s : State) (c b : Nat) (g : Block → Block) : (s.updBlock c b g).loan = s.loan := by
  unfold State.updBlock; split <;> simp
@[simp] theorem updBlock_host (s : State) (c b : Nat) (g : Block → Block) : (s.updBlock c b g).host = s.host := by
  unfold State.updBlock; split <;> simp
@[simp] theorem updBlock_tref (s : State) (c b : Nat) (g : Block → Block) : (s.updBlock c b g).tref = s.tref := by
  unfold State.updBlock; split <;> simp
@[simp] theorem updBlock_power (s : State) (c b : Nat) (g : Block → Block) : (s.updBlock c b g).power = s.power := by
  unfold State.updBlock; split <;> simp
@[simp] theorem updBlock_seq (s : State) (c b : Nat) (g : Block → Block) : (s.updBlock c b g).seq = s.seq := by
  unfold State.updBlock; split <;> simp
@[simp] theorem updBlock_fresh (s : State) (c b : Nat) (g : Block → Block) : (s.updBlock c b g).fresh = s.fresh := by
  unfold State.updBlock; split <;> simp
@[simp] theorem updBlock_cur (s : State) (c b : Nat) (g : Block → Block) : (s.updBlock c b g).cur = s.cur := by
  unfold State.updBlock; split <;> simp
@[simp] theorem updBlock_turn (s : State) (c b : Nat) (g : Block → Block) : (s.updBlock c b g).turn = s.turn := by
  unfold State.updBlock; split <;> simp
@[simp] theorem updBlock_agenda (s : State) (c b : Nat) (g : Block → Block) : (s.updBlock c b g).agenda = s.agenda := by
  unfold State.updBlock; split <;> simp
@[simp] theorem updFront_regs (s : State) (c b : Nat) (g : Front → Front) : (s.updFront c b g).regs = s.regs := by
  simp [State.updFront]
@[simp] theorem updFront_mem (s : State) (c b : Nat) (g : Front → Front) : (s.updFront c b g).mem = s.mem := by
  simp [State.updFront]
@[simp] theorem updFront_clusters (s : State) (c b : Nat) (g : Front → Front) : (s.updFront c b g).clusters = s.clusters := by
  simp [State.updFront]
@[simp] theorem updFront_die0 (s : State) (c b : Nat) (g : Front → Front) : (s.updFront c b g).die0 = s.die0 := by
  simp [State.updFront]
@[simp] theorem updFront_die1 (s : State) (c b : Nat) (g : Front → Front) : (s.updFront c b g).die1 = s.die1 := by
  simp [State.updFront]
@[simp] theorem updFront_regions (s : State) (c b : Nat) (g : Front → Front) : (s.updFront c b g).regions = s.regions := by
  simp [State.updFront]
@[simp] theorem updFront_queues (s : State) (c b : Nat) (g : Front → Front) : (s.updFront c b g).queues = s.queues := by
  simp [State.updFront]
@[simp] theorem updFront_cards (s : State) (c b : Nat) (g : Front → Front) : (s.updFront c b g).cards = s.cards := by
  simp [State.updFront]
@[simp] theorem updFront_saved (s : State) (c b : Nat) (g : Front → Front) : (s.updFront c b g).saved = s.saved := by
  simp [State.updFront]
@[simp] theorem updFront_resets (s : State) (c b : Nat) (g : Front → Front) : (s.updFront c b g).resets = s.resets := by
  simp [State.updFront]
@[simp] theorem updFront_loan (s : State) (c b : Nat) (g : Front → Front) : (s.updFront c b g).loan = s.loan := by
  simp [State.updFront]
@[simp] theorem updFront_host (s : State) (c b : Nat) (g : Front → Front) : (s.updFront c b g).host = s.host := by
  simp [State.updFront]
@[simp] theorem updFront_tref (s : State) (c b : Nat) (g : Front → Front) : (s.updFront c b g).tref = s.tref := by
  simp [State.updFront]
@[simp] theorem updFront_power (s : State) (c b : Nat) (g : Front → Front) : (s.updFront c b g).power = s.power := by
  simp [State.updFront]
@[simp] theorem updFront_seq (s : State) (c b : Nat) (g : Front → Front) : (s.updFront c b g).seq = s.seq := by
  simp [State.updFront]
@[simp] theorem updFront_fresh (s : State) (c b : Nat) (g : Front → Front) : (s.updFront c b g).fresh = s.fresh := by
  simp [State.updFront]
@[simp] theorem updFront_cur (s : State) (c b : Nat) (g : Front → Front) : (s.updFront c b g).cur = s.cur := by
  simp [State.updFront]
@[simp] theorem updFront_turn (s : State) (c b : Nat) (g : Front → Front) : (s.updFront c b g).turn = s.turn := by
  simp [State.updFront]
@[simp] theorem updFront_agenda (s : State) (c b : Nat) (g : Front → Front) : (s.updFront c b g).agenda = s.agenda := by
  simp [State.updFront]
@[simp] theorem updMatrix_regs (s : State) (c b : Nat) (g : Matrix → Matrix) : (s.updMatrix c b g).regs = s.regs := by
  simp [State.updMatrix]
@[simp] theorem updMatrix_mem (s : State) (c b : Nat) (g : Matrix → Matrix) : (s.updMatrix c b g).mem = s.mem := by
  simp [State.updMatrix]
@[simp] theorem updMatrix_clusters (s : State) (c b : Nat) (g : Matrix → Matrix) : (s.updMatrix c b g).clusters = s.clusters := by
  simp [State.updMatrix]
@[simp] theorem updMatrix_die0 (s : State) (c b : Nat) (g : Matrix → Matrix) : (s.updMatrix c b g).die0 = s.die0 := by
  simp [State.updMatrix]
@[simp] theorem updMatrix_die1 (s : State) (c b : Nat) (g : Matrix → Matrix) : (s.updMatrix c b g).die1 = s.die1 := by
  simp [State.updMatrix]
@[simp] theorem updMatrix_regions (s : State) (c b : Nat) (g : Matrix → Matrix) : (s.updMatrix c b g).regions = s.regions := by
  simp [State.updMatrix]
@[simp] theorem updMatrix_queues (s : State) (c b : Nat) (g : Matrix → Matrix) : (s.updMatrix c b g).queues = s.queues := by
  simp [State.updMatrix]
@[simp] theorem updMatrix_cards (s : State) (c b : Nat) (g : Matrix → Matrix) : (s.updMatrix c b g).cards = s.cards := by
  simp [State.updMatrix]
@[simp] theorem updMatrix_saved (s : State) (c b : Nat) (g : Matrix → Matrix) : (s.updMatrix c b g).saved = s.saved := by
  simp [State.updMatrix]
@[simp] theorem updMatrix_resets (s : State) (c b : Nat) (g : Matrix → Matrix) : (s.updMatrix c b g).resets = s.resets := by
  simp [State.updMatrix]
@[simp] theorem updMatrix_loan (s : State) (c b : Nat) (g : Matrix → Matrix) : (s.updMatrix c b g).loan = s.loan := by
  simp [State.updMatrix]
@[simp] theorem updMatrix_host (s : State) (c b : Nat) (g : Matrix → Matrix) : (s.updMatrix c b g).host = s.host := by
  simp [State.updMatrix]
@[simp] theorem updMatrix_tref (s : State) (c b : Nat) (g : Matrix → Matrix) : (s.updMatrix c b g).tref = s.tref := by
  simp [State.updMatrix]
@[simp] theorem updMatrix_power (s : State) (c b : Nat) (g : Matrix → Matrix) : (s.updMatrix c b g).power = s.power := by
  simp [State.updMatrix]
@[simp] theorem updMatrix_seq (s : State) (c b : Nat) (g : Matrix → Matrix) : (s.updMatrix c b g).seq = s.seq := by
  simp [State.updMatrix]
@[simp] theorem updMatrix_fresh (s : State) (c b : Nat) (g : Matrix → Matrix) : (s.updMatrix c b g).fresh = s.fresh := by
  simp [State.updMatrix]
@[simp] theorem updMatrix_cur (s : State) (c b : Nat) (g : Matrix → Matrix) : (s.updMatrix c b g).cur = s.cur := by
  simp [State.updMatrix]
@[simp] theorem updMatrix_turn (s : State) (c b : Nat) (g : Matrix → Matrix) : (s.updMatrix c b g).turn = s.turn := by
  simp [State.updMatrix]
@[simp] theorem updMatrix_agenda (s : State) (c b : Nat) (g : Matrix → Matrix) : (s.updMatrix c b g).agenda = s.agenda := by
  simp [State.updMatrix]
@[simp] theorem updFlight_regs (s : State) (w : Who) (g : Flight → Flight) : (s.updFlight w g).regs = s.regs := by
  unfold State.updFlight; split <;> simp
@[simp] theorem updFlight_mem (s : State) (w : Who) (g : Flight → Flight) : (s.updFlight w g).mem = s.mem := by
  unfold State.updFlight; split <;> simp
@[simp] theorem updFlight_clusters (s : State) (w : Who) (g : Flight → Flight) : (s.updFlight w g).clusters = s.clusters := by
  unfold State.updFlight; split <;> simp
@[simp] theorem updFlight_die0 (s : State) (w : Who) (g : Flight → Flight) : (s.updFlight w g).die0 = s.die0 := by
  unfold State.updFlight; split <;> simp
@[simp] theorem updFlight_die1 (s : State) (w : Who) (g : Flight → Flight) : (s.updFlight w g).die1 = s.die1 := by
  unfold State.updFlight; split <;> simp
@[simp] theorem updFlight_regions (s : State) (w : Who) (g : Flight → Flight) : (s.updFlight w g).regions = s.regions := by
  unfold State.updFlight; split <;> simp
@[simp] theorem updFlight_queues (s : State) (w : Who) (g : Flight → Flight) : (s.updFlight w g).queues = s.queues := by
  unfold State.updFlight; split <;> simp
@[simp] theorem updFlight_cards (s : State) (w : Who) (g : Flight → Flight) : (s.updFlight w g).cards = s.cards := by
  unfold State.updFlight; split <;> simp
@[simp] theorem updFlight_saved (s : State) (w : Who) (g : Flight → Flight) : (s.updFlight w g).saved = s.saved := by
  unfold State.updFlight; split <;> simp
@[simp] theorem updFlight_resets (s : State) (w : Who) (g : Flight → Flight) : (s.updFlight w g).resets = s.resets := by
  unfold State.updFlight; split <;> simp
@[simp] theorem updFlight_loan (s : State) (w : Who) (g : Flight → Flight) : (s.updFlight w g).loan = s.loan := by
  unfold State.updFlight; split <;> simp
@[simp] theorem updFlight_host (s : State) (w : Who) (g : Flight → Flight) : (s.updFlight w g).host = s.host := by
  unfold State.updFlight; split <;> simp
@[simp] theorem updFlight_tref (s : State) (w : Who) (g : Flight → Flight) : (s.updFlight w g).tref = s.tref := by
  unfold State.updFlight; split <;> simp
@[simp] theorem updFlight_power (s : State) (w : Who) (g : Flight → Flight) : (s.updFlight w g).power = s.power := by
  unfold State.updFlight; split <;> simp
@[simp] theorem updFlight_seq (s : State) (w : Who) (g : Flight → Flight) : (s.updFlight w g).seq = s.seq := by
  unfold State.updFlight; split <;> simp
@[simp] theorem updFlight_fresh (s : State) (w : Who) (g : Flight → Flight) : (s.updFlight w g).fresh = s.fresh := by
  unfold State.updFlight; split <;> simp
@[simp] theorem updFlight_cur (s : State) (w : Who) (g : Flight → Flight) : (s.updFlight w g).cur = s.cur := by
  unfold State.updFlight; split <;> simp
@[simp] theorem updFlight_turn (s : State) (w : Who) (g : Flight → Flight) : (s.updFlight w g).turn = s.turn := by
  unfold State.updFlight; split <;> simp
@[simp] theorem updFlight_agenda (s : State) (w : Who) (g : Flight → Flight) : (s.updFlight w g).agenda = s.agenda := by
  unfold State.updFlight; split <;> simp

/-! Cores, warps and blocks after an update -/

@[simp] theorem core_tick (s : State) (c : Nat) : s.tick.core c = s.core c := rfl
@[simp] theorem core_setCore_same (s : State) (c : Nat) (k : Core) : (s.setCore c k).core c = k := Tbl_get_set_same ..
theorem core_setCore_other (s : State) {c d : Nat} (k : Core) (h : d ≠ c) : (s.setCore c k).core d = s.core d := Tbl_get_set_other _ _ _ h
@[simp] theorem core_updCore_same (s : State) (c : Nat) (f : Core → Core) : (s.updCore c f).core c = f (s.core c) := Tbl_get_set_same ..
theorem core_updCore_other (s : State) {c d : Nat} (f : Core → Core) (h : d ≠ c) : (s.updCore c f).core d = s.core d :=
  Tbl_get_set_other _ _ _ h
@[simp] theorem setCore_setCore (s : State) (c : Nat) (k l : Core) : (s.setCore c k).setCore c l = s.setCore c l := by
  simp [State.setCore]
@[simp] theorem updCore_updCore (s : State) (c : Nat) (f g : Core → Core) : (s.updCore c f).updCore c g = s.updCore c (g ∘ f) := by
  simp [State.updCore]
@[simp] theorem die_updCore (s : State) (c d : Nat) (f : Core → Core) : (s.updCore c f).die d = s.die d := rfl

/-- The parties that are warps. -/
def IsWarp (w : Who) : Prop := w.party = .landing ∨ ∃ n, w.party = .warp n

theorem isWarp_of_warp {s : State} {w : Who} {x : Warp} (h : s.warp w = some x) : IsWarp w := by
  obtain ⟨c, p⟩ := w
  cases p <;> simp_all [State.warp, IsWarp]

theorem partyCls_of_isWarp {w : Who} (h : IsWarp w) : partyCls w.party = .lane := by
  rcases h with h | ⟨n, h⟩ <;> simp [h, partyCls]

@[simp] theorem warp_tick (s : State) (w : Who) : s.tick.warp w = s.warp w := rfl
@[simp] theorem block_tick (s : State) (c b : Nat) : s.tick.block c b = s.block c b := rfl
@[simp] theorem region_tick (s : State) (r : Nat) : s.tick.region r = s.region r := rfl

/-- A warp read after it was written. -/
theorem warp_setWarp {w : Who} (h : IsWarp w) (s : State) (x : Option Warp) : (s.setWarp w x).warp w = x := by
  obtain ⟨c, p⟩ := w
  rcases h with h | ⟨n, h⟩ <;> simp only at h <;> subst h <;> simp [State.warp, State.setWarp]

@[simp] theorem setWarp_setWarp (s : State) (w : Who) (x y : Option Warp) : (s.setWarp w x).setWarp w y = s.setWarp w y := by
  obtain ⟨c, p⟩ := w
  cases p <;> simp [State.setWarp, Function.comp_def]

theorem updWarp_eq {s : State} {w : Who} {x : Warp} (h : s.warp w = some x) (f : Warp → Warp) :
    s.updWarp w f = s.setWarp w (some (f x)) := by
  simp only [State.updWarp, h]

theorem updWarp_setWarp {w : Who} (h : IsWarp w) (s : State) (x : Warp) (f : Warp → Warp) :
    (s.setWarp w (some x)).updWarp w f = s.setWarp w (some (f x)) := by
  rw [updWarp_eq (warp_setWarp h s (some x)), setWarp_setWarp]

theorem updWarp_updWarp (s : State) (w : Who) (f g : Warp → Warp) : (s.updWarp w f).updWarp w g = s.updWarp w (g ∘ f) := by
  cases hx : s.warp w with
  | none => simp [State.updWarp, hx]
  | some x =>
    rw [updWarp_eq hx, updWarp_setWarp (isWarp_of_warp hx), updWarp_eq hx]
    rfl

theorem warp_updWarp (s : State) (w : Who) (f : Warp → Warp) : (s.updWarp w f).warp w = (s.warp w).map f := by
  cases hx : s.warp w with
  | none => simp [State.updWarp, hx]
  | some x => rw [updWarp_eq hx, warp_setWarp (isWarp_of_warp hx)]; rfl

@[simp] theorem block_setWarp (s : State) (w : Who) (x : Option Warp) (c b : Nat) : (s.setWarp w x).block c b = s.block c b := by
  obtain ⟨k, p⟩ := w
  by_cases h : c = k
  · subst h
    cases p <;> simp [State.block, State.setWarp]
  · cases p <;> simp [State.block, State.setWarp, core_updCore_other _ _ h]

@[simp] theorem block_updWarp (s : State) (w : Who) (f : Warp → Warp) (c b : Nat) : (s.updWarp w f).block c b = s.block c b := by
  unfold State.updWarp
  split <;> simp

/-- A block read after it was written. -/
@[simp] theorem block_setBlock (s : State) (c b : Nat) (x : Option Block) : (s.setBlock c b x).block c b = x := by
  simp [State.block, State.setBlock]

theorem block_setBlock_other (s : State) {c b d e : Nat} (x : Option Block) (h : ¬(d = c ∧ e = b)) :
    (s.setBlock c b x).block d e = s.block d e := by
  by_cases hc : d = c
  · subst hc
    simp only [State.block, State.setBlock, core_updCore_same]
    exact Tbl_get_set_other _ _ _ fun he => h ⟨rfl, he⟩
  · simp [State.block, State.setBlock, core_updCore_other _ _ hc]

@[simp] theorem setBlock_setBlock (s : State) (c b : Nat) (x y : Option Block) : (s.setBlock c b x).setBlock c b y = s.setBlock c b y := by
  simp [State.setBlock, Function.comp_def]

theorem updBlock_eq {s : State} {c b : Nat} {x : Block} (h : s.block c b = some x) (f : Block → Block) :
    s.updBlock c b f = s.setBlock c b (some (f x)) := by
  simp only [State.updBlock, h]

theorem block_updBlock (s : State) (c b : Nat) (f : Block → Block) : (s.updBlock c b f).block c b = (s.block c b).map f := by
  cases hx : s.block c b with
  | none => simp [State.updBlock, hx]
  | some x => rw [updBlock_eq hx, block_setBlock]; rfl

theorem updBlock_updBlock (s : State) (c b : Nat) (f g : Block → Block) : (s.updBlock c b f).updBlock c b g = s.updBlock c b (g ∘ f) := by
  cases hx : s.block c b with
  | none => simp [State.updBlock, hx]
  | some x => rw [updBlock_eq hx, updBlock_eq (block_setBlock ..), setBlock_setBlock, updBlock_eq hx]; rfl

@[simp] theorem warp_setBlock (s : State) (c b : Nat) (x : Option Block) (w : Who) : (s.setBlock c b x).warp w = s.warp w := by
  obtain ⟨k, p⟩ := w
  by_cases h : k = c
  · subst h
    cases p <;> simp [State.warp, State.setBlock]
  · cases p <;> simp [State.warp, State.setBlock, core_updCore_other _ _ h]

@[simp] theorem warp_updBlock (s : State) (c b : Nat) (f : Block → Block) (w : Who) : (s.updBlock c b f).warp w = s.warp w := by
  unfold State.updBlock
  split <;> simp
@[simp] theorem warp_updFront (s : State) (c b : Nat) (f : Front → Front) (w : Who) : (s.updFront c b f).warp w = s.warp w := by
  simp [State.updFront]
@[simp] theorem warp_updMatrix (s : State) (c b : Nat) (f : Matrix → Matrix) (w : Who) : (s.updMatrix c b f).warp w = s.warp w := by
  simp [State.updMatrix]

/-- A front end and a matrix stream read after they were written. -/
theorem front_updFront (s : State) (c b : Nat) (f : Front → Front) :
    ((s.updFront c b f).block c b).bind (·.front) = ((s.block c b).bind (·.front)).map f := by
  rw [State.updFront, block_updBlock]
  cases s.block c b <;> rfl
theorem matrix_updMatrix (s : State) (c b : Nat) (f : Matrix → Matrix) :
    ((s.updMatrix c b f).block c b).bind (·.matrix) = ((s.block c b).bind (·.matrix)).map f := by
  rw [State.updMatrix, block_updBlock]
  cases s.block c b <;> rfl
theorem updFront_updFront (s : State) (c b : Nat) (f g : Front → Front) : (s.updFront c b f).updFront c b g = s.updFront c b (g ∘ f) := by
  simp only [State.updFront, updBlock_updBlock]
  congr 1
  funext x
  simp [Function.comp_def]
theorem updMatrix_updMatrix (s : State) (c b : Nat) (f g : Matrix → Matrix) :
    (s.updMatrix c b f).updMatrix c b g = s.updMatrix c b (g ∘ f) := by
  simp only [State.updMatrix, updBlock_updBlock]
  congr 1
  funext x
  simp [Function.comp_def]

/-- A region, a cluster and a queue read after they were written. -/
@[simp] theorem region_setRegion (s : State) (r : Nat) (x : Region) : (s.setRegion r x).region r = x := Tbl_get_set_same ..
@[simp] theorem cluster_setCluster (s : State) (c : Nat) (x : Cluster) : (s.setCluster c x).cluster c = x := Tbl_get_set_same ..
@[simp] theorem queue_setQueue (s : State) (q : Nat) (x : Queue) : (s.setQueue q x).queue q = x := Tbl_get_set_same ..
@[simp] theorem run_setRun (s : State) (r : Nat) (x : Option CardRun) : (s.setRun r x).run r = x := Tbl_get_set_same ..
theorem die_setDie (s : State) (d : Nat) (x : Die) : (s.setDie d x).die d = x := by
  unfold State.setDie State.die
  split <;> rfl
theorem die_setDie_other (s : State) {d e : Nat} (x : Die) (hd : d < 2) (he : e < 2) (h : e ≠ d) : (s.setDie d x).die e = s.die e := by
  unfold State.setDie State.die
  split <;> split <;> first | rfl | omega

/-! What a read leaves, and the poison of guest copies -/

theorem gbad_setGbad (m : MemState) (d : Nat) (t : Tbl Bool) : (m.setGbad d t).gbad d = t := by
  unfold MemState.setGbad MemState.gbad; split <;> rfl
@[simp] theorem mem_setGbad (m : MemState) (d : Nat) (t : Tbl Bool) : (m.setGbad d t).mem = m.mem := by unfold MemState.setGbad; split <;> rfl
@[simp] theorem bad_setGbad (m : MemState) (d : Nat) (t : Tbl Bool) : (m.setGbad d t).bad = m.bad := by unfold MemState.setGbad; split <;> rfl
@[simp] theorem mem_healGuest (m : MemState) (d a n : Nat) : (m.healGuest d a n).mem = m.mem := mem_setGbad ..
@[simp] theorem bad_healGuest (m : MemState) (d a n : Nat) : (m.healGuest d a n).bad = m.bad := bad_setGbad ..
@[simp] theorem mem_see (s0 s : State) (w : Who) (p : Path) (all : Bool) (now : Nat → Bool) (a n : Nat) :
    (s0.see w p all now a n s).mem.mem = s.mem.mem := rfl
@[simp] theorem peer_see (s0 s : State) (w : Who) (p : Path) (all : Bool) (now : Nat → Bool) (a n : Nat) :
    (s0.see w p all now a n s).mem.peer = s.mem.peer := rfl
@[simp] theorem cores_see (s0 s : State) (w : Who) (p : Path) (all : Bool) (now : Nat → Bool) (a n : Nat) :
    (s0.see w p all now a n s).cores = s.cores := rfl
@[simp] theorem regs_see (s0 s : State) (w : Who) (p : Path) (all : Bool) (now : Nat → Bool) (a n : Nat) :
    (s0.see w p all now a n s).regs = s.regs := rfl
@[simp] theorem mem_leaveL1 (s : State) (core a n : Nat) : (s.leaveL1 core a n).mem = s.mem := rfl
@[simp] theorem mem_dropL1 (s : State) (core : Nat) : (s.dropL1 core).mem = s.mem := rfl

end Sys2Proof.Laws
end

