-- ==== Sys2Proof/Laws/Words.lean ====
section
/-! SUPPORT. What each word's fields must satisfy, which registers it names, and its price: one lemma per word for each table of the
definition, so that no proof unfolds a table. -/

namespace Sys2Proof.Laws

open Sys2Proof Sys2Proof.Machine

/-! Well-formedness (`Instr.wf`) -/

@[simp] theorem wf_nop x1 : (Instr.nop x1).wf = true := rfl
@[simp] theorem wf_bra x1 x2 : (Instr.bra x1 x2).wf = true := rfl
@[simp] theorem wf_brx x1 x2 : (Instr.brx x1 x2).wf = true := rfl
@[simp] theorem wf_call x1 x2 x3 : (Instr.call x1 x2 x3).wf = true := rfl
@[simp] theorem wf_callx x1 x2 x3 : (Instr.callx x1 x2 x3).wf = true := rfl
@[simp] theorem wf_ret x1 x2 : (Instr.ret x1 x2).wf = true := rfl
@[simp] theorem wf_yield x1 : (Instr.yield x1).wf = true := rfl
@[simp] theorem wf_exit x1 : (Instr.exit x1).wf = true := rfl
@[simp] theorem wf_trap x1 x2 : (Instr.trap x1 x2).wf = true := rfl
@[simp] theorem wf_bkpt x1 x2 : (Instr.bkpt x1 x2).wf = true := rfl
@[simp] theorem wf_iadd x1 : (Instr.iadd x1).wf = true := rfl
@[simp] theorem wf_isub x1 : (Instr.isub x1).wf = true := rfl
@[simp] theorem wf_imul x1 : (Instr.imul x1).wf = true := rfl
@[simp] theorem wf_imulh x1 x2 : (Instr.imulh x1 x2).wf = true := rfl
@[simp] theorem wf_imad x1 : (Instr.imad x1).wf = true := rfl
@[simp] theorem wf_idiv x1 x2 : (Instr.idiv x1 x2).wf = true := rfl
@[simp] theorem wf_irem x1 x2 : (Instr.irem x1 x2).wf = true := rfl
@[simp] theorem wf_imin x1 x2 : (Instr.imin x1 x2).wf = true := rfl
@[simp] theorem wf_imax x1 x2 : (Instr.imax x1 x2).wf = true := rfl
@[simp] theorem wf_iabs x1 : (Instr.iabs x1).wf = true := rfl
@[simp] theorem wf_iset x1 o : (Instr.iset x1 o).wf = predOk o.d := rfl
@[simp] theorem wf_sel x1 c : (Instr.sel x1 c).wf = predOk c := rfl
@[simp] theorem wf_lea x1 x2 : (Instr.lea x1 x2).wf = true := rfl
@[simp] theorem wf_mov x1 : (Instr.mov x1).wf = true := rfl
@[simp] theorem wf_movi x1 x2 x3 : (Instr.movi x1 x2 x3).wf = true := rfl
@[simp] theorem wf_x2p d x1 x2 x3 : (Instr.x2p d x1 x2 x3).wf = (d.toNat % 32 == 0 && predOk d) := rfl
@[simp] theorem wf_and x1 : (Instr.and x1).wf = true := rfl
@[simp] theorem wf_or x1 : (Instr.or x1).wf = true := rfl
@[simp] theorem wf_xor x1 : (Instr.xor x1).wf = true := rfl
@[simp] theorem wf_andn x1 : (Instr.andn x1).wf = true := rfl
@[simp] theorem wf_lop3 x1 x2 : (Instr.lop3 x1 x2).wf = true := rfl
@[simp] theorem wf_shl x1 : (Instr.shl x1).wf = true := rfl
@[simp] theorem wf_shr x1 : (Instr.shr x1).wf = true := rfl
@[simp] theorem wf_sar x1 : (Instr.sar x1).wf = true := rfl
@[simp] theorem wf_rot x1 : (Instr.rot x1).wf = true := rfl
@[simp] theorem wf_clz x1 : (Instr.clz x1).wf = true := rfl
@[simp] theorem wf_popc x1 : (Instr.popc x1).wf = true := rfl
@[simp] theorem wf_brev x1 : (Instr.brev x1).wf = true := rfl
@[simp] theorem wf_bfx x1 x2 : (Instr.bfx x1 x2).wf = true := rfl
@[simp] theorem wf_bfi x1 : (Instr.bfi x1).wf = true := rfl
@[simp] theorem wf_plop d a b c x1 x2 : (Instr.plop d a b c x1 x2).wf = (predOk d && predOk a && predOk b && predOk c) := rfl
@[simp] theorem wf_p2x x1 a x2 x3 : (Instr.p2x x1 a x2 x3).wf = (a.toNat % 32 == 0 && predOk a) := rfl
@[simp] theorem wf_fadd m o : (Instr.fadd m o).wf = wfAdd m o := rfl
@[simp] theorem wf_fsub m o : (Instr.fsub m o).wf = wfAdd m o := rfl
@[simp] theorem wf_fmul m o : (Instr.fmul m o).wf = wfAdd m o := rfl
@[simp] theorem wf_ffma m o : (Instr.ffma m o).wf =
    (pairIf m.t o.d && pairIf m.t o.a && pairIf m.t o.b && pairIf m.t o.c) := rfl
@[simp] theorem wf_fmin t o : (Instr.fmin t o).wf = (pairIf t o.d && pairIf t o.a && pairIf t o.b) := rfl
@[simp] theorem wf_fmax t o : (Instr.fmax t o).wf = (pairIf t o.d && pairIf t o.a && pairIf t o.b) := rfl
@[simp] theorem wf_fset t x1 x2 o : (Instr.fset t x1 x2 o).wf =
    (predOk o.d && pairIf t o.a && pairIf t o.b && ((t == .f32 || t == .f64) || groupOk 2 o.d)) := rfl
@[simp] theorem wf_fclass t o : (Instr.fclass t o).wf = pairIf t o.a := rfl
@[simp] theorem wf_fscale m o : (Instr.fscale m o).wf = (!m.nc && pairIf m.t o.d && pairIf m.t o.a) := rfl
@[simp] theorem wf_frnd m o : (Instr.frnd m o).wf = (!m.nc && !m.ftz && pairIf m.t o.d && pairIf m.t o.a) := rfl
@[simp] theorem wf_fdiv m o : (Instr.fdiv m o).wf = (scalarType m.t && wfAdd m o) := rfl
@[simp] theorem wf_frcp x1 x2 : (Instr.frcp x1 x2).wf = true := rfl
@[simp] theorem wf_frsq x1 x2 : (Instr.frsq x1 x2).wf = true := rfl
@[simp] theorem wf_fsqrt m o : (Instr.fsqrt m o).wf =
    (scalarType m.t && !m.na && !m.nc && pairIf m.t o.d && pairIf m.t o.a) := rfl
@[simp] theorem wf_fexp2 x1 x2 : (Instr.fexp2 x1 x2).wf = true := rfl
@[simp] theorem wf_flog2 x1 x2 : (Instr.flog2 x1 x2).wf = true := rfl
@[simp] theorem wf_fsin x1 x2 : (Instr.fsin x1 x2).wf = true := rfl
@[simp] theorem wf_fcos x1 x2 : (Instr.fcos x1 x2).wf = true := rfl
@[simp] theorem wf_ftanh x1 x2 : (Instr.ftanh x1 x2).wf = true := rfl
@[simp] theorem wf_cvt src dst x1 x2 o : (Instr.cvt src dst x1 x2 o).wf =
    ((src != .nq4 && src != .sc8) && (dst != .nq4 && dst != .e8m0 && dst != .sc8) && (!fmt64 src || groupOk 2 o.a) && (!fmt64 dst || groupOk 2 o.d)) := rfl
@[simp] theorem wf_pk8 x1 x2 x3 o : (Instr.pk8 x1 x2 x3 o).wf = groupOk 4 o.a := rfl
@[simp] theorem wf_upk8 x1 o : (Instr.upk8 x1 o).wf = groupOk 4 o.d := rfl
@[simp] theorem wf_pk4 o : (Instr.pk4 o).wf = groupOk 8 o.a := rfl
@[simp] theorem wf_upk4 o : (Instr.upk4 o).wf = groupOk 8 o.d := rfl
@[simp] theorem wf_qscl m o : (Instr.qscl m o).wf = (m == .sc8 || (o.b == 0 && o.hb == .none)) := rfl
@[simp] theorem wf_scac x1 : (Instr.scac x1).wf = true := rfl
@[simp] theorem wf_shfl x1 b64 seg o : (Instr.shfl x1 b64 seg o).wf =
    (seg.toNat ≤ 4 && (!b64 || (groupOk 2 o.d && groupOk 2 o.a))) := rfl
@[simp] theorem wf_vote m d a x1 hd : (Instr.vote m d a x1 hd).wf =
    (predOk a && ((m == .mask || m == .count) || (predOk d && hd == .none))) := rfl
@[simp] theorem wf_redux x1 x2 : (Instr.redux x1 x2).wf = true := rfl
@[simp] theorem wf_scan x1 x2 : (Instr.scan x1 x2).wf = true := rfl
@[simp] theorem wf_matchLanes b64 o : (Instr.matchLanes b64 o).wf = (!b64 || groupOk 2 o.a) := rfl
@[simp] theorem wf_ld o : (Instr.ld o).wf = (loadOrder o.order && !o.ga && sbOk o.sb) := rfl
@[simp] theorem wf_lds o : (Instr.lds o).wf =
    (loadOrder o.order && o.scope == .blk && !o.ga && o.pol == .dflt && sbOk o.sb) := rfl
@[simp] theorem wf_ldc o : (Instr.ldc o).wf =
    (o.order == .relaxed && o.scope == .blk && !o.ga && o.pol == .dflt && sbOk o.sb) := rfl
@[simp] theorem wf_st o : (Instr.st o).wf = (storeOrder o.order && storeSize o.size && sbOk o.sb) := rfl
@[simp] theorem wf_sts o : (Instr.sts o).wf =
    (storeOrder o.order && storeSize o.size && o.scope == .blk && !o.ga && o.pol == .dflt && o.sb == 0) := rfl
@[simp] theorem wf_atom o : (Instr.atom o).wf = (atomSizeOk o.op o.size && (o.op == .cas || o.c == 0) && sbOk o.sb) := rfl
@[simp] theorem wf_atoms o : (Instr.atoms o).wf =
    (atomSizeOk o.op o.size && (o.op == .cas || o.c == 0) && sbOk o.sb && o.scope == .blk && !o.ga) := rfl
@[simp] theorem wf_red o : (Instr.red o).wf =
    (atomSizeOk o.op o.size && o.op != .cas && o.d == 0 && o.c == 0 && storeOrder o.order && sbOk o.sb && groupOk 2 o.a) := rfl
@[simp] theorem wf_stmc o : (Instr.stmc o).wf =
    (storeOrder o.order && storeSize o.size && o.off == 0 && o.pol == .dflt && o.sb == 0 && groupOk 2 o.a) := rfl
@[simp] theorem wf_pref a x1 x2 x3 : (Instr.pref a x1 x2 x3).wf = groupOk 2 a := rfl
@[simp] theorem wf_disc x1 a x2 : (Instr.disc x1 a x2).wf = groupOk 2 a := rfl
@[simp] theorem wf_fence order x1 x2 x3 : (Instr.fence order x1 x2 x3).wf = (order != .relaxed) := rfl
@[simp] theorem wf_fencep w r x1 : (Instr.fencep w r x1).wf = (w != r) := rfl
@[simp] theorem wf_claim x1 a x2 sb : (Instr.claim x1 a x2 sb).wf = (groupOk 2 a && sbOk sb) := rfl
@[simp] theorem wf_migr a : (Instr.migr a).wf = groupOk 2 a := rfl
@[simp] theorem wf_migrHome : Instr.migrHome.wf = true := rfl
@[simp] theorem wf_barw x1 x2 : (Instr.barw x1 x2).wf = true := rfl
@[simp] theorem wf_bara x1 x2 : (Instr.bara x1 x2).wf = true := rfl
@[simp] theorem wf_bcbinit a : (Instr.bcbinit a).wf = groupOk 4 a := rfl
@[simp] theorem wf_bcbexp a x1 : (Instr.bcbexp a x1).wf = groupOk 4 a := rfl
@[simp] theorem wf_bcbarv a : (Instr.bcbarv a).wf = groupOk 4 a := rfl
@[simp] theorem wf_bcbwait a x1 : (Instr.bcbwait a x1).wf = groupOk 4 a := rfl
@[simp] theorem wf_bcbtry a x1 : (Instr.bcbtry a x1).wf = groupOk 4 a := rfl
@[simp] theorem wf_ringinit x1 a : (Instr.ringinit x1 a).wf = groupOk 4 a := rfl
@[simp] theorem wf_ringacqFill x1 x2 : (Instr.ringacqFill x1 x2).wf = true := rfl
@[simp] theorem wf_ringacqFree x1 x2 : (Instr.ringacqFree x1 x2).wf = true := rfl
@[simp] theorem wf_ringrelFill x1 : (Instr.ringrelFill x1).wf = true := rfl
@[simp] theorem wf_ringrelFree x1 : (Instr.ringrelFree x1).wf = true := rfl
@[simp] theorem wf_gbar x1 scope : (Instr.gbar x1 scope).wf = (scope == .core || scope == .die || scope == .pkg) := rfl
@[simp] theorem wf_dqpop d x1 x2 : (Instr.dqpop d x1 x2).wf = groupOk 2 d := rfl
@[simp] theorem wf_rolechk : Instr.rolechk.wf = true := rfl
@[simp] theorem wf_cpy o : (Instr.cpy o).wf = groupOk 4 o.a := rfl
@[simp] theorem wf_gth o : (Instr.gth o).wf = (groupOk 4 o.a && !o.s2g && !o.ga) := rfl
@[simp] theorem wf_sct o : (Instr.sct o).wf = (groupOk 4 o.a && !o.s2g) := rfl
@[simp] theorem wf_rsend a x1 x2 x3 : (Instr.rsend a x1 x2 x3).wf = groupOk 4 a := rfl
@[simp] theorem wf_rget a x1 x2 : (Instr.rget a x1 x2).wf = groupOk 4 a := rfl
@[simp] theorem wf_ratom a x1 x2 x3 : (Instr.ratom a x1 x2 x3).wf = groupOk 4 a := rfl
@[simp] theorem wf_ldimg a x1 : (Instr.ldimg a x1).wf = groupOk 4 a := rfl
@[simp] theorem wf_fgrow x1 : (Instr.fgrow x1).wf = true := rfl
@[simp] theorem wf_ftrim x1 : (Instr.ftrim x1).wf = true := rfl
@[simp] theorem wf_sgrow x1 x2 : (Instr.sgrow x1 x2).wf = true := rfl
@[simp] theorem wf_sgrowSwz x1 x2 : (Instr.sgrowSwz x1 x2).wf = true := rfl
@[simp] theorem wf_strim x1 : (Instr.strim x1).wf = true := rfl
@[simp] theorem wf_ocwb x1 : (Instr.ocwb x1).wf = true := rfl
@[simp] theorem wf_dqpush x1 x2 : (Instr.dqpush x1 x2).wf = true := rfl
@[simp] theorem wf_mstart : Instr.mstart.wf = true := rfl
@[simp] theorem wf_mstop : Instr.mstop.wf = true := rfl
@[simp] theorem wf_enq a x1 : (Instr.enq a x1).wf = groupOk 4 a := rfl
@[simp] theorem wf_mldb x1 id x2 x3 slot : (Instr.mldb x1 id x2 x3 slot).wf = (slot || id == 0) := rfl
@[simp] theorem wf_mmul x1 : (Instr.mmul x1).wf = true := rfl
@[simp] theorem wf_mmulb x1 : (Instr.mmulb x1).wf = true := rfl
@[simp] theorem wf_mscale x1 ma mb : (Instr.mscale x1 ma mb).wf = (mGroupOk ma && mGroupOk mb) := rfl
@[simp] theorem wf_mzero x1 x2 : (Instr.mzero x1 x2).wf = true := rfl
@[simp] theorem wf_mdrain x1 x2 ma x3 x4 x5 : (Instr.mdrain x1 x2 ma x3 x4 x5).wf = mGroupOk ma := rfl
@[simp] theorem wf_msig k id x1 : (Instr.msig k id x1).wf = (k != .bcb || id == 0) := rfl
@[simp] theorem wf_mwait k id x1 : (Instr.mwait k id x1).wf = (k != .bcb || id == 0) := rfl
@[simp] theorem wf_mloop x1 x2 : (Instr.mloop x1 x2).wf = true := rfl
@[simp] theorem wf_mset x1 x2 : (Instr.mset x1 x2).wf = true := rfl
@[simp] theorem wf_mend : Instr.mend.wf = true := rfl
@[simp] theorem wf_sread x1 x2 x3 x4 : (Instr.sread x1 x2 x3 x4).wf = true := rfl
@[simp] theorem wf_swrite x1 x2 x3 x4 : (Instr.swrite x1 x2 x3 x4).wf = true := rfl
@[simp] theorem wf_timeRef x1 x2 : (Instr.timeRef x1 x2).wf = true := rfl
@[simp] theorem wf_timeCyc x1 x2 : (Instr.timeCyc x1 x2).wf = true := rfl
@[simp] theorem wf_eretReplay : Instr.eretReplay.wf = true := rfl
@[simp] theorem wf_eretResume : Instr.eretResume.wf = true := rfl
@[simp] theorem wf_tlbinv a x1 scope x2 : (Instr.tlbinv a x1 scope x2).wf =
    (groupOk 2 a && (scope == .core || scope == .die || scope == .pkg)) := rfl
@[simp] theorem wf_tlbinvAsid x1 scope x2 : (Instr.tlbinvAsid x1 scope x2).wf =
    (scope == .core || scope == .die || scope == .pkg) := rfl
@[simp] theorem wf_tlbinvAll x1 scope : (Instr.tlbinvAll x1 scope).wf =
    (scope == .core || scope == .die || scope == .pkg) := rfl
@[simp] theorem wf_probe d a x1 : (Instr.probe d a x1).wf = (groupOk 4 d && groupOk 2 a) := rfl
@[simp] theorem wf_probeAs d a x1 x2 : (Instr.probeAs d a x1 x2).wf = (groupOk 4 d && groupOk 2 a) := rfl
@[simp] theorem wf_wsave a x1 x2 : (Instr.wsave a x1 x2).wf = groupOk 2 a := rfl
@[simp] theorem wf_wsaveFrame a x1 x2 : (Instr.wsaveFrame a x1 x2).wf = groupOk 2 a := rfl
@[simp] theorem wf_wload a x1 x2 : (Instr.wload a x1 x2).wf = groupOk 2 a := rfl
@[simp] theorem wf_wloadFrame a x1 x2 : (Instr.wloadFrame a x1 x2).wf = groupOk 2 a := rfl

/-! Register and predicate fields (`Instr.use`) -/

@[simp] theorem use_nop c g : (Instr.nop g).use c = .of g [] [] := rfl
@[simp] theorem use_bra c g x1 : (Instr.bra g x1).use c = .of g [] [] := rfl
@[simp] theorem use_brx c a g : (Instr.brx a g).use c = .of g [reg a .none] [] := rfl
@[simp] theorem use_call c l g x1 : (Instr.call l g x1).use c = .of g [] [reg l .none] := rfl
@[simp] theorem use_callx c l a g : (Instr.callx l a g).use c = .of g [reg a .none] [reg l .none] := rfl
@[simp] theorem use_ret c a g : (Instr.ret a g).use c = .of g [reg a .none] [] := rfl
@[simp] theorem use_yield c g : (Instr.yield g).use c = .of g [] [] := rfl
@[simp] theorem use_exit c g : (Instr.exit g).use c = .of g [] [] := rfl
@[simp] theorem use_trap c g x1 : (Instr.trap g x1).use c = .of g [] [] := rfl
@[simp] theorem use_bkpt c g x1 : (Instr.bkpt g x1).use c = .of g [] [] := rfl
@[simp] theorem use_iadd c o : (Instr.iadd o).use c = o.use := rfl
@[simp] theorem use_isub c o : (Instr.isub o).use c = o.use := rfl
@[simp] theorem use_imul c o : (Instr.imul o).use c = o.use := rfl
@[simp] theorem use_imulh c x1 o : (Instr.imulh x1 o).use c = o.use := rfl
@[simp] theorem use_imad c o : (Instr.imad o).use c = o.use := rfl
@[simp] theorem use_idiv c x1 o : (Instr.idiv x1 o).use c = o.use := rfl
@[simp] theorem use_irem c x1 o : (Instr.irem x1 o).use c = o.use := rfl
@[simp] theorem use_imin c x1 o : (Instr.imin x1 o).use c = o.use := rfl
@[simp] theorem use_imax c x1 o : (Instr.imax x1 o).use c = o.use := rfl
@[simp] theorem use_iabs c o : (Instr.iabs o).use c = o.use := rfl
@[simp] theorem use_iset c x1 o : (Instr.iset x1 o).use c =
    ⟨[reg o.a o.ha, reg o.b o.hb], [], Guard.uses o.g, [(o.d.toNat, 1)], false, false, []⟩ := rfl
@[simp] theorem use_sel c o p : (Instr.sel o p).use c = ({ o.use with psrc := Guard.uses o.g ++ [(p.toNat, 1)] }) := rfl
@[simp] theorem use_lea c o x1 : (Instr.lea o x1).use c = o.use := rfl
@[simp] theorem use_mov c o : (Instr.mov o).use c = o.use := rfl
@[simp] theorem use_movi c d g x1 : (Instr.movi d g x1).use c = .of g [] [reg d .none] := rfl
@[simp] theorem use_x2p c d a g ha : (Instr.x2p d a g ha).use c =
    (⟨[reg a ha], [], Guard.uses g, [(d.toNat, if c = .front then 16 else 32)], false, false, []⟩) := rfl
@[simp] theorem use_and c o : (Instr.and o).use c = o.use := rfl
@[simp] theorem use_or c o : (Instr.or o).use c = o.use := rfl
@[simp] theorem use_xor c o : (Instr.xor o).use c = o.use := rfl
@[simp] theorem use_andn c o : (Instr.andn o).use c = o.use := rfl
@[simp] theorem use_lop3 c o x1 : (Instr.lop3 o x1).use c = o.use := rfl
@[simp] theorem use_shl c o : (Instr.shl o).use c = o.use := rfl
@[simp] theorem use_shr c o : (Instr.shr o).use c = o.use := rfl
@[simp] theorem use_sar c o : (Instr.sar o).use c = o.use := rfl
@[simp] theorem use_rot c o : (Instr.rot o).use c = o.use := rfl
@[simp] theorem use_clz c o : (Instr.clz o).use c = o.use := rfl
@[simp] theorem use_popc c o : (Instr.popc o).use c = o.use := rfl
@[simp] theorem use_brev c o : (Instr.brev o).use c = o.use := rfl
@[simp] theorem use_bfx c x1 o : (Instr.bfx x1 o).use c = o.use := rfl
@[simp] theorem use_bfi c o : (Instr.bfi o).use c = o.use := rfl
@[simp] theorem use_plop c d a b p g x1 : (Instr.plop d a b p g x1).use c =
    ⟨[], [], Guard.uses g ++ [(a.toNat, 1), (b.toNat, 1), (p.toNat, 1)], [(d.toNat, 1)], false, false, []⟩ := rfl
@[simp] theorem use_p2x c d a g hd : (Instr.p2x d a g hd).use c =
    (⟨[], [reg d hd], Guard.uses g ++ [(a.toNat, if c = .front then 16 else 32)], [], false, false, []⟩) := rfl
@[simp] theorem use_fadd c m o : (Instr.fadd m o).use c = o.fuse m.t := rfl
@[simp] theorem use_fsub c m o : (Instr.fsub m o).use c = o.fuse m.t := rfl
@[simp] theorem use_fmul c m o : (Instr.fmul m o).use c = o.fuse m.t := rfl
@[simp] theorem use_ffma c m o : (Instr.ffma m o).use c =
    .of o.g [regN o.a m.t.regs o.ha, regN o.b m.t.regs o.hb, regN o.c m.t.regs o.hc] [regN o.d m.t.regs o.hd] := rfl
@[simp] theorem use_fmin c t o : (Instr.fmin t o).use c = o.fuse t := rfl
@[simp] theorem use_fmax c t o : (Instr.fmax t o).use c = o.fuse t := rfl
@[simp] theorem use_fset c t x1 x2 o : (Instr.fset t x1 x2 o).use c =
    (⟨[regN o.a t.regs o.ha, regN o.b t.regs o.hb], [], Guard.uses o.g, [(o.d.toNat, if t = .f32 || t = .f64 then 1 else 2)], false, false, []⟩) := rfl
@[simp] theorem use_fclass c t o : (Instr.fclass t o).use c = .of o.g [regN o.a t.regs o.ha] [reg o.d o.hd] := rfl
@[simp] theorem use_fscale c m o : (Instr.fscale m o).use c =
    .of o.g [regN o.a m.t.regs o.ha, reg o.b o.hb] [regN o.d m.t.regs o.hd] := rfl
@[simp] theorem use_frnd c m o : (Instr.frnd m o).use c = .of o.g [regN o.a m.t.regs o.ha] [regN o.d m.t.regs o.hd] := rfl
@[simp] theorem use_fdiv c m o : (Instr.fdiv m o).use c = o.fuse m.t := rfl
@[simp] theorem use_frcp c x1 o : (Instr.frcp x1 o).use c = o.use := rfl
@[simp] theorem use_frsq c x1 o : (Instr.frsq x1 o).use c = o.use := rfl
@[simp] theorem use_fsqrt c m o : (Instr.fsqrt m o).use c = .of o.g [regN o.a m.t.regs o.ha] [regN o.d m.t.regs o.hd] := rfl
@[simp] theorem use_fexp2 c x1 o : (Instr.fexp2 x1 o).use c = o.use := rfl
@[simp] theorem use_flog2 c x1 o : (Instr.flog2 x1 o).use c = o.use := rfl
@[simp] theorem use_fsin c x1 o : (Instr.fsin x1 o).use c = o.use := rfl
@[simp] theorem use_fcos c x1 o : (Instr.fcos x1 o).use c = o.use := rfl
@[simp] theorem use_ftanh c x1 o : (Instr.ftanh x1 o).use c = o.use := rfl
@[simp] theorem use_cvt c src dst x1 x2 o : (Instr.cvt src dst x1 x2 o).use c =
    .of o.g [regN o.a src.regs o.ha] [regN o.d dst.regs o.hd] := rfl
@[simp] theorem use_pk8 c x1 x2 x3 o : (Instr.pk8 x1 x2 x3 o).use c =
    .of o.g [regN o.a 4 o.ha, reg o.b o.hb] [reg o.d o.hd] := rfl
@[simp] theorem use_upk8 c x1 o : (Instr.upk8 x1 o).use c = .of o.g [reg o.a o.ha, reg o.b o.hb] [regN o.d 4 o.hd] := rfl
@[simp] theorem use_pk4 c o : (Instr.pk4 o).use c = .of o.g [regN o.a 8 o.ha, reg o.b o.hb] [reg o.d o.hd] := rfl
@[simp] theorem use_upk4 c o : (Instr.upk4 o).use c = .of o.g [reg o.a o.ha, reg o.b o.hb] [regN o.d 8 o.hd] := rfl
@[simp] theorem use_qscl c m o : (Instr.qscl m o).use c =
    (.of o.g ([reg o.a o.ha] ++ (if m = .sc8 then [reg o.b o.hb] else [])) [reg o.d o.hd]) := rfl
@[simp] theorem use_scac c o : (Instr.scac o).use c =
    .of o.g [reg o.d o.hd, reg o.a o.ha, reg o.b o.hb, reg o.c o.hc] [reg o.d o.hd] := rfl
@[simp] theorem use_shfl c x1 b64 x2 o : (Instr.shfl x1 b64 x2 o).use c =
    .of o.g [regN o.a (if b64 then 2 else 1) o.ha, reg o.b o.hb] [regN o.d (if b64 then 2 else 1) o.hd] := rfl
@[simp] theorem use_vote c m d a g hd : (Instr.vote m d a g hd).use c =
    (if m = .mask || m = .count then ⟨[], [reg d hd], Guard.uses g ++ [(a.toNat, 1)], [], false, false, []⟩ else ⟨[], [], Guard.uses g ++ [(a.toNat, 1)], [(d.toNat, 1)], false, false, []⟩) := rfl
@[simp] theorem use_redux c x1 o : (Instr.redux x1 o).use c = o.use := rfl
@[simp] theorem use_scan c x1 o : (Instr.scan x1 o).use c = o.use := rfl
@[simp] theorem use_matchLanes c b64 o : (Instr.matchLanes b64 o).use c =
    .of o.g [regN o.a (if b64 then 2 else 1) o.ha] [reg o.d o.hd] := rfl
@[simp] theorem use_ld c o : (Instr.ld o).use c = o.loadUse c (wide c) := rfl
@[simp] theorem use_lds c o : (Instr.lds o).use c = o.loadUse c 1 := rfl
@[simp] theorem use_ldc c o : (Instr.ldc o).use c = o.loadUse c 1 := rfl
@[simp] theorem use_st c o : (Instr.st o).use c = o.storeUse c (wide c) := rfl
@[simp] theorem use_sts c o : (Instr.sts o).use c = o.storeUse c 1 := rfl
@[simp] theorem use_atom c o : (Instr.atom o).use c = o.use c (wide c) := rfl
@[simp] theorem use_atoms c o : (Instr.atoms o).use c = o.use c 1 := rfl
@[simp] theorem use_red c o : (Instr.red o).use c =
    ⟨[regs o.a 2, regs o.b (o.size.regs c)], [], Guard.uses o.g, [], false, false, []⟩ := rfl
@[simp] theorem use_stmc c o : (Instr.stmc o).use c = o.storeUse c 2 := rfl
@[simp] theorem use_pref c a g x1 x2 : (Instr.pref a g x1 x2).use c = .of g [regs a 2] [] := rfl
@[simp] theorem use_disc c t a g : (Instr.disc t a g).use c = .of g [regs t 1, regs a 2] [] := rfl
@[simp] theorem use_fence c x1 x2 x3 g : (Instr.fence x1 x2 x3 g).use c = .of g [] [] := rfl
@[simp] theorem use_fencep c x1 x2 g : (Instr.fencep x1 x2 g).use c = .of g [] [] := rfl
@[simp] theorem use_claim c t a g x1 : (Instr.claim t a g x1).use c = (Use.of g [regs t 1, regs a 2] []).once := rfl
@[simp] theorem use_migr c a : (Instr.migr a).use c = (Use.of ⟨0, false⟩ [regs a 2] []).once := rfl
@[simp] theorem use_migrHome c : Instr.migrHome.use c = .none := rfl
@[simp] theorem use_barw c x1 b : (Instr.barw x1 b).use c = (Use.of ⟨0, false⟩ [regs b 1] []).once := rfl
@[simp] theorem use_bara c x1 b : (Instr.bara x1 b).use c = (Use.of ⟨0, false⟩ [regs b 1] []).once := rfl
@[simp] theorem use_bcbinit c a : (Instr.bcbinit a).use c = .quad a 2 [] [] := rfl
@[simp] theorem use_bcbexp c a b : (Instr.bcbexp a b).use c = .quad a 1 [regs b 1] [] := rfl
@[simp] theorem use_bcbarv c a : (Instr.bcbarv a).use c = .quad a 1 [] [] := rfl
@[simp] theorem use_bcbwait c a b : (Instr.bcbwait a b).use c = .quad a 1 [regs b 1] [] := rfl
@[simp] theorem use_bcbtry c a b : (Instr.bcbtry a b).use c = .quad a 1 [regs b 1] [regs b 1] := rfl
@[simp] theorem use_ringinit c x1 a : (Instr.ringinit x1 a).use c = .quad a 3 [] [] := rfl
@[simp] theorem use_ringacqFill c x1 b : (Instr.ringacqFill x1 b).use c = .of ⟨0, false⟩ [] [regs b 1] := rfl
@[simp] theorem use_ringacqFree c x1 b : (Instr.ringacqFree x1 b).use c = .of ⟨0, false⟩ [] [regs b 1] := rfl
@[simp] theorem use_ringrelFill c x1 : (Instr.ringrelFill x1).use c = .none := rfl
@[simp] theorem use_ringrelFree c x1 : (Instr.ringrelFree x1).use c = .none := rfl
@[simp] theorem use_gbar c x1 x2 : (Instr.gbar x1 x2).use c = .none := rfl
@[simp] theorem use_dqpop c d hd g : (Instr.dqpop d hd g).use c = .of g [] [regN d 2 hd] := rfl
@[simp] theorem use_rolechk c : Instr.rolechk.use c = .none := rfl
@[simp] theorem use_cpy c o : (Instr.cpy o).use c = .quad o.a 4 [] [] := rfl
@[simp] theorem use_gth c o : (Instr.gth o).use c = .quad o.a 4 [] [] := rfl
@[simp] theorem use_sct c o : (Instr.sct o).use c = .quad o.a 4 [] [] := rfl
@[simp] theorem use_rsend c a x1 x2 x3 : (Instr.rsend a x1 x2 x3).use c = .quad a 4 [] [] := rfl
@[simp] theorem use_rget c a x1 x2 : (Instr.rget a x1 x2).use c = .quad a 4 [] [] := rfl
@[simp] theorem use_ratom c a x1 x2 x3 : (Instr.ratom a x1 x2 x3).use c = .quad a 4 [] [] := rfl
@[simp] theorem use_ldimg c a x1 : (Instr.ldimg a x1).use c = .quad a 4 [] [] := rfl
@[simp] theorem use_fgrow c x1 : (Instr.fgrow x1).use c = .none := rfl
@[simp] theorem use_ftrim c x1 : (Instr.ftrim x1).use c = .none := rfl
@[simp] theorem use_sgrow c d x1 : (Instr.sgrow d x1).use c = .of ⟨0, false⟩ [] [regs d 1] := rfl
@[simp] theorem use_sgrowSwz c d x1 : (Instr.sgrowSwz d x1).use c = .of ⟨0, false⟩ [] [regs d 1] := rfl
@[simp] theorem use_strim c x1 : (Instr.strim x1).use c = .none := rfl
@[simp] theorem use_ocwb c g : (Instr.ocwb g).use c = .of g [] [] := rfl
@[simp] theorem use_dqpush c a g : (Instr.dqpush a g).use c = .of g [regs a 1] [] := rfl
@[simp] theorem use_mstart c : Instr.mstart.use c = .none := rfl
@[simp] theorem use_mstop c : Instr.mstop.use c = .none := rfl
@[simp] theorem use_enq c a x1 : (Instr.enq a x1).use c = .quad a 1 [] [] := rfl
@[simp] theorem use_mldb c x1 x2 x3 x4 x5 : (Instr.mldb x1 x2 x3 x4 x5).use c = .none := rfl
@[simp] theorem use_mmul c x1 : (Instr.mmul x1).use c = .none := rfl
@[simp] theorem use_mmulb c x1 : (Instr.mmulb x1).use c = .none := rfl
@[simp] theorem use_mscale c x1 x2 x3 : (Instr.mscale x1 x2 x3).use c = .none := rfl
@[simp] theorem use_mzero c x1 x2 : (Instr.mzero x1 x2).use c = .none := rfl
@[simp] theorem use_mdrain c x1 x2 x3 x4 x5 x6 : (Instr.mdrain x1 x2 x3 x4 x5 x6).use c = .none := rfl
@[simp] theorem use_msig c x1 x2 x3 : (Instr.msig x1 x2 x3).use c = .none := rfl
@[simp] theorem use_mwait c x1 x2 x3 : (Instr.mwait x1 x2 x3).use c = .none := rfl
@[simp] theorem use_mloop c x1 x2 : (Instr.mloop x1 x2).use c = .none := rfl
@[simp] theorem use_mset c x1 x2 : (Instr.mset x1 x2).use c = .none := rfl
@[simp] theorem use_mend c : Instr.mend.use c = .none := rfl
@[simp] theorem use_sread c d g id x1 : (Instr.sread d g id x1).use c = .of g [] [regs d (sregRegs c id)] := rfl
@[simp] theorem use_swrite c a g id x1 : (Instr.swrite a g id x1).use c =
    (match sreg id.toNat with
     | some r => if r.scope == .lane then Use.of g [regs a (sregRegs c id)] [] else (Use.of g [regs a (sregRegs c id)] []).once
     | none => Use.of g [regs a (sregRegs c id)] []) := rfl
@[simp] theorem use_timeRef c d g : (Instr.timeRef d g).use c = .of g [] [regs d (wide c)] := rfl
@[simp] theorem use_timeCyc c d g : (Instr.timeCyc d g).use c = .of g [] [regs d (wide c)] := rfl
@[simp] theorem use_eretReplay c : Instr.eretReplay.use c = .none := rfl
@[simp] theorem use_eretResume c : Instr.eretResume.use c = .none := rfl
@[simp] theorem use_tlbinv c a g x1 x2 : (Instr.tlbinv a g x1 x2).use c = .of g [regs a 2] [] := rfl
@[simp] theorem use_tlbinvAsid c g x1 x2 : (Instr.tlbinvAsid g x1 x2).use c = .of g [] [] := rfl
@[simp] theorem use_tlbinvAll c g x1 : (Instr.tlbinvAll g x1).use c = .of g [] [] := rfl
@[simp] theorem use_probe c d a g : (Instr.probe d a g).use c = .of g [regs a 2] [regs d 4] := rfl
@[simp] theorem use_probeAs c d a g x1 : (Instr.probeAs d a g x1).use c = .of g [regs a 2] [regs d 4] := rfl
@[simp] theorem use_wsave c a g x1 : (Instr.wsave a g x1).use c = (Use.of g [regs a 2] []).once := rfl
@[simp] theorem use_wsaveFrame c a g x1 : (Instr.wsaveFrame a g x1).use c = (Use.of g [regs a 2] []).once := rfl
@[simp] theorem use_wload c a g x1 : (Instr.wload a g x1).use c = (Use.of g [regs a 2] []).once := rfl
@[simp] theorem use_wloadFrame c a g x1 : (Instr.wloadFrame a g x1).use c = (Use.of g [regs a 2] []).once := rfl

/-! What a LANE clause and a FRONT clause ask of the fields (`Instr.laneOk`, `Instr.frontOk`, `Instr.sregOk`) -/

@[simp] theorem laneOk_nop x1 : (Instr.nop x1).laneOk = true := rfl
@[simp] theorem laneOk_bra x1 x2 : (Instr.bra x1 x2).laneOk = true := rfl
@[simp] theorem laneOk_brx x1 x2 : (Instr.brx x1 x2).laneOk = true := rfl
@[simp] theorem laneOk_call x1 x2 x3 : (Instr.call x1 x2 x3).laneOk = true := rfl
@[simp] theorem laneOk_callx x1 x2 x3 : (Instr.callx x1 x2 x3).laneOk = true := rfl
@[simp] theorem laneOk_ret x1 x2 : (Instr.ret x1 x2).laneOk = true := rfl
@[simp] theorem laneOk_yield x1 : (Instr.yield x1).laneOk = true := rfl
@[simp] theorem laneOk_exit x1 : (Instr.exit x1).laneOk = true := rfl
@[simp] theorem laneOk_trap x1 x2 : (Instr.trap x1 x2).laneOk = true := rfl
@[simp] theorem laneOk_bkpt x1 x2 : (Instr.bkpt x1 x2).laneOk = true := rfl
@[simp] theorem laneOk_iadd x1 : (Instr.iadd x1).laneOk = true := rfl
@[simp] theorem laneOk_isub x1 : (Instr.isub x1).laneOk = true := rfl
@[simp] theorem laneOk_imul x1 : (Instr.imul x1).laneOk = true := rfl
@[simp] theorem laneOk_imulh x1 x2 : (Instr.imulh x1 x2).laneOk = true := rfl
@[simp] theorem laneOk_imad x1 : (Instr.imad x1).laneOk = true := rfl
@[simp] theorem laneOk_idiv x1 x2 : (Instr.idiv x1 x2).laneOk = true := rfl
@[simp] theorem laneOk_irem x1 x2 : (Instr.irem x1 x2).laneOk = true := rfl
@[simp] theorem laneOk_imin x1 x2 : (Instr.imin x1 x2).laneOk = true := rfl
@[simp] theorem laneOk_imax x1 x2 : (Instr.imax x1 x2).laneOk = true := rfl
@[simp] theorem laneOk_iabs x1 : (Instr.iabs x1).laneOk = true := rfl
@[simp] theorem laneOk_iset x1 x2 : (Instr.iset x1 x2).laneOk = true := rfl
@[simp] theorem laneOk_sel x1 x2 : (Instr.sel x1 x2).laneOk = true := rfl
@[simp] theorem laneOk_lea x1 sh : (Instr.lea x1 sh).laneOk = (decide (sh.toNat ≤ 31)) := rfl
@[simp] theorem laneOk_mov x1 : (Instr.mov x1).laneOk = true := rfl
@[simp] theorem laneOk_movi x1 x2 x3 : (Instr.movi x1 x2 x3).laneOk = true := rfl
@[simp] theorem laneOk_x2p x1 x2 x3 x4 : (Instr.x2p x1 x2 x3 x4).laneOk = true := rfl
@[simp] theorem laneOk_and x1 : (Instr.and x1).laneOk = true := rfl
@[simp] theorem laneOk_or x1 : (Instr.or x1).laneOk = true := rfl
@[simp] theorem laneOk_xor x1 : (Instr.xor x1).laneOk = true := rfl
@[simp] theorem laneOk_andn x1 : (Instr.andn x1).laneOk = true := rfl
@[simp] theorem laneOk_lop3 x1 x2 : (Instr.lop3 x1 x2).laneOk = true := rfl
@[simp] theorem laneOk_shl x1 : (Instr.shl x1).laneOk = true := rfl
@[simp] theorem laneOk_shr x1 : (Instr.shr x1).laneOk = true := rfl
@[simp] theorem laneOk_sar x1 : (Instr.sar x1).laneOk = true := rfl
@[simp] theorem laneOk_rot x1 : (Instr.rot x1).laneOk = true := rfl
@[simp] theorem laneOk_clz x1 : (Instr.clz x1).laneOk = true := rfl
@[simp] theorem laneOk_popc x1 : (Instr.popc x1).laneOk = true := rfl
@[simp] theorem laneOk_brev x1 : (Instr.brev x1).laneOk = true := rfl
@[simp] theorem laneOk_bfx x1 x2 : (Instr.bfx x1 x2).laneOk = true := rfl
@[simp] theorem laneOk_bfi x1 : (Instr.bfi x1).laneOk = true := rfl
@[simp] theorem laneOk_plop x1 x2 x3 x4 x5 x6 : (Instr.plop x1 x2 x3 x4 x5 x6).laneOk = true := rfl
@[simp] theorem laneOk_p2x x1 x2 x3 x4 : (Instr.p2x x1 x2 x3 x4).laneOk = true := rfl
@[simp] theorem laneOk_fadd x1 x2 : (Instr.fadd x1 x2).laneOk = true := rfl
@[simp] theorem laneOk_fsub x1 x2 : (Instr.fsub x1 x2).laneOk = true := rfl
@[simp] theorem laneOk_fmul x1 x2 : (Instr.fmul x1 x2).laneOk = true := rfl
@[simp] theorem laneOk_ffma x1 x2 : (Instr.ffma x1 x2).laneOk = true := rfl
@[simp] theorem laneOk_fmin x1 x2 : (Instr.fmin x1 x2).laneOk = true := rfl
@[simp] theorem laneOk_fmax x1 x2 : (Instr.fmax x1 x2).laneOk = true := rfl
@[simp] theorem laneOk_fset x1 x2 x3 x4 : (Instr.fset x1 x2 x3 x4).laneOk = true := rfl
@[simp] theorem laneOk_fclass x1 x2 : (Instr.fclass x1 x2).laneOk = true := rfl
@[simp] theorem laneOk_fscale x1 x2 : (Instr.fscale x1 x2).laneOk = true := rfl
@[simp] theorem laneOk_frnd x1 x2 : (Instr.frnd x1 x2).laneOk = true := rfl
@[simp] theorem laneOk_fdiv x1 x2 : (Instr.fdiv x1 x2).laneOk = true := rfl
@[simp] theorem laneOk_frcp x1 x2 : (Instr.frcp x1 x2).laneOk = true := rfl
@[simp] theorem laneOk_frsq x1 x2 : (Instr.frsq x1 x2).laneOk = true := rfl
@[simp] theorem laneOk_fsqrt x1 x2 : (Instr.fsqrt x1 x2).laneOk = true := rfl
@[simp] theorem laneOk_fexp2 x1 x2 : (Instr.fexp2 x1 x2).laneOk = true := rfl
@[simp] theorem laneOk_flog2 x1 x2 : (Instr.flog2 x1 x2).laneOk = true := rfl
@[simp] theorem laneOk_fsin x1 x2 : (Instr.fsin x1 x2).laneOk = true := rfl
@[simp] theorem laneOk_fcos x1 x2 : (Instr.fcos x1 x2).laneOk = true := rfl
@[simp] theorem laneOk_ftanh x1 x2 : (Instr.ftanh x1 x2).laneOk = true := rfl
@[simp] theorem laneOk_cvt x1 x2 x3 x4 x5 : (Instr.cvt x1 x2 x3 x4 x5).laneOk = true := rfl
@[simp] theorem laneOk_pk8 x1 x2 x3 x4 : (Instr.pk8 x1 x2 x3 x4).laneOk = true := rfl
@[simp] theorem laneOk_upk8 x1 x2 : (Instr.upk8 x1 x2).laneOk = true := rfl
@[simp] theorem laneOk_pk4 x1 : (Instr.pk4 x1).laneOk = true := rfl
@[simp] theorem laneOk_upk4 x1 : (Instr.upk4 x1).laneOk = true := rfl
@[simp] theorem laneOk_qscl x1 x2 : (Instr.qscl x1 x2).laneOk = true := rfl
@[simp] theorem laneOk_scac x1 : (Instr.scac x1).laneOk = true := rfl
@[simp] theorem laneOk_shfl x1 x2 x3 x4 : (Instr.shfl x1 x2 x3 x4).laneOk = true := rfl
@[simp] theorem laneOk_vote x1 x2 x3 x4 x5 : (Instr.vote x1 x2 x3 x4 x5).laneOk = true := rfl
@[simp] theorem laneOk_redux x1 x2 : (Instr.redux x1 x2).laneOk = true := rfl
@[simp] theorem laneOk_scan x1 x2 : (Instr.scan x1 x2).laneOk = true := rfl
@[simp] theorem laneOk_matchLanes x1 x2 : (Instr.matchLanes x1 x2).laneOk = true := rfl
@[simp] theorem laneOk_ld o : (Instr.ld o).laneOk = (groupOk 2 o.a && groupOk (o.size.regs .lane) o.t) := rfl
@[simp] theorem laneOk_lds o : (Instr.lds o).laneOk = groupOk (o.size.regs .lane) o.t := rfl
@[simp] theorem laneOk_ldc o : (Instr.ldc o).laneOk = groupOk (o.size.regs .lane) o.t := rfl
@[simp] theorem laneOk_st o : (Instr.st o).laneOk = (groupOk 2 o.a && groupOk (o.size.regs .lane) o.t) := rfl
@[simp] theorem laneOk_sts o : (Instr.sts o).laneOk = groupOk (o.size.regs .lane) o.t := rfl
@[simp] theorem laneOk_atom o : (Instr.atom o).laneOk =
    (groupOk 2 o.a && groupOk (o.size.regs .lane) o.d && groupOk (o.size.regs .lane) o.b && groupOk (o.size.regs .lane) o.c) := rfl
@[simp] theorem laneOk_atoms o : (Instr.atoms o).laneOk =
    (groupOk (o.size.regs .lane) o.d && groupOk (o.size.regs .lane) o.b && groupOk (o.size.regs .lane) o.c) := rfl
@[simp] theorem laneOk_red o : (Instr.red o).laneOk =
    (groupOk (o.size.regs .lane) o.d && groupOk (o.size.regs .lane) o.b && groupOk (o.size.regs .lane) o.c) := rfl
@[simp] theorem laneOk_stmc o : (Instr.stmc o).laneOk = groupOk (o.size.regs .lane) o.t := rfl
@[simp] theorem laneOk_pref x1 x2 x3 x4 : (Instr.pref x1 x2 x3 x4).laneOk = true := rfl
@[simp] theorem laneOk_disc x1 x2 x3 : (Instr.disc x1 x2 x3).laneOk = true := rfl
@[simp] theorem laneOk_fence x1 x2 x3 x4 : (Instr.fence x1 x2 x3 x4).laneOk = true := rfl
@[simp] theorem laneOk_fencep x1 x2 x3 : (Instr.fencep x1 x2 x3).laneOk = true := rfl
@[simp] theorem laneOk_claim x1 x2 x3 x4 : (Instr.claim x1 x2 x3 x4).laneOk = true := rfl
@[simp] theorem laneOk_migr x1 : (Instr.migr x1).laneOk = true := rfl
@[simp] theorem laneOk_migrHome : Instr.migrHome.laneOk = true := rfl
@[simp] theorem laneOk_barw x1 x2 : (Instr.barw x1 x2).laneOk = true := rfl
@[simp] theorem laneOk_bara x1 x2 : (Instr.bara x1 x2).laneOk = true := rfl
@[simp] theorem laneOk_bcbinit x1 : (Instr.bcbinit x1).laneOk = true := rfl
@[simp] theorem laneOk_bcbexp x1 x2 : (Instr.bcbexp x1 x2).laneOk = true := rfl
@[simp] theorem laneOk_bcbarv x1 : (Instr.bcbarv x1).laneOk = true := rfl
@[simp] theorem laneOk_bcbwait x1 x2 : (Instr.bcbwait x1 x2).laneOk = true := rfl
@[simp] theorem laneOk_bcbtry x1 x2 : (Instr.bcbtry x1 x2).laneOk = true := rfl
@[simp] theorem laneOk_ringinit x1 x2 : (Instr.ringinit x1 x2).laneOk = true := rfl
@[simp] theorem laneOk_ringacqFill x1 x2 : (Instr.ringacqFill x1 x2).laneOk = true := rfl
@[simp] theorem laneOk_ringacqFree x1 x2 : (Instr.ringacqFree x1 x2).laneOk = true := rfl
@[simp] theorem laneOk_ringrelFill x1 : (Instr.ringrelFill x1).laneOk = true := rfl
@[simp] theorem laneOk_ringrelFree x1 : (Instr.ringrelFree x1).laneOk = true := rfl
@[simp] theorem laneOk_gbar x1 x2 : (Instr.gbar x1 x2).laneOk = true := rfl
@[simp] theorem laneOk_dqpop x1 x2 x3 : (Instr.dqpop x1 x2 x3).laneOk = true := rfl
@[simp] theorem laneOk_rolechk : Instr.rolechk.laneOk = true := rfl
@[simp] theorem laneOk_cpy x1 : (Instr.cpy x1).laneOk = true := rfl
@[simp] theorem laneOk_gth x1 : (Instr.gth x1).laneOk = true := rfl
@[simp] theorem laneOk_sct x1 : (Instr.sct x1).laneOk = true := rfl
@[simp] theorem laneOk_rsend x1 x2 x3 x4 : (Instr.rsend x1 x2 x3 x4).laneOk = true := rfl
@[simp] theorem laneOk_rget x1 x2 x3 : (Instr.rget x1 x2 x3).laneOk = true := rfl
@[simp] theorem laneOk_ratom x1 x2 x3 x4 : (Instr.ratom x1 x2 x3 x4).laneOk = true := rfl
@[simp] theorem laneOk_ldimg x1 x2 : (Instr.ldimg x1 x2).laneOk = true := rfl
@[simp] theorem laneOk_fgrow x1 : (Instr.fgrow x1).laneOk = true := rfl
@[simp] theorem laneOk_ftrim x1 : (Instr.ftrim x1).laneOk = true := rfl
@[simp] theorem laneOk_sgrow x1 x2 : (Instr.sgrow x1 x2).laneOk = true := rfl
@[simp] theorem laneOk_sgrowSwz x1 x2 : (Instr.sgrowSwz x1 x2).laneOk = true := rfl
@[simp] theorem laneOk_strim x1 : (Instr.strim x1).laneOk = true := rfl
@[simp] theorem laneOk_ocwb x1 : (Instr.ocwb x1).laneOk = true := rfl
@[simp] theorem laneOk_dqpush x1 x2 : (Instr.dqpush x1 x2).laneOk = true := rfl
@[simp] theorem laneOk_mstart : Instr.mstart.laneOk = true := rfl
@[simp] theorem laneOk_mstop : Instr.mstop.laneOk = true := rfl
@[simp] theorem laneOk_enq x1 x2 : (Instr.enq x1 x2).laneOk = true := rfl
@[simp] theorem laneOk_mldb x1 x2 x3 x4 x5 : (Instr.mldb x1 x2 x3 x4 x5).laneOk = true := rfl
@[simp] theorem laneOk_mmul x1 : (Instr.mmul x1).laneOk = true := rfl
@[simp] theorem laneOk_mmulb x1 : (Instr.mmulb x1).laneOk = true := rfl
@[simp] theorem laneOk_mscale x1 x2 x3 : (Instr.mscale x1 x2 x3).laneOk = true := rfl
@[simp] theorem laneOk_mzero x1 x2 : (Instr.mzero x1 x2).laneOk = true := rfl
@[simp] theorem laneOk_mdrain x1 x2 x3 x4 x5 x6 : (Instr.mdrain x1 x2 x3 x4 x5 x6).laneOk = true := rfl
@[simp] theorem laneOk_msig x1 x2 x3 : (Instr.msig x1 x2 x3).laneOk = true := rfl
@[simp] theorem laneOk_mwait x1 x2 x3 : (Instr.mwait x1 x2 x3).laneOk = true := rfl
@[simp] theorem laneOk_mloop x1 x2 : (Instr.mloop x1 x2).laneOk = true := rfl
@[simp] theorem laneOk_mset x1 x2 : (Instr.mset x1 x2).laneOk = true := rfl
@[simp] theorem laneOk_mend : Instr.mend.laneOk = true := rfl
@[simp] theorem laneOk_sread d x1 id x2 : (Instr.sread d x1 id x2).laneOk =
    (groupOk (sregRegs .lane id) d && id != 0x0009) := rfl
@[simp] theorem laneOk_swrite a x1 id x2 : (Instr.swrite a x1 id x2).laneOk =
    (groupOk (sregRegs .lane id) a && id != 0x0009) := rfl
@[simp] theorem laneOk_timeRef d x1 : (Instr.timeRef d x1).laneOk = groupOk 2 d := rfl
@[simp] theorem laneOk_timeCyc d x1 : (Instr.timeCyc d x1).laneOk = groupOk 2 d := rfl
@[simp] theorem laneOk_eretReplay : Instr.eretReplay.laneOk = true := rfl
@[simp] theorem laneOk_eretResume : Instr.eretResume.laneOk = true := rfl
@[simp] theorem laneOk_tlbinv x1 x2 x3 x4 : (Instr.tlbinv x1 x2 x3 x4).laneOk = true := rfl
@[simp] theorem laneOk_tlbinvAsid x1 x2 x3 : (Instr.tlbinvAsid x1 x2 x3).laneOk = true := rfl
@[simp] theorem laneOk_tlbinvAll x1 x2 : (Instr.tlbinvAll x1 x2).laneOk = true := rfl
@[simp] theorem laneOk_probe x1 x2 x3 : (Instr.probe x1 x2 x3).laneOk = true := rfl
@[simp] theorem laneOk_probeAs x1 x2 x3 x4 : (Instr.probeAs x1 x2 x3 x4).laneOk = true := rfl
@[simp] theorem laneOk_wsave x1 x2 x3 : (Instr.wsave x1 x2 x3).laneOk = true := rfl
@[simp] theorem laneOk_wsaveFrame x1 x2 x3 : (Instr.wsaveFrame x1 x2 x3).laneOk = true := rfl
@[simp] theorem laneOk_wload x1 x2 x3 : (Instr.wload x1 x2 x3).laneOk = true := rfl
@[simp] theorem laneOk_wloadFrame x1 x2 x3 : (Instr.wloadFrame x1 x2 x3).laneOk = true := rfl
@[simp] theorem frontOk_nop x1 : (Instr.nop x1).frontOk = true := rfl
@[simp] theorem frontOk_bra x1 x2 : (Instr.bra x1 x2).frontOk = true := rfl
@[simp] theorem frontOk_brx x1 x2 : (Instr.brx x1 x2).frontOk = true := rfl
@[simp] theorem frontOk_call x1 x2 x3 : (Instr.call x1 x2 x3).frontOk = true := rfl
@[simp] theorem frontOk_callx x1 x2 x3 : (Instr.callx x1 x2 x3).frontOk = true := rfl
@[simp] theorem frontOk_ret x1 x2 : (Instr.ret x1 x2).frontOk = true := rfl
@[simp] theorem frontOk_yield x1 : (Instr.yield x1).frontOk = true := rfl
@[simp] theorem frontOk_exit x1 : (Instr.exit x1).frontOk = true := rfl
@[simp] theorem frontOk_trap x1 x2 : (Instr.trap x1 x2).frontOk = true := rfl
@[simp] theorem frontOk_bkpt x1 x2 : (Instr.bkpt x1 x2).frontOk = true := rfl
@[simp] theorem frontOk_iadd x1 : (Instr.iadd x1).frontOk = true := rfl
@[simp] theorem frontOk_isub x1 : (Instr.isub x1).frontOk = true := rfl
@[simp] theorem frontOk_imul x1 : (Instr.imul x1).frontOk = true := rfl
@[simp] theorem frontOk_imulh x1 x2 : (Instr.imulh x1 x2).frontOk = true := rfl
@[simp] theorem frontOk_imad x1 : (Instr.imad x1).frontOk = true := rfl
@[simp] theorem frontOk_idiv x1 x2 : (Instr.idiv x1 x2).frontOk = true := rfl
@[simp] theorem frontOk_irem x1 x2 : (Instr.irem x1 x2).frontOk = true := rfl
@[simp] theorem frontOk_imin x1 x2 : (Instr.imin x1 x2).frontOk = true := rfl
@[simp] theorem frontOk_imax x1 x2 : (Instr.imax x1 x2).frontOk = true := rfl
@[simp] theorem frontOk_iabs x1 : (Instr.iabs x1).frontOk = true := rfl
@[simp] theorem frontOk_iset x1 x2 : (Instr.iset x1 x2).frontOk = true := rfl
@[simp] theorem frontOk_sel x1 x2 : (Instr.sel x1 x2).frontOk = true := rfl
@[simp] theorem frontOk_lea x1 x2 : (Instr.lea x1 x2).frontOk = true := rfl
@[simp] theorem frontOk_mov x1 : (Instr.mov x1).frontOk = true := rfl
@[simp] theorem frontOk_movi x1 x2 x3 : (Instr.movi x1 x2 x3).frontOk = true := rfl
@[simp] theorem frontOk_x2p d x1 x2 x3 : (Instr.x2p d x1 x2 x3).frontOk = (d == 0) := rfl
@[simp] theorem frontOk_and x1 : (Instr.and x1).frontOk = true := rfl
@[simp] theorem frontOk_or x1 : (Instr.or x1).frontOk = true := rfl
@[simp] theorem frontOk_xor x1 : (Instr.xor x1).frontOk = true := rfl
@[simp] theorem frontOk_andn x1 : (Instr.andn x1).frontOk = true := rfl
@[simp] theorem frontOk_lop3 x1 x2 : (Instr.lop3 x1 x2).frontOk = true := rfl
@[simp] theorem frontOk_shl x1 : (Instr.shl x1).frontOk = true := rfl
@[simp] theorem frontOk_shr x1 : (Instr.shr x1).frontOk = true := rfl
@[simp] theorem frontOk_sar x1 : (Instr.sar x1).frontOk = true := rfl
@[simp] theorem frontOk_rot x1 : (Instr.rot x1).frontOk = true := rfl
@[simp] theorem frontOk_clz x1 : (Instr.clz x1).frontOk = true := rfl
@[simp] theorem frontOk_popc x1 : (Instr.popc x1).frontOk = true := rfl
@[simp] theorem frontOk_brev x1 : (Instr.brev x1).frontOk = true := rfl
@[simp] theorem frontOk_bfx x1 x2 : (Instr.bfx x1 x2).frontOk = true := rfl
@[simp] theorem frontOk_bfi x1 : (Instr.bfi x1).frontOk = true := rfl
@[simp] theorem frontOk_plop x1 x2 x3 x4 x5 x6 : (Instr.plop x1 x2 x3 x4 x5 x6).frontOk = true := rfl
@[simp] theorem frontOk_p2x x1 a x2 x3 : (Instr.p2x x1 a x2 x3).frontOk = (a == 0) := rfl
@[simp] theorem frontOk_fadd x1 x2 : (Instr.fadd x1 x2).frontOk = true := rfl
@[simp] theorem frontOk_fsub x1 x2 : (Instr.fsub x1 x2).frontOk = true := rfl
@[simp] theorem frontOk_fmul x1 x2 : (Instr.fmul x1 x2).frontOk = true := rfl
@[simp] theorem frontOk_ffma x1 x2 : (Instr.ffma x1 x2).frontOk = true := rfl
@[simp] theorem frontOk_fmin x1 x2 : (Instr.fmin x1 x2).frontOk = true := rfl
@[simp] theorem frontOk_fmax x1 x2 : (Instr.fmax x1 x2).frontOk = true := rfl
@[simp] theorem frontOk_fset x1 x2 x3 x4 : (Instr.fset x1 x2 x3 x4).frontOk = true := rfl
@[simp] theorem frontOk_fclass x1 x2 : (Instr.fclass x1 x2).frontOk = true := rfl
@[simp] theorem frontOk_fscale x1 x2 : (Instr.fscale x1 x2).frontOk = true := rfl
@[simp] theorem frontOk_frnd x1 x2 : (Instr.frnd x1 x2).frontOk = true := rfl
@[simp] theorem frontOk_fdiv x1 x2 : (Instr.fdiv x1 x2).frontOk = true := rfl
@[simp] theorem frontOk_frcp x1 x2 : (Instr.frcp x1 x2).frontOk = true := rfl
@[simp] theorem frontOk_frsq x1 x2 : (Instr.frsq x1 x2).frontOk = true := rfl
@[simp] theorem frontOk_fsqrt x1 x2 : (Instr.fsqrt x1 x2).frontOk = true := rfl
@[simp] theorem frontOk_fexp2 x1 x2 : (Instr.fexp2 x1 x2).frontOk = true := rfl
@[simp] theorem frontOk_flog2 x1 x2 : (Instr.flog2 x1 x2).frontOk = true := rfl
@[simp] theorem frontOk_fsin x1 x2 : (Instr.fsin x1 x2).frontOk = true := rfl
@[simp] theorem frontOk_fcos x1 x2 : (Instr.fcos x1 x2).frontOk = true := rfl
@[simp] theorem frontOk_ftanh x1 x2 : (Instr.ftanh x1 x2).frontOk = true := rfl
@[simp] theorem frontOk_cvt x1 x2 x3 x4 x5 : (Instr.cvt x1 x2 x3 x4 x5).frontOk = true := rfl
@[simp] theorem frontOk_pk8 x1 x2 x3 x4 : (Instr.pk8 x1 x2 x3 x4).frontOk = true := rfl
@[simp] theorem frontOk_upk8 x1 x2 : (Instr.upk8 x1 x2).frontOk = true := rfl
@[simp] theorem frontOk_pk4 x1 : (Instr.pk4 x1).frontOk = true := rfl
@[simp] theorem frontOk_upk4 x1 : (Instr.upk4 x1).frontOk = true := rfl
@[simp] theorem frontOk_qscl x1 x2 : (Instr.qscl x1 x2).frontOk = true := rfl
@[simp] theorem frontOk_scac x1 : (Instr.scac x1).frontOk = true := rfl
@[simp] theorem frontOk_shfl x1 x2 x3 x4 : (Instr.shfl x1 x2 x3 x4).frontOk = true := rfl
@[simp] theorem frontOk_vote x1 x2 x3 x4 x5 : (Instr.vote x1 x2 x3 x4 x5).frontOk = true := rfl
@[simp] theorem frontOk_redux x1 x2 : (Instr.redux x1 x2).frontOk = true := rfl
@[simp] theorem frontOk_scan x1 x2 : (Instr.scan x1 x2).frontOk = true := rfl
@[simp] theorem frontOk_matchLanes x1 x2 : (Instr.matchLanes x1 x2).frontOk = true := rfl
@[simp] theorem frontOk_ld o : (Instr.ld o).frontOk = (o.size != .b128) := rfl
@[simp] theorem frontOk_lds x1 : (Instr.lds x1).frontOk = true := rfl
@[simp] theorem frontOk_ldc x1 : (Instr.ldc x1).frontOk = true := rfl
@[simp] theorem frontOk_st o : (Instr.st o).frontOk = (o.size != .b128) := rfl
@[simp] theorem frontOk_sts x1 : (Instr.sts x1).frontOk = true := rfl
@[simp] theorem frontOk_atom x1 : (Instr.atom x1).frontOk = true := rfl
@[simp] theorem frontOk_atoms x1 : (Instr.atoms x1).frontOk = true := rfl
@[simp] theorem frontOk_red x1 : (Instr.red x1).frontOk = true := rfl
@[simp] theorem frontOk_stmc x1 : (Instr.stmc x1).frontOk = true := rfl
@[simp] theorem frontOk_pref x1 x2 x3 x4 : (Instr.pref x1 x2 x3 x4).frontOk = true := rfl
@[simp] theorem frontOk_disc x1 x2 x3 : (Instr.disc x1 x2 x3).frontOk = true := rfl
@[simp] theorem frontOk_fence x1 x2 x3 x4 : (Instr.fence x1 x2 x3 x4).frontOk = true := rfl
@[simp] theorem frontOk_fencep x1 x2 x3 : (Instr.fencep x1 x2 x3).frontOk = true := rfl
@[simp] theorem frontOk_claim x1 x2 x3 x4 : (Instr.claim x1 x2 x3 x4).frontOk = true := rfl
@[simp] theorem frontOk_migr x1 : (Instr.migr x1).frontOk = true := rfl
@[simp] theorem frontOk_migrHome : Instr.migrHome.frontOk = true := rfl
@[simp] theorem frontOk_barw x1 x2 : (Instr.barw x1 x2).frontOk = true := rfl
@[simp] theorem frontOk_bara x1 x2 : (Instr.bara x1 x2).frontOk = true := rfl
@[simp] theorem frontOk_bcbinit x1 : (Instr.bcbinit x1).frontOk = true := rfl
@[simp] theorem frontOk_bcbexp x1 x2 : (Instr.bcbexp x1 x2).frontOk = true := rfl
@[simp] theorem frontOk_bcbarv x1 : (Instr.bcbarv x1).frontOk = true := rfl
@[simp] theorem frontOk_bcbwait x1 x2 : (Instr.bcbwait x1 x2).frontOk = true := rfl
@[simp] theorem frontOk_bcbtry x1 x2 : (Instr.bcbtry x1 x2).frontOk = true := rfl
@[simp] theorem frontOk_ringinit x1 x2 : (Instr.ringinit x1 x2).frontOk = true := rfl
@[simp] theorem frontOk_ringacqFill x1 x2 : (Instr.ringacqFill x1 x2).frontOk = true := rfl
@[simp] theorem frontOk_ringacqFree x1 x2 : (Instr.ringacqFree x1 x2).frontOk = true := rfl
@[simp] theorem frontOk_ringrelFill x1 : (Instr.ringrelFill x1).frontOk = true := rfl
@[simp] theorem frontOk_ringrelFree x1 : (Instr.ringrelFree x1).frontOk = true := rfl
@[simp] theorem frontOk_gbar x1 x2 : (Instr.gbar x1 x2).frontOk = true := rfl
@[simp] theorem frontOk_dqpop x1 x2 x3 : (Instr.dqpop x1 x2 x3).frontOk = true := rfl
@[simp] theorem frontOk_rolechk : Instr.rolechk.frontOk = true := rfl
@[simp] theorem frontOk_cpy x1 : (Instr.cpy x1).frontOk = true := rfl
@[simp] theorem frontOk_gth x1 : (Instr.gth x1).frontOk = true := rfl
@[simp] theorem frontOk_sct x1 : (Instr.sct x1).frontOk = true := rfl
@[simp] theorem frontOk_rsend x1 x2 x3 x4 : (Instr.rsend x1 x2 x3 x4).frontOk = true := rfl
@[simp] theorem frontOk_rget x1 x2 x3 : (Instr.rget x1 x2 x3).frontOk = true := rfl
@[simp] theorem frontOk_ratom x1 x2 x3 x4 : (Instr.ratom x1 x2 x3 x4).frontOk = true := rfl
@[simp] theorem frontOk_ldimg x1 x2 : (Instr.ldimg x1 x2).frontOk = true := rfl
@[simp] theorem frontOk_fgrow x1 : (Instr.fgrow x1).frontOk = true := rfl
@[simp] theorem frontOk_ftrim x1 : (Instr.ftrim x1).frontOk = true := rfl
@[simp] theorem frontOk_sgrow x1 x2 : (Instr.sgrow x1 x2).frontOk = true := rfl
@[simp] theorem frontOk_sgrowSwz x1 x2 : (Instr.sgrowSwz x1 x2).frontOk = true := rfl
@[simp] theorem frontOk_strim x1 : (Instr.strim x1).frontOk = true := rfl
@[simp] theorem frontOk_ocwb x1 : (Instr.ocwb x1).frontOk = true := rfl
@[simp] theorem frontOk_dqpush x1 x2 : (Instr.dqpush x1 x2).frontOk = true := rfl
@[simp] theorem frontOk_mstart : Instr.mstart.frontOk = true := rfl
@[simp] theorem frontOk_mstop : Instr.mstop.frontOk = true := rfl
@[simp] theorem frontOk_enq x1 x2 : (Instr.enq x1 x2).frontOk = true := rfl
@[simp] theorem frontOk_mldb x1 x2 x3 x4 x5 : (Instr.mldb x1 x2 x3 x4 x5).frontOk = true := rfl
@[simp] theorem frontOk_mmul x1 : (Instr.mmul x1).frontOk = true := rfl
@[simp] theorem frontOk_mmulb x1 : (Instr.mmulb x1).frontOk = true := rfl
@[simp] theorem frontOk_mscale x1 x2 x3 : (Instr.mscale x1 x2 x3).frontOk = true := rfl
@[simp] theorem frontOk_mzero x1 x2 : (Instr.mzero x1 x2).frontOk = true := rfl
@[simp] theorem frontOk_mdrain x1 x2 x3 x4 x5 x6 : (Instr.mdrain x1 x2 x3 x4 x5 x6).frontOk = true := rfl
@[simp] theorem frontOk_msig x1 x2 x3 : (Instr.msig x1 x2 x3).frontOk = true := rfl
@[simp] theorem frontOk_mwait x1 x2 x3 : (Instr.mwait x1 x2 x3).frontOk = true := rfl
@[simp] theorem frontOk_mloop x1 x2 : (Instr.mloop x1 x2).frontOk = true := rfl
@[simp] theorem frontOk_mset x1 x2 : (Instr.mset x1 x2).frontOk = true := rfl
@[simp] theorem frontOk_mend : Instr.mend.frontOk = true := rfl
@[simp] theorem frontOk_sread x1 x2 id x3 : (Instr.sread x1 x2 id x3).frontOk =
    (match sreg id.toNat with | some r => r.scope != .lane && r.scope != .warp | none => true) := rfl
@[simp] theorem frontOk_swrite x1 x2 id x3 : (Instr.swrite x1 x2 id x3).frontOk =
    (match sreg id.toNat with | some r => r.scope != .lane && r.scope != .warp | none => true) := rfl
@[simp] theorem frontOk_timeRef x1 x2 : (Instr.timeRef x1 x2).frontOk = true := rfl
@[simp] theorem frontOk_timeCyc x1 x2 : (Instr.timeCyc x1 x2).frontOk = true := rfl
@[simp] theorem frontOk_eretReplay : Instr.eretReplay.frontOk = true := rfl
@[simp] theorem frontOk_eretResume : Instr.eretResume.frontOk = true := rfl
@[simp] theorem frontOk_tlbinv x1 x2 x3 x4 : (Instr.tlbinv x1 x2 x3 x4).frontOk = true := rfl
@[simp] theorem frontOk_tlbinvAsid x1 x2 x3 : (Instr.tlbinvAsid x1 x2 x3).frontOk = true := rfl
@[simp] theorem frontOk_tlbinvAll x1 x2 : (Instr.tlbinvAll x1 x2).frontOk = true := rfl
@[simp] theorem frontOk_probe x1 x2 x3 : (Instr.probe x1 x2 x3).frontOk = true := rfl
@[simp] theorem frontOk_probeAs x1 x2 x3 x4 : (Instr.probeAs x1 x2 x3 x4).frontOk = true := rfl
@[simp] theorem frontOk_wsave x1 x2 x3 : (Instr.wsave x1 x2 x3).frontOk = true := rfl
@[simp] theorem frontOk_wsaveFrame x1 x2 x3 : (Instr.wsaveFrame x1 x2 x3).frontOk = true := rfl
@[simp] theorem frontOk_wload x1 x2 x3 : (Instr.wload x1 x2 x3).frontOk = true := rfl
@[simp] theorem frontOk_wloadFrame x1 x2 x3 : (Instr.wloadFrame x1 x2 x3).frontOk = true := rfl
@[simp] theorem sregOk_nop x1 : (Instr.nop x1).sregOk = true := rfl
@[simp] theorem sregOk_bra x1 x2 : (Instr.bra x1 x2).sregOk = true := rfl
@[simp] theorem sregOk_brx x1 x2 : (Instr.brx x1 x2).sregOk = true := rfl
@[simp] theorem sregOk_call x1 x2 x3 : (Instr.call x1 x2 x3).sregOk = true := rfl
@[simp] theorem sregOk_callx x1 x2 x3 : (Instr.callx x1 x2 x3).sregOk = true := rfl
@[simp] theorem sregOk_ret x1 x2 : (Instr.ret x1 x2).sregOk = true := rfl
@[simp] theorem sregOk_yield x1 : (Instr.yield x1).sregOk = true := rfl
@[simp] theorem sregOk_exit x1 : (Instr.exit x1).sregOk = true := rfl
@[simp] theorem sregOk_trap x1 x2 : (Instr.trap x1 x2).sregOk = true := rfl
@[simp] theorem sregOk_bkpt x1 x2 : (Instr.bkpt x1 x2).sregOk = true := rfl
@[simp] theorem sregOk_iadd x1 : (Instr.iadd x1).sregOk = true := rfl
@[simp] theorem sregOk_isub x1 : (Instr.isub x1).sregOk = true := rfl
@[simp] theorem sregOk_imul x1 : (Instr.imul x1).sregOk = true := rfl
@[simp] theorem sregOk_imulh x1 x2 : (Instr.imulh x1 x2).sregOk = true := rfl
@[simp] theorem sregOk_imad x1 : (Instr.imad x1).sregOk = true := rfl
@[simp] theorem sregOk_idiv x1 x2 : (Instr.idiv x1 x2).sregOk = true := rfl
@[simp] theorem sregOk_irem x1 x2 : (Instr.irem x1 x2).sregOk = true := rfl
@[simp] theorem sregOk_imin x1 x2 : (Instr.imin x1 x2).sregOk = true := rfl
@[simp] theorem sregOk_imax x1 x2 : (Instr.imax x1 x2).sregOk = true := rfl
@[simp] theorem sregOk_iabs x1 : (Instr.iabs x1).sregOk = true := rfl
@[simp] theorem sregOk_iset x1 x2 : (Instr.iset x1 x2).sregOk = true := rfl
@[simp] theorem sregOk_sel x1 x2 : (Instr.sel x1 x2).sregOk = true := rfl
@[simp] theorem sregOk_lea x1 x2 : (Instr.lea x1 x2).sregOk = true := rfl
@[simp] theorem sregOk_mov x1 : (Instr.mov x1).sregOk = true := rfl
@[simp] theorem sregOk_movi x1 x2 x3 : (Instr.movi x1 x2 x3).sregOk = true := rfl
@[simp] theorem sregOk_x2p x1 x2 x3 x4 : (Instr.x2p x1 x2 x3 x4).sregOk = true := rfl
@[simp] theorem sregOk_and x1 : (Instr.and x1).sregOk = true := rfl
@[simp] theorem sregOk_or x1 : (Instr.or x1).sregOk = true := rfl
@[simp] theorem sregOk_xor x1 : (Instr.xor x1).sregOk = true := rfl
@[simp] theorem sregOk_andn x1 : (Instr.andn x1).sregOk = true := rfl
@[simp] theorem sregOk_lop3 x1 x2 : (Instr.lop3 x1 x2).sregOk = true := rfl
@[simp] theorem sregOk_shl x1 : (Instr.shl x1).sregOk = true := rfl
@[simp] theorem sregOk_shr x1 : (Instr.shr x1).sregOk = true := rfl
@[simp] theorem sregOk_sar x1 : (Instr.sar x1).sregOk = true := rfl
@[simp] theorem sregOk_rot x1 : (Instr.rot x1).sregOk = true := rfl
@[simp] theorem sregOk_clz x1 : (Instr.clz x1).sregOk = true := rfl
@[simp] theorem sregOk_popc x1 : (Instr.popc x1).sregOk = true := rfl
@[simp] theorem sregOk_brev x1 : (Instr.brev x1).sregOk = true := rfl
@[simp] theorem sregOk_bfx x1 x2 : (Instr.bfx x1 x2).sregOk = true := rfl
@[simp] theorem sregOk_bfi x1 : (Instr.bfi x1).sregOk = true := rfl
@[simp] theorem sregOk_plop x1 x2 x3 x4 x5 x6 : (Instr.plop x1 x2 x3 x4 x5 x6).sregOk = true := rfl
@[simp] theorem sregOk_p2x x1 x2 x3 x4 : (Instr.p2x x1 x2 x3 x4).sregOk = true := rfl
@[simp] theorem sregOk_fadd x1 x2 : (Instr.fadd x1 x2).sregOk = true := rfl
@[simp] theorem sregOk_fsub x1 x2 : (Instr.fsub x1 x2).sregOk = true := rfl
@[simp] theorem sregOk_fmul x1 x2 : (Instr.fmul x1 x2).sregOk = true := rfl
@[simp] theorem sregOk_ffma x1 x2 : (Instr.ffma x1 x2).sregOk = true := rfl
@[simp] theorem sregOk_fmin x1 x2 : (Instr.fmin x1 x2).sregOk = true := rfl
@[simp] theorem sregOk_fmax x1 x2 : (Instr.fmax x1 x2).sregOk = true := rfl
@[simp] theorem sregOk_fset x1 x2 x3 x4 : (Instr.fset x1 x2 x3 x4).sregOk = true := rfl
@[simp] theorem sregOk_fclass x1 x2 : (Instr.fclass x1 x2).sregOk = true := rfl
@[simp] theorem sregOk_fscale x1 x2 : (Instr.fscale x1 x2).sregOk = true := rfl
@[simp] theorem sregOk_frnd x1 x2 : (Instr.frnd x1 x2).sregOk = true := rfl
@[simp] theorem sregOk_fdiv x1 x2 : (Instr.fdiv x1 x2).sregOk = true := rfl
@[simp] theorem sregOk_frcp x1 x2 : (Instr.frcp x1 x2).sregOk = true := rfl
@[simp] theorem sregOk_frsq x1 x2 : (Instr.frsq x1 x2).sregOk = true := rfl
@[simp] theorem sregOk_fsqrt x1 x2 : (Instr.fsqrt x1 x2).sregOk = true := rfl
@[simp] theorem sregOk_fexp2 x1 x2 : (Instr.fexp2 x1 x2).sregOk = true := rfl
@[simp] theorem sregOk_flog2 x1 x2 : (Instr.flog2 x1 x2).sregOk = true := rfl
@[simp] theorem sregOk_fsin x1 x2 : (Instr.fsin x1 x2).sregOk = true := rfl
@[simp] theorem sregOk_fcos x1 x2 : (Instr.fcos x1 x2).sregOk = true := rfl
@[simp] theorem sregOk_ftanh x1 x2 : (Instr.ftanh x1 x2).sregOk = true := rfl
@[simp] theorem sregOk_cvt x1 x2 x3 x4 x5 : (Instr.cvt x1 x2 x3 x4 x5).sregOk = true := rfl
@[simp] theorem sregOk_pk8 x1 x2 x3 x4 : (Instr.pk8 x1 x2 x3 x4).sregOk = true := rfl
@[simp] theorem sregOk_upk8 x1 x2 : (Instr.upk8 x1 x2).sregOk = true := rfl
@[simp] theorem sregOk_pk4 x1 : (Instr.pk4 x1).sregOk = true := rfl
@[simp] theorem sregOk_upk4 x1 : (Instr.upk4 x1).sregOk = true := rfl
@[simp] theorem sregOk_qscl x1 x2 : (Instr.qscl x1 x2).sregOk = true := rfl
@[simp] theorem sregOk_scac x1 : (Instr.scac x1).sregOk = true := rfl
@[simp] theorem sregOk_shfl x1 x2 x3 x4 : (Instr.shfl x1 x2 x3 x4).sregOk = true := rfl
@[simp] theorem sregOk_vote x1 x2 x3 x4 x5 : (Instr.vote x1 x2 x3 x4 x5).sregOk = true := rfl
@[simp] theorem sregOk_redux x1 x2 : (Instr.redux x1 x2).sregOk = true := rfl
@[simp] theorem sregOk_scan x1 x2 : (Instr.scan x1 x2).sregOk = true := rfl
@[simp] theorem sregOk_matchLanes x1 x2 : (Instr.matchLanes x1 x2).sregOk = true := rfl
@[simp] theorem sregOk_ld x1 : (Instr.ld x1).sregOk = true := rfl
@[simp] theorem sregOk_lds x1 : (Instr.lds x1).sregOk = true := rfl
@[simp] theorem sregOk_ldc x1 : (Instr.ldc x1).sregOk = true := rfl
@[simp] theorem sregOk_st x1 : (Instr.st x1).sregOk = true := rfl
@[simp] theorem sregOk_sts x1 : (Instr.sts x1).sregOk = true := rfl
@[simp] theorem sregOk_atom x1 : (Instr.atom x1).sregOk = true := rfl
@[simp] theorem sregOk_atoms x1 : (Instr.atoms x1).sregOk = true := rfl
@[simp] theorem sregOk_red x1 : (Instr.red x1).sregOk = true := rfl
@[simp] theorem sregOk_stmc x1 : (Instr.stmc x1).sregOk = true := rfl
@[simp] theorem sregOk_pref x1 x2 x3 x4 : (Instr.pref x1 x2 x3 x4).sregOk = true := rfl
@[simp] theorem sregOk_disc x1 x2 x3 : (Instr.disc x1 x2 x3).sregOk = true := rfl
@[simp] theorem sregOk_fence x1 x2 x3 x4 : (Instr.fence x1 x2 x3 x4).sregOk = true := rfl
@[simp] theorem sregOk_fencep x1 x2 x3 : (Instr.fencep x1 x2 x3).sregOk = true := rfl
@[simp] theorem sregOk_claim x1 x2 x3 x4 : (Instr.claim x1 x2 x3 x4).sregOk = true := rfl
@[simp] theorem sregOk_migr x1 : (Instr.migr x1).sregOk = true := rfl
@[simp] theorem sregOk_migrHome : Instr.migrHome.sregOk = true := rfl
@[simp] theorem sregOk_barw x1 x2 : (Instr.barw x1 x2).sregOk = true := rfl
@[simp] theorem sregOk_bara x1 x2 : (Instr.bara x1 x2).sregOk = true := rfl
@[simp] theorem sregOk_bcbinit x1 : (Instr.bcbinit x1).sregOk = true := rfl
@[simp] theorem sregOk_bcbexp x1 x2 : (Instr.bcbexp x1 x2).sregOk = true := rfl
@[simp] theorem sregOk_bcbarv x1 : (Instr.bcbarv x1).sregOk = true := rfl
@[simp] theorem sregOk_bcbwait x1 x2 : (Instr.bcbwait x1 x2).sregOk = true := rfl
@[simp] theorem sregOk_bcbtry x1 x2 : (Instr.bcbtry x1 x2).sregOk = true := rfl
@[simp] theorem sregOk_ringinit x1 x2 : (Instr.ringinit x1 x2).sregOk = true := rfl
@[simp] theorem sregOk_ringacqFill x1 x2 : (Instr.ringacqFill x1 x2).sregOk = true := rfl
@[simp] theorem sregOk_ringacqFree x1 x2 : (Instr.ringacqFree x1 x2).sregOk = true := rfl
@[simp] theorem sregOk_ringrelFill x1 : (Instr.ringrelFill x1).sregOk = true := rfl
@[simp] theorem sregOk_ringrelFree x1 : (Instr.ringrelFree x1).sregOk = true := rfl
@[simp] theorem sregOk_gbar x1 x2 : (Instr.gbar x1 x2).sregOk = true := rfl
@[simp] theorem sregOk_dqpop x1 x2 x3 : (Instr.dqpop x1 x2 x3).sregOk = true := rfl
@[simp] theorem sregOk_rolechk : Instr.rolechk.sregOk = true := rfl
@[simp] theorem sregOk_cpy x1 : (Instr.cpy x1).sregOk = true := rfl
@[simp] theorem sregOk_gth x1 : (Instr.gth x1).sregOk = true := rfl
@[simp] theorem sregOk_sct x1 : (Instr.sct x1).sregOk = true := rfl
@[simp] theorem sregOk_rsend x1 x2 x3 x4 : (Instr.rsend x1 x2 x3 x4).sregOk = true := rfl
@[simp] theorem sregOk_rget x1 x2 x3 : (Instr.rget x1 x2 x3).sregOk = true := rfl
@[simp] theorem sregOk_ratom x1 x2 x3 x4 : (Instr.ratom x1 x2 x3 x4).sregOk = true := rfl
@[simp] theorem sregOk_ldimg x1 x2 : (Instr.ldimg x1 x2).sregOk = true := rfl
@[simp] theorem sregOk_fgrow x1 : (Instr.fgrow x1).sregOk = true := rfl
@[simp] theorem sregOk_ftrim x1 : (Instr.ftrim x1).sregOk = true := rfl
@[simp] theorem sregOk_sgrow x1 x2 : (Instr.sgrow x1 x2).sregOk = true := rfl
@[simp] theorem sregOk_sgrowSwz x1 x2 : (Instr.sgrowSwz x1 x2).sregOk = true := rfl
@[simp] theorem sregOk_strim x1 : (Instr.strim x1).sregOk = true := rfl
@[simp] theorem sregOk_ocwb x1 : (Instr.ocwb x1).sregOk = true := rfl
@[simp] theorem sregOk_dqpush x1 x2 : (Instr.dqpush x1 x2).sregOk = true := rfl
@[simp] theorem sregOk_mstart : Instr.mstart.sregOk = true := rfl
@[simp] theorem sregOk_mstop : Instr.mstop.sregOk = true := rfl
@[simp] theorem sregOk_enq x1 x2 : (Instr.enq x1 x2).sregOk = true := rfl
@[simp] theorem sregOk_mldb x1 x2 x3 x4 x5 : (Instr.mldb x1 x2 x3 x4 x5).sregOk = true := rfl
@[simp] theorem sregOk_mmul x1 : (Instr.mmul x1).sregOk = true := rfl
@[simp] theorem sregOk_mmulb x1 : (Instr.mmulb x1).sregOk = true := rfl
@[simp] theorem sregOk_mscale x1 x2 x3 : (Instr.mscale x1 x2 x3).sregOk = true := rfl
@[simp] theorem sregOk_mzero x1 x2 : (Instr.mzero x1 x2).sregOk = true := rfl
@[simp] theorem sregOk_mdrain x1 x2 x3 x4 x5 x6 : (Instr.mdrain x1 x2 x3 x4 x5 x6).sregOk = true := rfl
@[simp] theorem sregOk_msig x1 x2 x3 : (Instr.msig x1 x2 x3).sregOk = true := rfl
@[simp] theorem sregOk_mwait x1 x2 x3 : (Instr.mwait x1 x2 x3).sregOk = true := rfl
@[simp] theorem sregOk_mloop x1 x2 : (Instr.mloop x1 x2).sregOk = true := rfl
@[simp] theorem sregOk_mset x1 x2 : (Instr.mset x1 x2).sregOk = true := rfl
@[simp] theorem sregOk_mend : Instr.mend.sregOk = true := rfl
@[simp] theorem sregOk_sread x1 x2 id idx : (Instr.sread x1 x2 id idx).sregOk = sregFieldsOk true id idx := rfl
@[simp] theorem sregOk_swrite x1 x2 id idx : (Instr.swrite x1 x2 id idx).sregOk = sregFieldsOk false id idx := rfl
@[simp] theorem sregOk_timeRef x1 x2 : (Instr.timeRef x1 x2).sregOk = true := rfl
@[simp] theorem sregOk_timeCyc x1 x2 : (Instr.timeCyc x1 x2).sregOk = true := rfl
@[simp] theorem sregOk_eretReplay : Instr.eretReplay.sregOk = true := rfl
@[simp] theorem sregOk_eretResume : Instr.eretResume.sregOk = true := rfl
@[simp] theorem sregOk_tlbinv x1 x2 x3 x4 : (Instr.tlbinv x1 x2 x3 x4).sregOk = true := rfl
@[simp] theorem sregOk_tlbinvAsid x1 x2 x3 : (Instr.tlbinvAsid x1 x2 x3).sregOk = true := rfl
@[simp] theorem sregOk_tlbinvAll x1 x2 : (Instr.tlbinvAll x1 x2).sregOk = true := rfl
@[simp] theorem sregOk_probe x1 x2 x3 : (Instr.probe x1 x2 x3).sregOk = true := rfl
@[simp] theorem sregOk_probeAs x1 x2 x3 x4 : (Instr.probeAs x1 x2 x3 x4).sregOk = true := rfl
@[simp] theorem sregOk_wsave x1 x2 x3 : (Instr.wsave x1 x2 x3).sregOk = true := rfl
@[simp] theorem sregOk_wsaveFrame x1 x2 x3 : (Instr.wsaveFrame x1 x2 x3).sregOk = true := rfl
@[simp] theorem sregOk_wload x1 x2 x3 : (Instr.wload x1 x2 x3).sregOk = true := rfl
@[simp] theorem sregOk_wloadFrame x1 x2 x3 : (Instr.wloadFrame x1 x2 x3).sregOk = true := rfl

/-! Token prices and privilege (`priceOf`, `privileged`) -/

@[simp] theorem priceOf_nop x1 : priceOf (Instr.nop x1) = 0 := rfl
@[simp] theorem priceOf_bra x1 x2 : priceOf (Instr.bra x1 x2) = 0 := rfl
@[simp] theorem priceOf_brx x1 x2 : priceOf (Instr.brx x1 x2) = 0 := rfl
@[simp] theorem priceOf_call x1 x2 x3 : priceOf (Instr.call x1 x2 x3) = 0 := rfl
@[simp] theorem priceOf_callx x1 x2 x3 : priceOf (Instr.callx x1 x2 x3) = 0 := rfl
@[simp] theorem priceOf_ret x1 x2 : priceOf (Instr.ret x1 x2) = 0 := rfl
@[simp] theorem priceOf_yield x1 : priceOf (Instr.yield x1) = 0 := rfl
@[simp] theorem priceOf_exit x1 : priceOf (Instr.exit x1) = 0 := rfl
@[simp] theorem priceOf_trap x1 x2 : priceOf (Instr.trap x1 x2) = 0 := rfl
@[simp] theorem priceOf_bkpt x1 x2 : priceOf (Instr.bkpt x1 x2) = 0 := rfl
@[simp] theorem priceOf_iadd x1 : priceOf (Instr.iadd x1) = 0 := rfl
@[simp] theorem priceOf_isub x1 : priceOf (Instr.isub x1) = 0 := rfl
@[simp] theorem priceOf_imul x1 : priceOf (Instr.imul x1) = 0 := rfl
@[simp] theorem priceOf_imulh x1 x2 : priceOf (Instr.imulh x1 x2) = 0 := rfl
@[simp] theorem priceOf_imad x1 : priceOf (Instr.imad x1) = 0 := rfl
@[simp] theorem priceOf_idiv x1 x2 : priceOf (Instr.idiv x1 x2) = 0 := rfl
@[simp] theorem priceOf_irem x1 x2 : priceOf (Instr.irem x1 x2) = 0 := rfl
@[simp] theorem priceOf_imin x1 x2 : priceOf (Instr.imin x1 x2) = 0 := rfl
@[simp] theorem priceOf_imax x1 x2 : priceOf (Instr.imax x1 x2) = 0 := rfl
@[simp] theorem priceOf_iabs x1 : priceOf (Instr.iabs x1) = 0 := rfl
@[simp] theorem priceOf_iset x1 x2 : priceOf (Instr.iset x1 x2) = 0 := rfl
@[simp] theorem priceOf_sel x1 x2 : priceOf (Instr.sel x1 x2) = 0 := rfl
@[simp] theorem priceOf_lea x1 x2 : priceOf (Instr.lea x1 x2) = 0 := rfl
@[simp] theorem priceOf_mov x1 : priceOf (Instr.mov x1) = 0 := rfl
@[simp] theorem priceOf_movi x1 x2 x3 : priceOf (Instr.movi x1 x2 x3) = 0 := rfl
@[simp] theorem priceOf_x2p x1 x2 x3 x4 : priceOf (Instr.x2p x1 x2 x3 x4) = 0 := rfl
@[simp] theorem priceOf_and x1 : priceOf (Instr.and x1) = 0 := rfl
@[simp] theorem priceOf_or x1 : priceOf (Instr.or x1) = 0 := rfl
@[simp] theorem priceOf_xor x1 : priceOf (Instr.xor x1) = 0 := rfl
@[simp] theorem priceOf_andn x1 : priceOf (Instr.andn x1) = 0 := rfl
@[simp] theorem priceOf_lop3 x1 x2 : priceOf (Instr.lop3 x1 x2) = 0 := rfl
@[simp] theorem priceOf_shl x1 : priceOf (Instr.shl x1) = 0 := rfl
@[simp] theorem priceOf_shr x1 : priceOf (Instr.shr x1) = 0 := rfl
@[simp] theorem priceOf_sar x1 : priceOf (Instr.sar x1) = 0 := rfl
@[simp] theorem priceOf_rot x1 : priceOf (Instr.rot x1) = 0 := rfl
@[simp] theorem priceOf_clz x1 : priceOf (Instr.clz x1) = 0 := rfl
@[simp] theorem priceOf_popc x1 : priceOf (Instr.popc x1) = 0 := rfl
@[simp] theorem priceOf_brev x1 : priceOf (Instr.brev x1) = 0 := rfl
@[simp] theorem priceOf_bfx x1 x2 : priceOf (Instr.bfx x1 x2) = 0 := rfl
@[simp] theorem priceOf_bfi x1 : priceOf (Instr.bfi x1) = 0 := rfl
@[simp] theorem priceOf_plop x1 x2 x3 x4 x5 x6 : priceOf (Instr.plop x1 x2 x3 x4 x5 x6) = 0 := rfl
@[simp] theorem priceOf_p2x x1 x2 x3 x4 : priceOf (Instr.p2x x1 x2 x3 x4) = 0 := rfl
@[simp] theorem priceOf_fadd m x1 : priceOf (Instr.fadd m x1) = (if m.t = .f64 then 3 else 1) := rfl
@[simp] theorem priceOf_fsub m x1 : priceOf (Instr.fsub m x1) = (if m.t = .f64 then 3 else 1) := rfl
@[simp] theorem priceOf_fmul m x1 : priceOf (Instr.fmul m x1) = (if m.t = .f64 then 3 else 1) := rfl
@[simp] theorem priceOf_ffma m x1 : priceOf (Instr.ffma m x1) = (if m.t = .f64 then 3 else 1) := rfl
@[simp] theorem priceOf_fmin t x1 : priceOf (Instr.fmin t x1) = (if t = .f64 then 3 else 1) := rfl
@[simp] theorem priceOf_fmax t x1 : priceOf (Instr.fmax t x1) = (if t = .f64 then 3 else 1) := rfl
@[simp] theorem priceOf_fset t x1 x2 x3 : priceOf (Instr.fset t x1 x2 x3) = (if t = .f64 then 3 else 1) := rfl
@[simp] theorem priceOf_fclass t x1 : priceOf (Instr.fclass t x1) = (if t = .f64 then 3 else 1) := rfl
@[simp] theorem priceOf_fscale m x1 : priceOf (Instr.fscale m x1) = (if m.t = .f64 then 3 else 1) := rfl
@[simp] theorem priceOf_frnd m x1 : priceOf (Instr.frnd m x1) = (if m.t = .f64 then 3 else 1) := rfl
@[simp] theorem priceOf_fdiv m x1 : priceOf (Instr.fdiv m x1) = (if m.t = .f64 then 6 else 2) := rfl
@[simp] theorem priceOf_frcp x1 x2 : priceOf (Instr.frcp x1 x2) = 2 := rfl
@[simp] theorem priceOf_frsq x1 x2 : priceOf (Instr.frsq x1 x2) = 2 := rfl
@[simp] theorem priceOf_fsqrt m x1 : priceOf (Instr.fsqrt m x1) = (if m.t = .f64 then 3 else 2) := rfl
@[simp] theorem priceOf_fexp2 x1 x2 : priceOf (Instr.fexp2 x1 x2) = 2 := rfl
@[simp] theorem priceOf_flog2 x1 x2 : priceOf (Instr.flog2 x1 x2) = 2 := rfl
@[simp] theorem priceOf_fsin x1 x2 : priceOf (Instr.fsin x1 x2) = 2 := rfl
@[simp] theorem priceOf_fcos x1 x2 : priceOf (Instr.fcos x1 x2) = 2 := rfl
@[simp] theorem priceOf_ftanh x1 x2 : priceOf (Instr.ftanh x1 x2) = 2 := rfl
@[simp] theorem priceOf_cvt x1 x2 x3 x4 x5 : priceOf (Instr.cvt x1 x2 x3 x4 x5) = 1 := rfl
@[simp] theorem priceOf_pk8 x1 x2 x3 x4 : priceOf (Instr.pk8 x1 x2 x3 x4) = 1 := rfl
@[simp] theorem priceOf_upk8 x1 x2 : priceOf (Instr.upk8 x1 x2) = 1 := rfl
@[simp] theorem priceOf_pk4 x1 : priceOf (Instr.pk4 x1) = 1 := rfl
@[simp] theorem priceOf_upk4 x1 : priceOf (Instr.upk4 x1) = 1 := rfl
@[simp] theorem priceOf_qscl x1 x2 : priceOf (Instr.qscl x1 x2) = 1 := rfl
@[simp] theorem priceOf_scac x1 : priceOf (Instr.scac x1) = 1 := rfl
@[simp] theorem priceOf_shfl x1 x2 x3 x4 : priceOf (Instr.shfl x1 x2 x3 x4) = 2 := rfl
@[simp] theorem priceOf_vote x1 x2 x3 x4 x5 : priceOf (Instr.vote x1 x2 x3 x4 x5) = 0 := rfl
@[simp] theorem priceOf_redux x1 x2 : priceOf (Instr.redux x1 x2) = 1 := rfl
@[simp] theorem priceOf_scan x1 x2 : priceOf (Instr.scan x1 x2) = 1 := rfl
@[simp] theorem priceOf_matchLanes x1 x2 : priceOf (Instr.matchLanes x1 x2) = 2 := rfl
@[simp] theorem priceOf_ld x1 : priceOf (Instr.ld x1) = 0 := rfl
@[simp] theorem priceOf_lds x1 : priceOf (Instr.lds x1) = 0 := rfl
@[simp] theorem priceOf_ldc x1 : priceOf (Instr.ldc x1) = 0 := rfl
@[simp] theorem priceOf_st x1 : priceOf (Instr.st x1) = 0 := rfl
@[simp] theorem priceOf_sts x1 : priceOf (Instr.sts x1) = 0 := rfl
@[simp] theorem priceOf_atom x1 : priceOf (Instr.atom x1) = 0 := rfl
@[simp] theorem priceOf_atoms x1 : priceOf (Instr.atoms x1) = 0 := rfl
@[simp] theorem priceOf_red x1 : priceOf (Instr.red x1) = 0 := rfl
@[simp] theorem priceOf_stmc x1 : priceOf (Instr.stmc x1) = 2 := rfl
@[simp] theorem priceOf_pref x1 x2 x3 x4 : priceOf (Instr.pref x1 x2 x3 x4) = 0 := rfl
@[simp] theorem priceOf_disc x1 x2 x3 : priceOf (Instr.disc x1 x2 x3) = 0 := rfl
@[simp] theorem priceOf_fence x1 x2 x3 x4 : priceOf (Instr.fence x1 x2 x3 x4) = 0 := rfl
@[simp] theorem priceOf_fencep x1 x2 x3 : priceOf (Instr.fencep x1 x2 x3) = 0 := rfl
@[simp] theorem priceOf_claim x1 x2 x3 x4 : priceOf (Instr.claim x1 x2 x3 x4) = 0 := rfl
@[simp] theorem priceOf_migr x1 : priceOf (Instr.migr x1) = 0 := rfl
@[simp] theorem priceOf_migrHome : priceOf Instr.migrHome = 0 := rfl
@[simp] theorem priceOf_barw x1 x2 : priceOf (Instr.barw x1 x2) = 0 := rfl
@[simp] theorem priceOf_bara x1 x2 : priceOf (Instr.bara x1 x2) = 0 := rfl
@[simp] theorem priceOf_bcbinit x1 : priceOf (Instr.bcbinit x1) = 0 := rfl
@[simp] theorem priceOf_bcbexp x1 x2 : priceOf (Instr.bcbexp x1 x2) = 0 := rfl
@[simp] theorem priceOf_bcbarv x1 : priceOf (Instr.bcbarv x1) = 0 := rfl
@[simp] theorem priceOf_bcbwait x1 x2 : priceOf (Instr.bcbwait x1 x2) = 0 := rfl
@[simp] theorem priceOf_bcbtry x1 x2 : priceOf (Instr.bcbtry x1 x2) = 0 := rfl
@[simp] theorem priceOf_ringinit x1 x2 : priceOf (Instr.ringinit x1 x2) = 0 := rfl
@[simp] theorem priceOf_ringacqFill x1 x2 : priceOf (Instr.ringacqFill x1 x2) = 0 := rfl
@[simp] theorem priceOf_ringacqFree x1 x2 : priceOf (Instr.ringacqFree x1 x2) = 0 := rfl
@[simp] theorem priceOf_ringrelFill x1 : priceOf (Instr.ringrelFill x1) = 0 := rfl
@[simp] theorem priceOf_ringrelFree x1 : priceOf (Instr.ringrelFree x1) = 0 := rfl
@[simp] theorem priceOf_gbar x1 x2 : priceOf (Instr.gbar x1 x2) = 0 := rfl
@[simp] theorem priceOf_dqpop x1 x2 x3 : priceOf (Instr.dqpop x1 x2 x3) = 0 := rfl
@[simp] theorem priceOf_rolechk : priceOf Instr.rolechk = 0 := rfl
@[simp] theorem priceOf_cpy x1 : priceOf (Instr.cpy x1) = 0 := rfl
@[simp] theorem priceOf_gth x1 : priceOf (Instr.gth x1) = 0 := rfl
@[simp] theorem priceOf_sct x1 : priceOf (Instr.sct x1) = 0 := rfl
@[simp] theorem priceOf_rsend x1 x2 x3 x4 : priceOf (Instr.rsend x1 x2 x3 x4) = 0 := rfl
@[simp] theorem priceOf_rget x1 x2 x3 : priceOf (Instr.rget x1 x2 x3) = 0 := rfl
@[simp] theorem priceOf_ratom x1 x2 x3 x4 : priceOf (Instr.ratom x1 x2 x3 x4) = 0 := rfl
@[simp] theorem priceOf_ldimg x1 x2 : priceOf (Instr.ldimg x1 x2) = 0 := rfl
@[simp] theorem priceOf_fgrow x1 : priceOf (Instr.fgrow x1) = 0 := rfl
@[simp] theorem priceOf_ftrim x1 : priceOf (Instr.ftrim x1) = 0 := rfl
@[simp] theorem priceOf_sgrow x1 x2 : priceOf (Instr.sgrow x1 x2) = 0 := rfl
@[simp] theorem priceOf_sgrowSwz x1 x2 : priceOf (Instr.sgrowSwz x1 x2) = 0 := rfl
@[simp] theorem priceOf_strim x1 : priceOf (Instr.strim x1) = 0 := rfl
@[simp] theorem priceOf_ocwb x1 : priceOf (Instr.ocwb x1) = 0 := rfl
@[simp] theorem priceOf_dqpush x1 x2 : priceOf (Instr.dqpush x1 x2) = 0 := rfl
@[simp] theorem priceOf_mstart : priceOf Instr.mstart = 0 := rfl
@[simp] theorem priceOf_mstop : priceOf Instr.mstop = 0 := rfl
@[simp] theorem priceOf_enq x1 x2 : priceOf (Instr.enq x1 x2) = 0 := rfl
@[simp] theorem priceOf_mldb x1 x2 x3 x4 x5 : priceOf (Instr.mldb x1 x2 x3 x4 x5) = 0 := rfl
@[simp] theorem priceOf_mmul x1 : priceOf (Instr.mmul x1) = 0 := rfl
@[simp] theorem priceOf_mmulb x1 : priceOf (Instr.mmulb x1) = 0 := rfl
@[simp] theorem priceOf_mscale x1 x2 x3 : priceOf (Instr.mscale x1 x2 x3) = 0 := rfl
@[simp] theorem priceOf_mzero x1 x2 : priceOf (Instr.mzero x1 x2) = 0 := rfl
@[simp] theorem priceOf_mdrain x1 x2 x3 x4 x5 x6 : priceOf (Instr.mdrain x1 x2 x3 x4 x5 x6) = 0 := rfl
@[simp] theorem priceOf_msig x1 x2 x3 : priceOf (Instr.msig x1 x2 x3) = 0 := rfl
@[simp] theorem priceOf_mwait x1 x2 x3 : priceOf (Instr.mwait x1 x2 x3) = 0 := rfl
@[simp] theorem priceOf_mloop x1 x2 : priceOf (Instr.mloop x1 x2) = 0 := rfl
@[simp] theorem priceOf_mset x1 x2 : priceOf (Instr.mset x1 x2) = 0 := rfl
@[simp] theorem priceOf_mend : priceOf Instr.mend = 0 := rfl
@[simp] theorem priceOf_sread x1 x2 x3 x4 : priceOf (Instr.sread x1 x2 x3 x4) = 0 := rfl
@[simp] theorem priceOf_swrite x1 x2 x3 x4 : priceOf (Instr.swrite x1 x2 x3 x4) = 0 := rfl
@[simp] theorem priceOf_timeRef x1 x2 : priceOf (Instr.timeRef x1 x2) = 0 := rfl
@[simp] theorem priceOf_timeCyc x1 x2 : priceOf (Instr.timeCyc x1 x2) = 0 := rfl
@[simp] theorem priceOf_eretReplay : priceOf Instr.eretReplay = 0 := rfl
@[simp] theorem priceOf_eretResume : priceOf Instr.eretResume = 0 := rfl
@[simp] theorem priceOf_tlbinv x1 x2 x3 x4 : priceOf (Instr.tlbinv x1 x2 x3 x4) = 0 := rfl
@[simp] theorem priceOf_tlbinvAsid x1 x2 x3 : priceOf (Instr.tlbinvAsid x1 x2 x3) = 0 := rfl
@[simp] theorem priceOf_tlbinvAll x1 x2 : priceOf (Instr.tlbinvAll x1 x2) = 0 := rfl
@[simp] theorem priceOf_probe x1 x2 x3 : priceOf (Instr.probe x1 x2 x3) = 0 := rfl
@[simp] theorem priceOf_probeAs x1 x2 x3 x4 : priceOf (Instr.probeAs x1 x2 x3 x4) = 0 := rfl
@[simp] theorem priceOf_wsave x1 x2 x3 : priceOf (Instr.wsave x1 x2 x3) = 0 := rfl
@[simp] theorem priceOf_wsaveFrame x1 x2 x3 : priceOf (Instr.wsaveFrame x1 x2 x3) = 0 := rfl
@[simp] theorem priceOf_wload x1 x2 x3 : priceOf (Instr.wload x1 x2 x3) = 0 := rfl
@[simp] theorem priceOf_wloadFrame x1 x2 x3 : priceOf (Instr.wloadFrame x1 x2 x3) = 0 := rfl
@[simp] theorem privileged_nop x1 : privileged (Instr.nop x1) = false := rfl
@[simp] theorem privileged_bra x1 x2 : privileged (Instr.bra x1 x2) = false := rfl
@[simp] theorem privileged_brx x1 x2 : privileged (Instr.brx x1 x2) = false := rfl
@[simp] theorem privileged_call x1 x2 x3 : privileged (Instr.call x1 x2 x3) = false := rfl
@[simp] theorem privileged_callx x1 x2 x3 : privileged (Instr.callx x1 x2 x3) = false := rfl
@[simp] theorem privileged_ret x1 x2 : privileged (Instr.ret x1 x2) = false := rfl
@[simp] theorem privileged_yield x1 : privileged (Instr.yield x1) = false := rfl
@[simp] theorem privileged_exit x1 : privileged (Instr.exit x1) = false := rfl
@[simp] theorem privileged_trap x1 x2 : privileged (Instr.trap x1 x2) = false := rfl
@[simp] theorem privileged_bkpt x1 x2 : privileged (Instr.bkpt x1 x2) = false := rfl
@[simp] theorem privileged_iadd x1 : privileged (Instr.iadd x1) = false := rfl
@[simp] theorem privileged_isub x1 : privileged (Instr.isub x1) = false := rfl
@[simp] theorem privileged_imul x1 : privileged (Instr.imul x1) = false := rfl
@[simp] theorem privileged_imulh x1 x2 : privileged (Instr.imulh x1 x2) = false := rfl
@[simp] theorem privileged_imad x1 : privileged (Instr.imad x1) = false := rfl
@[simp] theorem privileged_idiv x1 x2 : privileged (Instr.idiv x1 x2) = false := rfl
@[simp] theorem privileged_irem x1 x2 : privileged (Instr.irem x1 x2) = false := rfl
@[simp] theorem privileged_imin x1 x2 : privileged (Instr.imin x1 x2) = false := rfl
@[simp] theorem privileged_imax x1 x2 : privileged (Instr.imax x1 x2) = false := rfl
@[simp] theorem privileged_iabs x1 : privileged (Instr.iabs x1) = false := rfl
@[simp] theorem privileged_iset x1 x2 : privileged (Instr.iset x1 x2) = false := rfl
@[simp] theorem privileged_sel x1 x2 : privileged (Instr.sel x1 x2) = false := rfl
@[simp] theorem privileged_lea x1 x2 : privileged (Instr.lea x1 x2) = false := rfl
@[simp] theorem privileged_mov x1 : privileged (Instr.mov x1) = false := rfl
@[simp] theorem privileged_movi x1 x2 x3 : privileged (Instr.movi x1 x2 x3) = false := rfl
@[simp] theorem privileged_x2p x1 x2 x3 x4 : privileged (Instr.x2p x1 x2 x3 x4) = false := rfl
@[simp] theorem privileged_and x1 : privileged (Instr.and x1) = false := rfl
@[simp] theorem privileged_or x1 : privileged (Instr.or x1) = false := rfl
@[simp] theorem privileged_xor x1 : privileged (Instr.xor x1) = false := rfl
@[simp] theorem privileged_andn x1 : privileged (Instr.andn x1) = false := rfl
@[simp] theorem privileged_lop3 x1 x2 : privileged (Instr.lop3 x1 x2) = false := rfl
@[simp] theorem privileged_shl x1 : privileged (Instr.shl x1) = false := rfl
@[simp] theorem privileged_shr x1 : privileged (Instr.shr x1) = false := rfl
@[simp] theorem privileged_sar x1 : privileged (Instr.sar x1) = false := rfl
@[simp] theorem privileged_rot x1 : privileged (Instr.rot x1) = false := rfl
@[simp] theorem privileged_clz x1 : privileged (Instr.clz x1) = false := rfl
@[simp] theorem privileged_popc x1 : privileged (Instr.popc x1) = false := rfl
@[simp] theorem privileged_brev x1 : privileged (Instr.brev x1) = false := rfl
@[simp] theorem privileged_bfx x1 x2 : privileged (Instr.bfx x1 x2) = false := rfl
@[simp] theorem privileged_bfi x1 : privileged (Instr.bfi x1) = false := rfl
@[simp] theorem privileged_plop x1 x2 x3 x4 x5 x6 : privileged (Instr.plop x1 x2 x3 x4 x5 x6) = false := rfl
@[simp] theorem privileged_p2x x1 x2 x3 x4 : privileged (Instr.p2x x1 x2 x3 x4) = false := rfl
@[simp] theorem privileged_fadd x1 x2 : privileged (Instr.fadd x1 x2) = false := rfl
@[simp] theorem privileged_fsub x1 x2 : privileged (Instr.fsub x1 x2) = false := rfl
@[simp] theorem privileged_fmul x1 x2 : privileged (Instr.fmul x1 x2) = false := rfl
@[simp] theorem privileged_ffma x1 x2 : privileged (Instr.ffma x1 x2) = false := rfl
@[simp] theorem privileged_fmin x1 x2 : privileged (Instr.fmin x1 x2) = false := rfl
@[simp] theorem privileged_fmax x1 x2 : privileged (Instr.fmax x1 x2) = false := rfl
@[simp] theorem privileged_fset x1 x2 x3 x4 : privileged (Instr.fset x1 x2 x3 x4) = false := rfl
@[simp] theorem privileged_fclass x1 x2 : privileged (Instr.fclass x1 x2) = false := rfl
@[simp] theorem privileged_fscale x1 x2 : privileged (Instr.fscale x1 x2) = false := rfl
@[simp] theorem privileged_frnd x1 x2 : privileged (Instr.frnd x1 x2) = false := rfl
@[simp] theorem privileged_fdiv x1 x2 : privileged (Instr.fdiv x1 x2) = false := rfl
@[simp] theorem privileged_frcp x1 x2 : privileged (Instr.frcp x1 x2) = false := rfl
@[simp] theorem privileged_frsq x1 x2 : privileged (Instr.frsq x1 x2) = false := rfl
@[simp] theorem privileged_fsqrt x1 x2 : privileged (Instr.fsqrt x1 x2) = false := rfl
@[simp] theorem privileged_fexp2 x1 x2 : privileged (Instr.fexp2 x1 x2) = false := rfl
@[simp] theorem privileged_flog2 x1 x2 : privileged (Instr.flog2 x1 x2) = false := rfl
@[simp] theorem privileged_fsin x1 x2 : privileged (Instr.fsin x1 x2) = false := rfl
@[simp] theorem privileged_fcos x1 x2 : privileged (Instr.fcos x1 x2) = false := rfl
@[simp] theorem privileged_ftanh x1 x2 : privileged (Instr.ftanh x1 x2) = false := rfl
@[simp] theorem privileged_cvt x1 x2 x3 x4 x5 : privileged (Instr.cvt x1 x2 x3 x4 x5) = false := rfl
@[simp] theorem privileged_pk8 x1 x2 x3 x4 : privileged (Instr.pk8 x1 x2 x3 x4) = false := rfl
@[simp] theorem privileged_upk8 x1 x2 : privileged (Instr.upk8 x1 x2) = false := rfl
@[simp] theorem privileged_pk4 x1 : privileged (Instr.pk4 x1) = false := rfl
@[simp] theorem privileged_upk4 x1 : privileged (Instr.upk4 x1) = false := rfl
@[simp] theorem privileged_qscl x1 x2 : privileged (Instr.qscl x1 x2) = false := rfl
@[simp] theorem privileged_scac x1 : privileged (Instr.scac x1) = false := rfl
@[simp] theorem privileged_shfl x1 x2 x3 x4 : privileged (Instr.shfl x1 x2 x3 x4) = false := rfl
@[simp] theorem privileged_vote x1 x2 x3 x4 x5 : privileged (Instr.vote x1 x2 x3 x4 x5) = false := rfl
@[simp] theorem privileged_redux x1 x2 : privileged (Instr.redux x1 x2) = false := rfl
@[simp] theorem privileged_scan x1 x2 : privileged (Instr.scan x1 x2) = false := rfl
@[simp] theorem privileged_matchLanes x1 x2 : privileged (Instr.matchLanes x1 x2) = false := rfl
@[simp] theorem privileged_ld x1 : privileged (Instr.ld x1) = false := rfl
@[simp] theorem privileged_lds x1 : privileged (Instr.lds x1) = false := rfl
@[simp] theorem privileged_ldc x1 : privileged (Instr.ldc x1) = false := rfl
@[simp] theorem privileged_st x1 : privileged (Instr.st x1) = false := rfl
@[simp] theorem privileged_sts x1 : privileged (Instr.sts x1) = false := rfl
@[simp] theorem privileged_atom x1 : privileged (Instr.atom x1) = false := rfl
@[simp] theorem privileged_atoms x1 : privileged (Instr.atoms x1) = false := rfl
@[simp] theorem privileged_red x1 : privileged (Instr.red x1) = false := rfl
@[simp] theorem privileged_stmc x1 : privileged (Instr.stmc x1) = false := rfl
@[simp] theorem privileged_pref x1 x2 x3 x4 : privileged (Instr.pref x1 x2 x3 x4) = false := rfl
@[simp] theorem privileged_disc x1 x2 x3 : privileged (Instr.disc x1 x2 x3) = false := rfl
@[simp] theorem privileged_fence x1 x2 x3 x4 : privileged (Instr.fence x1 x2 x3 x4) = false := rfl
@[simp] theorem privileged_fencep x1 x2 x3 : privileged (Instr.fencep x1 x2 x3) = false := rfl
@[simp] theorem privileged_claim x1 x2 x3 x4 : privileged (Instr.claim x1 x2 x3 x4) = false := rfl
@[simp] theorem privileged_migr x1 : privileged (Instr.migr x1) = false := rfl
@[simp] theorem privileged_migrHome : privileged Instr.migrHome = false := rfl
@[simp] theorem privileged_barw x1 x2 : privileged (Instr.barw x1 x2) = false := rfl
@[simp] theorem privileged_bara x1 x2 : privileged (Instr.bara x1 x2) = false := rfl
@[simp] theorem privileged_bcbinit x1 : privileged (Instr.bcbinit x1) = false := rfl
@[simp] theorem privileged_bcbexp x1 x2 : privileged (Instr.bcbexp x1 x2) = false := rfl
@[simp] theorem privileged_bcbarv x1 : privileged (Instr.bcbarv x1) = false := rfl
@[simp] theorem privileged_bcbwait x1 x2 : privileged (Instr.bcbwait x1 x2) = false := rfl
@[simp] theorem privileged_bcbtry x1 x2 : privileged (Instr.bcbtry x1 x2) = false := rfl
@[simp] theorem privileged_ringinit x1 x2 : privileged (Instr.ringinit x1 x2) = false := rfl
@[simp] theorem privileged_ringacqFill x1 x2 : privileged (Instr.ringacqFill x1 x2) = false := rfl
@[simp] theorem privileged_ringacqFree x1 x2 : privileged (Instr.ringacqFree x1 x2) = false := rfl
@[simp] theorem privileged_ringrelFill x1 : privileged (Instr.ringrelFill x1) = false := rfl
@[simp] theorem privileged_ringrelFree x1 : privileged (Instr.ringrelFree x1) = false := rfl
@[simp] theorem privileged_gbar x1 x2 : privileged (Instr.gbar x1 x2) = false := rfl
@[simp] theorem privileged_dqpop x1 x2 x3 : privileged (Instr.dqpop x1 x2 x3) = false := rfl
@[simp] theorem privileged_rolechk : privileged Instr.rolechk = false := rfl
@[simp] theorem privileged_cpy x1 : privileged (Instr.cpy x1) = false := rfl
@[simp] theorem privileged_gth x1 : privileged (Instr.gth x1) = false := rfl
@[simp] theorem privileged_sct x1 : privileged (Instr.sct x1) = false := rfl
@[simp] theorem privileged_rsend x1 x2 x3 x4 : privileged (Instr.rsend x1 x2 x3 x4) = false := rfl
@[simp] theorem privileged_rget x1 x2 x3 : privileged (Instr.rget x1 x2 x3) = false := rfl
@[simp] theorem privileged_ratom x1 x2 x3 x4 : privileged (Instr.ratom x1 x2 x3 x4) = false := rfl
@[simp] theorem privileged_ldimg x1 x2 : privileged (Instr.ldimg x1 x2) = false := rfl
@[simp] theorem privileged_fgrow x1 : privileged (Instr.fgrow x1) = false := rfl
@[simp] theorem privileged_ftrim x1 : privileged (Instr.ftrim x1) = false := rfl
@[simp] theorem privileged_sgrow x1 x2 : privileged (Instr.sgrow x1 x2) = false := rfl
@[simp] theorem privileged_sgrowSwz x1 x2 : privileged (Instr.sgrowSwz x1 x2) = false := rfl
@[simp] theorem privileged_strim x1 : privileged (Instr.strim x1) = false := rfl
@[simp] theorem privileged_ocwb x1 : privileged (Instr.ocwb x1) = false := rfl
@[simp] theorem privileged_dqpush x1 x2 : privileged (Instr.dqpush x1 x2) = false := rfl
@[simp] theorem privileged_mstart : privileged Instr.mstart = false := rfl
@[simp] theorem privileged_mstop : privileged Instr.mstop = false := rfl
@[simp] theorem privileged_enq x1 x2 : privileged (Instr.enq x1 x2) = false := rfl
@[simp] theorem privileged_mldb x1 x2 x3 x4 x5 : privileged (Instr.mldb x1 x2 x3 x4 x5) = false := rfl
@[simp] theorem privileged_mmul x1 : privileged (Instr.mmul x1) = false := rfl
@[simp] theorem privileged_mmulb x1 : privileged (Instr.mmulb x1) = false := rfl
@[simp] theorem privileged_mscale x1 x2 x3 : privileged (Instr.mscale x1 x2 x3) = false := rfl
@[simp] theorem privileged_mzero x1 x2 : privileged (Instr.mzero x1 x2) = false := rfl
@[simp] theorem privileged_mdrain x1 x2 x3 x4 x5 x6 : privileged (Instr.mdrain x1 x2 x3 x4 x5 x6) = false := rfl
@[simp] theorem privileged_msig x1 x2 x3 : privileged (Instr.msig x1 x2 x3) = false := rfl
@[simp] theorem privileged_mwait x1 x2 x3 : privileged (Instr.mwait x1 x2 x3) = false := rfl
@[simp] theorem privileged_mloop x1 x2 : privileged (Instr.mloop x1 x2) = false := rfl
@[simp] theorem privileged_mset x1 x2 : privileged (Instr.mset x1 x2) = false := rfl
@[simp] theorem privileged_mend : privileged Instr.mend = false := rfl
@[simp] theorem privileged_sread x1 x2 x3 x4 : privileged (Instr.sread x1 x2 x3 x4) = false := rfl
@[simp] theorem privileged_swrite x1 x2 x3 x4 : privileged (Instr.swrite x1 x2 x3 x4) = false := rfl
@[simp] theorem privileged_timeRef x1 x2 : privileged (Instr.timeRef x1 x2) = false := rfl
@[simp] theorem privileged_timeCyc x1 x2 : privileged (Instr.timeCyc x1 x2) = false := rfl
@[simp] theorem privileged_eretReplay : privileged Instr.eretReplay = true := rfl
@[simp] theorem privileged_eretResume : privileged Instr.eretResume = true := rfl
@[simp] theorem privileged_tlbinv x1 x2 x3 x4 : privileged (Instr.tlbinv x1 x2 x3 x4) = true := rfl
@[simp] theorem privileged_tlbinvAsid x1 x2 x3 : privileged (Instr.tlbinvAsid x1 x2 x3) = true := rfl
@[simp] theorem privileged_tlbinvAll x1 x2 : privileged (Instr.tlbinvAll x1 x2) = true := rfl
@[simp] theorem privileged_probe x1 x2 x3 : privileged (Instr.probe x1 x2 x3) = true := rfl
@[simp] theorem privileged_probeAs x1 x2 x3 x4 : privileged (Instr.probeAs x1 x2 x3 x4) = true := rfl
@[simp] theorem privileged_wsave x1 x2 x3 : privileged (Instr.wsave x1 x2 x3) = true := rfl
@[simp] theorem privileged_wsaveFrame x1 x2 x3 : privileged (Instr.wsaveFrame x1 x2 x3) = true := rfl
@[simp] theorem privileged_wload x1 x2 x3 : privileged (Instr.wload x1 x2 x3) = true := rfl
@[simp] theorem privileged_wloadFrame x1 x2 x3 : privileged (Instr.wloadFrame x1 x2 x3) = true := rfl

/-! Events (`isEvent`) -/

@[simp] theorem isEvent_packageReset : isEvent .packageReset = true := rfl
@[simp] theorem isEvent_bringUpLogRead : isEvent .bringUpLogRead = true := rfl
@[simp] theorem isEvent_hostPost x1 x2 x3 x4 : isEvent (.hostPost x1 x2 x3 x4) = true := rfl
@[simp] theorem isEvent_ingestWrite x1 x2 x3 x4 x5 x6 : isEvent (.ingestWrite x1 x2 x3 x4 x5 x6) = true := rfl
@[simp] theorem isEvent_dispatch : isEvent .dispatch = true := rfl
@[simp] theorem isEvent_waitctrRead x1 : isEvent (.waitctrRead x1) = true := rfl
@[simp] theorem isEvent_blockEnd x1 x2 : isEvent (.blockEnd x1 x2) = true := rfl
@[simp] theorem isEvent_roleFlagWindow x1 x2 : isEvent (.roleFlagWindow x1 x2) = true := rfl
@[simp] theorem isEvent_ringCycle x1 : isEvent (.ringCycle x1) = true := rfl
@[simp] theorem isEvent_rotationStart x1 : isEvent (.rotationStart x1) = true := rfl
@[simp] theorem isEvent_holdEnter x1 : isEvent (.holdEnter x1) = true := rfl
@[simp] theorem isEvent_wideRequestPayment x1 : isEvent (.wideRequestPayment x1) = true := rfl
@[simp] theorem isEvent_matrixStepStart x1 : isEvent (.matrixStepStart x1) = true := rfl
@[simp] theorem isEvent_droopDetect x1 x2 : isEvent (.droopDetect x1 x2) = true := rfl
@[simp] theorem isEvent_droopWindowStart x1 x2 : isEvent (.droopWindowStart x1 x2) = true := rfl
@[simp] theorem isEvent_droopWindowEnd x1 x2 : isEvent (.droopWindowEnd x1 x2) = true := rfl
@[simp] theorem isEvent_thermalPoll x1 x2 : isEvent (.thermalPoll x1 x2) = true := rfl
@[simp] theorem isEvent_analogTrip x1 x2 : isEvent (.analogTrip x1 x2) = true := rfl
@[simp] theorem isEvent_loanGrant x1 : isEvent (.loanGrant x1) = true := rfl
@[simp] theorem isEvent_loanTermEnd x1 : isEvent (.loanTermEnd x1) = true := rfl
@[simp] theorem isEvent_loanEndNotice x1 : isEvent (.loanEndNotice x1) = true := rfl
@[simp] theorem isEvent_sidebandFail : isEvent .sidebandFail = true := rfl
@[simp] theorem isEvent_sidebandReturn : isEvent .sidebandReturn = true := rfl
@[simp] theorem isEvent_growGrant x1 : isEvent (.growGrant x1) = true := rfl
@[simp] theorem isEvent_growDeadline x1 : isEvent (.growDeadline x1) = true := rfl
@[simp] theorem isEvent_copyRequestStart x1 : isEvent (.copyRequestStart x1) = true := rfl
@[simp] theorem isEvent_copyRequestComplete x1 x2 : isEvent (.copyRequestComplete x1 x2) = true := rfl
@[simp] theorem isEvent_requestRetranslate x1 : isEvent (.requestRetranslate x1) = true := rfl
@[simp] theorem isEvent_storeLeaveQueue x1 : isEvent (.storeLeaveQueue x1) = true := rfl
@[simp] theorem isEvent_ackArrival x1 : isEvent (.ackArrival x1) = true := rfl
@[simp] theorem isEvent_ackTimeout x1 : isEvent (.ackTimeout x1) = true := rfl
@[simp] theorem isEvent_watchdogFire x1 : isEvent (.watchdogFire x1) = true := rfl
@[simp] theorem isEvent_regionResetDone x1 : isEvent (.regionResetDone x1) = true := rfl
@[simp] theorem isEvent_dieFatalError x1 : isEvent (.dieFatalError x1) = true := rfl
@[simp] theorem isEvent_eccCorrected x1 x2 : isEvent (.eccCorrected x1 x2) = true := rfl
@[simp] theorem isEvent_eccUncorrectable x1 x2 : isEvent (.eccUncorrectable x1 x2) = true := rfl
@[simp] theorem isEvent_flitReceive x1 x2 x3 : isEvent (.flitReceive x1 x2 x3) = true := rfl
@[simp] theorem isEvent_keySwitch x1 : isEvent (.keySwitch x1) = true := rfl
@[simp] theorem isEvent_keySlotExhausted x1 : isEvent (.keySlotExhausted x1) = true := rfl
@[simp] theorem isEvent_lockInterface x1 : isEvent (.lockInterface x1) = true := rfl
@[simp] theorem isEvent_startInterface x1 : isEvent (.startInterface x1) = true := rfl
@[simp] theorem isEvent_stopInterface x1 : isEvent (.stopInterface x1) = true := rfl
@[simp] theorem isEvent_spdmRequest x1 : isEvent (.spdmRequest x1) = true := rfl
@[simp] theorem isEvent_pldmRequest x1 : isEvent (.pldmRequest x1) = true := rfl
@[simp] theorem isEvent_vendorMctpMessage x1 : isEvent (.vendorMctpMessage x1) = true := rfl
@[simp] theorem isEvent_rcbsync x1 : isEvent (.rcbsync x1) = true := rfl
@[simp] theorem isEvent_qsync x1 : isEvent (.qsync x1) = true := rfl
@[simp] theorem isEvent_rreset x1 : isEvent (.rreset x1) = true := rfl
@[simp] theorem isEvent_ingsync x1 : isEvent (.ingsync x1) = true := rfl
@[simp] theorem isEvent_fresumeReplay x1 : isEvent (.fresumeReplay x1) = true := rfl
@[simp] theorem isEvent_fresumeResume x1 : isEvent (.fresumeResume x1) = true := rfl
@[simp] theorem isEvent_fresumeKill x1 : isEvent (.fresumeKill x1) = true := rfl
@[simp] theorem isEvent_tokcapWrite x1 x2 : isEvent (.tokcapWrite x1 x2) = true := rfl
@[simp] theorem isEvent_droopcntClear x1 x2 : isEvent (.droopcntClear x1 x2) = true := rfl
@[simp] theorem isEvent_statcClear x1 x2 : isEvent (.statcClear x1 x2) = true := rfl
@[simp] theorem isEvent_fqheadWrite x1 : isEvent (.fqheadWrite x1) = true := rfl
@[simp] theorem isEvent_savebaseWrite x1 : isEvent (.savebaseWrite x1) = true := rfl
@[simp] theorem isEvent_savenWrite x1 : isEvent (.savenWrite x1) = true := rfl
@[simp] theorem isEvent_classmapWrite x1 : isEvent (.classmapWrite x1) = true := rfl
@[simp] theorem isEvent_srseedWrite x1 x2 : isEvent (.srseedWrite x1 x2) = true := rfl
@[simp] theorem isEvent_registerWrite x1 x2 x3 x4 : isEvent (.registerWrite x1 x2 x3 x4) = true := rfl
@[simp] theorem isEvent_resultArrival x1 x2 : isEvent (.resultArrival x1 x2) = true := rfl
@[simp] theorem isEvent_efStoreHomeArrival x1 : isEvent (.efStoreHomeArrival x1) = true := rfl
@[simp] theorem isEvent_yelinePortRetrainFail x1 : isEvent (.yelinePortRetrainFail x1) = true := rfl
@[simp] theorem isEvent_hostInterfaceReset x1 : isEvent (.hostInterfaceReset x1) = true := rfl

end Sys2Proof.Laws
end

