-- ==== Sys2Proof/Laws/Issue.lean ====
section
/-! SUPPORT. The issue of a word that stands ready, and what the shared operations around its effect leave alone. -/

namespace Sys2Proof.Laws

open Sys2Proof Sys2Proof.Machine Sys2Proof.Safety

theorem ctx_who {s : State} {w : Who} {g : Guard} {c : Ctx} (h : s.ctx w g = some c) : c.who = w := by
  unfold State.ctx at h
  split at h
  · cases h
  · split at h
    · cases h
    · simp only [Option.some.injEq] at h
      rw [← h]

theorem ctx_cls {s : State} {w : Who} {g : Guard} {c : Ctx} (h : s.ctx w g = some c) : c.cls = partyCls w.party := by
  unfold State.ctx at h
  split at h
  · cases h
  · split at h
    · cases h
    · simp only [Option.some.injEq] at h
      rw [← h]

/-- THE ISSUE OF A READY WORD: its effect is made on the state in which it is paid, and its party settles. -/
theorem issue_ready {s : State} {i : Instr} {op : Nat} {g : Guard} {c : Ctx} (h : Ready s i op g c) (k : Ctx → State → Res) :
    s.issue i op g k = .next (match k c (paid s c i) with
      | .wait t sw => (t.keepPaid c (priceOf i)).hold c sw
      | r => (paid s c i).settleRes c (i.use c.cls) r) := by
  have hw := ctx_who h.sees
  have h1 : s.tick.nextWaits c.who = none := by rw [hw]; exact h.noLog
  have h2 : s.tick.claimWaits c.who = false := by rw [hw]; exact h.noClaim
  have h3 : s.tick.issueTrap c i op (priceOf i) = none := h.checks
  have h4 := h.pays
  have h5 := h.clean
  have h6 : (c.exec == 0) = false := by simpa using h.some_lane
  unfold State.issue
  simp only [h.sees, h1, h2, Bool.false_eq_true, if_false, h3]
  unfold paid at h5 ⊢
  revert h4 h5
  generalize s.tick.pay c (priceOf i) = p
  obtain ⟨p1, p2⟩ := p
  intro h4 h5
  simp only at h4 h5 ⊢
  simp only [h4, Bool.not_true, Bool.false_eq_true, if_false, h6, h5]
  cases k c p1 <;> rfl

/-- A word that completes lands its own results at once and goes on, where no STATLIMIT of its pair is due. -/
theorem settle_done {s s' : State} {c : Ctx} {u : Use} {f : Fin}
    (h : c.second = true → ((s.landNow (s.cacheWord s' c u) c.who).warp c.who).bind (·.due) = none) :
    s.settleRes c u (.done s' f) = (s.landNow (s.cacheWord s' c u) c.who).goOn c f := by
  unfold State.settleRes
  cases hc : c.second with
  | false => simp
  | true => simp [h hc]

end Sys2Proof.Laws
end

