-- ==== Sys2Proof/Laws/PerInstr.lean ====
section
/-! SUPPORT. For each instruction: the word that the encoder writes reads back, field by field, as the instruction (04 R69 to R78). -/

namespace Sys2Proof.Laws.Fields

open Sys2Proof Sys2Proof.Machine Sys2Proof.Laws

set_option Elab.async false
set_option linter.unusedSimpArgs false
set_option linter.unusedVariables false

/-- A well-formed instruction's word has the format of its opcode, and its fields read as the instruction. -/
def Statement (i : Instr) : Prop := i.wf = true → Reads (encode i) i

theorem nop (x_g : Guard) : Statement (.nop x_g) := by
  intro _
  refine reads_packA rfl ?_
  simp [decodeA, decodeA0, fixedZero, RawA.g, RawA.noA, RawA.noB, RawA.noC, RawA.noM, RawA.noD, rawG]
theorem bra (x_g : Guard) (x_off : BitVec 32) : Statement (.bra x_g x_off) := by
  intro _
  refine reads_packB rfl ?_
  simp [decodeB, RawI.g, fixedZero]
theorem brx (x_a : BitVec 8) (x_g : Guard) : Statement (.brx x_a x_g) := by
  intro _
  refine reads_packB rfl ?_
  simp [decodeB, RawI.g, fixedZero]
theorem call (x_l : BitVec 8) (x_g : Guard) (x_off : BitVec 32) : Statement (.call x_l x_g x_off) := by
  intro _
  refine reads_packB rfl ?_
  simp [decodeB, RawI.g, fixedZero]
theorem callx (x_l x_a : BitVec 8) (x_g : Guard) : Statement (.callx x_l x_a x_g) := by
  intro _
  refine reads_packB rfl ?_
  simp [decodeB, RawI.g, fixedZero]
theorem ret (x_a : BitVec 8) (x_g : Guard) : Statement (.ret x_a x_g) := by
  intro _
  refine reads_packB rfl ?_
  simp [decodeB, RawI.g, fixedZero]
theorem yield (x_g : Guard) : Statement (.yield x_g) := by
  intro _
  refine reads_packA rfl ?_
  simp [decodeA, decodeA0, fixedZero, RawA.g, RawA.noA, RawA.noB, RawA.noC, RawA.noM, RawA.noD, rawG]
theorem exit (x_g : Guard) : Statement (.exit x_g) := by
  intro _
  refine reads_packA rfl ?_
  simp [decodeA, decodeA0, fixedZero, RawA.g, RawA.noA, RawA.noB, RawA.noC, RawA.noM, RawA.noD, rawG]
theorem trap (x_g : Guard) (x_imm : BitVec 32) : Statement (.trap x_g x_imm) := by
  intro _
  refine reads_packI rfl ?_
  simp [decodeI, RawI.g, fixedZero]
theorem bkpt (x_g : Guard) (x_imm : BitVec 32) : Statement (.bkpt x_g x_imm) := by
  intro _
  refine reads_packI rfl ?_
  simp [decodeI, RawI.g, fixedZero]
theorem iadd (x_o : A3) : Statement (.iadd x_o) := by
  intro _
  refine reads_packA rfl ?_
  simp [decodeA, decodeA1, fixedZero, RawA.g, RawA.noB, RawA.noC, RawA.noM, rawA3, RawA.a3]
theorem isub (x_o : A3) : Statement (.isub x_o) := by
  intro _
  refine reads_packA rfl ?_
  simp [decodeA, decodeA1, fixedZero, RawA.g, RawA.noB, RawA.noC, RawA.noM, rawA3, RawA.a3]
theorem imul (x_o : A3) : Statement (.imul x_o) := by
  intro _
  refine reads_packA rfl ?_
  simp [decodeA, decodeA1, fixedZero, RawA.g, RawA.noB, RawA.noC, RawA.noM, rawA3, RawA.a3]
theorem imulh (x_s : Bool) (x_o : A3) : Statement (.imulh x_s x_o) := by
  intro _
  refine reads_packA rfl ?_
  simp [decodeA, decodeA1, fixedZero, RawA.g, RawA.noB, RawA.noC, RawA.noM, rawA3, RawA.a3, RawA.withM, signBit]
theorem imad (x_o : A4) : Statement (.imad x_o) := by
  intro _
  refine reads_packA rfl ?_
  simp [decodeA, decodeA1, fixedZero, RawA.g, RawA.noB, RawA.noC, RawA.noM, rawA4, RawA.a4]
theorem idiv (x_s : Bool) (x_o : A3) : Statement (.idiv x_s x_o) := by
  intro _
  refine reads_packA rfl ?_
  simp [decodeA, decodeA1, fixedZero, RawA.g, RawA.noB, RawA.noC, RawA.noM, rawA3, RawA.a3, RawA.withM, signBit]
theorem irem (x_s : Bool) (x_o : A3) : Statement (.irem x_s x_o) := by
  intro _
  refine reads_packA rfl ?_
  simp [decodeA, decodeA1, fixedZero, RawA.g, RawA.noB, RawA.noC, RawA.noM, rawA3, RawA.a3, RawA.withM, signBit]
theorem imin (x_s : Bool) (x_o : A3) : Statement (.imin x_s x_o) := by
  intro _
  refine reads_packA rfl ?_
  simp [decodeA, decodeA1, fixedZero, RawA.g, RawA.noB, RawA.noC, RawA.noM, rawA3, RawA.a3, RawA.withM, signBit]
theorem imax (x_s : Bool) (x_o : A3) : Statement (.imax x_s x_o) := by
  intro _
  refine reads_packA rfl ?_
  simp [decodeA, decodeA1, fixedZero, RawA.g, RawA.noB, RawA.noC, RawA.noM, rawA3, RawA.a3, RawA.withM, signBit]
theorem iabs (x_o : A2) : Statement (.iabs x_o) := by
  intro _
  refine reads_packA rfl ?_
  simp [decodeA, decodeA1, fixedZero, RawA.g, RawA.noB, RawA.noC, RawA.noM, rawA2, RawA.a2]
theorem iset (x_cmp : ICmp) (x_o : ASet) : Statement (.iset x_cmp x_o) := by
  intro _
  refine reads_packA rfl ?_
  simp [decodeA, decodeA1, fixedZero, RawA.g, RawA.noB, RawA.noC, RawA.noM, rawSet, RawA.aSet, RawA.withC, codeOr]
theorem sel (x_o : A3) (x_c : BitVec 8) : Statement (.sel x_o x_c) := by
  intro _
  refine reads_packA rfl ?_
  simp [decodeA, decodeA1, fixedZero, RawA.g, RawA.noB, RawA.noC, RawA.noM, rawA3, RawA.a3, RawA.withC]
theorem lea (x_o : A3) (x_sh : BitVec 6) : Statement (.lea x_o x_sh) := by
  intro _
  refine reads_packA rfl ?_
  simp only [decodeA, decodeA1, fixedZero, RawA.g, RawA.noB, RawA.noC, RawA.noM, rawA3, RawA.a3, RawA.withM, RawA.mod]
  simp (disch := omega) only [extract_append_high, extract_append_low, bit_append_high, bit_append_low, extract_whole]
  simp
theorem mov (x_o : A2) : Statement (.mov x_o) := by
  intro _
  refine reads_packA rfl ?_
  simp [decodeA, decodeA1, fixedZero, RawA.g, RawA.noB, RawA.noC, RawA.noM, rawA2, RawA.a2]
theorem movi (x_d : BitVec 8) (x_g : Guard) (x_imm : BitVec 32) : Statement (.movi x_d x_g x_imm) := by
  intro _
  refine reads_packI rfl ?_
  simp [decodeI, RawI.g, fixedZero]
theorem x2p (x_d x_a : BitVec 8) (x_g : Guard) (x_ha : Hint) : Statement (.x2p x_d x_a x_g x_ha) := by
  intro _
  refine reads_packA rfl ?_
  simp [decodeA, decodeA1, fixedZero, RawA.g, RawA.noB, RawA.noC, RawA.noM]
theorem and (x_o : A3) : Statement (.and x_o) := by
  intro _
  refine reads_packA rfl ?_
  simp [decodeA, decodeA2, fixedZero, RawA.g, RawA.noB, RawA.noC, RawA.noM, rawA3, RawA.a3]
theorem or (x_o : A3) : Statement (.or x_o) := by
  intro _
  refine reads_packA rfl ?_
  simp [decodeA, decodeA2, fixedZero, RawA.g, RawA.noB, RawA.noC, RawA.noM, rawA3, RawA.a3]
theorem xor (x_o : A3) : Statement (.xor x_o) := by
  intro _
  refine reads_packA rfl ?_
  simp [decodeA, decodeA2, fixedZero, RawA.g, RawA.noB, RawA.noC, RawA.noM, rawA3, RawA.a3]
theorem andn (x_o : A3) : Statement (.andn x_o) := by
  intro _
  refine reads_packA rfl ?_
  simp [decodeA, decodeA2, fixedZero, RawA.g, RawA.noB, RawA.noC, RawA.noM, rawA3, RawA.a3]
theorem lop3 (x_o : A4) (x_tab : BitVec 8) : Statement (.lop3 x_o x_tab) := by
  intro _
  refine reads_packA rfl ?_
  simp [decodeA, decodeA2, fixedZero, RawA.g, RawA.noB, RawA.noC, RawA.noM, rawA4, RawA.a4, RawA.withM]
theorem shl (x_o : A3) : Statement (.shl x_o) := by
  intro _
  refine reads_packA rfl ?_
  simp [decodeA, decodeA2, fixedZero, RawA.g, RawA.noB, RawA.noC, RawA.noM, rawA3, RawA.a3]
theorem shr (x_o : A3) : Statement (.shr x_o) := by
  intro _
  refine reads_packA rfl ?_
  simp [decodeA, decodeA2, fixedZero, RawA.g, RawA.noB, RawA.noC, RawA.noM, rawA3, RawA.a3]
theorem sar (x_o : A3) : Statement (.sar x_o) := by
  intro _
  refine reads_packA rfl ?_
  simp [decodeA, decodeA2, fixedZero, RawA.g, RawA.noB, RawA.noC, RawA.noM, rawA3, RawA.a3]
theorem rot (x_o : A3) : Statement (.rot x_o) := by
  intro _
  refine reads_packA rfl ?_
  simp [decodeA, decodeA2, fixedZero, RawA.g, RawA.noB, RawA.noC, RawA.noM, rawA3, RawA.a3]
theorem clz (x_o : A2) : Statement (.clz x_o) := by
  intro _
  refine reads_packA rfl ?_
  simp [decodeA, decodeA2, fixedZero, RawA.g, RawA.noB, RawA.noC, RawA.noM, rawA2, RawA.a2]
theorem popc (x_o : A2) : Statement (.popc x_o) := by
  intro _
  refine reads_packA rfl ?_
  simp [decodeA, decodeA2, fixedZero, RawA.g, RawA.noB, RawA.noC, RawA.noM, rawA2, RawA.a2]
theorem brev (x_o : A2) : Statement (.brev x_o) := by
  intro _
  refine reads_packA rfl ?_
  simp [decodeA, decodeA2, fixedZero, RawA.g, RawA.noB, RawA.noC, RawA.noM, rawA2, RawA.a2]
theorem bfx (x_s : Bool) (x_o : A3) : Statement (.bfx x_s x_o) := by
  intro _
  refine reads_packA rfl ?_
  simp [decodeA, decodeA2, fixedZero, RawA.g, RawA.noB, RawA.noC, RawA.noM, rawA3, RawA.a3, RawA.withM, signBit]
theorem bfi (x_o : A4) : Statement (.bfi x_o) := by
  intro _
  refine reads_packA rfl ?_
  simp [decodeA, decodeA2, fixedZero, RawA.g, RawA.noB, RawA.noC, RawA.noM, rawA4, RawA.a4]
theorem plop (x_d x_a x_b x_c : BitVec 8) (x_g : Guard) (x_tab : BitVec 8) : Statement (.plop x_d x_a x_b x_c x_g x_tab) := by
  intro _
  refine reads_packA rfl ?_
  simp [decodeA, decodeA2, fixedZero, RawA.g, RawA.noB, RawA.noC, RawA.noM]
theorem p2x (x_d x_a : BitVec 8) (x_g : Guard) (x_hd : Hint) : Statement (.p2x x_d x_a x_g x_hd) := by
  intro _
  refine reads_packA rfl ?_
  simp [decodeA, decodeA2, fixedZero, RawA.g, RawA.noB, RawA.noC, RawA.noM]
theorem fadd (x_m : FMod) (x_o : A3) : Statement (.fadd x_m x_o) := by
  intro _
  refine reads_packA rfl ?_
  simp [decodeA, decodeA3, fixedZero, RawA.g, RawA.noB, RawA.noC, RawA.noM, rawA3, RawA.a3, RawA.withM, codeOr]
theorem fsub (x_m : FMod) (x_o : A3) : Statement (.fsub x_m x_o) := by
  intro _
  refine reads_packA rfl ?_
  simp [decodeA, decodeA3, fixedZero, RawA.g, RawA.noB, RawA.noC, RawA.noM, rawA3, RawA.a3, RawA.withM, codeOr]
theorem fmul (x_m : FMod) (x_o : A3) : Statement (.fmul x_m x_o) := by
  intro _
  refine reads_packA rfl ?_
  simp [decodeA, decodeA3, fixedZero, RawA.g, RawA.noB, RawA.noC, RawA.noM, rawA3, RawA.a3, RawA.withM, codeOr]
theorem ffma (x_m : FMod) (x_o : A4) : Statement (.ffma x_m x_o) := by
  intro _
  refine reads_packA rfl ?_
  simp [decodeA, decodeA3, fixedZero, RawA.g, RawA.noB, RawA.noC, RawA.noM, rawA4, RawA.a4, RawA.withM, codeOr]
theorem fmin (x_t : FType) (x_o : A3) : Statement (.fmin x_t x_o) := by
  intro _
  refine reads_packA rfl ?_
  simp [decodeA, decodeA3, fixedZero, RawA.g, RawA.noB, RawA.noC, RawA.noM, rawA3, RawA.a3, RawA.withM, codeOr]
theorem fmax (x_t : FType) (x_o : A3) : Statement (.fmax x_t x_o) := by
  intro _
  refine reads_packA rfl ?_
  simp [decodeA, decodeA3, fixedZero, RawA.g, RawA.noB, RawA.noC, RawA.noM, rawA3, RawA.a3, RawA.withM, codeOr]
theorem fset (x_t : FType) (x_cmp : FCmp) (x_na : Bool) (x_o : ASet) : Statement (.fset x_t x_cmp x_na x_o) := by
  intro _
  refine reads_packA rfl ?_
  simp [decodeA, decodeA3, fixedZero, RawA.g, RawA.noB, RawA.noC, RawA.noM, rawSet, RawA.aSet, RawA.withM, RawA.withC, codeOr]
theorem fclass (x_t : FType) (x_o : A2) : Statement (.fclass x_t x_o) := by
  intro _
  refine reads_packA rfl ?_
  simp [decodeA, decodeA3, fixedZero, RawA.g, RawA.noB, RawA.noC, RawA.noM, rawA2, RawA.a2, RawA.withM, codeOr]
theorem fscale (x_m : FMod) (x_o : A3) : Statement (.fscale x_m x_o) := by
  intro _
  refine reads_packA rfl ?_
  simp [decodeA, decodeA3, fixedZero, RawA.g, RawA.noB, RawA.noC, RawA.noM, rawA3, RawA.a3, RawA.withM, codeOr]
theorem frnd (x_m : FMod) (x_o : A2) : Statement (.frnd x_m x_o) := by
  intro _
  refine reads_packA rfl ?_
  simp [decodeA, decodeA3, fixedZero, RawA.g, RawA.noB, RawA.noC, RawA.noM, rawA2, RawA.a2, RawA.withM, codeOr]
theorem fdiv (x_m : FMod) (x_o : A3) : Statement (.fdiv x_m x_o) := by
  intro _
  refine reads_packA rfl ?_
  simp [decodeA, decodeA3, fixedZero, RawA.g, RawA.noB, RawA.noC, RawA.noM, rawA3, RawA.a3, RawA.withM, codeOr]
theorem frcp (x_ftz : Bool) (x_o : A2) : Statement (.frcp x_ftz x_o) := by
  intro _
  refine reads_packA rfl ?_
  simp [decodeA, decodeA4, fixedZero, RawA.g, RawA.noB, RawA.noC, RawA.noM, rawA2, RawA.a2, RawA.withM, sfuMod]
theorem frsq (x_ftz : Bool) (x_o : A2) : Statement (.frsq x_ftz x_o) := by
  intro _
  refine reads_packA rfl ?_
  simp [decodeA, decodeA4, fixedZero, RawA.g, RawA.noB, RawA.noC, RawA.noM, rawA2, RawA.a2, RawA.withM, sfuMod]
theorem fsqrt (x_m : FMod) (x_o : A2) : Statement (.fsqrt x_m x_o) := by
  intro _
  refine reads_packA rfl ?_
  simp [decodeA, decodeA4, fixedZero, RawA.g, RawA.noB, RawA.noC, RawA.noM, rawA2, RawA.a2, RawA.withM, codeOr]
theorem fexp2 (x_ftz : Bool) (x_o : A2) : Statement (.fexp2 x_ftz x_o) := by
  intro _
  refine reads_packA rfl ?_
  simp [decodeA, decodeA4, fixedZero, RawA.g, RawA.noB, RawA.noC, RawA.noM, rawA2, RawA.a2, RawA.withM, sfuMod]
theorem flog2 (x_ftz : Bool) (x_o : A2) : Statement (.flog2 x_ftz x_o) := by
  intro _
  refine reads_packA rfl ?_
  simp [decodeA, decodeA4, fixedZero, RawA.g, RawA.noB, RawA.noC, RawA.noM, rawA2, RawA.a2, RawA.withM, sfuMod]
theorem fsin (x_ftz : Bool) (x_o : A2) : Statement (.fsin x_ftz x_o) := by
  intro _
  refine reads_packA rfl ?_
  simp [decodeA, decodeA4, fixedZero, RawA.g, RawA.noB, RawA.noC, RawA.noM, rawA2, RawA.a2, RawA.withM, sfuMod]
theorem fcos (x_ftz : Bool) (x_o : A2) : Statement (.fcos x_ftz x_o) := by
  intro _
  refine reads_packA rfl ?_
  simp [decodeA, decodeA4, fixedZero, RawA.g, RawA.noB, RawA.noC, RawA.noM, rawA2, RawA.a2, RawA.withM, sfuMod]
theorem ftanh (x_ftz : Bool) (x_o : A2) : Statement (.ftanh x_ftz x_o) := by
  intro _
  refine reads_packA rfl ?_
  simp [decodeA, decodeA4, fixedZero, RawA.g, RawA.noB, RawA.noC, RawA.noM, rawA2, RawA.a2, RawA.withM, sfuMod]
theorem cvt (x_src x_dst : Fmt) (x_rm : Rm) (x_ov : Ov) (x_o : A2) : Statement (.cvt x_src x_dst x_rm x_ov x_o) := by
  intro _
  refine reads_packA rfl ?_
  simp only [decodeA, decodeA4, fixedZero, RawA.g, RawA.noB, RawA.noC, RawA.noM, rawA2, RawA.a2, RawA.withB, RawA.withC, codeOr]
  simp (disch := omega) only [extract_append_high, extract_append_low, bit_append_high, bit_append_low, extract_whole]
  simp
theorem pk8 (x_f : Fmt8) (x_rm : Rm) (x_ov : Ov) (x_o : A3) : Statement (.pk8 x_f x_rm x_ov x_o) := by
  intro _
  refine reads_packA rfl ?_
  simp [decodeA, decodeA4, fixedZero, RawA.g, RawA.noB, RawA.noC, RawA.noM, rawA3, RawA.a3, RawA.withM, RawA.withC, codeOr]
theorem upk8 (x_f : Fmt8) (x_o : A3) : Statement (.upk8 x_f x_o) := by
  intro _
  refine reads_packA rfl ?_
  simp [decodeA, decodeA4, fixedZero, RawA.g, RawA.noB, RawA.noC, RawA.noM, rawA3, RawA.a3, RawA.withM, codeOr]
theorem pk4 (x_o : A3) : Statement (.pk4 x_o) := by
  intro _
  refine reads_packA rfl ?_
  simp [decodeA, decodeA4, fixedZero, RawA.g, RawA.noB, RawA.noC, RawA.noM, rawA3, RawA.a3]
theorem upk4 (x_o : A3) : Statement (.upk4 x_o) := by
  intro _
  refine reads_packA rfl ?_
  simp [decodeA, decodeA4, fixedZero, RawA.g, RawA.noB, RawA.noC, RawA.noM, rawA3, RawA.a3]
theorem qscl (x_m : QMode) (x_o : A3) : Statement (.qscl x_m x_o) := by
  intro _
  refine reads_packA rfl ?_
  simp [decodeA, decodeA4, fixedZero, RawA.g, RawA.noB, RawA.noC, RawA.noM, rawA3, RawA.a3, RawA.withM, codeOr]
theorem scac (x_o : A4) : Statement (.scac x_o) := by
  intro _
  refine reads_packA rfl ?_
  simp [decodeA, decodeA4, fixedZero, RawA.g, RawA.noB, RawA.noC, RawA.noM, rawA4, RawA.a4]
theorem shfl (x_m : ShflMode) (x_b64 : Bool) (x_seg : BitVec 3) (x_o : A3) : Statement (.shfl x_m x_b64 x_seg x_o) := by
  intro _
  refine reads_packA rfl ?_
  simp only [decodeA, decodeA5, fixedZero, RawA.g, RawA.noB, RawA.noC, RawA.noM, rawA3, RawA.a3, RawA.withM, codeOr, RawA.mod]
  simp (disch := omega) only [extract_append_high, extract_append_low, bit_append_high, bit_append_low, extract_whole]
  simp
theorem vote (x_m : VoteMode) (x_d x_a : BitVec 8) (x_g : Guard) (x_hd : Hint) : Statement (.vote x_m x_d x_a x_g x_hd) := by
  intro _
  refine reads_packA rfl ?_
  simp [decodeA, decodeA5, fixedZero, RawA.g, RawA.noB, RawA.noC, RawA.noM, codeOr]
theorem redux (x_op : RedOp) (x_o : A2) : Statement (.redux x_op x_o) := by
  intro _
  refine reads_packA rfl ?_
  simp [decodeA, decodeA5, fixedZero, RawA.g, RawA.noB, RawA.noC, RawA.noM, rawA2, RawA.a2, RawA.withM, codeOr]
theorem scan (x_op : RedOp) (x_o : A2) : Statement (.scan x_op x_o) := by
  intro _
  refine reads_packA rfl ?_
  simp [decodeA, decodeA5, fixedZero, RawA.g, RawA.noB, RawA.noC, RawA.noM, rawA2, RawA.a2, RawA.withM, codeOr]
theorem matchLanes (x_b64 : Bool) (x_o : A2) : Statement (.matchLanes x_b64 x_o) := by
  intro _
  refine reads_packA rfl ?_
  simp [decodeA, decodeA5, fixedZero, RawA.g, RawA.noB, RawA.noC, RawA.noM, rawA2, RawA.a2, RawA.withM, RawA.mod]
theorem ld (x_o : MemF) : Statement (.ld x_o) := by
  intro _
  refine reads_packM rfl ?_
  simp [decodeM, fixedZero, rawMem, RawM.guard, codeOr]
theorem lds (x_o : MemF) : Statement (.lds x_o) := by
  intro _
  refine reads_packM rfl ?_
  simp [decodeM, fixedZero, rawMem, RawM.guard, codeOr]
theorem ldc (x_o : MemF) : Statement (.ldc x_o) := by
  intro _
  refine reads_packM rfl ?_
  simp [decodeM, fixedZero, rawMem, RawM.guard, codeOr]
theorem st (x_o : MemF) : Statement (.st x_o) := by
  intro _
  refine reads_packM rfl ?_
  simp [decodeM, fixedZero, rawMem, RawM.guard, codeOr]
theorem sts (x_o : MemF) : Statement (.sts x_o) := by
  intro _
  refine reads_packM rfl ?_
  simp [decodeM, fixedZero, rawMem, RawM.guard, codeOr]
theorem atom (x_o : AtomF) : Statement (.atom x_o) := by
  intro _
  refine reads_packT rfl ?_
  simp [decodeT, rawAtom, codeOr]
theorem atoms (x_o : AtomF) : Statement (.atoms x_o) := by
  intro _
  refine reads_packT rfl ?_
  simp [decodeT, rawAtom, codeOr]
theorem red (x_o : AtomF) : Statement (.red x_o) := by
  intro _
  refine reads_packT rfl ?_
  simp [decodeT, rawAtom, codeOr]
theorem stmc (x_o : MemF) : Statement (.stmc x_o) := by
  intro _
  refine reads_packM rfl ?_
  simp [decodeM, fixedZero, rawMem, RawM.guard, codeOr]
theorem pref (x_a : BitVec 8) (x_g : Guard) (x_off : BitVec 18) (x_pol : Policy) : Statement (.pref x_a x_g x_off x_pol) := by
  intro _
  refine reads_packM rfl ?_
  simp [decodeM, fixedZero, RawM.guard, codeOr]
theorem disc (x_t x_a : BitVec 8) (x_g : Guard) : Statement (.disc x_t x_a x_g) := by
  intro _
  refine reads_packM rfl ?_
  simp [decodeM, fixedZero, RawM.guard]
theorem fence (x_order : Order) (x_scope : Scope) (x_ga : Bool) (x_g : Guard) : Statement (.fence x_order x_scope x_ga x_g) := by
  intro _
  refine reads_packM rfl ?_
  simp [decodeM, fixedZero, RawM.guard, codeOr]
theorem fencep (x_w x_r : Path) (x_g : Guard) : Statement (.fencep x_w x_r x_g) := by
  intro _
  refine reads_packI rfl ?_
  simp only [decodeI, RawI.g, fixedZero, codeOr]
  simp (disch := omega) only [extract_append_high, extract_append_low, bit_append_high, bit_append_low, extract_whole]
  simp
theorem claim (x_t x_a : BitVec 8) (x_g : Guard) (x_sb : BitVec 3) : Statement (.claim x_t x_a x_g x_sb) := by
  intro _
  refine reads_packM rfl ?_
  simp [decodeM, fixedZero, RawM.guard]
theorem migr (x_a : BitVec 8) : Statement (.migr x_a) := by
  intro _
  refine reads_packM rfl ?_
  simp [decodeM, fixedZero]
theorem migrHome : Statement .migrHome := by
  intro _
  refine reads_packM rfl ?_
  simp [decodeM, fixedZero]
theorem barw (x_id : BitVec 16) (x_b : BitVec 8) : Statement (.barw x_id x_b) := by
  intro _
  refine reads_packE rfl ?_
  simp [decodeE, decodeE7, fixedZero]
theorem bara (x_id : BitVec 16) (x_b : BitVec 8) : Statement (.bara x_id x_b) := by
  intro _
  refine reads_packE rfl ?_
  simp [decodeE, decodeE7, fixedZero]
theorem bcbinit (x_a : BitVec 8) : Statement (.bcbinit x_a) := by
  intro _
  refine reads_packE rfl ?_
  simp [decodeE, decodeE7, fixedZero]
theorem bcbexp (x_a x_b : BitVec 8) : Statement (.bcbexp x_a x_b) := by
  intro _
  refine reads_packE rfl ?_
  simp [decodeE, decodeE7, fixedZero]
theorem bcbarv (x_a : BitVec 8) : Statement (.bcbarv x_a) := by
  intro _
  refine reads_packE rfl ?_
  simp [decodeE, decodeE7, fixedZero]
theorem bcbwait (x_a x_b : BitVec 8) : Statement (.bcbwait x_a x_b) := by
  intro _
  refine reads_packE rfl ?_
  simp [decodeE, decodeE7, fixedZero]
theorem bcbtry (x_a x_b : BitVec 8) : Statement (.bcbtry x_a x_b) := by
  intro _
  refine reads_packE rfl ?_
  simp [decodeE, decodeE7, fixedZero]
theorem ringinit (x_id : BitVec 16) (x_a : BitVec 8) : Statement (.ringinit x_id x_a) := by
  intro _
  refine reads_packE rfl ?_
  simp [decodeE, decodeE7, fixedZero]
theorem ringacqFill (x_id : BitVec 16) (x_b : BitVec 8) : Statement (.ringacqFill x_id x_b) := by
  intro _
  refine reads_packE rfl ?_
  simp [decodeE, decodeE7, fixedZero]
theorem ringacqFree (x_id : BitVec 16) (x_b : BitVec 8) : Statement (.ringacqFree x_id x_b) := by
  intro _
  refine reads_packE rfl ?_
  simp [decodeE, decodeE7, fixedZero]
theorem ringrelFill (x_id : BitVec 16) : Statement (.ringrelFill x_id) := by
  intro _
  refine reads_packE rfl ?_
  simp [decodeE, decodeE7, fixedZero]
theorem ringrelFree (x_id : BitVec 16) : Statement (.ringrelFree x_id) := by
  intro _
  refine reads_packE rfl ?_
  simp [decodeE, decodeE7, fixedZero]
theorem gbar (x_id : BitVec 16) (x_scope : Scope) : Statement (.gbar x_id x_scope) := by
  intro _
  refine reads_packE rfl ?_
  simp only [decodeE, decodeE7, fixedZero, codeOr]
  simp (disch := omega) only [extract_append_high, extract_append_low, bit_append_high, bit_append_low, extract_whole]
  simp
theorem dqpop (x_d : BitVec 8) (x_hd : Hint) (x_g : Guard) : Statement (.dqpop x_d x_hd x_g) := by
  intro _
  refine reads_packA rfl ?_
  simp [decodeA, decodeA7, fixedZero, RawA.g, RawA.noA, RawA.noB, RawA.noC, RawA.noM, RawA.noD]
theorem rolechk : Statement .rolechk := by
  intro _
  refine reads_packA rfl ?_
  simp [decodeA, decodeA7, fixedZero, RawA.g, RawA.noA, RawA.noB, RawA.noC, RawA.noM, RawA.noD, rawG, noGuard]
theorem cpy (x_o : CmdF) : Statement (.cpy x_o) := by
  intro _
  refine reads_packE rfl ?_
  simp [decodeE, decodeE8, cmdOf_mode (o := x_o)]
theorem gth (x_o : CmdF) : Statement (.gth x_o) := by
  intro _
  refine reads_packE rfl ?_
  simp [decodeE, decodeE8, cmdOf_mode (o := x_o)]
theorem sct (x_o : CmdF) : Statement (.sct x_o) := by
  intro _
  refine reads_packE rfl ?_
  simp [decodeE, decodeE8, cmdOf_mode (o := x_o)]
theorem rsend (x_a : BitVec 8) (x_id : BitVec 16) (x_pol : Policy) (x_ga : Bool) : Statement (.rsend x_a x_id x_pol x_ga) := by
  intro _
  refine reads_packE rfl ?_
  simp only [decodeE, decodeE8, fixedZero, codeOr, polMode]
  simp (disch := omega) only [extract_append_high, extract_append_low, bit_append_high, bit_append_low, extract_whole]
  simp
theorem rget (x_a : BitVec 8) (x_id : BitVec 16) (x_pol : Policy) : Statement (.rget x_a x_id x_pol) := by
  intro _
  refine reads_packE rfl ?_
  simp only [decodeE, decodeE8, fixedZero, codeOr, polMode]
  simp (disch := omega) only [extract_append_high, extract_append_low, bit_append_high, bit_append_low, extract_whole]
  simp
theorem ratom (x_a : BitVec 8) (x_id : BitVec 16) (x_op : AtomOp) (x_b64 : Bool) : Statement (.ratom x_a x_id x_op x_b64) := by
  intro _
  refine reads_packE rfl ?_
  simp only [decodeE, decodeE8, fixedZero, codeOr]
  simp (disch := omega) only [extract_append_high, extract_append_low, bit_append_high, bit_append_low, extract_whole]
  simp
theorem ldimg (x_a : BitVec 8) (x_id : BitVec 16) : Statement (.ldimg x_a x_id) := by
  intro _
  refine reads_packE rfl ?_
  simp [decodeE, decodeE8, fixedZero]
theorem fgrow (x_n : BitVec 32) : Statement (.fgrow x_n) := by
  intro _
  refine reads_packI rfl ?_
  simp [decodeI, RawI.g, fixedZero, RawI.noG, noGuard]
theorem ftrim (x_n : BitVec 32) : Statement (.ftrim x_n) := by
  intro _
  refine reads_packI rfl ?_
  simp [decodeI, RawI.g, fixedZero, RawI.noG, noGuard]
theorem sgrow (x_d : BitVec 8) (x_k : BitVec 22) : Statement (.sgrow x_d x_k) := by
  intro _
  refine reads_packI rfl ?_
  simp [decodeI, RawI.g, fixedZero, RawI.noG, noGuard]
theorem sgrowSwz (x_d : BitVec 8) (x_k : BitVec 22) : Statement (.sgrowSwz x_d x_k) := by
  intro _
  refine reads_packI rfl ?_
  simp [decodeI, RawI.g, fixedZero, RawI.noG, noGuard]
theorem strim (x_k : BitVec 22) : Statement (.strim x_k) := by
  intro _
  refine reads_packI rfl ?_
  simp [decodeI, RawI.g, fixedZero, RawI.noG, noGuard]
theorem ocwb (x_g : Guard) : Statement (.ocwb x_g) := by
  intro _
  refine reads_packA rfl ?_
  simp [decodeA, decodeA7, fixedZero, RawA.g, RawA.noA, RawA.noB, RawA.noC, RawA.noM, RawA.noD, rawG]
theorem dqpush (x_a : BitVec 8) (x_g : Guard) : Statement (.dqpush x_a x_g) := by
  intro _
  refine reads_packA rfl ?_
  simp [decodeA, decodeA7, fixedZero, RawA.g, RawA.noA, RawA.noB, RawA.noC, RawA.noM, RawA.noD]
theorem mstart : Statement .mstart := by
  intro _
  refine reads_packE rfl ?_
  simp [decodeE, decodeE8, fixedZero]
theorem mstop : Statement .mstop := by
  intro _
  refine reads_packE rfl ?_
  simp [decodeE, decodeE8, fixedZero]
theorem enq (x_a : BitVec 8) (x_id : BitVec 16) : Statement (.enq x_a x_id) := by
  intro _
  refine reads_packE rfl ?_
  simp [decodeE, decodeE8, fixedZero]
theorem mldb (x_fb : Fmt) (x_id : BitVec 8) (x_ma x_mb : BitVec 4) (x_slot : Bool) : Statement (.mldb x_fb x_id x_ma x_mb x_slot) := by
  intro _
  refine reads_packX rfl ?_
  simp only [decodeX, fixedZero, codeOr]
  simp (disch := omega) only [extract_append_high, extract_append_low, bit_append_high, bit_append_low, extract_whole]
  simp
theorem mmul (x_o : MulF) : Statement (.mmul x_o) := by
  intro _
  refine reads_packX rfl ?_
  simp [decodeX, mulOf_imm (o := x_o)]
theorem mmulb (x_o : MulF) : Statement (.mmulb x_o) := by
  intro _
  refine reads_packX rfl ?_
  simp [decodeX, mulOf_imm (o := x_o)]
theorem mscale (x_id : BitVec 8) (x_ma x_mb : BitVec 4) : Statement (.mscale x_id x_ma x_mb) := by
  intro _
  refine reads_packX rfl ?_
  simp [decodeX, fixedZero]
theorem mzero (x_ma x_mb : BitVec 4) : Statement (.mzero x_ma x_mb) := by
  intro _
  refine reads_packX rfl ?_
  simp [decodeX, fixedZero]
theorem mdrain (x_fa : Fmt) (x_id : BitVec 8) (x_ma x_mb : BitVec 4) (x_rm : Rm) (x_ov : Ov) : Statement (.mdrain x_fa x_id x_ma x_mb x_rm x_ov) := by
  intro _
  refine reads_packX rfl ?_
  simp only [decodeX, fixedZero, codeOr]
  simp (disch := omega) only [extract_append_high, extract_append_low, bit_append_high, bit_append_low, extract_whole]
  simp
theorem msig (x_k : SigKind) (x_id : BitVec 8) (x_ma : BitVec 4) : Statement (.msig x_k x_id x_ma) := by
  intro _
  refine reads_packX rfl ?_
  simp [decodeX, fixedZero, codeOr]
theorem mwait (x_k : SigKind) (x_id : BitVec 8) (x_ma : BitVec 4) : Statement (.mwait x_k x_id x_ma) := by
  intro _
  refine reads_packX rfl ?_
  simp [decodeX, fixedZero, codeOr]
theorem mloop (x_ma : BitVec 4) (x_off : BitVec 32) : Statement (.mloop x_ma x_off) := by
  intro _
  refine reads_packX rfl ?_
  simp [decodeX, fixedZero]
theorem mset (x_ma : BitVec 4) (x_imm : BitVec 32) : Statement (.mset x_ma x_imm) := by
  intro _
  refine reads_packX rfl ?_
  simp [decodeX, fixedZero]
theorem mend : Statement .mend := by
  intro _
  refine reads_packX rfl ?_
  simp [decodeX, fixedZero]
theorem sread (x_d : BitVec 8) (x_g : Guard) (x_id x_idx : BitVec 16) : Statement (.sread x_d x_g x_id x_idx) := by
  intro _
  refine reads_packS rfl ?_
  simp [decodeS, fixedZero]
theorem swrite (x_a : BitVec 8) (x_g : Guard) (x_id x_idx : BitVec 16) : Statement (.swrite x_a x_g x_id x_idx) := by
  intro _
  refine reads_packS rfl ?_
  simp [decodeS, fixedZero]
theorem timeRef (x_d : BitVec 8) (x_g : Guard) : Statement (.timeRef x_d x_g) := by
  intro _
  refine reads_packS rfl ?_
  simp [decodeS, fixedZero]
theorem timeCyc (x_d : BitVec 8) (x_g : Guard) : Statement (.timeCyc x_d x_g) := by
  intro _
  refine reads_packS rfl ?_
  simp [decodeS, fixedZero]
theorem eretReplay : Statement .eretReplay := by
  intro _
  refine reads_packS rfl ?_
  simp [decodeS, fixedZero, noGuard]
theorem eretResume : Statement .eretResume := by
  intro _
  refine reads_packS rfl ?_
  simp [decodeS, fixedZero, noGuard]
theorem tlbinv (x_a : BitVec 8) (x_g : Guard) (x_scope : Scope) (x_asid : BitVec 16) : Statement (.tlbinv x_a x_g x_scope x_asid) := by
  intro _
  refine reads_packS rfl ?_
  simp only [decodeS, codeOr, tlbId]
  simp (disch := omega) only [extract_append_high, extract_append_low, bit_append_high, bit_append_low, extract_whole]
  simp
theorem tlbinvAsid (x_g : Guard) (x_scope : Scope) (x_asid : BitVec 16) : Statement (.tlbinvAsid x_g x_scope x_asid) := by
  intro _
  refine reads_packS rfl ?_
  simp only [decodeS, fixedZero, codeOr, tlbId]
  simp (disch := omega) only [extract_append_high, extract_append_low, bit_append_high, bit_append_low, extract_whole]
  simp
theorem tlbinvAll (x_g : Guard) (x_scope : Scope) : Statement (.tlbinvAll x_g x_scope) := by
  intro _
  refine reads_packS rfl ?_
  simp only [decodeS, fixedZero, codeOr, tlbId]
  simp (disch := omega) only [extract_append_high, extract_append_low, bit_append_high, bit_append_low, extract_whole]
  simp
theorem probe (x_d x_a : BitVec 8) (x_g : Guard) : Statement (.probe x_d x_a x_g) := by
  intro _
  refine reads_packS rfl ?_
  simp [decodeS, fixedZero]
theorem probeAs (x_d x_a : BitVec 8) (x_g : Guard) (x_asid : BitVec 16) : Statement (.probeAs x_d x_a x_g x_asid) := by
  intro _
  refine reads_packS rfl ?_
  simp [decodeS]
theorem wsave (x_a : BitVec 8) (x_g : Guard) (x_slot : BitVec 6) : Statement (.wsave x_a x_g x_slot) := by
  intro _
  refine reads_packS rfl ?_
  simp [decodeS, fixedZero]
theorem wsaveFrame (x_a : BitVec 8) (x_g : Guard) (x_slot : BitVec 6) : Statement (.wsaveFrame x_a x_g x_slot) := by
  intro _
  refine reads_packS rfl ?_
  simp [decodeS, fixedZero]
theorem wload (x_a : BitVec 8) (x_g : Guard) (x_slot : BitVec 6) : Statement (.wload x_a x_g x_slot) := by
  intro _
  refine reads_packS rfl ?_
  simp [decodeS, fixedZero]
theorem wloadFrame (x_a : BitVec 8) (x_g : Guard) (x_slot : BitVec 6) : Statement (.wloadFrame x_a x_g x_slot) := by
  intro _
  refine reads_packS rfl ?_
  simp [decodeS, fixedZero]
theorem packageReset : Statement .packageReset := fun h => nomatch (show false = true from h)
theorem bringUpLogRead : Statement .bringUpLogRead := fun h => nomatch (show false = true from h)
theorem hostPost (x_f : Nat) (x_stream : Option Nat) (x_t : Tlp) (x_data : List Byte) : Statement (.hostPost x_f x_stream x_t x_data) := fun h => nomatch (show false = true from h)
theorem ingestWrite (x_f x_w x_off x_req : Nat) (x_stream : Option Nat) (x_data : List Byte) : Statement (.ingestWrite x_f x_w x_off x_req x_stream x_data) := fun h => nomatch (show false = true from h)
theorem dispatch : Statement .dispatch := fun h => nomatch (show false = true from h)
theorem waitctrRead (x_q : Nat) : Statement (.waitctrRead x_q) := fun h => nomatch (show false = true from h)
theorem blockEnd (x_core x_blk : Nat) : Statement (.blockEnd x_core x_blk) := fun h => nomatch (show false = true from h)
theorem roleFlagWindow (x_core x_blk : Nat) : Statement (.roleFlagWindow x_core x_blk) := fun h => nomatch (show false = true from h)
theorem ringCycle (x_die : Nat) : Statement (.ringCycle x_die) := fun h => nomatch (show false = true from h)
theorem rotationStart (x_die : Nat) : Statement (.rotationStart x_die) := fun h => nomatch (show false = true from h)
theorem holdEnter (x_core : Nat) : Statement (.holdEnter x_core) := fun h => nomatch (show false = true from h)
theorem wideRequestPayment (x_core : Nat) : Statement (.wideRequestPayment x_core) := fun h => nomatch (show false = true from h)
theorem matrixStepStart (x_core : Nat) : Statement (.matrixStepStart x_core) := fun h => nomatch (show false = true from h)
theorem droopDetect (x_die x_cluster : Nat) : Statement (.droopDetect x_die x_cluster) := fun h => nomatch (show false = true from h)
theorem droopWindowStart (x_die x_cluster : Nat) : Statement (.droopWindowStart x_die x_cluster) := fun h => nomatch (show false = true from h)
theorem droopWindowEnd (x_die x_cluster : Nat) : Statement (.droopWindowEnd x_die x_cluster) := fun h => nomatch (show false = true from h)
theorem thermalPoll (x_die : Nat) (x_temps : List Nat) : Statement (.thermalPoll x_die x_temps) := fun h => nomatch (show false = true from h)
theorem analogTrip (x_die x_sensor : Nat) : Statement (.analogTrip x_die x_sensor) := fun h => nomatch (show false = true from h)
theorem loanGrant (x_die : Nat) : Statement (.loanGrant x_die) := fun h => nomatch (show false = true from h)
theorem loanTermEnd (x_die : Nat) : Statement (.loanTermEnd x_die) := fun h => nomatch (show false = true from h)
theorem loanEndNotice (x_die : Nat) : Statement (.loanEndNotice x_die) := fun h => nomatch (show false = true from h)
theorem sidebandFail : Statement .sidebandFail := fun h => nomatch (show false = true from h)
theorem sidebandReturn : Statement .sidebandReturn := fun h => nomatch (show false = true from h)
theorem growGrant (x_core : Nat) : Statement (.growGrant x_core) := fun h => nomatch (show false = true from h)
theorem growDeadline (x_core : Nat) : Statement (.growDeadline x_core) := fun h => nomatch (show false = true from h)
theorem copyRequestStart (x_core : Nat) : Statement (.copyRequestStart x_core) := fun h => nomatch (show false = true from h)
theorem copyRequestComplete (x_core x_i : Nat) : Statement (.copyRequestComplete x_core x_i) := fun h => nomatch (show false = true from h)
theorem requestRetranslate (x_core : Nat) : Statement (.requestRetranslate x_core) := fun h => nomatch (show false = true from h)
theorem storeLeaveQueue (x_w : Who) : Statement (.storeLeaveQueue x_w) := fun h => nomatch (show false = true from h)
theorem ackArrival (x_i : Nat) : Statement (.ackArrival x_i) := fun h => nomatch (show false = true from h)
theorem ackTimeout (x_i : Nat) : Statement (.ackTimeout x_i) := fun h => nomatch (show false = true from h)
theorem watchdogFire (x_region : Nat) : Statement (.watchdogFire x_region) := fun h => nomatch (show false = true from h)
theorem regionResetDone (x_fdom : Nat) : Statement (.regionResetDone x_fdom) := fun h => nomatch (show false = true from h)
theorem dieFatalError (x_die : Nat) : Statement (.dieFatalError x_die) := fun h => nomatch (show false = true from h)
theorem eccCorrected (x_die : Nat) (x_unit : Nat) : Statement (.eccCorrected x_die x_unit) := fun h => nomatch (show false = true from h)
theorem eccUncorrectable (x_die : Nat) (x_site : EccSite) : Statement (.eccUncorrectable x_die x_site) := fun h => nomatch (show false = true from h)
theorem flitReceive (x_port : Nat) (x_flit : List Byte) (x_reply : FlitReply) : Statement (.flitReceive x_port x_flit x_reply) := fun h => nomatch (show false = true from h)
theorem keySwitch (x_k : PortKey) : Statement (.keySwitch x_k) := fun h => nomatch (show false = true from h)
theorem keySlotExhausted (x_port : Nat) : Statement (.keySlotExhausted x_port) := fun h => nomatch (show false = true from h)
theorem lockInterface (x_f : Nat) : Statement (.lockInterface x_f) := fun h => nomatch (show false = true from h)
theorem startInterface (x_f : Nat) : Statement (.startInterface x_f) := fun h => nomatch (show false = true from h)
theorem stopInterface (x_f : Nat) : Statement (.stopInterface x_f) := fun h => nomatch (show false = true from h)
theorem spdmRequest (x_kind : SpdmKind) : Statement (.spdmRequest x_kind) := fun h => nomatch (show false = true from h)
theorem pldmRequest (x_kind : PldmKind) : Statement (.pldmRequest x_kind) := fun h => nomatch (show false = true from h)
theorem vendorMctpMessage (x_m : Vendor) : Statement (.vendorMctpMessage x_m) := fun h => nomatch (show false = true from h)
theorem rcbsync (x_v : BitVec 32) : Statement (.rcbsync x_v) := fun h => nomatch (show false = true from h)
theorem qsync (x_v : BitVec 32) : Statement (.qsync x_v) := fun h => nomatch (show false = true from h)
theorem rreset (x_v : BitVec 32) : Statement (.rreset x_v) := fun h => nomatch (show false = true from h)
theorem ingsync (x_v : BitVec 32) : Statement (.ingsync x_v) := fun h => nomatch (show false = true from h)
theorem fresumeReplay (x_w : RegWrite 32) : Statement (.fresumeReplay x_w) := fun h => nomatch (show false = true from h)
theorem fresumeResume (x_w : RegWrite 32) : Statement (.fresumeResume x_w) := fun h => nomatch (show false = true from h)
theorem fresumeKill (x_w : RegWrite 32) : Statement (.fresumeKill x_w) := fun h => nomatch (show false = true from h)
theorem tokcapWrite (x_die : Nat) (x_v : BitVec 32) : Statement (.tokcapWrite x_die x_v) := fun h => nomatch (show false = true from h)
theorem droopcntClear (x_die x_cluster : Nat) : Statement (.droopcntClear x_die x_cluster) := fun h => nomatch (show false = true from h)
theorem statcClear (x_region x_cls : Nat) : Statement (.statcClear x_region x_cls) := fun h => nomatch (show false = true from h)
theorem fqheadWrite (x_w : RegWrite 32) : Statement (.fqheadWrite x_w) := fun h => nomatch (show false = true from h)
theorem savebaseWrite (x_v : BitVec 64) : Statement (.savebaseWrite x_v) := fun h => nomatch (show false = true from h)
theorem savenWrite (x_v : BitVec 32) : Statement (.savenWrite x_v) := fun h => nomatch (show false = true from h)
theorem classmapWrite (x_v : BitVec 64) : Statement (.classmapWrite x_v) := fun h => nomatch (show false = true from h)
theorem srseedWrite (x_w : Who) (x_vals : List (Nat × BitVec 32)) : Statement (.srseedWrite x_w x_vals) := fun h => nomatch (show false = true from h)
theorem registerWrite (x_id x_idx : BitVec 16) (x_core : Nat) (x_w : RegWrite 64) : Statement (.registerWrite x_id x_idx x_core x_w) := fun h => nomatch (show false = true from h)
theorem unassignedOpcode (x_w : BitVec 64) : Statement (.unassignedOpcode x_w) := fun h => nomatch (show false = true from h)
theorem resultArrival (x_w : Who) (x_i : Nat) : Statement (.resultArrival x_w x_i) := fun h => nomatch (show false = true from h)
theorem efStoreHomeArrival (x_i : Nat) : Statement (.efStoreHomeArrival x_i) := fun h => nomatch (show false = true from h)
theorem yelinePortRetrainFail (x_port : Nat) : Statement (.yelinePortRetrainFail x_port) := fun h => nomatch (show false = true from h)
theorem hostInterfaceReset (x_up : Bool) : Statement (.hostInterfaceReset x_up) := fun h => nomatch (show false = true from h)

end Sys2Proof.Laws.Fields
end

