-- ==== Sys2Proof/Laws/Register.lean ====
section
/-! SUPPORT. What a word that writes registers leaves alone: the writes of a warp's registers, the operand cache, where the party goes
on, and the payment. -/

namespace Sys2Proof.Laws

open Sys2Proof Sys2Proof.Machine Sys2Proof.Safety

/-! Lists of lanes -/
theorem mem_onesOf {w : Nat} (m : BitVec w) (k : Nat) : k ∈ onesOf m ↔ k < w ∧ m.getLsbD k = true := by
  simp [onesOf, List.mem_filter, List.mem_range]

/-! setX -/
theorem setX_regs (s : State) (w : Warp) (r l : Nat) (v : Word) (q j : Nat) (hl : l < 32) (hj : j < 32) :
    Tbl.get 0 (w.setX s r l v).regs (32 * q + j) = if r ≠ 0 ∧ q = r ∧ j = l then v else Tbl.get 0 w.regs (32 * q + j) := by
  unfold Warp.setX
  by_cases hr : r = 0
  · simp [hr]
  · simp only [hr, if_false, Tbl_get_set, ne_eq, not_false_eq_true, true_and]
    congr 1
    simp only [eq_iff_iff]
    omega

/-- The parts of a warp that writing registers leaves alone. -/
def sameButRegs (w w' : Warp) : Prop :=
  { w with regs := [], bad := [], ocBad := [], flight := { w.flight with results := [] } } =
    { w' with regs := [], bad := [], ocBad := [], flight := { w'.flight with results := [] } }

theorem setX_rest (s : State) (w : Warp) (r l : Nat) (v : Word) : sameButRegs w (w.setX s r l v) := by
  unfold Warp.setX sameButRegs
  split <;> rfl

theorem setLanes_regs (s : State) (w : Warp) (m : BitVec 32) (r : Nat) (v : Nat → Word) (q j : Nat) (hj : j < 32) :
    Tbl.get 0 (w.setLanes s m r v).regs (32 * q + j) =
      if r ≠ 0 ∧ q = r ∧ m.getLsbD j = true then v j else Tbl.get 0 w.regs (32 * q + j) := by
  have key : ∀ (ls : List Nat) (w : Warp), (∀ l ∈ ls, l < 32) →
      Tbl.get 0 (ls.foldl (fun w l => w.setX s r l (v l)) w).regs (32 * q + j) =
        if r ≠ 0 ∧ q = r ∧ j ∈ ls then v j else Tbl.get 0 w.regs (32 * q + j) := by
    intro ls
    induction ls with
    | nil => intro w _; simp
    | cons a ls ih =>
      intro w h
      rw [List.foldl_cons, ih _ (fun l hl => h l (List.mem_cons_of_mem _ hl)), setX_regs s w r a _ q j (h a List.mem_cons_self) hj]
      by_cases h1 : r ≠ 0 ∧ q = r
      · by_cases h2 : j ∈ ls
        · simp [h1, h2]
        · by_cases h3 : j = a
          · subst h3; simp [h1]
          · simp [h1, h2, h3]
      · have : ∀ P : Prop, ¬(r ≠ 0 ∧ q = r ∧ P) := fun P h => h1 ⟨h.1, h.2.1⟩
        simp [this]
  unfold Warp.setLanes
  rw [key _ _ (fun l hl => ((mem_onesOf m l).mp hl).1)]
  simp [mem_onesOf, hj]

theorem setLanes_rest (s : State) (w : Warp) (m : BitVec 32) (r : Nat) (v : Nat → Word) : sameButRegs w (w.setLanes s m r v) := by
  have key : ∀ (ls : List Nat) (w : Warp), sameButRegs w (ls.foldl (fun w l => w.setX s r l (v l)) w) := by
    intro ls
    induction ls with
    | nil => intro w; rfl
    | cons a ls ih => intro w; exact (setX_rest s w r a (v a)).trans (ih _)
  exact key _ _

/-! The operand cache -/

/-- The parts of a warp that the operand cache leaves alone. -/
def SameButCache (w w' : Warp) : Prop :=
  { w with regs := [], prev := [], oc := [], bad := [], ocBad := [] } = { w' with regs := [], prev := [], oc := [], bad := [], ocBad := [] }

/-- The writes of the lanes of one name leave the words of another. -/
theorem foldl_set_other {α : Type} [DecidableEq α] (d : α) (n q j : Nat) (hj : j < 32) (hq : q ≠ n) (p : Nat → Bool) (v : Nat → α) :
    ∀ (ls : List Nat) (t : Tbl α), (∀ l ∈ ls, l < 32) →
      Tbl.get d (ls.foldl (fun t l => if p l then Tbl.set d t (32 * n + l) (v l) else t) t) (32 * q + j) = Tbl.get d t (32 * q + j)
  | [], _, _ => rfl
  | a :: ls, t, h => by
    rw [List.foldl_cons, foldl_set_other d n q j hj hq p v ls _ fun l hl => h l (List.mem_cons_of_mem _ hl)]
    have := h a List.mem_cons_self
    split
    · exact Tbl_get_set_other _ _ _ (by omega)
    · rfl

theorem lastUse_regs (s : State) (w : Warp) (n q j : Nat) (hj : j < 32) (h : q ≠ n) :
    Tbl.get 0 (w.lastUse s n).regs (32 * q + j) = Tbl.get 0 w.regs (32 * q + j) :=
  foldl_set_other 0 n q j hj h (fun l => s.coin 9 (32 * n + l)) (fun l => Tbl.get 0 w.prev (32 * n + l)) _ _ fun l hl => by simpa using hl

theorem lastUse_rest (s : State) (w : Warp) (n : Nat) : SameButCache w (w.lastUse s n) := rfl

theorem keepBad_regs (w0 w : Warp) (l : List Nat) : (w0.keepBad w l).regs = w.regs := by
  unfold Warp.keepBad
  split <;> rfl

theorem keepBad_rest (w0 w : Warp) (l : List Nat) : SameButCache w (w0.keepBad w l) := by
  unfold Warp.keepBad SameButCache
  split <;> rfl

theorem notePrev_regs (w w0 : Warp) (m : BitVec 32) (n : Nat) : (w.notePrev w0 m n).regs = w.regs := by
  unfold Warp.notePrev
  split <;> rfl

theorem notePrev_rest (w w0 : Warp) (m : BitVec 32) (n : Nat) : SameButCache w (w.notePrev w0 m n) := by
  unfold Warp.notePrev SameButCache
  split <;> rfl

theorem unfilled_regs (s : State) (w : Warp) (m : BitVec 32) (n : Nat) (h : Hint) (q j : Nat) (hj : j < 32)
    (hq : q ≠ n ∨ w.alive.getLsbD j = true) : Tbl.get 0 (w.unfilled s m n h).regs (32 * q + j) = Tbl.get 0 w.regs (32 * q + j) := by
  have key : ∀ (ls : List Nat) (t : Tbl Word), (∀ l ∈ ls, l < 32 ∧ w.alive.getLsbD l = false) →
      Tbl.get 0 (ls.foldl (fun t l => Tbl.set 0 t (32 * n + l) ((s.freeAt 1 (32 * n + l)).setWidth 32)) t) (32 * q + j)
        = Tbl.get 0 t (32 * q + j) := by
    intro ls
    induction ls with
    | nil => intro t _; rfl
    | cons a ls ih =>
      intro t ha
      rw [List.foldl_cons, ih _ fun l hl => ha l (List.mem_cons_of_mem _ hl)]
      have h1 := ha a List.mem_cons_self
      refine Tbl_get_set_other _ _ _ fun he => ?_
      have h2 : q = n ∧ j = a := by omega
      rcases hq with hq | hq
      · exact hq h2.1
      · rw [h2.2, h1.2] at hq; cases hq
  unfold Warp.unfilled
  split
  · rfl
  · refine key _ _ fun l hl => ?_
    have := (mem_onesOf _ _).mp hl
    exact ⟨this.1, by simpa [this.1] using this.2⟩

theorem unfilled_rest (s : State) (w : Warp) (m : BitVec 32) (n : Nat) (h : Hint) : SameButCache w (w.unfilled s m n h) := by
  unfold Warp.unfilled SameButCache
  split <;> rfl

theorem writeName_rest (s : State) (w0 : Warp) (m : BitVec 32) (p : Warp × List Nat) (e : Nat × Hint) :
    SameButCache p.1 (Warp.writeName s w0 m p e).1 :=
  ((notePrev_rest p.1 w0 m e.1).trans (unfilled_rest s _ m e.1 e.2)).trans rfl

theorem writeName_regs (s : State) (w0 : Warp) (m : BitVec 32) (p : Warp × List Nat) (e : Nat × Hint) (q j : Nat) (hj : j < 32)
    (hq : q ≠ e.1 ∨ p.1.alive.getLsbD j = true) :
    Tbl.get 0 (Warp.writeName s w0 m p e).1.regs (32 * q + j) = Tbl.get 0 p.1.regs (32 * q + j) := by
  have ha : (p.1.notePrev w0 m e.1).alive = p.1.alive := by unfold Warp.notePrev; split <;> rfl
  show Tbl.get 0 ((p.1.notePrev w0 m e.1).unfilled s m e.1 e.2).regs _ = _
  rw [unfilled_regs s _ m e.1 e.2 q j hj (by rw [ha]; exact hq), notePrev_regs]

/-- A word's passage through the operand cache changes no register but those it frees at last use, and its destinations in lanes that have
exited. -/
theorem cacheWord_regs (s : State) (u : Use) (m : BitVec 32) (w0 w : Warp) (q j : Nat) (hj : j < 32) (h : q ∉ w.freedBy u)
    (hd : (∀ e ∈ names u.dst, q ≠ e.1) ∨ w.alive.getLsbD j = true) :
    Tbl.get 0 (w.cacheWord s u m w0).regs (32 * q + j) = Tbl.get 0 w.regs (32 * q + j) := by
  have key : ∀ (ls : List Nat) (w : Warp), q ∉ ls →
      Tbl.get 0 (ls.foldl (fun w n => w.lastUse s n) w).regs (32 * q + j) = Tbl.get 0 w.regs (32 * q + j) ∧
        (ls.foldl (fun w n => w.lastUse s n) w).alive = w.alive := by
    intro ls
    induction ls with
    | nil => intro w _; exact ⟨rfl, rfl⟩
    | cons a ls ih =>
      intro w ha
      simp only [List.mem_cons, not_or] at ha
      rw [List.foldl_cons]
      exact ⟨(ih _ ha.2).1.trans (lastUse_regs s w a q j hj ha.1), (ih _ ha.2).2⟩
  have key2 : ∀ (ls : List (Nat × Hint)) (p : Warp × List Nat), ((∀ e ∈ ls, q ≠ e.1) ∨ p.1.alive.getLsbD j = true) →
      Tbl.get 0 (ls.foldl (Warp.writeName s w0 m) p).1.regs (32 * q + j) = Tbl.get 0 p.1.regs (32 * q + j) := by
    intro ls
    induction ls with
    | nil => intro p _; rfl
    | cons a ls ih =>
      intro p hp
      have hal : (Warp.writeName s w0 m p a).1.alive = p.1.alive := by
        have := congrArg Warp.alive (writeName_rest s w0 m p a)
        simpa using this.symm
      rw [List.foldl_cons, ih _ (hp.imp (fun h e he => h e (List.mem_cons_of_mem _ he)) (fun h => by rw [hal]; exact h)),
        writeName_regs s w0 m p a q j hj (hp.imp (fun h => h a List.mem_cons_self) id)]
  unfold Warp.cacheWord
  simp only [keepBad_regs]
  split
  · exact (key _ _ h).1
  · rw [key2 _ _ (hd.imp id fun h' => by rw [(key _ _ h).2]; exact h'), (key _ _ h).1]

theorem cacheWord_rest (s : State) (u : Use) (m : BitVec 32) (w0 w : Warp) : SameButCache w (w.cacheWord s u m w0) := by
  have key : ∀ (ls : List Nat) (w : Warp), SameButCache w (ls.foldl (fun w n => w.lastUse s n) w) := by
    intro ls
    induction ls with
    | nil => intro w; rfl
    | cons a ls ih => intro w; exact (lastUse_rest s w a).trans (ih _)
  have key2 : ∀ (ls : List (Nat × Hint)) (p : Warp × List Nat), SameButCache p.1 (ls.foldl (Warp.writeName s w0 m) p).1 := by
    intro ls
    induction ls with
    | nil => intro p; rfl
    | cons a ls ih => intro p; exact (writeName_rest s w0 m p a).trans (ih _)
  have h0 : SameButCache w { w with oc := (w.readNames u).oc } := rfl
  have h1 := h0.trans (key (w.freedBy u) { w with oc := (w.readNames u).oc })
  have h2 := key2 (names u.dst) ((w.freedBy u).foldl (fun w n => w.lastUse s n) { w with oc := (w.readNames u).oc }, (w.readNames u).held)
  unfold Warp.cacheWord
  cases u.late with
  | true => exact h1.trans (keepBad_rest w0 _ _)
  | false => exact (h1.trans h2).trans (keepBad_rest w0 _ _)

/-! Where a warp goes on -/

/-- The parts of a warp that its sequencer leaves alone. -/
def SameButPlace (w w' : Warp) : Prop :=
  { w with slices := [], headers := [], hdrBad := [], gang := 0, waits := [], clause := none, oc := [] } =
    { w' with slices := [], headers := [], hdrBad := [], gang := 0, waits := [], clause := none, oc := [] }

theorem boundary_rest (w : Warp) (b : Bool) : SameButPlace w (w.boundary b) := by
  unfold Warp.boundary SameButPlace
  simp only
  split
  · rfl
  · split <;> rfl

theorem mapGang_rest (w : Warp) (f : Slice → Slice) : SameButPlace w (w.mapGang f) := rfl

theorem switchPoint_rest (w : Warp) : SameButPlace w w.switchPoint := by
  unfold Warp.switchPoint
  simp only
  split
  · rfl
  · exact boundary_rest w true

theorem transfer_rest (w : Warp) (c : Ctx) (t : Nat → Option (DWord × Nat)) : SameButPlace w (w.transfer c t) := rfl

/-- The warp after its word, where it goes on. -/
def placed (c : Ctx) (f : Fin) (x : Warp) : Warp :=
  let ends := c.last || f == .close || f == .yield
  let x := x.mapGang fun sl => { sl with pc := c.next, arr := none }
  if ends || x.active == 0 then x.boundary (c.y || f == .yield || f == .switch)
  else if f == .switch then x.switchPoint else x

theorem goOn_warp {c : Ctx} (h : IsWarp c.who) (s : State) (f : Fin) : s.goOn c f = s.updWarp c.who (placed c f) := by
  obtain ⟨⟨k, p⟩, _⟩ := c
  rcases h with h | ⟨n, h⟩ <;> simp only at h <;> subst h <;> rfl

theorem placed_rest (c : Ctx) (f : Fin) (x : Warp) : SameButPlace x (placed c f x) := by
  unfold placed
  simp only
  split
  · exact (mapGang_rest x _).trans (boundary_rest _ _)
  · split
    · exact (mapGang_rest x _).trans (switchPoint_rest _)
    · rfl

/-- The front end after its word. -/
def placedFront (c : Ctx) (f : Fin) (x : Front) : Front :=
  { x with pc := c.next, arr := none, clause := if c.last || f == .close || f == .yield then none else x.clause }

theorem goOn_front {c : Ctx} {b : Nat} (h : c.who.party = .front b) (s : State) (f : Fin) :
    s.goOn c f = s.updFront c.who.core b (placedFront c f) := by
  unfold State.goOn
  rw [h]
  rfl

end Sys2Proof.Laws
end

