-- ==== Sys2Proof/Tests/Slice0.lean ====
section
/-! SUPPORT. Tests of the model: well-formedness refuses what the reference entries refuse, words that the spec writes out decode, single
steps give the results that the spec's tables state, and for each statement a concrete state and operands that meet its hypotheses. -/

namespace Sys2Proof.Tests

open Sys2Proof Sys2Proof.Machine Sys2Proof.Safety

set_option Elab.async false

/-! ## States with one word -/

def always : Guard := ⟨0, false⟩
/-- The party stands at the word i of a line that it has entered, in the block of `State.placeWord`, changed by f. -/
def at_ (i : Instr) (f : State → State := id) : State :=
  let s := State.reset.placeWord (encode i)
  f (match s.blockOf s.cur with | some b => (s.enter s.cur b).1 | none => s)
/-- The same with the clause of a front end. -/
def front (i : Instr) (f : State → State := id) : State :=
  let v := encode i
  let s := State.reset.placeWord v
  let s := { s with
    cur := ⟨0, .front 0⟩, agenda := [.issue ⟨0, .front 0⟩]
    mem := { s.mem with mem := Tbl.setList 0 s.mem.mem 0x5000 (bytesOf 8 (12 * 2 ^ 60 + clsCode .front * 2 ^ 58 + 2 ^ 54)) } }
  f (match s.blockOf s.cur with | some b => (s.enter s.cur b).1 | none => s)
def ctx (s : State) (g : Guard := always) : Ctx :=
  (s.ctx s.cur g).getD ⟨s.cur, .lane, Block.blank 0, 0, 0, false, false, false, false, 0, 0⟩
/-- The state in which the word's effect is made. -/
abbrev pd (s : State) (i : Instr) (g : Guard := always) : State := paid s (ctx s g) i

def readyB (s : State) (i : Instr) (op : Nat) (g : Guard) : Bool :=
  let c := ctx s g
  decide (s.ctx s.cur g = some c) && (s.nextWaits s.cur).isNone && !s.claimWaits s.cur && (s.issueTrap c i op (priceOf i)).isNone &&
  (s.tick.pay c (priceOf i)).2 && decide (c.exec ≠ 0) && (((paid s c i).warp c.who).bind (·.poisoned (i.use c.cls) c.exec)).isNone
def issuesB (s : State) (i : Instr) (op : Nat) (g : Guard) : Bool :=
  readyB s i op g && (!(ctx s g).second || ((s.warp (ctx s g).who).bind (·.due)).isNone)

theorem ready_of {s : State} {i : Instr} {op : Nat} {g : Guard} (h : readyB s i op g = true) : Ready s i op g (ctx s g) := by
  simp only [readyB, Bool.and_eq_true, decide_eq_true_eq, Option.isNone_iff_eq_none, Bool.not_eq_true'] at h
  obtain ⟨⟨⟨⟨⟨⟨h1, h2⟩, h3⟩, h4⟩, h5⟩, h6⟩, h7⟩ := h
  exact ⟨h1, h2, h3, h4, h5, h6, h7⟩

theorem issues_of {s : State} {i : Instr} {op : Nat} {g : Guard} (h : issuesB s i op g = true) : Issues s i op g (ctx s g) := by
  simp only [issuesB, Bool.and_eq_true] at h
  refine ⟨ready_of h.1, fun h2 => ?_⟩
  simpa [h2] using h.2

theorem get_above (m : Tbl Byte) (k : Nat) (h : m.all (fun e => decide (e.1 < k)) = true) : Tbl.get 0 m k = 0 := by
  induction m with
  | nil => rfl
  | cons e m ih =>
    simp only [List.all_cons, Bool.and_eq_true, decide_eq_true_eq] at h
    simp only [Tbl.get]
    rw [if_neg (by omega)]
    exact ih h.2

theorem natOf_zeros (l : List Byte) (h : ∀ b ∈ l, b = 0) : natOf l = 0 := by
  induction l with
  | nil => rfl
  | cons b l ih => simp [natOf, h b (by simp), ih fun x hx => h x (by simp [hx])]

/-- Where REGTAB stands above all that memory lists, every region's record is zero. -/
def blankRegions (s : State) : State := { s with regs := { s.regs with regtab := 0x10000000000 }, regions := [] }

theorem noStat_of {s : State} (h : s.regions = []) (hm : s.mem.mem.all (fun e => decide (e.1 < s.regs.regtab.toNat)) = true) : NoStat s := by
  intro r e
  have hr (a : Nat) : s.rcb a = 0 := by
    have h0 : (s.region a).rcb = none := by simp [State.region, h, Region.init]
    have h1 : natOf (s.homeBytes (s.regs.regtab.toNat + 64 * a) 64) = 0 := by
      refine natOf_zeros _ fun b hb => ?_
      simp only [State.homeBytes, Tbl.getList, List.mem_map, List.mem_range] at hb
      obtain ⟨i, -, rfl⟩ := hb
      refine get_above _ _ ?_
      simp only [List.all_eq_true, decide_eq_true_eq] at hm ⊢
      intro x hx
      have := hm x hx
      omega
    simp only [State.rcb, h0, h1]
    rfl
  have h1 : s.thresh r = none := by
    have : s.effStattab r = 0 := by simp [State.effStattab, State.eff, hr, fld]
    simp [State.thresh, this]
  simp [State.threshOf, h1]

/-! ## Well-formedness: for each check a term that it refuses -/

def m0 : FMod := ⟨.f32, .rne, false, false, false⟩
def m64 : FMod := ⟨.f64, .rne, false, false, false⟩
def o2 : A2 := ⟨8, 4, always, .none, .none⟩
def o3 : A3 := ⟨8, 4, 12, always, .none, .none, .none⟩
def o4 : A4 := ⟨8, 4, 12, 16, always, .none, .none, .none, .none⟩
def oSet : ASet := ⟨8, 4, 12, always, .none, .none⟩
def mem : MemF := ⟨8, 4, always, 0, .relaxed, .b32, .blk, false, .dflt, 0⟩
def atm : AtomF := ⟨8, 4, 12, 0, always, .add, .b32, .blk, false, .relaxed, 0⟩
def cmd : CmdF := ⟨8, 1, false, false, .none, .dflt, false⟩
def mul : MulF := ⟨.bf16, .bf16, 1, 0, 1, 1, 2, false⟩

/-- 04 R79, R80; 21 Tables 1, 5; 05 Table 13; 20 R299, R306; 22 R346, R347, R361, R362; 23 R368, R383, R394, R397. -/
theorem wf_refuses_register_words :
    ([.iset .eq { oSet with d := 128 }, .sel o3 128, .x2p 8 4 always .none, .x2p 128 4 always .none, .p2x 8 33 always .none,
      .plop 3 200 0 0 always 0, .fadd { m0 with nc := true } o3, .fadd m64 { o3 with d := 9 }, .fsub m64 { o3 with a := 5 },
      .fmul m64 { o3 with b := 13 }, .ffma m64 { o4 with c := 17 }, .fmin .f64 { o3 with b := 1 }, .fmax .f64 { o3 with d := 1 },
      .fset .f16x2 .lt false { oSet with d := 9 }, .fset .f64 .lt false { oSet with a := 5 }, .fclass .f64 { o2 with a := 3 },
      .fscale { m0 with nc := true } o3, .frnd { m0 with ftz := true } o2, .fdiv { m0 with t := .bf16x2 } o3,
      .fsqrt { m0 with na := true } o2, .cvt .nq4 .f32 .rne .sat o2, .cvt .f32 .e8m0 .rne .sat o2, .cvt .f64 .f32 .rne .sat { o2 with a := 5 },
      .cvt .f32 .i64 .rne .sat { o2 with d := 5 }, .pk8 .e4m3 .rne .sat { o3 with a := 6 }, .upk8 .e4m3 { o3 with d := 6 }, .pk4 { o3 with a := 4 },
      .upk4 { o3 with d := 4 }, .qscl .e8m0E4m3 o3, .shfl .at false 5 o3, .shfl .at true 0 { o3 with a := 5 }, .vote .every 128 4 always .none,
      .vote .some 8 4 always .last, .vote .mask 8 128 always .none, .matchLanes true { o2 with a := 5 }] : List Instr).all (fun i => !i.wf) = true := by
  decide +kernel

/-- 04 R73 to R76; 09 R161; 20 R291 to R293, R302; 21 R329; 22 R339, R365; 23 R372, R387 to R389; 08 R141, R144; 07 R123, R134. -/
theorem wf_refuses_memory_and_system_words :
    ([.ld { mem with order := .rel }, .ld { mem with ga := true }, .ld { mem with sb := 7 }, .lds { mem with scope := .core }, .lds { mem with pol := .byp },
      .ldc { mem with order := .acq }, .st { mem with order := .acq }, .st { mem with size := .s8 }, .sts { mem with sb := 1 }, .stmc { mem with off := 4 },
      .stmc { mem with a := 5 }, .atom { atm with size := .u8 }, .atom { atm with op := .faddF32, size := .b64 }, .atom { atm with sb := 7 },
      .atoms { atm with scope := .die }, .red atm, .red { atm with d := 0, op := .cas }, .pref 5 always 0 .dflt, .disc 8 5 always,
      .fence .relaxed .pkg false always, .fencep .ls .ls always, .claim 8 5 always 0, .claim 8 4 always 7, .migr 5, .bcbinit 6, .bcbexp 5 8, .bcbarv 1,
      .bcbwait 2 8, .bcbtry 3 8, .ringinit 1 6, .gbar 1 .blk, .gbar 1 .sys, .dqpop 9 .none always, .cpy { cmd with a := 9 }, .gth { cmd with ga := true },
      .gth { cmd with s2g := true }, .sct { cmd with s2g := true }, .rsend 9 1 .dflt false, .rget 9 1 .dflt, .ratom 9 1 .add false, .ldimg 9 1, .enq 5 1,
      .mldb .bf16 1 0 1 false, .mscale 1 1 4, .mscale 1 0 5, .mdrain .f32 1 2 4 .rne .sat, .msig .bcb 1 0, .mwait .bcb 1 0, .tlbinv 5 always .pkg 0,
      .tlbinv 4 always .blk 0, .tlbinvAsid always .sys 0, .tlbinvAll always .blk, .probe 6 4 always, .probeAs 8 5 always 0, .wsave 5 always 1,
      .wload 5 always 1, .dispatch, .unassignedOpcode 0] : List Instr).all (fun i => !i.wf) = true := by
  decide +kernel

/-! ## Words that the spec writes out -/

def decodesTo (l : List (DWord × Instr)) : Bool := l.all fun e => match decode e.1 with | .ok i => i == e.2 | .error _ => false

/-- 04 Table 17; 14 R261; 18 R282; 20 R290, R297, R299; 21 R328, R333 to R338; 22 R345, R346, R353, R358, R359, R363, R364; 23 R378, R381, R397,
R398. -/
theorem decode_integer_words : decodesTo [
    (0x1014141500000000, .iadd ⟨20, 20, 21, always, .none, .none, .none⟩), (0x1114141600000000, .isub ⟨20, 20, 22, always, .none, .none, .none⟩),
    (0x1403040506000000, .imad ⟨3, 4, 5, 6, always, .none, .none, .none, .none⟩), (0x15090A0B00000001, .idiv true ⟨9, 10, 11, always, .none, .none, .none⟩),
    (0x1A01001406000000, .iset .ltU ⟨1, 0, 20, always, .none, .none⟩), (0x1A010C0B06000000, .iset .ltU ⟨1, 12, 11, always, .none, .none⟩),
    (0x1B211F1E08000000, .sel ⟨33, 31, 30, always, .none, .none, .none⟩ 8), (0x1C02020600000404, .lea ⟨2, 2, 6, always, .none, .none, .last⟩ 4),
    (0x1D052F0000001000, .mov ⟨5, 47, always, .none, .last⟩), (0x1E16000000000001, .movi 22 always 1), (0x1E030000FFFFFFFF, .movi 3 always 0xFFFFFFFF),
    (0x1F20090000000000, .x2p 32 9 always .none), (0x2003040500000000, .and ⟨3, 4, 5, always, .none, .none, .none⟩),
    (0x2103040500000000, .or ⟨3, 4, 5, always, .none, .none, .none⟩), (0x2236051B00000000, .xor ⟨54, 5, 27, always, .none, .none, .none⟩),
    (0x2403040506000096, .lop3 ⟨3, 4, 5, 6, always, .none, .none, .none, .none⟩ 0x96), (0x2601001A00000000, .shr ⟨1, 0, 26, always, .none, .none, .none⟩),
    (0x2A07060000000000, .popc ⟨7, 6, always, .none, .none⟩), (0x2C06070800000001, .bfx true ⟨6, 7, 8, always, .none, .none, .none⟩),
    (0x2E03010200000088, .plop 3 1 2 0 always 0x88), (0x2F09200000000000, .p2x 9 32 always .none)] = true := by decide +kernel

/-- 04 Table 17; 14 R261; 18 R282; 20 R306; 21 R318, R320, R328; 22 R347, R361, R362; 23 R368, R373, R379, R383, R393, R394; the f64 FDIV of
05 Table 14 is the word 0x3A06080A00000040. -/
theorem decode_float_and_lane_words : decodesTo [
    (0x3305050408000100, .ffma m0 ⟨5, 5, 4, 8, always, .none, .none, .none, .last⟩), (0x3305050409000100, .ffma m0 ⟨5, 5, 4, 9, always, .none, .none, .none, .last⟩),
    (0x330505041A000100, .ffma m0 ⟨5, 5, 4, 26, always, .none, .none, .none, .last⟩), (0x3308080405000000, .ffma m0 ⟨8, 8, 4, 5, always, .none, .none, .none, .none⟩),
    (0x3305060607000000, .ffma m0 ⟨5, 6, 6, 7, always, .none, .none, .none, .none⟩), (0x3602040502000000, .fset .f32 .lt false ⟨2, 4, 5, always, .none, .none⟩),
    (0x3A06080A00000040, .fdiv m64 ⟨6, 8, 10, always, .none, .none, .none⟩), (0x4307060000000000, .fexp2 false ⟨7, 6, always, .none, .none⟩),
    (0x48090803A0000000, .cvt .f32 .bf16 .sr .sat ⟨9, 8, always, .none, .none⟩), (0x49302C2500000004, .pk8 .e4m3 .rne .sat ⟨48, 44, 37, always, .none, .none, .none⟩),
    (0x4A2C302500000004, .upk8 .e4m3 ⟨44, 48, 37, always, .none, .none, .none⟩), (0x4B0C100900000000, .pk4 ⟨12, 16, 9, always, .none, .none, .none⟩),
    (0x4D25240000000004, .qscl .e8m0E4m3 ⟨37, 36, 0, always, .none, .none, .none⟩), (0x4D090A0B00000010, .qscl .sc8 ⟨9, 10, 11, always, .none, .none, .none⟩),
    (0x4E05060708000000, .scac ⟨5, 6, 7, 8, always, .none, .none, .none, .none⟩), (0x50090A0B00000003, .shfl .swap false 0 ⟨9, 10, 11, always, .none, .none, .none⟩),
    (0x50090A0B0000001A, .shfl .ahead false 3 ⟨9, 10, 11, always, .none, .none, .none⟩), (0x5109030000000002, .vote .mask 9 3 always .none),
    (0x5109030000000003, .vote .count 9 3 always .none), (0x52090A0000000000, .redux .add ⟨9, 10, always, .none, .none⟩),
    (0x53090A0000000000, .scan .add ⟨9, 10, always, .none, .none⟩), (0x54090A0000000000, .matchLanes false ⟨9, 10, always, .none, .none⟩)] = true := by decide +kernel

/-- 15 R267; 16 R269; 19 R287; 20 R291, R302, R305, R309; 21 R322 to R324, R329, R331; 22 R339, R344, R351, R357, R365; 23 R369 to R372, R375 to
R377, R380, R382, R387, R388. -/
theorem decode_memory_and_engine_words : decodesTo [
    (0x6008020000040601, .ld ⟨8, 2, always, 16, .relaxed, .b64, .blk, false, .dflt, 1⟩), (0x600F1000000014C1, .ld ⟨15, 16, always, 0, .acq, .b32, .pkg, false, .dflt, 1⟩),
    (0x61050700FFFE0C00, .lds ⟨5, 7, always, 0x3FFF8, .relaxed, .s16, .blk, false, .dflt, 0⟩),
    (0x6108070000000801, .lds ⟨8, 7, always, 0, .relaxed, .b128, .blk, false, .dflt, 1⟩), (0x6208000000000802, .ldc ⟨8, 0, always, 0, .relaxed, .b128, .blk, false, .dflt, 2⟩),
    (0x63160C02000024C0, .st ⟨22, 12, ⟨1, false⟩, 0, .rel, .b32, .pkg, false, .dflt, 0⟩), (0x6305020000010400, .st ⟨5, 2, always, 4, .relaxed, .b32, .blk, false, .dflt, 0⟩),
    (0x640C070000040800, .sts ⟨12, 7, always, 16, .relaxed, .b128, .blk, false, .dflt, 0⟩),
    (0x650A040C00000481, .atom ⟨10, 4, 12, 0, always, .add, .b32, .die, false, .relaxed, 1⟩), (0x6700140B000004C0, .red ⟨0, 20, 11, 0, always, .add, .b32, .pkg, false, .relaxed, 0⟩),
    (0x6805080000000420, .stmc ⟨5, 8, always, 0, .relaxed, .b32, .blk, true, .dflt, 0⟩), (0x6900080000200008, .pref 8 always 128 .byp),
    (0x6B000000000020C0, .fence .rel .pkg false always), (0x6B000000000030E0, .fence .acqRel .pkg true always), (0x6C00000000000008, .fencep .ls .tile always),
    (0x6D0E060000000002, .claim 14 6 always 2), (0x6E00060000000000, .migr 6), (0x6E00000000000200, .migrHome), (0x7000140000010000, .barw 1 20),
    (0x71000F0000020000, .bara 2 15), (0x73100E0000000000, .bcbexp 16 14), (0x7614180000000000, .bcbtry 20 24), (0x78001E0000010100, .ringacqFill 1 30),
    (0x7900000000020100, .ringrelFill 2), (0x7A00000000020300, .gbar 2 .pkg), (0x7B10000000004000, .dqpop 16 .last always), (0x7C00000000000000, .rolechk),
    (0x8000000000050000, .cpy ⟨0, 5, false, false, .none, .dflt, false⟩), (0x802C000000010200, .cpy ⟨44, 1, false, true, .none, .dflt, false⟩),
    (0x8014000018520100, .cpy ⟨20, 6226, true, false, .none, .dflt, false⟩), (0x8008000000054500, .cpy ⟨8, 5, true, false, .c16, .dflt, true⟩),
    (0x8108000000050000, .gth ⟨8, 5, false, false, .none, .dflt, false⟩), (0x8208000000054000, .sct ⟨8, 5, false, false, .none, .dflt, true⟩),
    (0x8508000000061000, .ratom 8 6 .add true), (0x8608000000060000, .ldimg 8 6), (0x8800000000000040, .fgrow 64), (0x8A09000000001001, .sgrowSwz 9 4),
    (0x8A04000000010000, .sgrow 4 64), (0x8B00000000001000, .strim 4), (0x8C00000000000000, .ocwb always)] = true := by decide +kernel

/-- 17 R276; 20 R299, R312; 22 R348 to R350, R354, R366; 23 R374, R385, R386, R390 to R392, R395, R396, R399. -/
theorem decode_control_matrix_and_system_words : decodesTo [
    (0, .nop always), (0x01000002FFFFFFF2, .bra ⟨1, false⟩ 0xFFFFFFF2), (0x0500010000000000, .ret 1 always), (0x0600000000000000, .yield always),
    (0x0800000000000051, .trap always 0x51), (0x9100000000000000, .mstart), (0x9200000000000000, .mstop),
    (0xA006000100000001, .mldb .nq4 0 0 1 true), (0xA003000100000000, .mldb .bf16 0 0 1 false), (0xA146031280010002, .mmul ⟨.e4m3, .nq4, 3, 1, 2, 2, 1, true⟩),
    (0xA246024500020002, .mmulb ⟨.e4m3, .nq4, 2, 4, 5, 2, 2, false⟩), (0xA300284800000000, .mscale 40 4 8), (0xA400006000000000, .mzero 6 0),
    (0xA50028CA00000000, .mdrain .f32 40 12 10 .rne .sat), (0xA54002480000000D, .mdrain .e4m3 2 4 8 .sr .inf), (0xA600022000000001, .msig .ring 2 2),
    (0xA700053000000002, .mwait .bar 5 3), (0xA700000000000000, .mwait .bcb 0 0), (0xA80000B0FFFFFFF9, .mloop 11 0xFFFFFFF9), (0xA900005000005000, .mset 5 20480),
    (0xAA00000000000000, .mend), (0xB007000000020000, .sread 7 always 2 0), (0xB100090000080000, .swrite 9 always 8 0), (0xB20C000000000000, .timeRef 12 always),
    (0xB20E000000000001, .timeCyc 14 always), (0xB300000000000001, .eretResume), (0xB400040000030005, .tlbinv 4 always .pkg 5),
    (0xB508040000010005, .probeAs 8 4 always 5), (0xB60004000000000C, .wsave 4 always 12), (0xB60004000000004C, .wsaveFrame 4 always 12),
    (0xB70004000000000C, .wload 4 always 12)] = true := by decide +kernel

/-- Reserved encodings are refused (04 R69, Tables 5, 6, 8, 11): size 7, scope 5, an operation above 12, rounding code 6, a nonzero fixed-zero field. -/
theorem decode_refuses_reserved_codes :
    ([0x6008020000000E00, 0x6008020000000540, 0x650A040C0000D481, 0x3305050408000030, 0x1014141500000001, 0x7C00000000000001] : List DWord).all
      (fun v => match decode v with | .ok _ => false | .error _ => true) = true := by decide +kernel

/-! ## Examples of the spec, one step each -/

def w0 : Who := ⟨0, .warp 0⟩
/-- Registers of warp 0 of core 0: register r of lane l holds f l; the registers rise. -/
def regs (l : List (Nat × (Nat → Nat))) (s : State) : State := 
  let row (e : Nat × (Nat → Nat)) : List (Nat × Word) :=
    (List.range 32).filterMap fun k => if e.2 k = 0 then none else some (32 * e.1 + k, BitVec.ofNat 32 (e.2 k))
  s.updWarp w0 fun x => { x with regs := l.flatMap row }
/-- Predicates that are true, by number and lane. -/
def preds (l : List (Nat × Nat)) (s : State) : State := s.updWarp w0 fun x => { x with preds := l.foldl (fun t e => Tbl.set false t (32 * e.1 + e.2) true) x.preds }
/-- s registers of the front end of core 0's block. -/
def sregs (l : List (Nat × Nat)) (s : State) : State :=
  s.updFront 0 0 fun x => { x with s := l.foldl (fun t e => Tbl.set 0 t e.1 (BitVec.ofNat 64 e.2)) x.s }
/-- The lanes below n alone stand at the word. -/
def lanes (n : Nat) (s : State) : State := s.updWarp w0 fun x => { x with
  slices := (List.range 8).zipWith (fun k e => { e with mask := maskOf 32 (fun l => decide (4 * k + l < n)) |>.setWidth 4 }) x.slices }
def next (i : Instr) (s : State) : Option State := match exec i s with | .next t => some t | _ => none
/-- What register r of lane l holds after one word. -/
def reg (i : Instr) (f : State → State) (r l : Nat) : Option Nat := (next i (at_ i f)).map fun t => (val t w0 r l).toNat
def pred (i : Instr) (f : State → State) (n l : Nat) : Option Bool := (next i (at_ i f)).map fun t => pval t w0 n l
def all (v : Nat) (_ : Nat) : Nat := v

/-- 20 R290. -/
theorem test_and : reg (.and ⟨3, 4, 5, always, .none, .none, .none⟩) (regs [(4, all 0xF0F000FF), (5, all 0x0FF00F0F)]) 3 31 = some 0x00F0000F ∧
    reg (.andn ⟨3, 4, 5, always, .none, .none, .none⟩) (regs [(4, all 0xF0F000FF), (5, all 0x0FF00F0F)]) 3 0 = some 0xF00000F0 := by decide +kernel
/-- 22 R346: majority. -/
theorem test_lop3 : reg (.lop3 ⟨3, 4, 5, 6, always, .none, .none, .none, .none⟩ 0xE8) (regs [(4, all 0xF0), (5, all 0xCC), (6, all 0xAA)]) 3 7 = some 0xE8 := by
  decide +kernel
/-- 20 R297. -/
theorem test_bfx : reg (.bfx true ⟨6, 7, 8, always, .none, .none, .none⟩) (regs [(7, all 0xF00), (8, all 0x408)]) 6 0 = some 0xFFFFFFFF ∧
    reg (.bfx false ⟨6, 7, 8, always, .none, .none, .none⟩) (regs [(7, all 0xF00), (8, all 0x408)]) 6 0 = some 15 := by decide +kernel
theorem test_bfi : reg (.bfi ⟨6, 7, 8, 9, always, .none, .none, .none, .none⟩) (regs [(7, all 5), (8, all 0x304), (9, all 0xFFFFFFFF)]) 6 0 = some 0xFFFFFFDF := by
  decide +kernel
/-- 21 R333. -/
theorem test_imad_wraps : reg (.imad ⟨3, 4, 5, 6, always, .none, .none, .none, .none⟩) (regs [(4, all 0x80000001), (5, all 3), (6, all 5)]) 3 0 = some 0x80000008 := by
  decide +kernel
/-- 21 R335. -/
theorem test_idiv : reg (.idiv true ⟨9, 10, 11, always, .none, .none, .none⟩) (regs [(10, all (2 ^ 32 - 7)), (11, all 2)]) 9 0 = some (2 ^ 32 - 3) ∧
    reg (.irem true ⟨9, 10, 11, always, .none, .none, .none⟩) (regs [(10, all (2 ^ 32 - 7)), (11, all 2)]) 9 0 = some (2 ^ 32 - 1) := by decide +kernel
/-- 22 R345. -/
theorem test_lea : reg (.lea ⟨2, 2, 6, always, .none, .none, .none⟩ 4) (regs [(2, all 0xFFFFFFF0), (6, all 2)]) 2 0 = some 0x10 := by decide +kernel
/-- 22 R364; 23 R378: in a lane, SAR by 40 fills with the sign and ROT turns. -/
theorem test_popc : reg (.popc ⟨7, 6, always, .none, .none⟩) (regs [(6, all 0xF0F00001)]) 7 0 = some 9 := by decide +kernel
theorem test_shifts : reg (.sar ⟨7, 6, 5, always, .none, .none, .none⟩) (regs [(5, all 40), (6, all 0x80000000)]) 7 0 = some 0xFFFFFFFF ∧
    reg (.rot ⟨7, 6, 5, always, .none, .none, .none⟩) (regs [(5, all 8), (6, all 0x12345678)]) 7 0 = some 0x34567812 := by decide +kernel
/-- 23 R378: the 64-bit shift of a front end. -/
theorem test_front_shr : (next (.shr ⟨1, 0, 26, always, .none, .none, .none⟩) (front (.shr ⟨1, 0, 26, always, .none, .none, .none⟩)
    (sregs [(0, 0x1122334455667788), (26, 32)]))).map (fun t => (val t ⟨0, .front 0⟩ 1 0).toNat) = some 0x11223344 := by decide +kernel
/-- 22 R353: MOVI is sign-extended in a FRONT clause. -/
theorem test_front_movi : (next (.movi 3 always 0xFFFFFFFF) (front (.movi 3 always 0xFFFFFFFF))).map
    (fun t => (val t ⟨0, .front 0⟩ 3 0).toNat) = some (2 ^ 64 - 1) := by decide +kernel
/-- 22 R359, 23 R397. -/
theorem test_p2x : reg (.p2x 9 32 always .none) (preds [(33, 0), (40, 0)]) 9 0 = some 0x102 := by decide +kernel
theorem test_x2p : pred (.x2p 32 9 always .none) (fun s => lanes 1 (regs [(9, all 0x102)] s)) 40 0 = some true ∧
    pred (.x2p 32 9 always .none) (fun s => lanes 1 (regs [(9, all 0x102)] s)) 32 0 = some false := by
  decide +kernel
/-- 22 R363. -/
theorem test_plop : pred (.plop 3 1 2 0 always 0x88) (preds [(1, 5), (2, 5), (1, 6)]) 3 5 = some true ∧
    pred (.plop 3 1 2 0 always 0x88) (preds [(1, 5), (2, 5), (1, 6)]) 3 6 = some false := by decide +kernel
/-- 21 R318: the product is exact before the one rounding. -/
theorem test_ffma : reg (.ffma m0 ⟨5, 6, 6, 7, always, .none, .none, .none, .none⟩) (fun s => lanes 1 (regs [(6, all 0x3F800800), (7, all 0xBF801000)] s)) 5 0 = some 0x33800000 ∧
    reg (.fmul m0 ⟨9, 6, 6, always, .none, .none, .none⟩) (fun s => lanes 1 (regs [(6, all 0x3F800800)] s)) 9 0 = some 0x3F801000 := by decide +kernel
/-- 23 R368. -/
theorem test_qscl : reg (.qscl .e8m0E4m3 ⟨37, 36, 0, always, .none, .none, .none⟩) (fun s => lanes 1 (regs [(36, all 0x40400000)] s)) 37 0 = some 119 ∧
    reg (.qscl .sc8 ⟨9, 10, 11, always, .none, .none, .none⟩) (fun s => lanes 1 (regs [(10, all 0x3F000000), (11, all 0x40000000)] s)) 9 0 = some 64 := by decide +kernel
/-- 22 R361: 0.5, −0.25, 0.75, 2.0, 0.1, 0.05, 0, −1.5. -/
theorem test_pk4 : reg (.pk4 ⟨12, 16, 9, always, .none, .none, .none⟩) (fun s => lanes 1 (regs [(9, all 0x3F800000), (16, all 0x3F000000), (17, all 0xBE800000), (18, all 0x3F400000),
    (19, all 0x40000000), (20, all 0x3DCCCCCD), (21, all 0x3D4CCCCD), (22, all 0), (23, all 0xBFC00000)] s)) 12 0 = some 0x0788FE5C := by decide +kernel
/-- 22 R362. -/
theorem test_pk8 : reg (.pk8 .e4m3 .rne .sat ⟨48, 44, 37, always, .none, .none, .none⟩)
    (fun s => lanes 1 (regs [(37, all 119), (44, all 0x3FE00000), (45, all 0x3F800000)] s)) 48 0 = some 0x787E := by decide +kernel
/-- 23 R393. -/
theorem test_upk8 : reg (.upk8 .e4m3 ⟨44, 48, 37, always, .none, .none, .none⟩) (fun s => lanes 1 (regs [(37, all 119), (48, all 0x787E)] s)) 44 0 = some 0x3FE00000 ∧
    reg (.upk8 .e4m3 ⟨44, 48, 37, always, .none, .none, .none⟩) (fun s => lanes 1 (regs [(37, all 119), (48, all 0x787E)] s)) 45 0 = some 0x3F800000 := by decide +kernel
/-- 23 R379: 40,640 × 2^−8 × 1.0 = 158.75. -/
theorem test_scac : reg (.scac ⟨5, 6, 7, 8, always, .none, .none, .none, .none⟩) (fun s => lanes 1 (regs [(6, all 0x471EC000), (7, all 0x3B800000), (8, all 0x3F800000)] s)) 5 0 =
    some 0x431EC000 := by decide +kernel
/-- 20 R306: 1 + 2^−9 to BF16 under the draw 0xC350, the worked case of 06 R104. -/
theorem test_cvt_sr : (fmtConvert .bf16 .sr .sat 0xC350 (fmtRead .f32 0x3F804000)).bits = 0x3F81 := by decide +kernel
/-- 22 R347. -/
theorem test_match : (List.range 4).map (fun l => reg (.matchLanes false ⟨9, 10, always, .none, .none⟩)
    (fun s => lanes 4 (regs [(10, fun l => [5, 7, 5, 9].getD l 0)] s)) 9 l) = [some 5, some 2, some 5, some 8] := by decide +kernel
/-- 23 R373. -/
theorem test_redux : reg (.redux .add ⟨9, 10, always, .none, .none⟩) (regs [(10, id)]) 9 17 = some 496 := by decide +kernel
theorem test_scan : (List.range 4).map (fun l => reg (.scan .add ⟨9, 10, always, .none, .none⟩) (fun s => lanes 4 (regs [(10, (· + 1))] s)) 9 l) =
    [some 1, some 3, some 6, some 10] := by decide +kernel
/-- 23 R383. -/
theorem test_shfl : reg (.shfl .swap false 0 ⟨9, 10, 11, always, .none, .none, .none⟩) (regs [(10, id), (11, all 1)]) 9 0 = some 1 ∧
    reg (.shfl .ahead false 3 ⟨9, 10, 11, always, .none, .none, .none⟩) (regs [(10, id), (11, all 2)]) 9 6 = some 6 := by decide +kernel
theorem test_shfl_inactive : reg (.shfl .ahead false 0 ⟨9, 10, 11, always, .none, .none, .none⟩) (fun s => lanes 16 (regs [(10, id), (11, all 8)] s)) 9 12 = some 12 := by
  decide +kernel
/-- 23 R394. -/
theorem test_vote : reg (.vote .mask 9 3 always .none) (fun s => lanes 8 (preds [(3, 0), (3, 5), (3, 9)] s)) 9 7 = some 0x21 ∧
    reg (.vote .count 9 3 always .none) (fun s => lanes 8 (preds [(3, 0), (3, 5), (3, 9)] s)) 9 7 = some 2 := by decide +kernel

/-! ## Witnesses: for each statement a state and operands that meet its hypotheses -/

def stands (at_ : Instr → State) (l : List (Nat × Instr)) : Bool := l.all fun e => issuesB (at_ e.2) e.2 e.1 always
def lane0 (i : Instr) : State := at_ i blankRegions
def Stands (at_ : Instr → State) (l : List (Nat × Instr)) : Prop := ∀ e ∈ l, Issues (at_ e.2) e.2 e.1 always (ctx (at_ e.2))
theorem stands_of {f : Instr → State} {l : List (Nat × Instr)} (h : stands f l = true) : Stands f l :=
  fun e he => issues_of (List.all_eq_true.mp h e he)
def Quiet (l : List (Nat × Instr)) : Prop := ∀ e ∈ l, NoStat (pd (lane0 e.2) e.2)
theorem quiet_of {l : List (Nat × Instr)} (h : (l.all fun e => (pd (lane0 e.2) e.2).regions.isEmpty &&
    (pd (lane0 e.2) e.2).mem.mem.all (fun x => decide (x.1 < (pd (lane0 e.2) e.2).regs.regtab.toNat))) = true) : Quiet l := by
  intro e he
  have := List.all_eq_true.mp h e he
  simp only [Bool.and_eq_true, List.isEmpty_iff] at this
  exact noStat_of this.1 this.2

def integerWords : List (Nat × Instr) := [(0x10, .iadd o3), (0x11, .isub o3), (0x12, .imul o3), (0x13, .imulh true o3), (0x13, .imulh false o3),
  (0x14, .imad o4), (0x15, .idiv true o3), (0x15, .idiv false o3), (0x16, .irem true o3), (0x16, .irem false o3), (0x17, .imin true o3),
  (0x17, .imin false o3), (0x18, .imax true o3), (0x18, .imax false o3), (0x19, .iabs o2), (0x1A, .iset .ltS oSet), (0x1B, .sel o3 1), (0x1C, .lea o3 31),
  (0x1D, .mov o2), (0x1E, .movi 8 always 7), (0x20, .and o3), (0x21, .or o3), (0x22, .xor o3), (0x23, .andn o3), (0x24, .lop3 o4 0x96), (0x25, .shl o3),
  (0x26, .shr o3), (0x27, .sar o3), (0x28, .rot o3), (0x29, .clz o2), (0x2A, .popc o2), (0x2B, .brev o2), (0x2C, .bfx true o3), (0x2C, .bfx false o3),
  (0x2D, .bfi o4), (0x2E, .plop 8 4 5 6 always 0x88)]

/-- IntegerArithmetic, CompareAndPredicateWords, MoveSelectAndBitWords, LogicWords, ShiftWords. -/
theorem integer_words_stand : Stands lane0 (integerWords ++ [(0x1F, .x2p 96 4 always .none), (0x2F, .p2x 8 96 always .none)]) := stands_of (by decide +kernel)
theorem integer_words_stand_in_front : Stands front (integerWords ++ [(0x1F, .x2p 0 4 always .none), (0x2F, .p2x 8 0 always .none)]) := stands_of (by decide +kernel)

def floatWords : List (Nat × Instr) := [(0x30, .fadd m0 o3), (0x31, .fsub m64 o3), (0x32, .fmul { m0 with t := .f16x2 } o3),
  (0x33, .ffma { m0 with rm := .sr, nc := true } o4), (0x34, .fmin .f32 o3), (0x35, .fmax .bf16x2 o3), (0x36, .fset .f64 .num true oSet), (0x37, .fclass .f32 o2),
  (0x38, .fscale m0 o3), (0x39, .frnd m0 o2), (0x3A, .fdiv m64 o3), (0x40, .frcp true o2), (0x41, .frsq false o2), (0x42, .fsqrt m0 o2), (0x43, .fexp2 false o2),
  (0x44, .flog2 false o2), (0x45, .fsin false o2), (0x46, .fcos false o2), (0x47, .ftanh false o2), (0x49, .pk8 .e4m3 .sr .sat o3), (0x4A, .upk8 .i8 o3),
  (0x4B, .pk4 { o3 with a := 16 }), (0x4C, .upk4 o3), (0x4D, .qscl .e8m0E4m3 { o3 with b := 0 }), (0x4D, .qscl .e8m0E5m2 { o3 with b := 0 }), (0x4D, .qscl .sc8 o3),
  (0x4E, .scac o4)]
def crossLaneWords : List (Nat × Instr) := [(0x50, .shfl .at false 0 o3), (0x50, .shfl .swap true 4 o3), (0x51, .vote .every 8 4 always .none),
  (0x51, .vote .some 8 4 always .none), (0x51, .vote .mask 8 4 always .none), (0x51, .vote .count 8 4 always .none), (0x52, .redux .fadd o2), (0x53, .scan .add o2),
  (0x54, .matchLanes false o2), (0x54, .matchLanes true o2)]

/-- FloatArithmetic, FloatSelection, SpecialFunctions, Conversions and CrossLaneWords. -/
theorem float_words_stand : Stands lane0 floatWords := stands_of (by decide +kernel)
theorem float_words_count_no_action : Quiet floatWords := quiet_of (by decide +kernel)
theorem cross_lane_words_stand : Stands lane0 crossLaneWords := stands_of (by decide +kernel)
theorem cross_lane_words_count_no_action : Quiet crossLaneWords := quiet_of (by decide +kernel)

/-- Conversions: a CVT and a PK8 whose elements do not trap. OverflowTrapLeavesRegisters: 2^20 overflows E4M3 under policy 11. -/
theorem conversions_without_trap :
    let i : Instr := .cvt .f32 .e4m3 .rne .trap o2
    let s := at_ i blankRegions
    Issues s i 0x48 always (ctx s) ∧ NoStat (pd s i) ∧ (List.range 32).all (fun l => !(fmtConvert .e4m3 .rne .trap 0 (fmtRead .f32 ((pd s i).get (ctx s) 4 l).toNat)).trap) = true :=
  ⟨issues_of (by decide +kernel), noStat_of (by decide +kernel) (by decide +kernel), by decide +kernel⟩
theorem cvt_overflow :
    let i : Instr := .cvt .f32 .e4m3 .rne .trap o2
    let s := at_ i fun s => regs [(4, fun l => if l = 31 then 0x49800000 else 0)] (blankRegions s)
    Ready s i 0x48 always (ctx s) ∧ NoStat (pd s i) ∧ (ctx s).exec.getLsbD 31 = true ∧
      (fmtConvert .e4m3 .rne .trap 0 (fmtRead .f32 ((pd s i).get (ctx s) 4 31).toNat)).trap = true :=
  ⟨ready_of (by decide +kernel), noStat_of (by decide +kernel) (by decide +kernel), by decide +kernel, by decide +kernel⟩

/-- UnassignedOpcodeTraps. -/
theorem unassigned_word_stands :
    let s := at_ (.unassignedOpcode 0x0A00000000000000)
    unassigned (opcodeOf 0x0A00000000000000) = true ∧ s.ctx s.cur always = some (ctx s) ∧ s.nextWaits (ctx s).who = none ∧ s.claimWaits (ctx s).who = false := by
  decide +kernel
def isNext (o : Host.Outcome State Fault Refusal) : Bool := match o with | .next _ => true | _ => false
theorem runs_of {i : Instr} {s : State} (h : isNext (exec i s) = true) : ∃ t, Runs i s t := by
  unfold isNext at h
  split at h
  · exact ⟨_, ‹_›⟩
  · cases h
theorem steps_of {s : State} (h : isNext (step s) = true) : ∃ t, Steps s t := by
  unfold isNext at h
  split at h
  · exact ⟨_, ‹_›⟩
  · cases h

/-- StepKeepsMemoryCanonical, PoweredPackageSteps and StepRunsDecodedWord, of a word and of an event. -/
theorem a_step_of_a_word :
    let s := State.reset.placeWord 0
    s.servable = true ∧ s.agenda = [.issue w0] ∧ Safety.Inv s ∧ ∃ t, Steps s t :=
  ⟨by decide +kernel, by decide +kernel, by unfold Safety.Inv; decide +kernel, steps_of (by decide +kernel)⟩
theorem a_step_of_an_event :
    let s : State := { State.reset with agenda := [.event (.ringCycle 0)] }
    s.servable = true ∧ isEvent (.ringCycle 0) = true ∧ ∃ t, Steps s t := ⟨by decide +kernel, by decide +kernel, steps_of (by decide +kernel)⟩
theorem no_step_without_power : ({ State.reset with power := false } : State).servable = false := by decide +kernel
theorem a_decoded_word_in_its_line :
    let s := State.reset.placeWord (encode (.iadd o3))
    let p : State := { s.advance with agenda := [], cur := w0 }
    let s1 := (p.enter w0 (Block.blank 0x5008)).1
    s.agenda = [.issue w0] ∧ p.blockOf w0 = some (Block.blank 0x5008) ∧ p.runnable w0 = true ∧ p.halted w0 = false ∧
    (p.clauseOf w0).any (·.line == lineOf (p.pcOf w0)) = false ∧ (p.enter w0 (Block.blank 0x5008)).2 = true ∧
    (s1.clauseOf w0).isSome = true ∧ s1.ctx w0 always = some (ctx s1) ∧ ((ctx s1).first && (ctx s1).cls == .lane) = false ∧
    decodesTo [(s1.lineWord w0 (((s1.clauseOf w0).map (·.phys)).getD 0) ((ctx s1).pc.toNat % 128 / 8), .iadd o3)] = true := by decide +kernel

/-- StepRunsDecodedWord: the word v that s reaches as it enters its line; one of another class, one that does not decode, one with no
instruction, and the first word of a pair. -/
def entering (s : State) : State := (({ s.advance with agenda := [], cur := s.cur } : State).enter s.cur (Block.blank 0x5008)).1
def fetchesB (s : State) (w : Who) (v : DWord) : Bool :=
  let p : State := { s.advance with agenda := [], cur := w }
  let s1 := (p.enter w (Block.blank 0x5008)).1
  s.servable && decide (s.agenda = [.issue w]) && decide (p.blockOf w = some (Block.blank 0x5008)) && p.runnable w && !p.halted w &&
  !(p.clauseOf w).any (·.line == lineOf (p.pcOf w)) && (p.enter w (Block.blank 0x5008)).2 && (s1.clauseOf w).isSome &&
  (match s1.ctx w ⟨0, false⟩ with
   | some c => decide (c.who = w) && (s1.lineWord w (((s1.clauseOf w).map (·.phys)).getD 0) (c.pc.toNat % 128 / 8) == v)
   | none => false)
theorem fetches_mk {s s1 : State} {c : Ctx} {v : DWord} {b : Block} {cl : Clause} (h1 : s.servable = true) (h2 : s.agenda = [.issue c.who]) (p : State)
    (hp : p = { s.advance with agenda := [], cur := c.who }) (h3 : p.blockOf c.who = some b) (h4 : p.runnable c.who = true) (h5 : p.halted c.who = false)
    (h6 : if (p.clauseOf c.who).any (·.line == lineOf (p.pcOf c.who)) then s1 = p else p.enter c.who b = (s1, true)) (h7 : s1.clauseOf c.who = some cl)
    (h8 : s1.ctx c.who ⟨0, false⟩ = some c) (h9 : s1.lineWord c.who cl.phys (c.pc.toNat % 128 / 8) = v) :
    Fetches s s1 c v (s1.lineWord c.who cl.phys (c.pc.toNat % 128 / 8 + 1)) := by
  subst hp
  exact ⟨[], b, cl, h1, h2, ⟨h3, h4, h5, h6⟩, h7, h8, h9.symm, rfl⟩
theorem fetches_of {s : State} {w : Who} {v : DWord} (h : fetchesB s w v = true) :
    ∃ s1 c v2, Fetches s s1 c v v2 := by
  unfold fetchesB at h
  generalize hp : ({ s.advance with agenda := [], cur := w } : State) = p at h
  obtain ⟨s1, hs1⟩ : ∃ s1, (p.enter w (Block.blank 0x5008)).1 = s1 := ⟨_, rfl⟩
  simp only [hs1, Bool.and_eq_true, decide_eq_true_eq, Bool.not_eq_true'] at h
  obtain ⟨⟨⟨⟨⟨⟨⟨⟨h1, h2⟩, h3⟩, h4⟩, h5⟩, h6⟩, h7⟩, h8⟩, h9⟩ := h
  split at h9
  · rename_i c hc
    simp only [Bool.and_eq_true, decide_eq_true_eq, beq_iff_eq] at h9
    obtain ⟨hw, hv⟩ := h9
    subst hw
    obtain ⟨cl, hcl⟩ := Option.isSome_iff_exists.mp h8
    simp only [hcl, Option.map_some, Option.getD_some] at hv
    exact ⟨s1, c, _, fetches_mk h1 h2 p hp.symm h3 h4 h5 (by rw [h6]; exact Prod.ext hs1 h7) hcl hc hv⟩
  · cases h9
/-- The word at 0x5008 and the header of its line. -/
def poke (a v : Nat) (s : State) : State := { s with mem := { s.mem with mem := Tbl.setList 0 s.mem.mem a (bytesOf 8 v) } }
/-- A lane line of a pair whose first word is word 2, where the warp stands. -/
def pairLine (v1 v2 : DWord) : State :=
  (poke 0x5000 (12 * 2 ^ 60 + clsCode .lane * 2 ^ 58 + 3 * 2 ^ 54 + 2 ^ 47) (poke 0x5010 v1.toNat (poke 0x5018 v2.toNat (State.reset.placeWord 0)))).updWarp w0
    fun x => { x with slices := x.slices.map fun y => { y with pc := 0x5010 } }
def badWords : List (DWord × Cause) := [(0xAA00000000000000, .engine), (0x1014141500000001, .illegal), (0x0A00000000000000, .illegal)]
def fmulWord : Instr := .fmul m0 o3
def iaddWord : Instr := .iadd ⟨20, 5, 6, always, .none, .none, .none⟩
def strayB (v : DWord) (x : Cause) : Bool :=
  let s := poke 0x5008 v.toNat (State.reset.placeWord 0)
  let s1 := entering s
  fetchesB s w0 v && decide (early .lane v = some x) && (s1.nextWaits w0).isNone && !s1.claimWaits w0 &&
  (match s1.ctx w0 always with | some c => !c.first && decide (c.cls = .lane) | none => false) &&
  match decode v with | .ok _ => !acceptsOp .lane (opcodeOf v) | .error _ => true
theorem stray_words_are_fetched : strayB 0xAA00000000000000 .engine = true ∧ strayB 0x1014141500000001 .illegal = true ∧ strayB 0x0A00000000000000 .illegal = true := by
  decide +kernel
theorem words_are_fetched :
    fetchesB (State.reset.placeWord (encode iaddWord)) w0 (encode iaddWord) = true ∧
    (let c := ctx (entering (State.reset.placeWord (encode iaddWord))); !(c.first && c.cls == .lane) && acceptsOp c.cls 0x10) = true ∧
    fetchesB (pairLine (encode fmulWord) (encode iaddWord)) w0 (encode fmulWord) = true := by decide +kernel
theorem a_pair_is_fetched : let c := ctx (entering (pairLine (encode fmulWord) (encode iaddWord))); c.first = true ∧ c.cls = .lane := by decide +kernel

/-- FailedChecksTrap: step 2 of 04 Table 14 (a matrix word in a lane clause), 3 (an s register beyond s63 in a front clause), 5, 6 and 7. -/
def firstFailed (s : State) (op : Nat) (i : Instr) : Option (Cause × Nat) := (failedChecks s (ctx s) i op).head?
def narrow (s : State) : State := s.updWarp w0 fun x => { x with frame := 16 }
def unpaid (s : State) : State := { s.updWarp w0 (fun x => { x with paid := false }) with die0 := { s.die0 with tokCap := 2 } }
def armed (v : DWord) (s : State) : State := s.updBlock 0 0 fun b => { b with dealt := { b.dealt with vec := v } }
theorem failing_checks :
    firstFailed (at_ (.nop always)) 0xAA .mend = some (.engine, 0) ∧
    firstFailed (front (.iadd o3)) 0x10 (.iadd { o3 with d := 64 }) = some (.illegal, 0) ∧
    firstFailed (at_ (.iadd { o3 with b := 16 }) narrow) 0x10 (.iadd { o3 with b := 16 }) = some (.frameBound, 0) ∧
    firstFailed (at_ .eretReplay) 0xB3 .eretReplay = some (.privDeny, 0) ∧
    firstFailed (at_ (.fdiv m64 o3) unpaid) 0x3A (.fdiv m64 o3) = some (.tokenCap, 6) := by decide +kernel
def privilegedWords : List (Instr × Guard) := [(.eretReplay, noGuard), (.eretResume, noGuard), (.tlbinv 4 always .pkg 5, always), (.tlbinvAsid always .core 0, always),
  (.tlbinvAll always .die, always), (.probe 8 4 always, always), (.probeAs 8 4 always 5, always), (.wsave 4 always 63, always), (.wsaveFrame 4 always 1, always),
  (.wload 4 always 1, always), (.wloadFrame 4 always 1, always)]
theorem privileged_words_outside_handler : (privilegedWords.all fun e =>
    let s := at_ e.1
    decide (s.ctx s.cur e.2 = some (ctx s e.2) ∧ (ctx s e.2).cls = .lane ∧ s.nextWaits s.cur = none ∧ s.claimWaits s.cur = false ∧
      s.atHandler (ctx s e.2).who = false ∧ e.1.legalIn .lane = true ∧ ((s.warp w0).map fun w => (e.1.use .lane).beyond w.frame) = some false)) = true := by
  decide +kernel

/-- FailedChecksTrap, of a pair: steps 1 to 3 of the first word and of the second; words of one pipe; words that may pair, beyond the frame, too
dear, unpaid, and paid with the first word complete. -/
theorem named_mem_of {l : List RegUse} {r : Nat} (h : Named l r) : r ∈ regKeys l := by
  obtain ⟨h0, e, he, h1, h2⟩ := h
  simp only [regKeys, List.mem_filter, List.mem_flatMap, span, List.mem_map, List.mem_range, bne_iff_ne]
  exact ⟨⟨e, he, r - e.r, by omega, by omega⟩, h0⟩
theorem namedP_mem_of {l : List (Nat × Nat)} {r : Nat} (h : NamedP l r) : r ∈ predKeys l := by
  obtain ⟨h0, e, he, h1, h2⟩ := h
  simp only [predKeys, List.mem_filter, List.mem_flatMap, span, List.mem_map, List.mem_range, bne_iff_ne]
  exact ⟨⟨e, he, r - e.1, by omega, by omega⟩, h0⟩
theorem apart_of {a b : List Nat} (h : (a.all fun r => !b.contains r) = true) {r : Nat} (h1 : r ∈ a) : r ∉ b := by
  have := List.all_eq_true.mp h r h1
  intro h2
  rw [List.contains_iff_mem.mpr h2] at this
  cases this
theorem mayPair_of {v1 v2 : DWord} {i1 i2 : Instr} 
    (h1 : (0x30 ≤ opcodeOf v1 ∧ opcodeOf v1 ≤ 0x3A ∧ 0x10 ≤ opcodeOf v2 ∧ opcodeOf v2 ≤ 0x2F) ∨
      (0x10 ≤ opcodeOf v1 ∧ opcodeOf v1 ≤ 0x2F ∧ 0x30 ≤ opcodeOf v2 ∧ opcodeOf v2 ≤ 0x3A))
    (h2 : (decide (0x30 ≤ opcodeOf v1) && fld 6 2 v1 == 1) = false) (h5 : (decide (0x30 ≤ opcodeOf v2) && fld 6 2 v2 == 1) = false)
    (h3 : ((regKeys (i1.use .lane).dst).all fun r => !(regKeys ((i2.use .lane).src ++ (i2.use .lane).dst)).contains r) = true)
    (h4 : ((predKeys (i1.use .lane).pdst).all fun r => !(predKeys ((i2.use .lane).psrc ++ (i2.use .lane).pdst)).contains r) = true) :
    MayPair v1 v2 i1 i2 :=
  ⟨h1, by rintro v hv h6 h7; rcases List.mem_pair.mp hv with rfl | rfl <;> simp_all, fun _ a b => apart_of h3 (named_mem_of a) (named_mem_of b),
    fun _ a b => apart_of h4 (namedP_mem_of a) (namedP_mem_of b)⟩
theorem a_pair : MayPair (encode fmulWord) (encode iaddWord) fmulWord iaddWord :=
  mayPair_of (by decide +kernel) (by decide +kernel) (by decide +kernel) (by decide +kernel) (by decide +kernel)
theorem no_pair : ¬MayPair (encode iaddWord) (encode iaddWord) iaddWord iaddWord := fun h => absurd h.pipes (by decide +kernel)
def pairState (f : State → State := id) : State := at_ fmulWord fun s => f (poke 0x5000 0 (s.updWarp w0 fun x => { x with
  paid := true, clause := x.clause.map fun k => { k with hdr := k.hdr + 2 ^ 54 } }))
def beyondB (i : Instr) (s : State) : Option Bool := (s.warp w0).map fun w => (i.use .lane).beyond w.frame
theorem pairs_stand :
    ([pairState, pairState narrow, pairState unpaid].all fun s => (s.warp (ctx s).who).isSome && decide ((ctx s).cls = .lane) && (s.nextWaits (ctx s).who).isNone &&
      !s.claimWaits (ctx s).who) = true ∧
    (badWords.all fun e => decide (early .lane e.1 = some e.2)) = true ∧ early .lane (encode fmulWord) = none ∧ early .lane (encode iaddWord) = none ∧
    (beyondB (.fmul m0 { o3 with b := 16 }) (pairState narrow) = some true ∧ beyondB fmulWord (pairState narrow) = some false ∧
      beyondB (.iadd { o3 with d := 32, a := 5, b := 6 }) (pairState narrow) = some true) ∧
    (let s := pairState unpaid
     (s.warp w0).map (·.paid) = some false ∧ priceOf (.fdiv m0 o3) + priceOf iaddWord ≤ s.cap 0 ∧ s.cap 0 < 3 ∧ 0 < priceOf fmulWord + priceOf iaddWord ∧
      ({ s with die0 := { s.die0 with tokCap := 0 } } : State).cap 0 < priceOf fmulWord + priceOf iaddWord) ∧
    (let s := pairState
     (s.warp w0).map (·.paid) = some true ∧ (match exec fmulWord (s.updWarp w0 fun x => { x with paid := true }) with
       | .next t => t.runnable w0 && (t.pcOf w0 == (ctx s).pc + 8) && (t.clauseOf w0).isSome
       | _ => false) = true) ∧
    (match exec fmulWord ((at_ fmulWord).updWarp w0 fun x => { x with paid := true }) with | .next t => (t.clauseOf w0).isNone | _ => false) = true := by
  decide +kernel

/-- GuardSelectsLanes: a guard that no lane, and one that the lanes 0 and 31 alone, satisfy. -/
theorem guards :
    let s := at_ (.iadd { o3 with g := ⟨0, true⟩ })
    let t := at_ (.iadd { o3 with g := ⟨127, false⟩ }) (preds [(127, 0), (127, 31)])
    (s.ctx s.cur ⟨0, true⟩ = some (ctx s ⟨0, true⟩) ∧ (ctx s ⟨0, true⟩).exec = 0 ∧ s.nextWaits s.cur = none ∧ s.claimWaits s.cur = false ∧
      s.issueTrap (ctx s ⟨0, true⟩) (.iadd { o3 with g := ⟨0, true⟩ }) 0x10 0 = none ∧ (ctx s ⟨0, true⟩).second = false) ∧
    (t.ctx t.cur ⟨127, false⟩ = some (ctx t ⟨127, false⟩) ∧ (ctx t ⟨127, false⟩).cls ≠ .matrix ∧ (ctx t ⟨127, false⟩).exec = 0x80000001) := by decide +kernel

/-- WideRequestIsCharged: a word that is paid, one that is not, and requests that an account covers exactly, and by one token too little. -/
theorem payments :
    let i : Instr := .fmul m0 o3
    let s := at_ i
    let u := at_ i unpaid
    let q : Wide := ⟨w0, 4096, 0, 0⟩
    let r := (u.updCore 0 fun k => { k with tokens := { k.tokens with wide := [q] } }).setCluster 0 { Cluster.init with open_ := 1 }
    (ctx s).cls = .lane ∧ priceOf i = 1 ∧ ((s.warp w0).map (·.paid)) = some true ∧ ((u.warp w0).map (·.paid)) = some false ∧
    ((u.core 0).tokens.wide.Pairwise fun a b => a.age ≤ b.age) ∧ (r.core 0).tokens.hold = none ∧ r.payerFree 0 q.who.party = true ∧
    (r.core 0).tokens.balance 0 = q.price ∧ (r.core 0).tokens.balance 0 < ({ q with price := 4097 } : Wide).price := by decide +kernel

/-- OperandsReadRegisters. -/
theorem no_result_in_flight : let s := at_ (.iadd o3); (s.flight (ctx s).who).results = [] ∧ partyCls (ctx s).who.party = .lane := by decide +kernel

/-- HardwareTrapEntersHandler: a block with a trap vector. HostAssistedTrapParks: one without, and front ends and streams. -/
theorem trapping_parties :
    let i : Instr := .trap always 0x51
    let a : TrapArgs := TrapArgs.of .swTrap 0 0x51 1
    let s := at_ i (armed 0x9000)
    let u := at_ i
    ((s.blockOf w0).map fun b => s.hostAssisted b.dealt.region b.dealt.vec a) = some false ∧ ((s.warp w0).map (·.handler)) = some none ∧
    ((u.blockOf w0).map fun b => u.hostAssisted b.dealt.region b.dealt.vec a) = some true ∧
    (u.blockOf ⟨0, .front 0⟩).isSome = true ∧ (u.blockOf ⟨0, .matrix 0⟩).isSome = true := by decide +kernel

/-- SoftwareTraps, and WordsGoOn of a NOP before the last word of its clause and in it. -/
def twoWords (s : State) : State := s.updWarp w0 fun x => { x with clause := x.clause.map fun k => { k with hdr := k.hdr + 2 ^ 54 } }
theorem control_words_stand : Stands at_ [(0x00, .nop always), (0x06, .yield always), (0x08, .trap always 0x51), (0x09, .bkpt always 7)] := stands_of (by decide +kernel)
theorem last_word_and_other :
    let s := at_ (.nop always)
    let u := at_ (.nop always) twoWords
    Issues s (.nop always) 0 always (ctx s) ∧ (ctx s).last = true ∧ Issues u (.nop always) 0 always (ctx u) ∧ (ctx u).last = false ∧
    ((s.clauseOf w0).map fun k => hdrCount k.hdr) = some ((ctx s).pc.toNat % 128 / 8) ∧
    ((u.clauseOf w0).map fun k => decide ((ctx u).pc.toNat % 128 / 8 < hdrCount k.hdr)) = some true :=
  ⟨issues_of (by decide +kernel), by decide +kernel, issues_of (by decide +kernel), by decide +kernel, by decide +kernel, by decide +kernel⟩

/-- EretRestoresTrappedGang: handler level entered by a trap of slice 0, whose slices the handler's save keeps. -/
def inHandler (s : State) : State := s.updWarp w0 fun x => { x with
  handler := some ⟨x.slices, 0xFF, none, ⟨.swTrap, 0, 0x5008, 0x5010, none, none⟩⟩ }
theorem eret_stands :
    let s := at_ .eretReplay inHandler
    let u := at_ .eretResume inHandler
    Ready s .eretReplay 0xB3 noGuard (ctx s) ∧ Ready u .eretResume 0xB3 noGuard (ctx u) ∧
    ((s.warp w0).bind fun x => x.handler.map fun h => decide (h.info.log = none ∧ h.slices.length = x.slices.length)) = some true :=
  ⟨ready_of (by decide +kernel), ready_of (by decide +kernel), by decide +kernel⟩

/-- TrapModeFollowsFmode holds for every vector; the two ends of its first condition. -/
theorem trap_modes : State.reset.hostAssisted 0 0 (TrapArgs.of .illegal 0 0 1) = true ∧ State.reset.hostAssisted 0 0x9000 (TrapArgs.of .illegal 0 0 1) = false := by
  decide +kernel
/-- FaultQueueTakesRecords: room for one record, none, and no queue at all. -/
theorem fault_queue_states :
    let s : State := { State.reset with regs := { State.reset.regs with fqbase := 0x10000, fqsize := 4, fqhead := 0, fqtail := 15 } }
    let u : State := { s with regs := { s.regs with fqtail := 16 } }
    s.die0.dead = false ∧ s.regs.fqbase.toNat % 64 = 0 ∧ s.regs.fqbase ≠ 0 ∧ (s.regs.fqtail - s.regs.fqhead).toNat = 15 ∧
    (u.regs.fqtail - u.regs.fqhead).toNat = 16 ∧ State.reset.regs.fqbase = 0 := by decide +kernel

/-- RoundingRules: 5 ÷ 2 is a tie; 448 is the largest E4M3 value. -/
theorem rounding_cases : roundInt .rne false 0 5 2 = 2 ∧ roundInt .rna false 0 5 2 = 3 ∧ roundInt .rup true 0 5 2 = 2 ∧
    roundInt .sr false 0x8000 5 2 = 3 ∧ roundInt .sr false 0x7FFF 5 2 = 2 ∧ fE4M3.maxBits = 0x7E ∧ fE4M3.read 0x7E = .fin false 448 1 := by decide +kernel
/-- StatisticsWindow: a window that has just passed, and one that has not. -/
theorem statistics_windows : (⟨3, some 0, true⟩ : Stat).event 100 1 100 = (⟨1, some 100, true⟩, true) ∧
    (⟨3, some 0, false⟩ : Stat).event 99 4 100 = (⟨4, some 0, true⟩, true) := by decide +kernel

/-- BranchesCallsReturns: calls from depth 63 and from 64, returns at 1 and at 0, and a slice that diverges. -/
def deep (n : Nat) (s : State) : State := s.updWarp w0 fun x => { x with slices := x.slices.map fun e => { e with depth := n } }
theorem branch_words_stand : Stands at_ [(0x01, .bra always 2), (0x02, .brx 4 always)] ∧ Stands front [(0x01, .bra always 2), (0x02, .brx 4 always)] ∧
    Stands (at_ · (deep 63)) [(0x03, .call 8 always 2), (0x04, .callx 8 4 always)] ∧ Stands (at_ · (deep 64)) [(0x03, .call 8 always 2)] ∧
    Stands (at_ · (deep 1)) [(0x05, .ret 4 always)] ∧ Stands at_ [(0x05, .ret 4 always)] :=
  ⟨stands_of (by decide +kernel), stands_of (by decide +kernel), stands_of (by decide +kernel), stands_of (by decide +kernel),
    stands_of (by decide +kernel), stands_of (by decide +kernel)⟩
theorem call_depths :
    let d (i : Instr) (f : State → State) : Nat := (pd (at_ i f) i).depthOf (ctx (at_ i f)) 0
    d (.call 8 always 2) (deep 63) = 63 ∧ d (.call 8 always 2) (deep 64) = 64 ∧ d (.ret 4 always) (deep 1) = 1 ∧ d (.ret 4 always) id = 0 := by decide +kernel
theorem a_slice_diverges : let x : Slice := ⟨0x5008, 0, 0xF, [], none⟩
    x.mask ≠ 0 ∧ (x.branch fun b => if b < 2 then (0x5010, 0) else (0x5018, 0)).stack.length = 1 := by decide +kernel

/-- ExitEndsLanes: of some lanes, of the last ones, and of a front end. -/
theorem exits_stand :
    let g : Guard := ⟨1, false⟩
    let s := at_ (.exit g) (preds [(1, 0), (1, 31)])
    let u := at_ (.exit always)
    let f := front (.exit always) fun s => s.updMatrix 0 0 fun m => { m with running := false }
    let empty (s : State) (w : Who) : Prop := s.handled w = none ∧ s.logOf w = [] ∧ (s.flight w).sb = [] ∧ (s.flight w).results = [] ∧
      (s.flight w).sq.lost = [] ∧ s.storesHome w = true
    (Issues s (.exit g) 0x07 g (ctx s g) ∧ ((s.warp w0).map fun x => decide (x.alive &&& ~~~(ctx s g).exec ≠ 0)) = some true) ∧
    (Issues u (.exit always) 0x07 always (ctx u) ∧ ((u.warp w0).map fun x => decide (x.alive &&& ~~~(ctx u).exec = 0)) = some true ∧ empty u w0) ∧
    (Issues f (.exit always) 0x07 always (ctx f) ∧ empty f ⟨0, .front 0⟩ ∧ ((ctx f).blk.matrix.map (·.running)).getD false = false ∧ (f.core 0).cmds = []) :=
  ⟨⟨issues_of (by decide +kernel), by decide +kernel⟩, ⟨issues_of (by decide +kernel), by decide +kernel, by decide +kernel⟩,
    issues_of (by decide +kernel), by decide +kernel, by decide +kernel, by decide +kernel⟩

theorem lanes_of {m : BitVec 32} {B : Nat → Bool} {P : Nat → Prop} (hB : ∀ l, B l = true → P l)
    (h : ((List.range 32).all fun l => !m.getLsbD l || B l) = true) : ∀ l, m.getLsbD l = true → P l := by
  intro l hl
  have hlt : l < 32 := by
    by_contra hn
    rw [BitVec.getLsbD_of_ge _ _ (by omega)] at hl
    cases hl
  have := List.all_eq_true.mp h l (List.mem_range.mpr hlt)
  simp only [hl, Bool.not_true, Bool.false_or] at this
  exact hB l this
def unheldB (p : State) (w : Who) (sb : Nat) : Bool := (p.owed w).isEmpty && !(p.freeLogs w.core).isEmpty && !p.sbFull w sb
theorem unheld_of {p : State} {w : Who} {sb : Nat} (h : unheldB p w sb = true) : Unheld p w sb := by
  simp only [unheldB, Bool.and_eq_true, List.isEmpty_iff, Bool.not_eq_true', List.isEmpty_eq_false_iff] at h
  exact ⟨h.1.1, h.1.2, h.2⟩
def settledB (p : State) (w : Who) (sc : Scope) : Bool :=
  (p.owed w).isEmpty && decide ((p.flight w).sq = ⟨[], []⟩) && (!scopePkg sc || p.linkQuiet) && (sc != .sys || p.peerQuiet w)
theorem settled_of {p : State} {w : Who} {sc : Scope} (h : settledB p w sc = true) : Settled p w sc := by
  simp only [settledB, Bool.and_eq_true, List.isEmpty_iff, decide_eq_true_eq] at h
  refine ⟨h.1.1.1, h.1.1.2, fun h1 => by simpa [h1] using h.1.2, fun h1 => ?_⟩
  subst h1
  simpa using h.2
def releaseB (p : State) (c : Ctx) (o : Order) (sc : Scope) : Bool := !(p.flight c.who).begun c.pc && (!isRel o ||
  ((p.flight c.who).sq.lost.isEmpty && (!scopePkg sc || ((p.flight c.who).sq.ents.isEmpty && p.linkQuiet)) && (sc != .sys || p.peerQuiet c.who)))
theorem release_of {p : State} {c : Ctx} {o : Order} {sc : Scope} (h : releaseB p c o sc = true) : ReleaseFree p c o sc := by
  simp only [releaseB, Bool.and_eq_true, Bool.not_eq_true'] at h
  refine ⟨h.1, fun h1 => ?_⟩
  simp only [h1, Bool.not_true, Bool.false_or, Bool.and_eq_true, List.isEmpty_iff] at h
  refine ⟨h.2.1.1, fun h2 => ?_, fun h2 => ?_⟩
  · simpa [h2, List.isEmpty_iff] using h.2.1.2
  · subst h2
    simpa using h.2.2
def plainB (p : State) (w : Who) (a n : Nat) : Bool := !p.heldAt (dieOf w.core) a n && (span a n).all fun k => !Tbl.get false p.mem.disc (k / 32) &&
  (Tbl.get none (p.core w.core).l1.old k).isNone && (Tbl.get [] p.mem.path k).isEmpty
theorem plain_of {p : State} {w : Who} {a n : Nat} (h : plainB p w a n = true) : Plain p w a n := by
  simp only [plainB, Bool.and_eq_true, Bool.not_eq_true'] at h
  refine ⟨h.1, fun k h1 h2 => ?_⟩
  have := List.all_eq_true.mp h.2 k (by
    simp only [span, List.mem_map, List.mem_range]
    exact ⟨k - a, by omega, by omega⟩)
  simp only [Bool.and_eq_true, Bool.not_eq_true', Option.isNone_iff_eq_none, List.isEmpty_iff] at this
  exact ⟨this.1.1, this.1.2, this.2⟩
def isLeaf (r : Except AccFault Leaf) (l : Leaf) : Bool := match r with | .ok m => m == l | .error _ => false
theorem isLeaf_of {r : Except AccFault Leaf} {l : Leaf} (h : isLeaf r l = true) : r = .ok l := by
  unfold isLeaf at h
  split at h
  · simpa using h
  · cases h
def reachesB (p : State) (c : Ctx) (kind : Access) (n : Nat) (va : DWord) (l : Leaf) : Bool :=
  decide (va.toNat % n = 0) && isLeaf (p.access c.who.core c.blk.dealt.asid (some c.who) kind true (p.atHandler c.who) va) l &&
  (p.locked c.who.core false c.blk.dealt.asid (kind != .load) va.toNat n).isNone && (l.q || !(p.die l.home).dead) &&
  (decide (kind = .store) || ((p.readBad (dieOf c.who.core) false l n).isNone && ((p.core c.who.core).l1.badAt l.phys n).isNone))
theorem reaches_of {p : State} {c : Ctx} {kind : Access} {n : Nat} {va : DWord} {l : Leaf} (h : reachesB p c kind n va l = true) :
    Reaches p c kind n va l := by
  simp only [reachesB, Bool.and_eq_true, decide_eq_true_eq, Option.isNone_iff_eq_none, Bool.or_eq_true, Bool.not_eq_true'] at h
  obtain ⟨⟨⟨⟨h1, h2⟩, h3⟩, h4⟩, h5⟩ := h
  exact ⟨h1, isLeaf_of h2, h3, fun hq => by simpa [hq] using h4, h5⟩
/-- The leaf that an access reaches. -/
def leafAt (p : State) (c : Ctx) (kind : Access) (va : DWord) : Leaf :=
  match p.access c.who.core c.blk.dealt.asid (some c.who) kind true (p.atHandler c.who) va with | .ok l => l | .error _ => ⟨0, 0, 0, 0, 0, 0⟩
/-- Lane l addresses 0x6000 + 16 l, with x8 as data. -/
def addressed (s : State) : State := regs [(4, fun l => 0x6000 + 16 * l), (8, fun l => l + 1), (12, all 3), (20, fun l => 16 * l)] s
/-- The same in lanes 0 and 1 alone. -/
def few (s : State) : State := lanes 2 (addressed s)
/-- Scratch of 1,024 bytes. -/
def scratched (s : State) : State := s.updBlock 0 0 fun b => { b with scratch := { b.scratch with size := 1024 } }
/-- An entry of the queue that holds lane 1's bytes. -/
def queued : StoreEnt := ⟨false, 0x6010, 0x6010, [1, 2, 3, 4], none, 0, false, 0, false, false, false, 0, none, false, false, 1⟩
def storing (l : List StoreEnt) (s : State) : State := s.updFlight w0 fun f => { f with sq := ⟨l, []⟩ }

/-- LoadsDeliverBytes: LD of bytes of L2, of the queue (lane 1), and a bypass access of the other die's page. -/
def loads (i : Instr) (o : MemF) (s : State) : Prop :=
  let p := pd s i
  let c := ctx s
  let leaf (l : Nat) : Leaf := leafAt p c .load (memAddr p c o l)
  Issues s i 0x60 always c ∧ Unheld p c.who o.sb.toNat ∧ (p.flight c.who).begun c.pc = false ∧ p.migrated c.who = false ∧
  ∀ l, c.exec.getLsbD l = true → Reaches p c .load o.size.bytes (memAddr p c o l) (leaf l) ∧ Plain p c.who (leaf l).phys o.size.bytes ∧
    (forward (p.flight c.who).sq.ents false (leaf l).phys o.size.bytes ≠ .part ∧ p.loadHeld c.who (leaf l).phys o.size.bytes = false ∧
      p.efPending (dieOf c.who.core) (leaf l).phys o.size.bytes = false)
theorem ld_stands : loads (.ld mem) mem (at_ (.ld mem) few) :=
  ⟨issues_of (by decide +kernel), unheld_of (by decide +kernel), by decide +kernel, by decide +kernel,
    lanes_of (B := fun l => let s := at_ (.ld mem) few; let p := pd s (.ld mem); let c := ctx s
      let x := leafAt p c .load (memAddr p c mem l)
      reachesB p c .load 4 (memAddr p c mem l) x && plainB p c.who x.phys 4 && decide (forward (p.flight c.who).sq.ents false x.phys 4 ≠ .part ∧
        p.loadHeld c.who x.phys 4 = false ∧ p.efPending (dieOf c.who.core) x.phys 4 = false))
      (fun l h => by
        simp only [Bool.and_eq_true, decide_eq_true_eq] at h
        exact ⟨reaches_of h.1.1, plain_of h.1.2, h.2⟩) (by decide +kernel)⟩

/-- Each executing lane passes a check. -/
def lanesAll (c : Ctx) (f : Nat → Bool) : Bool := (List.range 32).all fun l => !c.exec.getLsbD l || f l
def soundAt (p : State) (c : Ctx) (kind : Access) (n : Nat) (va : DWord) : Bool :=
  let x := leafAt p c kind va
  reachesB p c kind n va x && plainB p c.who x.phys n && !p.efPending (dieOf c.who.core) x.phys n && !p.loadHeld c.who x.phys n
def ldB (o : MemF) (s : State) : Bool :=
  let p := pd s (.ld o)
  let c := ctx s
  issuesB s (.ld o) 0x60 always && unheldB p c.who o.sb.toNat && !(p.flight c.who).begun c.pc && !p.migrated c.who &&
  lanesAll c fun l => soundAt p c .load o.size.bytes (memAddr p c o l) &&
    decide (forward (p.flight c.who).sq.ents false (leafAt p c .load (memAddr p c o l)).phys o.size.bytes ≠ .part)
/-- The first GiB has its home on die 1. -/
def remote (s : State) : State := { s with mem := { s.mem with tlb := [], mem := Tbl.set 0 s.mem.mem 0x4001 1 } }

/-- LoadsDeliverBytes: LD from L2, from the queue (lane 1), by `.byp` from the other die's home, and with a scoreboard; LDS; LDC. -/
theorem loads_stand :
    ldB { mem with sb := 6 } (at_ (.ld { mem with sb := 6 }) few) = true ∧
    (let s := at_ (.ld mem) fun s => storing [queued] (few s)
     ldB mem s = true ∧ forward (s.flight w0).sq.ents false 0x6010 4 = .hit [1, 2, 3, 4]) ∧
    (let o := { mem with pol := .byp, size := .b64 }
     ldB o (at_ (.ld o) fun s => few (remote s)) = true ∧ (leafAt (at_ (.ld o) remote) (ctx (at_ (.ld o))) .load 0x6000).home = 1) := by decide +kernel
def scratchB (s : State) (i : Instr) (n : Nat) (off : Nat → Nat) : Bool :=
  let p := pd s i
  let c := ctx s
  !p.migrated c.who && lanesAll c fun l => decide (off l % n = 0) && decide (off l + n ≤ c.blk.scratch.size) &&
    (p.locked (p.bcore c) true (p.bslot c) true (off l) n).isNone && (c.blk.scratch.badAt (off l) n).isNone && (span (off l) n).all fun k => (Tbl.get [] c.blk.scratch.path k).isEmpty
theorem lds_and_ldc_stand :
    (let o : MemF := { mem with a := 20, sb := 1 }
     let s := at_ (.lds o) fun s => scratched (few s)
     issuesB s (.lds o) 0x61 always && unheldB (pd s (.lds o)) w0 1 && !((pd s (.lds o)).flight w0).begun (ctx s).pc && scratchB s (.lds o) 4 (fun l => 16 * l)) = true ∧
    (let o : MemF := { mem with a := 20 }
     let card (s : State) : State := s.updBlock 0 0 fun b => { b with dealt := { b.dealt with card := BitVec.ofNat 1024 (0x6000 * 2 ^ 768 + 1024 * 2 ^ 832) } }
     let s := at_ (.ldc o) fun s => card (few s)
     let p := pd s (.ldc o)
     let c := ctx s
     issuesB s (.ldc o) 0x62 always && unheldB p w0 0 && !(p.flight w0).begun c.pc && lanesAll c fun l => decide (16 * l + 4 ≤ c.blk.constSize) && soundAt p c .load 4 (c.blk.constBase + BitVec.ofNat 64 (16 * l))) =
      true := by decide +kernel

/-- StoresJoinTheQueue: a relaxed ST, a release at `.pkg` that begins and one that ends, STS, RED and STMC with two replicas. -/
def stB (o : MemF) (s : State) : Bool :=
  let p := pd s (.st o)
  let c := ctx s
  issuesB s (.st o) 0x63 always && unheldB p c.who o.sb.toNat && !p.migrated c.who && decide ((p.flight c.who).sq.ents.length < 16) &&
  releaseB p c o.order o.scope && lanesAll c fun l => reachesB p c .store o.size.bytes (memAddr p c o l) (leafAt p c .store (memAddr p c o l))
def began (s : State) : State := s.updFlight w0 fun f => { f with relAt := some (s.pcOf w0) }
def endsB (i : Instr) (op sb : Nat) (s : State) : Bool :=
  let p := pd s i
  issuesB s i op always && decide ((p.flight w0).relAt = some (ctx s).pc) && unheldB p w0 0 && !p.sbFull w0 sb && (p.flight w0).sq.lost.isEmpty &&
  (p.flight w0).sq.ents.all (·.rel.isNone)
theorem stores_stand :
    stB mem (at_ (.st mem) few) = true ∧
    (let o := { mem with order := .rel, scope := .pkg, size := .b64, ga := true, sb := 6 }; stB o (at_ (.st o) few) = true) ∧
    (let o := { mem with order := .rel, scope := .pkg }; endsB (.st o) 0x63 0 (at_ (.st o) began) = true) ∧
    (let o := { mem with order := .rel, scope := .sys }; endsB (.stmc o) 0x68 0 (at_ (.stmc o) began) = true) ∧
    (let o := { atm with d := 0, order := .rel, scope := .pkg, sb := 2 }; endsB (.red o) 0x67 2 (at_ (.red o) began) = true) ∧
    (let o : MemF := { mem with a := 20, order := .rel }
     let s := at_ (.sts o) fun s => scratched (few s)
     (issuesB s (.sts o) 0x64 always && unheldB (pd s (.sts o)) w0 0 && releaseB (pd s (.sts o)) (ctx s) .rel .blk && scratchB s (.sts o) 4 (fun l => 16 * l)) = true) ∧
    (let o : AtomF := { atm with d := 0, scope := .die }
     let s := at_ (.red o) few
     let p := pd s (.red o)
     (issuesB s (.red o) 0x67 always && unheldB p w0 0 && releaseB p (ctx s) o.order o.scope && lanesAll (ctx s) fun l =>
       reachesB p (ctx s) .rmw 4 (p.get64 (ctx s) 4 l) (leafAt p (ctx s) .rmw (p.get64 (ctx s) 4 l))) = true) := by decide +kernel
theorem stmc_stands :
    let o : MemF := { mem with ga := true, scope := .pkg }
    let card (s : State) : State := s.updBlock 0 0 fun b => { b with dealt := { b.dealt with card := BitVec.ofNat 1024 (0x7000 * 2 ^ 768 + 64 * 2 ^ 832) } }
    let table (s : State) : State := { s with mem := { s.mem with mem := Tbl.setList 0 s.mem.mem 0x7000 (bytesOf 8 2 ++ bytesOf 8 0x10000) } }
    let s := at_ (.stmc o) fun s => table (card (few s))
    let p := pd s (.stmc o)
    let c := ctx s
    let x := leafAt p c .load 0x7000
    issuesB s (.stmc o) 0x68 always = true ∧ unheldB p w0 0 = true ∧ p.migrated c.who = false ∧ releaseB p c o.order o.scope = true ∧ c.blk.constSize = 64 ∧
    isLeaf (p.access 0 c.blk.dealt.asid (some c.who) .load true (p.atHandler c.who) (c.blk.constBase + 0)) x = true ∧ p.readBad 0 false x 64 = none ∧
    replicas (p.constBytes w0 x 64) = some [0, 0x10000] ∧
    lanesAll c (fun l => [0, 0x10000#64].all fun d => reachesB p c .store 4 (memAddr p c o l + d) (leafAt p c .store (memAddr p c o l + d))) = true := by decide +kernel

/-- AtomicOperations at one lane, and AtomicsComplete: ATOM, a float-add RED, and ATOMS. -/
theorem atomics_stand :
    (let s := at_ (.nop always) few
     plainB s w0 0x6000 8 = true ∧ s.efPending 0 0x6000 8 = false) ∧
    (let o : AtomF := { atm with order := .acqRel, scope := .pkg, sb := 1 }
     let s := at_ (.atom o) few
     let p := pd s (.atom o)
     (issuesB s (.atom o) 0x65 always && unheldB p w0 1 && (p.flight w0).sq.ents.isEmpty && releaseB p (ctx s) o.order o.scope && p.regions.isEmpty &&
       lanesAll (ctx s) fun l => soundAt p (ctx s) .rmw 4 (p.get64 (ctx s) 4 l)) = true) ∧
    (let o : AtomF := { atm with d := 0, op := .faddF32, scope := .die }
     let s := at_ (.red o) few
     let p := pd s (.red o)
     (issuesB s (.red o) 0x67 always && unheldB p w0 0 && (p.flight w0).sq.ents.isEmpty && releaseB p (ctx s) o.order o.scope && p.regions.isEmpty &&
       lanesAll (ctx s) fun l => soundAt p (ctx s) .rmw 4 (p.get64 (ctx s) 4 l)) = true) ∧
    (let o : AtomF := { atm with a := 20, op := .cas, c := 16 }
     let s := at_ (.atoms o) fun s => scratched (few s)
     let p := pd s (.atoms o)
     (issuesB s (.atoms o) 0x66 always && unheldB p w0 0 && (p.flight w0).sq.ents.isEmpty && releaseB p (ctx s) o.order .blk && p.regions.isEmpty &&
       scratchB s (.atoms o) 4 (fun l => 16 * l)) = true) := by decide +kernel
/-- The events of those three can take no action where no region has a statistics table. -/
theorem atomics_count_no_action (i : Instr) (h : i = .atom { atm with sb := 1 } ∨ i = .red { atm with d := 0, op := .faddF32 } ∨ i = .atoms { atm with a := 20 }) :
    NoStat (pd (at_ i blankRegions) i) := by
  rcases h with rfl | rfl | rfl <;> exact noStat_of (by decide +kernel) (by decide +kernel)

/-- RangeWords: PREF; DISC of a sector in each lane; CLAIM of length 0, and of the one page, of 1 GiB, that maps the range. -/
def quietB (p : State) : Bool := decide ((p.flight w0).sq = ⟨[], []⟩) && (p.flight w0).results.isEmpty && p.storesHome w0
theorem range_words_stand :
    issuesB (at_ (.pref 4 always 0x3FFFF .byp) few) (.pref 4 always 0x3FFFF .byp) 0x69 always = true ∧
    (let i : Instr := .disc 8 4 always
     let s := at_ i fun s => lanes 2 (regs [(4, fun l => 0x6000 + 32 * l), (8, all 32)] s)
     let p := pd s i
     (issuesB s i 0x6A always && unheldB p w0 0 && !(p.flight w0).begun (ctx s).pc && quietB p && lanesAll (ctx s) fun l =>
       let va := p.get64 (ctx s) 4 l
       let ps := p.pieces (p.capture (ctx s) i []) 0 .store 3 va 32
       decide (va.toNat % 32 = 0 ∧ (p.get (ctx s) 8 l).toNat = 32) && (pieceFaults l ps).isEmpty && (p.locked 0 false 0 true va.toNat 32).isNone &&
       (goodPieces ps).all fun q => !p.efPending 0 q.2.2.phys q.2.1) = true) ∧
    (let i : Instr := .claim 8 4 always 0
     let s := at_ i few
     (issuesB s i 0x6D always && unheldB (pd s i) w0 0 && !(pd s i).effFmode 285 0 && ((pd s i).get (ctx s) 9 0 == 0)) = true) ∧
    (let i : Instr := .claim 8 4 always 6
     let s := at_ i fun s => regs [(4, all 0), (8, all (2 ^ 30))] s
     let p := pd s i
     let op := p.capture (ctx s) i []
     (issuesB s i 0x6D always && unheldB p w0 6 && !p.effFmode 285 0 && (p.get64 (ctx s) 4 0 == 0) && (p.get (ctx s) 8 0 == 0x40000000) &&
       (pieceFaults 0 (p.claimPieces op 0 .load 0 0x40000000)).isEmpty && (pieceFaults 0 (p.claimPieces op 0 .store 0 0x40000000)).isEmpty &&
       ((p.rangeLeaves 0 0 0x40000000).all fun q => decide (q.1.toNat % 2 ^ 57 = q.2.2.base ∧ q.2.1 = q.2.2.size)) && quietB p) = true) := by decide +kernel

/-- FencesComplete. -/
theorem fences_stand :
    (let i : Instr := .fence .acqRel .sys true always
     let s := at_ i
     let p := pd s i
     (issuesB s i 0x6B always && !p.migrated w0 && (p.owed w0).isEmpty && decide ((p.flight w0).sq = ⟨[], []⟩) && p.linkQuiet && p.peerQuiet w0) = true) ∧
    (let i : Instr := .fence .acq .blk false always
     let s := at_ i fun s => storing [queued] s
     (issuesB s i 0x6B always && !(pd s i).migrated w0 && ((pd s i).owed w0).isEmpty) = true) ∧
    (let i : Instr := .fencep .ls .tile always
     let s := at_ i
     (issuesB s i 0x6C always && ((pd s i).flight w0).sq.ents.isEmpty && (pd s i).storesHome w0) = true) ∧
    (let i : Instr := .fencep .ewr .ls always
     issuesB (at_ i fun s => storing [queued] s) i 0x6C always = true) := by decide +kernel

/-- MigrationMovesWarps: from die 0 to itself, to a landing slot of die 1, back to the origin; and MIGR.home in both places. -/
def freeB (p : State) (w : Who) : Bool := (match p.warp w with
  | some x => x.whole && decide (x.flight.sq = ⟨[], []⟩) && x.flight.sb.isEmpty
  | none => false) && (p.owed w).isEmpty && !(p.freeLogs w.core).isEmpty && p.linkQuiet
/-- The warp stands in the landing slot of core 112, and its slot of origin marks where it is. -/
def abroad (s : State) : State :=
  let l : Who := ⟨112, .landing⟩
  match s.warp w0 with
  | some x => { (s.setWarp l (some { x with origin := some (0, 0) })).setWarp w0 (some { x with away := some 112 }) with cur := l }
  | none => s
theorem migrations_stand :
    (let i : Instr := .migr 4
     let s := at_ i addressed
     (issuesB s i 0x6E noGuard && freeB (pd s i) w0 && isLeaf ((pd s i).access 0 0 (some w0) .load true false 0x6000) (leafAt (pd s i) (ctx s) .load 0x6000) &&
       decide ((leafAt (pd s i) (ctx s) .load 0x6000).home = 0)) = true) ∧
    (let i : Instr := .migr 4
     let s := at_ i fun s => addressed (remote s)
     (issuesB s i 0x6E noGuard && freeB (pd s i) w0 && decide ((leafAt (pd s i) (ctx s) .load 0x6000).home = 1) &&
       decide ((pd s i).landingFor w0 1 (ctx s).blk.dealt.pool (frameCuts 256) = some 112)) = true) ∧
    (let i : Instr := .migr 4
     let s := at_ i fun s => abroad (addressed s)
     let p := pd s i
     (issuesB s i 0x6E noGuard && freeB p ⟨112, .landing⟩ && decide ((leafAt p (ctx s) .load 0x6000).home = 0) &&
       decide (((p.warp ⟨112, .landing⟩).map fun x => (x.originOf ⟨112, .landing⟩).1) = some 0)) = true) ∧
    (issuesB (at_ .migrHome) .migrHome 0x6E noGuard && freeB (pd (at_ .migrHome) .migrHome) w0) = true ∧
    (let s := at_ .migrHome abroad
     (issuesB s .migrHome 0x6E noGuard && freeB (pd s .migrHome) ⟨112, .landing⟩) = true) := by decide +kernel

/-- StoresLeaveTheQueue: an entry of each kind stands first in the queue, with another behind it. -/
def behind : StoreEnt := { queued with addr := 0x6200, va := 0x6200, age := 2 }
def leavesB (s : State) (e : StoreEnt) (rest : List StoreEnt) : Bool :=
  decide ((s.flight w0).sq.ents = e :: rest) && !e.lost && !e.sent && rest.all (fun x => x.age != e.age) && decide ((rest.head?).map (·.done) ≠ some true)
def with_ (e : StoreEnt) (f : State → State := id) : State := f (at_ (.nop always) (storing [e, behind]))
theorem stores_leave :
    (let s := with_ queued; s.tick.readyStores w0 = [queued, behind] ∧ leavesB s queued [behind] = true ∧ (s.die queued.home).dead = false) ∧
    (with_ queued (storing [])).tick.readyStores w0 = [] ∧
    (let e : StoreEnt := { queued with scratch := true, addr := 1020 }; leavesB (with_ e scratched) e [behind] = true ∧ ((with_ e scratched).block 0 0).isSome = true) ∧
    (let e : StoreEnt := { queued with home := 1 }; leavesB (with_ e) e [behind] = true ∧ (((with_ e).mem.guests 0).length + 4 ≤ 786432)) ∧
    (let e : StoreEnt := { queued with home := 1 }; leavesB (with_ e fun s => { s with die1 := { s.die1 with dead := true } }) e [behind] = true) ∧
    (let e : StoreEnt := { queued with ga := true, home := 1 }; leavesB (with_ e) e [behind] = true ∧ (with_ e).crosses w0 e = true) ∧
    (let e : StoreEnt := { queued with ga := true }; leavesB (with_ e) e [behind] = true ∧ (with_ e).crosses w0 e = false) ∧
    (let e : StoreEnt := { queued with ga := true, group := 5 }
     let x : StoreEnt := { behind with ga := true, group := 5 }
     let s := at_ (.nop always) (storing [e, x])
     leavesB s e [x] = true ∧ s.crosses w0 e = false ∧ x.acked = false) ∧
    (let e : StoreEnt := { queued with rmw := some (.add, 7) }; leavesB (with_ e) e [behind] = true ∧ (with_ e).efPending 0 e.addr 4 = false ∧
      plainB (with_ e) w0 e.addr 4 = true) ∧
    (let e : StoreEnt := { queued with done := true }; [e].all (·.done) = true ∧ behind.done = false ∧ behind.sent = false ∧ behind.lost = false) := by decide +kernel

/-- StoresAndResultsArrive: a message of each kind, one that is overdue and one that is not, a result, and a CLAIM before and after it holds its range. -/
def onLink (k : MsgKind) (s : State) : State := { s with mem := { s.mem with msgs := [⟨k, 0, w0, 0, 0x6010, 0x6010, [1, 2, 3, 4], 0, 1⟩] } }
def claimed : Result := ⟨1, [], .none, [], some (0, 0, 0x40000000)⟩
def landing (r : Result) (s : State) : State := s.updFlight w0 fun f => { f with results := [r] }
theorem arrivals :
    ([MsgKind.ef, .inval, .ga].all fun k => ((onLink k (at_ (.nop always))).msgReady 0).isSome) = true ∧
    (let e : StoreEnt := { queued with ga := true, sent := true, home := 1 }
     let s := onLink .ga (at_ (.nop always) (storing [e]))
     ((s.msgReady 0).bind fun m => s.gaEntry m) = some e) ∧
    (let s := onLink .ef (at_ (.nop always))
     let u : State := { s with tref := BitVec.ofNat 64 (s.effAckto 0) }
     0 < s.effAckto 0 ∧ s.tref.toNat < 0 + s.effAckto 0 ∧ 0 + u.effAckto 0 ≤ u.tref.toNat) ∧
    (let r : Result := ⟨1, [8], .none, [(32 * 8 + 31, 7)], none⟩
     let s := landing r (at_ (.nop always))
     (s.flight w0).results[0]? = some r ∧ r.vals.filter (fun e => e.1 == 32 * 8 + 31) = [(32 * 8 + 31, 7)] ∧ ((s.warp w0).map fun x => x.alive.getLsbD 31) = some true) ∧
    (let s := landing claimed (at_ (.nop always))
     let u : State := { s with mem := { s.mem with moving := [⟨w0, 0, 0, 0x40000000⟩] } }
     (s.flight w0).results[0]? = some claimed ∧ s.mem.moving = [] ∧ u.claimQuiet 0 0 0x40000000 = true ∧ (onLink .ef u).claimQuiet 0 0 0x40000000 = false) := by
  decide +kernel

/-- NamedBarriers: the last arrival of 32 lanes at BARA and BARW; the fields that Bar.arrive's conditions separate. -/
def barB (i : Instr) (op : Nat) : Bool :=
  let s := at_ i (regs [(4, all 32)])
  let p := pd s i
  let c := ctx s
  issuesB s i op noGuard && !p.migrated c.who && settledB p c.who .blk && decide (p.breg c 4 = 32) && decide (popCount c.active = 32) &&
  (match p.block (p.bcore c) (p.bslot c) with
   | some x => !((x.bar 15).arrive 32 32).2 && decide ((x.bar 15).count = 0) && !(x.bar 15).failed.contains (x.bar 15).phase
   | none => false) && (p.arrivals c).all (·.2.2.isNone)
theorem barriers_stand : barB (.bara 15 4) 0x71 = true ∧ barB (.barw 15 4) 0x70 = true := by decide +kernel
theorem barrier_arrivals : (⟨30, 32, 5, []⟩ : Bar).arrive 2 32 = (⟨0, 0, 6, []⟩, false) ∧ (⟨30, 32, 5, []⟩ : Bar).arrive 1 32 = (⟨31, 32, 5, []⟩, false) ∧
    (⟨30, 32, 5, []⟩ : Bar).arrive 3 32 = (⟨0, 0, 6, [5]⟩, true) ∧ (⟨30, 32, 5, []⟩ : Bar).arrive 2 33 = (⟨0, 0, 6, [5]⟩, true) := by decide +kernel

/-- ByteCountingBarriers: a record at 0x100 with one arrival to come, one in error, and one whose phase has passed. -/
def record (b : Bcb) (s : State) : State :=
  (regs [(4, all 0x100), (5, all 65535), (8, all 4096)] (scratched s)).setBcb 0 0 0x100 b
def fresh : Bcb := ⟨0, 0, 1, 1, false, false, false, 0, 0⟩
def bcbB (i : Instr) (op : Nat) (b : Bcb) : Bool :=
  let s := at_ i (record b)
  let p := pd s i
  let c := ctx s
  issuesB s i op noGuard && !p.migrated c.who && (p.objTrap c (p.quadReg c 4 0) 32 32).isNone && decide (p.bcb (p.bcore c) (p.bslot c) (p.quadReg c 4 0) = b) &&
  settledB p c.who .blk && decide (p.quadReg c 4 1 ≤ 65535)
theorem byte_counting_barriers_stand :
    bcbB (.bcbinit 4) 0x72 fresh = true ∧ bcbB (.bcbexp 4 8) 0x73 fresh = true ∧ bcbB (.bcbexp 4 8) 0x73 { fresh with err := true } = true ∧
    bcbB (.bcbarv 4) 0x74 fresh = true ∧ bcbB (.bcbarv 4) 0x74 { fresh with err := true } = true ∧ fresh.remn ≠ 0 ∧
    bcbB (.bcbwait 4 8) 0x75 { fresh with ph := true } = true ∧ bcbB (.bcbtry 4 8) 0x76 { fresh with ph := true } = true ∧ bcbB (.bcbtry 4 8) 0x76 fresh = true ∧
    (let s := at_ (.bcbtry 4 8) (record fresh); (pd s (.bcbtry 4 8)).breg (ctx s) 8 % 2 = 0) := by decide +kernel

/-- RingWords: ring 1 of two slots of 128 B, its first slot in each state that a word needs. -/
def ringed (r : Ring) (s : State) : State :=
  (regs [(4, all 0), (5, all 2), (6, all 128)] (scratched s)).updBlock 0 0 fun b => { b with rings := [(1, some r)] }
def ring2 (a : SlotState) (l : List Taken) : Ring := ⟨0, 128, [a, .free], l, 0, 0, [], [], none⟩
def ringB (i : Instr) (op : Nat) (r : Ring) : Bool :=
  let s := at_ i (ringed r)
  let p := pd s i
  let c := ctx s
  issuesB s i op noGuard && !p.migrated c.who && decide (p.ring (p.bcore c) (p.bslot c) 1 = some r) && r.err.isNone && settledB p c.who .blk
theorem rings_stand :
    ringB (.ringinit 1 4) 0x77 (ring2 .free []) = true ∧
    (let s := at_ (.ringinit 1 4) (ringed (ring2 .free []))
     let p := pd s (.ringinit 1 4)
     p.quadReg (ctx s) 4 0 + p.quadReg (ctx s) 4 1 * p.quadReg (ctx s) 4 2 ≤ (p.scratch 0 0).size) ∧
    ringB (.ringacqFill 1 8) 0x78 (ring2 .filled []) = true ∧ (ring2 .filled []).slots[(ring2 .filled []).drainCur]? = some .filled ∧
    ringB (.ringacqFree 1 8) 0x78 (ring2 .free []) = true ∧ (ring2 .free []).slots[(ring2 .free []).fillCur]? = some .free ∧
    ringB (.ringrelFill 1) 0x79 (ring2 .filling [⟨.warp 0, 0, true⟩]) = true ∧ ringB (.ringrelFree 1) 0x79 (ring2 .draining [⟨.warp 0, 0, false⟩]) = true ∧
    ((ctx (at_ (.ringrelFill 1))).who = w0 ∧ ((at_ (.ringrelFill 1)).holder (ctx (at_ (.ringrelFill 1)))).1 = .warp 0) := by decide +kernel

/-- CardAndQueueWords: the last arrival of a card barrier; a decision queue with room, and with an entry; ROLECHK with no flag and with one up. -/
def oneRun (s : State) : State :=
  let s := s.updBlock 0 0 fun b => { b with front := none, dealt := { b.dealt with card := BitVec.ofNat 1024 (2 ^ 452) } }
  { s with cards := [(0, some ⟨0, 0, BitVec.ofNat 1024 (2 ^ 452), 0, 0, 0, 1, [0], false, [], none, false⟩)] }
theorem card_barrier_stands :
    let i : Instr := .gbar 15 .pkg
    let s := at_ i oneRun
    let p := pd s i
    let c := ctx s
    (issuesB s i 0x7A noGuard && !p.migrated c.who && flag 452 c.blk.dealt.card && settledB p c.who .pkg && (p.arrivals c).all (·.2.2.isNone) &&
     (match p.run c.blk.dealt.run with
      | some r => !r.peerLost && (r.bar 15).scope.isNone && (r.bar 15).gone.isEmpty && (r.bar 15).failed.isEmpty &&
        (p.runBlocks c.blk.dealt.run).all fun q => ({ (r.bar 15) with arrived := Tbl.upd 0 (r.bar 15).arrived (p.gbarKey c) (· ||| c.active) } : CardBar).blockIn q.1 q.2
      | none => false)) = true := by decide +kernel
def queueOf (n : Nat) (s : State) : State := s.updBlock 0 0 fun b => { b with dq := List.replicate n 7 }
theorem decision_queue_stands :
    (let s := front (.dqpush 4 always) (queueOf 15)
     let p := pd s (.dqpush 4 always)
     (issuesB s (.dqpush 4 always) 0x90 always && settledB p (ctx s).who .blk && ((p.blockOf (ctx s).who).map (·.dq.length) == some 15)) = true) ∧
    (let s := at_ (.dqpop 8 .none always) (queueOf 1)
     let p := pd s (.dqpop 8 .none always)
     (issuesB s (.dqpop 8 .none always) 0x7B always && !p.migrated w0 && (p.owed w0).isEmpty &&
       ((p.warp w0).bind fun x => (p.blockOf w0).bind fun b => b.dq[x.dqPos - b.dqBase]?) == some 7) = true) := by decide +kernel
/-- Role 3 for every warp, each entry word at 0x5088, ring 1, one role change at most, a window of 16 ns. -/
def roles : BitVec 512 := BitVec.ofNat 512 (0x5088 + 0x5088 * 2 ^ 64 + 0x5088 * 2 ^ 128 + 0x5088 * 2 ^ 192 + (2 ^ 64 - 1) * 2 ^ 256 + 2 ^ 320 + 2 ^ 336 + 2 ^ 344 + 2 ^ 360)
def chosen (f : Option Nat) (s : State) : State :=
  ((ringed (ring2 .free []) s).updBlock 0 0 fun b => { b with roles := some ⟨roles, none, none⟩ }).updWarp w0 fun x => { x with flag := f }
def roleB (f : Option Nat) : Bool :=
  let s := at_ .rolechk (chosen f)
  let p := pd s .rolechk
  issuesB s .rolechk 0x7C noGuard && !p.migrated w0 && (match p.blockOf w0, p.warp w0 with
    | some b, some x => !b.roleBad && !rolesBroken b b.warpCount roles && decide (b.roles.map (·.table) = some roles) && decide (x.flag = f) && x.whole &&
      x.slices.all (fun y => decide (y.depth = 0) && y.stack.isEmpty) && (x.overflow (ctx s) (fun _ => some (0x5088, 0)) == 0)
    | _, _ => false)
theorem role_check_stands : roleB none = true ∧ roleB (some 0) = true := by decide +kernel

/-- PoolWords: grows to the largest frame, a grow that was granted while it waited, trims, scratch, OCWB, and a waiting grow. -/
def framed (n : Nat) (s : State) : State := s.updWarp w0 fun x => { x with frame := n }
def granted (scr : Option Bool) (s : State) : State := s.updCore 0 fun k => { k with pool := { k.pool with grows := [⟨w0, 1, 0, 0, .granted, scr, 0⟩] } }
def growB (i : Instr) (op : Nat) (f : State → State) (cuts : Nat) : Bool :=
  let s := at_ i f
  let p := pd s i
  let c := ctx s
  issuesB s i op noGuard && !p.migrated w0 && settledB p w0 .blk && ((p.warp w0).map (·.whole) == some true) && (p.growOf c).isNone &&
  (p.core 0).pool.grows.isEmpty && p.poolFits 0 c.blk.dealt.pool cuts
def grantB (i : Instr) (op : Nat) (f : State → State) : Bool :=
  let s := at_ i f
  let p := pd s i
  issuesB s i op noGuard && !p.migrated w0 && settledB p w0 .blk && ((p.warp w0).map (·.whole) == some true) && ((p.growOf (ctx s)).map (·.state) == some .granted)
theorem pool_words_stand :
    growB (.fgrow 240) 0x88 (framed 16) 30 = true ∧ grantB (.fgrow 16) 0x88 (fun s => granted none (framed 240 s)) = true ∧
    growB (.sgrow 8 1) 0x8A scratched 1 = true ∧ growB (.sgrowSwz 8 5000) 0x8A scratched 5000 = true ∧ grantB (.sgrow 8 1) 0x8A (granted (some false)) = true ∧
    grantB (.sgrowSwz 8 1) 0x8A (granted (some true)) = true ∧
    (let s := at_ (.ftrim 240)
     let p := pd s (.ftrim 240)
     (issuesB s (.ftrim 240) 0x89 noGuard && !p.migrated w0 && (p.logOf w0).isEmpty && ((p.warp w0).map fun x => x.whole && x.flight.results.isEmpty && decide (240 + 16 ≤ x.frame)) ==
       some true) = true) ∧
    (let s := at_ (.strim 1) scratched
     let p := pd s (.strim 1)
     (issuesB s (.strim 1) 0x8B noGuard && !p.migrated w0 && (p.logOf w0).isEmpty && ((p.blockOf w0).map fun b => decide (1024 * 1 ≤ b.scratch.size) && !p.trimBusy (ctx s) b 0) ==
       some true) = true) ∧
    issuesB (at_ (.ocwb always)) (.ocwb always) 0x8C always = true := by decide +kernel
def waiting (s : State) : State := s.updCore 0 fun k => { k with pool := { k.pool with grows := [⟨w0, 1, 0, 0, .waiting, some false, 0⟩] } }
theorem a_grow_waits :
    let s := waiting (at_ (.nop always) scratched)
    let u := s.tick.expireGrows 0
    let due (s : State) (bits : Nat) : State := ({ s with tref := 20 }.setRegion 0 { Region.init with rcb := some (BitVec.ofNat 512 bits) }).tick.expireGrows 0
    ((u.core 0).pool.grows.find? fun g => decide (g.state = .waiting)).isSome = true ∧ u.poolFits 0 [(0, 6144)] 1 = true ∧
    ((u.blockOf w0).map (·.dealt.pool)) = some [(0, 6144)] ∧ (u.block 0 (u.home w0).2).isSome = true ∧
    (((due s (2 ^ 13 + 20 * 2 ^ 320)).core 0).pool.grows.map (·.state)) = [.expired] ∧ (((due s (2 ^ 13 + 21 * 2 ^ 320)).core 0).pool.grows.map (·.state)) = [.waiting] ∧
    (((due s (2 ^ 10 + 2 ^ 282)).core 0).pool.grows.map (·.state)) = [.expired] := by decide +kernel

/-- EngineCommands: tile records of two rows of 64 B at 0x40, of a ring, of the other kinds, and requests that start and complete. -/
def tiled (t : Nat) (s : State) : State :=
  (regs [(4, all 0x6000), (6, all 128), (7, all 0x40)] (scratched s)).updBlock 0 0 fun b => { b with
    scratch := { b.scratch with bytes := Tbl.setList 0 (Tbl.setList 0 [] 0x40 (bytesOf 32 t)) 0x60 (bytesOf 8 (1 + 2 ^ 32 * 2)) } }
def tile2 : Nat := 64 + 2 * 2 ^ 32 + 128 * 2 ^ 64 + 64 * 2 ^ 128 + 0x60 * 2 ^ 160
def soundB (p : State) (c : Ctx) (a n : Nat) : Bool :=
  decide (a + n ≤ (p.scratch (p.bcore c) (p.bslot c)).size) && ((p.scratch (p.bcore c) (p.bslot c)).badAt a n).isNone
def bcbFits (p : State) (c : Ctx) (id : Nat) : Bool := decide (128 * id + 32 ≤ (p.scratch (p.bcore c) (p.bslot c)).size)
def tileB (i : Instr) (op : Nat) (o : CmdF) (cpy : Bool) (f : State → State) : Bool :=
  let s := at_ i fun s => f (tiled tile2 s)
  let p := pd s i
  let c := ctx s
  let t : BitVec 256 := BitVec.ofNat 256 (p.recordAt c 0x40 32).2
  let stride := if cpy then fld 128 32 t else 64
  issuesB s i op noGuard && decide (p.quadReg c o.a 3 = 0x40) && decide (t = BitVec.ofNat 256 tile2) && soundB p c 0x40 32 && !p.migrated c.who &&
  (p.core 0).locks.isEmpty && soundB p c 0x60 8 &&
  (if o.ring then match p.ring 0 0 o.id.toNat with | some r => r.err.isNone && decide (2 * stride + p.quadReg c o.a 2 ≤ r.size) | none => false
   else bcbFits p c o.id.toNat && decide (p.quadReg c o.a 2 + (stride + 64) ≤ (p.scratch 0 0).size))
def sloted (s : State) : State := s.updBlock 0 0 fun b => { b with rings := [(1, some ⟨512, 256, [.free, .filled], [], 0, 1, [], [], none⟩)] }
theorem tile_commands_stand :
    let ring : CmdF := { cmd with a := 4, ring := true }
    let o : CmdF := { cmd with a := 4, ga := true, s2g := true }
    tileB (.cpy { cmd with a := 4 }) 0x80 { cmd with a := 4 } true id = true ∧ tileB (.cpy o) 0x80 o true id = true ∧
    tileB (.gth { cmd with a := 4 }) 0x81 { cmd with a := 4 } false id = true ∧ tileB (.sct { cmd with a := 4, ga := true }) 0x82 { cmd with a := 4 } false id = true ∧
    tileB (.cpy ring) 0x80 ring true sloted = true ∧ tileB (.gth ring) 0x81 ring false sloted = true ∧ tileB (.sct ring) 0x82 ring false sloted = true := by decide +kernel
def quad (l : List Nat) (s : State) : State := regs (l.zipIdx.map fun e => (4 + e.2, all e.1)) s
theorem other_commands_stand :
    (let i : Instr := .rsend 4 1 .byp true
     let s := at_ i fun s => quad [0x6000, 0, 896, 128] (scratched s)
     let p := pd s i
     (issuesB s i 0x83 noGuard && decide (p.quadReg (ctx s) 4 3 = 128 ∧ p.quadReg (ctx s) 4 2 = 896) && bcbFits p (ctx s) 1 && !p.migrated w0) = true) ∧
    (let i : Instr := .rget 4 7 .dflt
     let s := at_ i fun s => quad [0x6000, 0, 0, 1] (scratched s)
     let p := pd s i
     (issuesB s i 0x84 noGuard && decide (p.quadReg (ctx s) 4 3 = 1) && bcbFits p (ctx s) 7 && !p.migrated w0) = true) ∧
    (let i : Instr := .ratom 4 1 .cas true
     let s := at_ i fun s => quad [0x6000, 0, 992, 0] (scratched s)
     let p := pd s i
     (issuesB s i 0x85 noGuard && decide (p.quadReg (ctx s) 4 3 = 0 ∧ p.quadReg (ctx s) 4 2 = 992) && bcbFits p (ctx s) 1 && soundB p (ctx s) 992 16) = true) ∧
    (let i : Instr := .ldimg 4 1
     let s := at_ i fun s => quad [0x6000, 0, 0x40, 0] (tiled (0x8000 + 4096 * 2 ^ 96) s)
     let p := pd s i
     let t : BitVec 256 := BitVec.ofNat 256 (p.recordAt (ctx s) 0x40 32).2
     (issuesB s i 0x86 noGuard && decide (p.quadReg (ctx s) 4 3 = 0 ∧ fld 128 128 t = 0 ∧ fld 0 64 t % 128 = 0) && bcbFits p (ctx s) 1 && soundB p (ctx s) 0x40 32) = true) := by
  decide +kernel
/-- A command of one row of 64 B to scratch (or an RSEND from it), its request held, not started, or in flight. -/
def row64 (k : CmdKind) (toScr : Bool) (reqs flight : List Req) : Cmd :=
  { Cmd.blank w0 0x5008 0 k 0x6000 128 with toScratch := toScr, rowb := 64, sstride := 64, bcb := some 0, reqs := reqs, flight := flight }
def req64 : Req := ⟨0, 0, 64, 0x6000, 0, none, false, false, none⟩
def with1 (x : Cmd) : State := scratched (at_ (.nop always)) |>.updCore 0 fun k => { k with cmds := [x] }
def startsB (x : Cmd) (r : Req) : Bool := (with1 x).tick.reqWay 0 x r |> fun | .go 0x6000 0 none false => true | _ => false
theorem copy_requests :
    (let x := row64 .cpy true [req64] []
     let s := with1 x
     startsB x req64 = true ∧ ((s.core 0).cmds.find? (fun x => x.ready && x.reqs.head?.any fun r => s.tick.reqWay 0 x r != .busy)).map (fun y => decide (y = x)) = some true ∧ ((s.core 0).cmds.map fun y => y.flight.length).sum < 48) ∧
    (let r := { req64 with held := some (Cause.notPresent, 0x6000) }
     let x := row64 .cpy true [r] []
     startsB x r = true) ∧
    (let x := row64 .cpy true [] [req64]
     let s := with1 x
     decide (s.flightAt 0 0 = some (x, req64)) = true ∧ (s.block 0 x.blk).isSome = true ∧ s.tick.engineWaits 0 req64.byp req64 64 = false) ∧
    (let r := { req64 with home := 1 }
     let x := row64 .rsend false [] [r]
     decide ((with1 x).flightAt 0 0 = some (x, r)) = true ∧ r.peer = none ∧ r.home ≠ dieOf 0) ∧
    (let r := { req64 with home := 1, sent := true }
     let x := row64 .rsend false [] [r]
     decide ((with1 x).flightAt 0 0 = some (x, r)) = true ∧ (with1 x).mem.msgs = []) := by decide +kernel
/-- The boundary of a row's bytes in scratch: the byte before 128 keeps its value, and the 64 from there on take the source's. -/
theorem moved_row :
    let x := row64 .cpy true [] [req64]
    let s := with1 x
    let s : State := { s with mem := { s.mem with mem := Tbl.setList 0 s.mem.mem 0x6000 [9, 8] } }
    ((s.moveReq 0 x 0 req64).block 0 0).map (fun b => [127, 128, 129, 191, 192].map fun k => Tbl.get 0 b.scratch.bytes k) = some [0, 9, 8, 0, 0] := by decide +kernel

/-- RowPassAccumulates holds for all; a clean scratch gives every read that the words of the stream make. -/
theorem badAt_clean_of {x : Scratch} (h : x.bad = []) (a n : Nat) : x.badAt a n = none := by
  simp only [Scratch.badAt, h]
  split
  · rfl
  · simp [Tbl.get]
theorem scratch_scrSee_bad_of {s : State} {core b : Nat} (h : (s.scratch core b).bad = []) (w : Who) (p : Path) (a n : Nat) :
    ((s.scrSee core b w p a n s).scratch core b).bad = [] := by
  simp only [State.scrSee, State.scratch, Laws.block_updBlock] at h ⊢
  cases hb : s.block core b <;> simp_all
theorem matRead_of {s : State} {c : Ctx} {b : Nat} (hw : c.who.party = .matrix b) (h : (s.scratch c.who.core b).bad = []) (a n : Nat) :
    ∃ t bs, s.matRead c a n = .ok (t, bs) ∧ (t.scratch c.who.core b).bad = [] := by
  have hc : s.bcore c = c.who.core ∧ s.bslot c = b := by simp only [State.bcore, State.bslot, State.home, hw, and_self]
  simp only [State.matRead, hc, badAt_clean_of h]
  exact ⟨_, _, rfl, scratch_scrSee_bad_of h ..⟩
theorem readTile_of {s : State} {c : Ctx} {b : Nat} (hw : c.who.party = .matrix b) (h : (s.scratch c.who.core b).bad = []) (fb : Fmt)
    (cols base stride : Nat) : ∃ t, s.readTile c fb cols base stride = .ok t := by
  have all_of (l : List Nat) : ∀ (u : State) (m : Tbl Byte), (u.scratch c.who.core b).bad = [] → ∃ p,
      l.foldl (fun (r : Except TrapArgs (State × Tbl Byte)) k => r.bind fun p =>
        (p.1.matRead c (base + k * stride) (16 * colBytes fb)).map fun q => (q.1, Tbl.setList 0 p.2 (k * (16 * colBytes fb)) q.2)) (.ok (u, m)) = .ok p := by
    induction l with
    | nil => exact fun u m _ => ⟨_, rfl⟩
    | cons k l ih =>
      intro u m hu
      obtain ⟨t, bs, h1, h2⟩ := matRead_of hw hu (base + k * stride) (16 * colBytes fb)
      simp only [List.foldl_cons, Except.bind, h1, Except.map]
      exact ih t _ h2
  obtain ⟨p, hp⟩ := all_of (List.range (cols / 16)) s [] h
  refine ⟨(p.1, ⟨fb, p.2, []⟩), ?_⟩
  unfold State.readTile
  exact congrArg (Except.map _) hp

/-- MatrixWords: the stream of the block with m0 = 0x100, m1 = 2, m2 = 1 and so on. -/
def matter (l : List Nat) (f : Matrix → Matrix) (s : State) : State :=
  (s.updMatrix 0 0 fun m => f { m with m := l.zipIdx.map fun e => (e.2, BitVec.ofNat 32 e.1) }).updBlock 0 0 fun b =>
    { b with scratch := { b.scratch with size := 2 ^ 21 } }
def onB (i : Instr) (op : Nat) (s : State) : Bool := issuesB s i op noGuard && ((pd s i).mat (ctx s)).any fun m => !m.stop
def calmB (i : Instr) (op : Nat) (s : State) : Bool := onB i op s && settledB (pd s i) (ctx s).who .blk
def noStatB (s : State) : Bool := s.regions.isEmpty && s.mem.mem.all (fun e => decide (e.1 < s.regs.regtab.toNat))
theorem noStatB_of {s : State} (h : noStatB s = true) : NoStat s := by
  simp only [noStatB, Bool.and_eq_true, List.isEmpty_iff] at h
  exact noStat_of h.1 h.2
def mregs (l : List Nat) (i : Instr) : State := at_ i fun s => matter (0 :: l) id (blankRegions s)
/-- A word that holds its range locks in the state given, and the same word when it has registered them. -/
def lock1 (lo hi : Nat) (s : State) : State := s.updCore 0 fun k => { k with locks := [⟨none, 0, true, 0, lo, hi, false⟩] }
theorem stream_words_stand :
    onB (.mset 5 7) 0xA9 (mregs [] (.mset 5 7)) = true ∧ onB (.mloop 1 0xFFFFFFF9) 0xA8 (mregs [2] (.mloop 1 0xFFFFFFF9)) = true ∧
    onB (.mloop 1 0xFFFFFFF9) 0xA8 (mregs [1] (.mloop 1 0xFFFFFFF9)) = true ∧ onB (.mzero 1 2) 0xA4 (mregs [5, 0] (.mzero 1 2)) = true ∧
    onB (.mzero 1 2) 0xA4 (mregs [0x1FFFF, 1] (.mzero 1 2)) = true ∧ onB .mend 0xAA (mregs [] .mend) = true := by decide +kernel
/-- A record in the scratch of the stream. -/
def recorded (b : Bcb) (i : Instr) : State := at_ i fun s => (matter [0, 0x100, 1, 0x100, 0] id s).setBcb 0 0 0x100 b
def recB (i : Instr) (op : Nat) (b : Bcb) : Bool :=
  let s := recorded b i
  let p := pd s i
  calmB i op s && (p.objTrap (ctx s) 0x100 32 32).isNone && decide (p.bcb 0 0 0x100 = b)
def ringOf (slots : List SlotState) (taken : List Taken) (m : Matrix → Matrix) (l : List Nat) (s : State) : State :=
  (matter (0 :: l) m s).updBlock 0 0 fun b => { b with rings := [(1, some ⟨0, 2 ^ 20, slots, taken, 0, 0, [], [], none⟩)] }
def mine (k : Nat) : Taken := ⟨.matrix, k, false⟩
theorem signals_stand :
    recB (.msig .bcb 0 1) 0xA6 { fresh with err := true } = true ∧ recB (.msig .bcb 0 1) 0xA6 fresh = true ∧
    onB (.msig .ring 2 2) 0xA6 (mregs [0, 0] (.msig .ring 2 2)) = true ∧
    (let i : Instr := .msig .ring 1 1
     let s := at_ i (ringOf [.draining, .draining] [mine 0, mine 1] id [2])
     onB i 0xA6 s = true ∧ (((pd s i).ring 0 0 1).map fun r => decide (2 ≤ r.matrixSlots.length)) = some true) ∧
    (let i : Instr := .msig .bar 15 1
     calmB i 0xA6 (mregs [1026] i) = true ∧ ((⟨30, 1026, 5, []⟩ : Bar).arrive 1 1026).2 = false) ∧
    recB (.mwait .bcb 0 4) 0xA7 { fresh with ph := true } = true ∧
    onB (.mwait .ring 1 1) 0xA7 (mregs [0] (.mwait .ring 1 1)) = true ∧
    (let i : Instr := .mwait .ring 1 1
     let s := at_ i (ringOf [.draining, .draining] [mine 0, mine 1] (·.setPos 1 ⟨some 0, 0, []⟩) [2])
     onB i 0xA7 s = true ∧ (((pd s i).ring 0 0 1).bind fun r => ((pd s i).mat (ctx s)).map fun m => decide (2 ≤ (r.ahead (m.rowPos 1)).length)) = some true) ∧
    (let i : Instr := .mwait .bar 5 1
     let s := mregs [1] i
     calmB i 0xA7 s = true ∧ ((pd s i).block 0 0).map (fun x => ((x.bar 5).arrive 1 1).2 || decide ((x.bar 5).count + 1 ≠ 1) || (x.bar 5).failed.contains (x.bar 5).phase) = some false ∧
      ((pd s i).mat (ctx s)).map (·.arr.isNone) = some true) := by decide +kernel

/-- MLDB: of f64 columns, from an offset and from a slot, before and under its lock. -/
def mldbF64 : Instr := .mldb .f64 0 1 2 false
def mldbSlot : Instr := .mldb .e4m3 1 1 2 true
theorem tile_loads_stand :
    (let s := mregs [128, 131072] mldbF64
     let p := pd s mldbF64
     onB mldbF64 0xA0 s = true ∧ p.matrixLocks 0 0 = [] ∧ (p.core 0).locks = [] ∧ tileCols .f64 = some 160 ∧
      128 + ((160 / 16 - 1) * 131072 + 16 * colBytes .f64) ≤ (p.scratch 0 0).size) ∧
    (let s := at_ mldbF64 fun s => lock1 128 1310848 (matter [0, 128, 131072] id s)
     onB mldbF64 0xA0 s = true ∧ ((pd s mldbF64).matrixLocks 0 0).length = 1 ∧ ((pd s mldbF64).scratch 0 0).bad = []) ∧
    (let s := at_ mldbSlot (fun s => (ringOf [.filled, .free] [] id [128, 16384] s).updBlock 0 0 fun b => { b with rings := b.rings.map fun e => (e.1, e.2.map fun r => { r with size := 1310848 }) })
     let p := pd s mldbSlot
     onB mldbSlot 0xA0 s = true ∧ p.matrixLocks 0 0 = [] ∧ (p.core 0).locks = [] ∧ tileCols .e4m3 = some 1280 ∧
      ((p.ring 0 0 1).map fun r => ((r.acquire .matrix 0 false).2, decide (128 + ((1280 / 16 - 1) * 16384 + 16 * colBytes .e4m3) ≤ r.size))) = some (some 0, true)) ∧
    (let s := at_ mldbSlot fun s => lock1 128 1310848 (matter [0, 128, 16384] id s)
     onB mldbSlot 0xA0 s = true ∧ ((pd s mldbSlot).matrixLocks 0 0).length = 1) := by decide +kernel

/-- MMUL and MMULB of the last row, with its step paid, at the start of the word and later. -/
def lastRow (started : Bool) (o : MulF) (i : Instr) : State := at_ i fun s =>
  ringOf [.draining, .free] [mine 0] (fun m => { m.setPos 1 ⟨some 0, 0, []⟩ with started := started, steps := 2, row := 0, tile := some ⟨o.fb, [], []⟩ }) [0, 640] (blankRegions s)
def mulB (started parts : Bool) (o : MulF) : Bool :=
  let i : Instr := if parts then .mmulb o else .mmul o
  let s := lastRow started o i
  let p := pd s i
  onB i (if parts then 0xA2 else 0xA1) s && noStatB p && decide (1000 ≤ p.cap 0) && p.scrFits (ctx s) (128 * fmtBits o.fa) && (p.scratch 0 0).bad.isEmpty &&
  (match p.mat (ctx s), p.ring 0 0 1, pairOf o.fa o.fb with
   | some m, some r, some w => (started || (p.mulTrap (ctx s) m o w parts r).isNone) && decide (m.rowPos 1 = ⟨some 0, 0, []⟩ ∧ w.steps ≤ m.steps ∧ m.due = none ∧ m.started = started)
   | _, _, _ => false)
theorem row_passes_stand :
    let o : MulF := { mul with id := 1, n := 1, rps := 2 }
    mulB false false o = true ∧ mulB true false o = true ∧ mulB false true { o with mb := 0, fa := .e4m3, fb := .nq4 } = true := by decide +kernel

/-- MSCALE of one row and 32 columns, and MDRAIN of BF16 of 2 rows, of nothing, before and under their locks; a step that the engine pays. -/
theorem scale_and_drain_stand :
    (let i : Instr := .mscale 1 1 5
     let l := [0, 0, 512, 0, 0x100, 0x200, 1, 0]
     let s := mregs l i
     let p := pd s i
     onB i 0xA3 s = true ∧ noStatB p = true ∧ p.scrFits (ctx s) (0x200 + 64 * 32) = true ∧ accFits .f32 0 0 1 (16 * 32) 1 = true ∧ accFits .f32 512 0 1 32 1 = true ∧
      p.matrixLocks 0 0 = [] ∧ (p.core 0).locks = [] ∧ (p.scratch 0 0).bad = []) ∧
    (let i : Instr := .mscale 1 1 5
     let s := at_ i fun s => lock1 0x100 0x140 (matter [0, 0, 0, 512, 0, 0x100, 0x200, 1] id s)
     onB i 0xA3 s = true ∧ ((pd s i).matrixLocks 0 0).length = 1) ∧
    onB (.mscale 40 1 5) 0xA3 (mregs [0, 0, 512, 0, 0x100, 0x200, 0] (.mscale 40 1 5)) = true ∧
    (let i : Instr := .mdrain .bf16 1 1 5 .sr .sat
     let s := mregs [0, 32, 0x100, 64, 2] i
     let p := pd s i
     onB i 0xA5 s = true ∧ noStatB p = true ∧ drainFrom .bf16 = some .f32 ∧ accFits .f32 0 32 2 32 1 = true ∧ p.scrFits (ctx s) (0x100 + 64 + 64) = true ∧
      ((p.mat (ctx s)).map fun m => (List.range 64).all fun k => (m.accBadAt .f32 (k / 32 * 32 + k % 32)).isNone &&
        !(fmtConvert .bf16 .sr .sat (srDraw (ctx s).blk.msrseed k) (accNum .f32 (m.accGet .f32 (k / 32 * 32 + k % 32)).bits)).trap) = some true ∧
      p.matrixLocks 0 0 = [] ∧ (p.core 0).locks = []) ∧
    (let i : Instr := .mdrain .bf16 1 1 5 .sr .sat
     let s := at_ i fun s => lock1 0x100 0x180 (matter [0, 0, 32, 0x100, 64, 2] id s)
     onB i 0xA5 s = true ∧ ((pd s i).matrixLocks 0 0).length = 1) ∧
    onB (.mdrain .f64 40 1 5 .rne .trap) 0xA5 (mregs [0, 32, 0x100, 64, 0] (.mdrain .f64 40 1 5 .rne .trap)) = true ∧
    (let s := (at_ .mend).updCore 0 fun k => { k with tokens := { k.tokens with wide := [⟨⟨0, .matrix 0⟩, 1000, 0, 0⟩] } }
     ((s.core 0).tokens.wide.map fun x => x.who.party) = [.matrix 0] ∧ 1000 ≤ s.cap 0) := by decide +kernel

/-- FrontWords: a stream that stands and one that runs; MSTOP with no stream, one that stands and one that runs; ENQ into queue 3, whose last
slot of depth 1 is free. -/
def noMatrix (s : State) : State := s.updBlock 0 0 fun b => { b with matrix := none }
def idle (s : State) : State := s.updMatrix 0 0 fun m => { m with running := false }
theorem mstart_and_mstop_stand :
    (let s := front .mstart
     issuesB s .mstart 0x91 noGuard && settledB (pd s .mstart) (ctx s).who .blk && ((pd s .mstart).matrixOf 0 0).any (·.running)) = true ∧
    (let s := front .mstart idle
     issuesB s .mstart 0x91 noGuard && settledB (pd s .mstart) (ctx s).who .blk && ((pd s .mstart).matrixOf 0 0).any (!·.running)) = true ∧
    ([noMatrix, idle, id].all fun f =>
      let s := front .mstop f
      issuesB s .mstop 0x92 noGuard && ((pd s .mstop).owed (ctx s).who).isEmpty) = true ∧
    ((pd (front .mstop noMatrix) .mstop).matrixOf 0 0).isNone = true ∧ ((pd (front .mstop idle) .mstop).matrixOf 0 0).map (fun m => m.running || m.stop) = some false ∧
    (let p := pd (front .mstop) .mstop
     (p.matrixOf 0 0).map (fun m => m.running && m.park.isNone && m.steps == 0) = some true ∧ p.matrixLocks 0 0 = []) := by decide +kernel
/-- Queue 3 of 16 slots at 0x8000, region 0, EN and HOST, with cards in the slots given. -/
def queue3 (l : List Nat) (s : State) : State :=
  s.setQueue 3 ⟨some (BitVec.ofNat 256 (0x8000 + 4 * 2 ^ 64 + 2 ^ 83 + 2 ^ 84)), l.map fun k => ⟨k, 0, 0, false, false, 0⟩⟩
theorem enq_stands :
    let i : Instr := .enq 4 3
    let s := front i fun s => queue3 (List.range 8) (sregs [(4, 0x6000)] s)
    let p := (pd s i).useQueue 3
    (issuesB s i 0x93 noGuard && (p.queue 3).open && p.isAncestor (ctx s).blk.dealt.region (p.queue 3).region && decide (p.get (ctx s) 4 0 = 0x6000) &&
      settledB p (ctx s).who .pkg && (match (p.release (ctx s).who .pkg).readCard (ctx s) 0x6000 with
        | .ok none => false
        | .ok (some (r, card)) => (r.enqueue 3 (setFld 376 4 1 card) (some 0x6000)).isSome
        | .error _ => false)) = true := by decide +kernel
theorem enqueue_in_range : ((queue3 [] State.reset).queue 3).valid = true ∧ ((queue3 (List.range 8) State.reset).enqueue 3 (setFld 376 4 8 0) none).isSome = true := by
  decide +kernel

/-- SpecialRegisterWords: permitted and refused reads and writes, the seeds, and the values at the ends of the events' ranges. -/
def inH (i : Instr) : State := at_ i fun s => inHandler (regs [(4, all 1)] s)
theorem special_register_words_stand :
    ([2, 4, 0x0A, 0x12].all fun id => issuesB (at_ (.sread 8 always (BitVec.ofNat 16 id) 0)) (.sread 8 always (BitVec.ofNat 16 id) 0) 0xB0 always &&
      (sreg id).any fun r => (at_ (.nop always)).mayUse (ctx (at_ (.nop always))) r.rd) = true ∧
    (let i : Instr := .sread 8 always 0x68 4095
     issuesB (inH i) i 0xB0 always && readyB (at_ i) i 0xB0 always && (sreg 0x68).any fun r => (pd (inH i) i).mayUse (ctx (inH i)) r.rd && !(pd (at_ i) i).mayUse (ctx (at_ i)) r.rd) = true ∧
    (let i : Instr := .swrite 4 always 3 0
     issuesB (at_ i) i 0xB1 always && ((sreg 3).map (·.wr)) == some .never) = true ∧
    ([0x12, 0x30, 0x38].all fun id =>
      let i : Instr := .swrite 4 always (BitVec.ofNat 16 id) 0
      let s := inH i
      issuesB s i 0xB1 always && settledB (pd s i) w0 .sys && decide ((pd s i).get (ctx s) 4 0 = 1) && decide ((ctx s).blk.dealt.fdom = 0) && readyB (at_ i) i 0xB1 always &&
      (sreg id).any fun r => (pd s i).mayUse (ctx s) r.wr && !(pd (at_ i) i).mayUse (ctx (at_ i)) r.wr) = true ∧
    (let i : Instr := .swrite 4 always 9 0
     issuesB (front i) i 0xB1 always && issuesB (front (.sread 4 always 9 0)) (.sread 4 always 9 0) 0xB0 always && !(pd (front i) i).migrated (ctx (front i)).who) = true ∧
    ([8, 10].all fun id =>
      let i : Instr := .swrite 4 always (BitVec.ofNat 16 id) 0
      issuesB (at_ i blankRegions) i 0xB1 always && decide (fld 0 2 ((pd (at_ i blankRegions) i).region 0).trCtl = 0) && !(pd (at_ i blankRegions) i).migrated w0) = true ∧
    issuesB (at_ (.timeRef 8 always)) (.timeRef 8 always) 0xB2 always = true ∧ issuesB (at_ (.timeCyc 8 always)) (.timeCyc 8 always) 0xB2 always = true ∧
    ((at_ (.nop always)).warp w0).map (fun w => decide (31 < w.srseed.length)) = some true := by decide +kernel
theorem special_register_events :
    (sreg 0x68).map (·.count) = some 4096 ∧ (sreg 0x30).map (·.count) = some 0 ∧ State.reset.gate true 63 none = .pass ∧ State.reset.funcRegion 0 = 0 ∧
    (let s := State.reset.writeFuncmap 23 0x00500000; s.funcRegion 63 ≠ 0) ∧
    (let s := at_ (.nop always); fld 0 2 (s.region (s.regionOf w0)).trCtl = 0 ∧ (s.warp w0).map (·.srseed.length) = some 32) ∧
    State.reset.arenaUsable = false ∧ fld 54 2 (0x00C0000000000000 : DWord) = 3 := by decide +kernel

/-- HandlerWords: a warp at handler level beside a parked one of frame 16 in slot 1; no warp there, one that runs, one of another block. -/
def parked (p : Bool) (s : State) : State := s.setWarp ⟨0, .warp 1⟩ (some { Warp.start 0 1 16 0x5008 with
  park := if p then some ⟨.swTrap, 0, 0x5008, 0x5010, none, none⟩ else none })
def foreign (s : State) : State := (parked true s).updWarp ⟨0, .warp 1⟩ (fun x => { x with blk := 1 }) |>.setBlock 0 1 (some { Block.blank 0x5008 with
  dealt := { Dealt.blank with region := 5 } })
def at6000 (s : State) : State := regs [(4, all 0x6000)] (inHandler s)
/-- The block belongs to region 5. -/
def in5 (s : State) : State := s.updBlock 0 0 fun b => { b with dealt := { b.dealt with region := 5, asid := 3 } }
theorem tlb_words_stand :
    ([(.tlbinv 4 always .core 0 : Instr), .tlbinvAsid always .die 0, .tlbinvAll always .sys].all fun i =>
      let s := at_ i at6000
      issuesB s i 0xB4 always && settledB (pd s i) w0 .sys && decide ((ctx s).blk.dealt.region = 0) && !(pd s i).mem.tlb.isEmpty &&
      !(((pd s i).reached 0 .pkg).any ((pd s i).usesRemoved (fun _ => true) fun _ => true))) = true ∧
    ([(.tlbinv 4 always .core 0 : Instr), .tlbinvAsid always .die 0, .tlbinvAll always .sys].all fun i =>
      let s := at_ i fun s => in5 (at6000 s)
      readyB s i 0xB4 always && decide ((ctx s).blk.dealt.region ≠ 0 ∧ (ctx s).blk.dealt.asid ≠ 0)) = true ∧
    (let s := at_ (.tlbinv 4 always .pkg 3) fun s => in5 (at6000 s)
     (issuesB s (.tlbinv 4 always .pkg 3) 0xB4 always && settledB (pd s (.tlbinv 4 always .pkg 3)) w0 .sys) = true) ∧
    ([(.tlbinv 4 always .core 0 : Instr), .tlbinvAsid always .die 0, .tlbinvAll always .sys].all fun i =>
      let s := at_ i fun s => storing [queued] (at6000 s)
      issuesB s i 0xB4 always && ((pd s i).reached 0 .core).any ((pd s i).usesRemoved
        (fun e => decide (e.base ≤ 0x6000) && decide (0x6000 < e.base + e.size) && e.asid == 0) (· == 0))) = true ∧
    (let i : Instr := .probe 8 4 always
     let s := at_ i fun s => regs [(4, fun l => 0x6000 + l), (5, fun l => if l = 3 then 0x80000000 else if l = 4 then 1 else 0)] (inHandler s)
     let p := pd s i
     (issuesB s i 0xB5 always && (p.owed w0).isEmpty && p.storesHome w0 && (List.range 32).all fun l => match p.walk 0 (p.get64 (ctx s) 4 l) with
       | .poisoned _ => false | .nonCanonical => l == 3 | .absent _ _ => l == 4 | .leaf _ => l != 3 && l != 4 | _ => false) = true) ∧
    (let i : Instr := .probeAs 8 4 always 7
     let s := at_ i at6000
     (issuesB s i 0xB5 always && ((pd s i).owed w0).isEmpty && match (pd s i).walk 7 0x6000 with | .noSpace => true | _ => false) = true) := by decide +kernel
def recordWords : List (Instr × Nat) := [(.wsave 4 always 1, 0xB6), (.wsaveFrame 4 always 1, 0xB6), (.wload 4 always 1, 0xB7), (.wloadFrame 4 always 1, 0xB7)]
theorem record_targets : (recordWords.all fun e =>
    let one (f : State → State) : State := at_ e.1 fun s => f (at6000 s)
    let p (f : State → State) : State := pd (one f) e.1
    readyB (one id) e.1 e.2 always && ((p id).warp ⟨0, .warp 1⟩).isNone && readyB (one (parked false)) e.1 e.2 always &&
    (((p (parked false)).warp ⟨0, .warp 1⟩).map (·.park.isNone) == some true) && readyB (one foreign) e.1 e.2 always &&
    (((p foreign).warp ⟨0, .warp 1⟩).map (·.park.isSome) == some true) && (((p foreign).blockOf ⟨0, .warp 1⟩).map (·.dealt.region) == some 5) &&
    (let q := fun s => regs [(4, all 0x6040)] (parked true s)
     readyB (one q) e.1 e.2 always && decide (((p q).get64 (ctx (one q)) 4 0).toNat % 128 ≠ 0))) = true := by decide +kernel
def targetB (i : Instr) (op : Nat) (f : State → State) : Bool :=
  let s := at_ i fun s => f (parked true (at6000 s))
  let p := pd s i
  issuesB s i op always && ((p.warp ⟨0, .warp 1⟩).map (fun x => x.park.isSome && x.away.isNone && x.flight.results.isEmpty && x.writeBack.bad.isEmpty && decide (x.frame = 16)) == some true) &&
  (p.flight w0).sq.ents.isEmpty && ((p.blockOf ⟨0, .warp 1⟩).map (·.dealt.region) == some 0) && decide (p.get64 (ctx s) 4 (lowest (ctx s).exec) = 0x6000)
theorem records_are_saved :
    (let i : Instr := .wsave 4 always 1
     let s := at_ i fun s => parked true (at6000 s)
     targetB i 0xB6 id && ((pd s i).recordPieces (ctx s) .store 0x6000 16384).isOk) = true ∧
    (let i : Instr := .wsaveFrame 4 always 1
     let s := at_ i fun s => parked true (at6000 s)
     targetB i 0xB6 id && ((pd s i).recordPieces (ctx s) .store 0x6000 4096).isOk) = true := by decide +kernel
/-- A record of frame 16 and one gang, all else zero, at 0x6000. -/
def savedRecord (s : State) : State := { s with mem := { s.mem with mem := Tbl.setList 0 (Tbl.setList 0 s.mem.mem 0x6000 [16]) 0x6018 [1] } }
theorem a_frame_is_loaded :
    (let i : Instr := .wloadFrame 4 always 1
     let s := at_ i fun s => parked true (at6000 s)
     let p := pd s i
     targetB i 0xB7 id && (match p.recordPieces (ctx s) .load 0x6000 4096 with
       | .ok ps => ((p.warp ⟨0, .warp 1⟩).map fun x => imageBad x (p.fetchRecord (ctx s) ps).2) == some false
       | .error _ => false)) = true := by decide +kernel
theorem a_record_is_loaded :
    (let i : Instr := .wload 4 always 1
     let s := at_ i fun s => savedRecord (parked true (at6000 s))
     let p := pd s i
     targetB i 0xB7 savedRecord && (match p.recordPieces (ctx s) .load 0x6000 16384 with
       | .ok ps => let bs := (p.fetchRecord (ctx s) ps).2
         !recordBad 16 bs && ((List.range 16).filterMap fun k => p.logOfBytes ⟨0, .warp 1⟩ 0 ((bs.drop (0xE00 + 800 * k)).take 800)).isEmpty
       | .error _ => false)) = true := by decide +kernel

/-- LaunchEvents: a root region that owns everything, a card of 5 records whose blocks have one warp, and the next chunk of a run of it. -/
def rooted (s : State) : State := { s with
  regs := { s.regs with regtab := 0x100000 }
  mem := { s.mem with mem := Tbl.setList 0 s.mem.mem 0x100000 (bytesOf 64 (6144 * 2 ^ 240 + 112 * 2 ^ 256 + 112 * 2 ^ 264 + 2 ^ 275)) } }
def card5 : BitVec 1024 := BitVec.ofNat 1024 (0x5008 + 0x6000 * 2 ^ 192 + 8 * 2 ^ 256 + 5 * 2 ^ 288 + 16 * 2 ^ 352 + 2 ^ 368 + 2 ^ 384 + 2 ^ 416)
def run5 : CardRun := ⟨3, 0, card5, 0x8000, 0, 5, 0, [], false, [], none, false⟩
def posted (c : BitVec 1024) (s : State) : State := s.setQueue 3 ⟨some (BitVec.ofNat 256 (0x8000 + 4 * 2 ^ 64 + 2 ^ 83 + 2 ^ 84)), [⟨0, c, 0x8000, false, false, 0⟩]⟩
def ground (f : State → State) : State := f (rooted { at_ (.nop always) with cores := [] })
theorem a_chunk_is_dealt :
    let s := ground (posted card5)
    let p := (s.queues.filterMap fun (_, x) => x.cards.head?.map fun c => cardRegion c.card).foldl State.useRegion s.tick.postPending.settleRuns
    0 < cardDiv card5 * (min (s.effCores 0 0) 112 + min (s.effCores 1 0) 112) ∧ (s.grab 0 run5).isSome = true ∧ s.host.side.saving = false ∧
    p.candidates.length = 1 ∧ (p.candidates.head?.map fun c => (p.tryDeal c).isSome) = some true := by decide +kernel
/-- A card whose region (1) is not its queue's, and one that waits for the word at 0x6000 to reach 0 and 1. -/
def waiter (v : Nat) : BitVec 1024 := card5 ||| BitVec.ofNat 1024 (v * 2 ^ 480 + 0x6000 * 2 ^ 576)
theorem cards_are_judged :
    let c := card5 ||| BitVec.ofNat 1024 (2 ^ 432)
    let s := ground (posted c)
    s.headRun 3 = none ∧ (s.judge c 0x8000 0).map (·.1) = some .illegal ∧
    ([waiter 0, waiter 1].all fun c =>
      let u := ground (posted c)
      (u.queue 3).valid && decide (cardWaitctr c = 0x6000) && (u.regionInvalid 0).isNone && (u.tick.deviceRead (u.effAsid 0) 4 4 0x6000).isOk) = true := by decide +kernel
/-- Blocks that are over: one of several of its run, the last, of a run that counts no card and of one that does; the done counter at 0x6000. -/
def ended (r : CardRun) : State := ground fun s => { s with cards := [(0, some r)] } |>.setBlock 0 0 (some { Block.blank 0x5008 with warps := [], front := none, matrix := none })
theorem blocks_end :
    ([{ run5 with remaining := 0, live := [0] }, { run5 with live := [0] }, { run5 with remaining := 0, live := [0, 1] }].all fun r =>
      ((ended r).block 0 0).any fun b => (ended r).blockOver 0 0 b && decide (b.dealt.num = 0 ∧ b.dealt.run = 0)) = true ∧ cardDonectr card5 = 0 ∧
    (let r := { run5 with card := card5 ||| BitVec.ofNat 1024 (0x6000 * 2 ^ 640) }
     let s := ended r
     cardDonectr r.card = 0x6000 ∧ s.linkQuiet = true ∧ (match s.access 0 (s.effAsid 0) none .rmw true false 0x6000 with
       | .ok l => (s.unitBad l 4).isNone && !Tbl.get false s.mem.disc (l.phys / 32) && decide (l.phys % 4 = 0)
       | .error _ => false) = true) := by decide +kernel
theorem chooseFrom_some_of {l : List Nat} (h : l ≠ []) (f : Nat → DWord) (n : Nat) : ((chooseFrom f (n + 1) l).head?).isSome = true := by
  have h1 : (f n).toNat % l.length < l.length := Nat.mod_lt _ (List.length_pos_of_ne_nil h)
  simp only [chooseFrom, List.getElem?_eq_getElem h1, List.head?_cons, Option.isSome_some]
/-- Posts: one that finds a slot, whichever free one that is, and one that is refused; ingest writes of window 0. -/
theorem a_post_finds_a_slot : ((ground (queue3 [])).tick.useQueue 3).enqueue 3 card5 none ≠ none := by
  have h1 : (((ground (queue3 [])).tick.useQueue 3).resets.any fun z => z.fdom == ((ground (queue3 [])).tick.useQueue 3).effFdom
    (((ground (queue3 [])).tick.useQueue 3).queue 3).region) = false := by decide +kernel
  have h2 : ((List.range ((((ground (queue3 [])).tick.useQueue 3).queue 3).slots - 8)).filter fun k => !(((ground (queue3 [])).tick.useQueue 3).queue 3).taken k) ≠ [] := by
    decide +kernel
  have h3 := chooseFrom_some_of h2 (((ground (queue3 [])).tick.useQueue 3).places 1) 0
  obtain ⟨k, hk⟩ := Option.isSome_iff_exists.mp h3
  simp only [State.enqueue, h1, Queue.slotFor, Bool.false_eq_true, if_false, hk]
  simp
def aperture (f : Ingest → Ingest) (q : State → State) : State := ground fun s => (q s).setIngest 0 (f
  ⟨some (BitVec.ofNat 512 (0x10000 + 16 * 2 ^ 64 + 3 * 2 ^ 81 + 2 ^ 97 + 4096 * 2 ^ 128 + 9 * 2 ^ 160)), false, 4000, 0, []⟩)
theorem posts_and_ingest_writes :
    (let p := (ground (queue3 [])).tick.useQueue 3
     cardDepth card5 = 0 ∧ (bytesOf 128 card5.toNat).length = 128 ∧ (p.queue 3).hostOpen = true ∧ p.isAncestor (p.funcRegion 63) (p.queue 3).region = true ∧
      p.host.up = true ∧ p.die0.dead = false ∧ p.tdisp 63 = none) ∧
    (let s := aperture id (queue3 [])
     let x := s.ingest 0
     x.desc.isSome = true ∧ flag 97 x.word = true ∧ s.isAncestor (s.funcRegion 0) x.region = true ∧ (s.queue x.queue).open = true ∧ (s.queue x.queue).free ≠ 0 ∧
      x.waiting = [] ∧ x.count.toNat / x.perCard ≤ x.posted ∧ x.reqid = 9 ∧ x.size = 65536 ∧
      (s.tick.deviceStore (s.effAsid x.region) 2 (x.base + 4000) (List.replicate 128 7)).isOk = true) ∧
    ((aperture id (queue3 (List.range 8))).queue 3).free = 0 ∧ ((aperture id id).queue 3).open = false := by decide +kernel
/-- Tables read again, and a window of 16 ns that has passed beside a warp of role 1 that waits for a decision. -/
theorem tables_and_roles :
    (ground (queue3 [])).queueFrozen 3 = [] ∧ State.reset.frozen = [] ∧
    (let s := (ground id).setWarp w0 (some { Warp.start 0 0 16 0x5008 with role := 1, popping := 1 }) |>.setBlock 0 0 (some { Block.blank 0x5008 with
      rings := [(1, some (ring2 .free []))], roles := some ⟨roles, some 0, none⟩ })
     let s : State := { s with tref := 16 }
     (match s.block 0 0 with
      | some b => !b.roleBad && !rolesBroken b b.warpCount roles && decide (fld 360 5 roles = 1 ∧ 0 + 16 * fld 344 16 roles ≤ s.tref.toNat) &&
        ((s.slotWarp 0 0).any fun w => decide (w.2.role = 1 ∧ w.2.flag = none) && b.takingBlocked 0 w.2 && !(roleOf roles w.2.wid == 1 && w.2.role == 0))
      | none => false) = true) := by decide +kernel

/-! ## The published vectors of the algorithms that 13 R251 and R253 name -/

/-- FIPS 180-2, "abc". -/
theorem test_sha256 : sha256 [0x61, 0x62, 0x63] = (bytesOf 32 0xba7816bf8f01cfea414140de5dae2223b00361a396177a9cb410ff61f20015ad).reverse := by decide +kernel
/-- FIPS 197: the example of SubBytes in section 5.1.1, and a published column of MixColumns. -/
theorem test_aes : aesSub 0x53 = 0xED ∧ aesMixColumn [0xDB, 0x13, 0x53, 0x45] = [0x8E, 0x4D, 0xA1, 0xBC] := by decide +kernel

theorem aesBlock_length_of (keys : List (List Byte)) (b : List Byte) : (aesBlock keys b).length = min 16 (keys.getD 14 []).length := by
  unfold aesBlock
  rw [show List.range 14 = List.range 13 ++ [13] from rfl, List.foldl_append]
  simp [xorBytes, aesShift]
theorem beBytes_length_of (n v : Nat) : (beBytes n v).length = n := by
  induction n generalizing v with
  | zero => rfl
  | succ n ih => simp [beBytes, ih]
theorem gcmTag_length_of (keys : List (List Byte)) (h : (keys.getD 14 []).length = 16) (nonce aad ct : List Byte) : (gcmTag keys nonce aad ct).length = 16 := by
  simp only [gcmTag, xorBytes, List.length_zipWith, aesBlock_length_of, beBytes_length_of, h]
  rfl
theorem flit_opens_of {ct : List Byte} (hc : ct.length = 232) : ∃ b, Port.init.unseal 0 (flitHeader 0 false 3 ++ ct ++
    gcmTag (aesKeys (bytesOf 32 0)) (flitNonce (Config.linkPort 0) 0) (flitHeader 0 false 3) (ct)) = some (false, 3, b) := by
  have h16 := gcmTag_length_of (aesKeys (bytesOf 32 0)) (by decide +kernel) (flitNonce (Config.linkPort 0) 0) (flitHeader 0 false 3) (ct)
  generalize htag : gcmTag (aesKeys (bytesOf 32 0)) (flitNonce (Config.linkPort 0) 0) (flitHeader 0 false 3) (ct) = tag at h16 ⊢
  have h8 : (flitHeader 0 false 3).length = 8 := by decide
  have hlen : (flitHeader 0 false 3 ++ ct ++ tag).length = 256 := by
    rw [List.length_append, List.length_append, h8, hc, h16]
  have h1 : (flitHeader 0 false 3 ++ ct ++ tag).take 8 = flitHeader 0 false 3 := by
    rw [List.append_assoc]; exact List.take_left' h8
  have h2 : ((flitHeader 0 false 3 ++ ct ++ tag).drop 8).take 232 = ct := by
    rw [List.append_assoc, List.drop_left' h8]; exact List.take_left' (hc)
  have h3 : (flitHeader 0 false 3 ++ ct ++ tag).drop 240 = tag :=
    List.drop_left' (by rw [List.length_append, h8, hc])
  simp only [Port.unseal, hlen, h1, h2, h3]
  rw [show natOf (flitHeader 0 false 3) = 3 * 2 ^ 49 by decide]
  simp only [show Nat.testBit (3 * 2 ^ 49) 48 = false by decide, show (3 * 2 ^ 49 : Nat) / 2 ^ 52 = 0 by decide, show (3 * 2 ^ 49 : Nat) / 2 ^ 49 % 8 = 3 by decide]
  have hk : (Port.init.slot false).key.toNat = 0 ∧ (Port.init.slot false).opened = 0 := ⟨rfl, rfl⟩
  simp only [hk, gcmOpen, htag]
  simp
/-- HostEvents: a flit with the tag that its port computes is opened, whatever its link partner's number; one of no bytes is not. -/
theorem flits_open : ∃ flit b, Port.init.unseal 0 flit = some (false, 3, b) := ⟨_, flit_opens_of (List.length_replicate (n := 232) (a := 0))⟩
theorem no_flit_opens : Port.init.unseal 0 [] = none := by decide +kernel

/-- PowerEvents: an account that takes, and none; the last cycle of a rotation and the first of the next; a hold; requests; loans. -/
def die0With (f : Mint → Mint) (s : State) : State := { s with die0 := { s.die0 with mint := f s.die0.mint } }
def asks (x : Wide) (s : State) : State := s.updCore 0 fun k => { k with tokens := { k.tokens with wide := [x] } }
def lent (l : Loan) : State := { State.reset with loan := some l }
theorem power_states :
    (at_ (.nop always)).takingAccount 0 = some 0 ∧ State.reset.takingAccount 0 = none ∧ ((at_ (.nop always)).chain 0).Nodup ∧
    (let s := State.reset; (s.die 0).mint.cycle = 113 * (s.die 0).mint.rot ∧ (s.die 0).dead = false ∧ s.coresOf 0 = []) ∧
    (let s := die0With (fun m => { m with rot := 1, cycle := 112, packets := List.replicate 113 ⟨5, 0, none, 3⟩ }) State.reset
     (s.die 0).mint.cycle < 113 * (s.die 0).mint.rot ∧ (s.die 0).mint.packets[112]? = some ⟨5, 0, none, 3⟩) ∧
    (let s : State := { State.reset with regions := [(0, Region.init)], mem := { State.reset.mem with mem := bytesOf 64 (2 ^ 288) |> Tbl.setList 0 [] 0 } }
     (s.regions.map (·.1)).Nodup ∧ s.hasShare 0 = true) ∧
    (let s := die0With (fun m => { m with cycle := 226 }) (asks ⟨w0, 4, 0, 0⟩ (at_ (.nop always)))
     s.oldestWide 0 = some ⟨w0, 4, 0, 0⟩ ∧ (s.core 0).tokens.hold = none ∧ 0 + 226 ≤ (s.die 0).mint.cycle ∧ 4 ≤ (s.core 0).tokens.balance 0 ∧ s.payerFree 0 (.warp 0) = false ∧
      (s.setCluster 0 { Cluster.init with open_ := 1 }).payerFree 0 (.warp 0) = true ∧ (s.warp w0).isSome = true) ∧
    ([LoanStage.granting, .running, .notice].all fun g => (lent ⟨1, 64, 4, 0, g, false⟩).host.side.linkUp) = true ∧
    ({ State.reset with host := { State.reset.host with side := { State.reset.host.side with linkUp := false } } } : State).host.side.linkUp = false := by decide +kernel
/-- A cluster with detection enabled, its stretch over, its window open at the edge of a payer's gap; temperatures at THERMCFG's third value and below. -/
theorem droop_and_heat :
    (let s := State.reset.setCluster 27 { Cluster.init with droopCfg := 2 ^ 18 }
     flag 18 (s.cluster 27).droopCfg = true ∧ (s.cluster 27).detected = false) ∧
    (let s := State.reset.setCluster 27 { Cluster.init with detected := true, cycle := 7 }
     (s.cluster 27).detected = true ∧ (s.cluster 27).from_ + max 1 (fld 6 4 (s.cluster 27).droopCfg) ≤ (s.cluster 27).latest) ∧
    (let s := (at_ (.nop always)).setCluster 0 { Cluster.init with window := true, until_ := 2, cycle := 2, open_ := 1 }
     (s.cluster 0).window = true ∧ (s.cluster 0).until_ ≤ (s.cluster 0).latest) ∧
    (let s := (at_ (.nop always)).setCluster 0 { Cluster.init with window := true, since := 1, until_ := 5, cycle := 3, open_ := 1 }
     let u := s.updCore 0 fun k => { k with tokens := { k.tokens with last := [(payer (.warp 0), 3)] } }
     let v := s.updCore 0 fun k => { k with tokens := { k.tokens with last := [(payer (.warp 0), 4)] } }
     s.payerFree 0 (.warp 0) = true ∧ u.payerFree 0 (.warp 0) = false ∧ v.payerFree 0 (.warp 0) = false) ∧
    (let d := State.reset.die0; fld 16 8 d.thermCfg = 115 ∧ d.dead = false ∧ (List.replicate 20 115).length = 20) ∧ State.reset.host.side.saving = false := by decide +kernel
/-- An emergency save under way; logs that bring-up can use and cannot. -/
def logged (c : Option DWord) (saving : Bool) (s : State) : State := { s with host := { s.host with side := { s.host.side with
  saving := saving, log := some ⟨7, [(0, true), (5, false)], true, [5], c, false⟩ } } }
theorem emergency_logs :
    (logged (some 7) false { State.reset with power := false }).power = false ∧
    (logged none true (at_ (.nop always))).host.side.saving = true ∧
    ([some 7, some 8, none].all fun c => (logged c false State.reset).power && ((logged c false State.reset).host.side.log.any fun l => !l.read)) = true := by decide +kernel

/-- FaultEvents: parked parties of each kind, named by the register's value; regions that are busy, and one that is not. -/
def parkInfo : TrapInfo := ⟨.swTrap, 0, 0x5008, 0x5010, none, none⟩
theorem parked_parties :
    (let s := parked true (at_ (.nop always))
     let v : BitVec 32 := 1 * 2 ^ 8
     (s.fresumeParty v).map (·.1) = some ⟨0, .warp 1⟩ ∧ (s.core 0).landing = none ∧ ((s.warp ⟨0, .warp 1⟩).bind (·.park)) = some parkInfo ∧
      ((s.warp ⟨0, .warp 1⟩).map (·.origin)) = some none ∧ (s.block 0 0).isSome = true ∧ s.gate true 0 none = .pass ∧
      (s.writeFuncmap 0 5).isAncestor ((s.writeFuncmap 0 5).funcRegion 0) 0 = false) ∧
    (let s := (at_ (.nop always)).updFront 0 0 fun x => { x with park := some parkInfo }
     (s.fresumeParty (2 ^ 14)).map (·.1) = some ⟨0, .front 0⟩ ∧ ((s.block 0 0).bind fun b => b.front.bind (·.park)) = some parkInfo) ∧
    (let s := (at_ (.nop always)).updMatrix 0 0 fun x => { x with park := some parkInfo }
     (s.fresumeParty (2 ^ 15)).map (·.1) = some ⟨0, .matrix 0⟩ ∧ ((s.block 0 0).bind fun b => b.matrix.bind (·.park)) = some parkInfo) ∧
    State.reset.fresumeParty 0 = none := by decide +kernel
def watched (b : Bool) : State :=
  let s : State := { (if b then ground (·.setBlock 0 0 (some (Block.blank 0x5008))) else ground id) with tref := 1000000 }
  let s := { s with mem := { s.mem with mem := Tbl.setList 0 s.mem.mem 0x100000 (bytesOf 64 (6144 * 2 ^ 240 + 112 * 2 ^ 256 + 112 * 2 ^ 264 + 2 ^ 275 + 2 ^ 368)) } }
  s.setRegion 0 { s.region 0 with busySince := some 0 }
theorem fault_event_states :
    (watched false).busy 0 = false ∧ (watched true).busy 0 = true ∧ (watched true).effWdog 0 = 1 ∧ ((watched true).region 0).busySince = some 0 ∧
    0 + 1000000 * 1 ≤ (watched true).tref.toNat ∧
    (({ State.reset with resets := [⟨65535, 0⟩] } : State).resets.any fun z => z.fdom == 65535) = true ∧ (State.reset.die 1).dead = false ∧
    (let s := at_ (.nop always) fun s => s.updWarp w0 fun x => { x with oc := [⟨8, true, false, 0, []⟩] }
     (s.warp w0).map (fun x => x.oc.any fun e => e.name == 8) = some true) ∧
    (let s := (at_ (.nop always)).updMatrix 0 0 fun m => { m with tile := some ⟨.bf16, [], []⟩ }
     s.engineBlock 0 = some 0 ∧ ((s.matrixOf 0 0).bind (·.tile)).isSome = true) := by decide +kernel

/-- HostEvents: interfaces in each state, a stream, reads, BARs, flits in and out of order, keys, and messages with and without power. -/
def interface_ (t : Tdisp) (s : State) : State := s.setTdisp 63 t
theorem host_states :
    State.reset.tdisp 63 = none ∧ ([Tdisp.unlocked, .locked, .run, .error].all fun t => decide ((interface_ t State.reset).tdisp 63 = some t)) = true ∧
    State.reset.host.up = true ∧ State.reset.die0.dead = false ∧ (interface_ .run State.reset).inStream 63 (some 0) = false ∧
    ({ State.reset with host := { State.reset.host with up := false } } : State).host.up = false ∧
    (State.reset.port 23).failed = false ∧ natOf ((bytesOf 8 1).take 8) % 2 ^ 48 ≠ (State.reset.port 23).expect.toNat ∧ (State.reset.port 23).expect = 0 ∧
    ([false, true].all fun k =>
      let x : Port := { Port.init with replay := [⟨k, []⟩] }
      (x.replay.any fun e => e.slot != x.tx) == k) = true ∧
    (let s : State := { State.reset with die1 := { State.reset.die1 with temps := List.replicate 20 60 } }; (s.die 1).temps[19]? = some 60) ∧
    State.reset.power = true ∧ ({ State.reset with power := false } : State).power = false := by decide +kernel
/-- A flit under a key slot whose counters agree at both ends. -/
theorem key_slots_agree : (Port.init.slot false).opened = (Port.init.slot false).sealed ∧ (List.replicate 232 (0 : Byte)).length = 232 := ⟨rfl, List.length_replicate ..⟩

/-! ## Witnesses of clauses on corner cases -/

/-- SpecialFunctionBounds: a finite nonzero argument with a finite result, and arguments of the exact cases at the ends of their ranges. -/
theorem special_bound_case : (∃ n d, fF32.read 0x3F800000 = .fin false n d ∧ n ≠ 0) ∧ ∃ s m e, fF32.read (sfuWord .log2 false 0x3F800000).bits = .fin s m e :=
  ⟨⟨_, _, rfl, by decide⟩, ⟨_, _, _, rfl⟩⟩
def isPower (x : Nat) (k : Int) : Bool :=
  match fF32.read x with | .fin s n d => !s && decide (d ≠ 0 ∧ n * 2 ^ (-k).toNat = d * 2 ^ k.toNat) | _ => false
def isInt (x : Nat) (k : Int) : Bool := match fF32.read x with | .fin s n d => decide (d ≠ 0 ∧ sgn s n = k * d) | _ => false
theorem special_exact_cases : isInt 0xC3150000 (-149) = true ∧ isInt 0x42FE0000 127 = true ∧ isPower 1 (-149) = true ∧ isPower 0x7F000000 127 = true ∧
    isPower 0x00800000 (-126) = true ∧ isPower 0x40800000 (2 * 1) = true := by decide +kernel

/-- OverflowTrapLeavesRegisters: a PK8 whose fourth element overflows E4M3 in lane 31, and an MDRAIN to E4M3 whose second element does. -/
theorem pk8_overflow :
    let i : Instr := .pk8 .e4m3 .rne .trap o3
    let s := at_ i fun s => regs [(7, fun l => if l = 31 then 0x49800000 else 0), (12, all 127)] (blankRegions s)
    Ready s i 0x49 always (ctx s) ∧ NoStat (pd s i) ∧ (ctx s).exec.getLsbD 31 = true ∧
      (pk8Elem .e4m3 .rne .trap 0 (((pd s i).get (ctx s) 12 31).toNat % 256) ((pd s i).get (ctx s) 7 31).toNat).trap = true :=
  ⟨ready_of (by decide +kernel), noStat_of (by decide +kernel) (by decide +kernel), by decide +kernel, by decide +kernel⟩
theorem mdrain_overflow :
    let i : Instr := .mdrain .e4m3 1 1 5 .rne .trap
    let s := at_ i fun s => matter [0, 0, 32, 0x100, 64, 1] (fun m => { m with acc := [(1, 0x49800000)] }) (blankRegions s)
    let p := pd s i
    onB i 0xA5 s = true ∧ noStatB p = true ∧ drainFrom .e4m3 = some .f32 ∧ accFits .f32 0 32 1 32 1 = true ∧ p.scrFits (ctx s) (0x100 + 32) = true ∧
      ((p.mat (ctx s)).map fun m => (List.range 32).all (fun k => (m.accBadAt .f32 k).isNone) &&
        (fmtConvert .e4m3 .rne .trap 0 (accNum .f32 (m.accGet .f32 1).bits)).trap && !(fmtConvert .e4m3 .rne .trap 0 (accNum .f32 (m.accGet .f32 0).bits)).trap) =
        some true := by decide +kernel

/-- BranchesCallsReturns: CALLX from depth 64, and a divergent branch of a slice that holds 20 entries. -/
def full (s : State) : State := s.updWarp w0 fun x => { x with slices := x.slices.map fun e => { e with stack := List.replicate 20 ⟨0x9008, 1, 0⟩ } }
theorem deep_transfers :
    Stands (at_ · (deep 64)) [(0x04, .callx 8 4 always)] ∧ (pd (at_ (.callx 8 4 always) (deep 64)) (.callx 8 4 always)).depthOf (ctx (at_ (.callx 8 4 always) (deep 64))) 0 = 64 ∧
    (let g : Guard := ⟨1, false⟩
     let s := at_ (.bra g 2) fun s => full (preds [(1, 0)] s)
     issuesB s (.bra g 2) 0x01 g = true ∧ ((pd s (.bra g 2)).warp w0).map (fun w => decide (w.overflow (ctx s g) (targets (ctx s g) fun _ => (0x5018, 0)) = 0)) = some false) :=
  ⟨stands_of (by decide +kernel), by decide +kernel, by decide +kernel⟩

/-- NamedBarriers: an arrival that finds another expectation fails the phase. -/
def awry (s : State) : State := s.updBlock 0 0 fun b => { b with bars := [(15, some ⟨3, 31, 5, []⟩)] }
theorem barriers_fail : ([(.bara 15 4 : Instr), .barw 15 4].zip [0x71, 0x70]).all (fun e =>
    let s := at_ e.1 fun s => awry (regs [(4, all 32)] s)
    let p := pd s e.1
    let c := ctx s
    readyB s e.1 e.2 noGuard && !p.migrated c.who && settledB p c.who .blk && decide (p.breg c 4 = 32) && (p.arrivals c).all (·.2.2.isNone) &&
    (match p.block (p.bcore c) (p.bslot c) with | some x => ((x.bar 15).arrive 32 32).2 | none => false)) = true := by decide +kernel

/-- ByteCountingBarriers: BCBARV with no arrival to come, and BCBWAIT and BCBTRY of a record in error. -/
def broken : Bcb := { fresh with err := true, cause := 0x19, eaddr := 0x100 }
theorem barrier_errors : bcbB (.bcbarv 4) 0x74 { fresh with remn := 0 } = true ∧ bcbB (.bcbwait 4 8) 0x75 broken = true ∧ bcbB (.bcbtry 4 8) 0x76 broken = true ∧
    (Cause.ofCode broken.cause).isSome = true := by decide +kernel

/-- StoresJoinTheQueue: a store of more lanes than the queue has room for, and the ends of a store that stood and of a RED of `.fadd`. -/
def entered16 (l : List StoreEnt) (s : State) : State := s.updFlight w0 fun f => { f with entAt := some (s.pcOf w0), sq := ⟨l, []⟩ }
def ended16 (i : Instr) (op : Nat) (l : List StoreEnt) : Bool :=
  let s := at_ i fun s => entered16 l (blankRegions s)
  let p := pd s i
  let f := p.flight w0
  issuesB s i op always && noStatB p && decide (f.relAt ≠ some (ctx s).pc ∧ f.entAt = some (ctx s).pc ∧ f.sq.ents.length ≤ 16) &&
  f.sq.ents.all fun e => !e.isFadd || e.done || e.lost
theorem stores_stand_and_end :
    (let s := at_ (.st mem) fun s => storing (List.replicate 15 queued) (few s)
     stB mem s = true ∧ 16 < ((pd s (.st mem)).flight w0).sq.ents.length + 2) ∧
    ended16 (.st mem) 0x63 (List.replicate 16 queued) = true ∧ ended16 (.sts mem) 0x64 [] = true ∧ ended16 (.stmc mem) 0x68 [queued] = true ∧
    ended16 (.red { atm with d := 0, op := .faddF32 }) 0x67 [{ queued with rmw := some (.faddF32, 7), done := true }] = true := by decide +kernel

/-- StoresLeaveTheQueue: an entry that another party of the core has performed ahead of an older one. -/
theorem a_store_ahead :
    (aheadEnts [queued, { behind with done := true }]).map (·.addr) = [0x6200] ∧
    (let s := with_ queued fun s => s.setWarp ⟨0, .warp 1⟩ (some { Warp.start 0 1 16 0x5008 with flight := { Flight.init with
        sq := ⟨[{ queued with addr := 0x7000 }, { behind with done := true }], []⟩ } })
     s.readyStores w0 = [queued]) := by decide +kernel

/-- StoresAndResultsArrive: the home's acknowledgement of a GA store. -/
theorem an_ack_arrives :
    (let e : StoreEnt := { queued with ga := true, sent := true, home := 1 }
     let s := onLink .gaAck (at_ (.nop always) (storing [e]))
     ((s.msgReady 0).map (·.kind)) = some .gaAck ∧ ((s.msgReady 0).bind fun m => s.gaEntry m) = some e ∧ e.group = 0) := by decide +kernel

/-- RangeWords: a DISC and a CLAIM of length 0 while a store waits in the queue. -/
theorem empty_ranges :
    (let i : Instr := .disc 8 4 always
     let s := at_ i fun s => storing [queued] (lanes 2 (regs [(4, fun l => 0x6000 + 32 * l)] s))
     (issuesB s i 0x6A always && !((pd s i).flight w0).begun (ctx s).pc && lanesAll (ctx s) fun l =>
       decide ((pd s i).get (ctx s) 8 l = 0 ∧ ((pd s i).get64 (ctx s) 4 l).toNat % 32 = 0)) = true) ∧
    (let i : Instr := .claim 8 4 always 0
     let s := at_ i fun s => storing [queued] (regs [(4, all 0x6000)] s)
     (issuesB s i 0x6D always && ((pd s i).get (ctx s) 8 (lowest (ctx s).exec) == 0)) = true) := by decide +kernel

/-- FrontWords: MSTOP finds a parked stream, and one that it has stopped. -/
theorem mstop_finds : ([(fun m => { m with park := some parkInfo }), (fun m => { m with running := false, stop := true })] : List (Matrix → Matrix)).all (fun f =>
    let s := front .mstop fun s => s.updMatrix 0 0 f
    issuesB s .mstop 0x92 noGuard && ((pd s .mstop).owed (ctx s).who).isEmpty && ((pd s .mstop).matrixOf 0 0).any fun m => (m.running && m.park.isSome) || (!m.running && m.stop)) = true := by
  decide +kernel

/-- HandlerWords: a record with a depth of 65 in its slice 7, in a split entry and in its return state. -/
theorem records_refused : ([[(0x81 + 8 * 7, 65)], [(0x82 + 8 * 7, 21)], [(0x82, 1), (0xC0 + 12, 65)], [(0x20, 1), (0x22, 65)], [(0x588, 1)]] : List (List (Nat × Nat))).all (fun l =>
    recordBad 16 ((List.range 16384).map fun k => if k = 0 then 16 else BitVec.ofNat 8 (((l.find? fun e => e.1 == k).map (·.2)).getD 0))) = true := by decide +kernel

/-- LaunchEvents: a head of a valid queue competes; an ingest write whose page a CLAIM moves waits. -/
theorem a_head_competes :
    (let s := ground (posted card5)
     ((s.queue 3).cards.map (·.waiting)) = [false] ∧ (s.queue 3).valid = true ∧ s.headRun 3 = none ∧ s.resets = []) ∧
    (let s := aperture id fun s => let s := queue3 [] s; { s with mem := { s.mem with moving := [⟨w0, 0, 0, 0x40000000⟩] } }
     let x := s.ingest 0
     (match s.tick.deviceStore (s.effAsid x.region) 2 (x.base + 4000) (List.replicate 128 7) with | .error c => decide (c = .migrating) | .ok _ => false) = true) := by decide +kernel

/-- FaultEvents: both dies live before the bridge link fails; the sites of a frame header and of an L1 line. -/
theorem more_error_sites : State.reset.die0.dead = false ∧ State.reset.die1.dead = false ∧ ((at_ (.nop always)).warp w0).isSome = true ∧
    (((at_ (.nop always)).updCore 0 fun k => { k with l1 := { k.l1 with lines := [0xC0] } }).core 0).l1.lines.contains (0x1801 / 32) = true := by decide +kernel

end Sys2Proof.Tests
end

section
/-! SUPPORT. What the device's own operations leave alone: its stores to memory, its fault records, its watchdog notes, its interrupts.
An operation is described by the parts of the state that it may touch: with those parts blanked the state is as it was. -/

namespace Sys2Proof.Laws

open Sys2Proof Sys2Proof.Machine

/-- A fold keeps what each of its steps keeps. -/
theorem foldl_keeps {α β γ : Type} (g : α → γ) {f : α → β → α} (h : ∀ a b, g (f a b) = g a) (l : List β) (a : α) :
    g (l.foldl f a) = g a := by
  induction l generalizing a with
  | nil => rfl
  | cons b l ih => rw [List.foldl_cons, ih, h]

/-- A part of the state that a blanked state still has is as it was where the blanked states agree. -/
theorem part_of_off {γ : Type} (off : State → State) (p : State → γ) (hp : ∀ s, p (off s) = p s) {s t : State}
    (h : off t = off s) : p t = p s := by
  rw [← hp t, h, hp s]

/-! The device's stores -/

/-- The state without memory and without cores: a store of the device touches both. -/
def offMem (s : State) : State := { s with mem := MemState.init, cores := [] }

theorem offMem_fixSectors (s : State) (a n : Nat) : offMem (s.fixSectors a n) = offMem s :=
  foldl_keeps offMem (f := fun s k => s.fixSector a n k) (fun _ _ => rfl) (sectorsOf a n) s

theorem offMem_homeStore (s : State) (core a : Nat) (bs : List Byte) : offMem (s.homeStore core a bs) = offMem s :=
  offMem_fixSectors s a bs.length

theorem offMem_gaStore (s : State) (core a : Nat) (bs : List Byte) : offMem (s.gaStore core a bs) = offMem s :=
  offMem_homeStore s core a bs

@[simp] theorem gaStore_queues (s : State) (c a : Nat) (bs : List Byte) : (s.gaStore c a bs).queues = s.queues :=
  part_of_off offMem State.queues (fun _ => rfl) (offMem_gaStore s c a bs)
@[simp] theorem gaStore_host (s : State) (c a : Nat) (bs : List Byte) : (s.gaStore c a bs).host = s.host :=
  part_of_off offMem State.host (fun _ => rfl) (offMem_gaStore s c a bs)

/-- A store of the device does not look at the host's side. -/
theorem fixSectors_withHost (s : State) (h : HostIf) (a n : Nat) :
    ({ s with host := h } : State).fixSectors a n = { s.fixSectors a n with host := h } := by
  unfold State.fixSectors
  induction sectorsOf a n generalizing s with
  | nil => rfl
  | cons k l ih => exact ih (s.fixSector a n k)

theorem gaStore_withHost (s : State) (h : HostIf) (core a : Nat) (bs : List Byte) :
    ({ s with host := h } : State).gaStore core a bs = { s.gaStore core a bs with host := h } := by
  simp only [State.gaStore, State.homeStore, fixSectors_withHost]
  rfl

/-- The blocks of a core after a change of its other parts. -/
theorem block_updCore (s : State) (c d b : Nat) {f : Core → Core} (hf : ∀ k, (f k).blocks = k.blocks) :
    (s.updCore c f).block d b = s.block d b := by
  by_cases h : d = c
  · subst h
    simp [State.block, hf]
  · simp [State.block, core_updCore_other _ _ h]

theorem blocks_get_map (f : Nat × Core → Nat × Core) (hkey : ∀ e, (f e).1 = e.1) (hblocks : ∀ e, (f e).2.blocks = e.2.blocks)
    (t : Tbl Core) (c : Nat) : (Tbl.get Core.init (t.map f) c).blocks = (Tbl.get Core.init t c).blocks := by
  induction t with
  | nil => rfl
  | cons e t ih =>
    rw [List.map_cons, Tbl_get_cons (k' := e.1) (v := e.2), Tbl_get_cons (k' := (f e).1) (v := (f e).2), hkey]
    split
    · exact hblocks e
    · exact ih

theorem block_noteL1 (s : State) (d ex a n c b : Nat) : (s.noteL1 d ex a n).block c b = s.block c b := by
  refine congrArg (Tbl.get none · b) (blocks_get_map _ (fun e => ?_) (fun e => ?_) s.cores c)
  all_goals
    dsimp only
    split
    · split <;> rfl
    · rfl

@[simp] theorem block_gaStore (s : State) (core a : Nat) (bs : List Byte) (c b : Nat) :
    (s.gaStore core a bs).block c b = s.block c b := by
  calc (s.gaStore core a bs).block c b
      = (((s.fixSectors a bs.length).noteL1 0 core a bs.length).noteL1 1 core a bs.length).block c b := rfl
    _ = (s.fixSectors a bs.length).block c b := by rw [block_noteL1, block_noteL1]
    _ = s.block c b := foldl_keeps (fun s => s.block c b) (f := fun s k => s.fixSector a bs.length k) (fun _ _ => rfl) _ s

/-! The watchdog's notes -/

/-- The state without its regions: the watchdog's notes touch them alone. -/
def offRegions (s : State) : State := { s with regions := [] }

theorem offRegions_noteBusy (s : State) (again : Bool) (r : Nat) : offRegions (s.noteBusy again r) = offRegions s := by
  unfold State.noteBusy
  rw [apply_ite offRegions]
  exact ite_self _

theorem offRegions_noteAll (s : State) : offRegions s.noteAll = offRegions s :=
  foldl_keeps offRegions (fun s r => offRegions_noteBusy s false r) _ s

@[simp] theorem noteBusy_queues (s : State) (again : Bool) (r : Nat) : (s.noteBusy again r).queues = s.queues :=
  part_of_off offRegions State.queues (fun _ => rfl) (offRegions_noteBusy s again r)
@[simp] theorem noteBusy_cards (s : State) (again : Bool) (r : Nat) : (s.noteBusy again r).cards = s.cards :=
  part_of_off offRegions State.cards (fun _ => rfl) (offRegions_noteBusy s again r)
@[simp] theorem noteBusy_cores (s : State) (again : Bool) (r : Nat) : (s.noteBusy again r).cores = s.cores :=
  part_of_off offRegions State.cores (fun _ => rfl) (offRegions_noteBusy s again r)
@[simp] theorem noteAll_queues (s : State) : s.noteAll.queues = s.queues := part_of_off offRegions State.queues (fun _ => rfl) (offRegions_noteAll s)
@[simp] theorem noteAll_cards (s : State) : s.noteAll.cards = s.cards := part_of_off offRegions State.cards (fun _ => rfl) (offRegions_noteAll s)
@[simp] theorem noteAll_cores (s : State) : s.noteAll.cores = s.cores := part_of_off offRegions State.cores (fun _ => rfl) (offRegions_noteAll s)

@[simp] theorem block_setRegion (s : State) (r : Nat) (x : Region) (c b : Nat) : (s.setRegion r x).block c b = s.block c b := rfl
@[simp] theorem block_noteBusy (s : State) (again : Bool) (r c b : Nat) : (s.noteBusy again r).block c b = s.block c b := by
  simp only [State.block, State.core, noteBusy_cores]
@[simp] theorem block_noteAll (s : State) (c b : Nat) : s.noteAll.block c b = s.block c b := by
  simp only [State.block, State.core, noteAll_cores]

/-! Regions' chains -/

theorem rcb_congr {s t : State} (hregions : t.regions = s.regions) (hmem : t.mem.mem = s.mem.mem) (hregs : t.regs = s.regs) (r : Nat) :
    t.rcb r = s.rcb r := by
  simp only [State.rcb, State.region, State.homeBytes, hregions, hmem, hregs]

/-- A chain is read from the regions as the device holds them, from memory and from REGTAB (02 R18, R22). -/
theorem chain_congr {s t : State} (hregions : t.regions = s.regions) (hmem : t.mem.mem = s.mem.mem) (hregs : t.regs = s.regs) (r : Nat) :
    t.chain r = s.chain r := by
  have hrcb := rcb_congr hregions hmem hregs
  have hfuel : ∀ n r, t.chainFrom n r = s.chainFrom n r := by
    intro n
    induction n with
    | zero => intro r; rfl
    | succ n ih =>
      intro r
      have hbad : t.parentBad r = s.parentBad r := by
        unfold State.parentBad State.parentAddr
        rw [hrcb, hregs]
      simp only [State.chainFrom, hbad, State.parent, State.parentAddr, hrcb, hregs, ih]
  exact hfuel 17 r

theorem isAncestor_congr {s t : State} (hregions : t.regions = s.regions) (hmem : t.mem.mem = s.mem.mem) (hregs : t.regs = s.regs)
    (a r : Nat) : t.isAncestor a r = s.isAncestor a r := by
  simp only [State.isAncestor, chain_congr hregions hmem hregs]

theorem source_congr {s t : State} (hregions : t.regions = s.regions) (hmem : t.mem.mem = s.mem.mem) (hregs : t.regs = s.regs)
    (i r : Nat) : t.source i r = s.source i r := by
  simp only [State.source, chain_congr hregions hmem hregs, rcb_congr hregions hmem hregs]

theorem eff_congr {s t : State} (hregions : t.regions = s.regions) (hmem : t.mem.mem = s.mem.mem) (hregs : t.regs = s.regs)
    (i lo n r : Nat) : t.eff i lo n r = s.eff i lo n r := by
  simp only [State.eff, source_congr hregions hmem hregs, rcb_congr hregions hmem hregs]

theorem regionInvalid_congr {s t : State} (hregions : t.regions = s.regions) (hmem : t.mem.mem = s.mem.mem) (hregs : t.regs = s.regs)
    (r : Nat) : t.regionInvalid r = s.regionInvalid r := by
  have hparent : ∀ a, t.parentBad a = s.parentBad a := by
    intro a
    unfold State.parentBad State.parentAddr
    rw [rcb_congr hregions hmem hregs, hregs]
  have hbad : ∀ a, t.rcbBad a = s.rcbBad a := by
    intro a
    unfold State.rcbBad
    rw [rcb_congr hregions hmem hregs, hparent]
  have hchain : ∀ a, t.chainBad a = s.chainBad a := by
    intro a
    unfold State.chainBad
    rw [chain_congr hregions hmem hregs]
  simp only [State.regionInvalid, chain_congr hregions hmem hregs, hbad, hchain, hregs]

@[simp] theorem effAsid_tick (s : State) (r : Nat) : s.tick.effAsid r = s.effAsid r :=
  eff_congr (s := s) (t := s.tick) rfl rfl rfl 2 208 16 r
@[simp] theorem regionInvalid_tick (s : State) (r : Nat) : s.tick.regionInvalid r = s.regionInvalid r :=
  regionInvalid_congr (s := s) (t := s.tick) rfl rfl rfl r
@[simp] theorem isAncestor_tick (s : State) (a r : Nat) : s.tick.isAncestor a r = s.isAncestor a r :=
  isAncestor_congr (s := s) (t := s.tick) rfl rfl rfl a r

/-! Interrupts -/

/-- The state without the interrupts counted. -/
def offMsix (s : State) : State := { s with host := { s.host with msix := [] } }

/-- A vector of one function, raised where the function reaches the region (13 R243). -/
def raiseFor (v r : Nat) (s : State) (f : Nat) : State :=
  if s.isAncestor (s.funcRegion f) r then
    { s with host := { s.host with msix := Tbl.upd 0 s.host.msix (3 * f + v) (· + 1) } }
  else s

theorem raise_eq (s : State) (v r : Nat) : s.raise v r = (List.range 64).foldl (raiseFor v r) s := rfl

theorem offMsix_raiseFor (v r : Nat) (s : State) (f : Nat) : offMsix (raiseFor v r s f) = offMsix s := by
  unfold raiseFor
  split <;> rfl

theorem offMsix_raise (s : State) (v r : Nat) : offMsix (s.raise v r) = offMsix s :=
  foldl_keeps offMsix (offMsix_raiseFor v r) _ s

theorem offMsix_raiseIngest (s : State) (r : Nat) : offMsix (s.raiseIngest r) = offMsix s := by
  unfold State.raiseIngest
  split
  · exact offMsix_raise s 2 r
  · rfl

@[simp] theorem raiseIngest_mem (s : State) (r : Nat) : (s.raiseIngest r).mem = s.mem :=
  part_of_off offMsix State.mem (fun _ => rfl) (offMsix_raiseIngest s r)
theorem raiseIngest_windows (s : State) (r : Nat) : (s.raiseIngest r).host.ingest = s.host.ingest :=
  part_of_off offMsix (fun t => t.host.ingest) (fun _ => rfl) (offMsix_raiseIngest s r)
@[simp] theorem ingest_raiseIngest (s : State) (r w : Nat) : (s.raiseIngest r).ingest w = s.ingest w :=
  congrArg (Tbl.get Ingest.init · w) (raiseIngest_windows s r)

theorem reach_raiseFor (v r : Nat) (s : State) (f g : Nat) :
    (raiseFor v r s f).isAncestor ((raiseFor v r s f).funcRegion g) r = s.isAncestor (s.funcRegion g) r := by
  have hoff := offMsix_raiseFor v r s f
  have hregs : (raiseFor v r s f).regs = s.regs := part_of_off offMsix State.regs (fun _ => rfl) hoff
  have hfunc : (raiseFor v r s f).funcRegion g = s.funcRegion g := by simp only [State.funcRegion, hregs]
  rw [hfunc]
  exact isAncestor_congr (part_of_off offMsix State.regions (fun _ => rfl) hoff)
    (part_of_off offMsix (fun t => t.mem.mem) (fun _ => rfl) hoff) hregs _ r

/-- Each function among l that reaches the region has its vector raised once. -/
theorem msix_raiseFor_foldl (v r g : Nat) (l : List Nat) (hl : l.Nodup) (s : State)
    (hr : s.isAncestor (s.funcRegion g) r = true) :
    Tbl.get 0 (l.foldl (raiseFor v r) s).host.msix (3 * g + v) = Tbl.get 0 s.host.msix (3 * g + v) + if g ∈ l then 1 else 0 := by
  induction l generalizing s with
  | nil => simp
  | cons f l ih =>
    obtain ⟨hf, hl⟩ := List.nodup_cons.mp hl
    rw [List.foldl_cons, ih hl _ ((reach_raiseFor v r s f g).trans hr)]
    by_cases h : g = f
    · subst h
      simp [raiseFor, hr, hf, Tbl.upd]
    · have hkey : 3 * g + v ≠ 3 * f + v := by omega
      have hkeep : Tbl.get 0 (raiseFor v r s f).host.msix (3 * g + v) = Tbl.get 0 s.host.msix (3 * g + v) := by
        unfold raiseFor
        split
        · simp only [Tbl.upd, Tbl_get_set_other _ _ _ hkey]
        · rfl
      simp [hkeep, h]

theorem msix_raise (s : State) {v r g : Nat} (hg : g < 64) (hr : s.isAncestor (s.funcRegion g) r = true) :
    Tbl.get 0 (s.raise v r).host.msix (3 * g + v) = Tbl.get 0 s.host.msix (3 * g + v) + 1 := by
  rw [raise_eq, msix_raiseFor_foldl v r g _ List.nodup_range s hr]
  simp [hg]

/-! Fault records -/

/-- The state without what a fault record touches: memory, cores, registers, the host's side. -/
def offPost (s : State) : State := { s with mem := MemState.init, cores := [], regs := PkgRegs.init, host := HostIf.init }

theorem offPost_gaStore (s : State) (c a : Nat) (bs : List Byte) : offPost (s.gaStore c a bs) = offPost s :=
  part_of_off offMem offPost (fun _ => rfl) (offMem_gaStore s c a bs)
theorem offPost_raise (s : State) (v r : Nat) : offPost (s.raise v r) = offPost s :=
  part_of_off offMsix offPost (fun _ => rfl) (offMsix_raise s v r)

/-- A record is counted as dropped or held for die 1, or it is stored and the interrupt raised (12 R230, R240). -/
theorem post_cases (s : State) (region : Nat) (r : BitVec 512) :
    (∃ x h, s.post region r = { s with regs := x, host := h }) ∨
    ∃ a bs x, s.post region r = State.raise { s.gaStore 224 a bs with regs := x } 0 region := by
  unfold State.post
  extract_lets drop log
  split
  · split
    · exact .inl ⟨_, _, rfl⟩
    · exact .inl ⟨_, _, rfl⟩
  · split
    · exact .inl ⟨_, _, rfl⟩
    · exact .inr ⟨_, _, _, rfl⟩

theorem offPost_post (s : State) (region : Nat) (r : BitVec 512) : offPost (s.post region r) = offPost s := by
  obtain ⟨x, h, e⟩ | ⟨a, bs, x, e⟩ := post_cases s region r
  · rw [e]; rfl
  · rw [e, offPost_raise]
    exact offPost_gaStore s 224 a bs

@[simp] theorem postDevice_cards (s : State) (src : Nat) (x : Cause) (a p c : DWord) (slot core r : Nat) :
    (s.postDevice src x a p c slot core r).cards = s.cards := part_of_off offPost State.cards (fun _ => rfl) (offPost_post s r _)

theorem block_raise (s : State) (v r c b : Nat) : (s.raise v r).block c b = s.block c b :=
  part_of_off offMsix (fun t : State => t.block c b) (fun _ => rfl) (offMsix_raise s v r)

@[simp] theorem block_postDevice (s : State) (src : Nat) (x : Cause) (a p k : DWord) (slot core r c b : Nat) :
    (s.postDevice src x a p k slot core r).block c b = s.block c b := by
  obtain ⟨x, h, e⟩ | ⟨a, bs, x, e⟩ := post_cases s r (s.record ⟨x, src, false, true, none, 0, a, p, slot, false, core, r, 0, k⟩)
  · rw [State.postDevice, e]; rfl
  · rw [State.postDevice, e, block_raise]
    exact block_gaStore s 224 a bs c b

end Sys2Proof.Laws
end

section
/-! SUPPORT. The next chunk of a card (10 R194), and the order in which the dispatcher takes the cards that compete (10 R193). -/

namespace Sys2Proof.Launch

open Sys2Proof Sys2Proof.Machine Sys2Proof.Safety Sys2Proof.Laws

/-! Chunks -/

/-- What a chunk's share is divided by: CDIV for each core of the region (10 R194). -/
def chunkDivisor (s : State) (c : BitVec 1024) : Nat :=
  cardDiv c * (min (s.effCores 0 (cardRegion c)) 112 + min (s.effCores 1 (cardRegion c)) 112)

/-- The chunk is the share, rounded up, but at least CFLOOR and at most what remains. -/
theorem chunkSize_eq (s : State) (c : BitVec 1024) (rem : Nat) (hd : 0 < chunkDivisor s c) :
    ∃ n, rem ≤ n * chunkDivisor s c ∧ n * chunkDivisor s c < rem + chunkDivisor s c ∧ s.chunkSize c rem = min rem (max (cardFloor c) n) := by
  refine ⟨(rem + chunkDivisor s c - 1) / chunkDivisor s c, ?_, ?_, rfl⟩
  all_goals
    have hdiv := Nat.div_add_mod' (rem + chunkDivisor s c - 1) (chunkDivisor s c)
    have hmod := Nat.mod_lt (rem + chunkDivisor s c - 1) hd
    omega

theorem chunkSize_le (s : State) (c : BitVec 1024) (rem : Nat) : s.chunkSize c rem ≤ rem := Nat.min_le_left ..

/-! The order of keys -/

theorem lexLt_asymm (a b : List Int) (h : lexLt a b = true) : lexLt b a = false := by
  induction a generalizing b with
  | nil => simp [lexLt] at h
  | cons x a ih =>
    cases b with
    | nil => rfl
    | cons y b =>
      simp only [lexLt, Bool.or_eq_true, decide_eq_true_eq, Bool.and_eq_true, beq_iff_eq, Bool.or_eq_false_iff,
        decide_eq_false_iff_not, Bool.and_eq_false_iff, beq_eq_false_iff_ne] at h ⊢
      obtain hlt | ⟨rfl, hlt⟩ := h
      · exact ⟨by omega, .inl (by omega)⟩
      · exact ⟨by omega, .inr (ih b hlt)⟩

/-- A key of as many parts is not after another. -/
theorem not_lexLt_trans (a b c : List Int) (hab : a.length = b.length) (hbc : b.length = c.length)
    (h1 : lexLt b a = false) (h2 : lexLt c b = false) : lexLt c a = false := by
  induction a generalizing b c with
  | nil => cases c <;> rfl
  | cons x a ih =>
    cases b with
    | nil => simp at hab
    | cons y b =>
      cases c with
      | nil => rfl
      | cons z c =>
        simp only [lexLt, Bool.or_eq_false_iff, decide_eq_false_iff_not, Bool.and_eq_false_iff, beq_eq_false_iff_ne] at h1 h2 ⊢
        obtain ⟨hyx, hb⟩ := h1
        obtain ⟨hzy, hc⟩ := h2
        refine ⟨by omega, ?_⟩
        by_cases hzx : z = x
        · obtain rfl : y = x := by omega
          subst hzx
          exact .inr (ih b c (by simpa using hab) (by simpa using hbc) (by simpa using hb) (by simpa using hc))
        · exact .inl hzx

/-- In the order of keys: the later does not come before the earlier. -/
def Ranked (a b : Cand) : Prop := lexLt b.key a.key = false

theorem mem_insertCand {x c : Cand} {l : List Cand} : c ∈ insertCand x l ↔ c = x ∨ c ∈ l := by
  induction l with
  | nil => simp [insertCand]
  | cons y l ih =>
    unfold insertCand
    split
    · simp only [List.mem_cons, ih]
      tauto
    · simp only [List.mem_cons]

theorem mem_foldr_insertCand {c : Cand} {l : List Cand} : c ∈ l.foldr insertCand [] ↔ c ∈ l := by
  induction l with
  | nil => rfl
  | cons x l ih => rw [List.foldr_cons, mem_insertCand, ih, List.mem_cons]

theorem insertCand_sorted {n : Nat} {x : Cand} {l : List Cand} (hx : x.key.length = n) (hl : ∀ c ∈ l, c.key.length = n)
    (hs : l.Pairwise Ranked) : (insertCand x l).Pairwise Ranked := by
  induction l with
  | nil => exact List.pairwise_singleton _ _
  | cons y l ih =>
    obtain ⟨hy, hs'⟩ := List.pairwise_cons.mp hs
    have hlen := List.forall_mem_cons.mp hl
    unfold insertCand
    split
    case isTrue hlt =>
      refine List.pairwise_cons.mpr ⟨fun z hz => ?_, ih hlen.2 hs'⟩
      obtain rfl | hz := mem_insertCand.mp hz
      · exact lexLt_asymm _ _ hlt
      · exact hy z hz
    case isFalse hlt =>
      have hxy : Ranked x y := by simpa [Ranked] using hlt
      refine List.pairwise_cons.mpr ⟨fun z hz => ?_, hs⟩
      obtain rfl | hz := List.mem_cons.mp hz
      · exact hxy
      · exact not_lexLt_trans _ y.key _ (hx.trans hlen.1.symm) (hlen.1.trans (hlen.2 z hz).symm) hxy (hy z hz)

theorem sorted_foldr_insertCand {n : Nat} {l : List Cand} (hl : ∀ c ∈ l, c.key.length = n) :
    (l.foldr insertCand []).Pairwise Ranked := by
  induction l with
  | nil => exact List.Pairwise.nil
  | cons x l ih =>
    obtain ⟨hx, hl⟩ := List.forall_mem_cons.mp hl
    exact insertCand_sorted hx (fun c hc => hl c (mem_foldr_insertCand.mp hc)) (ih hl)

/-! What ranks a candidate -/

/-- The region of a candidate, the queue and the place among the posts of its card, and whether it is a block placed again. -/
def candRegion (c : Cand) : Nat := match c.kind with | .fresh _ q => cardRegion q.card | .saved _ x => x.block.dealt.region
def savedPost (s : State) (x : Saved) : Nat × Nat := ((s.run x.block.dealt.run).map fun r => (r.queue, r.seq)).getD (0, 0)
def candQueue (s : State) (c : Cand) : Nat := match c.kind with | .fresh q _ => q | .saved _ x => (savedPost s x).1
def candPosted (s : State) (c : Cand) : Nat := match c.kind with | .fresh _ q => q.seq | .saved _ x => (savedPost s x).2
def candRank (c : Cand) : Nat := match c.kind with | .fresh .. => 1 | .saved .. => 0
def lastDealt (s : State) (r : Nat) : Nat := match (s.region r).dealt with | some t => t + 1 | none => 0

theorem key_of_mem_candidates {s : State} {c : Cand} (h : c ∈ s.candidates) :
    c.key = s.keyOf (candRegion c) (candQueue s c) (candPosted s c) (candRank c) := by
  unfold State.candidates at h
  dsimp only at h
  rw [mem_foldr_insertCand, List.mem_filter, List.mem_append, List.mem_filterMap, List.mem_filterMap] at h
  obtain ⟨⟨⟨q, x⟩, -, hx⟩ | ⟨i, -, hi⟩, -⟩ := h
  · cases hcards : x.cards with
    | nil => simp [hcards] at hx
    | cons y rest =>
      simp only [hcards, Option.ite_none_right_eq_some, Option.some.injEq] at hx
      obtain ⟨-, rfl⟩ := hx
      rfl
  · obtain ⟨x, -, hx⟩ := Option.bind_eq_some_iff.mp hi
    obtain ⟨r, hr, rfl⟩ := Option.map_eq_some_iff.mp hx
    simp [candRegion, candQueue, candPosted, candRank, savedPost, hr]

theorem candidates_ranked (s : State) : s.candidates.Pairwise Ranked := by
  have hlen : ∀ c ∈ s.candidates, c.key.length = 6 := fun c hc => by rw [key_of_mem_candidates hc]; rfl
  unfold State.candidates at hlen ⊢
  exact sorted_foldr_insertCand fun c hc => hlen c (mem_foldr_insertCand.mpr hc)

theorem keyOf_eq (s : State) (r q n k : Nat) :
    s.keyOf r q n k = [-(s.effPrio r : Int), (lastDealt s r : Int) - 1, (r : Int), -((s.queue q).prio : Int), (n : Int), (k : Int)] := by
  unfold State.keyOf lastDealt
  cases (s.region r).dealt <;> simp

/-- The dispatcher's order (10 R193, entry 29): effective priority, the region longest not dealt, its number, the queue's priority, the order of
posting, and a block placed again before its card's records. -/
def Precedes (s : State) (a b : Cand) : Prop :=
  s.effPrio (candRegion b) ≤ s.effPrio (candRegion a) ∧ (s.effPrio (candRegion a) = s.effPrio (candRegion b) →
    lastDealt s (candRegion a) ≤ lastDealt s (candRegion b) ∧ (lastDealt s (candRegion a) = lastDealt s (candRegion b) →
      candRegion a ≤ candRegion b ∧ (candRegion a = candRegion b →
        (s.queue (candQueue s b)).prio ≤ (s.queue (candQueue s a)).prio ∧
          ((s.queue (candQueue s a)).prio = (s.queue (candQueue s b)).prio →
            candPosted s a ≤ candPosted s b ∧ (candPosted s a = candPosted s b → candRank a ≤ candRank b)))))

theorem Ranked.precedes {s : State} {a b : Cand} (h : Ranked a b) (ha : a ∈ s.candidates) (hb : b ∈ s.candidates) : Precedes s a b := by
  unfold Ranked at h
  rw [key_of_mem_candidates ha, key_of_mem_candidates hb] at h
  simp only [keyOf_eq, lexLt, Bool.or_eq_false_iff, decide_eq_false_iff_not, Bool.and_eq_false_iff, beq_eq_false_iff_ne] at h
  unfold Precedes
  omega

theorem candidates_precede (s : State) : s.candidates.Pairwise (Precedes s) :=
  (candidates_ranked s).imp_of_mem fun ha hb h => h.precedes ha hb

/-- A key that a table holds is the first of its entries with that key. -/
theorem mem_of_queue_cards {s : State} {q : Nat} {c : QCard} {rest : List QCard} (h : (s.queue q).cards = c :: rest) :
    (q, s.queue q) ∈ s.queues := by
  unfold State.queue at h ⊢
  generalize s.queues = t at h ⊢
  induction t with
  | nil => cases h
  | cons e t ih =>
    obtain ⟨k, x⟩ := e
    rw [Tbl_get_cons] at h ⊢
    split at h
    case isTrue hk => simp [hk]
    case isFalse hk => simp [hk, ih h]

/-- The cards that compete: the head of a valid queue that waits for nothing, of a domain that is not under reset. -/
theorem head_competes {s : State} {q : Nat} {c : QCard} {rest : List QCard} (hcards : (s.queue q).cards = c :: rest)
    (hvalid : (s.queue q).valid = true) (hready : c.waiting = false) (hrun : s.headRun q = none)
    (hreset : ∀ z ∈ s.resets, z.fdom ≠ s.effFdom (cardRegion c.card)) : ∃ x ∈ s.candidates, x.kind = .fresh q c := by
  refine ⟨⟨s.keyOf (cardRegion c.card) q c.seq 1, .fresh q c⟩, ?_, rfl⟩
  unfold State.candidates
  dsimp only
  rw [mem_foldr_insertCand, List.mem_filter]
  refine ⟨List.mem_append_left _ (List.mem_filterMap.mpr ⟨(q, s.queue q), mem_of_queue_cards hcards, ?_⟩), ?_⟩
  · simp only [hcards, hvalid, hready, hrun]
    rfl
  · simpa using hreset

end Sys2Proof.Launch
end

section
/-! SUPPORT. The block that a chunk becomes (10 R194, 02 R24), and the card that the dispatcher deals or refuses (10 R185, R193). -/

namespace Sys2Proof.Launch

open Sys2Proof Sys2Proof.Machine Sys2Proof.Safety Sys2Proof.Laws

/-! Installing a fresh block -/

theorem takeRingSlot_no_ring {s : State} {core : Nat} {x : Cmd} (h : ∀ id, s.ring core x.blk id = none) : s.takeRingSlot core x = s := by
  unfold State.takeRingSlot
  split
  · rfl
  · rw [h]

/-- The commands of a block without rings take no slot. -/
theorem takeRingSlot_foldl_no_ring {s : State} {core slot : Nat} {l : List Cmd} (hl : ∀ y ∈ l, y.blk = slot)
    (h : ∀ id, s.ring core slot id = none) : l.foldl (fun s y => s.takeRingSlot core y) s = s := by
  induction l with
  | nil => rfl
  | cons y l ih =>
    obtain ⟨rfl, hl⟩ := List.forall_mem_cons.mp hl
    rw [List.foldl_cons, takeRingSlot_no_ring h]
    exact ih hl

theorem block_setDie (s : State) (d : Nat) (x : Die) (c b : Nat) : (s.setDie d x).block c b = s.block c b := by
  simp only [State.block, State.core, setDie_cores]

/-- THE PLACEMENT of a fresh block: it stands on the core under what it was dealt under, and no card is touched. -/
theorem install_fresh (s : State) (core : Nat) (d : Dealt) (roles : Option (BitVec 512)) :
    (s.install core (freshSaved d roles)).cards = s.cards ∧
    ∃ slot b, (s.install core (freshSaved d roles)).block core slot = some b ∧ b.dealt = { d with age := s.seq } := by
  unfold State.install
  extract_lets k slot slots move logs logMove b region src placed started sSeq sPool sBlock sWarps sLogs back sCmds sRings die sDie y
  have hblock : sBlock.block core slot = some started := block_setBlock ..
  have hwarps : sWarps.block core slot = some started :=
    (foldl_keeps (fun s : State => s.block core slot) (by intro s p; exact block_setWarp ..) _ sBlock).trans hblock
  have hcards : sWarps.cards = s.cards := foldl_keeps State.cards (by intro s p; exact setWarp_cards ..) _ sBlock
  have hcmds : sCmds.block core slot = some started :=
    (block_updCore sWarps core core slot (by intro k; unfold Core.openAccount; split <;> rfl)).trans hwarps
  have hring : ∀ id, sCmds.ring core slot id = none := by
    intro id
    simp only [State.ring, hcmds]
    rfl
  have hrings : sRings = sCmds := takeRingSlot_foldl_no_ring (fun y hy => by simpa using (List.mem_filter.mp hy).2) hring
  refine ⟨?_, slot, started, ?_, rfl⟩
  · rw [noteBusy_cards, setRegion_cards, setDie_cards, hrings]
    exact hcards
  · rw [block_noteBusy, block_setRegion, block_setDie, hrings]
    exact hcmds

theorem run_congr {s t : State} (h : t.cards = s.cards) (run : Nat) : t.run run = s.run run := congrArg (Tbl.get none · run) h

/-- A run after the grab of its next chunk (10 R194). -/
def grabbed (s : State) (r : CardRun) : CardRun :=
  { r with remaining := r.remaining - s.chunkSize r.card r.remaining, next := r.next + 1, live := r.live ++ [r.next] }

/-- CHUNK_GRAB (10 R194): what the run keeps, and the block that the chunk becomes. -/
theorem grab_some {s t : State} {run : Nat} {r r' : CardRun} (h : s.grab run r = some (t, r')) :
    r' = grabbed s r ∧ t.run run = some r' ∧
    ∃ core slot b age, t.block core slot = some b ∧ b.dealt = { s.deal run r (s.chunkSize r.card r.remaining) with age := age } := by
  unfold State.grab at h
  dsimp only at h
  split at h
  · cases h
  case h_2 core _ =>
    split at h
    · cases h
    case h_2 u _ =>
      obtain ⟨rfl, rfl⟩ := Prod.mk.inj (Option.some.inj h)
      obtain ⟨hcards, slot, b, hb, hdealt⟩ :=
        install_fresh (u.setRun run (some (grabbed s r))) core (s.deal run r (s.chunkSize r.card r.remaining)) r.roles
      exact ⟨rfl, (run_congr hcards run).trans (run_setRun ..), core, slot, b, _, hb, hdealt⟩

/-! The dispatcher -/

/-- The regions of the cards at the heads of the queues are read. -/
def headsRead (s : State) : State :=
  (s.queues.filterMap fun (_, x) => x.cards.head?.map fun c => cardRegion c.card).foldl State.useRegion s

theorem findSome?_first {α β : Type} {f : α → Option β} {l m : List α} {c : α} {t : β} (hl : ∀ x ∈ l, f x = none) (hc : f c = some t) :
    (l ++ c :: m).findSome? f = some t := by
  rw [List.findSome?_append, List.findSome?_eq_none_iff.mpr hl, List.findSome?_cons, hc]
  rfl

/-- DISPATCH (10 R193) deals the first candidate that can be dealt. -/
theorem dispatch_first {s p t : State} {l m : List Cand} {c : Cand} (hp : p = headsRead s.tick.postPending.settleRuns)
    (hsave : s.host.side.saving = false) (hc : p.candidates = l ++ c :: m) (hl : ∀ x ∈ l, p.tryDeal x = none) (ht : p.tryDeal c = some t) :
    Runs .dispatch s t.noteAll := by
  have hfirst : p.candidates.findSome? p.tryDeal = some t := by rw [hc]; exact findSome?_first hl ht
  subst hp
  have hrun : exec .dispatch s = execDispatch s := rfl
  rw [Runs, hrun, execDispatch, hsave, if_neg Bool.false_ne_true]
  unfold headsRead at hfirst
  simp only [hfirst]

/-- CARD_REFUSE (10 R185) of a card of which no chunk is dealt: a record, and the card leaves its queue. -/
theorem tryDeal_refused {s : State} {q : Nat} {c : QCard} {key : List Int} {cause : Cause} {a : DWord} (hrun : s.headRun q = none)
    (hjudge : s.judge c.card c.cardId (s.queue q).region = some (cause, a)) (hcause : cause ≠ .migrating) :
    s.tryDeal ⟨key, .fresh q c⟩ = some ((s.postDevice 4 cause a 0 c.cardId 0 0 (cardRegion c.card)).leaveQueue q) := by
  have hrefuse : s.refuseCard q c cause a = (s.postDevice 4 cause a 0 c.cardId 0 0 (cardRegion c.card)).leaveQueue q := by
    unfold State.refuseCard
    rw [hrun]
  rw [← hrefuse]
  unfold State.tryDeal
  cases cause with
  | migrating => exact absurd rfl hcause
  | _ => simp only [hrun, hjudge]

end Sys2Proof.Launch
end

section
/-! SUPPORT. Wait counters (10 R191), the end of a block (02 R26), and the done counter (10 R192). -/

namespace Sys2Proof.Launch

open Sys2Proof Sys2Proof.Machine Sys2Proof.Safety Sys2Proof.Laws

/-! Wait counters -/

/-- A card whose wait counter has been read: it holds v. -/
def waitRead (c : QCard) (v : Nat) : QCard :=
  { c with reported := false, ready := c.ready || decide (0 ≤ (BitVec.ofNat 32 v - cardWaitval c.card).toInt) }

theorem not_msb_eq (d : BitVec 32) : (!d.msb) = decide (0 ≤ d.toInt) := by
  rw [BitVec.msb_eq_toInt, ← decide_not]
  simp only [not_lt]

theorem queue_congr {s t : State} (h : t.queues = s.queues) (q : Nat) : t.queue q = s.queue q := congrArg (Tbl.get Queue.init · q) h

theorem readWait_ok {s : State} {q : Nat} {c : QCard} {rest : List QCard} {bs : List Byte} (hcards : (s.queue q).cards = c :: rest)
    (hvalid : (s.queue q).valid = true) (hctr : cardWaitctr c.card ≠ 0) (hregion : s.regionInvalid (cardRegion c.card) = none)
    (hread : s.deviceRead (s.effAsid (cardRegion c.card)) 4 4 (cardWaitctr c.card) = .ok bs) :
    s.readWait q = s.setQueue q { s.queue q with cards := waitRead c (natOf bs) :: rest } := by
  have hwaits : decide (cardWaitctr c.card = 0) = false := decide_eq_false hctr
  unfold State.readWait
  simp only [hcards, hvalid, hwaits, hregion, hread, not_msb_eq]
  rfl

theorem waitctrRead_reads {s : State} {q : Nat} {c : QCard} {rest : List QCard} {bs : List Byte} (hcards : (s.queue q).cards = c :: rest)
    (hvalid : (s.queue q).valid = true) (hctr : cardWaitctr c.card ≠ 0) (hregion : s.regionInvalid (cardRegion c.card) = none)
    (hread : s.tick.deviceRead (s.effAsid (cardRegion c.card)) 4 4 (cardWaitctr c.card) = .ok bs) :
    ∃ t, Runs (.waitctrRead q) s t ∧ (t.queue q).cards = waitRead c (natOf bs) :: rest := by
  refine ⟨_, rfl, ?_⟩
  have h : s.tick.readWait q = s.tick.setQueue q { s.tick.queue q with cards := waitRead c (natOf bs) :: rest } :=
    readWait_ok hcards hvalid hctr ((regionInvalid_tick s _).trans hregion) (by rw [effAsid_tick]; exact hread)
  rw [h]
  simp [queue_congr (noteBusy_queues _ _ _)]

/-! What the end of a run leaves alone -/

theorem readWait_keeps (s : State) (q : Nat) : (s.readWait q).cards = s.cards ∧ ∀ c b, (s.readWait q).block c b = s.block c b := by
  unfold State.readWait
  dsimp only
  split
  · exact ⟨rfl, fun _ _ => rfl⟩
  · split
    · exact ⟨rfl, fun _ _ => rfl⟩
    · split
      · exact ⟨rfl, fun _ _ => rfl⟩
      · split
        · exact ⟨rfl, fun _ _ => rfl⟩
        · exact ⟨rfl, fun _ _ => rfl⟩
        · split
          · exact ⟨rfl, fun _ _ => rfl⟩
          · exact ⟨postDevice_cards .., fun c b => block_postDevice ..⟩

theorem readWait_cards (s : State) (q : Nat) : (s.readWait q).cards = s.cards := (readWait_keeps s q).1
theorem block_readWait (s : State) (q c b : Nat) : (s.readWait q).block c b = s.block c b := (readWait_keeps s q).2 c b

theorem block_doneIncrement {s t : State} {run : Nat} {r : CardRun} (h : s.doneIncrement run r = some t) (c b : Nat) :
    t.block c b = s.block c b := by
  unfold State.doneIncrement at h
  dsimp only at h
  split at h
  · obtain rfl := Option.some.inj h
    rfl
  · split at h
    · obtain rfl := Option.some.inj h
      exact block_postDevice ..
    · split at h
      · split at h
        · cases h
        · obtain rfl := Option.some.inj h
          exact block_postDevice ..
      · split at h
        · obtain rfl := Option.some.inj h
          exact block_postDevice ..
        · split at h
          · obtain rfl := Option.some.inj h
            exact block_gaStore ..
          · cases h

/-- The wait counters of other cards are read again once a card is done (10 R191). -/
def waitsAgain (s : State) : State :=
  (s.queues.map (·.1)).foldl (fun s q => match (s.queue q).cards with
    | c :: _ => if c.waiting then s.readWait q else s
    | [] => s) s

theorem waitsAgain_cards (s : State) : (waitsAgain s).cards = s.cards := by
  refine foldl_keeps State.cards (fun s q => ?_) _ s
  split
  · split
    · exact readWait_cards s q
    · rfl
  · rfl

theorem block_waitsAgain (s : State) (c b : Nat) : (waitsAgain s).block c b = s.block c b := by
  refine foldl_keeps (fun s : State => s.block c b) (fun s q => ?_) _ s
  split
  · split
    · exact block_readWait s q c b
    · rfl
  · rfl

theorem settleRun_eq (s : State) (run : Nat) : s.settleRun run = match s.run run with
    | none => s
    | some r =>
      if r.remaining != 0 || !r.live.isEmpty then s
      else if r.lostChunk then s.setRun run none
      else match (s.setRun run none).doneIncrement run r with
        | none => s
        | some s => waitsAgain s := rfl

theorem block_settleRun (s : State) (run c b : Nat) : (s.settleRun run).block c b = s.block c b := by
  rw [settleRun_eq]
  split
  · rfl
  · split
    · rfl
    · split
      · rfl
      · split
        · rfl
        case h_2 e => exact (block_waitsAgain ..).trans (block_doneIncrement e c b)

/-- A run with records or blocks left goes on. -/
theorem settleRun_goes_on {s : State} {run : Nat} {r : CardRun} (hr : s.run run = some r) (h : ¬(r.remaining = 0 ∧ r.live = [])) :
    s.settleRun run = s := by
  have hleft : (r.remaining != 0 || !r.live.isEmpty) = true := by
    simp only [Bool.or_eq_true, bne_iff_ne, Bool.not_eq_true', List.isEmpty_eq_false_iff]
    tauto
  rw [settleRun_eq, hr]
  exact if_pos hleft

/-- A run without records and blocks that counts no card as done is gone. -/
theorem settleRun_done {s : State} {run : Nat} {r : CardRun} (hr : s.run run = some r) (h : r.remaining = 0 ∧ r.live = [])
    (hdone : r.lostChunk = true ∨ cardDonectr r.card = 0) : (s.settleRun run).run run = none := by
  obtain ⟨hrem, hlive⟩ := h
  rw [settleRun_eq, hr]
  simp only [hrem, hlive, bne_self_eq_false, List.isEmpty_nil, Bool.not_true, Bool.or_self, Bool.false_eq_true, if_false]
  split
  · exact run_setRun ..
  case isFalse hlost =>
    have hctr : cardDonectr r.card = 0 := hdone.resolve_left hlost
    have hcount : (s.setRun run none).doneIncrement run r = some (s.setRun run none) := by
      unfold State.doneIncrement
      exact if_pos hctr
    rw [hcount]
    exact (run_congr (waitsAgain_cards _) run).trans (run_setRun ..)

/-! The end of a block -/

/-- A run without its card barriers. -/
def offBars (r : CardRun) : CardRun := { r with bars := [] }

theorem cardBarSettle_run (s : State) (run id : Nat) : ((s.cardBarSettle run id).run run).map offBars = (s.run run).map offBars := by
  unfold State.cardBarSettle
  split
  · rfl
  case h_2 r hr =>
    dsimp only
    split
    · rfl
    · rw [run_setRun, hr]
      rfl

theorem cardBarSettle_cores (s : State) (run id : Nat) : (s.cardBarSettle run id).cores = s.cores := by
  unfold State.cardBarSettle
  split
  · rfl
  · dsimp only
    split <;> rfl

theorem settleBars_keeps {γ : Type} (g : State → γ) (run : Nat) (h : ∀ s id, g (s.cardBarSettle run id) = g s) (s : State) :
    g (s.settleBars run) = g s := by
  unfold State.settleBars
  split
  · rfl
  · exact foldl_keeps g (fun s id => h s id) _ s

theorem block_settleBars (s : State) (run c b : Nat) : (s.settleBars run).block c b = s.block c b := by
  have h : (s.settleBars run).cores = s.cores := settleBars_keeps State.cores run (fun s id => cardBarSettle_cores s run id) s
  simp only [State.block, State.core, h]

theorem settleBars_run {s : State} {run : Nat} {r : CardRun} (hr : s.run run = some r) :
    ∃ bars, (s.settleBars run).run run = some { r with bars := bars } := by
  have h := settleBars_keeps (fun s => (s.run run).map offBars) run (fun s id => cardBarSettle_run s run id) s
  rw [hr] at h
  obtain ⟨r', hr', hoff⟩ := Option.map_eq_some_iff.mp h
  have hbars : r' = { r with bars := r'.bars } := congrArg (fun x : CardRun => { x with bars := r'.bars }) hoff
  exact ⟨r'.bars, hr'.trans (congrArg some hbars)⟩

theorem block_leaveRun (s : State) (d : Dealt) (c b : Nat) : (s.leaveRun d).block c b = s.block c b := by
  unfold State.leaveRun
  split
  · rfl
  · rw [block_settleRun, block_settleBars]
    rfl

/-- A block leaves its run: with the last of a run without records the run ends, else it goes on without the block. -/
theorem leaveRun_run {s : State} {d : Dealt} {r : CardRun} (hr : s.run d.run = some r) :
    if r.remaining = 0 ∧ r.live.filter (· != d.num) = [] then
      r.lostChunk = true ∨ cardDonectr r.card = 0 → (s.leaveRun d).run d.run = none
    else ∃ r', (s.leaveRun d).run d.run = some r' ∧ r'.live = r.live.filter (· != d.num) ∧ r'.remaining = r.remaining := by
  have hleave : s.leaveRun d = ((s.setRun d.run (some { r with live := r.live.filter (· != d.num) })).settleBars d.run).settleRun d.run := by
    unfold State.leaveRun
    rw [hr]
  obtain ⟨bars, hr'⟩ := settleBars_run (run_setRun s d.run (some { r with live := r.live.filter (· != d.num) }))
  rw [hleave]
  split
  case isTrue h => exact fun hdone => settleRun_done hr' h hdone
  case isFalse h =>
    rw [settleRun_goes_on hr' h]
    exact ⟨_, hr', rfl, rfl⟩

/-- The core without a block that has ended. -/
def blockGone (s : State) (core blk : Nat) (b : Block) : State :=
  (((s.poolGive core b.dealt.pool (b.scratch.size / 1024)).setBlock core blk none).closeAccounts core).settleClass (clusterOf core)

theorem settleClass_keeps (s : State) (cl : Nat) : (s.settleClass cl).cores = s.cores ∧ (s.settleClass cl).cards = s.cards := by
  unfold State.settleClass
  dsimp only
  split
  · split <;> exact ⟨rfl, rfl⟩
  · exact ⟨rfl, rfl⟩

theorem blockGone_cards (s : State) (core blk : Nat) (b : Block) : (blockGone s core blk b).cards = s.cards :=
  (settleClass_keeps ..).2

theorem block_blockGone (s : State) (core blk : Nat) (b : Block) : (blockGone s core blk b).block core blk = none := by
  have hclass : ∀ u : State, (u.settleClass (clusterOf core)).block core blk = u.block core blk := by
    intro u
    simp only [State.block, State.core, (settleClass_keeps u _).1]
  have haccounts : ∀ u : State, (u.closeAccounts core).block core blk = u.block core blk := fun u => block_updCore u core core blk fun _ => rfl
  rw [blockGone, hclass, haccounts, block_setBlock]

theorem blockEnd_ends {s : State} {core blk : Nat} {b : Block} {r : CardRun} (hb : s.block core blk = some b)
    (hover : s.blockOver core blk b = true) (hr : s.run b.dealt.run = some r) :
    ∃ t, Runs (.blockEnd core blk) s t ∧ t.block core blk = none ∧
      if r.remaining = 0 ∧ r.live.filter (· != b.dealt.num) = [] then
        r.lostChunk = true ∨ cardDonectr r.card = 0 → t.run b.dealt.run = none
      else ∃ r', t.run b.dealt.run = some r' ∧ r'.live = r.live.filter (· != b.dealt.num) ∧ r'.remaining = r.remaining := by
  have hends : exec (.blockEnd core blk) s =
      .next ((((blockGone s.tick core blk b).leaveRun b.dealt).noteBusy true b.dealt.region).noteAll) := by
    have hover' : (!s.tick.blockOver core blk b) = false := by
      rw [Bool.not_eq_false']
      exact hover
    have hexec : exec (.blockEnd core blk) s = execBlockEnd core blk s := rfl
    rw [hexec, execBlockEnd, block_tick, hb]
    exact if_neg (by rw [hover']; exact Bool.false_ne_true)
  refine ⟨_, hends, ?_, ?_⟩
  · rw [block_noteAll, block_noteBusy, block_leaveRun, block_blockGone]
  · have hrun : (blockGone s.tick core blk b).run b.dealt.run = some r := (run_congr (blockGone_cards ..) _).trans hr
    simp only [run_congr (noteAll_cards _), run_congr (noteBusy_cards _ _ _)]
    exact leaveRun_run hrun

/-! The done counter -/

theorem length_bytesOf (n v : Nat) : (bytesOf n v).length = n := by
  induction n generalizing v with
  | zero => rfl
  | succ n ih => simp [bytesOf, ih]

theorem getElem?_bytesOf {n i : Nat} (v : Nat) (h : i < n) : (bytesOf n v)[i]? = some (BitVec.ofNat 8 (v / 256 ^ i)) := by
  induction n generalizing v i with
  | zero => omega
  | succ n ih =>
    cases i with
    | zero => simp [bytesOf]
    | succ i => rw [bytesOf, List.getElem?_cons_succ, ih _ (by omega), Nat.div_div_eq_div_mul, Nat.pow_succ']

/-- An aligned word lies in one sector. -/
theorem sectorsOf_word {a : Nat} (h : a % 4 = 0) : sectorsOf a 4 = [a / 32] := by
  have hone : (a + 4 - 1) / 32 - a / 32 + 1 = 1 := by omega
  rw [sectorsOf, if_neg (by decide), hone]
  rfl

/-- The device's store of an aligned word into an ordinary sector writes its four bytes and no others. -/
theorem gaStore_word {s : State} {core a : Nat} {bs : List Byte} (hlen : bs.length = 4) (halign : a % 4 = 0)
    (hdisc : Tbl.get false s.mem.disc (a / 32) = false) : (s.gaStore core a bs).mem.mem = Tbl.setList 0 s.mem.mem a bs := by
  have hfix : (s.fixSectors a bs.length).mem.mem = s.mem.mem := by
    rw [State.fixSectors, hlen, sectorsOf_word halign, List.foldl_cons, List.foldl_nil]
    simp only [State.fixSector, hdisc, Bool.false_and, Bool.false_eq_true, if_false]
    split <;> rfl
  have hguests : ∀ (m : MemState) d x n, (m.dropGuest d x n).mem = m.mem := by
    intro m d x n
    unfold MemState.dropGuest MemState.setGuests
    dsimp only
    split <;> rfl
  have hviews : ∀ (m : MemState) d x n, (m.freshen d x n).mem = m.mem := by
    intro m d x n
    unfold MemState.freshen MemState.setViews MemState.setView
    split <;> rfl
  simp only [State.gaStore, hguests, hviews]
  exact congrArg (Tbl.setList 0 · a bs) hfix

/-- DONE_INCREMENT (10 R192): the four bytes of the counter hold its value and one more; no other byte changes. -/
theorem doneIncrement_counts {s : State} {run : Nat} {r : CardRun} {l : Leaf} (hva : cardDonectr r.card ≠ 0)
    (halign : (cardDonectr r.card).toNat % 4 = 0)
    (hleaf : s.access 0 (s.effAsid r.region) none .rmw true false (cardDonectr r.card) = .ok l) (hunit : s.unitBad l 4 = none)
    (hdisc : Tbl.get false s.mem.disc (l.phys / 32) = false) (hphys : l.phys % 4 = 0) (hquiet : s.linkQuiet = true) :
    ∃ t, s.doneIncrement run r = some t ∧ ∀ k, Tbl.get 0 t.mem.mem k = if l.phys ≤ k ∧ k < l.phys + 4 then
      BitVec.ofNat 8 ((natOf (s.homeBytes l.phys 4) + 1) / 256 ^ (k - l.phys)) else Tbl.get 0 s.mem.mem k := by
  have hstore : s.doneIncrement run r =
      some ((s.releaseRun run l.phys).gaStore 224 l.phys (bytesOf 4 (natOf (s.homeBytes l.phys 4) + 1))) := by
    have haligned : ((cardDonectr r.card).toNat % 4 != 0) = false := by simp [halign]
    simp only [State.doneIncrement, if_neg hva, haligned, hleaf, hunit, hquiet]
    rfl
  refine ⟨_, hstore, fun k => ?_⟩
  have hmem := gaStore_word (s := s.releaseRun run l.phys) (core := 224) (length_bytesOf 4 (natOf (s.homeBytes l.phys 4) + 1)) hphys hdisc
  rw [hmem, Tbl_get_setList, length_bytesOf]
  split
  · rw [getElem?_bytesOf _ (by omega)]
    rfl
  · rfl

end Sys2Proof.Launch
end

section
/-! SUPPORT. The host's posts (10 R189, 13 R243) and its ingest writes (13 R248, R249). -/

namespace Sys2Proof.Launch

open Sys2Proof Sys2Proof.Machine Sys2Proof.Safety Sys2Proof.Laws

/-! Posts -/

/-- A request through function f is taken: the interface is up, and f is no TDISP interface, or runs and carries it in its stream. -/
def Taken (s : State) (f : Nat) (stream : Option Nat) : Prop :=
  f < 64 ∧ s.host.up = true ∧ s.die0.dead = false ∧ (s.tdisp f = none ∨ (s.tdisp f = some .run ∧ s.inStream f stream = true))

theorem gate_pass {s : State} {f : Nat} {stream : Option Nat} (h : Taken s f stream) : s.gate false f stream = .pass := by
  obtain ⟨hf, hup, hdead, htdisp⟩ := h
  have hserved : (decide (f ≥ 64) || !s.host.up || s.die0.dead) = false := by simp [hup, hdead, hf]
  unfold State.gate
  rw [hserved, if_neg Bool.false_ne_true]
  obtain h | ⟨h, hstream⟩ := htdisp
  · rw [h]
  · rw [h]
    exact if_pos hstream

theorem gate_tick (s : State) (window : Bool) (f : Nat) (stream : Option Nat) : s.tick.gate window f stream = s.gate window f stream := rfl

/-- A post that is taken is queued where it fits and a slot is free, and is counted as dropped otherwise. -/
theorem hostPost_taken {s : State} {f q : Nat} {ide : Option Nat} {data : List Byte} (hgate : Taken s f ide) (hq : q < 65536)
    (hreach : (s.tick.useQueue q).reaches f ((s.tick.useQueue q).queue q).region = true) :
    Runs (.hostPost f ide (.post q) data) s
      (if data.length = 128 && cardDepth (BitVec.ofNat 1024 (natOf data)) = 0 && ((s.tick.useQueue q).queue q).hostOpen then
        ((s.tick.useQueue q).enqueue q (BitVec.ofNat 1024 (natOf data)) none).getD ((s.tick.useQueue q).countDrop q)
      else (s.tick.useQueue q).countDrop q) := by
  have hexec : exec (.hostPost f ide (.post q) data) s = execHostPost f ide (.post q) data s := rfl
  rw [Runs, hexec, execHostPost]
  rw [gate_tick, gate_pass hgate]
  simp only [State.hostEnqueue, if_neg (Nat.not_le.mpr hq), hreach, Bool.not_true, Bool.false_eq_true, if_false]

/-! Windows -/

@[simp] theorem ingest_setIngest (s : State) (w : Nat) (x : Ingest) : (s.setIngest w x).ingest w = x := Tbl_get_set_same ..
@[simp] theorem setIngest_setIngest (s : State) (w : Nat) (x y : Ingest) : (s.setIngest w x).setIngest w y = s.setIngest w y := by
  simp [State.setIngest]

theorem isAncestor_setIngest (s : State) (w : Nat) (x : Ingest) (a r : Nat) : (s.setIngest w x).isAncestor a r = s.isAncestor a r :=
  isAncestor_congr (s := s) (t := s.setIngest w x) rfl rfl rfl a r

/-- A window posts no card: it owes none, or its queue takes none. -/
def Idle (s : State) (w : Nat) : Prop :=
  (s.ingest w).count.toNat / (s.ingest w).perCard ≤ (s.ingest w).posted ∨ (s.queue (s.ingest w).queue).open = false ∨
  (s.queue (s.ingest w).queue).free = 0

theorem postIngest_idle {s : State} {w : Nat} (h : Idle s w) (n : Nat) : State.postIngest w n s = s := by
  cases n with
  | zero => rfl
  | succ n =>
    have hidle : (!flag 97 (s.ingest w).word || (s.ingest w).unjudged || decide ((s.ingest w).count.toNat / (s.ingest w).perCard ≤ (s.ingest w).posted)
        || !(s.queue (s.ingest w).queue).open || (s.queue (s.ingest w).queue).free = 0) = true := by
      simp only [Bool.or_eq_true, decide_eq_true_eq, Bool.not_eq_true']
      obtain h | h | h := h <;> tauto
    unfold State.postIngest
    exact if_pos hidle

/-- A judged window without a write that waits posts the cards that it owes. -/
theorem serveIngest_no_write {s : State} {w : Nat} (hjudged : (s.ingest w).unjudged = false) (n : Nat)
    (hwait : ((State.postIngest w (s.ingest w).count.toNat s).ingest w).waiting = []) :
    State.serveIngest w (n + 1) s = State.postIngest w (s.ingest w).count.toNat s := by
  unfold State.serveIngest
  simp only [hjudged, Bool.false_eq_true, if_false, hwait]

/-- A judged window that withholds credit leaves its writes waiting. -/
theorem serveIngest_withheld {s : State} {w : Nat} (hjudged : (s.ingest w).unjudged = false) (hen : flag 97 (s.ingest w).word = true)
    (hfull : (s.queue (s.ingest w).queue).open = false ∨ (s.queue (s.ingest w).queue).free = 0) (n : Nat) :
    State.serveIngest w (n + 1) s = s := by
  have hholds : s.withholds (s.ingest w) = true := by
    simp only [State.withholds, Bool.or_eq_true, Bool.not_eq_true', beq_iff_eq]
    tauto
  unfold State.serveIngest
  simp only [hjudged, Bool.false_eq_true, if_false, postIngest_idle (.inr hfull)]
  split
  · rfl
  · simp [hen, hholds]

/-- A judged window that owes no card and gives credit. -/
structure Credits (s : State) (w : Nat) : Prop where
  judged : (s.ingest w).unjudged = false
  enabled : flag 97 (s.ingest w).word = true
  isOpen : (s.queue (s.ingest w).queue).open = true
  hasSlot : (s.queue (s.ingest w).queue).free ≠ 0
  paid : (s.ingest w).count.toNat / (s.ingest w).perCard ≤ (s.ingest w).posted

theorem Credits.no_withhold {s : State} {w : Nat} (h : Credits s w) : s.withholds (s.ingest w) = false := by
  simp only [State.withholds, h.judged, h.isOpen, Bool.not_true, Bool.or_eq_false_iff, beq_eq_false_iff_ne, decide_eq_false_iff_not]
  exact ⟨⟨⟨trivial, trivial⟩, h.hasSlot⟩, Nat.not_lt.mpr h.paid⟩

/-- A window that gives credit takes the write that waits first, and serves the others after it. -/
theorem Credits.serve_some {s t : State} {w n : Nat} {r : Nat × Nat × List Byte} {rest : List (Nat × Nat × List Byte)} (h : Credits s w)
    (hwait : (s.ingest w).waiting = r :: rest) (hland : (s.setIngest w { s.ingest w with waiting := rest }).ingestLand w r = some t) :
    State.serveIngest w (n + 1) s = State.serveIngest w n t := by
  conv_lhs => unfold State.serveIngest
  have hjudge : (if (s.ingest w).unjudged = true then s.judgeIngest w else s) = s := if_neg (by rw [h.judged]; exact Bool.false_ne_true)
  simp only [hjudge, Bool.false_eq_true, if_false, postIngest_idle (.inl h.paid), hwait, h.enabled, Bool.not_true, h.no_withhold, hland]

/-- The write waits where a CLAIM moves a page of it. -/
theorem Credits.serve_none {s : State} {w n : Nat} {r : Nat × Nat × List Byte} {rest : List (Nat × Nat × List Byte)} (h : Credits s w)
    (hwait : (s.ingest w).waiting = r :: rest) (hland : (s.setIngest w { s.ingest w with waiting := rest }).ingestLand w r = none) :
    State.serveIngest w (n + 1) s = s := by
  unfold State.serveIngest
  have hjudge : (if (s.ingest w).unjudged = true then s.judgeIngest w else s) = s := if_neg (by rw [h.judged]; exact Bool.false_ne_true)
  simp only [hjudge, Bool.false_eq_true, if_false, postIngest_idle (.inl h.paid), hwait, h.enabled, Bool.not_true, h.no_withhold, hland]

/-- A write that is taken joins the writes that its window serves. -/
theorem ingestWrite_taken {s : State} {f w off req : Nat} {ide : Option Nat} {data : List Byte} (hgate : Taken s f ide) (hw : w < 64)
    (hoff : off < 2 ^ 24) (hdesc : (s.ingest w).desc.isSome = true) (hen : flag 97 (s.ingest w).word = true)
    (hreach : s.isAncestor (s.funcRegion f) (s.ingest w).region = true) :
    Runs (.ingestWrite f w off req ide data) s (State.serveIngest w ((s.ingest w).waiting.length + 2)
      (s.tick.setIngest w { s.ingest w with waiting := (s.ingest w).waiting ++ [(req, off, data)] })) := by
  have hexec : exec (.ingestWrite f w off req ide data) s = execIngestWrite f w off req ide data s := rfl
  have hrange : (decide (w ≥ 64) || decide (off ≥ 2 ^ 24)) = false := by simp; omega
  have hserved : (!flag 97 (s.ingest w).word || !s.tick.reaches f (s.ingest w).region) = false := by
    have h : s.tick.reaches f (s.ingest w).region = true := (isAncestor_tick ..).trans hreach
    rw [hen, h]
    rfl
  have htick : s.tick.ingest w = s.ingest w := rfl
  rw [Runs, hexec, execIngestWrite]
  simp only [hrange, Bool.false_eq_true, if_false, gate_tick, gate_pass hgate, htick, hdesc, if_true, hserved]

/-- Every write waits while the window withholds credit. -/
theorem ingestWrite_withheld {s : State} {f w off req : Nat} {ide : Option Nat} {data : List Byte} (hgate : Taken s f ide) (hw : w < 64)
    (hoff : off < 2 ^ 24) (hdesc : (s.ingest w).desc.isSome = true) (hen : flag 97 (s.ingest w).word = true)
    (hreach : s.isAncestor (s.funcRegion f) (s.ingest w).region = true) (hjudged : (s.ingest w).unjudged = false)
    (hfull : (s.queue (s.ingest w).queue).open = false ∨ (s.queue (s.ingest w).queue).free = 0) :
    Runs (.ingestWrite f w off req ide data) s
      (s.tick.setIngest w { s.ingest w with waiting := (s.ingest w).waiting ++ [(req, off, data)] }) := by
  have hrun := ingestWrite_taken (req := req) (data := data) hgate hw hoff hdesc hen hreach
  rwa [serveIngest_withheld] at hrun
  · rw [ingest_setIngest]; exact hjudged
  · rw [ingest_setIngest]; exact hen
  · rw [ingest_setIngest]; exact hfull

theorem credits_setWaiting {s : State} {w : Nat} (h : Credits s w) (l : List (Nat × Nat × List Byte)) :
    Credits (s.tick.setIngest w { s.ingest w with waiting := l }) w := by
  obtain ⟨hjudged, hen, hopen, hfree, hpaid⟩ := h
  refine ⟨?_, ?_, ?_, ?_, ?_⟩
  all_goals rw [ingest_setIngest]
  · exact hjudged
  · exact hen
  · exact hopen
  · exact hfree
  · exact hpaid

end Sys2Proof.Launch
end

section
/-! SUPPORT. A write that a window takes: refused, landed in its ring, or kept while a CLAIM moves a page of it (13 R248, 08 R156). -/

namespace Sys2Proof.Launch

open Sys2Proof Sys2Proof.Machine Sys2Proof.Safety Sys2Proof.Laws

theorem effAsid_setIngest (s : State) (w : Nat) (x : Ingest) (r : Nat) : (s.setIngest w x).effAsid r = s.effAsid r :=
  eff_congr (s := s) (t := s.setIngest w x) rfl rfl rfl 2 208 16 r

/-- The device's store to a virtual address does not look at the host's side. -/
theorem deviceStore_withHost (s : State) (h : HostIf) (asid n : Nat) (va : DWord) (bs : List Byte) :
    ({ s with host := h } : State).deviceStore asid n va bs = (s.deviceStore asid n va bs).map fun z => { z with host := h } := by
  have haccess : ∀ va, ({ s with host := h } : State).access 0 asid none .store true false va = s.access 0 asid none .store true false va :=
    fun _ => rfl
  induction n generalizing va bs with
  | zero =>
    unfold State.deviceStore
    split <;> rfl
  | succ n ih =>
    unfold State.deviceStore
    dsimp only
    rw [ih, haccess]
    split
    · rfl
    · cases s.access 0 asid none .store true false va with
      | error f => rfl
      | ok l =>
        cases s.deviceStore asid n (va + BitVec.ofNat 64 (min bs.length (4096 - va.toNat % 4096))) (bs.drop (min bs.length (4096 - va.toNat % 4096))) with
        | error c => rfl
        | ok z => exact congrArg Except.ok (gaStore_withHost z h 224 l.phys _)

/-! What posting and tracing leave of a window -/

/-- A window but for the number of cards posted. -/
def offPosted (x : Ingest) : Ingest := { x with posted := 0 }

theorem ingest_congr {s t : State} (h : t.host = s.host) (w : Nat) : t.ingest w = s.ingest w :=
  congrArg (fun x : HostIf => Tbl.get Ingest.init x.ingest w) h

theorem trace_host (s : State) (r kind : Nat) (a b : DWord) : (s.trace r kind a b).host = s.host := by
  unfold State.trace
  dsimp only
  split
  · rfl
  · split
    · rfl
    · rw [setRegion_host, gaStore_host]

theorem ingest_checkIngest (s : State) (r v : Nat) (count : DWord) (w : Nat) : (s.checkIngest r v count).ingest w = s.ingest w := by
  unfold State.checkIngest
  dsimp only
  split
  · rfl
  · split
    · rfl
    · rw [ingest_raiseIngest]
      rfl

/-- INGEST_CARD_POST changes nothing of a window but the number of cards posted. -/
theorem postIngest_window (w n : Nat) (s : State) : offPosted ((State.postIngest w n s).ingest w) = offPosted (s.ingest w) := by
  induction n generalizing s with
  | zero => rfl
  | succ n ih =>
    unfold State.postIngest
    dsimp only
    split
    · rfl
    · split
      · rfl
      · rw [ih, ingest_setIngest]
        rfl
      · split
        · rw [ih, ingest_setIngest]
          rfl
        · rfl

/-- A judged window without a write that waits keeps its counter, its descriptor and no write while it posts cards. -/
theorem serveIngest_window {s : State} {w : Nat} (hjudged : (s.ingest w).unjudged = false) (hwait : (s.ingest w).waiting = []) (n : Nat) :
    offPosted ((State.serveIngest w (n + 1) s).ingest w) = offPosted (s.ingest w) := by
  have hposted := postIngest_window w (s.ingest w).count.toNat s
  have hnone : ((State.postIngest w (s.ingest w).count.toNat s).ingest w).waiting = [] := (congrArg Ingest.waiting hposted :).trans hwait
  rw [serveIngest_no_write hjudged n hnone, hposted]

/-! The three ends of a write -/

/-- A write of another requester, or across a multiple of SIZE, is dropped and raises vector 2. -/
theorem ingestLand_refused {s : State} {w req off : Nat} {data : List Byte}
    (h : req ≠ (s.ingest w).reqid ∨ (s.ingest w).size < off % (s.ingest w).size + data.length) :
    s.ingestLand w (req, off, data) = some (s.raiseIngest (s.ingest w).region) := by
  have hbad : (req != (s.ingest w).reqid || decide (off % (s.ingest w).size + data.length > (s.ingest w).size)) = true := by
    simpa using h
  unfold State.ingestLand
  exact if_pos hbad

/-- Whether the requester is the window's and the bytes cross no multiple of SIZE. -/
theorem in_range {x : Ingest} {req off n : Nat} (hreq : req = x.reqid) (hsize : off % x.size + n ≤ x.size) :
    (req != x.reqid || decide (off % x.size + n > x.size)) = false := by
  simp [hreq, hsize]

/-- The device's store of a write's bytes into the ring of its window. -/
def ringStore (s : State) (x : Ingest) (off : Nat) (data : List Byte) : Except Cause State :=
  s.deviceStore (s.effAsid x.region) (data.length / 4096 + 2) (x.base + BitVec.ofNat 64 (off % x.size)) data

/-- A write whose bytes are stored is counted, and its window keeps its descriptor and its other writes. -/
theorem ingestLand_stored {s z : State} {w req off : Nat} {data : List Byte} (hreq : req = (s.ingest w).reqid)
    (hsize : off % (s.ingest w).size + data.length ≤ (s.ingest w).size) (hstore : ringStore s (s.ingest w) off data = .ok z) :
    ∃ u, s.ingestLand w (req, off, data) = some u ∧
      offPosted (u.ingest w) = offPosted { s.ingest w with count := (s.ingest w).count + BitVec.ofNat 64 data.length } := by
  unfold State.ingestLand
  dsimp only
  rw [if_neg (by rw [in_range hreq hsize]; exact Bool.false_ne_true)]
  rw [ringStore] at hstore
  rw [hstore]
  refine ⟨_, rfl, ?_⟩
  rw [postIngest_window, ingest_congr (trace_host ..), ingest_checkIngest, ingest_setIngest]

/-- A write waits while a CLAIM moves a page of it. -/
theorem ingestLand_migrating {s : State} {w req off : Nat} {data : List Byte} (hreq : req = (s.ingest w).reqid)
    (hsize : off % (s.ingest w).size + data.length ≤ (s.ingest w).size)
    (hstore : ringStore s (s.ingest w) off data = .error .migrating) : s.ingestLand w (req, off, data) = none := by
  unfold State.ingestLand
  dsimp only
  rw [if_neg (by rw [in_range hreq hsize]; exact Bool.false_ne_true)]
  rw [ringStore] at hstore
  rw [hstore]

/-! The write event -/

/-- The state in which a write lands: its window holds no write that waits. -/
theorem window_emptied {s : State} {w : Nat} (hnone : (s.ingest w).waiting = []) (l : List (Nat × Nat × List Byte)) :
    (s.tick.setIngest w { s.ingest w with waiting := l }).setIngest w
      { (s.tick.setIngest w { s.ingest w with waiting := l }).ingest w with waiting := [] } = s.tick.setIngest w (s.ingest w) := by
  rw [setIngest_setIngest, ingest_setIngest, ← hnone]

theorem ringStore_setIngest (s : State) (w : Nat) (x y : Ingest) (off : Nat) (data : List Byte) :
    ringStore (s.tick.setIngest w y) x off data = (ringStore s.tick x off data).map fun z => { z with host := (s.tick.setIngest w y).host } := by
  rw [ringStore, effAsid_setIngest]
  exact deviceStore_withHost s.tick (s.tick.setIngest w y).host ..

section
variable {s : State} {f w off req : Nat} {ide : Option Nat} {data : List Byte} (hgate : Taken s f ide) (hw : w < 64) (hoff : off < 2 ^ 24)
  (hdesc : (s.ingest w).desc.isSome = true) (hreach : s.isAncestor (s.funcRegion f) (s.ingest w).region = true) (hcredits : Credits s w)
  (hnone : (s.ingest w).waiting = [])
include hgate hw hoff hdesc hreach hcredits hnone

/-- A window without a write that waits gives credit: the write is served at once. -/
theorem ingestWrite_served : Runs (.ingestWrite f w off req ide data) s
    (State.serveIngest w 2 (s.tick.setIngest w { s.ingest w with waiting := [(req, off, data)] })) := by
  have hrun := ingestWrite_taken (req := req) (data := data) hgate hw hoff hdesc hcredits.enabled hreach
  rwa [hnone] at hrun

theorem ingestWrite_lands {u : State} (hland : (s.tick.setIngest w (s.ingest w)).ingestLand w (req, off, data) = some u) :
    Runs (.ingestWrite f w off req ide data) s (State.serveIngest w 1 u) := by
  have hrun := ingestWrite_served (req := req) (data := data) hgate hw hoff hdesc hreach hcredits hnone
  rwa [(credits_setWaiting hcredits [(req, off, data)]).serve_some (t := u)] at hrun
  · rw [ingest_setIngest]
  · rw [window_emptied hnone]
    exact hland

theorem ingestWrite_waits (hland : (s.tick.setIngest w (s.ingest w)).ingestLand w (req, off, data) = none) :
    Runs (.ingestWrite f w off req ide data) s (s.tick.setIngest w { s.ingest w with waiting := [(req, off, data)] }) := by
  have hrun := ingestWrite_served (req := req) (data := data) hgate hw hoff hdesc hreach hcredits hnone
  rwa [(credits_setWaiting hcredits [(req, off, data)]).serve_none] at hrun
  · rw [ingest_setIngest]
  · rw [window_emptied hnone]
    exact hland

/-- A write that is refused leaves memory and its window as they were, and raises vector 2 of every function that reaches the region. -/
theorem ingestWrite_refused (hbad : req ≠ (s.ingest w).reqid ∨ (s.ingest w).size < off % (s.ingest w).size + data.length) :
    ∃ t, Runs (.ingestWrite f w off req ide data) s t ∧ t.mem = s.mem ∧ t.ingest w = s.ingest w ∧
      ∀ g, g < 64 → s.isAncestor (s.funcRegion g) (s.ingest w).region = true →
        Tbl.get 0 t.host.msix (3 * g + 2) = Tbl.get 0 s.host.msix (3 * g + 2) + 1 := by
  have hwindow : (s.tick.setIngest w (s.ingest w)).ingest w = s.ingest w := ingest_setIngest ..
  have hland := ingestLand_refused (s := s.tick.setIngest w (s.ingest w)) (data := data) (by rw [hwindow]; exact hbad)
  rw [hwindow] at hland
  have hraised : ((s.tick.setIngest w (s.ingest w)).raiseIngest (s.ingest w).region).ingest w = s.ingest w := by
    rw [ingest_raiseIngest, hwindow]
  have hidle : Idle ((s.tick.setIngest w (s.ingest w)).raiseIngest (s.ingest w).region) w := by
    left
    rw [hraised]
    exact hcredits.paid
  have hserve : State.serveIngest w 1 ((s.tick.setIngest w (s.ingest w)).raiseIngest (s.ingest w).region) =
      (s.tick.setIngest w (s.ingest w)).raiseIngest (s.ingest w).region := by
    rw [serveIngest_no_write, postIngest_idle hidle]
    · rw [hraised]
      exact hcredits.judged
    · rw [postIngest_idle hidle, hraised]
      exact hnone
  refine ⟨_, ingestWrite_lands hgate hw hoff hdesc hreach hcredits hnone hland, ?_⟩
  rw [hserve]
  refine ⟨raiseIngest_mem .., hraised, fun g hg hr => ?_⟩
  have hr' : (s.tick.setIngest w (s.ingest w)).isAncestor ((s.tick.setIngest w (s.ingest w)).funcRegion g) (s.ingest w).region = true := by
    rw [isAncestor_setIngest, isAncestor_tick]
    exact hr
  have hany : ((List.range 64).any fun f => (s.tick.setIngest w (s.ingest w)).isAncestor
      ((s.tick.setIngest w (s.ingest w)).funcRegion f) (s.ingest w).region) = true :=
    List.any_eq_true.mpr ⟨g, List.mem_range.mpr hg, hr'⟩
  rw [State.raiseIngest, if_pos hany]
  exact msix_raise _ hg hr'

/-- A write whose bytes are stored is counted, and none waits. -/
theorem ingestWrite_stored (hreq : req = (s.ingest w).reqid) (hsize : off % (s.ingest w).size + data.length ≤ (s.ingest w).size) {z : State}
    (hstore : ringStore s.tick (s.ingest w) off data = .ok z) :
    ∃ t, Runs (.ingestWrite f w off req ide data) s t ∧
      offPosted (t.ingest w) = offPosted { s.ingest w with count := (s.ingest w).count + BitVec.ofNat 64 data.length } := by
  have hwindow : (s.tick.setIngest w (s.ingest w)).ingest w = s.ingest w := ingest_setIngest ..
  have hok : ringStore (s.tick.setIngest w (s.ingest w)) (s.ingest w) off data =
      .ok { z with host := (s.tick.setIngest w (s.ingest w)).host } := by
    rw [ringStore_setIngest, hstore]
    rfl
  obtain ⟨u, hland, hu⟩ := ingestLand_stored (s := s.tick.setIngest w (s.ingest w)) (w := w) (req := req) (by rw [hwindow]; exact hreq)
    (by rw [hwindow]; exact hsize) (by rw [hwindow]; exact hok)
  rw [hwindow] at hu
  have hjudged : (u.ingest w).unjudged = false := (congrArg Ingest.unjudged hu :).trans hcredits.judged
  have hwait : (u.ingest w).waiting = [] := (congrArg Ingest.waiting hu :).trans hnone
  exact ⟨_, ingestWrite_lands hgate hw hoff hdesc hreach hcredits hnone hland, (serveIngest_window hjudged hwait 0).trans hu⟩

/-- A write waits while a CLAIM moves a page of it. -/
theorem ingestWrite_migrating (hreq : req = (s.ingest w).reqid) (hsize : off % (s.ingest w).size + data.length ≤ (s.ingest w).size)
    (hstore : ringStore s.tick (s.ingest w) off data = .error .migrating) :
    Runs (.ingestWrite f w off req ide data) s (s.tick.setIngest w { s.ingest w with waiting := [(req, off, data)] }) := by
  have hwindow : (s.tick.setIngest w (s.ingest w)).ingest w = s.ingest w := ingest_setIngest ..
  have herror : ringStore (s.tick.setIngest w (s.ingest w)) (s.ingest w) off data = .error .migrating := by
    rw [ringStore_setIngest, hstore]
    rfl
  exact ingestWrite_waits hgate hw hoff hdesc hreach hcredits hnone
    (ingestLand_migrating (by rw [hwindow]; exact hreq) (by rw [hwindow]; exact hsize) (by rw [hwindow]; exact herror))

end

end Sys2Proof.Launch
end

section
/-! SUPPORT. The tables that the device reads again at QSYNC, RCBSYNC and INGSYNC (02 R23; 10 R187; 13 R247). -/

namespace Sys2Proof.Launch

open Sys2Proof Sys2Proof.Machine Sys2Proof.Safety Sys2Proof.Laws

/-! Queues -/

theorem queue_setQueue_other (s : State) {q p : Nat} (x : Queue) (h : p ≠ q) : (s.setQueue q x).queue p = s.queue p :=
  Tbl_get_set_other _ _ _ h

theorem writeFree_queues (s : State) (q : Nat) : (s.writeFree q).queues = s.queues := by
  unfold State.writeFree
  dsimp only
  split
  · exact gaStore_queues ..
  · rfl

theorem queueFrozen_tick (s : State) (q : Nat) : s.tick.queueFrozen q = s.queueFrozen q := by
  have hreach : ∀ f r, s.tick.reaches f r = s.reaches f r := fun f r => isAncestor_tick s (s.funcRegion f) r
  unfold State.queueFrozen
  simp only [hreach]
  rfl

/-- QSYNC: the entry is read again, the cards stand. -/
theorem qsync_reads {v : BitVec 32} {s : State} (h : s.queueFrozen (fld 0 16 v) = []) :
    ∃ t, Runs (.qsync v) s t ∧ (t.queue (fld 0 16 v)).entry = some (s.entryInMemory (fld 0 16 v)) ∧
      (t.queue (fld 0 16 v)).cards = (s.queue (fld 0 16 v)).cards ∧ ∀ q, q ≠ fld 0 16 v → t.queue q = s.queue q := by
  have hrun : exec (.qsync v) s = .next ((s.tick.readQueue (fld 0 16 v)).writeFree (fld 0 16 v)).noteAll := by
    have hexec : exec (.qsync v) s = .next (s.tick.writeQsync v) := rfl
    rw [hexec, State.writeQsync, queueFrozen_tick, h]
  have hqueue : ∀ q, State.queue ((s.tick.readQueue (fld 0 16 v)).writeFree (fld 0 16 v)).noteAll q = (s.tick.readQueue (fld 0 16 v)).queue q :=
    queue_congr ((noteAll_queues _).trans (writeFree_queues ..))
  refine ⟨_, hrun, ?_, ?_, fun q hq => ?_⟩
  · rw [hqueue, State.readQueue, queue_setQueue]
    rfl
  · rw [hqueue, State.readQueue, queue_setQueue]
    rfl
  · rw [hqueue, State.readQueue, queue_setQueue_other _ _ hq]
    rfl

/-! Regions -/

/-- The RCB of a region as it stands in the region table. -/
def rcbInMemory (s : State) (r : Nat) : BitVec 512 := BitVec.ofNat 512 (natOf (s.homeBytes (s.regs.regtab.toNat + 64 * r) 64))

theorem region_setRegion_other (s : State) {r a : Nat} (x : Region) (h : a ≠ r) : (s.setRegion r x).region a = s.region a :=
  Tbl_get_set_other _ _ _ h

/-- A read of tables: memory and REGTAB stand, an RCB that is as in memory stays so. -/
structure Reread (s t : State) : Prop where
  mem : t.mem = s.mem
  regs : t.regs = s.regs
  same : ∀ a, (s.region a).rcb = some (rcbInMemory s a) → (t.region a).rcb = some (rcbInMemory s a)

theorem Reread.refl (s : State) : Reread s s := ⟨rfl, rfl, fun _ h => h⟩
theorem Reread.inMemory {s t : State} (h : Reread s t) (a : Nat) : rcbInMemory t a = rcbInMemory s a := by
  simp only [rcbInMemory, State.homeBytes, h.mem, h.regs]
theorem Reread.trans {s t u : State} (h : Reread s t) (g : Reread t u) : Reread s u :=
  ⟨g.mem.trans h.mem, g.regs.trans h.regs, fun a ha => by
    rw [← h.inMemory a]
    exact g.same a (by rw [h.inMemory a]; exact h.same a ha)⟩

theorem reread_foldl {f : State → Nat → State} (hf : ∀ s r, Reread s (f s r)) (l : List Nat) (s : State) : Reread s (l.foldl f s) := by
  induction l generalizing s with
  | nil => exact .refl s
  | cons r l ih => exact (hf s r).trans (ih _)

theorem readRegion_rcb (s : State) (r : Nat) : ((s.readRegion r).region r).rcb = some (rcbInMemory s r) := by
  rw [State.readRegion, region_setRegion]
  rfl

theorem readRegion_reread (s : State) (r : Nat) : Reread s (s.readRegion r) := by
  refine ⟨rfl, rfl, fun a ha => ?_⟩
  by_cases h : a = r
  · rw [h, readRegion_rcb]
  · rw [State.readRegion, region_setRegion_other _ _ h, ha]

theorem readTable_reread (s : State) (r : Nat) : Reread s (s.readTable r) := by
  refine ⟨rfl, rfl, fun a ha => ?_⟩
  by_cases h : a = r
  · subst h
    rw [State.readTable, region_setRegion]
    exact ha
  · rw [State.readTable, region_setRegion_other _ _ h, ha]

/-- Every region of a list that is read holds its RCB as it stands in memory. -/
theorem readRegion_foldl_rcb {s : State} {l : List Nat} {a : Nat} (h : a ∈ l) :
    ((l.foldl State.readRegion s).region a).rcb = some (rcbInMemory s a) := by
  induction l generalizing s with
  | nil => cases h
  | cons r l ih =>
    have hread := readRegion_reread s r
    rw [List.foldl_cons]
    by_cases ha : a = r
    · subst ha
      have hsame := (reread_foldl readRegion_reread l (s.readRegion a)).same a
      rw [hread.inMemory] at hsame
      exact hsame (readRegion_rcb s a)
    · rw [← hread.inMemory a]
      exact ih ((List.mem_cons.mp h).resolve_left ha)

theorem mem_regions_of_rcb {s : State} {a : Nat} (h : (s.region a).rcb.isSome = true) : a ∈ s.regions.map (·.1) := by
  unfold State.region at h
  generalize s.regions = t at h
  induction t with
  | nil => cases h
  | cons e t ih =>
    obtain ⟨k, x⟩ := e
    rw [Tbl_get_cons] at h
    split at h
    case isTrue hk => simp [hk]
    case isFalse hk => exact List.mem_cons_of_mem _ (ih h)

/-- RCBSYNC: the region and its descendants are read again. -/
theorem syncRegion_rcb {s : State} {r a : Nat} (h : a = r ∨ ((s.region a).rcb.isSome = true ∧ s.isAncestor r a = true)) :
    ((s.syncRegion r).region a).rcb = some (rcbInMemory s a) := by
  unfold State.syncRegion
  extract_lets below old s1 s2
  have hmem : a ∈ r :: old := by
    obtain rfl | ⟨hrcb, hanc⟩ := h
    · exact List.mem_cons_self ..
    · refine List.mem_cons_of_mem _ (List.mem_filter.mpr ⟨mem_regions_of_rcb hrcb, ?_⟩)
      rw [hrcb, hanc]
      rfl
  have h1 : (s1.region a).rcb = some (rcbInMemory s a) := readRegion_foldl_rcb hmem
  have hs1 : Reread s s1 := reread_foldl readRegion_reread _ s
  have hs2 : Reread s1 s2 := reread_foldl readRegion_reread _ s1
  have h12 := hs2.trans (reread_foldl readTable_reread (r :: below s2) s2)
  rw [← hs1.inMemory a] at h1 ⊢
  exact h12.same a h1

/-! Windows -/

/-- A descriptor that is judged stays or is disabled; one that is not enabled stays. -/
theorem judgeIngest_window (s : State) (w : Nat) : ((s.judgeIngest w).ingest w).count = (s.ingest w).count ∧
    (((s.judgeIngest w).ingest w).desc = (s.ingest w).desc ∨ ((s.judgeIngest w).ingest w).desc = some 0) ∧
    (flag 97 (s.ingest w).word = false → ((s.judgeIngest w).ingest w).desc = (s.ingest w).desc) := by
  unfold State.judgeIngest
  dsimp only
  cases hen : flag 97 (s.ingest w).word with
  | false =>
    simp only [Bool.false_eq_true, if_false, ingest_setIngest]
    exact ⟨trivial, .inl trivial, fun _ => trivial⟩
  | true =>
    simp only [if_true]
    split
    · rw [ingest_setIngest]
      exact ⟨rfl, .inl rfl, fun _ => rfl⟩
    · rw [ingest_raiseIngest, ingest_setIngest]
      exact ⟨rfl, .inr rfl, nofun⟩
    · rw [ingest_setIngest]
      exact ⟨rfl, .inl rfl, fun _ => rfl⟩

/-- The descriptor of a window as it stands in the ingest table. -/
def descInMemory (s : State) (w : Nat) : BitVec 512 := BitVec.ofNat 512 (natOf (s.homeBytes (s.regs.ingtab.toNat + 64 * w) 64))

/-- INGSYNC where no interface is frozen: the descriptor is read again and judged, the counter stands. -/
theorem ingsync_reads {v : BitVec 32} {s : State} (h : s.frozen = []) :
    ∃ t, Runs (.ingsync v) s t ∧ ((t.ingest (fld 0 6 v)).desc = some (descInMemory s (fld 0 6 v)) ∨ (t.ingest (fld 0 6 v)).desc = some 0) ∧
      (flag 97 (descInMemory s (fld 0 6 v)) = false → (t.ingest (fld 0 6 v)).desc = some (descInMemory s (fld 0 6 v))) ∧
      (t.ingest (fld 0 6 v)).count = (s.ingest (fld 0 6 v)).count := by
  have hexec : exec (.ingsync v) s = .next (s.tick.writeIngsync v) := rfl
  have hread : s.tick.writeIngsync v = s.tick.readIngest (fld 0 6 v) := by
    have hfrozen : s.tick.frozen = [] := h
    unfold State.writeIngsync
    simp only [hfrozen, List.filter_nil, ite_self, List.isEmpty_nil, if_true]
  refine ⟨_, hexec, ?_⟩
  rw [hread]
  unfold State.readIngest
  extract_lets d y n x
  obtain ⟨hcount, hdesc, hoff⟩ := judgeIngest_window ((s.tick.useQueue x.queue).setIngest (fld 0 6 v) x) (fld 0 6 v)
  rw [ingest_setIngest] at hcount hdesc hoff
  exact ⟨hdesc, hoff, hcount⟩

end Sys2Proof.Launch
end

section
/-! SUPPORT. The end of a window of the role scheduler (02 R30): one warp has its flag raised or cleared. -/

namespace Sys2Proof.Launch

open Sys2Proof Sys2Proof.Machine Sys2Proof.Safety Sys2Proof.Laws

theorem warp_setWarp_other (s : State) {v w : Who} (x : Option Warp) (h : v ≠ w) : (s.setWarp w x).warp v = s.warp v := by
  obtain ⟨c, p⟩ := w
  obtain ⟨d, q⟩ := v
  by_cases hd : d = c
  · subst hd
    have hpq : q ≠ p := fun e => h (by rw [e])
    cases p <;> cases q <;> simp [State.warp, State.setWarp]
    case warp.warp m n => exact Tbl_get_set_other _ _ _ fun e => hpq (by rw [e])
    case landing.landing => exact absurd rfl hpq
  · cases p <;> cases q <;> simp [State.warp, State.setWarp, core_updCore_other _ _ hd]

/-- A warp once the flag of party w is f. -/
def flagged (w : Who) (f : Option Nat) (v : Who) (y : Warp) : Warp := if v = w then { y with flag := f } else y

theorem flagged_away (w : Who) (f : Option Nat) (v : Who) (y : Warp) : (flagged w f v y).away = y.away := by
  unfold flagged
  split <;> rfl
theorem flagged_role (w : Who) (f : Option Nat) (v : Who) (y : Warp) : (flagged w f v y).role = y.role := by
  unfold flagged
  split <;> rfl
theorem flagged_wid (w : Who) (f : Option Nat) (v : Who) (y : Warp) : (flagged w f v y).wid = y.wid := by
  unfold flagged
  split <;> rfl

theorem warp_of_slotWarp {s : State} {core n : Nat} {e : Who × Warp} (h : s.slotWarp core n = some e) : s.warp e.1 = some e.2 := by
  unfold State.slotWarp at h
  split at h
  case h_1 x hx =>
    split at h
    · obtain ⟨y, hy, rfl⟩ := Option.map_eq_some_iff.mp h
      exact hy
    · obtain rfl := Option.some.inj h
      exact hx
  case h_2 => cases h

/-- A flag is that of one warp: its slot's, wherever it stands. -/
theorem warp_setFlag {s : State} {core n : Nat} {e : Who × Warp} (h : s.slotWarp core n = some e) (slot : Nat) (f : Option Nat) (v : Who) :
    (s.setFlag core slot n f).warp v = (s.warp v).map (flagged e.1 f v) := by
  have hwarp := warp_of_slotWarp h
  rw [State.setFlag, h, warp_updBlock]
  dsimp only
  by_cases hv : v = e.1
  · subst hv
    rw [warp_updWarp, hwarp]
    simp [flagged]
  · have hid : flagged e.1 f v = id := funext fun y => if_neg hv
    rw [updWarp_eq hwarp, warp_setWarp_other _ _ hv, hid, Option.map_id]
    rfl

theorem slotWarp_setFlag {s : State} {core n : Nat} {e : Who × Warp} (h : s.slotWarp core n = some e) (slot : Nat) (f : Option Nat) (m : Nat) :
    (s.setFlag core slot n f).slotWarp core m = (s.slotWarp core m).map fun x => (x.1, flagged e.1 f x.1 x.2) := by
  unfold State.slotWarp
  simp only [warp_setFlag h]
  cases s.warp ⟨core, .warp m⟩ with
  | none => rfl
  | some y =>
    simp only [Option.map_some, flagged_away]
    cases y.away with
    | none => rfl
    | some l =>
      dsimp only
      cases s.warp ⟨l, .landing⟩ <;> rfl

/-! Counting the warps that convert -/

/-- The warps of a block, and those that load as converters or will. -/
def flagWarps (s : State) (core : Nat) (b : Block) : List (Nat × Warp) := b.warps.filterMap fun n => (s.slotWarp core n).map fun w => (n, w.2)
def converts (t : BitVec 512) (p : Nat × Warp) : Bool := (roleOf t p.2.wid == 1 && p.2.role == 0) || p.2.flag == some 0
def flagCount (s : State) (core : Nat) (b : Block) (t : BitVec 512) : Nat := ((flagWarps s core b).filter (converts t)).length

/-- The warps of a block with their parties. -/
def flagParties (s : State) (core : Nat) (b : Block) : List (Nat × Who × Warp) := b.warps.filterMap fun n => (s.slotWarp core n).map fun e => (n, e)

theorem flagCount_eq (s : State) (core : Nat) (b : Block) (t : BitVec 512) :
    flagCount s core b t = (flagParties s core b).countP fun e => converts t (e.1, e.2.2) := by
  have hmap : flagWarps s core b = (flagParties s core b).map fun e => (e.1, e.2.2) := by
    simp only [flagWarps, flagParties, List.map_filterMap, Option.map_map]
    rfl
  rw [flagCount, hmap, ← List.countP_eq_length_filter, List.countP_map]
  rfl

theorem flagCount_setFlag {s : State} {core n : Nat} {e : Who × Warp} (h : s.slotWarp core n = some e) (slot : Nat) (f : Option Nat)
    (b : Block) (t : BitVec 512) :
    flagCount (s.setFlag core slot n f) core b t =
      (flagParties s core b).countP fun x => converts t (x.1, flagged e.1 f x.2.1 x.2.2) := by
  have hmap : flagParties (s.setFlag core slot n f) core b =
      (flagParties s core b).map fun x => (x.1, x.2.1, flagged e.1 f x.2.1 x.2.2) := by
    simp only [flagParties, slotWarp_setFlag h, List.map_filterMap, Option.map_map]
    rfl
  rw [flagCount_eq, hmap, List.countP_map]
  rfl

/-- Tests that differ on one key count at most one more, where keys are told apart. -/
theorem countP_le_succ {α β : Type} [DecidableEq β] (key : α → β) (k : β) {p q : α → Bool} (h : ∀ a, key a ≠ k → q a = p a) {l : List α}
    (hl : (l.map key).Nodup) : l.countP q ≤ l.countP p + 1 := by
  induction l with
  | nil => simp
  | cons a l ih =>
    obtain ⟨ha, hl⟩ := List.nodup_cons.mp hl
    by_cases hk : key a = k
    · have hrest : l.countP q = l.countP p :=
        List.countP_congr fun x hx => by rw [h x fun e => ha (List.mem_map.mpr ⟨x, hx, e.trans hk.symm⟩)]
      rw [List.countP_cons, List.countP_cons, hrest]
      split <;> split <;> omega
    · rw [List.countP_cons, List.countP_cons, h a hk]
      have := ih hl
      omega

/-- A flag cleared, or of the other direction, makes no warp convert. -/
theorem flagCount_setFlag_le {s : State} {core n : Nat} {e : Who × Warp} (h : s.slotWarp core n = some e) (slot : Nat) {f : Option Nat}
    (hf : f ≠ some 0) (b : Block) (t : BitVec 512) : flagCount (s.setFlag core slot n f) core b t ≤ flagCount s core b t := by
  rw [flagCount_setFlag h, flagCount_eq]
  refine List.countP_mono_left fun x _ hx => ?_
  simp only [converts, flagged_wid, flagged_role, Bool.or_eq_true] at hx ⊢
  refine hx.imp_right fun hflag => ?_
  unfold flagged at hflag
  split at hflag
  · exact absurd (by simpa using hflag) hf
  · exact hflag

/-- A flag raised makes one warp more convert. -/
theorem flagCount_setFlag_le_succ {s : State} {core n : Nat} {e : Who × Warp} (h : s.slotWarp core n = some e) (slot : Nat) (f : Option Nat)
    {b : Block} (t : BitVec 512) (hl : (b.warps.filterMap fun n => (s.slotWarp core n).map (·.1)).Nodup) :
    flagCount (s.setFlag core slot n f) core b t ≤ flagCount s core b t + 1 := by
  have hkeys : ((flagParties s core b).map fun x => x.2.1).Nodup := by
    simp only [flagParties, List.map_filterMap, Option.map_map]
    exact hl
  rw [flagCount_setFlag h, flagCount_eq]
  refine countP_le_succ (fun x => x.2.1) e.1 (fun x hx => ?_) hkeys
  simp only [flagged, if_neg hx]

/-! The window -/

/-- What the end of a window may do (02 R30): nothing, or the flag of one warp of the block changes; a flag is raised towards LOAD only below the
table's limit. -/
def RoleMove (s : State) (core slot : Nat) (b : Block) (x : Roles) (t : State) : Prop :=
  t = s ∨ ∃ n e f, s.slotWarp core n = some e ∧ t = s.setFlag core slot n f ∧ (f = some 0 → flagCount s core b x.table < fld 360 5 x.table)

theorem roleMove_find {s : State} {core : Nat} {b : Block} {p : Nat × Warp → Bool} {l : List (Nat × Warp)} {y : Nat × Warp}
    (hy : l.find? p = some y) (hl : ∀ z ∈ l, z ∈ flagWarps s core b) (slot : Nat) (x : Roles) (f : Option Nat)
    (hf : f = some 0 → flagCount s core b x.table < fld 360 5 x.table) : RoleMove s core slot b x (s.setFlag core slot y.1 f) := by
  obtain ⟨n, -, hn⟩ := List.mem_filterMap.mp (hl y (List.mem_of_find?_eq_some hy))
  obtain ⟨e, he, rfl⟩ := Option.map_eq_some_iff.mp hn
  exact .inr ⟨n, e, f, he, rfl, hf⟩

theorem RoleMove.of_ite {s t u : State} {core slot : Nat} {b : Block} {x : Roles} {c : Prop} [Decidable c] (ht : RoleMove s core slot b x t)
    (hu : RoleMove s core slot b x u) : RoleMove s core slot b x (if c then t else u) := by
  split
  · exact ht
  · exact hu

theorem roleWindow_moves {s : State} {core slot : Nat} {b : Block} {x : Roles} (hb : s.block core slot = some b) (hx : b.roles = some x) :
    RoleMove s core slot b x (s.roleWindow core slot) := by
  have hall : ∀ z ∈ flagWarps s core b, z ∈ flagWarps s core b := fun _ h => h
  have hrev : ∀ z ∈ (flagWarps s core b).reverse, z ∈ flagWarps s core b := fun _ h => List.mem_reverse.mp h
  unfold State.roleWindow
  simp only [hb, hx]
  refine .of_ite (.inl rfl) (.of_ite ?low (.of_ite ?high (.inl rfl)))
  case low =>
    split
    case h_1 hy => exact roleMove_find hy hall slot x none nofun
    case h_2 =>
      split
      case isTrue => exact .inl rfl
      case isFalse hmax =>
        split
        case h_1 hy => exact roleMove_find hy hall slot x (some 0) fun _ => Nat.not_le.mp hmax
        case h_2 => exact .inl rfl
  case high =>
    split
    case h_1 hy => exact roleMove_find hy hall slot x none nofun
    case h_2 =>
      split
      case h_1 hy => exact roleMove_find hy hrev slot x (some 1) nofun
      case h_2 => exact .inl rfl

/-- The end of the low window (02 R30): with no flag to clear and the limit not reached, the first warp that converts and is blocked as it
takes has its flag raised. -/
theorem roleWindow_raises {s : State} {core slot : Nat} {b : Block} {x : Roles} {a n : Nat} {w : Warp} (hb : s.block core slot = some b)
    (hx : b.roles = some x) (hbad : b.roleBad = false) (hmax : fld 360 5 x.table ≠ 0) (hbroken : rolesBroken b b.warpCount x.table = false)
    (hlow : x.lowSince = some a) (hpast : a + 16 * fld 344 16 x.table ≤ s.tref.toNat) (hclear : ∀ p ∈ flagWarps s core b, p.2.flag ≠ some 1)
    (hcount : flagCount s core b x.table < fld 360 5 x.table)
    (hfind : ((flagWarps s core b).find? fun p => p.2.role == 1 && p.2.flag.isNone && b.takingBlocked p.1 p.2) = some (n, w)) :
    s.roleWindow core slot = s.setFlag core slot n (some 0) := by
  have hguard : (b.roleBad || decide (fld 360 5 x.table = 0) || rolesBroken b b.warpCount x.table) = false := by
    simp [hbad, hmax, hbroken]
  have hnone : (flagWarps s core b).find? (fun p => p.2.flag == some 1) = none :=
    List.find?_eq_none.mpr fun p hp => by simpa using hclear p hp
  unfold flagCount at hcount
  unfold flagWarps converts at *
  unfold State.roleWindow
  simp only [hb, hx, hguard, hlow, hpast, hnone, hfind, Bool.false_eq_true, if_false, decide_true, if_true, if_neg (Nat.not_le.mpr hcount)]

theorem roleFlagWindow_moves {s : State} {core slot : Nat} {b : Block} {x : Roles} (hb : s.block core slot = some b) (hx : b.roles = some x) :
    Runs (.roleFlagWindow core slot) s (s.tick.roleWindow core slot) ∧ RoleMove s.tick core slot b x (s.tick.roleWindow core slot) :=
  ⟨rfl, roleWindow_moves hb hx⟩

/-- One warp's flag may change, and nothing else of any warp. -/
theorem RoleMove.warps {s t : State} {core slot : Nat} {b : Block} {x : Roles} (h : RoleMove s core slot b x t) :
    (∃ n, ∀ w, (s.slotWarp core n).map (·.1) ≠ some w → t.warp w = s.warp w) ∧ ∀ w, (t.warp w).map (·.role) = (s.warp w).map (·.role) := by
  obtain rfl | ⟨n, e, f, he, rfl, -⟩ := h
  · exact ⟨⟨0, fun _ _ => rfl⟩, fun _ => rfl⟩
  · refine ⟨⟨n, fun w hw => ?_⟩, fun w => ?_⟩
    · have hid : flagged e.1 f w = id := funext fun y => if_neg fun hwe => hw (by rw [he, hwe]; rfl)
      rw [warp_setFlag he, hid, Option.map_id]
      rfl
    · have hrole : (fun y : Warp => y.role) ∘ flagged e.1 f w = fun y => y.role := funext fun y => flagged_role ..
      rw [warp_setFlag he, Option.map_map, hrole]

/-- The limit holds where it held. -/
theorem RoleMove.limit {s t : State} {core slot : Nat} {b : Block} {x : Roles} (h : RoleMove s core slot b x t)
    (hl : (b.warps.filterMap fun n => (s.slotWarp core n).map (·.1)).Nodup) (hmax : flagCount s core b x.table ≤ fld 360 5 x.table) :
    flagCount t core b x.table ≤ fld 360 5 x.table := by
  obtain rfl | ⟨n, e, f, he, rfl, hbelow⟩ := h
  · exact hmax
  · by_cases hf : f = some 0
    · exact (flagCount_setFlag_le_succ he slot f x.table hl).trans (hbelow hf)
    · exact (flagCount_setFlag_le he slot hf b x.table).trans hmax

end Sys2Proof.Launch
end

section
/-! SUPPORT. Launch, posts and ingest as the dispatcher, the host interface and the role scheduler carry them out: the statement. -/

namespace Sys2Proof.Launch

open Sys2Proof Sys2Proof.Machine Sys2Proof.Safety Sys2Proof.Laws

/-- The run and the block of a chunk, as CHUNK_GRAB leaves them (10 R194). -/
theorem grab_deals {s t : State} {run : Nat} {r r' : CardRun} (h : s.grab run r = some (t, r')) :
    r'.remaining + s.chunkSize r.card r.remaining = r.remaining ∧ r'.next = r.next + 1 ∧ r'.live = r.live ++ [r.next] ∧ t.run run = some r' ∧
    ∃ core slot b, t.block core slot = some b ∧ b.dealt.run = run ∧ b.dealt.num = r.next ∧ b.dealt.lo = cardReccount r.card - r.remaining ∧
      b.dealt.hi = b.dealt.lo + s.chunkSize r.card r.remaining ∧ b.dealt.region = r.region ∧ b.dealt.asid = s.effAsid r.region := by
  obtain ⟨rfl, hrun, core, slot, b, age, hb, hdealt⟩ := grab_some h
  refine ⟨Nat.sub_add_cancel (chunkSize_le ..), rfl, rfl, hrun, core, slot, b, hb, ?_⟩
  rw [hdealt]
  exact ⟨rfl, rfl, rfl, rfl, rfl, rfl⟩

/-- A block placed again: what a rank of 0 says. -/
def Again (c : Cand) : Prop := match c.kind with | .fresh .. => False | .saved .. => True

theorem again_of_rank_le {a b : Cand} (h : candRank a ≤ candRank b) (hb : Again b) : Again a := by
  unfold Again candRank at *
  cases ha : a.kind with
  | saved => trivial
  | fresh =>
    cases hkind : b.kind with
    | fresh => simp [hkind] at hb
    | saved => simp [ha, hkind] at h

/-- What a post asks of its card and its queue. -/
theorem fits_iff {data : List Byte} {x : Queue} : (data.length = 128 && cardDepth (BitVec.ofNat 1024 (natOf data)) = 0 && x.hostOpen) = true ↔
    data.length = 128 ∧ cardDepth (BitVec.ofNat 1024 (natOf data)) = 0 ∧ x.hostOpen = true := by
  simp [and_assoc]

theorem ringStore_tick (s : State) (x : Ingest) (off : Nat) (data : List Byte) : ringStore s.tick x off data =
    s.tick.deviceStore (s.effAsid x.region) (data.length / 4096 + 2) (x.base + BitVec.ofNat 64 (off % x.size)) data := by
  rw [ringStore, effAsid_tick]

/-- Settles O57: a clause for each event of launch, each from the lemma that says what the event's operation does. -/
theorem launchEvents : Obligations.LaunchEvents := by
  unfold Obligations.LaunchEvents
  intro heads gated
  refine ⟨?chunk, ?grab, ?order, ?dispatch, ?refuse, ?wait, ?blockEnd, ?done, ?post, ?ingest, ?qsync, ?rcbsync, ?ingsync, ?roles⟩
  case chunk => exact fun s c rem hd => chunkSize_eq s c rem hd
  case grab => exact fun s run r t r' h => grab_deals h
  case order =>
    intro s
    refine ⟨(candidates_precede s).imp fun {a b} h => ?_, fun q c rest hcards hvalid hready hrun hreset =>
      head_competes hcards hvalid hready hrun hreset⟩
    obtain ⟨hprio, h⟩ := h
    refine ⟨hprio, fun e => ?_⟩
    obtain ⟨hdealt, h⟩ := h e
    refine ⟨hdealt, fun e => ?_⟩
    obtain ⟨hregion, h⟩ := h e
    refine ⟨hregion, fun e => ?_⟩
    obtain ⟨hqueue, h⟩ := h e
    refine ⟨hqueue, fun e => ?_⟩
    obtain ⟨hposted, h⟩ := h e
    exact ⟨hposted, fun e => again_of_rank_le (h e)⟩
  case dispatch => exact fun s l c m t hsave hc hl ht => dispatch_first rfl hsave hc hl ht
  case refuse => exact fun s q c key cause a hrun hjudge hcause => tryDeal_refused hrun hjudge hcause
  case wait => exact fun q s c rest bs hcards hvalid hctr hregion hread => waitctrRead_reads hcards hvalid hctr hregion hread
  case blockEnd => exact fun core blk s b r hb hover hr => blockEnd_ends hb hover hr
  case done => exact fun s run r l hva halign hleaf hunit hdisc hphys hquiet => doneIncrement_counts hva halign hleaf hunit hdisc hphys hquiet
  case post =>
    intro f q ide data s p card fit hgate hq hreach
    have hrun := hostPost_taken (data := data) hgate hq hreach
    refine ⟨fun t hfit ht => ?_, fun h => ?_⟩
    · rw [if_pos (fits_iff.mpr hfit)] at hrun
      rwa [show (s.tick.useQueue q).enqueue q _ none = some t from ht] at hrun
    · by_cases hfit : fit
      · rw [if_pos (fits_iff.mpr hfit)] at hrun
        rwa [show (s.tick.useQueue q).enqueue q _ none = none from h.resolve_left (not_not_intro hfit)] at hrun
      · rwa [if_neg fun h => hfit (fits_iff.mp h)] at hrun
  case ingest =>
    intro f w off req ide data s x q hgate hw hoff hdesc hen hreach
    refine ⟨fun hjudged hfull => ingestWrite_withheld hgate hw hoff hdesc hen hreach hjudged hfull, fun hjudged hopen hfree hnone hpaid => ?_⟩
    have hcredits : Credits s w := ⟨hjudged, hen, hopen, hfree, hpaid⟩
    refine ⟨ingestWrite_refused hgate hw hoff hdesc hreach hcredits hnone, fun hreq hsize => ⟨fun z hz => ?_, fun hmig => ?_⟩⟩
    · obtain ⟨t, hrun, hwindow⟩ := ingestWrite_stored hgate hw hoff hdesc hreach hcredits hnone hreq hsize ((ringStore_tick ..).trans hz)
      exact ⟨t, hrun, (congrArg Ingest.count hwindow :), (congrArg Ingest.desc hwindow :), (congrArg Ingest.waiting hwindow :).trans hnone⟩
    · exact ingestWrite_migrating hgate hw hoff hdesc hreach hcredits hnone hreq hsize ((ringStore_tick ..).trans hmig)
  case qsync => exact fun v s h => qsync_reads h
  case rcbsync =>
    exact fun v s => ⟨_, rfl, fun a h => syncRegion_rcb (s := s.tick) (h.imp_right fun h => ⟨h.1, (isAncestor_tick ..).trans h.2⟩)⟩
  case ingsync => exact fun v s h => ingsync_reads h
  case roles =>
    intro core slot s b x hb hx max ws counts
    obtain ⟨hrun, hmoves⟩ := roleFlagWindow_moves hb hx
    refine ⟨_, hrun, hmoves.warps.1, hmoves.warps.2, hmoves.limit, ?_⟩
    intro a n w hbad hmax hbroken hlow hpast hclear hcount hfind y hy
    rw [roleWindow_raises (s := s.tick) hb hx hbad hmax hbroken hlow hpast hclear hcount hfind, warp_setFlag (s := s.tick) hy,
      warp_of_slotWarp (s := s.tick) hy]
    simp [flagged]

end Sys2Proof.Launch
end

section
/-! SUPPORT. What an update of the state leaves of a warp, of the slot of a party's block and of a block; and the word that completes with
its own effect. -/

namespace Sys2Proof.Laws

open Sys2Proof Sys2Proof.Machine Sys2Proof.Safety

/-! A table after entries are left out, and after each is changed -/

theorem Tbl_get_drop {α : Type} (d : α) (t : Tbl α) (p : Nat → Bool) (k : Nat) :
    Tbl.get d (Tbl.drop t p) k = if p k = true then d else Tbl.get d t k := by
  induction t with
  | nil => simp [Tbl.drop]
  | cons e t ih =>
    obtain ⟨j, v⟩ := e
    have htail : Tbl.get d (List.filter (fun e => !p e.1) t) k = if p k = true then d else Tbl.get d t k := ih
    by_cases hj : p j = true
    · rw [Tbl.drop, List.filter_cons_of_neg (by simp [hj]), htail, Tbl_get_cons]
      by_cases h : j = k
      · subst h; simp [hj]
      · rw [if_neg h]
    · rw [Tbl.drop, List.filter_cons_of_pos (by simp [hj]), Tbl_get_cons, htail, Tbl_get_cons]
      by_cases h : j = k
      · subst h; simp [hj]
      · simp [h]

theorem Tbl_get_map {α β : Type} (d : α) (t : Tbl α) (f : α → β) (k : Nat) :
    Tbl.get (f d) (t.map fun e => (e.1, f e.2)) k = f (Tbl.get d t k) := by
  induction t with
  | nil => rfl
  | cons e t ih =>
    rw [List.map_cons, Tbl_get_cons, Tbl_get_cons (k' := e.1) (v := e.2), ih]
    split <;> rfl

/-! What an update keeps of a warp -/

section
variable {γ : Type} (g : Warp → γ)

/-- An update of one warp keeps, of every warp, each part that it keeps of the one. -/
theorem warp_part_updWarp {f : Warp → Warp} (hf : ∀ x, g (f x) = g x) (s : State) (w v : Who) :
    ((s.updWarp w f).warp v).map g = (s.warp v).map g := by
  by_cases h : v = w
  · subst h
    rw [warp_updWarp, Option.map_map]
    exact congrArg (Option.map · _) (funext hf)
  · unfold State.updWarp
    split
    · rw [Launch.warp_setWarp_other _ _ h]
    · rfl

theorem warp_part_updFlight (hg : ∀ (x : Warp) (y : Flight), g { x with flight := y } = g x) (s : State) (w v : Who)
    (h : Flight → Flight) : ((s.updFlight w h).warp v).map g = (s.warp v).map g := by
  unfold State.updFlight
  split
  · rw [warp_updFront]
  · rfl
  · exact warp_part_updWarp g (fun x => hg x _) s w v

end

/-- The warps after a change of the other parts of a core. -/
theorem warp_updCore (s : State) (c : Nat) (w : Who) {f : Core → Core} (hwarps : (f (s.core c)).warps = (s.core c).warps)
    (hlanding : (f (s.core c)).landing = (s.core c).landing) : (s.updCore c f).warp w = s.warp w := by
  obtain ⟨d, p⟩ := w
  by_cases h : d = c
  · subst h
    cases p <;> simp [State.warp, hwarps, hlanding]
  · cases p <;> simp [State.warp, core_updCore_other _ _ h]

/-! STATLIMIT of the first word of a pair (06 R118): what holds it back until the pair ends -/

section
variable (s : State) (w : Who)

theorem due_keepBad (x y : Warp) (l : List Nat) : (x.keepBad y l).due = y.due := (congrArg Warp.due (keepBad_rest x y l) :).symm

theorem due_arriveOc (x : Warp) (dst : List Nat) (h : Hint) (vals : List (Nat × DWord)) : (x.arriveOc dst h vals).due = x.due := by
  refine foldl_keeps Warp.due (fun y n => ?_) dst x
  have hprev : (y.notePrev x (keyLanes vals n) n).due = y.due := (congrArg Warp.due (notePrev_rest y x (keyLanes vals n) n) :).symm
  dsimp only
  split
  · exact hprev
  · exact hprev

theorem due_setX (x : Warp) (r l : Nat) (v : Word) : (x.setX s r l v).due = x.due := (congrArg Warp.due (setX_rest s x r l v) :).symm

theorem due_arrive (dst : List Nat) (h : Hint) (vals : List (Nat × DWord)) :
    ((s.arrive w dst h vals).warp w).map (·.due) = (s.warp w).map (·.due) := by
  unfold State.arrive
  split
  · rw [warp_updFront]
  · rfl
  · refine warp_part_updWarp _ (fun x => ?_) s w w
    rw [due_keepBad, foldl_keeps Warp.due (fun y e => due_setX s y _ _ _), due_arriveOc]

theorem due_landNow (s0 : State) : ((s0.landNow s w).warp w).map (·.due) = (s.warp w).map (·.due) := by
  unfold State.landNow
  dsimp only
  split
  · rfl
  · rw [foldl_keeps (fun t : State => (t.warp w).map (·.due)) (fun t r => due_arrive t w _ _ _)]
    exact warp_part_updFlight _ (fun _ _ => rfl) s w w _

theorem due_cacheWord (s0 : State) (c : Ctx) (u : Use) : ((s0.cacheWord s c u).warp w).map (·.due) = (s.warp w).map (·.due) := by
  unfold State.cacheWord
  split
  · rename_i w0 _
    refine warp_part_updWarp _ (fun x => ?_) s c.who w
    exact (congrArg Warp.due (cacheWord_rest s0 u c.exec w0 x) :).symm
  · rfl

theorem due_paid (c : Ctx) (i : Instr) : ((paid s c i).warp w).map (·.due) = (s.warp w).map (·.due) := by
  unfold paid State.pay
  split
  · rfl
  · split
    · exact warp_part_updWarp (·.due) (f := fun x => { x with paid := false }) (fun _ => rfl) s.tick c.who w
    · unfold State.requestWide
      split
      · rfl
      · rw [warp_updCore _ _ _ rfl rfl, warp_tick]

end

/-- A WORD THAT COMPLETES: an issue whose effect on the paid state is E gives E, where E leaves a due STATLIMIT due. -/
theorem gives_of_done {s E : State} {i : Instr} {op : Nat} {g : Guard} {c : Ctx} {k : Ctx → State → Res} {f : Fin}
    (h : Issues s i op g c) (hexec : exec i s = s.issue i op g k) (hk : k c (paid s c i) = .done E f)
    (hdue : (E.warp c.who).map (·.due) = ((paid s c i).warp c.who).map (·.due)) : Gives s c i E f := by
  unfold Gives Runs
  rw [hexec, issue_ready h.ready, hk]
  refine congrArg Host.Outcome.next (settle_done fun hsecond => ?_)
  have hstill : ((((paid s c i).landNow ((paid s c i).cacheWord E c (i.use c.cls)) c.who).warp c.who).map (·.due)) =
      (s.warp c.who).map (·.due) := by
    rw [due_landNow, due_cacheWord, hdue, due_paid]
  simpa only [Option.bind_map, Function.id_comp, h.notDue hsecond] using congrArg (·.bind id) hstill

/-! The slot of a party's block -/

/-- The slot is read from the warp's origin and block, or from the engine's commands. -/
theorem home_congr {s t : State} {w : Who} (hwarp : (t.warp w).map (fun x => (x.origin, x.blk)) = (s.warp w).map fun x => (x.origin, x.blk))
    (hcmds : (t.core w.core).cmds = (s.core w.core).cmds) : t.home w = s.home w := by
  unfold State.home
  rw [hcmds]
  split
  · rfl
  · rfl
  · cases ht : t.warp w <;> cases hs : s.warp w <;> simp_all

theorem cmds_updCore (s : State) (c d : Nat) {f : Core → Core} (hf : ∀ k, (f k).cmds = k.cmds) :
    ((s.updCore c f).core d).cmds = (s.core d).cmds := by
  by_cases h : d = c
  · subst h
    rw [core_updCore_same, hf]
  · rw [core_updCore_other _ _ h]

theorem cmds_updBlock (s : State) (c b d : Nat) (f : Block → Block) : ((s.updBlock c b f).core d).cmds = (s.core d).cmds := by
  unfold State.updBlock
  split
  · exact cmds_updCore s c d fun _ => rfl
  · rfl

/-! What an update of a block keeps -/

/-- An update of one block keeps, of every block, each part that it keeps of the one. -/
theorem block_part_updBlock {γ : Type} (g : Block → γ) {f : Block → Block} (hf : ∀ x, g (f x) = g x) (s : State) (c b d e : Nat) :
    ((s.updBlock c b f).block d e).map g = (s.block d e).map g := by
  by_cases h : d = c ∧ e = b
  · obtain ⟨rfl, rfl⟩ := h
    rw [block_updBlock, Option.map_map]
    exact congrArg (Option.map · _) (funext hf)
  · unfold State.updBlock
    split
    · rw [block_setBlock_other _ _ h]
    · rfl

end Sys2Proof.Laws
end

section
/-! SUPPORT. The registers of a party as operands (03 R42, R53). -/

namespace Sys2Proof.Frames

open Sys2Proof Sys2Proof.Machine Sys2Proof.Safety Sys2Proof.Laws

/-! The registers of a warp -/

theorem isWarp_of_lane {w : Who} (h : partyCls w.party = .lane) : IsWarp w := by
  obtain ⟨c, p⟩ := w
  cases p <;> simp_all [partyCls, IsWarp]

section
variable {s : State} {c : Ctx} (hc : IsWarp c.who)
include hc

theorem get_of_isWarp (r l : Nat) : s.get c r l = ((s.warp c.who).map fun x => (x.x s r l).setWidth 64).getD 0 := by
  unfold State.get
  rcases hc with h | ⟨n, h⟩
  all_goals
    simp only [h]
    cases s.warp c.who <;> rfl

theorem put_of_isWarp (m : BitVec 32) (r : Nat) (v : Nat → DWord) :
    s.put c m r v = s.updWarp c.who fun x => x.setLanes s m r fun l => (v l).setWidth 32 := by
  unfold State.put
  rcases hc with h | ⟨n, h⟩ <;> simp only [h]

end

theorem val_of_isWarp {w : Who} (hw : IsWarp w) (s : State) (r l : Nat) :
    val s w r l = ((s.warp w).map fun x => if r = 0 then 0 else (Tbl.get 0 x.regs (32 * r + l)).setWidth 64).getD 0 := by
  unfold val
  rcases hw with h | ⟨n, h⟩
  all_goals
    simp only [h]
    cases s.warp w <;> rfl

theorem flight_of_isWarp {w : Who} (hw : IsWarp w) (s : State) : s.flight w = ((s.warp w).map (·.flight)).getD Flight.init := by
  unfold State.flight
  rcases hw with h | ⟨n, h⟩ <;> simp only [h]

/-! Reads -/

/-- With no result in flight a lane reads what the frame holds (03 R53). -/
theorem x_of_no_results {x : Warp} (h : x.flight.results = []) (s : State) (r l : Nat) :
    (x.x s r l).setWidth 64 = if r = 0 then 0 else (Tbl.get 0 x.regs (32 * r + l)).setWidth 64 := by
  unfold Warp.x
  split
  · rfl
  · rw [h]
    simp [pending]

theorem get_eq_val {s : State} {c : Ctx} (h : (s.flight c.who).results = []) (r l : Nat) : s.get c r l = val s c.who r l := by
  cases hp : c.who.party with
  | front b =>
    simp only [State.flight, hp] at h
    simp only [State.get, val, hp]
    cases hf : (s.block c.who.core b).bind (·.front) with
    | none => rfl
    | some f =>
      rw [hf] at h
      simp only [Front.x, show f.flight.results = [] from h]
      rfl
  | matrix b => simp only [State.get, val, hp]
  | _ =>
    have hw : IsWarp c.who := by simp [IsWarp, hp]
    rw [get_of_isWarp hw, val_of_isWarp hw]
    rw [flight_of_isWarp hw] at h
    cases hx : s.warp c.who with
    | none => rfl
    | some x =>
      rw [hx] at h
      exact x_of_no_results h s r l

/-- x0 reads zero, whatever is in flight (03 R42). -/
theorem get_zero {s : State} {c : Ctx} (hc : IsWarp c.who) (l : Nat) : s.get c 0 l = 0 := by
  rw [get_of_isWarp hc]
  cases s.warp c.who <;> rfl

/-! Writes of x0 -/

theorem setLanes_zero (s : State) (x : Warp) (m : BitVec 32) (v : Nat → Word) : x.setLanes s m 0 v = x :=
  List.foldl_fixed' (fun _ => rfl) _

theorem val_congr {s t : State} (hblock : ∀ c b, t.block c b = s.block c b) {w : Who} (hwarp : t.warp w = s.warp w) (r l : Nat) :
    val t w r l = val s w r l := by
  unfold val
  rw [hwarp]
  split
  · rw [hblock]
  · rfl
  · rfl

theorem val_put_zero {s : State} {c : Ctx} (hc : IsWarp c.who) (m : BitVec 32) (v : Nat → DWord) (w : Who) (r l : Nat) :
    val (s.put c m 0 v) w r l = val s w r l := by
  rw [put_of_isWarp hc]
  refine val_congr (fun d b => block_updWarp s _ _ d b) ?_ r l
  simpa only [Option.map_id, id] using
    warp_part_updWarp id (f := fun x => x.setLanes s m 0 fun l => (v l).setWidth 32) (fun x => setLanes_zero s x m _) s c.who w

/-- Settles O13: reads of a register file with nothing in flight, and reads and writes of x0. -/
theorem operandsReadRegisters : Obligations.OperandsReadRegisters := by
  unfold Obligations.OperandsReadRegisters
  refine ⟨fun s c r l h => get_eq_val h r l, fun s c l hc => get_zero (isWarp_of_lane hc) l, fun s c m v w r l hc => ?_⟩
  exact val_put_zero (isWarp_of_lane hc) m v w r l

end Sys2Proof.Frames
end

section
/-! SUPPORT. The pool of a core (03 R54 to R57): what its operations leave alone, which grows expire, and when a grow completes. -/

namespace Sys2Proof.Frames

open Sys2Proof Sys2Proof.Machine Sys2Proof.Safety Sys2Proof.Laws

/-! What the pool's operations leave alone -/

section
variable (s : State) (core k : Nat) (own : List (Nat × Nat)) (w : Who)

@[simp] theorem warp_expireGrows : (s.expireGrows core).warp w = s.warp w := warp_updCore _ _ _ rfl rfl
@[simp] theorem warp_poolTake : (s.poolTake core own k).warp w = s.warp w := warp_updCore _ _ _ rfl rfl
@[simp] theorem warp_poolGive : (s.poolGive core own k).warp w = s.warp w := warp_updCore _ _ _ rfl rfl
@[simp] theorem warp_dropGrow (c : Ctx) : (s.dropGrow c).warp w = s.warp w := warp_updCore _ _ _ rfl rfl
@[simp] theorem block_expireGrows (d b : Nat) : (s.expireGrows core).block d b = s.block d b := block_updCore _ _ _ _ fun _ => rfl
@[simp] theorem block_poolTake (d b : Nat) : (s.poolTake core own k).block d b = s.block d b := block_updCore _ _ _ _ fun _ => rfl
@[simp] theorem home_expireGrows : (s.expireGrows core).home w = s.home w :=
  home_congr (by rw [warp_expireGrows]) (cmds_updCore _ _ _ fun _ => rfl)

theorem pool_updBlock (d b : Nat) (f : Block → Block) : ((s.updBlock d b f).core core).pool = (s.core core).pool := by
  unfold State.updBlock State.setBlock
  split
  · by_cases h : core = d
    · subst h
      rw [core_updCore_same]
    · rw [core_updCore_other _ _ h]
  · rfl

end

@[simp] theorem settleFree_grows (p : Pool) : p.settleFree.grows = p.grows := by
  unfold Pool.settleFree
  split <;> rfl
@[simp] theorem settleFree_used (p : Pool) : p.settleFree.used = p.used := by
  unfold Pool.settleFree
  split <;> rfl

/-! Grows that expire (03 R57) -/

/-- A grow's deadline has passed, or its region asks for the trap at once. -/
abbrev Overdue (s : State) (g : Grow) : Prop :=
  s.effTrapnow g.region = true ∨ (s.effStalldl g.region ≠ 0 ∧ g.since + s.effStalldl g.region ≤ s.tref.toNat)

theorem not_overdue_iff {s : State} {g : Grow} : ¬Overdue s g ↔
    s.effTrapnow g.region = false ∧ (s.effStalldl g.region = 0 ∨ s.tref.toNat < g.since + s.effStalldl g.region) := by
  rw [Overdue, not_or, Bool.not_eq_true, not_and_or, not_not, not_le]

/-- A grow after the expiry of its core's grows. -/
def expired (s : State) (g : Grow) : Grow := if g.state = .waiting ∧ Overdue s g then { g with state := .expired } else g

theorem grows_expireGrows (s : State) (core : Nat) :
    ((s.expireGrows core).core core).pool.grows = (s.core core).pool.grows.map (expired s) := by
  rw [State.expireGrows, core_updCore_same, settleFree_grows]
  refine List.map_congr_left fun g _ => ?_
  simp [expired]

theorem used_expireGrows (s : State) (core : Nat) : ((s.expireGrows core).core core).pool.used = (s.core core).pool.used := by
  simp only [State.expireGrows, core_updCore_same, settleFree_used]

theorem expired_tick (s : State) : expired s.tick = expired s := by
  funext g
  have hnow : s.tick.effTrapnow g.region = s.effTrapnow g.region := by
    simp only [State.effTrapnow, eff_congr (s := s) (t := s.tick) rfl rfl rfl]
  have hdl : s.tick.effStalldl g.region = s.effStalldl g.region := eff_congr (s := s) (t := s.tick) rfl rfl rfl ..
  simp only [expired, Overdue, hnow, hdl, tick_tref]

theorem expired_who (s : State) (g : Grow) : (expired s g).who = g.who := by
  unfold expired
  split <;> rfl

/-- A grow that still waits has not been overdue. -/
theorem not_overdue_of_waiting {s : State} {g : Grow} (h : (expired s g).state = .waiting) : expired s g = g ∧ ¬Overdue s g := by
  unfold expired at h ⊢
  split
  · rename_i hpast
    simp [hpast] at h
  · rename_i hpast
    rw [if_neg hpast] at h
    exact ⟨rfl, fun hover => hpast ⟨h, hover⟩⟩

/-! A grow of an instruction (03 R55 to R57) -/

section
variable {p : State} {c : Ctx} {cuts : Nat} {scr : Option Bool} {cause : Cause} {k : State → Nat → Res}

theorem growWord_takes (hnone : (p.expireGrows c.who.core).growOf c = none)
    (hwait : ∀ g ∈ ((p.expireGrows c.who.core).core c.who.core).pool.grows, g.state ≠ .waiting)
    (hfits : (p.expireGrows c.who.core).poolFits c.who.core c.blk.dealt.pool cuts = true) :
    p.growWord c cuts scr cause k = k
      ((p.expireGrows c.who.core).grant c.who.core ((p.expireGrows c.who.core).bslot c) c.blk.dealt.pool cuts scr).1
      ((p.expireGrows c.who.core).grant c.who.core ((p.expireGrows c.who.core).bslot c) c.blk.dealt.pool cuts scr).2 := by
  unfold State.growWord
  simp only [hnone]
  rw [if_pos]
  simpa [hfits] using hwait

/-- A grow of scratch that is granted at once widens it at once (03 R59). -/
theorem growWord_takes_scratch {swz : Bool} (hnone : (p.expireGrows c.who.core).growOf c = none)
    (hwait : ∀ g ∈ ((p.expireGrows c.who.core).core c.who.core).pool.grows, g.state ≠ .waiting)
    (hfits : (p.expireGrows c.who.core).poolFits c.who.core c.blk.dealt.pool cuts = true) :
    p.growWord c cuts (some swz) cause k = k
      (((p.expireGrows c.who.core).poolTake c.who.core c.blk.dealt.pool cuts).updBlock c.who.core ((p.expireGrows c.who.core).bslot c)
        fun b => { b with scratch := b.scratch.grow cuts swz })
      ((p.expireGrows c.who.core).scratch c.who.core ((p.expireGrows c.who.core).bslot c)).size :=
  growWord_takes hnone hwait hfits

theorem growWord_granted {g : Grow} (hg : (p.expireGrows c.who.core).growOf c = some g) (hstate : g.state = .granted) :
    p.growWord c cuts scr cause k = k ((p.expireGrows c.who.core).dropGrow c) g.off := by
  unfold State.growWord
  simp only [hg, hstate]

end

end Sys2Proof.Frames
end

section
/-! SUPPORT. The pool words of a frame (03 R51, R58): FGROW, FTRIM and OCWB. -/

namespace Sys2Proof.Frames

open Sys2Proof Sys2Proof.Machine Sys2Proof.Safety Sys2Proof.Laws

/-! FGROW and FTRIM (03 R58) -/

theorem updWarp_congr {s : State} {w : Who} {x : Warp} (h : s.warp w = some x) {f g : Warp → Warp} (hfg : f x = g x) :
    s.updWarp w f = s.updWarp w g := by
  rw [updWarp_eq h, updWarp_eq h, hfg]

/-- The whole of a warp at home stands at the word. -/
structure Whole (p : State) (c : Ctx) (x : Warp) : Prop where
  atHome : p.migrated c.who = false
  warp : p.warp c.who = some x
  whole : x.whole = true

theorem wholeGang_whole {p : State} {c : Ctx} {x : Warp} (h : Whole p c x) (k : State → Warp → Res) : p.wholeGang c k = k p x := by
  simp [State.wholeGang, State.atHome, h.atHome, h.warp, h.whole]

/-- The frame of a warp that holds x, made wider. -/
def widened (q : State) (w : Who) (x : Warp) (n : Nat) : State := q.updWarp w fun y => { y with frame := x.frame + n }

/-- FGROW completes where its grow does, in a state q in which the warp still stands as it stood. -/
theorem fgrow_gives {n : BitVec 32} {s : State} {c : Ctx} {x : Warp} (h : Issues s (.fgrow n) 0x88 noGuard c) (hx : Whole (paid s c (.fgrow n)) c x)
    (hn : n ≠ 0) (hunit : n.toNat % 16 = 0) (hmax : x.frame + n.toNat ≤ 256) {q : State} {off : Nat}
    (hgrow : ∀ k, (paid s c (.fgrow n)).growWord c (n.toNat / 8) none .frameGrow k = k q off) (hq : q.warp c.who = some x) :
    Gives s c (.fgrow n) (widened q c.who x n.toNat) := by
  have hpos : n.toNat ≠ 0 := BitVec.toNat_ne.mp hn
  refine gives_of_done h (show execFgrow n s = _ from rfl) ?_ ?_
  · rw [wholeGang_whole hx]
    dsimp only
    rw [if_neg (by simpa [hpos, hunit] using hmax), hgrow]
    exact congrArg (Res.done · .go) (updWarp_congr hq rfl)
  · rw [widened, warp_part_updWarp, hq, hx.warp]
    exact fun _ => rfl

/-- No entry of an empty log, and no result of an empty flight, holds FTRIM back. -/
theorem ftrim_gives {n : BitVec 32} {s : State} {c : Ctx} {x : Warp} (h : Issues s (.ftrim n) 0x89 noGuard c) (hx : Whole (paid s c (.ftrim n)) c x)
    (hn : n ≠ 0) (hunit : n.toNat % 16 = 0) (hmin : n.toNat + 16 ≤ x.frame) (hlog : (paid s c (.ftrim n)).logOf c.who = [])
    (hflight : x.flight.results = []) :
    Gives s c (.ftrim n) (((paid s c (.ftrim n)).updWarp c.who (·.trim (x.frame - n.toNat))).poolGive c.who.core c.blk.dealt.pool (n.toNat / 8)) := by
  have hpos : n.toNat ≠ 0 := BitVec.toNat_ne.mp hn
  refine gives_of_done h (show execFtrim n s = _ from rfl) ?_ ?_
  · rw [wholeGang_whole hx]
    dsimp only
    rw [if_neg (by simpa [hpos, hunit] using hmin), hlog, hflight]
    rfl
  · rw [warp_poolGive, warp_part_updWarp]
    exact fun _ => rfl

/-- A trim keeps the registers below the new size, and drops the others. -/
theorem trim_regs (x : Warp) (f r : Nat) {l : Nat} (hl : l < 32) :
    Tbl.get 0 (x.trim f).regs (32 * r + l) = if r < f then Tbl.get 0 x.regs (32 * r + l) else 0 := by
  simp only [Warp.trim, Tbl_get_drop, decide_eq_true_eq]
  by_cases h : r < f
  · rw [if_neg (by omega), if_pos h]
  · rw [if_pos (by omega), if_neg h]

/-! OCWB (03 R51) -/

theorem ocwb_gives {g : Guard} {s : State} {c : Ctx} (h : Issues s (.ocwb g) 0x8C g c) :
    Gives s c (.ocwb g) ((paid s c (.ocwb g)).updWarp c.who Warp.writeBack) := by
  refine gives_of_done h (show execOcwb g s = _ from rfl) rfl ?_
  rw [warp_part_updWarp]
  exact fun x => due_keepBad x _ _

/-- The oc of a warp once poison has followed the cache. -/
theorem keepBad_oc (x y : Warp) (l : List Nat) : (x.keepBad y l).oc = y.oc := by
  unfold Warp.keepBad
  split <;> rfl

theorem writeBack_rest (x : Warp) : { x.writeBack with oc := x.oc, bad := x.bad, ocBad := x.ocBad } = x := by
  unfold Warp.writeBack Warp.keepBad
  split <;> rfl

theorem writeBack_clean (x : Warp) : ∀ e ∈ x.writeBack.oc, e.dirty = false := by
  intro e he
  rw [Warp.writeBack, keepBad_oc] at he
  obtain ⟨_, _, rfl⟩ := List.mem_map.mp he
  rfl

end Sys2Proof.Frames
end

section
/-! SUPPORT. The pool words of scratch (03 R59, R60): SGROW releases and then grows, STRIM cuts what lies beyond the new size. -/

namespace Sys2Proof.Frames

open Sys2Proof Sys2Proof.Machine Sys2Proof.Safety Sys2Proof.Laws

/-! SGROW -/

/-- A release that nothing of its party holds back is made at once (09 R163). -/
theorem released_settled {p : State} {c : Ctx} (h : Settled p c.who .blk) (k : State → Res) : p.released c .blk k = k (p.release c.who .blk) := by
  have hents : (p.flight c.who).sq.ents = [] := by rw [h.stored]
  have hlost : p.takeLost c.who queuedLost = none := by simp [State.takeLost, h.stored]
  simp [State.released, State.fence, h.owes, hents, hlost, scopePkg, isRel, isAcq]

@[simp] theorem warp_release (s : State) (v w : Who) (sc : Scope) (a : Place) : (s.release v sc a).warp w = s.warp w := warp_updBlock ..
@[simp] theorem home_release (s : State) (v w : Who) (sc : Scope) (a : Place) : (s.release v sc a).home w = s.home w :=
  home_congr (by rw [warp_release]) (cmds_updBlock _ _ _ _ _)

/-- A release hands the bytes of scratch over, and leaves its size. -/
theorem scratch_size_release (s : State) (w : Who) (sc : Scope) (a : Place) (c b : Nat) :
    ((s.release w sc a).block c b).map (·.scratch.size) = (s.block c b).map (·.scratch.size) := by
  rw [State.release, block_part_updBlock]
  · rfl
  · exact fun _ => rfl

theorem due_put (s : State) (c : Ctx) (m : BitVec 32) (r : Nat) (v : Nat → DWord) (w : Who) :
    ((s.put c m r v).warp w).map (·.due) = (s.warp w).map (·.due) := by
  unfold State.put
  split
  · rw [warp_updFront]
  · rfl
  · refine warp_part_updWarp _ (fun x => ?_) s c.who w
    exact (congrArg Warp.due (setLanes_rest s x m r _) :).symm

/-- SGROW, with `.swz` or without. -/
def sgrowOf (swz : Bool) (d : BitVec 8) (k : BitVec 22) : Instr := if swz then .sgrowSwz d k else .sgrow d k

theorem exec_sgrowOf (swz : Bool) (d : BitVec 8) (k : BitVec 22) (s : State) :
    exec (sgrowOf swz d k) s = s.issue (sgrowOf swz d k) 0x8A noGuard fun c s => s.sgrowWord c d k swz := by
  cases swz <;> rfl

/-- SGROW completes where its grow does, in a state q in which the warps stand as they stood. -/
theorem sgrow_gives {swz : Bool} {d : BitVec 8} {k : BitVec 22} {s : State} {c : Ctx} (h : Issues s (sgrowOf swz d k) 0x8A noGuard c)
    (hhome : (paid s c (sgrowOf swz d k)).migrated c.who = false) (hsettled : Settled (paid s c (sgrowOf swz d k)) c.who .blk) (hk : k ≠ 0)
    {q : State} {off : Nat}
    (hgrow : ∀ f, ((paid s c (sgrowOf swz d k)).release c.who .blk).growWord c k.toNat (some swz) .scrGrow f = f q off)
    (hq : q.warp c.who = (paid s c (sgrowOf swz d k)).warp c.who) :
    Gives s c (sgrowOf swz d k) (q.put c c.active d.toNat fun _ => BitVec.ofNat 64 off) := by
  refine gives_of_done h (exec_sgrowOf swz d k s) ?_ ?_
  · simp only [State.sgrowWord, State.atHome, hhome, hk, Bool.false_eq_true, if_false]
    rw [released_settled hsettled, hgrow]
  · rw [due_put, hq]

/-- A release and the expiry of grows leave the slot of a word's block, and the size of scratch. -/
theorem bslot_released_expired (s : State) (c : Ctx) (w : Who) (core : Nat) : ((s.release w .blk).expireGrows core).bslot c = s.bslot c :=
  congrArg Prod.snd ((home_expireGrows ..).trans (home_release ..))

theorem scratch_size_released_expired {s : State} {d e : Nat} {b : Block} (hb : s.block d e = some b) (w : Who) (core : Nat) :
    (((s.release w .blk).expireGrows core).scratch d e).size = b.scratch.size := by
  have hsize := scratch_size_release s w .blk .any d e
  rw [hb] at hsize
  obtain ⟨y, hy, hyb⟩ := Option.map_eq_some_iff.mp hsize
  rw [State.scratch, block_expireGrows, hy]
  exact hyb

/-- An SGROW that is granted at once: the new bytes follow those of scratch as it stood at the word. -/
theorem sgrow_takes {swz : Bool} {d : BitVec 8} {k : BitVec 22} {s p q : State} {c : Ctx} {b : Block}
    (h : Issues s (sgrowOf swz d k) 0x8A noGuard c) (hp : p = paid s c (sgrowOf swz d k))
    (hq : q = (p.release c.who .blk).expireGrows c.who.core) (hhome : p.migrated c.who = false) (hsettled : Settled p c.who .blk) (hk : k ≠ 0)
    (hb : p.block c.who.core (p.bslot c) = some b) (hnone : q.growOf c = none)
    (hwait : ∀ g ∈ (q.core c.who.core).pool.grows, g.state ≠ .waiting)
    (hfits : q.poolFits c.who.core c.blk.dealt.pool k.toNat = true) :
    Gives s c (sgrowOf swz d k) (((q.poolTake c.who.core c.blk.dealt.pool k.toNat).updBlock c.who.core (p.bslot c)
      fun y => { y with scratch := y.scratch.grow k.toNat swz }).put c c.active d.toNat fun _ => BitVec.ofNat 64 b.scratch.size) := by
  subst hp hq
  refine sgrow_gives h hhome hsettled hk (fun f => ?_) ?_
  · rw [growWord_takes_scratch hnone hwait hfits, bslot_released_expired, scratch_size_released_expired hb]
  · rw [warp_updBlock, warp_poolTake, warp_expireGrows, warp_release]

/-! STRIM -/

/-- The bytes of scratch below the new size stay. -/
theorem trim_bytes (x : Scratch) (n a : Nat) :
    Tbl.get 0 (x.trim n).bytes a = if a < x.size - n then Tbl.get 0 x.bytes a else 0 := by
  simp only [Scratch.trim, Tbl_get_drop, decide_eq_true_eq]
  by_cases h : a < x.size - n
  · rw [if_neg (by omega), if_pos h]
  · rw [if_pos (by omega), if_neg h]

/-- A warp whose block's scratch has lost the bytes from z on. -/
def cutFrom (slot z : Nat) (x : Warp) : Warp := if x.blk == slot then { x with flight := x.flight.cut z } else x

theorem cutFrom_keeps {γ : Type} {g : Warp → γ} (hg : ∀ (x : Warp) (y : Flight), g { x with flight := y } = g x) (slot z : Nat) (x : Warp) :
    g (cutFrom slot z x) = g x := by
  unfold cutFrom
  split
  · exact hg x _
  · rfl

/-- Stores that lose bytes leave the rest of their warp. -/
theorem warp_part_cutStores {γ : Type} (g : Warp → γ) (hg : ∀ (x : Warp) (y : Flight), g { x with flight := y } = g x) (s : State)
    (core slot z : Nat) (w : Who) : ((s.cutStores core slot z).warp w).map g = (s.warp w).map g := by
  unfold State.cutStores
  rw [warp_updFront]
  obtain ⟨d, p⟩ := w
  by_cases h : d = core
  · subst h
    cases p with
    | warp n =>
      simp only [State.warp, core_updCore_same]
      refine (congrArg (Option.map g) (Tbl_get_map none (s.core d).warps (Option.map (cutFrom slot z)) n)).trans ?_
      rw [Option.map_map]
      exact congrArg (Option.map · _) (funext fun x => cutFrom_keeps hg slot z x)
    | _ => simp [State.warp]
  · cases p <;> simp [State.warp, core_updCore_other _ _ h]

theorem home_cutStores (s : State) (core slot z : Nat) (w : Who) : (s.cutStores core slot z).home w = s.home w := by
  refine home_congr (warp_part_cutStores _ (fun _ _ => rfl) s core slot z w) ?_
  unfold State.cutStores State.updFront
  rw [cmds_updBlock]
  exact cmds_updCore _ _ _ fun _ => rfl

theorem strim_gives {k : BitVec 22} {s : State} {c : Ctx} {b : Block} (h : Issues s (.strim k) 0x8B noGuard c)
    (hhome : (paid s c (.strim k)).migrated c.who = false) (hb : (paid s c (.strim k)).blockOf c.who = some b) (hk : k ≠ 0)
    (hsize : 1024 * k.toNat ≤ b.scratch.size) (hlog : (paid s c (.strim k)).logOf c.who = [])
    (hidle : (paid s c (.strim k)).trimBusy c b (b.scratch.size - 1024 * k.toNat) = false) :
    let p := paid s c (.strim k)
    Gives s c (.strim k) (((p.cutStores (p.bcore c) (p.bslot c) (b.scratch.size - 1024 * k.toNat)).updB c fun y =>
      { y with scratch := y.scratch.trim (1024 * k.toNat) }).poolGive (p.bcore c) b.dealt.pool k.toNat) := by
  intro p
  have hcore : (p.cutStores (p.bcore c) (p.bslot c) (b.scratch.size - 1024 * k.toNat)).bcore c = p.bcore c :=
    congrArg Prod.fst (home_cutStores p _ _ _ c.who)
  have hpos : k.toNat ≠ 0 := BitVec.toNat_ne.mp hk
  refine gives_of_done h (show execStrim k s = _ from rfl) ?_ ?_
  · rw [State.atHome, hhome, if_neg Bool.false_ne_true, hb]
    dsimp only
    rw [if_neg (by simpa [hpos] using hsize), hlog]
    dsimp only [List.find?_nil]
    rw [hidle, if_neg Bool.false_ne_true, hcore]
  · rw [warp_poolGive, State.updB, warp_updBlock, warp_part_cutStores _ fun _ _ => rfl]

end Sys2Proof.Frames
end

section
/-! SUPPORT. The events of waiting grows (03 R55 to R57). -/

namespace Sys2Proof.Frames

open Sys2Proof Sys2Proof.Machine Sys2Proof.Safety Sys2Proof.Laws

/-- The grows of a core once those of a party are granted. -/
def withGranted (s : State) (core : Nat) (w : Who) (off : Nat) : State := s.updCore core fun k => { k with pool := Pool.settleFree { k.pool with
  grows := k.pool.grows.map fun x => if x.who == w then { x with state := .granted, off := off } else x } }

section
variable (s : State) (core : Nat) (w : Who) (off : Nat)

theorem withGranted_grows : ((withGranted s core w off).core core).pool.grows =
    (s.core core).pool.grows.map fun x => if x.who == w then { x with state := .granted, off := off } else x := by
  rw [withGranted, core_updCore_same, settleFree_grows]
theorem withGranted_used : ((withGranted s core w off).core core).pool.used = (s.core core).pool.used := by
  rw [withGranted, core_updCore_same, settleFree_used]
theorem block_withGranted (d b : Nat) : (withGranted s core w off).block d b = s.block d b := block_updCore _ _ _ _ fun _ => rfl

theorem withGranted_state : ∀ x ∈ ((withGranted s core w off).core core).pool.grows, x.who = w → x.state = .granted := by
  intro x hx hwho
  rw [withGranted_grows] at hx
  obtain ⟨y, _, rfl⟩ := List.mem_map.mp hx
  revert hwho
  split
  · exact fun _ => rfl
  · rename_i h
    exact fun hwho => absurd (beq_iff_eq.mpr hwho) h

theorem withGranted_who : ((withGranted s core w off).core core).pool.grows.map (·.who) = (s.core core).pool.grows.map (·.who) := by
  rw [withGranted_grows, List.map_map]
  refine List.map_congr_left fun x _ => ?_
  dsimp only [Function.comp_apply]
  split <;> rfl

end

section
variable (s : State) (core slot : Nat) (own : List (Nat × Nat)) (cuts : Nat)

/-- A grant takes its cuts and leaves the grows. -/
theorem pool_grant (scr : Option Bool) :
    ((s.grant core slot own cuts scr).1.core core).pool = ((s.poolTake core own cuts).core core).pool := by
  cases scr with
  | none => rfl
  | some swz => exact pool_updBlock (s.poolTake core own cuts) core core slot _

theorem block_grant (swz : Bool) : (s.grant core slot own cuts (some swz)).1.block core slot =
    (s.block core slot).map fun b => { b with scratch := b.scratch.grow cuts swz } := by
  show ((s.poolTake core own cuts).updBlock core slot _).block core slot = _
  rw [block_updBlock, block_poolTake]

theorem grows_poolTake : ((s.poolTake core own cuts).core core).pool.grows = (s.core core).pool.grows := by
  rw [State.poolTake, core_updCore_same]
theorem used_poolTake : ((s.poolTake core own cuts).core core).pool.used = (s.core core).pool.used + cuts := by
  rw [State.poolTake, core_updCore_same]

end

/-- The state in which the oldest waiting grow of a core has been granted. -/
def growGranted (q : State) (core : Nat) (g : Grow) : State :=
  let r := q.grant core (q.home g.who).2 (((q.blockOf g.who).map (·.dealt.pool)).getD []) g.cuts g.scr
  withGranted r.1 core g.who r.2

section
variable (s : State) (core : Nat) (g : Grow)

theorem growGranted_who : ((growGranted (s.tick.expireGrows core) core g).core core).pool.grows.map (·.who) =
    (s.core core).pool.grows.map (·.who) := by
  rw [growGranted, withGranted_who, pool_grant, grows_poolTake, grows_expireGrows, core_tick, List.map_map]
  exact List.map_congr_left fun x _ => expired_who s.tick x

theorem growGranted_used : ((growGranted (s.tick.expireGrows core) core g).core core).pool.used = (s.core core).pool.used + g.cuts := by
  rw [growGranted, withGranted_used, pool_grant, used_poolTake, used_expireGrows, core_tick]

end

theorem growGranted_scratch {q : State} {core : Nat} {g : Grow} {swz : Bool} {b : Block} (hscr : g.scr = some swz)
    (hb : q.block core (q.home g.who).2 = some b) :
    ((growGranted q core g).block core (q.home g.who).2).map (·.scratch.size) = some (b.scratch.size + 1024 * g.cuts) := by
  rw [growGranted, block_withGranted, hscr, block_grant, hb]
  rfl

theorem growGrant_runs {s : State} {core : Nat} {g : Grow}
    (hfind : ((s.tick.expireGrows core).core core).pool.grows.find? (fun g => decide (g.state = .waiting)) = some g)
    (hfits : (s.tick.expireGrows core).poolFits core ((((s.tick.expireGrows core).blockOf g.who).map (·.dealt.pool)).getD []) g.cuts = true) :
    Runs (.growGrant core) s (growGranted (s.tick.expireGrows core) core g) := by
  have hfind' : ((s.tick.expireGrows core).core core).pool.grows.find? (fun g => g.state == .waiting) = some g := by
    simpa only [beq_eq_decide] using hfind
  show execGrowGrant core s = _
  unfold execGrowGrant
  simp only [hfind', hfits]
  rfl

/-- A grow that is found waiting has passed no deadline. -/
theorem waiting_in_time {s : State} {core : Nat} {g : Grow}
    (hfind : ((s.tick.expireGrows core).core core).pool.grows.find? (fun g => decide (g.state = .waiting)) = some g) : ¬Overdue s g := by
  have hwaits : g.state = .waiting := by simpa using List.find?_some hfind
  have hmem := List.mem_of_find?_eq_some hfind
  rw [grows_expireGrows, expired_tick] at hmem
  obtain ⟨g0, _, rfl⟩ := List.mem_map.mp hmem
  obtain ⟨heq, hover⟩ := not_overdue_of_waiting hwaits
  rwa [heq]

theorem growDeadline_grows (s : State) (core : Nat) :
    ((s.tick.expireGrows core).core core).pool.grows = (s.core core).pool.grows.map (expired s) := by
  rw [grows_expireGrows, expired_tick, core_tick]

end Sys2Proof.Frames
end

section
/-! SUPPORT. The pool words and the events of waiting grows: the statement. -/

namespace Sys2Proof.Frames

open Sys2Proof Sys2Proof.Machine Sys2Proof.Safety Sys2Proof.Laws

/-- Settles O51: each word from the lemma that says when it completes, each event from what it leaves of the pool. -/
theorem poolWords : Obligations.PoolWords := by
  unfold Obligations.PoolWords
  intro whole fits
  refine ⟨?fgrow, ?ftrim, ?sgrow, ?strim, ?ocwb, ?clean, ?grant, ?deadline⟩
  case fgrow =>
    intro n s c x i p q wider h ⟨hhome, hwarp, hwhole⟩ hn hunit hmax
    have hx : Whole p c x := ⟨hhome, hwarp, hwhole⟩
    refine ⟨fun ⟨hnone, hwait, hfits⟩ => ?_, fun g hg hstate => ?_⟩
    · exact fgrow_gives h hx hn hunit hmax (fun k => growWord_takes hnone hwait hfits) ((warp_poolTake ..).trans ((warp_expireGrows ..).trans hwarp))
    · exact fgrow_gives h hx hn hunit hmax (fun k => growWord_granted hg hstate) ((warp_dropGrow ..).trans ((warp_expireGrows ..).trans hwarp))
  case ftrim =>
    intro n s c x i p f h ⟨hhome, hwarp, hwhole⟩ hn hunit hmin hlog hflight
    exact ⟨ftrim_gives h ⟨hhome, hwarp, hwhole⟩ hn hunit hmin hlog hflight, rfl, fun r l hl => trim_regs x f r hl⟩
  case sgrow =>
    intro swz d k s c b i p off q h hhome hsettled hk hb
    refine ⟨fun ⟨hnone, hwait, hfits⟩ => ?_, fun g hg hstate => ?_⟩
    · exact sgrow_takes (q := q) h rfl rfl hhome hsettled hk hb hnone hwait hfits
    · exact sgrow_gives h hhome hsettled hk (fun k => growWord_granted hg hstate)
        ((warp_dropGrow ..).trans ((warp_expireGrows ..).trans (warp_release ..)))
  case strim =>
    intro k s c b i p z h hhome hb hk hsize hlog hidle
    exact ⟨strim_gives h hhome hb hk hsize hlog hidle, rfl, trim_bytes b.scratch _⟩
  case ocwb => exact fun g s c h => ocwb_gives h
  case clean => exact fun x => ⟨writeBack_rest x, writeBack_clean x⟩
  case grant =>
    intro s core g q hfind hfits
    refine ⟨not_overdue_iff.mp (waiting_in_time hfind), growGranted q core g, growGrant_runs hfind hfits, withGranted_state _ _ _ _, ?_, ?_, ?_⟩
    · exact growGranted_who s core g
    · exact growGranted_used s core g
    · exact fun swz b hscr hb => growGranted_scratch hscr hb
  case deadline =>
    intro s core
    refine ⟨_, rfl, ?_⟩
    exact growDeadline_grows s core

end Sys2Proof.Frames
end

section
/-! SUPPORT. Unassigned opcodes: which they are, what a word that carries one decodes to, and the refusal of a word at its first check. -/

namespace Sys2Proof.Laws

open Sys2Proof Sys2Proof.Machine Sys2Proof.Safety

/-- No range of R93 holds an opcode of the format table. -/
theorem formatOf_of_unassigned {op : Nat} (h : unassigned op = true) : formatOf op = none := by
  simp only [unassigned, Bool.or_eq_true, Bool.and_eq_true, decide_eq_true_eq, beq_iff_eq, or_assoc] at h
  rcases h with h | h | h | h | h | h | h | h | h | h | h <;>
    simp (disch := omega) only [formatOf, if_neg, if_pos]

theorem decode_of_unassigned {v : DWord} (h : unassigned (opcodeOf v) = true) : decode v = .ok (.unassignedOpcode v) := by
  rw [decode, formatOf_of_unassigned h]

theorem decode_of_reads {w : DWord} {i : Instr} (h : Reads w i) (hwf : i.wf = true) : decode w = .ok i := by
  obtain ⟨f, hformat, hfields⟩ := h
  rw [decode, hformat]
  simp only [hfields, hwf, if_true]

/-- The word of all zeros is what the encoder writes for NOP with guard p0. -/
theorem decode_zero : decode 0 = .ok (.nop ⟨0, false⟩) := by
  have hword : encode (.nop ⟨0, false⟩) = 0 := by decide
  rw [← hword]
  exact decode_of_reads (Fields.nop _ rfl) rfl

/-- A word that fails a check as it is decoded traps with its party's active lanes, where the party waits for nothing before it. -/
theorem refuse_traps {s : State} {c : Ctx} (x : Cause) (hsees : s.ctx s.cur ⟨0, false⟩ = some c) (hlog : s.nextWaits c.who = none)
    (hclaim : s.claimWaits c.who = false) : s.refuse x = .next (s.takeTrap c.who c.pc c.next (TrapArgs.of x 0 0 c.active)) := by
  unfold State.refuse
  rw [hsees]
  simp only [hlog, hclaim, Bool.false_eq_true, if_false]

theorem exec_unassignedOpcode (v : DWord) (s : State) : exec (.unassignedOpcode v) s = s.refuse .illegal := rfl

/-- Settles O4: the decoder finds no format for the word, and its execution is the refusal with ILLEGAL. -/
theorem unassignedOpcodeTraps : Obligations.UnassignedOpcodeTraps := by
  unfold Obligations.UnassignedOpcodeTraps
  refine ⟨decode_zero, fun v s c hop hsees hlog hclaim => ⟨decode_of_unassigned hop, ?_⟩⟩
  calc exec (.unassignedOpcode v) s
      = s.refuse .illegal := exec_unassignedOpcode v s
    _ = .next (s.takeTrap c.who c.pc c.next (TrapArgs.of .illegal 0 0 c.active)) := refuse_traps .illegal hsees hlog hclaim

end Sys2Proof.Laws
end

section
/-! SUPPORT. Rounding to an integer (06 R103, R104), and what the bits of a format stand for (06 R98). -/

namespace Sys2Proof.Floats

open Sys2Proof Sys2Proof.Machine

/-! Rounding to an integer -/

section
variable {n d draw : Nat} (neg : Bool)

theorem roundInt_eq (rm : Rm) (draw n d : Nat) :
    roundInt rm neg draw n d = n / d + (roundsUp rm neg draw (n / d) (n % d) d).toNat := by
  unfold roundInt
  cases roundsUp rm neg draw (n / d) (n % d) d <;> rfl

/-- Where nothing is left of a unit, every rounding goes down. -/
theorem roundsUp_zero (rm : Rm) (q : Nat) (hd : 0 < d) (hdraw : draw < 65536) : roundsUp rm neg draw q 0 d = false := by
  cases rm
  case rne => simp [roundsUp]; omega
  case rna => simp [roundsUp]; omega
  case rtz => rfl
  case rup => rfl
  case rdn => rfl
  case sr => simp [roundsUp]; omega

theorem roundInt_mul (rm : Rm) (k : Nat) (hd : 0 < d) (hdraw : draw < 65536) : roundInt rm neg draw (k * d) d = k := by
  rw [roundInt_eq, Nat.mul_mod_left, roundsUp_zero neg rm _ hd hdraw, Nat.mul_div_cancel _ hd]
  rfl

theorem roundInt_cases (rm : Rm) : roundInt rm neg draw n d = n / d ∨ roundInt rm neg draw n d = n / d + 1 := by
  rw [roundInt_eq]
  cases roundsUp rm neg draw (n / d) (n % d) d
  · exact .inl rfl
  · exact .inr rfl

theorem roundInt_of_dvd (rm : Rm) (hd : 0 < d) (hdraw : draw < 65536) (h : d ∣ n) : roundInt rm neg draw n d * d = n := by
  obtain ⟨k, rfl⟩ := h
  rw [Nat.mul_comm d k, roundInt_mul neg rm k hd hdraw]

/-- A rounding that goes down stays below the magnitude. -/
theorem roundInt_le {rm : Rm} (h : roundsUp rm neg draw (n / d) (n % d) d = false) : roundInt rm neg draw n d * d ≤ n := by
  rw [roundInt_eq, h]
  exact Nat.div_mul_le_self n d

/-- A rounding that goes up wherever a part of a unit is left stays above the magnitude. -/
theorem le_roundInt {rm : Rm} (hd : 0 < d) (h : roundsUp rm neg draw (n / d) (n % d) d = (n % d != 0)) : n ≤ roundInt rm neg draw n d * d := by
  have hdiv := Nat.div_add_mod' n d
  have hmod := Nat.mod_lt n hd
  rw [roundInt_eq, h, Nat.add_mul]
  by_cases hr : n % d = 0
  · simp only [hr, bne_self_eq_false, Bool.toNat_false]
    omega
  · simp only [bne_iff_ne.mpr hr, Bool.toNat_true]
    omega

theorem roundInt_nearest {rm : Rm} (hd : 0 < d) (hrm : rm = .rne ∨ rm = .rna) :
    2 * (roundInt rm neg draw n d * d) ≤ 2 * n + d ∧ 2 * n ≤ 2 * (roundInt rm neg draw n d * d) + d := by
  have hdiv := Nat.div_add_mod' n d
  have hmod := Nat.mod_lt n hd
  have hhalf : (roundsUp rm neg draw (n / d) (n % d) d = true → d ≤ 2 * (n % d)) ∧
      (roundsUp rm neg draw (n / d) (n % d) d = false → 2 * (n % d) ≤ d) := by
    rcases hrm with rfl | rfl
    · simp [roundsUp]; omega
    · simp [roundsUp]; omega
  rw [roundInt_eq, Nat.add_mul]
  cases h : roundsUp rm neg draw (n / d) (n % d) d
  · have := hhalf.2 h
    simp; omega
  · have := hhalf.1 h
    simp; omega

theorem roundInt_tie_rne (h : 2 * (n % d) = d) : roundInt .rne neg draw n d % 2 = 0 := by
  rw [roundInt_eq]
  have hup : roundsUp .rne neg draw (n / d) (n % d) d = (n / d % 2 == 1) := by simp [roundsUp, h]
  rw [hup]
  rcases Nat.mod_two_eq_zero_or_one (n / d) with hq | hq <;> simp [hq, Nat.add_mod]

theorem roundInt_tie_rna (h : 2 * (n % d) = d) : roundInt .rna neg draw n d = n / d + 1 := by
  rw [roundInt_eq]
  simp [roundsUp, h]

theorem roundInt_sr : roundInt .sr neg draw n d = n / d ↔ n % d * 65536 / d + draw < 65536 := by
  rw [roundInt_eq]
  by_cases h : n % d * 65536 / d + draw < 65536
  · simp [roundsUp, h]
  · simp [roundsUp, h, Nat.le_of_not_lt h]

end

/-! Fractions as rational numbers -/

theorem scale2_den_pos {d : Nat} (n : Nat) (hd : 0 < d) (k : Int) : 0 < (scale2 n d k).2 := by
  unfold scale2
  split
  · exact hd
  · positivity

theorem scale2_val (n d : Nat) (k : Int) : ((scale2 n d k).1 : ℚ) / (scale2 n d k).2 = n / d * 2 ^ k := by
  unfold scale2
  split
  · rename_i h
    obtain ⟨m, rfl⟩ := Int.eq_ofNat_of_zero_le h
    push_cast
    rw [zpow_natCast, Int.toNat_natCast]
    ring
  · rename_i h
    obtain ⟨m, hm⟩ := Int.eq_ofNat_of_zero_le (show 0 ≤ -k by omega)
    have hk : k = -(m : Int) := by omega
    subst hk
    push_cast
    rw [neg_neg, Int.toNat_natCast, zpow_neg, zpow_natCast, div_mul_eq_div_div]
    rfl

theorem expOf_spec {n d : Nat} (hn : n ≠ 0) (hd : d ≠ 0) : (2 : ℚ) ^ expOf n d ≤ n / d ∧ (n : ℚ) / d < 2 ^ (expOf n d + 1) := by
  have hd0 : (0 : ℚ) < d := by exact_mod_cast Nat.pos_of_ne_zero hd
  have hn1 : (2 : ℚ) ^ (Nat.log2 n : Int) ≤ n := by exact_mod_cast Nat.log2_self_le hn
  have hn2 : (n : ℚ) < 2 ^ ((Nat.log2 n : Int) + 1) := by exact_mod_cast Nat.lt_log2_self
  have hd1 : (2 : ℚ) ^ (Nat.log2 d : Int) ≤ d := by exact_mod_cast Nat.log2_self_le hd
  have hd2 : (d : ℚ) < 2 ^ ((Nat.log2 d : Int) + 1) := by exact_mod_cast Nat.lt_log2_self
  obtain ⟨a, ha⟩ : ∃ a : Int, a = (Nat.log2 n : Int) - (Nat.log2 d : Int) := ⟨_, rfl⟩
  have hlow : (2 : ℚ) ^ (a - 1) ≤ n / d := by
    rw [le_div_iff₀ hd0]
    calc (2 : ℚ) ^ (a - 1) * d ≤ 2 ^ (a - 1) * 2 ^ ((Nat.log2 d : Int) + 1) := by gcongr
      _ = 2 ^ (Nat.log2 n : Int) := by rw [← zpow_add₀ two_ne_zero]; congr 1; omega
      _ ≤ n := hn1
  have hhigh : (n : ℚ) / d < 2 ^ (a + 1) := by
    rw [div_lt_iff₀ hd0]
    calc (n : ℚ) < 2 ^ ((Nat.log2 n : Int) + 1) := hn2
      _ = 2 ^ (a + 1) * 2 ^ (Nat.log2 d : Int) := by rw [← zpow_add₀ two_ne_zero]; congr 1; omega
      _ ≤ 2 ^ (a + 1) * d := by gcongr
  have htest : expOf n d = if (2 : ℚ) ^ a ≤ n / d then a else a - 1 := by
    have hscale := scale2_val n d (-a)
    unfold expOf
    rw [← ha]
    have hcond : (2 : ℚ) ^ a ≤ n / d ↔ if a ≥ 0 then d * 2 ^ a.toNat ≤ n else d ≤ n * 2 ^ (-a).toNat := by
      rw [le_div_iff₀ hd0]
      split
      · rename_i h
        obtain ⟨m, rfl⟩ := Int.eq_ofNat_of_zero_le h
        rw [Int.toNat_natCast, zpow_natCast, mul_comm]
        exact_mod_cast Iff.rfl
      · rename_i h
        obtain ⟨m, hm⟩ := Int.eq_ofNat_of_zero_le (show 0 ≤ -a by omega)
        rw [hm, show a = -(m : Int) by omega, Int.toNat_natCast, zpow_neg, zpow_natCast, inv_mul_le_iff₀ (by positivity), mul_comm]
        exact_mod_cast Iff.rfl
    simp only [hcond]
    split <;> rfl
  rw [htest]
  split
  · rename_i h
    exact ⟨h, hhigh⟩
  · rename_i h
    exact ⟨hlow, by simpa using h⟩

theorem expOf_eq {n d : Nat} (hn : n ≠ 0) (hd : d ≠ 0) {e : Int} (h1 : (2 : ℚ) ^ e ≤ n / d) (h2 : (n : ℚ) / d < 2 ^ (e + 1)) : expOf n d = e := by
  obtain ⟨h3, h4⟩ := expOf_spec hn hd
  have h5 := (zpow_lt_zpow_iff_right₀ (one_lt_two (α := ℚ))).mp (h1.trans_lt h4)
  have h6 := (zpow_lt_zpow_iff_right₀ (one_lt_two (α := ℚ))).mp (h3.trans_lt h2)
  omega

theorem expOf_lt {n d : Nat} (hn : n ≠ 0) (hd : d ≠ 0) {k : Int} (h : (n : ℚ) / d < 2 ^ k) : expOf n d < k :=
  (zpow_lt_zpow_iff_right₀ (one_lt_two (α := ℚ))).mp ((expOf_spec hn hd).1.trans_lt h)

theorem le_expOf {n d : Nat} (hn : n ≠ 0) (hd : d ≠ 0) {k : Int} (h : (2 : ℚ) ^ k ≤ n / d) : k ≤ expOf n d :=
  Int.lt_add_one_iff.mp ((zpow_lt_zpow_iff_right₀ (one_lt_two (α := ℚ))).mp (h.trans_lt (expOf_spec hn hd).2))

end Sys2Proof.Floats
end

section
/-! SUPPORT. The value that a pattern stands for (06 R98), and the pattern that a value rounds to (06 R103). -/

namespace Sys2Proof.Floats

open Sys2Proof Sys2Proof.Machine

/-! The value of a pattern -/

/-- The integer significand of a magnitude's bits, the exponent of its unit, and its value. -/
def sigOf (f : FloatFmt) (x : Nat) : Nat := if x / 2 ^ f.fb = 0 then x % 2 ^ f.fb else x % 2 ^ f.fb + 2 ^ f.fb
def unitOf (f : FloatFmt) (x : Nat) : Int := ((max (x / 2 ^ f.fb) 1 : Nat) : Int) - f.bias - f.fb
def valOf (f : FloatFmt) (x : Nat) : ℚ := sigOf f x * 2 ^ unitOf f x

/-- The exponent of the smallest unit. -/
def lowUnit (f : FloatFmt) : Int := 1 - (f.bias : Int) - f.fb

section
variable {f : FloatFmt}

theorem maxBits_lt_signBit : f.maxBits < f.signBit := by
  have h : 2 ^ f.eb * 2 ^ f.fb = 2 ^ (f.eb + f.fb) := (pow_add 2 f.eb f.fb).symm
  have hpos : 0 < 2 ^ (f.eb + f.fb) := by positivity
  have hfrac : 0 < 2 ^ f.fb := by positivity
  unfold FloatFmt.maxBits FloatFmt.signBit
  split
  · rw [Nat.sub_mul, h]
    omega
  · omega

theorem withSign_mod {m : Nat} (hm : m < f.signBit) (s : Bool) : f.withSign s m % f.signBit = m := by
  unfold FloatFmt.withSign
  cases s
  · exact Nat.mod_eq_of_lt hm
  · rw [if_pos rfl, Nat.add_mod_left, Nat.mod_eq_of_lt hm]

theorem withSign_neg {m : Nat} (hm : m < f.signBit) (s : Bool) : (f.withSign s m / f.signBit % 2 == 1) = s := by
  unfold FloatFmt.withSign
  cases s
  · simp [Nat.div_eq_of_lt hm]
  · simp [Nat.add_div_left _ (Nat.zero_lt_of_lt hm), Nat.div_eq_of_lt hm]

variable (hf : 0 < f.eb)
include hf

/-- A magnitude that is not above the largest finite one is no infinity and no NaN. -/
theorem finite_iff {m : Nat} (hm : m < f.signBit) : m ≤ f.maxBits ↔ ¬(f.ieee && m / 2 ^ f.fb == 2 ^ f.eb - 1) = true ∧ ¬(!f.ieee && m == f.signBit - 1) = true := by
  have h : 2 ^ f.eb * 2 ^ f.fb = 2 ^ (f.eb + f.fb) := (pow_add 2 f.eb f.fb).symm
  have htop : 2 ≤ 2 ^ f.eb := Nat.le_self_pow (by omega) 2
  have hfrac : 0 < 2 ^ f.fb := by positivity
  have htot : 2 * 2 ^ f.fb ≤ 2 ^ (f.eb + f.fb) := h ▸ Nat.mul_le_mul_right _ htop
  unfold FloatFmt.maxBits FloatFmt.signBit at *
  cases f.ieee
  · simp; omega
  · have hlt : m / 2 ^ f.fb < 2 ^ f.eb := by rw [Nat.div_lt_iff_lt_mul hfrac, h]; exact hm
    have hpos : 0 < (2 ^ f.eb - 1) * 2 ^ f.fb := Nat.mul_pos (by omega) hfrac
    have hiff : m ≤ (2 ^ f.eb - 1) * 2 ^ f.fb - 1 ↔ m / 2 ^ f.fb < 2 ^ f.eb - 1 := by
      rw [Nat.div_lt_iff_lt_mul hfrac]
      omega
    simp [hiff]
    omega

/-- What a finite pattern reads as (06 R98). -/
theorem read_finite {x : Nat} (h : x % f.signBit ≤ f.maxBits) :
    ∃ n d : Nat, f.read x = .fin (x / f.signBit % 2 == 1) n d ∧ 0 < d ∧ (n : ℚ) / d = valOf f (x % f.signBit) := by
  obtain ⟨h1, h2⟩ := (finite_iff hf (Nat.mod_lt _ (by unfold FloatFmt.signBit; positivity))).mp h
  unfold FloatFmt.read valOf
  dsimp only
  rw [if_neg h1, if_neg h2]
  have hunit : unitOf f (x % f.signBit) = ((max (x % f.signBit / 2 ^ f.fb) 1 : Nat) : Int) - f.bias - f.fb := rfl
  rw [show (if x % f.signBit / 2 ^ f.fb = 0 then x % f.signBit % 2 ^ f.fb else x % f.signBit % 2 ^ f.fb + 2 ^ f.fb) = sigOf f (x % f.signBit) from rfl]
  generalize sigOf f (x % f.signBit) = sig
  split
  · rename_i hge
    refine ⟨_, _, rfl, Nat.one_pos, ?_⟩
    rw [hunit, show ((max (x % f.signBit / 2 ^ f.fb) 1 : Nat) : Int) - f.bias - f.fb = ((max (x % f.signBit / 2 ^ f.fb) 1 - f.bias - f.fb : Nat) : Int) by omega,
      zpow_natCast]
    push_cast
    ring
  · rename_i hlt
    refine ⟨_, _, rfl, by positivity, ?_⟩
    rw [hunit, show ((max (x % f.signBit / 2 ^ f.fb) 1 : Nat) : Int) - f.bias - f.fb = -((f.bias + f.fb - max (x % f.signBit / 2 ^ f.fb) 1 : Nat) : Int) by omega,
      zpow_neg, zpow_natCast]
    push_cast
    rfl

theorem le_maxBits_of_read {x n d : Nat} {s : Bool} (h : f.read x = .fin s n d) : x % f.signBit ≤ f.maxBits := by
  rw [finite_iff hf (Nat.mod_lt _ (by unfold FloatFmt.signBit; positivity))]
  unfold FloatFmt.read at h
  dsimp only at h
  constructor
  · intro h1
    rw [if_pos h1] at h
    split at h <;> cases h
  · intro h2
    rw [if_pos h2] at h
    split at h
    · split at h <;> cases h
    · cases h

/-- A pattern that reads as a fraction stands for that fraction, with its sign bit for the sign. -/
theorem val_of_read {x n d : Nat} {s : Bool} (h : f.read x = .fin s n d) :
    x % f.signBit ≤ f.maxBits ∧ s = (x / f.signBit % 2 == 1) ∧ 0 < d ∧ (n : ℚ) / d = valOf f (x % f.signBit) := by
  have hle := le_maxBits_of_read hf h
  obtain ⟨n', d', hread, hd, hval⟩ := read_finite hf hle
  rw [hread] at h
  cases h
  exact ⟨hle, rfl, hd, hval⟩

theorem read_withSign {m : Nat} (hm : m ≤ f.maxBits) (s : Bool) :
    ∃ n d : Nat, f.read (f.withSign s m) = .fin s n d ∧ 0 < d ∧ (n : ℚ) / d = valOf f m := by
  have hlt := hm.trans_lt maxBits_lt_signBit
  have hmod := withSign_mod hlt s
  obtain ⟨n, d, h⟩ := read_finite (f := f) hf (x := f.withSign s m) (hmod.le.trans hm)
  rw [hmod, withSign_neg hlt] at h
  exact ⟨n, d, h⟩

end

theorem sigOf_lt (f : FloatFmt) (x : Nat) : sigOf f x < 2 ^ (f.fb + 1) := by
  have := Nat.mod_lt x (show 0 < 2 ^ f.fb by positivity)
  rw [pow_succ]
  unfold sigOf
  split <;> omega

theorem lowUnit_le (f : FloatFmt) (x : Nat) : lowUnit f ≤ unitOf f x := by
  unfold lowUnit unitOf
  omega

/-- Above the smallest unit the significand is normal. -/
theorem le_sigOf {f : FloatFmt} {x : Nat} (h : unitOf f x ≠ lowUnit f) : 2 ^ f.fb ≤ sigOf f x := by
  unfold unitOf lowUnit at h
  unfold sigOf
  split
  · simp_all
  · omega

/-- The bits are the number of the unit and the significand in it. -/
theorem bits_eq (f : FloatFmt) (x : Nat) : (unitOf f x - lowUnit f).toNat * 2 ^ f.fb + sigOf f x = x := by
  have hdiv := Nat.div_add_mod' x (2 ^ f.fb)
  unfold unitOf lowUnit sigOf
  split
  · rename_i h
    rw [h] at hdiv ⊢
    simpa using hdiv
  · rename_i h
    rw [show (((max (x / 2 ^ f.fb) 1 : Nat) : Int) - f.bias - f.fb - (1 - f.bias - f.fb)).toNat = x / 2 ^ f.fb - 1 by omega, Nat.sub_mul]
    have : 2 ^ f.fb ≤ x / 2 ^ f.fb * 2 ^ f.fb := Nat.le_mul_of_pos_left _ (Nat.pos_of_ne_zero h)
    omega

/-- A significand of q units of number k stands for q × 2^k of the smallest units, also where rounding has carried it to the next unit. -/
theorem valOf_units (f : FloatFmt) {k q : Nat} (hq : q ≤ 2 ^ (f.fb + 1)) (hk : k ≠ 0 → 2 ^ f.fb ≤ q) :
    valOf f (k * 2 ^ f.fb + q) = q * 2 ^ (lowUnit f + k) := by
  have hpos : 0 < 2 ^ f.fb := by positivity
  have hnormal : ∀ k q : Nat, 2 ^ f.fb ≤ q → q < 2 ^ (f.fb + 1) → valOf f (k * 2 ^ f.fb + q) = q * 2 ^ (lowUnit f + k) := by
    intro k q h1 h2
    rw [pow_succ] at h2
    have hdiv : (k * 2 ^ f.fb + q) / 2 ^ f.fb = k + 1 := by
      rw [Nat.div_eq_iff hpos, Nat.add_mul]
      omega
    have hmod : (k * 2 ^ f.fb + q) % 2 ^ f.fb = q - 2 ^ f.fb := by
      have := Nat.div_add_mod' (k * 2 ^ f.fb + q) (2 ^ f.fb)
      rw [hdiv, Nat.add_mul] at this
      omega
    unfold valOf sigOf unitOf lowUnit
    rw [hdiv, hmod, if_neg (by omega), Nat.sub_add_cancel h1]
    congr 2
    omega
  rcases Nat.lt_or_ge q (2 ^ f.fb) with h1 | h1
  · have hk0 : k = 0 := by by_contra h; exact absurd (hk h) (by omega)
    subst hk0
    unfold valOf sigOf unitOf lowUnit
    rw [Nat.zero_mul, Nat.zero_add, Nat.div_eq_of_lt h1, Nat.mod_eq_of_lt h1, if_pos rfl]
    congr 2
    simp
  · rcases Nat.lt_or_ge q (2 ^ (f.fb + 1)) with h2 | h2
    · exact hnormal k q h1 h2
    · obtain rfl : q = 2 ^ (f.fb + 1) := Nat.le_antisymm hq h2
      have := hnormal (k + 1) (2 ^ f.fb) le_rfl (by rw [pow_succ]; omega)
      rw [show k * 2 ^ f.fb + 2 ^ (f.fb + 1) = (k + 1) * 2 ^ f.fb + 2 ^ f.fb by ring, this]
      push_cast
      rw [pow_succ, ← add_assoc, zpow_add_one₀ two_ne_zero]
      ring

/-! The pattern of a value -/

section
variable (f : FloatFmt) {n d draw : Nat}

/-- The unit to which a value is rounded, and what the value comes to in it (06 R103). -/
def roundUnit (n d : Nat) : Int := max (expOf n d - f.fb) (lowUnit f)
def inUnits (rm : Rm) (neg : Bool) (draw n d : Nat) : Nat :=
  roundInt rm neg draw (scale2 n d (-roundUnit f n d)).1 (scale2 n d (-roundUnit f n d)).2

theorem magBits_eq (rm : Rm) (neg : Bool) (draw : Nat) (hn : n ≠ 0) :
    f.magBits rm neg draw n d = (roundUnit f n d - lowUnit f).toNat * 2 ^ f.fb + inUnits f rm neg draw n d := by
  unfold FloatFmt.magBits
  rw [if_neg hn]
  rfl

variable (hn : n ≠ 0) (hd : d ≠ 0)
include hn hd

theorem scaled_lt : (n : ℚ) / d * 2 ^ (-roundUnit f n d) < 2 ^ (f.fb + 1) := by
  have h := (expOf_spec hn hd).2
  calc (n : ℚ) / d * 2 ^ (-roundUnit f n d) < 2 ^ (expOf n d + 1) * 2 ^ (-roundUnit f n d) := by gcongr
    _ = 2 ^ (expOf n d + 1 + -roundUnit f n d) := by rw [← zpow_add₀ two_ne_zero]
    _ ≤ 2 ^ ((f.fb + 1 : Nat) : Int) := zpow_le_zpow_right₀ one_le_two (by unfold roundUnit; omega)
    _ = 2 ^ (f.fb + 1) := zpow_natCast ..

theorem le_scaled (h : roundUnit f n d ≠ lowUnit f) : (2 : ℚ) ^ f.fb ≤ n / d * 2 ^ (-roundUnit f n d) := by
  have h1 := (expOf_spec hn hd).1
  calc (2 : ℚ) ^ f.fb = 2 ^ ((f.fb : Nat) : Int) := (zpow_natCast ..).symm
    _ = 2 ^ (expOf n d) * 2 ^ (-roundUnit f n d) := by
      rw [← zpow_add₀ two_ne_zero]
      congr 1
      unfold roundUnit at *
      omega
    _ ≤ n / d * 2 ^ (-roundUnit f n d) := by gcongr

end

end Sys2Proof.Floats
end

section
/-! SUPPORT. How far rounding to a format moves a value, and which values it leaves as they are (06 R103, R104): the statement. -/

namespace Sys2Proof.Floats

open Sys2Proof Sys2Proof.Machine

section
variable (f : FloatFmt) {n d draw : Nat} (rm : Rm) (neg : Bool) (hn : n ≠ 0) (hd : d ≠ 0)
include hn hd

omit hn in
theorem scaled_den_pos : 0 < (scale2 n d (-roundUnit f n d)).2 := scale2_den_pos n (Nat.pos_of_ne_zero hd) _

theorem inUnits_le : inUnits f rm neg draw n d ≤ 2 ^ (f.fb + 1) := by
  have hpos := scaled_den_pos f (n := n) hd
  have h := scaled_lt f hn hd
  rw [← scale2_val, div_lt_iff₀ (by exact_mod_cast hpos)] at h
  have hq := (Nat.div_lt_iff_lt_mul hpos).mpr (by exact_mod_cast h)
  unfold inUnits
  rcases roundInt_cases neg rm with h | h <;> rw [h] <;> omega

theorem le_inUnits (h : roundUnit f n d ≠ lowUnit f) : 2 ^ f.fb ≤ inUnits f rm neg draw n d := by
  have hpos := scaled_den_pos f (n := n) hd
  have h := le_scaled f hn hd h
  rw [← scale2_val, le_div_iff₀ (by exact_mod_cast hpos)] at h
  have hq := (Nat.le_div_iff_mul_le hpos).mpr (by exact_mod_cast h)
  unfold inUnits
  rcases roundInt_cases neg rm with h | h <;> rw [h] <;> omega

/-- The pattern of a rounded value stands for the rounded number of units. -/
theorem valOf_magBits : valOf f (f.magBits rm neg draw n d) = inUnits f rm neg draw n d * 2 ^ roundUnit f n d := by
  have hlow : lowUnit f ≤ roundUnit f n d := le_max_right ..
  rw [magBits_eq f rm neg draw hn, valOf_units f (inUnits_le f rm neg hn hd) fun hk => le_inUnits f rm neg hn hd fun h => hk (by omega)]
  congr 2
  omega

/-- Rounding to the nearest moves a value by half a unit at most (06 R103). -/
theorem magBits_near : |valOf f (f.magBits .rne neg draw n d) - n / d| ≤ 2 ^ roundUnit f n d / 2 := by
  have hpos := scaled_den_pos f (n := n) hd
  have hval := scale2_val n d (-roundUnit f n d)
  obtain ⟨h1, h2⟩ := roundInt_nearest (n := (scale2 n d (-roundUnit f n d)).1) (draw := draw) neg hpos (.inl rfl)
  rw [valOf_magBits f .rne neg hn hd]
  rw [zpow_neg, ← div_eq_mul_inv] at hval
  unfold inUnits
  generalize (scale2 n d (-roundUnit f n d)).1 = a at *
  generalize (scale2 n d (-roundUnit f n d)).2 = b at *
  have hb : (0 : ℚ) < b := by exact_mod_cast hpos
  have hu : (0 : ℚ) < 2 ^ roundUnit f n d := by positivity
  have hnd : (n : ℚ) / d = a / b * 2 ^ roundUnit f n d := by rw [hval, div_mul_cancel₀ _ hu.ne']
  have h1' : (2 * (roundInt .rne neg draw a b * b) : ℚ) ≤ 2 * a + b := by exact_mod_cast h1
  have h2' : (2 * a : ℚ) ≤ 2 * (roundInt .rne neg draw a b * b) + b := by exact_mod_cast h2
  have hclose : |(roundInt .rne neg draw a b : ℚ) - a / b| ≤ 1 / 2 := by
    rw [abs_le]
    constructor
    · rw [neg_le_sub_iff_le_add, div_le_iff₀ hb]; linarith
    · rw [sub_le_iff_le_add, ← sub_le_iff_le_add', le_div_iff₀ hb]; linarith
  rw [hnd, ← sub_mul, abs_mul, abs_of_pos hu]
  linarith [mul_le_mul_of_nonneg_right hclose hu.le]

omit hn in
/-- Where the value is a whole number of units, nothing is rounded. -/
theorem inUnits_of_eq {k : Nat} (hdraw : draw < 65536) (h : (n : ℚ) / d * 2 ^ (-roundUnit f n d) = k) : inUnits f rm neg draw n d = k := by
  have hpos := scaled_den_pos f (n := n) hd
  rw [← scale2_val, div_eq_iff (by exact_mod_cast hpos.ne')] at h
  unfold inUnits
  rw [show (scale2 n d (-roundUnit f n d)).1 = k * (scale2 n d (-roundUnit f n d)).2 by exact_mod_cast h]
  exact roundInt_mul neg rm k hpos hdraw

/-- A significand that fits, of a unit that is not too small, is exact (06 R103). -/
theorem valOf_magBits_exact {sig : Nat} {e : Int} (hdraw : draw < 65536) (hval : (n : ℚ) / d = sig * 2 ^ e) (hsig : sig < 2 ^ (f.fb + 1))
    (he : lowUnit f ≤ e) : valOf f (f.magBits rm neg draw n d) = n / d := by
  have hu : roundUnit f n d ≤ e := by
    have h : expOf n d < f.fb + 1 + e := expOf_lt hn hd (by
      rw [hval, zpow_add₀ two_ne_zero]
      gcongr
      exact_mod_cast hsig)
    unfold roundUnit
    omega
  obtain ⟨j, hj⟩ := Int.eq_ofNat_of_zero_le (show 0 ≤ e - roundUnit f n d by omega)
  have hunits : (n : ℚ) / d * 2 ^ (-roundUnit f n d) = (sig * 2 ^ j : Nat) := by
    rw [hval, mul_assoc, ← zpow_add₀ two_ne_zero, ← sub_eq_add_neg, hj]
    push_cast
    rw [zpow_natCast]
  rw [valOf_magBits f rm neg hn hd, inUnits_of_eq f rm neg hd hdraw hunits, ← hunits, mul_assoc, ← zpow_add₀ two_ne_zero, neg_add_cancel,
    zpow_zero, mul_one]

end

theorem sigOf_eq_zero {f : FloatFmt} {x : Nat} (h : sigOf f x = 0) : x = 0 := by
  have hpos : 0 < 2 ^ f.fb := by positivity
  have hbits := bits_eq f x
  have hunit : unitOf f x = lowUnit f := by
    by_contra hne
    have := le_sigOf hne
    omega
  rw [hunit, h] at hbits
  simpa using hbits.symm

theorem valOf_eq_zero {f : FloatFmt} {x : Nat} (h : valOf f x = 0) : x = 0 := by
  refine sigOf_eq_zero (f := f) ?_
  simpa [valOf, zpow_ne_zero] using h

/-- THE PATTERN OF A VALUE THAT A PATTERN STANDS FOR is that pattern, whatever the rounding (06 R103, R104). -/
theorem magBits_of_val (f : FloatFmt) (rm : Rm) (neg : Bool) {draw n d x : Nat} (hd : d ≠ 0) (hdraw : draw < 65536) (h : (n : ℚ) / d = valOf f x) :
    f.magBits rm neg draw n d = x := by
  by_cases hn : n = 0
  · subst hn
    rw [valOf_eq_zero (f := f) (x := x) (by simpa using h.symm)]
    rfl
  have hunit : roundUnit f n d = unitOf f x := by
    have hlt : expOf n d < f.fb + 1 + unitOf f x := expOf_lt hn hd (by
      rw [h, zpow_add₀ two_ne_zero]
      unfold valOf
      gcongr
      exact_mod_cast sigOf_lt f x)
    have hlow := lowUnit_le f x
    unfold roundUnit
    by_cases hx : unitOf f x = lowUnit f
    · omega
    · have hle : (f.fb : Int) + unitOf f x ≤ expOf n d := le_expOf hn hd (by
        rw [h, zpow_add₀ two_ne_zero]
        unfold valOf
        gcongr
        exact_mod_cast le_sigOf hx)
      omega
  have hq : inUnits f rm neg draw n d = sigOf f x := by
    refine inUnits_of_eq f rm neg hd hdraw ?_
    rw [h, hunit, valOf, mul_assoc, ← zpow_add₀ two_ne_zero, add_neg_cancel, zpow_zero, mul_one]
  rw [magBits_eq f rm neg draw hn, hunit, hq, bits_eq]

/-- Settles O24: the rules from what `roundsUp` answers, the exact values from `magBits_of_val`. -/
theorem roundingRules : Obligations.RoundingRules := by
  unfold Obligations.RoundingRules
  constructor
  · intro rm neg draw n d hd hdraw
    dsimp only
    refine ⟨roundInt_cases neg rm, roundInt_of_dvd neg rm hd hdraw, ?_, ?_, ?_, roundInt_nearest neg hd, fun h => ⟨?_, ?_⟩, ?_⟩
    · rintro rfl
      exact roundInt_le neg rfl
    · rintro rfl
      cases neg
      · exact le_roundInt false hd (by simp [roundsUp])
      · exact roundInt_le true (by simp [roundsUp])
    · rintro rfl
      cases neg
      · exact roundInt_le false (by simp [roundsUp])
      · exact le_roundInt true hd (by simp [roundsUp])
    · rintro rfl
      exact roundInt_tie_rne neg h
    · rintro rfl
      exact roundInt_tie_rna neg h
    · rintro rfl
      exact roundInt_sr neg
  · intro f hf rm neg draw x n d hdraw hx hread
    have heb : 0 < f.eb := (by decide : ∀ g ∈ [fF64, fF32, fF16, fBF16, fE4M3, fE5M2], 0 < g.eb) f hf
    obtain ⟨-, -, hd, hval⟩ := val_of_read heb hread
    rw [Nat.mod_eq_of_lt (hx.trans_lt maxBits_lt_signBit)] at hval
    exact magBits_of_val f rm neg hd.ne' hdraw hval

end Sys2Proof.Floats
end

section
/-! SUPPORT. The special-function unit between its special values (06 R113, 21 R320): what a result is compared with, and how a result follows
from the unit's own value or from one rounding. -/

namespace Sys2Proof.Floats

open Sys2Proof Sys2Proof.Machine

/-! Distances -/

theorem sgn_cast (s : Bool) (n : Nat) : ((sgn s n : Int) : ℚ) = if s then -(n : ℚ) else n := by
  cases s <;> simp [sgn]

/-- The signed value of a fraction. -/
def signed (s : Bool) (n d : Nat) : ℚ := (if s then -(n : ℚ) else n) / d

theorem within_iff {s s' t : Bool} {m e n d tn td : Nat} (he : 0 < e) (hd : 0 < d) (ht : 0 < td) :
    within (s', m, e) (s, n, d) (t, tn, td) = true ↔ |signed s' m e - signed s n d| ≤ (tn : ℚ) / td := by
  have he' : (0 : ℚ) < e := by exact_mod_cast he
  have hd' : (0 : ℚ) < d := by exact_mod_cast hd
  have ht' : (0 : ℚ) < td := by exact_mod_cast ht
  have hdiff : signed s' m e - signed s n d = ((sgn s' (m * d) - sgn s (n * e) : Int) : ℚ) / (e * d) := by
    unfold signed
    push_cast [sgn_cast]
    rw [div_sub_div _ _ he'.ne' hd'.ne']
    cases s <;> cases s' <;> simp <;> ring
  have hcast : |((sgn s' (m * d) - sgn s (n * e) : Int) : ℚ)| = ((sgn s' (m * d) - sgn s (n * e)).natAbs : ℚ) := by
    rw [Nat.cast_natAbs, Int.cast_abs]
  unfold within
  rw [decide_eq_true_iff, hdiff, abs_div, abs_of_pos (mul_pos he' hd'), hcast, div_le_div_iff₀ (mul_pos he' hd') ht']
  exact_mod_cast Iff.rfl

/-- Nothing but the value itself lies within no distance of it. -/
theorem within_zero {c v t : Bool × Nat × Nat} (h : within c v (false, 0, 1) = true) : within c v t = true := by
  unfold within at *
  rw [decide_eq_true_iff] at h ⊢
  have hnone : (sgn c.1 (c.2.1 * v.2.2) - sgn v.1 (v.2.1 * c.2.2)).natAbs = 0 := by simpa using h
  rw [hnone, Nat.zero_mul]
  exact Nat.zero_le _

/-! F32 -/

theorem eb_fF32 : 0 < fF32.eb := by decide

@[simp] theorem signBit_fF32 : fF32.signBit = 2 ^ 31 := rfl
theorem lowUnit_fF32 : lowUnit fF32 = -149 := rfl
@[simp] theorem maxBits_fF32 : fF32.maxBits = 0x7F7FFFFF := rfl
@[simp] theorem infBits_fF32 : fF32.infBits = 0x7F800000 := rfl

theorem withSign_fF32_lt {m : Nat} (hm : m < 2 ^ 31) (s : Bool) : fF32.withSign s m < 2 ^ 32 := by
  unfold FloatFmt.withSign
  cases s <;> simp <;> omega

/-- A magnitude below 2^128 has the bits of a finite one. -/
theorem le_maxBits_of_val_lt {x : Nat} (h : valOf fF32 x < 2 ^ 128) : x ≤ fF32.maxBits := by
  by_contra hbig
  have hexp : 255 ≤ x / 2 ^ 23 := (Nat.le_div_iff_mul_le (by positivity)).mpr (by simp at hbig; omega)
  have hunit : 105 ≤ unitOf fF32 x := by simp only [unitOf, fF32]; omega
  have hsig : 2 ^ 23 ≤ sigOf fF32 x := le_sigOf (f := fF32) (by rw [lowUnit_fF32]; omega)
  refine absurd h (not_lt.mpr ?_)
  calc (2 : ℚ) ^ 128 = (2 ^ 23 : Nat) * 2 ^ (105 : Int) := by norm_num
    _ ≤ sigOf fF32 x * 2 ^ unitOf fF32 x := by gcongr; exact one_le_two

theorem roundUnit_fF32 {n d : Nat} (hn : n ≠ 0) : roundUnit fF32 n d = ulpExp n d := by
  unfold roundUnit ulpExp
  rw [if_neg hn]
  rfl

/-- The value rounded to F32, as the unit delivers it where its own value lies too far away. -/
def rounded (v : Bool × Nat × Nat) : Nat := (fF32.finish .rne false 0 (.fin v.1 v.2.1 v.2.2)).bits

theorem rounded_eq (s : Bool) (n d : Nat) :
    rounded (s, n, d) = fF32.withSign s (if fF32.magBits .rne s 0 n d > fF32.maxBits then fF32.infBits else fF32.magBits .rne s 0 n d) := by
  unfold rounded FloatFmt.finish
  dsimp only
  split
  · rfl
  · split
    · rename_i h
      simp at h
      rw [h.2]
    · rfl

theorem rounded_lt (v : Bool × Nat × Nat) : rounded v < 2 ^ 32 := by
  obtain ⟨s, n, d⟩ := v
  rw [rounded_eq]
  refine withSign_fF32_lt ?_ s
  split
  · decide
  · rename_i h
    exact (Nat.le_of_not_gt h).trans_lt (by decide)

/-- A finite result of the rounding is half a unit away from the value at most. -/
theorem rounded_near {s s' : Bool} {n d m e : Nat} (hd : d ≠ 0) (h : fF32.read (rounded (s, n, d)) = .fin s' m e) :
    0 < e ∧ |signed s' m e - signed s n d| ≤ 2 ^ ulpExp n d / 2 := by
  obtain ⟨hle, hs, he, hval⟩ := val_of_read eb_fF32 h
  refine ⟨he, ?_⟩
  rw [rounded_eq] at hle hs hval
  have hfin : ¬fF32.magBits .rne s 0 n d > fF32.maxBits := by
    intro hbig
    rw [if_pos hbig, withSign_mod (by decide)] at hle
    exact absurd hle (by decide)
  rw [if_neg hfin] at hle hs hval
  have hlt := (Nat.le_of_not_gt hfin).trans_lt maxBits_lt_signBit
  rw [withSign_neg hlt] at hs
  rw [withSign_mod hlt] at hval
  subst hs
  have hmag : |(m : ℚ) / e - n / d| ≤ 2 ^ ulpExp n d / 2 := by
    by_cases hn : n = 0
    · subst hn
      have : fF32.magBits .rne s' 0 0 d = 0 := rfl
      rw [hval, this]
      have : valOf fF32 0 = 0 := by simp [valOf, sigOf]
      rw [this]
      simp
      positivity
    · rw [hval, ← roundUnit_fF32 hn]
      exact magBits_near fF32 s' hn hd
  cases s'
  · simpa [signed] using hmag
  · rw [← abs_neg]
    simpa [signed, neg_div, sub_eq_add_neg, add_comm] using hmag

/-- A significand of 24 bits, of a unit that F32 has, below its largest exponent, comes through the rounding exactly. -/
theorem rounded_exact {s : Bool} {n d sig : Nat} {k : Int} (hn : n ≠ 0) (hd : d ≠ 0) (hval : (n : ℚ) / d = sig * 2 ^ k) (hsig : sig < 2 ^ 24)
    (hk : -149 ≤ k) (hmax : (n : ℚ) / d < 2 ^ 128) : ∃ m e : Nat, fF32.read (rounded (s, n, d)) = .fin s m e ∧ 0 < e ∧ (m : ℚ) / e = n / d := by
  have hexact := valOf_magBits_exact (draw := 0) fF32 .rne s hn hd (by decide) hval hsig hk
  have hle : fF32.magBits .rne s 0 n d ≤ fF32.maxBits := le_maxBits_of_val_lt (hexact ▸ hmax)
  obtain ⟨m, e, hread, he, hm⟩ := read_withSign eb_fF32 hle s
  refine ⟨m, e, ?_, he, hm.trans hexact⟩
  rw [rounded_eq, if_neg (Nat.not_lt.mpr hle), hread]

end Sys2Proof.Floats
end

section
/-! SUPPORT. The fixed-point series of sine and cosine (`altSeries`) against the partial sums of the real ones, and through the exponential
series the bound on both for one turn of the angle. -/

namespace Sys2Proof.Floats

open Sys2Proof Sys2Proof.Machine

/-! The terms -/

/-- The term of x^k in the series of cosine, for an even k, and of sine, for an odd one. -/
noncomputable def trigTerm (x : ℝ) (k : Nat) : ℝ := (-1) ^ (k / 2) * x ^ k / k.factorial

theorem trigTerm_next (x : ℝ) (k : Nat) : trigTerm x (k + 2) = -(trigTerm x k * x * x / ((k + 1) * (k + 2) : Nat)) := by
  have hfact : ((k + 2).factorial : ℝ) = (k + 2) * ((k + 1) * k.factorial) := by
    rw [Nat.factorial_succ, Nat.factorial_succ]
    push_cast
    ring
  have hk : (k.factorial : ℝ) ≠ 0 := by positivity
  unfold trigTerm
  rw [hfact, show (k + 2) / 2 = k / 2 + 1 by omega, pow_succ, pow_add]
  push_cast
  field_simp

/-! The error of the fixed-point terms -/

/-- The integer quotient falls short of the real one by less than 1. -/
theorem floor_div (a : Int) {b : Nat} (hb : 0 < b) : ((a / (b : Int) : Int) : ℝ) ≤ a / b ∧ (a : ℝ) / b < (a / (b : Int) : Int) + 1 := by
  have hb' : (0 : ℝ) < b := by exact_mod_cast hb
  have h1 := Int.ediv_mul_le a (show (b : Int) ≠ 0 by omega)
  have h2 := Int.lt_ediv_add_one_mul_self a (show (0 : Int) < b by omega)
  rw [le_div_iff₀ hb', div_lt_iff₀ hb']
  exact ⟨by exact_mod_cast h1, by exact_mod_cast h2⟩

/-- A bound on the error of the sum of n terms from that of x^k, whose error is e at most, for angles up to 6.3. -/
def seriesError : Nat → Nat → Nat → Nat
  | 0, _, _ => 0
  | n + 1, k, e => e + seriesError n (k + 2) ((40 * e + 8) / ((k + 1) * (k + 2)) + 2)

theorem altTerm_near {term : Int} {r k e : Nat} {t x : ℝ} (hx : x = r / fx) (hx2 : x * x ≤ 40) (hx1 : x ≤ 7) (h : |(term : ℝ) - fx * t| ≤ e) :
    |((-(term * r / fx * r / fx / (((k + 1) * (k + 2) : Nat) : Int)) : Int) : ℝ) - fx * -(t * x * x / ((k + 1) * (k + 2) : Nat))| ≤
      ((40 * e + 8) / ((k + 1) * (k + 2)) + 2 : Nat) := by
  have hfx : 0 < fx := by unfold fx; positivity
  have hfx' : (0 : ℝ) < fx := by exact_mod_cast hfx
  obtain ⟨c, hc⟩ : ∃ c, c = (k + 1) * (k + 2) := ⟨_, rfl⟩
  have hcpos : 0 < c := by rw [hc]; positivity
  have hc' : (0 : ℝ) < c := by exact_mod_cast hcpos
  have hx0 : 0 ≤ x := by rw [hx]; positivity
  rw [← hc]
  obtain ⟨a1, ha1⟩ : ∃ a, a = term * r / (fx : Int) := ⟨_, rfl⟩
  obtain ⟨a2, ha2⟩ : ∃ a, a = a1 * r / (fx : Int) := ⟨_, rfl⟩
  obtain ⟨h1, h1'⟩ := floor_div (term * r) hfx
  obtain ⟨h2, h2'⟩ := floor_div (a1 * r) hfx
  obtain ⟨h3, h3'⟩ := floor_div a2 hcpos
  rw [← ha1] at h1 h1' ⊢
  rw [← ha2] at h2 h2' ⊢
  push_cast at h1 h1' h2 h2'
  rw [mul_div_assoc, ← hx] at h1 h1' h2 h2'
  have hterm : |(term * x * x : ℝ) - fx * t * x * x| ≤ 40 * e := by
    have hfactor : (term * x * x : ℝ) - fx * t * x * x = (term - fx * t) * (x * x) := by ring
    rw [hfactor, abs_mul, abs_of_nonneg (mul_nonneg hx0 hx0), mul_comm 40]
    gcongr
  have hfloor : |(a2 : ℝ) - term * x * x| ≤ 8 := by
    have hle := mul_le_mul_of_nonneg_right h1 hx0
    have hlt := mul_le_mul_of_nonneg_right h1'.le hx0
    rw [abs_le]
    constructor <;> linarith
  have hnum : |(a2 : ℝ) - fx * t * x * x| ≤ 40 * e + 8 := by
    have := abs_sub_le (a2 : ℝ) (term * x * x) (fx * t * x * x)
    linarith
  have hquot : |(a2 : ℝ) / c - fx * (t * x * x / c)| ≤ (40 * e + 8) / c := by
    have hfactor : (a2 : ℝ) / c - fx * (t * x * x / c) = (a2 - fx * t * x * x) / c := by ring
    rw [hfactor, abs_div, abs_of_pos hc']
    gcongr
  have hround : ((40 * e + 8 : ℝ) / c) ≤ ((40 * e + 8) / c + 1 : Nat) := by
    rw [div_le_iff₀ hc']
    have := Nat.lt_div_mul_add (a := 40 * e + 8) hcpos
    rw [← Nat.add_one_mul] at this
    exact_mod_cast this.le
  rw [abs_le] at hquot ⊢
  push_cast at hround ⊢
  constructor <;> linarith [hquot.1, hquot.2]

theorem altSeries_near {r : Nat} {x : ℝ} (hx : x = r / fx) (hx2 : x * x ≤ 40) (hx1 : x ≤ 7) (n k e : Nat) (term : Int)
    (h : |(term : ℝ) - fx * trigTerm x k| ≤ e) :
    |(altSeries n k term r : ℝ) - fx * ∑ i ∈ Finset.range n, trigTerm x (k + 2 * i)| ≤ seriesError n k e := by
  induction n generalizing k e term with
  | zero => simp [altSeries, seriesError]
  | succ n ih =>
    have hnext := altTerm_near (k := k) hx hx2 hx1 h
    rw [← trigTerm_next] at hnext
    have hrest := ih (k + 2) _ _ hnext
    have hsum : ∑ i ∈ Finset.range (n + 1), trigTerm x (k + 2 * i) =
        trigTerm x k + ∑ i ∈ Finset.range n, trigTerm x (k + 2 + 2 * i) := by
      rw [Finset.sum_range_succ', add_comm]
      simp only [mul_zero, add_zero, mul_add, mul_one]
      congr 1
      refine Finset.sum_congr rfl fun i _ => ?_
      congr 1
      omega
    rw [altSeries, seriesError, hsum, mul_add (fx : ℝ), Int.cast_add, Nat.cast_add, add_sub_add_comm]
    exact (abs_add_le _ _).trans (add_le_add h hrest)

/-! The real sums -/

/-- The exponential series of an imaginary argument, by its real and imaginary parts. -/
theorem exp_partial (x : ℝ) (n : Nat) : ∑ m ∈ Finset.range (2 * n), (x * Complex.I) ^ m / (m.factorial : ℂ) =
    (∑ i ∈ Finset.range n, trigTerm x (2 * i) : ℝ) + (∑ i ∈ Finset.range n, trigTerm x (2 * i + 1) : ℝ) * Complex.I := by
  have hterm : ∀ i, ((x * Complex.I) ^ (2 * i) / ((2 * i).factorial : ℂ) : ℂ) = (trigTerm x (2 * i) : ℝ) ∧
      ((x * Complex.I) ^ (2 * i + 1) / ((2 * i + 1).factorial : ℂ) : ℂ) = (trigTerm x (2 * i + 1) : ℝ) * Complex.I := by
    intro i
    unfold trigTerm
    rw [show 2 * i / 2 = i by omega, show (2 * i + 1) / 2 = i by omega, mul_pow, mul_pow, pow_succ Complex.I, pow_mul Complex.I, Complex.I_sq]
    push_cast
    constructor <;> ring
  induction n with
  | zero => simp
  | succ n ih =>
    rw [show 2 * (n + 1) = 2 * n + 1 + 1 by ring, Finset.sum_range_succ, Finset.sum_range_succ, ih, (hterm n).1, (hterm n).2,
      Finset.sum_range_succ, Finset.sum_range_succ]
    push_cast
    ring

theorem trig_sums_le {x : ℝ} (h0 : 0 ≤ x) (h7 : x ≤ 7) :
    |∑ i ∈ Finset.range 60, trigTerm x (2 * i)| ≤ 2 ∧ |∑ i ∈ Finset.range 60, trigTerm x (2 * i + 1)| ≤ 2 := by
  have hnorm : ‖(x * Complex.I : ℂ)‖ = x := by simp [abs_of_nonneg h0]
  have hbound := Complex.exp_bound' (x := x * Complex.I) (n := 2 * 60) (by
    rw [hnorm]
    push_cast
    linarith [div_le_div_of_nonneg_right h7 (show (0 : ℝ) ≤ 121 by norm_num)])
  have hone : ‖Complex.exp (x * Complex.I)‖ = 1 := Complex.norm_exp_ofReal_mul_I x
  have hrem : ‖(x * Complex.I : ℂ)‖ ^ (2 * 60) / ((2 * 60).factorial : ℝ) * 2 ≤ 1 := by
    rw [hnorm]
    calc x ^ (2 * 60) / ((2 * 60).factorial : ℝ) * 2 ≤ 7 ^ (2 * 60) / ((2 * 60).factorial : ℝ) * 2 := by gcongr
      _ ≤ 1 := by norm_num [Nat.factorial]
  rw [exp_partial] at hbound
  have htotal : ‖((∑ i ∈ Finset.range 60, trigTerm x (2 * i) : ℝ) + (∑ i ∈ Finset.range 60, trigTerm x (2 * i + 1) : ℝ) * Complex.I : ℂ)‖ ≤ 2 := by
    have := norm_sub_norm_le ((∑ i ∈ Finset.range 60, trigTerm x (2 * i) : ℝ) + (∑ i ∈ Finset.range 60, trigTerm x (2 * i + 1) : ℝ) * Complex.I : ℂ)
      (Complex.exp (x * Complex.I))
    rw [norm_sub_rev] at this
    linarith
  constructor
  · refine le_trans ?_ ((Complex.abs_re_le_norm _).trans htotal)
    simp
  · refine le_trans ?_ ((Complex.abs_im_le_norm _).trans htotal)
    simp

/-! One turn -/

/-- An angle is less than 6.284 in fixed point. -/
theorem angleFx_le (n d : Nat) : 1000 * angleFx n d ≤ 6284 * fx := by
  have h : n * 2 ^ 256 / d % (2 * pi256) < 2 * pi256 := Nat.mod_lt _ (by decide)
  have hle : angleFx n d ≤ 2 * pi256 / 2 ^ 96 := Nat.div_le_div_right h.le
  have hnum : 1000 * (2 * pi256 / 2 ^ 96) ≤ 6284 * fx := by decide
  omega

/-- The fixed-point sine and cosine of an angle stay below 3. -/
theorem altSeries_lt (n d : Nat) : (altSeries 60 1 (angleFx n d) (angleFx n d)).natAbs < 3 * fx ∧ (altSeries 60 0 fx (angleFx n d)).natAbs < 3 * fx := by
  have hfx : (0 : ℝ) < fx := by unfold fx; positivity
  obtain ⟨x, hx⟩ : ∃ x : ℝ, x = angleFx n d / fx := ⟨_, rfl⟩
  have hx0 : 0 ≤ x := by rw [hx]; positivity
  have hx6 : x ≤ 6.284 := by
    have : (1000 * angleFx n d : ℝ) ≤ 6284 * fx := by exact_mod_cast angleFx_le n d
    rw [hx, div_le_iff₀ hfx]
    linarith
  have hx2 : x * x ≤ 40 := by nlinarith
  obtain ⟨hcos, hsin⟩ := trig_sums_le hx0 (by linarith)
  have hsum : ∀ (k : Nat) (term : Int), k ≤ 1 → (term : ℝ) = fx * trigTerm x k → |∑ i ∈ Finset.range 60, trigTerm x (k + 2 * i)| ≤ 2 →
      (altSeries 60 k term (angleFx n d)).natAbs < 3 * fx := by
    intro k term hk hterm htotal
    have hnear := altSeries_near hx hx2 (by linarith) 60 k 0 term (by simp [hterm])
    have herror : seriesError 60 k 0 < fx := (by decide : ∀ j ≤ 1, seriesError 60 j 0 < fx) k hk
    have herror' : (seriesError 60 k 0 : ℝ) < fx := by exact_mod_cast herror
    have hscaled : |fx * ∑ i ∈ Finset.range 60, trigTerm x (k + 2 * i)| ≤ fx * 2 := by
      rw [abs_mul, abs_of_pos hfx]
      gcongr
    have habs : |(altSeries 60 k term (angleFx n d) : ℝ)| < 3 * fx := by
      have := abs_sub_abs_le_abs_sub (altSeries 60 k term (angleFx n d) : ℝ) (fx * ∑ i ∈ Finset.range 60, trigTerm x (k + 2 * i))
      linarith
    rw [← Int.cast_abs, ← Nat.cast_natAbs] at habs
    exact_mod_cast habs
  constructor
  · refine hsum 1 _ le_rfl ?_ (by simpa only [add_comm] using hsin)
    simp [trigTerm, hx, mul_div_cancel₀ _ hfx.ne']
  · exact hsum 0 _ (Nat.zero_le 1) (by simp [trigTerm]) (by simpa only [zero_add] using hcos)

end Sys2Proof.Floats
end

section
/-! SUPPORT. The value and the bound of a special function (`sfuVal`, `sfuTol`; 06 R113, 21 R320), and the bits that the unit delivers. -/

namespace Sys2Proof.Floats

open Sys2Proof Sys2Proof.Machine

theorem fx_pos : 0 < fx := Nat.two_pow_pos 160

/-! Powers of two -/

section
variable {n d : Nat} {k : Int} (hn : n ≠ 0) (hd : d ≠ 0) (h : (n : ℚ) / d = 2 ^ k)
include hn hd h

theorem expOf_two_zpow : expOf n d = k :=
  expOf_eq hn hd h.ge (h.trans_lt (zpow_lt_zpow_right₀ one_lt_two (by omega)))

omit hn in
/-- Scaled by its own exponent, a power of two is 1. -/
theorem scale2_two_zpow : (scale2 n d (-k)).1 = (scale2 n d (-k)).2 := by
  have hval := scale2_val n d (-k)
  have hpos : (0 : ℚ) < (scale2 n d (-k)).2 := by exact_mod_cast scale2_den_pos n (Nat.pos_of_ne_zero hd) (-k)
  rw [h, ← zpow_add₀ two_ne_zero, add_neg_cancel, zpow_zero, div_eq_one_iff_eq hpos.ne'] at hval
  exact_mod_cast hval

theorem isPow2_two_zpow : isPow2 n d = true := by
  unfold isPow2
  rw [expOf_two_zpow hn hd h]
  simp [scale2_two_zpow hd h]

end

/-! Square roots -/

theorem isqrtFrom_spec (n : Nat) : ∀ k r : Nat, r * r ≤ n → n < (r + 2 ^ (k + 1)) * (r + 2 ^ (k + 1)) →
    isqrtFrom n k r * isqrtFrom n k r ≤ n ∧ n < (isqrtFrom n k r + 1) * (isqrtFrom n k r + 1)
  | 0, r, hlow, hhigh => by
    unfold isqrtFrom
    split
    · rename_i h
      exact ⟨h, hhigh⟩
    · rename_i h
      exact ⟨hlow, Nat.lt_of_not_le h⟩
  | k + 1, r, hlow, hhigh => by
    unfold isqrtFrom
    dsimp only
    split
    · rename_i h
      refine isqrtFrom_spec n k _ h ?_
      rwa [add_assoc, ← two_mul, ← pow_succ']
    · rename_i h
      exact isqrtFrom_spec n k _ hlow (Nat.lt_of_not_le h)

theorem isqrt_spec (n : Nat) : isqrt n * isqrt n ≤ n ∧ n < (isqrt n + 1) * (isqrt n + 1) := by
  refine isqrtFrom_spec n _ 0 (Nat.zero_le _) ?_
  calc n < 2 ^ (Nat.log2 n + 1) := Nat.lt_log2_self
    _ ≤ 2 ^ (Nat.log2 n / 2 + 1 + 1 + (Nat.log2 n / 2 + 1 + 1)) := Nat.pow_le_pow_right (by decide) (by omega)
    _ = (0 + 2 ^ (Nat.log2 n / 2 + 1 + 1)) * (0 + 2 ^ (Nat.log2 n / 2 + 1 + 1)) := by rw [pow_add, Nat.zero_add]

theorem isqrt_mul_self (r : Nat) : isqrt (r * r) = r := by
  obtain ⟨h1, h2⟩ := isqrt_spec (r * r)
  have h3 := Nat.mul_self_le_mul_self_iff.mp h1
  have h4 := Nat.mul_self_lt_mul_self_iff.mp h2
  omega

theorem sqrtFrac_eq {n d m : Nat} (h : n * d * 2 ^ 320 = m) :
    sqrtFrac n d = if isqrt m * isqrt m = m then (isqrt m, d * 2 ^ 160) else (2 * isqrt m + 1, d * 2 ^ 161) := by
  subst h
  rfl

theorem sqrtFrac_den_pos (n : Nat) {d : Nat} (hd : 0 < d) : 0 < (sqrtFrac n d).2 := by
  obtain ⟨m, hm⟩ : ∃ m, n * d * 2 ^ 320 = m := ⟨_, rfl⟩
  rw [sqrtFrac_eq hm]
  split
  · exact Nat.mul_pos hd (Nat.two_pow_pos 160)
  · exact Nat.mul_pos hd (Nat.two_pow_pos 161)

/-- The root of an even power of two is exact. -/
theorem sqrtFrac_val {n d : Nat} {k : Int} (hd : d ≠ 0) (h : (n : ℚ) / d = 2 ^ (2 * k)) :
    ((sqrtFrac n d).1 : ℚ) / (sqrtFrac n d).2 = 2 ^ k := by
  have hd' : (d : ℚ) ≠ 0 := by exact_mod_cast hd
  have hroot : ∃ r : Nat, (r : ℚ) = d * 2 ^ k * 2 ^ 160 ∧ n * d * 2 ^ 320 = r * r := by
    rcases Int.le_total 0 k with hk | hk
    · obtain ⟨j, rfl⟩ := Int.eq_ofNat_of_zero_le hk
      have hn : n = d * 2 ^ (2 * j) := by
        rw [div_eq_iff hd', mul_comm] at h
        exact_mod_cast h
      refine ⟨d * 2 ^ j * 2 ^ 160, by rw [Nat.cast_mul, Nat.cast_mul, Nat.cast_pow, Nat.cast_pow, zpow_natCast, Nat.cast_ofNat], ?_⟩
      rw [hn, pow_mul', show (320 : Nat) = 160 * 2 from rfl, pow_mul]
      ring
    · obtain ⟨j, hj⟩ := Int.eq_ofNat_of_zero_le (show 0 ≤ -k by omega)
      obtain rfl : k = -(j : Int) := by omega
      have hd2 : d = n * 2 ^ (2 * j) := by
        rw [mul_neg, zpow_neg, div_eq_iff hd', eq_inv_mul_iff_mul_eq₀ (by positivity), mul_comm] at h
        exact_mod_cast h.symm
      refine ⟨n * 2 ^ j * 2 ^ 160, ?_, ?_⟩
      · rw [hd2, zpow_neg, zpow_natCast]
        rw [Nat.cast_mul, Nat.cast_mul, Nat.cast_mul, Nat.cast_pow, Nat.cast_pow, Nat.cast_pow, Nat.cast_ofNat, pow_mul', pow_two, ← mul_assoc,
          mul_inv_cancel_right₀ (pow_ne_zero _ two_ne_zero)]
      · rw [hd2, pow_mul', show (320 : Nat) = 160 * 2 from rfl, pow_mul]
        ring
  obtain ⟨r, hr, hsq⟩ := hroot
  rw [sqrtFrac_eq hsq, isqrt_mul_self, if_pos rfl]
  rw [Nat.cast_mul, Nat.cast_pow, Nat.cast_ofNat, hr]
  have hscale : (2 : ℚ) ^ 160 ≠ 0 := pow_ne_zero _ two_ne_zero
  generalize (2 : ℚ) ^ 160 = c at *
  rw [mul_div_mul_right _ _ hscale, mul_div_cancel_left₀ _ hd']

/-! The bounds -/

/-- One unit in the last place of F32 at a value, k times. -/
def ulps (k n d : Nat) : Nat × Nat := scale2 k 1 (ulpExp n d)

theorem ulps_val (k n d : Nat) : ((ulps k n d).1 : ℚ) / (ulps k n d).2 = k * 2 ^ ulpExp n d := by
  simp [ulps, scale2_val]

theorem ulps_den_pos (k n d : Nat) : 0 < (ulps k n d).2 := scale2_den_pos k Nat.one_pos _

/-- The bounds of 06 Table 5. -/
def tableBound (op : SfuOp) (n d vn vd : Nat) : Nat × Nat :=
  match op with
  | .rcp | .rsq => ulps 1 vn vd
  | .exp2 => ulps 2 vn vd
  | .log2 => if d ≤ 2 * n ∧ n ≤ 2 * d then (1, 2 ^ 22) else ulps 2 vn vd
  | .sin | .cos => (1, 2 ^ 21)
  | .tanh => if (ulps 2 vn vd).2 ≤ (ulps 2 vn vd).1 * 2 ^ 24 then ulps 2 vn vd else (1, 2 ^ 24)

/-- What a candidate is tested against is the bound of the table, or nothing at all. -/
theorem sfuTol_cases (op : SfuOp) (n d vn vd : Nat) : sfuTol op n d vn vd = (0, 1) ∨ sfuTol op n d vn vd = tableBound op n d vn vd := by
  unfold sfuTol tableBound ulps
  cases op
  case rcp => dsimp only; split <;> simp
  case rsq => dsimp only; split <;> simp
  case exp2 => dsimp only; split <;> simp
  case log2 => dsimp only; split <;> simp
  case sin => simp
  case cos => simp
  case tanh => simp

theorem ulpExp_le {n d : Nat} {k : Int} (hk : -149 ≤ k) (hd : d ≠ 0) (h : (n : ℚ) / d < 2 ^ (k + 24)) : ulpExp n d ≤ k := by
  unfold ulpExp
  split
  · exact hk
  · rename_i hn
    have := expOf_lt hn hd h
    omega

/-- Half a unit in the last place lies within the bound of the table, where the value lies below 16 for sine and cosine and below 4 for a
logarithm near 0. -/
theorem half_ulp_le {op : SfuOp} {n d vn vd : Nat} (hd : vd ≠ 0) (htrig : op = .sin ∨ op = .cos → (vn : ℚ) / vd < 2 ^ 4)
    (hlog : op = .log2 → d ≤ 2 * n ∧ n ≤ 2 * d → (vn : ℚ) / vd < 2 ^ 3) :
    0 < (tableBound op n d vn vd).2 ∧ (2 : ℚ) ^ ulpExp vn vd / 2 ≤ (tableBound op n d vn vd).1 / (tableBound op n d vn vd).2 := by
  have hpos : (0 : ℚ) < 2 ^ ulpExp vn vd := by positivity
  have hulps : ∀ k : Nat, 1 ≤ k → 0 < (ulps k vn vd).2 ∧ (2 : ℚ) ^ ulpExp vn vd / 2 ≤ (ulps k vn vd).1 / (ulps k vn vd).2 := by
    intro k hk
    have : (1 : ℚ) ≤ k := by exact_mod_cast hk
    refine ⟨ulps_den_pos k vn vd, ?_⟩
    rw [ulps_val]
    nlinarith
  have htrig' : (vn : ℚ) / vd < 2 ^ 4 → (2 : ℚ) ^ ulpExp vn vd / 2 ≤ (1 : Nat) / (2 ^ 21 : Nat) := by
    intro h
    calc (2 : ℚ) ^ ulpExp vn vd / 2 ≤ 2 ^ (-20 : Int) / 2 := by
          gcongr
          · exact one_le_two
          · exact ulpExp_le (by decide) hd (by exact_mod_cast h)
      _ = (1 : Nat) / (2 ^ 21 : Nat) := by norm_num
  unfold tableBound
  cases op
  case rcp => exact hulps 1 le_rfl
  case rsq => exact hulps 1 le_rfl
  case exp2 => exact hulps 2 one_le_two
  case sin => exact ⟨by positivity, htrig' (htrig (.inl rfl))⟩
  case cos => exact ⟨by positivity, htrig' (htrig (.inr rfl))⟩
  case log2 =>
    dsimp only
    split
    · rename_i hnear
      refine ⟨by positivity, ?_⟩
      calc (2 : ℚ) ^ ulpExp vn vd / 2 ≤ 2 ^ (-21 : Int) / 2 := by
            gcongr
            · exact one_le_two
            · exact ulpExp_le (by decide) hd (by exact_mod_cast hlog rfl hnear)
        _ = (1 : Nat) / (2 ^ 22 : Nat) := by norm_num
    · exact hulps 2 one_le_two
  case tanh =>
    dsimp only
    split
    · exact hulps 2 one_le_two
    · rename_i hsmall
      obtain ⟨hden, hhalf⟩ := hulps 2 one_le_two
      refine ⟨by positivity, hhalf.trans ?_⟩
      rw [div_le_div_iff₀ (by exact_mod_cast hden) (by positivity)]
      push_cast
      rw [one_mul]
      exact_mod_cast (Nat.lt_of_not_le hsmall).le

/-! The values -/

theorem log2Bits_lt : ∀ n m : Nat, log2Bits n m < 2 ^ n
  | 0, _ => Nat.one_pos
  | n + 1, m => by
    unfold log2Bits
    dsimp only
    rw [pow_succ]
    split
    · have := log2Bits_lt n (m * m / fx / 2)
      omega
    · have := log2Bits_lt n (m * m / fx)
      omega

/-- The logarithm of 1 has no fraction. -/
theorem log2Bits_one : ∀ n : Nat, log2Bits n fx = 0
  | 0 => rfl
  | n + 1 => by
    have hfx := fx_pos
    unfold log2Bits
    dsimp only
    rw [Nat.mul_div_cancel _ hfx, if_neg (by omega), log2Bits_one n]

/-- The operation and the root are variables here, so that no check of the proof evaluates the root. -/
theorem sfuVal_of_root {op : SfuOp} (s : Bool) {n d : Nat} {p : Nat × Nat} (hop : op = .rsq) (hp : sqrtFrac d n = p) : sfuVal op s n d = (s, p) := by
  unfold sfuVal
  rw [hp]
  subst hop
  rfl

theorem sfuVal_rsq (s : Bool) (n d : Nat) : sfuVal .rsq s n d = (s, sqrtFrac d n) := sfuVal_of_root s rfl rfl

theorem sfuVal_den_pos (op : SfuOp) (s : Bool) {n d : Nat} (hn : n ≠ 0) : 0 < (sfuVal op s n d).2.2 := by
  have hfx := fx_pos
  cases op
  case rcp => exact Nat.pos_of_ne_zero hn
  case rsq =>
    rw [sfuVal_rsq]
    exact sqrtFrac_den_pos d (Nat.pos_of_ne_zero hn)
  case exp2 =>
    unfold sfuVal
    dsimp only
    split
    · exact scale2_den_pos 1 Nat.one_pos _
    · exact scale2_den_pos _ hfx _
  case log2 => exact Nat.two_pow_pos 64
  case sin => exact hfx
  case cos => exact hfx
  case tanh => exact Nat.add_pos_left hfx _

theorem sfuVal_trig {op : SfuOp} (h : op = .sin ∨ op = .cos) (s : Bool) (n d : Nat) :
    ((sfuVal op s n d).2.1 : ℚ) / (sfuVal op s n d).2.2 < 2 ^ 4 := by
  have hfx : (0 : ℚ) < fx := by exact_mod_cast fx_pos
  obtain ⟨hsin, hcos⟩ := altSeries_lt n d
  have hbelow : ∀ v : Nat, v < 3 * fx → (v : ℚ) / fx < 2 ^ 4 := by
    intro v hv
    have : (v : ℚ) < 3 * fx := by exact_mod_cast hv
    rw [div_lt_iff₀ hfx]
    linarith
  rcases h with rfl | rfl
  · exact hbelow _ hsin
  · exact hbelow _ hcos

theorem sfuVal_log2_near {s : Bool} {n d : Nat} (hn : n ≠ 0) (hd : d ≠ 0) (h : d ≤ 2 * n ∧ n ≤ 2 * d) :
    ((sfuVal .log2 s n d).2.1 : ℚ) / (sfuVal .log2 s n d).2.2 < 2 ^ 3 := by
  have hd' : (0 : ℚ) < d := by exact_mod_cast Nat.pos_of_ne_zero hd
  have hlow : -1 ≤ expOf n d := le_expOf hn hd (by
    have : (d : ℚ) ≤ 2 * n := by exact_mod_cast h.1
    rw [le_div_iff₀ hd']
    norm_num
    linarith)
  have hhigh : expOf n d < 2 := expOf_lt hn hd (by
    have : (n : ℚ) ≤ 2 * d := by exact_mod_cast h.2
    rw [div_lt_iff₀ hd']
    norm_num
    linarith)
  have hbits := log2Bits_lt 64 ((scale2 n d (-expOf n d)).1 * fx / (scale2 n d (-expOf n d)).2)
  have hval : (sfuVal .log2 s n d).2.1 < 2 ^ 3 * 2 ^ 64 := by
    unfold sfuVal
    dsimp only
    omega
  have hden : (sfuVal .log2 s n d).2.2 = 2 ^ 64 := rfl
  rw [hden, div_lt_iff₀ (by positivity)]
  exact_mod_cast hval

theorem sfuVal_log2_two_zpow {s : Bool} {n d : Nat} {k : Int} (hn : n ≠ 0) (hd : d ≠ 0) (h : (n : ℚ) / d = 2 ^ k) :
    sfuVal .log2 s n d = (decide (k < 0), (k * 2 ^ 64).natAbs, 2 ^ 64) := by
  have hpos := scale2_den_pos n (Nat.pos_of_ne_zero hd) (-k)
  unfold sfuVal
  dsimp only
  rw [expOf_two_zpow hn hd h, scale2_two_zpow hd h, Nat.mul_div_cancel_left _ hpos, log2Bits_one]
  simp only [Nat.cast_zero, add_zero, show k * 2 ^ 64 < 0 ↔ k < 0 by omega]

theorem expSeries_zero : ∀ n k y : Nat, expSeries n k 0 y = 0
  | 0, _, _ => rfl
  | n + 1, k, y => by rw [expSeries, Nat.zero_mul, Nat.zero_div, Nat.zero_div, expSeries_zero n]

theorem exp2Fx_zero : exp2Fx 0 = fx := by
  rw [exp2Fx, Nat.zero_mul, Nat.zero_div, expFx, expSeries, Nat.mul_zero, Nat.zero_div, Nat.zero_div, expSeries_zero, Nat.add_zero]

/-- 2 to an integer is exact. -/
theorem sfuVal_exp2_int {s : Bool} {n d : Nat} {k : Int} (hd : d ≠ 0) (h : sgn s n = k * d) (hlow : -149 ≤ k) (hhigh : k ≤ 127) :
    sfuVal .exp2 s n d = (false, scale2 fx fx k) := by
  have hfx := fx_pos
  have hd' := Nat.pos_of_ne_zero hd
  have hwhole : ∀ j : Nat, n = j * d → j < 200 → ¬n ≥ 200 * d ∧ n * fx / d = j * fx := by
    rintro j rfl hj
    refine ⟨Nat.not_le.mpr (Nat.mul_lt_mul_of_pos_right hj hd'), ?_⟩
    rw [Nat.mul_right_comm, Nat.mul_div_cancel _ hd']
  unfold sfuVal
  dsimp only
  cases s
  case false =>
    obtain ⟨j, rfl⟩ := Int.eq_ofNat_of_zero_le (show 0 ≤ k from
      nonneg_of_mul_nonneg_left (h ▸ Int.natCast_nonneg n : 0 ≤ k * (d : Int)) (by omega))
    obtain ⟨hsmall, hx⟩ := hwhole j (by have : (n : Int) = (j : Int) * d := h; exact_mod_cast this) (by omega)
    rw [if_neg hsmall, hx]
    simp [Nat.mul_div_cancel _ hfx, exp2Fx_zero]
  case true =>
    have hneg : (n : Int) = -k * d := by rw [neg_mul, ← h]; simp [sgn]
    obtain ⟨j, hj⟩ := Int.eq_ofNat_of_zero_le (show 0 ≤ -k from
      nonneg_of_mul_nonneg_left (hneg ▸ Int.natCast_nonneg n : 0 ≤ -k * (d : Int)) (by omega))
    obtain rfl : k = -(j : Int) := by omega
    obtain ⟨hsmall, hx⟩ := hwhole j (by rw [neg_neg] at hneg; exact_mod_cast hneg) (by omega)
    have hceil : (j * fx + fx - 1) / fx = j := by
      rw [Nat.add_sub_assoc hfx, Nat.add_comm, Nat.add_mul_div_right _ _ hfx, Nat.div_eq_of_lt (by omega), Nat.zero_add]
    rw [if_neg hsmall, hx, if_pos rfl, if_pos rfl, hceil, Nat.mul_mod_left, Nat.sub_zero, Nat.mod_self, exp2Fx_zero]

end Sys2Proof.Floats
end

section
/-! SUPPORT. What the special-function unit delivers (06 R113, 21 R320): within the bound of the table, and exactly where the value is a power of
two or a small integer: the statement. -/

namespace Sys2Proof.Floats

open Sys2Proof Sys2Proof.Machine

/-! The unit's value and the rounded one -/

/-- The unit's value passes the test against the tolerance, or the value itself is rounded. -/
theorem sfuFinite_cases (op : SfuOp) (x : Word) (s : Bool) (n d : Nat) {v : Bool × Nat × Nat} (hv : sfuVal op s n d = v) :
    (∃ c, candidate (fF32.read (sfuFinite op x s n d)) = some c ∧ within c v (false, sfuTol op n d v.2.1 v.2.2) = true) ∨
      sfuFinite op x s n d = rounded v := by
  unfold sfuFinite
  rw [hv]
  dsimp only
  split
  · rename_i c hc
    split
    · rename_i hin
      exact .inl ⟨c, hc, hin⟩
    · exact .inr rfl
  · exact .inr rfl

theorem sfuFinite_lt (op : SfuOp) (x : Word) (s : Bool) (n d : Nat) : sfuFinite op x s n d < 2 ^ 32 := by
  obtain ⟨v, hv⟩ : ∃ v, sfuVal op s n d = v := ⟨_, rfl⟩
  have hround : (fF32.finish .rne false 0 (.fin v.1 v.2.1 v.2.2)).bits < 2 ^ 32 := rounded_lt v
  unfold sfuFinite
  rw [hv]
  dsimp only
  split
  · split
    · exact (Config.sfu op x).isLt
    · exact hround
  · exact hround

/-- A finite result lies within the bound of the table (06 Table 5). -/
theorem sfuFinite_within {op : SfuOp} {x : Word} {s s' : Bool} {n d m e : Nat} (hn : n ≠ 0) (hd : d ≠ 0)
    (hread : fF32.read (sfuFinite op x s n d) = .fin s' m e) {v : Bool × Nat × Nat} (hv : sfuVal op s n d = v) :
    within (s', m, e) v (false, tableBound op n d v.2.1 v.2.2) = true := by
  have hden : 0 < v.2.2 := hv ▸ sfuVal_den_pos op s hn
  have htrig : op = .sin ∨ op = .cos → (v.2.1 : ℚ) / v.2.2 < 2 ^ 4 := fun h => hv ▸ sfuVal_trig h s n d
  have hlog : op = .log2 → d ≤ 2 * n ∧ n ≤ 2 * d → (v.2.1 : ℚ) / v.2.2 < 2 ^ 3 := by
    rintro rfl hnear
    exact hv ▸ sfuVal_log2_near hn hd hnear
  rcases sfuFinite_cases op x s n d hv with ⟨c, hc, hin⟩ | hround
  · rw [hread] at hc
    cases hc
    rcases sfuTol_cases op n d v.2.1 v.2.2 with htol | htol
    · exact within_zero (htol ▸ hin)
    · exact htol ▸ hin
  · obtain ⟨vs, vn, vd⟩ := v
    rw [hround] at hread
    obtain ⟨he, hnear⟩ := rounded_near hden.ne' hread
    obtain ⟨hpos, hhalf⟩ := half_ulp_le hden.ne' htrig hlog
    exact (within_iff he hden hpos).mpr (hnear.trans hhalf)

/-- Where the tolerance is nothing and F32 has the value, the result is the value (21 R320). -/
theorem sfuFinite_exact {op : SfuOp} {x : Word} {s vs : Bool} {n d vn vd sig : Nat} {k : Int} (hv : sfuVal op s n d = (vs, vn, vd))
    (htol : sfuTol op n d vn vd = (0, 1)) (hn : vn ≠ 0) (hd : vd ≠ 0) (hval : (vn : ℚ) / vd = sig * 2 ^ k) (hsig : sig < 2 ^ 24) (hk : -149 ≤ k)
    (hmax : (vn : ℚ) / vd < 2 ^ 128) : ∃ m e : Nat, fF32.read (sfuFinite op x s n d) = .fin vs m e ∧ 0 < e ∧ (m : ℚ) / e = vn / vd := by
  have hvd := Nat.pos_of_ne_zero hd
  have hpos : (0 : ℚ) < vn / vd := div_pos (by exact_mod_cast Nat.pos_of_ne_zero hn) (by exact_mod_cast hvd)
  rcases sfuFinite_cases op x s n d hv with ⟨⟨cs, cn, cd⟩, hc, hin⟩ | hround
  · have hsame : ∀ cs cn cd, 0 < cd → within (cs, cn, cd) (vs, vn, vd) (false, sfuTol op n d vn vd) = true →
        cs = vs ∧ (cn : ℚ) / cd = vn / vd := by
      intro cs cn cd hcd hin
      rw [htol, within_iff hcd hvd Nat.one_pos] at hin
      have hzero : signed cs cn cd = signed vs vn vd := by
        rw [← sub_eq_zero, ← abs_nonpos_iff]
        simpa using hin
      have hc0 : (0 : ℚ) ≤ cn / cd := by positivity
      unfold signed at hzero
      cases cs <;> cases vs <;> simp [neg_div] at hzero ⊢ <;> linarith
    cases hread : fF32.read (sfuFinite op x s n d) with
    | nan => rw [hread] at hc; cases hc
    | inf t =>
      rw [hread] at hc
      cases hc
      have := (hsame _ _ _ Nat.one_pos hin).2
      rw [← this] at hmax
      norm_num at hmax
    | fin t m e =>
      rw [hread] at hc
      cases hc
      have he := (val_of_read eb_fF32 hread).2.2.1
      obtain ⟨rfl, hsameval⟩ := hsame _ _ _ he hin
      exact ⟨_, _, rfl, he, hsameval⟩
  · rw [hround]
    exact rounded_exact hn hd hval hsig hk hmax

/-! Flushing -/

/-- What becomes of a finite result: a subnormal one is flushed where the word asks for it. -/
def delivered (ftz : Bool) (b : Nat) : Nat :=
  if b % 2 ^ 31 = fF32.infBits then b
  else if b % 2 ^ 31 == 0 || (ftz && decide (b % 2 ^ 31 < 2 ^ 23)) then fF32.withSign (decide (b ≥ 2 ^ 31)) 0 else b

/-- Away from the special values of the table. -/
theorem sfuWord_bits {op : SfuOp} {x : Word} {s : Bool} {n d : Nat} (ftz : Bool) (hread : fF32.read x.toNat = .fin s n d) (hn : n ≠ 0)
    (hdom : s = true → op ≠ .rsq ∧ op ≠ .log2) (hone : op = .log2 → n ≠ d) :
    (sfuWord op ftz x).bits = delivered ftz (sfuFinite op x s n d) := by
  have hspecial : ∀ b, b = sfuFinite op x s n d → (sfuWord op ftz x).bits = delivered ftz b := by
    rintro b hb
    unfold sfuWord delivered
    rw [hread]
    simp only [hn, if_false, ← hb]
    cases op
    case rsq =>
      obtain rfl : s = false := by simpa using hdom
      simp only [Bool.false_eq_true, if_false]
      split
      · rfl
      · split <;> rfl
    case log2 =>
      obtain rfl : s = false := by simpa using hdom
      simp only [Bool.false_eq_true, if_false, hone rfl]
      split
      · rfl
      · split <;> rfl
    all_goals
      dsimp only
      split
      · rfl
      · split <;> rfl
  exact hspecial _ rfl

theorem delivered_unflushed {b : Nat} (hb : b < 2 ^ 32) : delivered false b = b := by
  unfold delivered
  split
  · rfl
  · split
    · rename_i h
      have hzero : b % 2 ^ 31 = 0 := by simpa using h
      unfold FloatFmt.withSign
      rw [signBit_fF32]
      by_cases hneg : b ≥ 2 ^ 31
      · simp only [hneg, decide_true, if_true]
        omega
      · simp only [hneg, decide_false, Bool.false_eq_true, if_false]
        omega
    · rfl

/-- A nonzero result is not flushed where it is normal. -/
theorem delivered_of_normal {ftz s : Bool} {b m e : Nat} (hread : fF32.read b = .fin s m e) (hm : (0 : ℚ) < m / e)
    (hnormal : ftz = true → (2 : ℚ) ^ (-126 : Int) ≤ m / e) : delivered ftz b = b := by
  obtain ⟨-, -, -, hval⟩ := val_of_read eb_fF32 hread
  rw [signBit_fF32] at hval
  rw [hval] at hm hnormal
  have hne : b % 2 ^ 31 ≠ 0 := by
    intro h
    rw [h] at hm
    simp [valOf, sigOf] at hm
  have hbig : ftz = true → ¬b % 2 ^ 31 < 2 ^ 23 := by
    intro hz hsmall
    have hunit : unitOf fF32 (b % 2 ^ 31) = -149 := by
      simp only [unitOf, fF32, Nat.div_eq_of_lt hsmall]
      decide
    have hsig : sigOf fF32 (b % 2 ^ 31) < 2 ^ 23 := by
      unfold sigOf
      rw [if_pos (show b % 2 ^ 31 / 2 ^ fF32.fb = 0 from Nat.div_eq_of_lt hsmall)]
      exact Nat.mod_lt _ (by decide)
    refine absurd (hnormal hz) (not_le.mpr ?_)
    unfold valOf
    rw [hunit]
    calc (sigOf fF32 (b % 2 ^ 31) : ℚ) * 2 ^ (-149 : Int) < (2 ^ 23 : Nat) * 2 ^ (-149 : Int) := by gcongr
      _ = 2 ^ (-126 : Int) := by norm_num
  unfold delivered
  rw [if_neg (c := (b % 2 ^ 31 == 0 || (ftz && decide (b % 2 ^ 31 < 2 ^ 23))) = true)]
  · exact ite_self _
  · cases ftz <;> simp_all

/-! Powers of two and integers as F32 holds them -/

theorem power_iff {n d : Nat} {k : Int} (hd : d ≠ 0) : n * 2 ^ (-k).toNat = d * 2 ^ k.toNat ↔ (n : ℚ) / d = 2 ^ k := by
  have hd' : (d : ℚ) ≠ 0 := by exact_mod_cast hd
  rcases Int.le_total 0 k with hk | hk
  · obtain ⟨j, rfl⟩ := Int.eq_ofNat_of_zero_le hk
    rw [div_eq_iff hd', zpow_natCast, Int.toNat_natCast, show (-(j : Int)).toNat = 0 by omega, pow_zero, mul_one, mul_comm]
    exact_mod_cast Iff.rfl
  · obtain ⟨j, hj⟩ := Int.eq_ofNat_of_zero_le (show 0 ≤ -k by omega)
    obtain rfl : k = -(j : Int) := by omega
    rw [div_eq_iff hd', zpow_neg, zpow_natCast, eq_inv_mul_iff_mul_eq₀ (by positivity), neg_neg, Int.toNat_natCast,
      show (-(j : Int)).toNat = 0 by omega, pow_zero, mul_one, mul_comm]
    exact_mod_cast Iff.rfl

/-- The power of two 2^k, as a nonzero value of an F32 pattern. -/
theorem two_zpow_ne_zero {n d : Nat} {k : Int} (h : (n : ℚ) / d = 2 ^ k) : n ≠ 0 := by
  rintro rfl
  rw [Nat.cast_zero, zero_div] at h
  exact zpow_ne_zero k two_ne_zero h.symm

/-- An F32 pattern holds no power of two beyond its exponents. -/
theorem two_zpow_range {x n d : Nat} {s : Bool} {k : Int} (hread : fF32.read x = .fin s n d) (h : (n : ℚ) / d = 2 ^ k) : -149 ≤ k ∧ k < 128 := by
  obtain ⟨hle, -, -, hval⟩ := val_of_read eb_fF32 hread
  rw [signBit_fF32] at hle hval
  have hexp : x % 2 ^ 31 / 2 ^ 23 ≤ 254 := by
    rw [maxBits_fF32] at hle
    omega
  have hunit : -149 ≤ unitOf fF32 (x % 2 ^ 31) ∧ unitOf fF32 (x % 2 ^ 31) ≤ 104 := by
    simp only [unitOf, fF32]
    omega
  have hsig : (sigOf fF32 (x % 2 ^ 31) : ℚ) < 2 ^ (24 : Int) := by exact_mod_cast sigOf_lt fF32 (x % 2 ^ 31)
  have hpos : (1 : ℚ) ≤ sigOf fF32 (x % 2 ^ 31) := by
    refine Nat.one_le_cast.mpr (Nat.one_le_iff_ne_zero.mpr fun h0 => zpow_ne_zero k (two_ne_zero (α := ℚ)) ?_)
    rw [← h, hval, valOf, h0, Nat.cast_zero, zero_mul]
  rw [h] at hval
  constructor
  · refine (zpow_le_zpow_iff_right₀ (one_lt_two (α := ℚ))).mp ?_
    calc (2 : ℚ) ^ (-149 : Int) = 1 * 2 ^ (-149 : Int) := (one_mul _).symm
      _ ≤ sigOf fF32 (x % 2 ^ 31) * 2 ^ unitOf fF32 (x % 2 ^ 31) := by gcongr; exacts [one_le_two, hunit.1]
      _ = 2 ^ k := hval.symm
  · refine (zpow_lt_zpow_iff_right₀ (one_lt_two (α := ℚ))).mp ?_
    calc (2 : ℚ) ^ k = sigOf fF32 (x % 2 ^ 31) * 2 ^ unitOf fF32 (x % 2 ^ 31) := hval
      _ < 2 ^ (24 : Int) * 2 ^ unitOf fF32 (x % 2 ^ 31) := by gcongr
      _ ≤ 2 ^ (24 : Int) * 2 ^ (104 : Int) := by gcongr; exacts [one_le_two, hunit.2]
      _ = 2 ^ (128 : Int) := by rw [← zpow_add₀ two_ne_zero]; rfl

/-- A power of two that the unit computes exactly and F32 holds is delivered (21 R320). -/
theorem delivered_power {op : SfuOp} {x : Word} {s ftz : Bool} {n d vn vd : Nat} {j : Int} (hv : sfuVal op s n d = (false, vn, vd))
    (htol : sfuTol op n d vn vd = (0, 1)) (hd : vd ≠ 0) (hval : (vn : ℚ) / vd = 2 ^ j) (hmax : j ≤ 127)
    (hheld : if ftz then -126 ≤ j else -149 ≤ j) :
    ∃ n' d', fF32.read (delivered ftz (sfuFinite op x s n d)) = .fin false n' d' ∧ d' ≠ 0 ∧ n' * 2 ^ (-j).toNat = d' * 2 ^ j.toNat := by
  have hlow : -149 ≤ j := by split at hheld <;> omega
  obtain ⟨m, e, hread, he, hm⟩ := sfuFinite_exact (x := x) (sig := 1) (k := j) hv htol (two_zpow_ne_zero hval) hd (by rw [hval]; simp) (by decide) hlow
    (by rw [hval]; exact_mod_cast zpow_lt_zpow_right₀ (one_lt_two (α := ℚ)) (show j < (128 : Nat) by omega))
  rw [hval] at hm
  refine ⟨m, e, ?_, he.ne', (power_iff he.ne').mpr hm⟩
  rw [delivered_of_normal hread (by rw [hm]; positivity), hread]
  rintro rfl
  rw [hm]
  exact zpow_le_zpow_right₀ one_le_two (by simpa using hheld)

/-! The statement -/

/-- FEXP2 of an integer. -/
theorem exp2_exact {x : Word} {s : Bool} {n d : Nat} {k : Int} (z : Bool) (hread : fF32.read x.toNat = .fin s n d) (hd : d ≠ 0)
    (hint : sgn s n = k * d) (hmax : k ≤ 127) (hheld : if z then -126 ≤ k else -149 ≤ k) :
    ∃ n' d', fF32.read (sfuWord .exp2 z x).bits = .fin false n' d' ∧ d' ≠ 0 ∧ n' * 2 ^ (-k).toNat = d' * 2 ^ k.toNat := by
  by_cases hn : n = 0
  · have hk : k = 0 := by
      have : k * d = 0 := by rw [← hint, hn]; cases s <;> rfl
      simpa [hd] using this
    have hbits : (sfuWord .exp2 z x).bits = 0x3F800000 := by
      unfold sfuWord
      rw [hread]
      simp [hn]
    subst hk
    rw [hbits]
    exact ⟨2 ^ 23, 2 ^ 23, by decide, by decide, rfl⟩
  · have hlow : -149 ≤ k := by split at hheld <;> omega
    have hval := sfuVal_exp2_int hd hint hlow hmax
    have hscale : ((scale2 fx fx k).1 : ℚ) / (scale2 fx fx k).2 = 2 ^ k := by
      rw [scale2_val, div_self (by exact_mod_cast fx_pos.ne'), one_mul]
    have hdvd : n % d = 0 := by
      have : (d : Int) ∣ sgn s n := ⟨k, by rw [hint, mul_comm]⟩
      refine Nat.mod_eq_zero_of_dvd (Int.natCast_dvd_natCast.mp ?_)
      cases s
      · exact this
      · exact (dvd_neg.mp this)
    rw [sfuWord_bits z hread hn (by simp) (by simp)]
    exact delivered_power hval (by simp [sfuTol, hdvd]) (scale2_den_pos _ fx_pos _).ne' hscale hmax hheld

section
variable {x : Word} {n d : Nat} {k : Int} (hread : fF32.read x.toNat = .fin false n d) (hd : d ≠ 0)
include hread hd

/-- FLOG2 of a power of two. -/
theorem log2_exact (z : Bool) (h : (n : ℚ) / d = 2 ^ k) :
    ∃ neg n' d', fF32.read (sfuWord .log2 z x).bits = .fin neg n' d' ∧ d' ≠ 0 ∧ sgn neg n' = k * d' := by
  have hn := two_zpow_ne_zero h
  obtain ⟨hlow, hhigh⟩ := two_zpow_range hread h
  by_cases hone : n = d
  · have hk : k = 0 := by
      rw [hone, div_self (by exact_mod_cast hd)] at h
      by_contra hne
      exact hne ((zpow_eq_one_iff_right₀ (by norm_num : (0 : ℚ) ≤ 2) (by norm_num)).mp h.symm)
    have hbits : (sfuWord .log2 z x).bits = 0 := by
      unfold sfuWord
      rw [hread]
      simp [hone, hd]
    subst hk
    rw [hbits]
    exact ⟨false, 0, 2 ^ 149, by decide, by decide, rfl⟩
  · have hk : k ≠ 0 := by
      rintro rfl
      rw [zpow_zero, div_eq_one_iff_eq (by exact_mod_cast hd)] at h
      exact hone (by exact_mod_cast h)
    have hval := sfuVal_log2_two_zpow (s := false) hn hd h
    have hscale : (((k * 2 ^ 64).natAbs : Nat) : ℚ) / (2 ^ 64 : Nat) = k.natAbs := by
      rw [Int.natAbs_mul, show ((2 : Int) ^ 64).natAbs = 2 ^ 64 from rfl, Nat.cast_mul, mul_div_cancel_right₀ _ (by positivity)]
    have hsmall : (k.natAbs : ℚ) < 2 ^ 24 := by exact_mod_cast (show k.natAbs < 2 ^ 24 by omega)
    have hlarge : (1 : ℚ) ≤ k.natAbs := by exact_mod_cast (show 1 ≤ k.natAbs by omega)
    obtain ⟨m, e, hres, he, hm⟩ := sfuFinite_exact (x := x) (sig := k.natAbs) (k := 0) hval (by simp [sfuTol, isPow2_two_zpow hn hd h]) (by omega)
      (by positivity) (by rw [hscale]; simp) (by omega) (by decide) (by rw [hscale]; exact hsmall.trans (by norm_num))
    rw [hscale] at hm
    rw [sfuWord_bits z hread hn (by simp) (fun _ => hone), delivered_of_normal hres (by rw [hm]; linarith)
      (fun _ => by rw [hm]; exact le_trans (by norm_num) hlarge)]
    refine ⟨_, m, e, hres, he.ne', ?_⟩
    have hme : m = k.natAbs * e := by
      rw [div_eq_iff (by exact_mod_cast he.ne')] at hm
      exact_mod_cast hm
    rw [hme]
    rcases lt_or_ge k 0 with hneg | hpos
    · simp [sgn, hneg, abs_of_neg hneg]
    · simp [sgn, hpos, abs_of_nonneg hpos]

/-- FRCP of a power of two. -/
theorem rcp_exact (z : Bool) (h : (n : ℚ) / d = 2 ^ k) (hmax : -k ≤ 127) (hheld : if z then -126 ≤ -k else -149 ≤ -k) :
    ∃ n' d', fF32.read (sfuWord .rcp z x).bits = .fin false n' d' ∧ d' ≠ 0 ∧ n' * 2 ^ (- -k).toNat = d' * 2 ^ (-k).toNat := by
  have hn := two_zpow_ne_zero h
  have hinv : (d : ℚ) / n = 2 ^ (-k) := by rw [zpow_neg, ← h, inv_div]
  rw [sfuWord_bits z hread hn (by simp) (by simp)]
  exact delivered_power (s := false) rfl (by simp [sfuTol, isPow2_two_zpow hn hd h]) hn hinv hmax hheld

/-- FRSQ of an even power of two. -/
theorem rsq_exact (z : Bool) (h : (n : ℚ) / d = 2 ^ (2 * k)) (hmax : -k ≤ 127) (hheld : if z then -126 ≤ -k else -149 ≤ -k) :
    ∃ n' d', fF32.read (sfuWord .rsq z x).bits = .fin false n' d' ∧ d' ≠ 0 ∧ n' * 2 ^ (- -k).toNat = d' * 2 ^ (-k).toNat := by
  have hn := two_zpow_ne_zero h
  have hroot := sqrtFrac_val (n := d) (k := -k) hn (by rw [mul_neg, zpow_neg, ← h, inv_div])
  have hden := sqrtFrac_den_pos d (Nat.pos_of_ne_zero hn)
  obtain ⟨⟨vn, vd⟩, hp⟩ : ∃ p, sqrtFrac d n = p := ⟨_, rfl⟩
  rw [hp] at hroot hden
  rw [sfuWord_bits z hread hn (by simp) (by simp)]
  exact delivered_power (sfuVal_of_root false rfl hp) (by simp [sfuTol, isPow2_two_zpow hn hd h, expOf_two_zpow hn hd h]) hden.ne' hroot hmax hheld

end

/-- A finite result of a word without flush. -/
theorem sfuWord_within {op : SfuOp} {x : Word} {s s' : Bool} {n d m e : Nat} (hread : fF32.read x.toNat = .fin s n d) (hn : n ≠ 0)
    (hdom : s = true → op ≠ .rsq ∧ op ≠ .log2) (hres : fF32.read (sfuWord op false x).bits = .fin s' m e) {v : Bool × Nat × Nat}
    (hv : sfuVal op s n d = v) : within (s', m, e) v (false, tableBound op n d v.2.1 v.2.2) = true := by
  have hd := (val_of_read eb_fF32 hread).2.2.1.ne'
  by_cases hone : op = .log2 ∧ n = d
  · obtain ⟨rfl, rfl⟩ := hone
    obtain rfl : s = false := by simpa using hdom
    have hval := sfuVal_log2_two_zpow (s := false) (k := 0) hn hd (by rw [zpow_zero, div_self (by exact_mod_cast hd)])
    have hbits : (sfuWord .log2 false x).bits = 0 := by
      unfold sfuWord
      rw [hread]
      simp [hn]
    rw [hbits] at hres
    obtain rfl : m = 0 := by
      have : fF32.read 0 = .fin false 0 (2 ^ 149) := by decide
      rw [this] at hres
      cases hres
      rfl
    rw [← hv, hval]
    cases s' <;> simp [within, sgn]
  · rw [sfuWord_bits false hread hn hdom (fun h1 h2 => hone ⟨h1, h2⟩), delivered_unflushed (sfuFinite_lt op x s n d)] at hres
    exact sfuFinite_within hn hd hres hv

/-- Settles O28: a result is the unit's value within its tolerance, or one rounding of the value, which is half a unit in the last place away;
where the tolerance is nothing it is the value. -/
theorem specialFunctionBounds : Obligations.SpecialFunctionBounds := by
  unfold Obligations.SpecialFunctionBounds
  constructor
  · intro op x s n d s' m e hread hn hdom hres
    obtain ⟨v, hv⟩ : ∃ v, sfuVal op s n d = v := ⟨_, rfl⟩
    have := sfuWord_within hread hn hdom hres hv
    dsimp only
    rw [hv]
    cases op <;> exact this
  · intro z x k
    refine ⟨?_, ?_, ?_, ?_⟩
    · rintro ⟨s, n, d, hread, hd, hint⟩ ⟨hmax, hheld⟩
      exact exp2_exact z hread hd hint hmax hheld
    · rintro ⟨n, d, hread, hd, hpow⟩
      exact log2_exact hread hd z ((power_iff hd).mp hpow)
    · rintro ⟨n, d, hread, hd, hpow⟩ ⟨hmax, hheld⟩
      exact rcp_exact hread hd z ((power_iff hd).mp hpow) hmax hheld
    · rintro ⟨n, d, hread, hd, hpow⟩ ⟨hmax, hheld⟩
      exact rsq_exact hread hd z ((power_iff hd).mp hpow) hmax hheld

end Sys2Proof.Floats
end

section
/-! SUPPORT. The statistics of regions (06 R115 to R118): the counting of one event, and the events of a word where no threshold is set. -/

namespace Sys2Proof.Statistics

open Sys2Proof Sys2Proof.Machine Sys2Proof.Safety Sys2Proof.Laws

/-! One event -/

/-- The window of a class has passed: where it started, or else starts now (06 R117). -/
def Passed (x : Stat) (now window : Nat) : Prop := window ≠ 0 ∧ x.start.getD now + window ≤ now

section
variable {x : Stat} {now thresh window : Nat}

theorem event_passed (h : Passed x now window) : x.event now thresh window = (⟨1, some now, thresh == 1⟩, thresh == 1) := by
  obtain ⟨hwindow, hpast⟩ := h
  have hpast' : (window != 0 && decide (now - x.start.getD now ≥ window)) = true := by
    simp
    omega
  have hact : (thresh != 0 && decide (1 ≥ thresh)) = (thresh == 1) := by
    rw [Bool.eq_iff_iff]
    simp
    omega
  simp [Stat.event, hpast', hact]

theorem event_within (h : ¬Passed x now window) : x.event now thresh window =
    (⟨x.count + 1, some (x.start.getD now), x.fired || (thresh != 0 && decide ((x.count + 1).toNat ≥ thresh) && !x.fired)⟩,
      thresh != 0 && decide ((x.count + 1).toNat ≥ thresh) && !x.fired) := by
  have hpast : (window != 0 && decide (now - x.start.getD now ≥ window)) = false := by
    unfold Passed at h
    simp
    omega
  simp only [Stat.event, hpast, Bool.false_eq_true, if_false, Bool.not_false, Bool.true_and]

end

/-- Settles O31: the two cases of the window. -/
theorem statisticsWindow : Obligations.StatisticsWindow := by
  unfold Obligations.StatisticsWindow
  intro x t thresh window hcount
  have hnext : (x.count + 1).toNat = x.count.toNat + 1 := by
    have : x.count.toNat ≠ 2 ^ 64 - 1 := fun h => hcount (BitVec.eq_of_toNat_eq (by simpa using h))
    have := x.count.isLt
    rw [BitVec.toNat_add]
    exact Nat.mod_eq_of_lt (by simp; omega)
  dsimp only
  constructor
  · intro h
    simp [event_passed h]
  · intro h
    rw [event_within h, hnext]
    refine ⟨rfl, rfl, ?_, ?_⟩
    · simp [and_assoc]
    · simp

end Sys2Proof.Statistics
end

section
/-! SUPPORT. The events of a word where no threshold is set (06 R115, R117): they change nothing but statistics. -/

namespace Sys2Proof.Statistics

open Sys2Proof Sys2Proof.Machine Sys2Proof.Safety Sys2Proof.Laws

/-! States that differ in statistics alone -/

/-- All that a state has besides the statistics of its regions is as it was. -/
structure Recounted (s t : State) : Prop where
  rest : { t with regions := s.regions } = s
  rcb : ∀ r, (t.region r).rcb = (s.region r).rcb
  thresh : ∀ r, (t.region r).thresh = (s.region r).thresh

theorem Recounted.refl (s : State) : Recounted s s := ⟨rfl, fun _ => rfl, fun _ => rfl⟩

theorem Recounted.trans {s t u : State} (h : Recounted s t) (g : Recounted t u) : Recounted s u :=
  ⟨by rw [← h.rest, ← g.rest], fun r => (g.rcb r).trans (h.rcb r), fun r => (g.thresh r).trans (h.thresh r)⟩

theorem Recounted.mem {s t : State} (h : Recounted s t) : t.mem = s.mem := (congrArg State.mem h.rest :)
theorem Recounted.regs {s t : State} (h : Recounted s t) : t.regs = s.regs := (congrArg State.regs h.rest :)
theorem Recounted.cores {s t : State} (h : Recounted s t) : t.cores = s.cores := (congrArg State.cores h.rest :)

/-- What an effective field and a table are read from is no statistic (02 R18, R20; 06 R117). -/
theorem Recounted.threshOf {s t : State} (h : Recounted s t) (r : Nat) (e : Ev) : t.threshOf r e = s.threshOf r e := by
  have hrcb : ∀ a, t.rcb a = s.rcb a := by
    intro a
    simp only [State.rcb, State.homeBytes, h.rcb, h.mem, h.regs]
  have hchain : ∀ n a, t.chainFrom n a = s.chainFrom n a := by
    intro n
    induction n with
    | zero => intro a; rfl
    | succ n ih =>
      intro a
      have hbad : t.parentBad a = s.parentBad a := by
        unfold State.parentBad State.parentAddr
        rw [hrcb, h.regs]
      simp only [State.chainFrom, hbad, State.parent, State.parentAddr, hrcb, h.regs, ih]
  have heff : t.effStattab r = s.effStattab r := by
    simp only [State.effStattab, State.eff, State.source, State.chain, hchain, hrcb]
  simp only [State.threshOf, State.thresh, heff, h.thresh, State.readThresh, State.homeBytes, h.mem]

theorem Recounted.noStat {s t : State} (h : Recounted s t) (hs : NoStat s) : NoStat t := fun r e => by
  rw [h.threshOf, hs]

theorem recounted_setRegion (s : State) (r : Nat) (stats : Tbl Stat) : Recounted s (s.setRegion r { s.region r with stats := stats }) := by
  refine ⟨rfl, fun a => ?_, fun a => ?_⟩
  all_goals
    by_cases h : a = r
    · subst h
      rw [region_setRegion]
    · exact congrArg _ (Tbl_get_set_other (t := s.regions) _ _ h)

/-! The counting of events -/

theorem countIn_quiet {s : State} (hs : NoStat s) (r : Nat) (e : Ev) : ∃ t, s.countIn r e = (t, 0) ∧ Recounted s t := by
  obtain ⟨⟨thresh, window, action⟩, hthresh⟩ : ∃ x, s.threshOf r e = x := ⟨_, rfl⟩
  obtain rfl : thresh = 0 := by
    have := hs r e
    rwa [hthresh] at this
  have hact : ∀ x : Stat, (x.event s.tref.toNat 0 window).2 = false := fun _ => rfl
  refine ⟨_, ?_, recounted_setRegion s r
    (Tbl.set Stat.init (s.region r).stats e.idx ((Tbl.get Stat.init (s.region r).stats e.idx).event s.tref.toNat 0 window).1)⟩
  simp only [State.countIn, hthresh, hact, Bool.false_eq_true, if_false]

theorem countEvent_quiet {s : State} (hs : NoStat s) (w : Who) (b : Block) (pc : DWord) (lane : Nat) (e : Ev) :
    ∃ t, s.countEvent w b pc lane e = (t, false) ∧ Recounted s t := by
  unfold State.countEvent
  generalize s.counters b.dealt.region e = l
  induction l generalizing s with
  | nil => exact ⟨s, rfl, Recounted.refl s⟩
  | cons r l ih =>
    obtain ⟨u, hu, hsu⟩ := countIn_quiet hs r e
    obtain ⟨t, ht, hut⟩ := ih (hsu.noStat hs)
    refine ⟨t, ?_, hsu.trans hut⟩
    rw [List.foldl_cons, hu]
    exact ht

/-- THE EVENTS OF A WORD WHERE NO THRESHOLD IS SET: none takes an action, and only statistics change. -/
theorem countEvents_quiet {s : State} (hs : NoStat s) (w : Who) (b : Block) (pc : DWord) (evs : List (Nat × Ev)) :
    ∃ t, s.countEvents w b pc evs = (t, none) ∧ Recounted s t := by
  unfold State.countEvents
  induction evs generalizing s with
  | nil => exact ⟨s, rfl, Recounted.refl s⟩
  | cons p evs ih =>
    obtain ⟨u, hu, hsu⟩ := countEvent_quiet hs w b pc p.1 p.2
    obtain ⟨t, ht, hut⟩ := ih (hsu.noStat hs)
    refine ⟨t, ?_, hsu.trans hut⟩
    rw [List.foldl_cons, hu]
    exact ht

end Sys2Proof.Statistics
end

section
/-! SUPPORT. FPTRAP (06 R106, 07 R132): the words that trap where an element overflows under policy 11. -/

namespace Sys2Proof.Statistics

open Sys2Proof Sys2Proof.Machine Sys2Proof.Safety Sys2Proof.Laws

/-- A ready word whose effect is a trap takes it. -/
theorem runs_of_trap {s q : State} {i : Instr} {op : Nat} {g : Guard} {c : Ctx} {k : Ctx → State → Res} {a : TrapArgs} (h : Ready s i op g c)
    (hexec : exec i s = s.issue i op g k) (hk : k c (paid s c i) = .trap q a) : Runs i s (q.takeTrap c.who c.pc c.next a) := by
  unfold Runs
  rw [hexec, issue_ready h, hk]
  rfl

/-- The word traps on a state in which nothing but statistics has changed since it was paid. -/
theorem traps_of_fpTrap {s : State} {i : Instr} {op : Nat} {g : Guard} {c : Ctx} {k : Ctx → State → Res} {lanes : BitVec 32} {evs : List (Nat × Ev)}
    {addr : DWord} (h : Ready s i op g c) (hexec : exec i s = s.issue i op g k) (hstat : NoStat (paid s c i))
    (hk : k c (paid s c i) = Res.fpTrap (paid s c i) c lanes evs addr) :
    ∃ q : State, { q with regions := (paid s c i).regions } = paid s c i ∧
      Runs i s (q.takeTrap c.who c.pc c.next (TrapArgs.of .fpTrap addr 0 lanes)) := by
  obtain ⟨t, ht, hrec⟩ := countEvents_quiet hstat c.who c.blk c.pc evs
  refine ⟨t, hrec.rest, runs_of_trap h hexec ?_⟩
  rw [hk, Res.fpTrap, ht]

theorem maskOf_congr {w : Nat} {f g : Nat → Bool} (h : ∀ l, l < w → f l = g l) : maskOf w f = maskOf w g := by
  unfold maskOf
  refine List.foldl_ext _ _ _ fun m l hl => ?_
  rw [h l (List.mem_range.mp hl)]

/-- Elements of which some trap in an executing lane: the trap has the lanes of such elements (06 R106). -/
theorem elems_fpTrap {s : State} {c : Ctx} {f : Nat → List Elem} {bad : Nat → Bool} (d : Nat) (sr : Bool) (pack : List Nat → List Word)
    (hbad : ∀ l, l < 32 → bad l = (c.exec.getLsbD l && (f l).any (·.trap))) (h : ∃ l, l < 32 ∧ bad l = true) :
    ∃ evs, s.elems c d sr f pack = Res.fpTrap s c (maskOf 32 bad) evs 0 := by
  obtain ⟨rs, hrs⟩ : ∃ rs, rs = ((onesOf c.exec).map fun l => (l, f l)).filter fun r => r.2.any (·.trap) := ⟨_, rfl⟩
  have hmem : ∀ l, l < 32 → rs.any (·.1 == l) = bad l := by
    intro l hl
    rw [hbad l hl, hrs, Bool.eq_iff_iff]
    simp only [List.any_eq_true, List.mem_filter, List.mem_map, mem_onesOf, Bool.and_eq_true, beq_iff_eq]
    constructor
    · rintro ⟨r, ⟨⟨k, ⟨hk, hexec⟩, rfl⟩, htrap⟩, rfl⟩
      exact ⟨hexec, htrap⟩
    · rintro ⟨hexec, htrap⟩
      exact ⟨(l, f l), ⟨⟨l, ⟨hl, hexec⟩, rfl⟩, htrap⟩, rfl⟩
  have hsome : rs.isEmpty = false := by
    obtain ⟨l, hl, htrue⟩ := h
    rw [← hmem l hl] at htrue
    cases rs
    · cases htrue
    · rfl
  refine ⟨rs.flatMap fun r => (r.2.filter (·.trap)).flatMap fun e => e.ev.map fun v => (r.1, v), ?_⟩
  unfold State.elems
  dsimp only
  rw [← hrs, hsome, maskOf_congr hmem]
  rfl

/-- A word that makes elements, of which some trap. -/
theorem traps_of_elems {s : State} {i : Instr} {op : Nat} {g : Guard} {c : Ctx} {k : Ctx → State → Res} {f : Nat → List Elem} {bad : Nat → Bool}
    {d : Nat} {sr : Bool} {pack : List Nat → List Word} (h : Ready s i op g c) (hexec : exec i s = s.issue i op g k)
    (hk : k c (paid s c i) = (paid s c i).elems c d sr f pack) (hbad : ∀ l, l < 32 → bad l = (c.exec.getLsbD l && (f l).any (·.trap)))
    (hsome : ∃ l, l < 32 ∧ bad l = true) (hstat : NoStat (paid s c i)) :
    ∃ q : State, { q with regions := (paid s c i).regions } = paid s c i ∧
      Runs i s (q.takeTrap c.who c.pc c.next (TrapArgs.of .fpTrap 0 0 (maskOf 32 bad))) := by
  obtain ⟨evs, hevs⟩ := elems_fpTrap (s := paid s c i) d sr pack hbad hsome
  exact traps_of_fpTrap h hexec hstat (hk.trans hevs)

theorem cvt_traps {src dst : Fmt} {rm : Rm} {o : A2} {s : State} {c : Ctx} (h : Ready s (.cvt src dst rm .trap o) 0x48 o.g c)
    (hstat : NoStat (paid s c (.cvt src dst rm .trap o))) {bad : Nat → Bool}
    (hbad : ∀ l, bad l = (c.exec.getLsbD l && (fmtConvert dst rm .trap ((paid s c (.cvt src dst rm .trap o)).draw c l 0)
      (fmtRead src (if fmtBits src = 64 then ((paid s c (.cvt src dst rm .trap o)).get64 c o.a.toNat l).toNat
        else ((paid s c (.cvt src dst rm .trap o)).get c o.a.toNat l).toNat))).trap)) (hsome : ∃ l, l < 32 ∧ bad l = true) :
    ∃ q : State, { q with regions := (paid s c (.cvt src dst rm .trap o)).regions } = paid s c (.cvt src dst rm .trap o) ∧
      Runs (.cvt src dst rm .trap o) s (q.takeTrap c.who c.pc c.next (TrapArgs.of .fpTrap 0 0 (maskOf 32 bad))) := by
  have hexec : exec (.cvt src dst rm .trap o) s = execCvt src dst rm .trap o s := rfl
  unfold execCvt at hexec
  refine traps_of_elems h hexec rfl (fun l _ => ?_) hsome hstat
  rw [hbad]
  simp

theorem pk8_traps {f : Fmt8} {rm : Rm} {o : A3} {s : State} {c : Ctx} (h : Ready s (.pk8 f rm .trap o) 0x49 o.g c)
    (hstat : NoStat (paid s c (.pk8 f rm .trap o))) {bad : Nat → Bool}
    (hbad : ∀ l, bad l = (c.exec.getLsbD l && (List.range 4).any fun k => (pk8Elem f rm .trap ((paid s c (.pk8 f rm .trap o)).draw c l k)
      (((paid s c (.pk8 f rm .trap o)).get c o.b.toNat l).toNat % 256) ((paid s c (.pk8 f rm .trap o)).get c (o.a.toNat + k) l).toNat).trap))
    (hsome : ∃ l, l < 32 ∧ bad l = true) :
    ∃ q : State, { q with regions := (paid s c (.pk8 f rm .trap o)).regions } = paid s c (.pk8 f rm .trap o) ∧
      Runs (.pk8 f rm .trap o) s (q.takeTrap c.who c.pc c.next (TrapArgs.of .fpTrap 0 0 (maskOf 32 bad))) := by
  have hexec : exec (.pk8 f rm .trap o) s = execPk8 f rm .trap o s := rfl
  unfold execPk8 at hexec
  refine traps_of_elems h hexec rfl (fun l _ => ?_) hsome hstat
  rw [hbad, List.any_map]
  rfl

/-! MDRAIN -/

/-- The first element of a list that satisfies a test heads those that do. -/
theorem filter_range_map {α : Type} (f : Nat → α) (p : α → Bool) {n k : Nat} (hk : k < n) (hp : p (f k) = true) (hfirst : ∀ j, j < k → p (f j) = false) :
    ∃ rest, ((List.range n).map fun j => (j, f j)).filter (fun e => p e.2) = (k, f k) :: rest := by
  obtain ⟨m, rfl⟩ : ∃ m, n = k + (m + 1) := ⟨n - k - 1, by omega⟩
  have hbefore : ((List.range k).map fun j => (j, f j)).filter (fun e => p e.2) = [] := by
    rw [List.filter_eq_nil_iff]
    intro e he
    obtain ⟨j, hj, rfl⟩ := List.mem_map.mp he
    simpa using hfirst j (List.mem_range.mp hj)
  rw [List.range_add, List.map_append, List.filter_append, hbefore, List.range_succ_eq_map, List.map_cons, List.map_cons, List.nil_append,
    Nat.add_zero, List.filter_cons, if_pos hp]
  exact ⟨_, rfl⟩

/-- The row and column of element k of a drain of cols columns, as the address of its accumulator (07 R132). -/
def drainPlace (m : Matrix) (ma : BitVec 4) (cols : Nat) (acc : AccFmt) (k : Nat) : Nat :=
  m.reg ma.toNat + k / cols * m.reg (ma.toNat + 1) + k % cols * acc.words

def drainElem (m : Matrix) (ma : BitVec 4) (cols : Nat) (acc : AccFmt) (fa : Fmt) (rm : Rm) (ov : Ov) (seed : Word) (k : Nat) : Elem :=
  fmtConvert fa rm ov (srDraw seed k) (accNum acc (m.accGet acc (drainPlace m ma cols acc k)).bits)

section
variable {fa : Fmt} {id : BitVec 8} {ma mb : BitVec 4} {rm : Rm} {s : State} {c : Ctx} {m : Matrix} {acc : AccFmt}

theorem mdrain_traps {p : State} (hp : p = paid s c (.mdrain fa id ma mb rm .trap)) (h : Ready s (.mdrain fa id ma mb rm .trap) 0xA5 noGuard c)
    (hstat : NoStat p) (hm : p.mat c = some m) (hstop : m.stop = false) (hfrom : drainFrom fa = some acc) (hid : 1 ≤ id.toNat) (hid' : id.toNat ≤ 40)
    (halign : m.reg (ma.toNat + 2) % (fmtBits fa / 8) = 0) (halign' : m.reg (ma.toNat + 3) % (fmtBits fa / 8) = 0)
    (hacc : accFits acc (m.reg ma.toNat) (m.reg (ma.toNat + 1)) (m.reg mb.toNat) (32 * id.toNat) acc.words = true)
    (hscr : p.scrFits c (m.reg (ma.toNat + 2) + (m.reg mb.toNat - 1) * m.reg (ma.toNat + 3) + 32 * id.toNat * (fmtBits fa / 8)) = true)
    (hclean : ∀ j, j < m.reg mb.toNat * (32 * id.toNat) → m.accBadAt acc (drainPlace m ma (32 * id.toNat) acc j) = none) {k : Nat}
    (hk : k < m.reg mb.toNat * (32 * id.toNat)) (hspill : (drainElem m ma (32 * id.toNat) acc fa rm .trap c.blk.msrseed k).trap = true)
    (hfirst : ∀ j, j < k → (drainElem m ma (32 * id.toNat) acc fa rm .trap c.blk.msrseed j).trap = false) :
    ∃ q : State, { q with regions := p.regions } = p ∧ Runs (.mdrain fa id ma mb rm .trap) s
      (q.takeTrap c.who c.pc c.next (TrapArgs.of .fpTrap (BitVec.ofNat 64 (drainPlace m ma (32 * id.toNat) acc k)) 0 0)) := by
  subst hp
  have hexec : exec (.mdrain fa id ma mb rm .trap) s = execMdrain fa id ma mb rm .trap s := rfl
  unfold execMdrain State.matWord at hexec
  obtain ⟨rest, hes⟩ := filter_range_map (drainElem m ma (32 * id.toNat) acc fa rm .trap c.blk.msrseed) (·.trap) hk hspill hfirst
  have hnone : (List.range (m.reg mb.toNat * (32 * id.toNat))).filterMap (fun k => m.accBadAt acc (drainPlace m ma (32 * id.toNat) acc k)) = [] :=
    List.filterMap_eq_nil_iff.mpr fun j hj => hclean j (List.mem_range.mp hj)
  have hrows : m.reg mb.toNat ≠ 0 := by
    intro h0
    rw [h0, Nat.zero_mul] at hk
    exact Nat.not_lt_zero _ hk
  refine traps_of_fpTrap (evs := (((k, drainElem m ma (32 * id.toNat) acc fa rm .trap c.blk.msrseed k) :: rest).flatMap fun r => r.2.ev).map fun v => (0, v))
    h hexec hstat ?_
  unfold drainElem drainPlace at hes
  unfold drainPlace at hnone
  simp only [hm, hstop, hfrom, hscr, halign, halign', hrows, Nat.not_lt.mpr hid, Nat.not_lt.mpr hid', hnone, hes, hacc, Nat.add_zero, Bool.false_and]
  rfl
end

/-- Settles O30: CVT and PK8 by the lanes in which elements trap, MDRAIN by the first of its elements that does. -/
theorem overflowTrapLeavesRegisters : Obligations.OverflowTrapLeavesRegisters := by
  unfold Obligations.OverflowTrapLeavesRegisters
  refine ⟨fun src dst rm o s c => ?_, fun f rm o s c => ?_, fun fa id ma mb rm s c m acc k => ?_⟩
  · intro _ _ _ hready hsome _ hstat
    exact cvt_traps hready hstat (fun _ => rfl) hsome
  · intro _ _ _ hready hsome _ hstat
    exact pk8_traps hready hstat (fun _ => rfl) hsome
  · intro _ _ _ _ _ _ _ _ hissues hm hstop hfrom hid hid' halign halign' hacc hscr hclean hk hspill hfirst _ hstat
    exact mdrain_traps rfl hissues.ready hstat hm hstop hfrom hid hid' halign halign' hacc hscr hclean hk hspill hfirst

end Sys2Proof.Statistics
end

section
/-! SUPPORT. A special-function word of a warp whose executing lanes are marked as exited: its destination takes an entry of the operand cache
unfilled (03 R45), so that what those lanes hold of it is free. -/

namespace Sys2Proof.Exited

open Sys2Proof Sys2Proof.Machine Sys2Proof.Safety Sys2Proof.Laws

/-- Every lane of the warp has exited, its operand cache is empty, and no result is in flight. -/
structure Gone (w : Warp) : Prop where
  alive : w.alive = 0
  oc : w.oc = []
  results : w.flight.results = []

theorem Gone.setX {w : Warp} (h : Gone w) (s : State) (r l : Nat) (v : Word) : Gone (w.setX s r l v) := by
  unfold Warp.setX
  split
  · exact h
  · exact ⟨h.alive, h.oc, by simp only [h.results]; rfl⟩

theorem Gone.setRegs {w : Warp} (h : Gone w) (s : State) (l d : Nat) (vs : List Word) : Gone (w.setRegs s l d vs) := by
  induction vs generalizing w d with
  | nil => exact h
  | cons v vs ih => exact ih (h.setX s d l v) (d + 1)

/-- The registers that a word of many lanes writes. -/
def wrote (s : State) (d : Nat) (rs : List (Nat × List Word)) (w : Warp) : Warp := rs.foldl (fun w r => w.setRegs s r.1 d r.2) w

theorem Gone.wrote {w : Warp} (h : Gone w) (s : State) (d : Nat) (rs : List (Nat × List Word)) : Gone (wrote s d rs w) := by
  induction rs generalizing w with
  | nil => exact h
  | cons r rs ih => exact ih (h.setRegs s r.1 d r.2)

theorem due_setRegs (s : State) (w : Warp) (l d : Nat) (vs : List Word) : (w.setRegs s l d vs).due = w.due := by
  induction vs generalizing w d with
  | nil => rfl
  | cons v vs ih => exact (ih (w.setX s d l v) (d + 1)).trans (due_setX s w d l v)

/-! The operand cache -/

/-- The free value of register n in lane l. -/
def freeWord (s : State) (n l : Nat) : Word := (s.freeAt 1 (32 * n + l)).setWidth 32

theorem foldl_set_self (n : Nat) (v : Nat → Word) {l : Nat} (ls : List Nat) (t : Tbl Word) (h : l ∈ ls ∨ Tbl.get 0 t (32 * n + l) = v l) :
    Tbl.get 0 (ls.foldl (fun t l => Tbl.set 0 t (32 * n + l) (v l)) t) (32 * n + l) = v l := by
  induction ls generalizing t with
  | nil => exact h.resolve_left List.not_mem_nil
  | cons a ls ih =>
    refine ih _ ?_
    by_cases hal : l = a
    · subst hal
      exact .inr (Tbl_get_set_same ..)
    · exact h.imp (fun h => (List.mem_cons.mp h).resolve_left hal) fun h => (Tbl_get_set_other _ _ _ (by omega)).trans h

theorem unfilled_gone {w : Warp} (halive : w.alive = 0) (hoc : w.oc = []) (s : State) (m : BitVec 32) {n l : Nat} (hn : n ≠ 0) (hl : l < 32) :
    Tbl.get 0 (w.unfilled s m n .none).regs (32 * n + l) = freeWord s n l := by
  unfold Warp.unfilled
  rw [if_neg (by simp [hn, hoc, halive])]
  refine foldl_set_self n (freeWord s n) _ _ (.inl ((mem_onesOf _ _).mpr ⟨hl, ?_⟩))
  rw [halive, show ~~~(0 : BitVec 32) = BitVec.allOnes 32 from rfl, BitVec.getLsbD_allOnes]
  exact decide_eq_true hl

theorem writeName_gone {p : Warp × List Nat} (halive : p.1.alive = 0) (hoc : p.1.oc = []) (s : State) (w0 : Warp) (m : BitVec 32) {n l : Nat}
    (hn : n ≠ 0) (hl : l < 32) : Tbl.get 0 (Warp.writeName s w0 m p (n, .none)).1.regs (32 * n + l) = freeWord s n l := by
  have hsame : (p.1.notePrev w0 m n).alive = p.1.alive ∧ (p.1.notePrev w0 m n).oc = p.1.oc := by
    unfold Warp.notePrev
    split
    · exact ⟨rfl, rfl⟩
    · exact ⟨rfl, rfl⟩
  exact unfilled_gone (hsame.1.trans halive) (hsame.2.trans hoc) s m hn hl

/-- x8 of x0, in every lane. -/
def ofZero : A2 := ⟨8, 0, ⟨0, false⟩, .none, .none⟩

theorem cacheWord_gone {w : Warp} (h : Gone w) (s : State) (w0 : Warp) (m : BitVec 32) {l : Nat} (hl : l < 32) :
    Tbl.get 0 (w.cacheWord s ofZero.use m w0).regs (32 * 8 + l) = freeWord s 8 l := by
  have hcache : w.cacheWord s ofZero.use m w0 = w0.keepBad (Warp.writeName s w0 m (w, []) (8, .none)).1 [] := rfl
  rw [hcache, keepBad_regs, writeName_gone h.alive h.oc s w0 m (by decide) hl]

theorem cacheWord_results {w : Warp} (h : Gone w) (s : State) (u : Use) (w0 : Warp) (m : BitVec 32) :
    (w.cacheWord s u m w0).flight.results = [] :=
  (congrArg (·.flight.results) (cacheWord_rest s u m w0 w) :).symm.trans h.results

/-! The word -/

theorem elems_quiet {s : State} {c : Ctx} {f : Nat → List Elem} {v : Nat} (h : ∀ l, f l = [⟨v, [], false⟩]) (d : Nat)
    (pack : List Nat → List Word) : s.elems c d false f pack = .done (s.updWarp c.who (wrote s d ((onesOf c.exec).map fun l => (l, pack [v])))) .go := by
  have hwrote : ∀ w : Warp, wrote s d ((onesOf c.exec).map fun l => (l, pack [v])) w =
      ((onesOf c.exec).map fun l => (l, f l)).foldl (fun w r => w.setRegs s r.1 d (pack (r.2.map (·.bits)))) w := by
    intro w
    simp only [wrote, h, List.foldl_map]
    rfl
  have hnone : ((onesOf c.exec).map fun l => (l, f l)).filter (fun r => r.2.any (·.trap)) = [] := by simp [h]
  have hevs : (((onesOf c.exec).map fun l => (l, f l)).flatMap fun r => r.2.flatMap fun e => e.ev.map fun v => (r.1, v)) = [] := by simp [h]
  unfold State.elems
  dsimp only
  rw [hnone, hevs, funext hwrote]
  rfl

theorem landNow_quiet {s0 s : State} {w : Who} (h : (s.flight w).results = []) : s0.landNow s w = s := by
  unfold State.landNow
  rw [h]
  simp

/-- A word whose effect is on its warp alone goes on with what the operand cache leaves of the warp, where no result is then in flight. -/
theorem val_goesOn {p : State} {c : Ctx} {i : Instr} {w : Warp} {f : Warp → Warp} (hw : p.warp c.who = some w) (hgone : Gone (f w))
    {r : Nat} (hr : r ≠ 0) (l : Nat) : val (goesOn p c i (p.updWarp c.who f) .go) c.who r l =
      (Tbl.get 0 ((f w).cacheWord p (i.use c.cls) c.exec w).regs (32 * r + l)).setWidth 64 := by
  have hwarp : IsWarp c.who := isWarp_of_warp hw
  have hcached : ((p.cacheWord (p.updWarp c.who f) c (i.use c.cls)).warp c.who) = some ((f w).cacheWord p (i.use c.cls) c.exec w) := by
    simp only [State.cacheWord, hw, warp_updWarp, Option.map_some]
  have hland : p.landNow (p.cacheWord (p.updWarp c.who f) c (i.use c.cls)) c.who = p.cacheWord (p.updWarp c.who f) c (i.use c.cls) := by
    refine landNow_quiet ?_
    rw [Frames.flight_of_isWarp hwarp, hcached]
    exact cacheWord_results hgone p _ w c.exec
  have hregs : ∀ x, (placed c .go x).regs = x.regs := fun x => (congrArg Warp.regs (placed_rest c .go x) :).symm
  rw [goesOn, hland, goOn_warp hwarp, Frames.val_of_isWarp hwarp, warp_updWarp, hcached]
  simp only [Option.map_some, Option.getD_some, hregs, hr, if_false]

/-- The writes of a special-function word whose result is v in every lane. -/
def sfuWrites (p : State) (c : Ctx) (v : Nat) : Warp → Warp := wrote p 8 ((onesOf c.exec).map fun l => (l, packOf .f32 [v]))

theorem sfu_gives {s : State} {c : Ctx} {i : Instr} {op : Nat} {f : SfuOp} {v : Nat} (hc : IsWarp c.who) (h : Issues s i op ofZero.g c)
    (hexec : exec i s = s.issue i op ofZero.g fun c s => s.sfu c f false ofZero) (hv : sfuWord f false 0 = ⟨v, [], false⟩) :
    Gives s c i ((paid s c i).updWarp c.who (sfuWrites (paid s c i) c v)) := by
  refine gives_of_done h hexec (elems_quiet (fun l => ?_) 8 _) ?_
  · rw [show ofZero.a.toNat = 0 from rfl, Frames.get_zero hc]
    exact congrArg (fun e => [e]) hv
  · exact warp_part_updWarp (·.due) (fun x => foldl_keeps Warp.due (fun y (r : Nat × List Word) => due_setRegs _ y r.1 8 r.2) _ x) _ _ _

/-- A SPECIAL-FUNCTION WORD OF LANES THAT HAVE EXITED: what it leaves in its destination depends on the state alone in which it was paid. -/
theorem sfu_gone {s t : State} {c : Ctx} {i : Instr} {op : Nat} {f : SfuOp} {v : Nat} {w : Warp} (h : Issues s i op ofZero.g c)
    (hexec : exec i s = s.issue i op ofZero.g fun c s => s.sfu c f false ofZero) (huse : i.use c.cls = ofZero.use)
    (hw : (paid s c i).warp c.who = some w) (hgone : Gone w) (hv : sfuWord f false 0 = ⟨v, [], false⟩) (ht : Runs i s t) {l : Nat} (hl : l < 32) :
    val t c.who 8 l = (freeWord (paid s c i) 8 l).setWidth 64 := by
  have hwrites : Gone (sfuWrites (paid s c i) c v w) := hgone.wrote _ 8 _
  have hgoes : goesOn (paid s c i) c i _ .go = t := Host.Outcome.next.inj ((sfu_gives (isWarp_of_warp hw) h hexec hv).symm.trans ht)
  rw [← hgoes, val_goesOn hw hwrites (by decide), huse, cacheWord_gone hwrites _ w c.exec hl]

/-! The state -/

/-- Warp 0 stands at FRCP of x0 with every lane in the gang, and all of them are marked as exited; memory is blank. -/
def gone : State :=
  let s := State.reset.placeWord (encode (.frcp false ofZero))
  let s := ((s.blockOf s.cur).map fun b => (s.enter s.cur b).1).getD s
  { s with mem := { s.mem with mem := [] }, regions := [] }.updWarp s.cur fun w => { w with alive := 0 }

def goneCtx : Ctx := (gone.ctx gone.cur ofZero.g).get (by decide +kernel)

/-- The state in which a word of price 2 has its effect. -/
def gonePaid : State := (gone.tick.pay goneCtx 2).1

theorem gonePaid_gone : ∃ w, gonePaid.warp goneCtx.who = some w ∧ Gone w := by
  have h : (gonePaid.warp goneCtx.who).any (fun w => w.alive == 0 && w.oc.isEmpty && w.flight.results.isEmpty) = true := by decide +kernel
  cases hw : gonePaid.warp goneCtx.who with
  | none => rw [hw] at h; cases h
  | some w =>
    simp only [hw, Option.any_some, Bool.and_eq_true, beq_iff_eq, List.isEmpty_iff] at h
    obtain ⟨⟨halive, hoc⟩, hresults⟩ := h
    exact ⟨w, rfl, halive, hoc, hresults⟩

theorem gone_issues {i : Instr} {op : Nat} (hprice : priceOf i = 2) (huse : i.use .lane = ofZero.use)
    (hchecks : gone.issueTrap goneCtx i op 2 = none) : Issues gone i op ofZero.g goneCtx := by
  have hcls : goneCtx.cls = .lane := by decide +kernel
  refine ⟨⟨(Option.some_get _).symm, ?_, ?_, hprice ▸ hchecks, ?_, ?_, ?_⟩, ?_⟩
  · decide +kernel
  · decide +kernel
  · rw [hprice]
    decide +kernel
  · decide +kernel
  · rw [hcls, huse, paid, hprice]
    decide +kernel
  · unfold NotDue
    decide +kernel

/-- Where no memory and no region lists anything, every region's record is zero (02 R18). -/
theorem noStat_of_blank {s : State} (hregions : s.regions = []) (hmem : s.mem.mem = []) : NoStat s := by
  intro r e
  have hrcb : ∀ a, s.rcb a = 0 := by
    intro a
    have hzeros : s.homeBytes (s.regs.regtab.toNat + 64 * a) 64 = List.replicate 64 0 := by
      rw [State.homeBytes, hmem]
      rfl
    have hnone : (s.region a).rcb = none := by
      rw [State.region, hregions]
      rfl
    rw [State.rcb, hnone, hzeros]
    exact congrArg (BitVec.ofNat 512) (show natOf (List.replicate 64 0) = 0 by decide)
  have heff : s.effStattab r = 0 := by
    rw [State.effStattab, State.eff, hrcb]
    simp only [fld, BitVec.ofNat_eq_ofNat, BitVec.toNat_zero, Nat.zero_div, Nat.zero_mod]
  rw [State.threshOf, State.thresh, if_pos heff]

theorem gonePaid_noStat : NoStat gonePaid :=
  noStat_of_blank (List.isEmpty_iff.mp (by decide +kernel)) (List.isEmpty_iff.mp (by decide +kernel))

/-- What a special-function word of x0 leaves in x8 of lane 0 of `gone`, whatever the unit's result. -/
theorem sfu_of_gone {t : State} {i : Instr} {op : Nat} {f : SfuOp} {v : Nat} (h : Issues gone i op ofZero.g goneCtx)
    (hexec : exec i gone = gone.issue i op ofZero.g fun c s => s.sfu c f false ofZero) (huse : i.use .lane = ofZero.use) (hprice : priceOf i = 2)
    (hv : sfuWord f false 0 = ⟨v, [], false⟩) (ht : Runs i gone t) : val t goneCtx.who 8 0 = (freeWord gonePaid 8 0).setWidth 64 := by
  have hpaid : paid gone goneCtx i = gonePaid := by rw [paid, hprice, gonePaid]
  have hcls : goneCtx.cls = .lane := by decide +kernel
  obtain ⟨w, hw, hgone⟩ := gonePaid_gone
  rw [sfu_gone h hexec (hcls ▸ huse) (hpaid ▸ hw) hgone hv ht (by decide), hpaid]

/-- Refutes O27: where the executing lanes are marked as exited, the destination takes an entry of the operand cache unfilled and what they
hold of it is free (03 R45). From one state FRCP and FSIN of x0 then leave the same value, and the unit's results are infinity and zero. -/
theorem not_specialFunctions : ¬ Obligations.SpecialFunctions := by
  unfold Obligations.SpecialFunctions
  rintro ⟨hrcp, -, -, -, hsin, -⟩
  have hrcpIssues : Issues gone (.frcp false ofZero) 0x40 ofZero.g goneCtx := gone_issues rfl rfl (by decide +kernel)
  have hsinIssues : Issues gone (.fsin false ofZero) 0x45 ofZero.g goneCtx := gone_issues rfl rfl (by decide +kernel)
  obtain ⟨t, ht⟩ := hrcp false ofZero gone _ hrcpIssues gonePaid_noStat trivial
  obtain ⟨u, hu⟩ := hsin false ofZero gone _ hsinIssues gonePaid_noStat trivial
  have hlane : goneCtx.exec.getLsbD 0 = true := by decide +kernel
  have hwarp : IsWarp goneCtx.who := Frames.isWarp_of_lane (by decide +kernel)
  have hcls : goneCtx.cls = .lane := by decide +kernel
  have hrcpValue := ht.value _ (List.mem_singleton.mpr rfl) 0 hlane
  have hsinValue := hu.value _ (List.mem_singleton.mpr rfl) 0 hlane
  have htFree := sfu_of_gone (f := .rcp) (v := 0x7F800000) hrcpIssues rfl rfl rfl (by decide +kernel) ht.runs
  have huFree := sfu_of_gone (f := .sin) (v := 0) hsinIssues rfl rfl rfl (by decide +kernel) hu.runs
  have hsame := hrcpValue.symm.trans (htFree.trans (huFree.symm.trans hsinValue))
  simp only [show ofZero.a.toNat = 0 from rfl, Frames.get_zero hwarp, hcls] at hsame
  exact absurd hsame (by decide +kernel)

end Sys2Proof.Exited
end

section
/-! SUPPORT. The accumulator memory of the matrix engine under a row pass (07 R122, R128, R129): what one write puts where, what one column
writes, and the columns one after another. -/

namespace Sys2Proof.Accumulators

open Sys2Proof Sys2Proof.Machine Sys2Proof.Safety Sys2Proof.Laws

/-! One element -/

section
variable (m : Matrix) (acc : AccFmt) (a : Nat) (v : AccVal)

theorem accWord_accPut (k : Nat) :
    (m.accPut acc a v).accWord k = if a ≤ k ∧ k < a + acc.words then v.bits / 2 ^ (32 * (k - a)) % 2 ^ 32 else m.accWord k := by
  have hnarrow : (Tbl.get 0 (Tbl.setList 0 m.acc a [BitVec.ofNat 32 v.bits]) k).toNat =
      if a ≤ k ∧ k < a + 1 then v.bits / 2 ^ (32 * (k - a)) % 2 ^ 32 else m.accWord k := by
    rw [Tbl_get_setList, List.length_singleton]
    split
    · obtain rfl : k = a := by omega
      simp
    · rfl
  cases acc with
  | f32 => exact hnarrow
  | i32 => exact hnarrow
  | f64 =>
    have hwide : (Tbl.get 0 (Tbl.setList 0 m.acc a [BitVec.ofNat 32 v.bits, BitVec.ofNat 32 (v.bits / 2 ^ 32)]) k).toNat =
        if a ≤ k ∧ k < a + 2 then v.bits / 2 ^ (32 * (k - a)) % 2 ^ 32 else m.accWord k := by
      rw [Tbl_get_setList, List.length_cons, List.length_singleton]
      split
      · obtain rfl | rfl : k = a ∨ k = a + 1 := by omega
        · simp
        · simp
      · rfl
    exact hwide

/-- An element is read as it was written, cut to its words. -/
theorem accGet_accPut : ((m.accPut acc a v).accGet acc a).bits = v.bits % 2 ^ (32 * acc.words) := by
  have hlow : (m.accPut acc a v).accWord a = v.bits % 2 ^ 32 := by
    rw [accWord_accPut, if_pos (by cases acc <;> simp [AccFmt.words])]
    simp
  cases acc with
  | f32 => simpa [Matrix.accGet, AccFmt.words] using hlow
  | i32 => simpa [Matrix.accGet, AccFmt.words] using hlow
  | f64 =>
    have hhigh : (m.accPut .f64 a v).accWord (a + 1) = v.bits / 2 ^ 32 % 2 ^ 32 := by
      rw [accWord_accPut, if_pos (by simp [AccFmt.words])]
      simp
    simp only [Matrix.accGet, if_true, hlow, hhigh, AccFmt.words]
    omega

/-- An element is read from its own words alone. -/
theorem accGet_congr {m n : Matrix} {acc : AccFmt} {a : Nat} (h : ∀ k, a ≤ k → k < a + acc.words → n.accWord k = m.accWord k) :
    (n.accGet acc a).bits = (m.accGet acc a).bits := by
  cases acc with
  | f64 => simp only [Matrix.accGet, h a le_rfl (by simp [AccFmt.words]), h (a + 1) (by omega) (by simp [AccFmt.words])]
  | _ => simp only [Matrix.accGet, h a le_rfl (by simp [AccFmt.words]), reduceCtorEq, if_false]

/-- The matrix stream without the accumulator memory. -/
def offAcc (m : Matrix) : Matrix := { m with acc := [], accBad := [] }

end

/-- A sum of two elements is of their bits. -/
theorem accAdd_bits_congr {acc : AccFmt} {x x' y : AccVal} (h : x'.bits = x.bits) : (accAdd acc x' y).bits = (accAdd acc x y).bits := by
  simp only [accAdd, h]

/-- An I32 addition saturates (07 R129). -/
theorem accAdd_i32_bits (x y : AccVal) : (accAdd .i32 x y).bits = (let v := (BitVec.ofNat 32 x.bits).toInt + (BitVec.ofNat 32 y.bits).toInt
    (BitVec.ofInt 32 (max (-(2 ^ 31)) (min v (2 ^ 31 - 1)))).toNat) := by
  unfold accAdd i32Bits
  dsimp only
  generalize (BitVec.ofNat 32 x.bits).toInt + (BitVec.ofNat 32 y.bits).toInt = v
  split
  · rw [show max (-2 ^ 31) (min v (2 ^ 31 - 1)) = -2 ^ 31 by omega]
  · split
    · rw [show max (-2 ^ 31) (min v (2 ^ 31 - 1)) = 2 ^ 31 - 1 by omega]
    · rw [show max (-2 ^ 31) (min v (2 ^ 31 - 1)) = v by omega]

/-! Writes one after another, each to a window of its own -/

section
variable {step : Matrix → Nat → Matrix} {base w : Nat}

/-- Step k of a sequence writes nothing outside its own w words. -/
def Windowed (step : Matrix → Nat → Matrix) (base w : Nat) : Prop :=
  ∀ m k a, a < base + k * w ∨ base + (k + 1) * w ≤ a → (step m k).accWord a = m.accWord a

theorem Windowed.outside (h : Windowed step base w) (m : Matrix) {n a : Nat} (ha : a < base ∨ base + n * w ≤ a) :
    ((List.range n).foldl step m).accWord a = m.accWord a := by
  induction n with
  | zero => rfl
  | succ n ih =>
    have hmono : (n + 1) * w = n * w + w := Nat.succ_mul n w
    rw [List.range_succ, List.foldl_append, List.foldl_cons, List.foldl_nil, h _ n a (by omega), ih (by omega)]

/-- What window k holds at the end is what step k wrote, on a memory whose words from window k on stood as at the start. -/
theorem Windowed.inside (h : Windowed step base w) (m : Matrix) {n k : Nat} (hk : k < n) :
    ∃ m', (∀ a, base + k * w ≤ a → m'.accWord a = m.accWord a) ∧
      ∀ a, base + k * w ≤ a → a < base + (k + 1) * w → ((List.range n).foldl step m).accWord a = (step m' k).accWord a := by
  refine ⟨(List.range k).foldl step m, fun a ha => h.outside m (.inr ha), fun a _ ha => ?_⟩
  induction n with
  | zero => exact absurd hk (Nat.not_lt_zero k)
  | succ n ih =>
    rw [List.range_succ, List.foldl_append, List.foldl_cons, List.foldl_nil]
    obtain rfl | hlt : k = n ∨ k < n := by omega
    · rfl
    · have hmono : (k + 1) * w ≤ n * w := Nat.mul_le_mul_right w hlt
      rw [h _ n a (by omega), ih hlt]

end

/-! One column -/

theorem offAcc_mulElem (m : Matrix) (p : PairInfo) (a : Nat) (ps : List AccVal) : offAcc (m.mulElem p a ps).1 = offAcc m := rfl

theorem offAcc_storeParts (m : Matrix) (a : Nat) (ps : List AccVal) : offAcc (m.storeParts a ps).1 = offAcc m :=
  foldl_keeps offAcc (f := fun m (q : Nat × AccVal) => m.accPut .f32 (a + q.1) q.2) (fun _ _ => rfl) _ m

/-- One partial stored beside the others of its column. -/
def storePart (a : Nat) (ps : List AccVal) (m : Matrix) (q : Nat) : Matrix :=
  match ps[q]? with
  | some e => m.accPut .f32 (a + q) e
  | none => m

theorem storeParts_eq (m : Matrix) (a : Nat) {ps : List AccVal} (h : ps.length = 16) :
    (m.storeParts a ps).1 = (List.range 16).foldl (storePart a ps) m := by
  have hzip : List.zip (List.range 16) ps = (List.range 16).map fun q => (q, (ps[q]?).getD ⟨0, [], false⟩) := by
    refine List.ext_getElem (by simp [h]) fun q h1 h2 => ?_
    have hq : q < ps.length := by simpa using (List.length_zip ▸ h1 : q < min _ _) |>.trans_le (min_le_right _ _)
    simp [hq]
  rw [Matrix.storeParts, hzip, List.foldl_map]
  refine List.foldl_ext _ _ _ fun m q hq => ?_
  have hq' : q < ps.length := by
    rw [h]
    exact List.mem_range.mp hq
  simp [storePart, hq']

theorem storePart_windowed (a : Nat) (ps : List AccVal) : Windowed (storePart a ps) a 1 := by
  intro m q k hk
  unfold storePart
  split
  · rw [accWord_accPut, if_neg]
    simp only [AccFmt.words]
    omega
  · rfl

/-- MMULB of a column leaves every word but its 16. -/
theorem storeParts_outside (m : Matrix) {a k : Nat} {ps : List AccVal} (h : ps.length = 16) (hk : k < a ∨ a + 16 ≤ k) :
    (m.storeParts a ps).1.accWord k = m.accWord k := by
  rw [storeParts_eq m a h]
  exact (storePart_windowed a ps).outside m (by omega)

/-- MMULB of a column stores each partial as it is. -/
theorem storeParts_inside (m : Matrix) {a q : Nat} {ps : List AccVal} {e : AccVal} (h : ps.length = 16) (hq : q < 16) (he : ps[q]? = some e) :
    (m.storeParts a ps).1.accWord (a + q) = e.bits % 2 ^ 32 := by
  obtain ⟨m', -, hwrote⟩ := (storePart_windowed a ps).inside m hq
  rw [storeParts_eq m a h, hwrote (a + q) (by omega) (by omega), storePart, he]
  dsimp only
  rw [accWord_accPut, if_pos (by simp [AccFmt.words])]
  simp

/-! The columns of a row pass -/

theorem partials_length (t : Tile) (p : PairInfo) (fa : Fmt) (row : List Nat) (c : Nat) : (t.partials p fa row c).length = 16 := by
  rw [Tile.partials, List.length_map, List.length_range]

/-- A row pass on column k. -/
def column (t : Tile) (p : PairInfo) (fa : Fmt) (parts : Bool) (base : Nat) (row : List Nat) (m : Matrix) (k : Nat) : Matrix :=
  if parts then (m.storeParts (base + 16 * k) (t.partials p fa row k)).1 else (m.mulElem p (base + k * p.acc.words) (t.partials p fa row k)).1

section
variable (t : Tile) (p : PairInfo) (fa : Fmt) (parts : Bool) (base : Nat) (row : List Nat) (m : Matrix)

theorem pass_eq : (m.pass t p fa parts base row).1 = (List.range p.cols).foldl (column t p fa parts base row) m := by
  unfold Matrix.pass
  refine (List.foldl_hom Prod.fst fun st k => ?_).symm
  unfold column
  cases parts <;> rfl

theorem offAcc_column (k : Nat) : offAcc (column t p fa parts base row m k) = offAcc m := by
  unfold column
  split
  · exact offAcc_storeParts ..
  · exact offAcc_mulElem ..

/-- A row pass changes nothing of the stream but its accumulator memory. -/
theorem pass_rest : { (m.pass t p fa parts base row).1 with acc := m.acc, accBad := m.accBad } = m := by
  have hoff : offAcc (m.pass t p fa parts base row).1 = offAcc m := by
    rw [pass_eq]
    exact foldl_keeps offAcc (offAcc_column t p fa parts base row) _ m
  exact congrArg (fun x : Matrix => { x with acc := m.acc, accBad := m.accBad }) hoff

theorem column_mul_windowed : Windowed (column t p fa false base row) base p.acc.words := by
  intro m k a ha
  have hnext : (k + 1) * p.acc.words = k * p.acc.words + p.acc.words := Nat.succ_mul ..
  show (m.accPut p.acc (base + k * p.acc.words) _).accWord a = _
  rw [accWord_accPut, if_neg (by omega)]

theorem column_parts_windowed : Windowed (column t p fa true base row) base 16 := by
  intro m k a ha
  exact storeParts_outside m (partials_length ..) (by omega)

/-- MMUL: the element of column k becomes its sum with the tree of the column's partials (07 R129). -/
theorem pass_mul_element {k : Nat} (hk : k < p.cols) :
    ((m.pass t p fa false base row).1.accGet p.acc (base + k * p.acc.words)).bits =
      (accAdd p.acc (m.accGet p.acc (base + k * p.acc.words)) (accTree p.acc (t.partials p fa row k))).bits % 2 ^ (32 * p.acc.words) := by
  obtain ⟨m', hbefore, hwrote⟩ := (column_mul_windowed t p fa base row).inside m hk
  have hnext : (k + 1) * p.acc.words = k * p.acc.words + p.acc.words := Nat.succ_mul ..
  calc ((m.pass t p fa false base row).1.accGet p.acc (base + k * p.acc.words)).bits
      = ((column t p fa false base row m' k).accGet p.acc (base + k * p.acc.words)).bits := by
        rw [pass_eq]
        exact accGet_congr fun a hlo hhi => hwrote a hlo (by omega)
    _ = (accAdd p.acc (m'.accGet p.acc (base + k * p.acc.words)) (accTree p.acc (t.partials p fa row k))).bits % 2 ^ (32 * p.acc.words) :=
        accGet_accPut ..
    _ = _ := by rw [accAdd_bits_congr (accGet_congr fun a hlo _ => hbefore a hlo)]

theorem pass_mul_outside {a : Nat} (ha : a < base ∨ base + p.cols * p.acc.words ≤ a) :
    (m.pass t p fa false base row).1.accWord a = m.accWord a := by
  rw [pass_eq]
  exact (column_mul_windowed t p fa base row).outside m ha

/-- MMULB: the partials of column k stand as they are (07 R129). -/
theorem pass_parts_word {k q : Nat} {e : AccVal} (hk : k < p.cols) (hq : q < 16) (he : (t.partials p fa row k)[q]? = some e) :
    (m.pass t p fa true base row).1.accWord (base + 16 * k + q) = e.bits % 2 ^ 32 := by
  obtain ⟨m', -, hwrote⟩ := (column_parts_windowed t p fa base row).inside m hk
  rw [pass_eq, hwrote _ (by omega) (by omega)]
  exact storeParts_inside m' (partials_length ..) hq he

theorem pass_parts_outside {a : Nat} (ha : a < base ∨ base + 16 * p.cols ≤ a) :
    (m.pass t p fa true base row).1.accWord a = m.accWord a := by
  rw [pass_eq]
  exact (column_parts_windowed t p fa base row).outside m (by omega)

end

/-- Settles O52: the columns write windows of their own, one after another, and each element is summed with what stood there. -/
theorem rowPassAccumulates : Obligations.RowPassAccumulates := by
  unfold Obligations.RowPassAccumulates
  refine ⟨fun m t p fa base row => ⟨?_, ?_, ?_⟩, fun m t p fa base row => ⟨?_, ?_, ?_⟩, fun x y => ⟨accAdd_i32_bits x y, rfl⟩⟩
  · exact fun k hk => pass_mul_element t p fa base row m hk
  · exact fun a ha => pass_mul_outside t p fa base row m ha
  · exact pass_rest t p fa false base row m
  · exact fun k q e hk hq he => pass_parts_word t p fa base row m hk hq he
  · exact fun a ha => pass_parts_outside t p fa base row m ha
  · exact pass_rest t p fa true base row m

end Sys2Proof.Accumulators
end

section
/-! SUPPORT. The stream's party: its block, its state after an update, where it goes on, and how a word of the stream ends (07 R121). -/

namespace Sys2Proof.Stream

open Sys2Proof Sys2Proof.Machine Sys2Proof.Safety Sys2Proof.Laws

/-! The party -/

section
variable {c : Ctx} {b : Nat} (hc : c.who.party = .matrix b) (s : State)
include hc

theorem bcore_eq : s.bcore c = c.who.core := by simp only [State.bcore, State.home, hc]
theorem bslot_eq : s.bslot c = b := by simp only [State.bslot, State.home, hc]
theorem blockOf_eq : s.blockOf c.who = s.block c.who.core b := by simp only [State.blockOf, State.home, hc]
theorem warp_eq_none : s.warp c.who = none := by simp only [State.warp, hc]
theorem mat_eq : s.mat c = (s.block c.who.core b).bind (·.matrix) := by simp only [State.mat, State.matrixOf, bcore_eq hc, bslot_eq hc]
theorem updMat_eq (f : Matrix → Matrix) : s.updMat c f = s.updMatrix c.who.core b f := by
  simp only [State.updMat, bcore_eq hc, bslot_eq hc]

theorem mat_updMat (f : Matrix → Matrix) : (s.updMat c f).mat c = (s.mat c).map f := by
  rw [updMat_eq hc, mat_eq hc, mat_eq hc, matrix_updMatrix]

theorem mat_updMat_some {m : Matrix} (h : s.mat c = some m) (f : Matrix → Matrix) : (s.updMat c f).mat c = some (f m) := by
  rw [mat_updMat hc, h, Option.map_some]

/-- A change of the stream is what it makes of the stream's state. -/
theorem updMat_congr {m : Matrix} (h : s.mat c = some m) {f g : Matrix → Matrix} (hfg : f m = g m) : s.updMat c f = s.updMat c g := by
  rw [mat_eq hc] at h
  obtain ⟨x, hx, hxm⟩ := Option.bind_eq_some_iff.mp h
  rw [updMat_eq hc, updMat_eq hc, State.updMatrix, State.updMatrix, updBlock_eq hx, updBlock_eq hx, hxm, Option.map_some, Option.map_some, hfg]

/-- The stream's state is read from its block. -/
theorem mat_congr {s t : State} (h : (t.block c.who.core b).map (·.matrix) = (s.block c.who.core b).map (·.matrix)) : t.mat c = s.mat c := by
  rw [mat_eq hc, mat_eq hc]
  simpa only [Option.bind_map, Function.id_comp] using congrArg (·.bind id) h

theorem beside_updMat (f : Matrix → Matrix) : beside c.who (s.updMat c f) = beside c.who s := by
  simp only [beside, hc, updMat_eq hc, updMatrix_updMatrix]
  rfl

end

/-! What updates around a word keep of a block -/

section
variable {γ : Type} (g : Block → γ) (s : State) (w : Who) (a : Place) (d e : Nat)

theorem block_part_updMat (hg : ∀ x y, g { x with matrix := y } = g x) (c : Ctx) (f : Matrix → Matrix) :
    ((s.updMat c f).block d e).map g = (s.block d e).map g :=
  block_part_updBlock g (fun x => hg x _) s _ _ d e

theorem block_part_release (hg : ∀ x y, g { x with scratch := { x.scratch with path := y } } = g x) (sc : Scope) :
    ((s.release w sc a).block d e).map g = (s.block d e).map g := by
  rw [State.release, block_part_updBlock]
  · rfl
  · exact fun x => hg x _

theorem block_part_acquire (hg : ∀ x y, g { x with scratch := { x.scratch with path := y } } = g x) :
    ((s.acquire w .blk a).block d e).map g = (s.block d e).map g := by
  rw [State.acquire, block_part_updBlock]
  · rfl
  · exact fun x => hg x _

theorem block_part_setRing (hg : ∀ x y z, g { x with rings := y, roles := z } = g x) (i j id : Nat) (r : Ring) :
    ((s.setRing i j id r).block d e).map g = (s.block d e).map g :=
  block_part_updBlock g (fun x => hg x _ _) s i j d e

end

theorem updMat_updMat (s : State) {c : Ctx} {b : Nat} (hc : c.who.party = .matrix b) (f g : Matrix → Matrix) :
    (s.updMat c f).updMat c g = s.updMat c (g ∘ f) := by
  rw [updMat_eq hc, updMat_eq hc, updMat_eq hc, updMatrix_updMatrix]

/-! A change of the cores alone -/

/-- The state without its cores. -/
def offCores (s : State) : State := { s with cores := [] }

@[simp] theorem offCores_updBlock (s : State) (d e : Nat) (f : Block → Block) : offCores (s.updBlock d e f) = offCores s := by
  unfold State.updBlock
  split <;> rfl
@[simp] theorem offCores_updMat (s : State) (c : Ctx) (f : Matrix → Matrix) : offCores (s.updMat c f) = offCores s := offCores_updBlock ..

theorem mem_of_offCores {s t : State} (h : offCores t = offCores s) : t.mem = s.mem := part_of_off offCores State.mem (fun _ => rfl) h

/-- Thresholds are read from the regions, from memory and from the package's registers (06 R117). -/
theorem noStat_of_offCores {s t : State} (h : offCores t = offCores s) (hs : NoStat s) : NoStat t := by
  intro r e
  have hregions : t.regions = s.regions := part_of_off offCores State.regions (fun _ => rfl) h
  have hregs : t.regs = s.regs := part_of_off offCores State.regs (fun _ => rfl) h
  have heff : t.effStattab r = s.effStattab r := eff_congr hregions (congrArg MemState.mem (mem_of_offCores h)) hregs ..
  have hsame : t.threshOf r e = s.threshOf r e := by
    simp only [State.threshOf, State.thresh, heff, State.region, hregions, State.readThresh, State.homeBytes, mem_of_offCores h]
  rw [hsame, hs]

theorem block_of_cores {s t : State} (h : t.cores = s.cores) (d e : Nat) : t.block d e = s.block d e := by
  simp only [State.block, State.core, h]

/-! A word of the stream -/

/-- What a word of the stream does once it is issued (07 R136). -/
def effect (k : Ctx → State → Matrix → Res) (c : Ctx) (s : State) : Res :=
  match s.mat c with
  | some m =>
    if m.stop && m.steps == 0 && (s.matrixLocks (s.bcore c) (s.bslot c)).isEmpty then .left (s.stopMatrix (s.bcore c) (s.bslot c))
    else k c s m
  | none => .left s

theorem matWord_eq (s : State) (i : Instr) (op : Nat) (k : Ctx → State → Matrix → Res) :
    s.matWord i op k = s.issue i op noGuard (effect k) := rfl

theorem effect_running {k : Ctx → State → Matrix → Res} {c : Ctx} {s : State} {m : Matrix} (hm : s.mat c = some m) (hstop : m.stop = false) :
    effect k c s = k c s m := by
  simp only [effect, hm, hstop, Bool.false_and, Bool.false_eq_true, if_false]

/-- The stream of block slot b, which no MSTOP has stopped, stands at its word i in state m. -/
structure AtWord (s : State) (i : Instr) (op : Nat) (c : Ctx) (b : Nat) (m : Matrix) : Prop where
  issues : Issues s i op noGuard c
  cls : c.cls = .matrix
  party : c.who.party = .matrix b
  stream : (paid s c i).mat c = some m
  free : m.stop = false

/-- The opcodes of the stream are accepted in a MATRIX clause alone (05 R91). -/
theorem atWord_of_issues {s : State} {i : Instr} {op : Nat} {c : Ctx} {m : Matrix} (h : Issues s i op noGuard c)
    (hlo : 0xA0 ≤ op) (hhi : op ≤ 0xAA)
    (hm : (paid s c i).mat c = some m) (hstop : m.stop = false) : ∃ b, AtWord s i op c b m := by
  have haccepts : acceptsOp c.cls op = true := by
    by_contra hno
    have hchecks := h.ready.checks
    rw [State.issueTrap, if_pos (by simpa using hno)] at hchecks
    cases hchecks
  have hcls : c.cls = .matrix := by
    cases hk : c.cls with
    | matrix => rfl
    | lane | front =>
      simp [acceptsOp, hk] at haccepts
      omega
  have hparty : partyCls c.who.party = .matrix := by
    rw [← hcls, ctx_cls h.ready.sees, ctx_who h.ready.sees]
  cases hp : c.who.party with
  | matrix b => exact ⟨b, h, hcls, hp, hm, hstop⟩
  | _ =>
    rw [hp] at hparty
    cases hparty

/-- The stream after a word: at the next one, its clause left where it ends (04 R66). -/
def moved (c : Ctx) (f : Fin) (x : Matrix) : Matrix :=
  { x with pc := c.next, arr := none, clause := if c.last || f == .close || f == .yield then none else x.clause }

theorem goOn_eq {c : Ctx} {b : Nat} (hc : c.who.party = .matrix b) (s : State) (f : Fin) : s.goOn c f = s.updMat c (moved c f) := by
  rw [updMat_eq hc]
  simp only [State.goOn, hc]
  rfl

theorem landNow_eq {c : Ctx} {b : Nat} (hc : c.who.party = .matrix b) (s0 s : State) : s0.landNow s c.who = s := by
  simp [State.landNow, State.flight, hc, Flight.init]

theorem cacheWord_eq {c : Ctx} {b : Nat} (hc : c.who.party = .matrix b) (s0 s : State) (u : Use) : s0.cacheWord s c u = s := by
  simp only [State.cacheWord, warp_eq_none hc]

theorem goesOn_eq {c : Ctx} {b : Nat} (hc : c.who.party = .matrix b) (s E : State) (i : Instr) (f : Fin) :
    goesOn s c i E f = E.updMat c (moved c f) := by
  rw [goesOn, cacheWord_eq hc, landNow_eq hc, goOn_eq hc]

section
variable {s E : State} {i : Instr} {op b : Nat} {c : Ctx} {m : Matrix} {k : Ctx → State → Matrix → Res} {f : Fin} (h : AtWord s i op c b m)
  (hexec : exec i s = s.matWord i op k)
include h

/-- Words of the stream cost nothing at issue (07 R135). -/
theorem AtWord.paid_eq : paid s c i = s.tick := by
  simp [paid, State.pay, h.cls]

include hexec

theorem AtWord.gives (hk : k c (paid s c i) m = .done E f) : Gives s c i E f := by
  refine gives_of_done h.issues hexec ((effect_running h.stream h.free).trans hk) ?_
  rw [warp_eq_none h.party, warp_eq_none h.party]

theorem AtWord.runs (hk : k c (paid s c i) m = .done E f) : Runs i s (E.updMat c (moved c f)) := by
  rw [← goesOn_eq h.party (paid s c i) E i f]
  exact h.gives hexec hk

theorem AtWord.runs_of_wait (hk : k c (paid s c i) m = .wait E false) : Runs i s E := by
  unfold Runs
  rw [hexec, matWord_eq, issue_ready h.issues.ready, effect_running h.stream h.free, hk]
  simp [State.keepPaid, State.hold, h.cls]

theorem AtWord.runs_of_left (hk : k c (paid s c i) m = .left E) : Runs i s E := by
  unfold Runs
  rw [hexec, matWord_eq, issue_ready h.issues.ready, effect_running h.stream h.free, hk]
  rfl

/-- A word that transfers control goes where its one lane goes (04 R67). -/
theorem AtWord.runs_of_jump {t : Nat → Option (DWord × Nat)} {sw : Bool} (hk : k c (paid s c i) m = .jump E t sw) :
    Runs i s (E.transfer c t sw) := by
  unfold Runs
  rw [hexec, matWord_eq, issue_ready h.issues.ready, effect_running h.stream h.free, hk]
  simp [State.settleRes, warp_eq_none h.party, cacheWord_eq h.party]

end

/-! The events of a word -/

theorem matEvents_quiet {s : State} (hs : NoStat s) (c : Ctx) (evs : List Ev) :
    ∃ t, s.matEvents c evs = (t, none) ∧ Statistics.Recounted s t := by
  obtain ⟨t, ht, hrec⟩ := Statistics.countEvents_quiet hs c.who c.blk c.pc (evs.map fun e => (0, e))
  refine ⟨t, ?_, hrec⟩
  simp [State.matEvents, ht]

theorem mat_of_recounted {s t : State} (h : Statistics.Recounted s t) {c : Ctx} {b : Nat} (hc : c.who.party = .matrix b) : t.mat c = s.mat c := by
  rw [mat_eq hc, mat_eq hc, block_of_cores h.cores]

end Sys2Proof.Stream
end

section
/-! SUPPORT. The words of the stream that move no tile and no row: its registers, its accumulator memory, its signals and its waits
(07 R131, R134). -/

namespace Sys2Proof.Stream

open Sys2Proof Sys2Proof.Machine Sys2Proof.Safety Sys2Proof.Laws

section
variable {s : State} {c : Ctx} {b : Nat} {m : Matrix}

/-! Registers and accumulator memory -/

theorem mset_gives {ma : BitVec 4} {imm : BitVec 32} (h : AtWord s (.mset ma imm) 0xA9 c b m) :
    Gives s c (.mset ma imm) ((paid s c (.mset ma imm)).updMat c fun m => { m with m := Tbl.set 0 m.m ma.toNat imm }) :=
  h.gives (show _ = execMset ma imm s from rfl) rfl

theorem wordOff_eq (off : BitVec 32) : wordOff off = off.signExtend 64 * 8 := by
  rw [wordOff, BitVec.shiftLeft_eq_mul_twoPow]
  rfl

theorem transfer_eq (hc : c.who.party = .matrix b) (s : State) (t : Nat → Option (DWord × Nat)) (sw : Bool) :
    ∃ q : Bool, s.transfer c t sw =
      s.updMat c fun x => { x with pc := ((t 0).map (·.1)).getD c.next, clause := if q then none else x.clause } := by
  refine ⟨c.last || (onesOf c.active).any fun l => (t l).isSome, ?_⟩
  rw [updMat_eq hc]
  simp only [State.transfer, hc]

/-- MLOOP counts its register down and branches while it is not zero (22 R350). -/
theorem mloop_runs {ma : BitVec 4} {off : BitVec 32} (h : AtWord s (.mloop ma off) 0xA8 c b m) {v : Word} (hv : v = Tbl.get 0 m.m ma.toNat - 1) :
    ∃ t y, Runs (.mloop ma off) s t ∧ t.mat c = some y ∧ y.m = Tbl.set 0 m.m ma.toNat v ∧
      y.pc = (if v = 0 then c.next else c.pc + off.signExtend 64 * 8) ∧ { y with m := m.m, pc := m.pc, clause := m.clause } = m ∧
      beside c.who t = beside c.who (paid s c (.mloop ma off)) := by
  subst hv
  have hruns := h.runs_of_jump (show _ = execMloop ma off s from rfl) rfl
  obtain ⟨q, hq⟩ := transfer_eq h.party
    ((paid s c (.mloop ma off)).updMat c fun x => { x with m := Tbl.set 0 x.m ma.toNat (Tbl.get 0 m.m ma.toNat - 1) })
    (fun _ => if Tbl.get 0 m.m ma.toNat - 1 = 0 then none else some (c.pc + wordOff off, 0)) false
  rw [hq] at hruns
  refine ⟨_, _, hruns, mat_updMat_some h.party _ (mat_updMat_some h.party _ h.stream _) _, rfl, ?_, rfl, ?_⟩
  · rw [wordOff_eq]
    dsimp only
    split <;> rfl
  · rw [beside_updMat h.party, beside_updMat h.party]

theorem mzero_gives {ma mb : BitVec 4} (h : AtWord s (.mzero ma mb) 0xA4 c b m) (hn : m.reg mb.toNat = 0) :
    Gives s c (.mzero ma mb) (paid s c (.mzero ma mb)) :=
  h.gives (show _ = execMzero ma mb s from rfl) (by dsimp only; rw [if_pos hn])

/-- MZERO clears its words and their poison. -/
theorem mzero_runs {ma mb : BitVec 4} (h : AtWord s (.mzero ma mb) 0xA4 c b m) {a n : Nat} (ha : a = m.reg ma.toNat) (hn : n = m.reg mb.toNat)
    (hpos : n ≠ 0) (hfits : a + n ≤ 0x20000) :
    ∃ t y, Runs (.mzero ma mb) s t ∧ t.mat c = some y ∧ (∀ k, y.accWord k = if a ≤ k ∧ k < a + n then 0 else m.accWord k) ∧
      (∀ k, Tbl.get false y.accBad k = (Tbl.get false m.accBad k && !decide (a ≤ k ∧ k < a + n))) ∧
      beside c.who t = beside c.who (paid s c (.mzero ma mb)) := by
  subst ha hn
  have hruns := h.runs (show _ = execMzero ma mb s from rfl) (by dsimp only; rw [if_neg hpos, if_neg (Nat.not_lt.mpr hfits)])
  refine ⟨_, _, hruns, mat_updMat_some h.party _ (mat_updMat_some h.party _ h.stream _) _, fun k => ?_, fun k => ?_, ?_⟩
  · simp only [moved, Matrix.accWord, Tbl_get_drop, Bool.and_eq_true, decide_eq_true_eq]
    split <;> rfl
  · simp only [moved, Tbl_get_drop, Bool.and_eq_true, decide_eq_true_eq]
    split <;> simp [*]
  · rw [beside_updMat h.party, beside_updMat h.party]

theorem mend_runs (h : AtWord s .mend 0xAA c b m) : Runs .mend s ((paid s c .mend).endMatrix (s.bcore c) (s.bslot c)) := by
  have hruns := h.runs_of_left (show _ = execMend s from rfl) rfl
  rwa [bcore_eq h.party, bslot_eq h.party] at hruns ⊢

/-! Byte-counting barriers -/

theorem released_at {p : State} (h : Settled p c.who .blk) (k : State → Res) (a : Place) : p.released c .blk k a = k (p.release c.who .blk a) := by
  have hents : (p.flight c.who).sq.ents = [] := by rw [h.stored]
  have hlost : p.takeLost c.who queuedLost = none := by simp [State.takeLost, h.stored]
  simp [State.released, State.fence, h.owes, hents, hlost, scopePkg, isRel, isAcq]

theorem scratch_part_congr {γ : Type} (g : Scratch → γ) {s t : State} {d e : Nat}
    (h : (t.block d e).map (fun x => g x.scratch) = (s.block d e).map fun x => g x.scratch) : g (t.scratch d e) = g (s.scratch d e) := by
  unfold State.scratch
  cases ht : t.block d e <;> cases hs : s.block d e <;> simp_all

theorem bcb_release (s : State) (w : Who) (sc : Scope) (a : Place) (d e off : Nat) : (s.release w sc a).bcb d e off = s.bcb d e off := by
  have hbytes : ((s.release w sc a).scratch d e).bytes = (s.scratch d e).bytes :=
    scratch_part_congr (·.bytes) (block_part_release _ s w a d e (fun _ _ => rfl) sc)
  rw [State.bcb, State.bcb, hbytes]

/-- A BCB in error takes no arrival (09 R179). -/
theorem bcbOp_arrive_err {s : State} {d e off : Nat} (herr : (s.bcb d e off).err = true) : s.bcbOp d e off .arrive = (s, false) := by
  simp [State.bcbOp, Bcb.op, herr]

theorem bcbOp_arrive {s : State} {d e off : Nat} (herr : (s.bcb d e off).err = false) (hremn : (s.bcb d e off).remn ≠ 0) :
    s.bcbOp d e off .arrive = (s.setBcb d e off ((s.bcb d e off).op off .arrive).1, false) := by
  simp [State.bcbOp, Bcb.op, herr, hremn]

section
variable {id : BitVec 8} {ma : BitVec 4} (h : AtWord s (.msig .bcb id ma) 0xA6 c b m) {p : State} (hp : p = paid s c (.msig .bcb id ma))
  (hplace : p.objTrap c (m.reg ma.toNat) 32 32 = none) (hsettled : Settled p c.who .blk)
include h hp hplace hsettled

/-- MSIG.bcb is a release and then an arrival (07 R134). -/
theorem msig_bcb_gives {E : State}
    (harrive : (p.release c.who .blk (.bcb (m.reg ma.toNat))).bcbOp (p.bcore c) (p.bslot c) (m.reg ma.toNat) .arrive = (E, false)) :
    Gives s c (.msig .bcb id ma) E := by
  subst hp
  refine h.gives (show _ = execMsig .bcb id ma s from rfl) ?_
  dsimp only
  rw [State.matBcb, hplace]
  dsimp only
  rw [released_at hsettled]
  rw [bcore_eq h.party, bslot_eq h.party] at harrive ⊢
  rw [harrive]

theorem msig_bcb_gives_of_err (herr : (p.bcb (p.bcore c) (p.bslot c) (m.reg ma.toNat)).err = true) :
    Gives s c (.msig .bcb id ma) (p.release c.who .blk (.bcb (m.reg ma.toNat))) := by
  refine msig_bcb_gives h hp hplace hsettled (bcbOp_arrive_err ?_)
  rwa [bcb_release]

theorem msig_bcb_gives_arrival {x : Bcb} (hx : p.bcb (p.bcore c) (p.bslot c) (m.reg ma.toNat) = x) (herr : x.err = false) (hremn : x.remn ≠ 0) :
    Gives s c (.msig .bcb id ma) ((p.release c.who .blk (.bcb (m.reg ma.toNat))).setBcb (p.bcore c) (p.bslot c) (m.reg ma.toNat)
      (x.op (m.reg ma.toNat) .arrive).1) := by
  subst hx
  refine msig_bcb_gives h hp hplace hsettled ?_
  rw [bcbOp_arrive, bcb_release]
  · rwa [bcb_release]
  · rwa [bcb_release]

end

theorem mwait_bcb_gives {id : BitVec 8} {ma : BitVec 4} (h : AtWord s (.mwait .bcb id ma) 0xA7 c b m) {p : State}
    (hp : p = paid s c (.mwait .bcb id ma)) (heven : ma.toNat % 2 = 0) (hplace : p.objTrap c (m.reg ma.toNat) 32 32 = none)
    (herr : (p.bcb (p.bcore c) (p.bslot c) (m.reg ma.toNat)).err = false)
    (hphase : (p.bcb (p.bcore c) (p.bslot c) (m.reg ma.toNat)).ph.toNat ≠ m.reg (ma.toNat + 1) % 2) :
    Gives s c (.mwait .bcb id ma) (p.acquire c.who .blk (.bcb (m.reg ma.toNat))) := by
  subst hp
  have hover : ∀ (ph : Bool) (n : Nat), ph.toNat ≠ n % 2 → (ph != (n % 2 == 1)) = true := by
    intro ph n hne
    cases ph <;> simp at hne ⊢ <;> omega
  refine h.gives (show _ = execMwait .bcb id ma s from rfl) ?_
  dsimp only
  rw [if_neg (by simp [heven]), State.matBcb, hplace]
  dsimp only
  rw [Bcb.wait, herr, if_neg Bool.false_ne_true, if_pos (hover _ _ hphase)]

/-! Rings -/

theorem msig_ring_gives {id : BitVec 8} {ma : BitVec 4} (h : AtWord s (.msig .ring id ma) 0xA6 c b m) {p : State}
    (hp : p = paid s c (.msig .ring id ma)) {r : Ring} (hpos : m.reg ma.toNat ≠ 0) (hr : p.ring (p.bcore c) (p.bslot c) id.toNat = some r)
    (hheld : m.reg ma.toNat ≤ r.matrixSlots.length) :
    Gives s c (.msig .ring id ma) ((r.matrixSlots.take (m.reg ma.toNat)).foldl (fun q k => q.matGive c id.toNat k) p) := by
  subst hp
  refine h.gives (show _ = execMsig .ring id ma s from rfl) ?_
  dsimp only
  rw [if_neg hpos, hr]
  dsimp only
  rw [if_neg (Nat.not_lt.mpr hheld)]

theorem msig_ring_zero_gives {id : BitVec 8} {ma : BitVec 4} (h : AtWord s (.msig .ring id ma) 0xA6 c b m) (hzero : m.reg ma.toNat = 0) :
    Gives s c (.msig .ring id ma) (paid s c (.msig .ring id ma)) :=
  h.gives (show _ = execMsig .ring id ma s from rfl) (by dsimp only; rw [if_pos hzero])

theorem matWaitRing_holds {p : State} {r : Ring} {id v f : Nat} (hm : p.mat c = some m) (hr : p.ring (p.bcore c) (p.bslot c) id = some r)
    (herr : r.err = none) (hslots : v ≤ r.slots.length) (hahead : v ≤ (r.ahead (m.rowPos id)).length) :
    p.matWaitRing c id v (f + 1) = .done p .go := by
  simp only [State.matWaitRing, State.matRing, hr, herr, hm, Option.map_some, Option.getD_some, if_neg (Nat.not_lt.mpr hslots), ge_iff_le,
    if_pos hahead]

/-- MWAIT.ring goes on where the engine holds the slots it asks for. -/
theorem mwait_ring_gives {id : BitVec 8} {ma : BitVec 4} (h : AtWord s (.mwait .ring id ma) 0xA7 c b m) {p : State}
    (hp : p = paid s c (.mwait .ring id ma)) {r : Ring}
    (hholds : m.reg ma.toNat = 0 ∨ (p.ring (p.bcore c) (p.bslot c) id.toNat = some r ∧ r.err = none ∧
      m.reg ma.toNat ≤ r.slots.length ∧ m.reg ma.toNat ≤ (r.ahead (m.rowPos id.toNat)).length)) :
    Gives s c (.mwait .ring id ma) p := by
  subst hp
  refine h.gives (show _ = execMwait .ring id ma s from rfl) ?_
  dsimp only
  rcases hholds with hzero | ⟨hr, herr, hslots, hahead⟩
  · rw [if_pos hzero]
  · split
    · rfl
    · exact matWaitRing_holds h.stream hr herr hslots hahead

end

end Sys2Proof.Stream
end

section
/-! SUPPORT. The stream's arrivals at named barriers (07 R134; 09 R182). -/

namespace Sys2Proof.Stream

open Sys2Proof Sys2Proof.Machine Sys2Proof.Safety Sys2Proof.Laws

/-! Releases and acquires in a block -/

/-- The state without its cores and the hand-offs of its memory. -/
def offPaths (s : State) : State := { s with cores := [], mem := { s.mem with path := [] } }

@[simp] theorem offPaths_updBlock (s : State) (d e : Nat) (f : Block → Block) : offPaths (s.updBlock d e f) = offPaths s :=
  part_of_off offCores offPaths (fun _ => rfl) (offCores_updBlock s d e f)
@[simp] theorem offPaths_updMat (s : State) (c : Ctx) (f : Matrix → Matrix) : offPaths (s.updMat c f) = offPaths s := offPaths_updBlock ..
@[simp] theorem offPaths_release (s : State) (w : Who) (sc : Scope) (a : Place) : offPaths (s.release w sc a) = offPaths s := by
  rw [State.release, offPaths_updBlock]
  rfl
@[simp] theorem offPaths_acquire (s : State) (w : Who) (a : Place) : offPaths (s.acquire w .blk a) = offPaths s := by
  rw [State.acquire, offPaths_updBlock]
  rfl

theorem warp_acquire (s : State) (w v : Who) (a : Place) : (s.acquire w .blk a).warp v = s.warp v := by
  rw [State.acquire, warp_updBlock]
  rfl

/-- A block without its streams and the hand-offs of its scratch. -/
def restOf (b : Block) : Block := { b with front := none, matrix := none, scratch := { b.scratch with path := [] } }

theorem blockRest_eq (s : State) (d e : Nat) : blockRest s d e = (s.block d e).map restOf := rfl

theorem blockRest_release (s : State) (w : Who) (sc : Scope) (a : Place) (d e : Nat) : blockRest (s.release w sc a) d e = blockRest s d e :=
  block_part_release restOf s w a d e (fun _ _ => rfl) sc
theorem blockRest_acquire (s : State) (w : Who) (a : Place) (d e : Nat) : blockRest (s.acquire w .blk a) d e = blockRest s d e :=
  block_part_acquire restOf s w a d e fun _ _ => rfl
theorem blockRest_updMat (s : State) (c : Ctx) (f : Matrix → Matrix) (d e : Nat) : blockRest (s.updMat c f) d e = blockRest s d e :=
  block_part_updMat restOf s d e (fun _ _ => rfl) c f

/-- What a word of the stream leaves alone where it changes its block, and what paths have handed over, and nothing else. -/
theorem calm_of_offPaths {p t : State} {c : Ctx} {b : Nat} (hc : c.who.party = .matrix b) (hoff : offPaths t = offPaths p)
    (hwarp : ∀ w, t.warp w = p.warp w) : Calm p t c [] := by
  have hval : ∀ (s : State) r l, val s c.who r l = 0 := fun s r l => by simp only [val, hc]
  have hpval : ∀ (s : State) n l, pval s c.who n l = false := fun s n l => by simp only [pval, hc]
  refine ⟨⟨fun n l _ => ?_, ?_, ?_, fun w _ => hwarp w, ?_, ?_, ⟨?_, ?_⟩, ?_⟩, fun r l _ _ => ?_, ?_⟩
  · rw [hpval, hpval]
  · rw [seeds, seeds, hwarp]
  · rw [warpRest, warpRest, hwarp]
  · exact part_of_off offPaths State.regs (fun _ => rfl) hoff
  · exact part_of_off offPaths State.regions (fun _ => rfl) hoff
  · exact part_of_off offPaths State.die0 (fun _ => rfl) hoff
  · exact part_of_off offPaths State.die1 (fun _ => rfl) hoff
  · exact part_of_off offPaths (fun s => s.mem.peer) (fun _ => rfl) hoff
  · rw [hval, hval]
  · exact part_of_off offPaths (fun s => s.mem.mem) (fun _ => rfl) hoff

/-! An arrival -/

/-- A block once k have arrived at its barrier. -/
def arrived (id k x : Nat) (b : Block) : Block := b.setBar id ((b.bar id).arrive k x).1

theorem mat_arrived {c : Ctx} {b : Nat} (hc : c.who.party = .matrix b) (s : State) (d e id k x : Nat) :
    (s.updBlock d e (arrived id k x)).mat c = s.mat c :=
  mat_congr hc (block_part_updBlock (·.matrix) (f := arrived id k x) (fun _ => rfl) ..)

theorem barArrive_joins {u : State} {d e id k x : Nat} {y : Block} (hy : u.block d e = some y) (hok : ((y.bar id).arrive k x).2 = false) :
    u.barArrive d e id k x = (u.updBlock d e (arrived id k x), some (y.bar id).phase) := by
  simp [State.barArrive, hy, hok, updBlock_eq hy, arrived]

/-- A release leaves the barriers of a block. -/
theorem block_released {p : State} {d e : Nat} {x : Block} (hx : p.block d e = some x) (w : Who) (sc : Scope) (a : Place) :
    ∃ y, (p.release w sc a).block d e = some y ∧ y.bars = x.bars := by
  have hbars : ((p.release w sc a).block d e).map (·.bars) = (p.block d e).map (·.bars) :=
    block_part_release _ p w a d e (fun _ _ => rfl) sc
  rw [hx] at hbars
  exact Option.map_eq_some_iff.mp hbars

theorem bar_congr {x y : Block} (h : y.bars = x.bars) (id : Nat) : y.bar id = x.bar id := by
  rw [Block.bar, Block.bar, h]

/-- The state once the stream has arrived at a barrier, which is a release (20 R294). -/
def joined (p : State) (c : Ctx) (id e : Nat) : State := (p.release c.who .blk (.bar id)).updBlock (p.bcore c) (p.bslot c) (arrived id 1 e)

section
variable {p : State} {c : Ctx} {b id e : Nat} {x : Block} (hc : c.who.party = .matrix b)
include hc

/-- An arrival of the stream that its barrier takes joins the barrier's phase. -/
theorem barWord_joins (hsettled : Settled p c.who .blk) (hid : id ≤ 15) (hlo : 1 ≤ e) (hhi : e ≤ 1026)
    (hx : p.block (p.bcore c) (p.bslot c) = some x) (hok : ((x.bar id).arrive 1 e).2 = false) (go : State → Nat → Res) :
    p.barWord c id e 1 go = go (joined p c id e) (x.bar id).phase := by
  obtain ⟨y, hy, hbars⟩ := block_released hx c.who .blk (.bar id)
  have hbar := bar_congr hbars id
  rw [State.barWord, if_neg (by simp; omega), released_at hsettled, joined]
  rw [bcore_eq hc, bslot_eq hc] at hy ⊢
  rw [bcore_eq hc, bslot_eq hc, barArrive_joins hy (hbar ▸ hok), hbar]

theorem mat_joined : (joined p c id e).mat c = p.mat c := by
  rw [joined, mat_arrived hc, mat_congr hc (block_part_release _ _ _ _ _ _ (fun _ _ => rfl) _)]

theorem blockRest_joined : blockRest (joined p c id e) c.who.core b = blockRest (p.updBlock c.who.core b (arrived id 1 e)) c.who.core b := by
  have hrelease : (blockRest (p.release c.who .blk (.bar id)) c.who.core b).map (arrived id 1 e) =
      (blockRest p c.who.core b).map (arrived id 1 e) := congrArg _ (blockRest_release ..)
  rw [blockRest_eq, blockRest_eq, Option.map_map, Option.map_map] at hrelease
  rw [joined, bcore_eq hc, bslot_eq hc, blockRest_eq, blockRest_eq, block_updBlock, block_updBlock, Option.map_map, Option.map_map]
  exact hrelease

omit hc in
theorem offPaths_joined : offPaths (joined p c id e) = offPaths p := by
  rw [joined, offPaths_updBlock, offPaths_release]

omit hc in
theorem warp_joined (w : Who) : (joined p c id e).warp w = p.warp w := by
  rw [joined, warp_updBlock, Frames.warp_release]

omit hc in
theorem msig_bar_gives {s : State} {m : Matrix} {id : BitVec 8} {ma : BitVec 4} (h : AtWord s (.msig .bar id ma) 0xA6 c b m)
    (hp : p = paid s c (.msig .bar id ma)) (hsettled : Settled p c.who .blk) (hid : id.toNat ≤ 15) (hlo : 1 ≤ m.reg ma.toNat)
    (hhi : m.reg ma.toNat ≤ 1026) (hx : p.block (p.bcore c) (p.bslot c) = some x) (hok : ((x.bar id.toNat).arrive 1 (m.reg ma.toNat)).2 = false) :
    Gives s c (.msig .bar id ma) (joined p c id.toNat (m.reg ma.toNat)) := by
  subst hp
  exact h.gives (show _ = execMsig .bar id ma s from rfl) (barWord_joins h.party hsettled hid hlo hhi hx hok _)

end

/-! The arrival that completes a phase -/

theorem arrive_completes {y : Bar} {k x : Nat} (hok : (y.arrive k x).2 = false) (hfull : y.count + k = x) :
    (y.arrive k x).1 = { y with count := 0, expect := 0, phase := y.phase + 1 } := by
  unfold Bar.arrive at hok ⊢
  split
  · rename_i hbad
    rw [if_pos hbad] at hok
    cases hok
  · rfl

theorem bar_setBar (y : Block) (id : Nat) (z : Bar) : (y.setBar id z).bar id = z := by
  simp [Block.bar, Block.setBar]

section
variable {p : State} {c : Ctx} {b : Nat} (hc : c.who.party = .matrix b)
include hc

theorem arrivals_eq : p.arrivals c = [(0, 1, (p.mat c).bind (·.arr))] := by
  simp only [State.arrivals, hc, mat_eq hc]

theorem setArr_eq (f : Option Arrival → Option Arrival) : p.setArr c f = p.updMat c fun x => { x with arr := f x.arr } := by
  rw [updMat_eq hc]
  simp only [State.setArr, hc]

/-- The phase that the stream's arrival completes is complete where it stands. -/
theorem barState_joined {id e : Nat} {x : Block} (hx : p.block (p.bcore c) (p.bslot c) = some x) (hok : ((x.bar id).arrive 1 e).2 = false)
    (hfull : (x.bar id).count + 1 = e) (hsound : (x.bar id).failed.contains (x.bar id).phase = false) :
    (joined p c id e).barState c ⟨false, id, (x.bar id).phase⟩ = .complete := by
  obtain ⟨y, hy, hbars⟩ := block_released hx c.who .blk (.bar id)
  have hblock : (joined p c id e).blockOf c.who = some (arrived id 1 e y) := by
    rw [blockOf_eq hc, joined]
    rw [bcore_eq hc, bslot_eq hc] at hy ⊢
    rw [block_updBlock, hy, Option.map_some]
  rw [State.barState, hblock, arrived]
  dsimp only
  rw [bar_setBar, bar_congr hbars, arrive_completes hok hfull, Bar.state]
  dsimp only
  rw [hsound, if_neg Bool.false_ne_true, if_pos (Nat.lt_succ_self _)]

/-- A wait of the stream for a phase that is complete ends in an acquire. -/
theorem waitAll_complete {a : Arrival} {st : Arrival → WaitState} {aux : Nat} {pl : Place} (ha : (p.mat c).bind (·.arr) = some a)
    (hst : st a = .complete) : p.waitAll c st .blk aux pl = .done (p.acquire c.who .blk pl) .go := by
  simp [State.waitAll, arrivals_eq hc, ha, hst]

end

/-- The state once the stream, arrived at a barrier in a phase, has waited for it. -/
def waited (p : State) (c : Ctx) (id phase : Nat) : State :=
  (p.updMat c fun z => { z with arr := some (z.arr.getD ⟨false, id, phase⟩) }).acquire c.who .blk (.bar id)

section
variable {s p : State} {c : Ctx} {b : Nat} {x : Block} {m : Matrix} {id : BitVec 8} {ma : BitVec 4} (h : AtWord s (.mwait .bar id ma) 0xA7 c b m)
  (hp : p = paid s c (.mwait .bar id ma)) (harr : m.arr = none) (hsettled : Settled p c.who .blk) (hid : id.toNat ≤ 15)
  (hlo : 1 ≤ m.reg ma.toNat) (hhi : m.reg ma.toNat ≤ 1026) (hx : p.block (p.bcore c) (p.bslot c) = some x)
  (hok : ((x.bar id.toNat).arrive 1 (m.reg ma.toNat)).2 = false) (hfull : (x.bar id.toNat).count + 1 = m.reg ma.toNat)
  (hsound : (x.bar id.toNat).failed.contains (x.bar id.toNat).phase = false)
include h hp harr hsettled hid hlo hhi hx hok hfull hsound

/-- MWAIT.bar whose own arrival completes its phase goes on at once. -/
theorem mwait_bar_runs :
    Runs (.mwait .bar id ma) s ((waited (joined p c id.toNat (m.reg ma.toNat)) c id.toNat (x.bar id.toNat).phase).updMat c (moved c .go)) := by
  have hstream : p.mat c = some m := hp ▸ h.stream
  have hfresh : freshCount (p.arrivals c) ≠ 0 := by simp [freshCount, arrivals_eq h.party, hstream, harr]
  refine h.runs (show _ = execMwait .bar id ma s from rfl) ?_
  dsimp only
  rw [← hp, if_neg hfresh, barWord_joins h.party hsettled hid hlo hhi hx hok, setArr_eq h.party]
  refine waitAll_complete h.party (a := ⟨false, id.toNat, (x.bar id.toNat).phase⟩) ?_ (barState_joined h.party hx hok hfull hsound)
  rw [mat_updMat_some h.party _ ((mat_joined h.party).trans hstream)]
  simp [harr]

theorem mwait_bar_shares :
    Shares s c (.mwait .bar id ma) [] (p.updBlock (p.bcore c) (p.bslot c) (arrived id.toNat 1 (m.reg ma.toNat))) fun _ => True := by
  refine ⟨_, mwait_bar_runs h hp harr hsettled hid hlo hhi hx hok hfull hsound, ?_, ?_, trivial⟩
  · rw [← hp, waited]
    refine calm_of_offPaths h.party ?_ fun w => ?_
    · rw [offPaths_updMat, offPaths_acquire, offPaths_updMat, offPaths_joined]
    · rw [State.updMat, warp_updMatrix, warp_acquire, State.updMat, warp_updMatrix, warp_joined]
  · rw [waited, blockRest_updMat, blockRest_acquire, blockRest_updMat, bcore_eq h.party, bslot_eq h.party, bcore_eq h.party, bslot_eq h.party,
      blockRest_joined h.party]

end

end Sys2Proof.Stream
end

section
/-! SUPPORT. The range locks of the stream, and the loading of a tile (07 R124; 08 R149; 22 R349). -/

namespace Sys2Proof.Stream

open Sys2Proof Sys2Proof.Machine Sys2Proof.Safety Sys2Proof.Laws

/-! Range locks -/

/-- The range locks that the stream of a word's block holds. -/
def streamLocks (u : State) (c : Ctx) : List Lock := u.matrixLocks (u.bcore c) (u.bslot c)

/-- The stream's range locks given up, and ranges locked for it. -/
def freed (u : State) (c : Ctx) : State :=
  u.updCore (u.bcore c) fun k => { k with locks := k.locks.filter fun y => !(y.owner.isNone && y.blk == u.bslot c) }
def locked (u : State) (c : Ctx) (l : List (Nat × Nat)) (dest : Bool) : State :=
  u.updCore (u.bcore c) fun k => { k with locks := k.locks ++ l.map fun r => ⟨none, u.bslot c, true, c.blk.dealt.asid, r.1, r.2, dest⟩ }

section
variable {u : State} {c : Ctx} {l : List (Nat × Nat)} {dest : Bool} {k : State → Nat → Res}

theorem underLocks_holds (hnone : streamLocks u c = []) (hroom : (u.core (u.bcore c)).locks.length + l.length ≤ 32) :
    u.underLocks c l dest k = .wait (locked u c l dest) false := by
  unfold streamLocks at hnone
  simp only [State.underLocks, hnone, State.lockRoom, hroom, decide_true, Bool.not_true, Bool.false_eq_true, if_false]
  rfl

theorem underLocks_moves {x : Lock} {rest : List Lock} (hheld : streamLocks u c = x :: rest) :
    u.underLocks c l dest k = k (freed u c) x.lo := by
  unfold streamLocks at hheld
  simp only [State.underLocks, hheld]
  rfl

end

section
variable {c : Ctx} {b : Nat} (hc : c.who.party = .matrix b) (u : State)

theorem block_freed (d e : Nat) : (freed u c).block d e = u.block d e := block_updCore u _ d e fun _ => rfl
theorem block_locked (l : List (Nat × Nat)) (dest : Bool) (d e : Nat) : (locked u c l dest).block d e = u.block d e :=
  block_updCore u _ d e fun _ => rfl
@[simp] theorem offCores_freed : offCores (freed u c) = offCores u := rfl

include hc
theorem mat_freed : (freed u c).mat c = u.mat c := by
  rw [mat_eq hc, mat_eq hc, block_freed]
theorem mat_locked (l : List (Nat × Nat)) (dest : Bool) : (locked u c l dest).mat c = u.mat c := by
  rw [mat_eq hc, mat_eq hc, block_locked]

end

theorem locks_updBlock (s : State) (d e i : Nat) (f : Block → Block) : ((s.updBlock d e f).core i).locks = (s.core i).locks := by
  unfold State.updBlock
  split
  · by_cases h : i = d
    · subst h
      rw [State.setBlock, core_updCore_same]
    · rw [State.setBlock, core_updCore_other _ _ h]
  · rfl

theorem scrFits_passes {u : State} {c : Ctx} {hi : Nat} (h : hi ≤ (u.scratch (u.bcore c) (u.bslot c)).size) : ¬(!u.scrFits c hi) = true := by
  simpa [State.scrFits] using h

/-! Bytes of scratch as the engine reads them -/

section
variable {u q : State} {c : Ctx} {b a n : Nat} {bs : List Byte}

/-- A read by the engine notes what it has seen, and nothing else. -/
theorem matRead_eq (h : u.matRead c a n = .ok (q, bs)) :
    q = u.scrSee (u.bcore c) (u.bslot c) c.who .tile a n u ∧ bs = u.scrBytes (u.bcore c) (u.bslot c) c.who .tile a n ∧
      (u.scratch (u.bcore c) (u.bslot c)).badAt a n = none := by
  unfold State.matRead at h
  dsimp only at h
  split at h
  · cases h
  · rename_i hclean
    cases h
    exact ⟨rfl, rfl, hclean⟩

theorem offCores_matRead (h : u.matRead c a n = .ok (q, bs)) : offCores q = offCores u := by
  rw [(matRead_eq h).1, State.scrSee, offCores_updBlock]

theorem mat_matRead (hc : c.who.party = .matrix b) (h : u.matRead c a n = .ok (q, bs)) : q.mat c = u.mat c := by
  rw [(matRead_eq h).1]
  refine mat_congr hc ?_
  rw [State.scrSee, block_part_updBlock]
  exact fun _ => rfl

theorem viaPath_congr {s t : State} (h : t.fresh = s.fresh) (l : Tbl (List PathWrite)) (w : Pid) (p : Path) (key a : Nat) (v : Byte) :
    viaPath t l w p key a v = viaPath s l w p key a v := by
  have hold : ∀ tag key n, t.howOld tag key n = s.howOld tag key n := fun tag key n => by
    unfold State.howOld State.coin State.freeAt
    rw [h]
  rw [viaPath, viaPath, State.oldOrNew, State.oldOrNew, hold]

theorem matRead_clean {x : Scratch} (hx : x = u.scratch (u.bcore c) (u.bslot c)) (h : x.badAt a n = none) :
    u.matRead c a n = .ok (u.scrSee (u.bcore c) (u.bslot c) c.who .tile a n u, u.scrBytes (u.bcore c) (u.bslot c) c.who .tile a n) := by
  subst hx
  simp only [State.matRead, h]

theorem scratch_updMat (u : State) (c : Ctx) (f : Matrix → Matrix) (d e : Nat) : (u.updMat c f).scratch d e = u.scratch d e :=
  scratch_part_congr id (block_part_updMat (fun x => id x.scratch) u d e (fun _ _ => rfl) c f)

/-- The engine reads the same bytes whatever its registers hold. -/
theorem matRead_updMat (hc : c.who.party = .matrix b) (h : u.matRead c a n = .ok (q, bs)) (f : Matrix → Matrix) :
    ∃ q', (u.updMat c f).matRead c a n = .ok (q', bs) := by
  obtain ⟨-, rfl, hclean⟩ := matRead_eq h
  have hscr := scratch_updMat u c f
  have hdealt : (u.updMat c f).pid c.who = u.pid c.who := by
    have hkeep := block_part_updMat (·.dealt) u c.who.core b (fun _ _ => rfl) c f
    simp only [State.pid, blockOf_eq hc, hkeep, hc]
  have hfresh : (u.updMat c f).fresh = u.fresh := part_of_off offCores State.fresh (fun _ => rfl) (offCores_updMat u c f)
  have hclean' := matRead_clean (u := u.updMat c f) (c := c) (a := a) (n := n) rfl (by
    rw [bcore_eq hc, bslot_eq hc] at hclean ⊢
    rwa [hscr])
  have hbytes : (u.updMat c f).scrBytes ((u.updMat c f).bcore c) ((u.updMat c f).bslot c) c.who .tile a n =
      u.scrBytes (u.bcore c) (u.bslot c) c.who .tile a n := by
    rw [bcore_eq hc, bslot_eq hc, bcore_eq hc, bslot_eq hc]
    simp only [State.scrBytes, hscr]
    refine List.map_congr_left fun k _ => ?_
    rw [State.scrByte, State.scrByte, hdealt, viaPath_congr hfresh]
  exact ⟨_, hbytes ▸ hclean'⟩

end

/-! MLDB -/

/-- The bytes from the first of a tile to its last (07 R124). -/
abbrev tileSpan (fb : Fmt) (cols stride : Nat) : Nat := (cols / 16 - 1) * stride + 16 * colBytes fb

/-- The stream holds a tile, and keeps whence it came (07 R137). -/
def loaded (fb : Fmt) (base stride : Nat) (t : Tile) (m : Matrix) : Matrix := { m with tile := some t, last := some (fb, base, stride) }

theorem loadTile_ok {u q : State} {c : Ctx} {fb : Fmt} {cols base stride : Nat} {t : Tile} (h : u.readTile c fb cols base stride = .ok (q, t))
    (give : State → State) : u.loadTile c fb cols base stride give = .done (q.updMat c (loaded fb base stride t)) .go := by
  simp only [State.loadTile, h]
  rfl

/-- One more group of columns read into a tile (07 R124). -/
def readGroup (c : Ctx) (base stride g : Nat) (r : Except TrapArgs (State × Tbl Byte)) (k : Nat) : Except TrapArgs (State × Tbl Byte) :=
  r.bind fun p => (p.1.matRead c (base + k * stride) g).map fun q => (q.1, Tbl.setList 0 p.2 (k * g) q.2)

theorem mat_readGroup {c : Ctx} {b base stride g k : Nat} {r : Except TrapArgs (State × Tbl Byte)} {x : State × Tbl Byte}
    (hc : c.who.party = .matrix b) (h : readGroup c base stride g r k = .ok x) : ∃ y, r = .ok y ∧ x.1.mat c = y.1.mat c := by
  cases r with
  | error a => cases h
  | ok y =>
    refine ⟨y, rfl, ?_⟩
    have hgroup : (y.1.matRead c (base + k * stride) g).map (fun q => (q.1, Tbl.setList 0 y.2 (k * g) q.2)) = .ok x := h
    cases hread : y.1.matRead c (base + k * stride) g with
    | error a =>
      rw [hread] at hgroup
      cases hgroup
    | ok v =>
      rw [hread] at hgroup
      cases hgroup
      exact mat_matRead hc hread

theorem mat_readGroups {c : Ctx} {b base stride g : Nat} (hc : c.who.party = .matrix b) (l : List Nat) {r : Except TrapArgs (State × Tbl Byte)}
    {x : State × Tbl Byte} (h : l.foldl (readGroup c base stride g) r = .ok x) : ∃ y, r = .ok y ∧ x.1.mat c = y.1.mat c := by
  induction l generalizing r with
  | nil => exact ⟨x, h, rfl⟩
  | cons k l ih =>
    obtain ⟨y, hy, hxy⟩ := ih h
    obtain ⟨z, hz, hyz⟩ := mat_readGroup hc hy
    exact ⟨z, hz, hxy.trans hyz⟩

/-- The reading of a tile leaves the stream as it is. -/
theorem mat_readTile {u q : State} {c : Ctx} {b : Nat} {fb : Fmt} {cols base stride : Nat} {t : Tile} (hc : c.who.party = .matrix b)
    (h : u.readTile c fb cols base stride = .ok (q, t)) : q.mat c = u.mat c := by
  have hread : ((List.range (cols / 16)).foldl (readGroup c base stride (16 * colBytes fb)) (.ok (u, []))).map
      (fun p => (p.1, (⟨fb, p.2, []⟩ : Tile))) = .ok (q, t) := h
  cases hgroups : (List.range (cols / 16)).foldl (readGroup c base stride (16 * colBytes fb)) (.ok (u, [])) with
  | error a =>
    rw [hgroups] at hread
    cases hread
  | ok x =>
    rw [hgroups] at hread
    cases hread
    obtain ⟨y, hy, hmat⟩ := mat_readGroups hc _ hgroups
    cases hy
    exact hmat

/-- Where a tile may stand in scratch (07 R124). -/
structure TileFits (fb : Fmt) (off stride : Nat) : Prop where
  base : off % 128 = 0
  step : stride % 128 = 0
  group : 16 * colBytes fb ≤ stride

theorem TileFits.passes {fb : Fmt} {off stride : Nat} (h : TileFits fb off stride) :
    ¬(off % 128 != 0 || stride % 128 != 0 || decide (stride < 16 * colBytes fb)) = true := by
  simp [h.base, h.step, Nat.not_lt.mpr h.group]

section
variable {fb : Fmt} {id : BitVec 8} {ma mb : BitVec 4} {s p : State} {c : Ctx} {b cols : Nat} {m : Matrix}

section
variable (hcols : tileCols fb = some cols) (hfits : TileFits fb (m.reg ma.toNat) (m.reg mb.toNat))
  (hscr : m.reg ma.toNat + tileSpan fb cols (m.reg mb.toNat) ≤ (p.scratch (p.bcore c) (p.bslot c)).size)
include hcols hfits hscr

theorem mldb_under : ∃ k, exec (.mldb fb id ma mb false) s = s.matWord (.mldb fb id ma mb false) 0xA0 k ∧
    k c p m = p.underLocks c [(m.reg ma.toNat, m.reg ma.toNat + tileSpan fb cols (m.reg mb.toNat))] false fun u base =>
      u.loadTile c fb cols base (m.reg mb.toNat) fun u => u := by
  refine ⟨_, show _ = execMldb fb id ma mb false s from rfl, ?_⟩
  dsimp only
  rw [hcols]
  dsimp only
  rw [if_neg hfits.passes, if_pos (show (!false) = true from rfl), if_neg (scrFits_passes hscr)]

variable (h : AtWord s (.mldb fb id ma mb false) 0xA0 c b m) (hp : p = paid s c (.mldb fb id ma mb false))
include h hp

theorem mldb_holds (hnone : streamLocks p c = []) (hroom : (p.core (p.bcore c)).locks.length + 1 ≤ 32) :
    Runs (.mldb fb id ma mb false) s (locked p c [(m.reg ma.toNat, m.reg ma.toNat + tileSpan fb cols (m.reg mb.toNat))] false) := by
  subst hp
  obtain ⟨k, hexec, hk⟩ := mldb_under (s := s) (id := id) hcols hfits hscr
  exact h.runs_of_wait hexec (hk.trans (underLocks_holds hnone hroom))

theorem mldb_gives {l : Lock} {rest : List Lock} {q : State} {t : Tile} (hheld : streamLocks p c = l :: rest)
    (htile : (freed p c).readTile c fb cols l.lo (m.reg mb.toNat) = .ok (q, t)) :
    Gives s c (.mldb fb id ma mb false) (q.updMat c (loaded fb l.lo (m.reg mb.toNat) t)) := by
  subst hp
  obtain ⟨k, hexec, hk⟩ := mldb_under (s := s) (id := id) hcols hfits hscr
  exact h.gives hexec (hk.trans ((underLocks_moves hheld).trans (loadTile_ok htile _)))

end

/-! MLDB of a ring's slot -/

section
variable (h : AtWord s (.mldb fb id ma mb true) 0xA0 c b m) (hp : p = paid s c (.mldb fb id ma mb true)) (hcols : tileCols fb = some cols)
  (hfits : TileFits fb (m.reg ma.toNat) (m.reg mb.toNat))
include h hp hcols hfits

/-- The stride that is kept is the one that the word read: the load leaves the registers alone. -/
theorem mldb_slot_gives {l : Lock} {rest : List Lock} {q : State} {t : Tile} (hheld : streamLocks p c = l :: rest)
    (htile : (freed p c).readTile c fb cols l.lo (m.reg mb.toNat) = .ok (q, t)) :
    Gives s c (.mldb fb id ma mb true) (q.updMat c fun x => loaded fb l.lo (x.reg mb.toNat) t x) := by
  subst hp
  have hmat : q.mat c = some m := by rw [mat_readTile h.party htile, mat_freed h.party, h.stream]
  have hhead : ((paid s c (.mldb fb id ma mb true)).matrixLocks ((paid s c (.mldb fb id ma mb true)).bcore c)
      ((paid s c (.mldb fb id ma mb true)).bslot c)).head? = some l := congrArg List.head? hheld
  refine h.gives (show _ = execMldb fb id ma mb true s from rfl) ?_
  dsimp only
  rw [hcols]
  dsimp only
  rw [if_neg hfits.passes, if_neg (show ¬(!true) = true by decide), hhead]
  dsimp only
  rw [underLocks_moves hheld]
  exact (loadTile_ok htile _).trans (congrArg (Res.done · .go) (updMat_congr h.party q hmat rfl))

end

/-! The take of a slot -/

/-- The state in which the engine has taken slot k of a ring for a tile: r is the ring after the take. -/
def tookTile (p : State) (c : Ctx) (id : Nat) (r : Ring) (k : Nat) : State :=
  ((p.acquire c.who .blk (.ring id)).setRing (p.bcore c) (p.bslot c) id r).updMat c fun m =>
    m.setPos id { m.rowPos id with tiles := k :: (m.rowPos id).tiles }

theorem matTake_takes (hc : c.who.party = .matrix b) {id k : Nat} {r q : Ring} (hq : r.acquire .matrix 0 false = (q, some k)) :
    p.matTake c id r = ((p.acquire c.who .blk (.ring id)).setRing (p.bcore c) (p.bslot c) id q, some k) := by
  simp only [State.matTake, hq, Option.isSome_some, if_true, bcore_eq hc, bslot_eq hc]

section
variable (p c) (id : Nat) (r : Ring) (k : Nat)

theorem locks_tookTile (d : Nat) : ((tookTile p c id r k).core d).locks = (p.core d).locks := by
  rw [tookTile, State.updMat, State.updMatrix, locks_updBlock, State.setRing, locks_updBlock, State.acquire, locks_updBlock]
  rfl

theorem size_tookTile (d e : Nat) : ((tookTile p c id r k).scratch d e).size = (p.scratch d e).size := by
  refine scratch_part_congr (·.size) ?_
  rw [tookTile, block_part_updMat _ _ _ _ fun _ _ => rfl, block_part_setRing _ _ _ _ fun _ _ _ => rfl, block_part_acquire _ _ _ _ _ _ fun _ _ => rfl]

end

theorem streamLocks_tookTile (hc : c.who.party = .matrix b) (hnone : streamLocks p c = []) (id : Nat) (r : Ring) (k : Nat) :
    streamLocks (tookTile p c id r k) c = [] := by
  rw [← hnone]
  simp only [streamLocks, State.matrixLocks, bcore_eq hc, bslot_eq hc, locks_tookTile]

theorem mat_tookTile (hc : c.who.party = .matrix b) (hm : p.mat c = some m) (id : Nat) (r : Ring) (k : Nat) :
    (tookTile p c id r k).mat c = some (m.setPos id { m.rowPos id with tiles := k :: (m.rowPos id).tiles }) := by
  refine mat_updMat_some hc _ ?_ _
  rw [mat_congr hc (block_part_setRing _ _ _ _ (fun _ _ _ => rfl) _ _ _ _), mat_congr hc (block_part_acquire _ _ _ _ _ _ fun _ _ => rfl), hm]

/-- The ring of a block that holds one, after it is changed. -/
theorem ring_setRing {s : State} {d e id : Nat} {x : Block} (hx : s.block d e = some x) (r : Ring) : (s.setRing d e id r).ring d e id = some r := by
  simp [State.ring, State.setRing, block_updBlock, hx, Block.ring]

theorem ring_congr {s t : State} {d e : Nat} (h : (t.block d e).map (·.rings) = (s.block d e).map (·.rings)) (id : Nat) :
    t.ring d e id = s.ring d e id := by
  unfold State.ring Block.ring
  cases ht : t.block d e <;> cases hs : s.block d e <;> simp_all

theorem ring_updMat (s : State) (c : Ctx) (f : Matrix → Matrix) (d e id : Nat) : (s.updMat c f).ring d e id = s.ring d e id := by
  exact ring_congr (block_part_updMat _ s d e (fun _ _ => rfl) c f) id

theorem ring_tookTile {id : Nat} {r0 : Ring} (hr : p.ring (p.bcore c) (p.bslot c) id = some r0) (r : Ring) (k : Nat) :
    (tookTile p c id r k).ring (p.bcore c) (p.bslot c) id = some r := by
  have hblock : ∃ x, (p.acquire c.who .blk (.ring id)).block (p.bcore c) (p.bslot c) = some x := by
    have hkeep : ((p.acquire c.who .blk (.ring id)).block (p.bcore c) (p.bslot c)).map (·.rings) =
        (p.block (p.bcore c) (p.bslot c)).map (·.rings) :=
      block_part_acquire _ p _ _ _ _ fun _ _ => rfl
    obtain ⟨y, hy, -⟩ := Option.bind_eq_some_iff.mp hr
    rw [hy] at hkeep
    obtain ⟨x, hx, -⟩ := Option.map_eq_some_iff.mp hkeep
    exact ⟨x, hx⟩
  obtain ⟨x, hx⟩ := hblock
  rw [tookTile, ring_updMat, ring_setRing hx]

theorem rowPos_setPos (m : Matrix) (id : Nat) (x : RowPos) : (m.setPos id x).rowPos id = x := by
  simp [Matrix.setPos, Matrix.rowPos]

/-- MLDB.slot takes the ring's next slot and locks the tile's bytes in it (07 R124). -/
theorem mldb_slot_takes (h : AtWord s (.mldb fb id ma mb true) 0xA0 c b m)
    (hp : p = paid s c (.mldb fb id ma mb true)) (hcols : tileCols fb = some cols)
    (hfits : TileFits fb (m.reg ma.toNat) (m.reg mb.toNat)) {r q : Ring} {k base : Nat} (hbase : base = r.off + k * r.size + m.reg ma.toNat)
    (hnone : streamLocks p c = []) (hroom : (p.core (p.bcore c)).locks.length < 32) (hr : p.ring (p.bcore c) (p.bslot c) id.toNat = some r)
    (herr : r.err = none) (hq : r.acquire .matrix 0 false = (q, some k)) (hslot : m.reg ma.toNat + tileSpan fb cols (m.reg mb.toNat) ≤ r.size)
    (hscr : base + tileSpan fb cols (m.reg mb.toNat) ≤ (p.scratch (p.bcore c) (p.bslot c)).size) :
    Runs (.mldb fb id ma mb true) s (locked (tookTile p c id.toNat q k) c [(base, base + tileSpan fb cols (m.reg mb.toNat))] false) := by
  subst hp hbase
  have hhead : ((paid s c (.mldb fb id ma mb true)).matrixLocks ((paid s c (.mldb fb id ma mb true)).bcore c)
      ((paid s c (.mldb fb id ma mb true)).bslot c)).head? = none := congrArg List.head? hnone
  refine h.runs_of_wait (show _ = execMldb fb id ma mb true s from rfl) ?_
  obtain ⟨p, hp⟩ : ∃ p, p = paid s c (.mldb fb id ma mb true) := ⟨_, rfl⟩
  rw [← hp] at hhead hnone hroom hr hscr ⊢
  have htook := streamLocks_tookTile h.party hnone id.toNat q k
  dsimp only
  rw [hcols]
  dsimp only
  rw [if_neg hfits.passes, if_neg (show ¬(!true) = true by decide), hhead]
  dsimp only
  rw [State.matRing, hr]
  dsimp only
  rw [herr]
  dsimp only
  rw [State.lockRoom, if_neg (by simp; omega), matTake_takes h.party hq]
  dsimp only
  rw [if_neg (Nat.not_lt.mpr hslot), if_neg]
  · refine underLocks_holds (u := tookTile p c id.toNat q k) htook ?_
    rw [bcore_eq h.party] at hroom ⊢
    rw [locks_tookTile, List.length_singleton]
    omega
  · refine scrFits_passes (u := tookTile p c id.toNat q k) ?_
    rw [bcore_eq h.party, bslot_eq h.party] at hscr ⊢
    rwa [size_tookTile]

theorem streamLocks_locked (hc : c.who.party = .matrix b) {u : State} (hnone : streamLocks u c = []) (l : List (Nat × Nat)) (dest : Bool) :
    streamLocks (locked u c l dest) c = l.map fun r => ⟨none, u.bslot c, true, c.blk.dealt.asid, r.1, r.2, dest⟩ := by
  simp only [streamLocks, State.matrixLocks, bcore_eq hc, bslot_eq hc] at hnone ⊢
  simp only [locked, bcore_eq hc, bslot_eq hc, core_updCore_same, List.filter_append, hnone, List.nil_append, List.filter_eq_self]
  intro y hy
  obtain ⟨r, -, rfl⟩ := List.mem_map.mp hy
  simp

theorem ring_locked {u : State} (l : List (Nat × Nat)) (dest : Bool) (d e id : Nat) : (locked u c l dest).ring d e id = u.ring d e id := by
  rw [State.ring, State.ring, block_locked]

/-- What the state holds once the engine has taken a slot for a tile and locked bytes in it. -/
theorem tookTile_locked (hc : c.who.party = .matrix b) (hm : p.mat c = some m) {id k : Nat} {r q : Ring}
    (hr : p.ring (p.bcore c) (p.bslot c) id = some r) (hnone : streamLocks p c = []) (lo hi : Nat) :
    ∃ y, (locked (tookTile p c id q k) c [(lo, hi)] false).mat c = some y ∧ (y.rowPos id).tiles = k :: (m.rowPos id).tiles ∧
      ((locked (tookTile p c id q k) c [(lo, hi)] false).ring (p.bcore c) (p.bslot c) id).map (·.slots) = some q.slots ∧
      streamLocks (locked (tookTile p c id q k) c [(lo, hi)] false) c = [⟨none, p.bslot c, true, c.blk.dealt.asid, lo, hi, false⟩] := by
  refine ⟨_, (mat_locked hc _ _ _).trans (mat_tookTile hc hm id q k), ?_, ?_, ?_⟩
  · rw [rowPos_setPos]
  · rw [ring_locked, ring_tookTile hr, Option.map_some]
  · rw [streamLocks_locked hc (streamLocks_tookTile hc hnone id q k), bslot_eq hc, bslot_eq hc, List.map_singleton]

end

end Sys2Proof.Stream
end

section
/-! SUPPORT. The rows of MMUL and MMULB (07 R126 to R129, R135): a row whose steps are paid, and the last row of a word. -/

namespace Sys2Proof.Stream

open Sys2Proof Sys2Proof.Machine Sys2Proof.Safety Sys2Proof.Laws Sys2Proof.Accumulators

/-! The end of a row -/

/-- A stream whose word has passed its last row: its position stands at the next row of the slot (07 R126). -/
def rowEnded (o : MulF) (row : Nat) (m : Matrix) : Matrix :=
  { m.setPos o.id.toNat { m.rowPos o.id.toNat with row := row + 1 } with row := 0, steps := 0, started := false, due := none }

section
variable {u : State} {c : Ctx} {b slot row : Nat} {o : MulF} {m : Matrix}

theorem rowDone_ends (hc : c.who.party = .matrix b) (hm : u.mat c = some m) (hstop : m.stop = false) (hdue : m.due = none)
    (hnext : row + 1 < o.rps.toNat) (hlast : o.n.toNat ≤ m.row) : u.rowDone c o slot row = .done (u.updMat c (rowEnded o row)) .go := by
  have hmoved := mat_updMat_some hc u hm fun m => m.setPos o.id.toNat { m.rowPos o.id.toNat with row := row + 1 }
  unfold State.rowDone
  simp only [if_pos hnext, hmoved]
  rw [if_neg (by simpa [Matrix.setPos] using hstop), if_pos (by simpa [Matrix.setPos] using hlast), updMat_updMat _ hc]
  simp only [Matrix.setPos, hdue, matDone]
  rfl

/-- A row pass of a stream, as a change of its accumulator memory. -/
theorem pass_with (m : Matrix) (t : Tile) (p : PairInfo) (fa : Fmt) (parts : Bool) (base : Nat) (row : List Nat) :
    (m.pass t p fa parts base row).1 =
      { m with acc := (m.pass t p fa parts base row).1.acc, accBad := (m.pass t p fa parts base row).1.accBad } :=
  congrArg (fun x : Matrix => { x with acc := (m.pass t p fa parts base row).1.acc, accBad := (m.pass t p fa parts base row).1.accBad })
    (pass_rest t p fa parts base row m)

end

section
variable {u q : State} {c : Ctx} {b slot : Nat} {o : MulF} {w : PairInfo} {parts : Bool} {r : Ring} {m : Matrix} {tile : Tile} {bs : List Byte}

/-- The stream stands at the last row of its word, whose steps are paid, and its bytes are read. -/
structure LastRow (u : State) (c : Ctx) (o : MulF) (w : PairInfo) (r : Ring) (slot : Nat) (m : Matrix) : Prop where
  stream : u.mat c = some m
  free : m.stop = false
  paidFor : w.steps ≤ m.steps
  stands : (m.rowPos o.id.toNat).slot = some slot
  next : (m.rowPos o.id.toNat).row + 1 < o.rps.toNat
  due : m.due = none
  last : o.n.toNat ≤ m.row + 1
  inside : u.scrFits c (r.off + slot * r.size + ((m.rowPos o.id.toNat).row + 1) * (128 * fmtBits o.fa)) = true

/-- The row that the stream passes. -/
def passed (m : Matrix) (tile : Tile) (w : PairInfo) (o : MulF) (parts : Bool) (bs : List Byte) : Matrix :=
  (m.pass tile w o.fa parts (m.reg o.ma.toNat + m.row * m.reg o.mb.toNat) (rowElems o.fa bs)).1

theorem mulRow_ends (hc : c.who.party = .matrix b) (h : LastRow u c o w r slot m) (htile : m.tile = some tile) (hstat : NoStat u)
    (hread : u.matRead c (r.off + slot * r.size + (m.rowPos o.id.toNat).row * (128 * fmtBits o.fa)) (128 * fmtBits o.fa) = .ok (q, bs)) :
    ∃ E, u.mulRow c o w parts r = .done E .go ∧ E.mat c = some (rowEnded o (m.rowPos o.id.toNat).row (passed m tile w o parts bs)) ∧
      E.mem = u.mem := by
  have hpass := pass_with m tile w o.fa parts (m.reg o.ma.toNat + m.row * m.reg o.mb.toNat) (rowElems o.fa bs)
  have hoff : offCores (q.updMat c fun _ => { passed m tile w o parts bs with row := m.row + 1, steps := 0 }) = offCores u := by
    rw [offCores_updMat, offCores_matRead hread]
  obtain ⟨t, hevents, hrec⟩ := matEvents_quiet (noStat_of_offCores hoff hstat) c
    (m.pass tile w o.fa parts (m.reg o.ma.toNat + m.row * m.reg o.mb.toNat) (rowElems o.fa bs)).2
  have ht : t.mat c = some { passed m tile w o parts bs with row := m.row + 1, steps := 0 } := by
    rw [mat_of_recounted hrec hc, mat_updMat_some hc q (m := m)]
    rw [mat_matRead hc hread, h.stream]
  have hnone : (passed m tile w o parts bs).due = none := by rw [passed, hpass, h.due]
  have hfree : (passed m tile w o parts bs).stop = false := by rw [passed, hpass, h.free]
  have hpos : (passed m tile w o parts bs).rowPos o.id.toNat = m.rowPos o.id.toNat := by rw [passed, hpass]; rfl
  have hdone := rowDone_ends (slot := slot) (o := o) hc
    (mat_updMat_some hc t ht fun m => { m with due := m.due <|> none }) hfree (by simp [hnone]) h.next h.last
  refine ⟨(t.updMat c fun m => { m with due := m.due <|> none }).updMat c (rowEnded o (m.rowPos o.id.toNat).row), ?_, ?_, ?_⟩
  · unfold State.mulRow State.atRow
    simp only [h.stream, Option.map_some, Option.getD_some, h.stands, Option.bind_some, htile, h.inside, hread,
      Bool.not_true, Bool.false_eq_true, if_false]
    unfold passed at hevents
    simp only [hevents]
    exact hdone
  · exact mat_updMat_some hc _ (mat_updMat_some hc t ht _) _
  · rw [mem_of_offCores (offCores_updMat ..), mem_of_offCores (offCores_updMat ..), hrec.mem, mem_of_offCores hoff]

/-- The words that pass rows. -/
def mulOf (parts : Bool) (o : MulF) : Instr := if parts then .mmulb o else .mmul o

theorem exec_mulOf (parts : Bool) (o : MulF) (s : State) :
    exec (mulOf parts o) s = s.matWord (mulOf parts o) (if parts then 0xA2 else 0xA1) fun c s m => s.mulWord c m o parts := by
  cases parts <;> rfl

theorem mulRun_paid {u : State} (h : LastRow u c o w r slot m) : u.mulRun c o w parts r = u.mulRow c o w parts r := by
  simp only [State.mulRun, h.stream, ge_iff_le, if_pos h.paidFor]

/-- A word whose row pass has begun goes on with it. -/
theorem mulWord_started {u : State} (hpair : pairOf o.fa o.fb = some w) (hparts : parts = true → w.acc = .f32)
    (hr : u.ring (u.bcore c) (u.bslot c) o.id.toNat = some r) (hbegun : m.started = true) : u.mulWord c m o parts = u.mulRun c o w parts r := by
  have hacc : ¬(parts && w.acc != .f32) = true := by
    cases parts <;> simp_all
  unfold State.mulWord
  simp only [hpair, if_neg hacc, hbegun, hr, Bool.not_true, Bool.false_and, Bool.false_eq_true, if_false, if_true]

/-- A stream whose word has begun. -/
def begun (m : Matrix) : Matrix := { m with started := true }

/-- A word that starts passes its checks (07 R126) and goes on. -/
theorem mulWord_starts {u : State} (hpair : pairOf o.fa o.fb = some w) (hparts : parts = true → w.acc = .f32)
    (hr : u.ring (u.bcore c) (u.bslot c) o.id.toNat = some r) (hbegun : m.started = false) (hcap : 1000 ≤ u.cap c.who.core)
    (hchecks : u.mulTrap c m o w parts r = none) :
    u.mulWord c m o parts = (u.updMat c begun).mulRun c o w parts r := by
  have hacc : ¬(parts && w.acc != .f32) = true := by
    cases parts <;> simp_all
  unfold State.mulWord
  simp only [hpair, if_neg hacc, hbegun, hr, Nat.not_lt.mpr hcap, decide_false, Bool.and_false, Bool.false_eq_true, if_false, hchecks]
  rfl

/-- A row pass does not look at whether the word has begun. -/
theorem pass_begun (m : Matrix) (t : Tile) (p : PairInfo) (fa : Fmt) (parts : Bool) (base : Nat) (row : List Nat) :
    ((begun m).pass t p fa parts base row).1 = begun (m.pass t p fa parts base row).1 := by
  have hparts : ∀ (m : Matrix) a ps, ((begun m).storeParts a ps).1 = begun (m.storeParts a ps).1 := fun m a ps =>
    List.foldl_hom begun fun _ _ => rfl
  have hcolumn : ∀ m k, column t p fa parts base row (begun m) k = begun (column t p fa parts base row m k) := by
    intro m k
    unfold column
    cases parts with
    | true => exact hparts ..
    | false => rfl
  rw [pass_eq, pass_eq]
  exact List.foldl_hom begun hcolumn

theorem LastRow.begins {u : State} (hc : c.who.party = .matrix b) (h : LastRow u c o w r slot m) :
    LastRow (u.updMat c begun) c o w r slot (begun m) := by
  obtain ⟨hstream, hfree, hpaid, hstands, hnext, hdue, hlast, hinside⟩ := h
  refine ⟨mat_updMat_some hc u hstream begun, hfree, hpaid, hstands, hnext, hdue, hlast, ?_⟩
  rw [State.scrFits, bcore_eq hc, bslot_eq hc] at hinside ⊢
  rwa [scratch_updMat]

section
variable {u : State} (hc : c.who.party = .matrix b) (hstat : NoStat u) (hpair : pairOf o.fa o.fb = some w) (hparts : parts = true → w.acc = .f32)
  (hr : u.ring (u.bcore c) (u.bslot c) o.id.toNat = some r)
  (hstart : m.started = true ∨ (1000 ≤ u.cap c.who.core ∧ u.mulTrap c m o w parts r = none)) (hrow : LastRow u c o w r slot m)
  (htile : m.tile = some tile)
  (hread : u.matRead c (r.off + slot * r.size + (m.rowPos o.id.toNat).row * (128 * fmtBits o.fa)) (128 * fmtBits o.fa) = .ok (q, bs))
include hc hstat hpair hparts hr hstart hrow htile hread

/-- The last row of a word ends it, whether it is also the first or not. -/
theorem mulWord_ends : ∃ E x, u.mulWord c m o parts = .done E .go ∧ E.mat c = some (rowEnded o (m.rowPos o.id.toNat).row x) ∧ x.pos = m.pos ∧
    x.acc = (passed m tile w o parts bs).acc ∧ E.mem = u.mem := by
  have hpass := pass_with m tile w o.fa parts (m.reg o.ma.toNat + m.row * m.reg o.mb.toNat) (rowElems o.fa bs)
  have hpos : (passed m tile w o parts bs).pos = m.pos := by rw [passed, hpass]
  cases hbegun : m.started with
  | true =>
    obtain ⟨E, hE, hmat, hmem⟩ := mulRow_ends (parts := parts) hc hrow htile hstat hread
    exact ⟨E, _, (mulWord_started hpair hparts hr hbegun).trans ((mulRun_paid hrow).trans hE), hmat, hpos, rfl, hmem⟩
  | false =>
    obtain ⟨hcap, hchecks⟩ := hstart.resolve_left (by simp [hbegun])
    have hoff : offCores (u.updMat c begun) = offCores u := offCores_updMat ..
    obtain ⟨q', hread'⟩ := matRead_updMat hc hread begun
    obtain ⟨E, hE, hmat, hmem⟩ := mulRow_ends (parts := parts) (tile := tile) hc (hrow.begins hc) htile (noStat_of_offCores hoff hstat) hread'
    have hpassed : passed (begun m) tile w o parts bs = begun (passed m tile w o parts bs) := pass_begun ..
    rw [hpassed] at hmat
    exact ⟨E, _, (mulWord_starts hpair hparts hr hbegun hcap hchecks).trans ((mulRun_paid (hrow.begins hc)).trans hE), hmat, hpos, rfl,
      hmem.trans (mem_of_offCores hoff)⟩

end

/-- The last row of an MMUL or MMULB: its accumulators change as the row pass says, and its position goes to the next row of the slot. -/
theorem mul_runs {s p : State} {op : Nat} (h : AtWord s (mulOf parts o) op c b m) (hp : p = paid s c (mulOf parts o))
    (hop : op = if parts then 0xA2 else 0xA1) (hstat : NoStat p) (hpair : pairOf o.fa o.fb = some w) (hparts : parts = true → w.acc = .f32)
    (hr : p.ring (p.bcore c) (p.bslot c) o.id.toNat = some r)
    (hstart : m.started = true ∨ (1000 ≤ p.cap c.who.core ∧ p.mulTrap c m o w parts r = none)) (hrow : LastRow p c o w r slot m)
    (htile : m.tile = some tile)
    (hread : p.matRead c (r.off + slot * r.size + (m.rowPos o.id.toNat).row * (128 * fmtBits o.fa)) (128 * fmtBits o.fa) = .ok (q, bs)) :
    ∃ t y, Runs (mulOf parts o) s t ∧ t.mat c = some y ∧ y.row = 0 ∧ y.steps = 0 ∧ y.started = false ∧
      y.rowPos o.id.toNat = { m.rowPos o.id.toNat with row := (m.rowPos o.id.toNat).row + 1 } ∧ y.acc = (passed m tile w o parts bs).acc ∧
      t.mem = p.mem := by
  subst hp hop
  obtain ⟨E, x, hE, hmat, hpos, hacc, hmem⟩ := mulWord_ends h.party hstat hpair hparts hr hstart hrow htile hread
  have hx : x.rowPos o.id.toNat = m.rowPos o.id.toNat := by rw [Matrix.rowPos, Matrix.rowPos, hpos]
  refine ⟨_, _, h.runs (exec_mulOf parts o s) hE, mat_updMat_some h.party E hmat _, rfl, rfl, rfl, ?_, hacc, ?_⟩
  · rw [← hx]
    exact rowPos_setPos ..
  · rw [mem_of_offCores (offCores_updMat ..), hmem]

end

end Sys2Proof.Stream
end

section
/-! SUPPORT. MSCALE and MDRAIN (07 R130, R132; 22 R348, R350), and the payment of the engine's steps (07 R135). -/

namespace Sys2Proof.Stream

open Sys2Proof Sys2Proof.Machine Sys2Proof.Safety Sys2Proof.Laws Sys2Proof.Accumulators

/-! MSCALE -/

/-- Scale k among the bytes of a range (07 R130). -/
def scaleAt (l : List Byte) (k : Nat) : Nat := natOf ((l.drop (4 * k)).take 4)

/-- The accumulators of a stream once MSCALE has folded its scales, with the events. -/
def scaled (m : Matrix) (ma : BitVec 4) (n cols : Nat) (as bs : List Byte) : Matrix × List Ev :=
  m.scaleAll (fun k => m.reg (ma.toNat + k)) n cols (fun j kb => scaleAt as (16 * j + kb)) fun kb k => scaleAt bs (cols * kb + k)

/-- What MSCALE does under its range locks. -/
def scaleUnder (c : Ctx) (m : Matrix) (ma : BitVec 4) (n cols a b : Nat) (u : State) : Res :=
  match u.matRead c a (64 * n) with
  | .error t => .trap u t
  | .ok (u, as) =>
    match u.matRead c b (64 * cols) with
    | .error t => .trap u t
    | .ok (u, bs) =>
      let (u, due) := (u.updMat c fun _ => (scaled m ma n cols as bs).1).matEvents c (scaled m ma n cols as bs).2
      matDone u due

/-- The scales are folded under the locks, and only statistics change beside the stream and what it has read of scratch. -/
theorem scaleUnder_done {c : Ctx} {slot n cols a b : Nat} {m : Matrix} {ma : BitVec 4} {u q q2 : State} {as bs : List Byte}
    (hc : c.who.party = .matrix slot) (hm : u.mat c = some m) (hstat : NoStat u) (hreadA : u.matRead c a (64 * n) = .ok (q, as))
    (hreadB : q.matRead c b (64 * cols) = .ok (q2, bs)) :
    ∃ t, scaleUnder c m ma n cols a b u = .done t .go ∧ t.mat c = some (scaled m ma n cols as bs).1 ∧ t.mem = u.mem := by
  have hoff : offCores (q2.updMat c fun _ => (scaled m ma n cols as bs).1) = offCores u := by
    rw [offCores_updMat, offCores_matRead hreadB, offCores_matRead hreadA]
  obtain ⟨t, hevents, hrec⟩ := matEvents_quiet (noStat_of_offCores hoff hstat) c (scaled m ma n cols as bs).2
  have hmat : q2.mat c = some m := by rw [mat_matRead hc hreadB, mat_matRead hc hreadA, hm]
  refine ⟨t, ?_, ?_, hrec.mem.trans (mem_of_offCores hoff)⟩
  · simp only [scaleUnder, hreadA, hreadB, hevents, matDone]
  · rw [mat_of_recounted hrec hc, mat_updMat_some hc q2 hmat]

theorem mscale_zero_gives {id : BitVec 8} {ma mb : BitVec 4} {s p : State} {c : Ctx} {b : Nat} {m : Matrix}
    (h : AtWord s (.mscale id ma mb) 0xA3 c b m) (hp : p = paid s c (.mscale id ma mb)) (hid : 1 ≤ id.toNat) (hid' : id.toNat ≤ 40)
    (ha : m.reg mb.toNat % 4 = 0) (hb : m.reg (mb.toNat + 1) % 4 = 0) (hn : m.reg (mb.toNat + 2) = 0) : Gives s c (.mscale id ma mb) p := by
  subst hp
  refine h.gives (show _ = execMscale id ma mb s from rfl) ?_
  dsimp only
  rw [if_neg (by simp; omega), if_neg (by simp [ha, hb]), if_pos hn]

/-- The accumulators that MSCALE reads and writes, and the scales, lie where they may (07 R122, R130). -/
structure ScaleFits (p : State) (c : Ctx) (m : Matrix) (id : BitVec 8) (ma mb : BitVec 4) : Prop where
  lo : 1 ≤ id.toNat
  hi : id.toNat ≤ 40
  alignA : m.reg mb.toNat % 4 = 0
  alignB : m.reg (mb.toNat + 1) % 4 = 0
  rows : m.reg (mb.toNat + 2) ≠ 0
  scalesA : p.scrFits c (m.reg mb.toNat + 64 * m.reg (mb.toNat + 2)) = true
  scalesB : p.scrFits c (m.reg (mb.toNat + 1) + 64 * (32 * id.toNat)) = true
  partials : accFits .f32 (m.reg ma.toNat) (m.reg (ma.toNat + 1)) (m.reg (mb.toNat + 2)) (16 * (32 * id.toNat)) 1 = true
  sums : accFits .f32 (m.reg (ma.toNat + 2)) (m.reg (ma.toNat + 3)) (m.reg (mb.toNat + 2)) (32 * id.toNat) 1 = true

section
variable {id : BitVec 8} {ma mb : BitVec 4} {s p : State} {c : Ctx} {b : Nat} {m : Matrix}

theorem mscale_under (hfits : ScaleFits p c m id ma mb) : ∃ k, exec (.mscale id ma mb) s = s.matWord (.mscale id ma mb) 0xA3 k ∧
    k c p m = p.underLocks c [(m.reg mb.toNat, m.reg mb.toNat + 64 * m.reg (mb.toNat + 2)),
      (m.reg (mb.toNat + 1), m.reg (mb.toNat + 1) + 64 * (32 * id.toNat))] false fun u _ =>
        scaleUnder c m ma (m.reg (mb.toNat + 2)) (32 * id.toNat) (m.reg mb.toNat) (m.reg (mb.toNat + 1)) u := by
  obtain ⟨hlo, hhi, ha, hb, hrows, hscrA, hscrB, haccA, haccB⟩ := hfits
  refine ⟨_, show _ = execMscale id ma mb s from rfl, ?_⟩
  dsimp only
  rw [if_neg (by simp; omega), if_neg (by simp [ha, hb]), if_neg hrows, if_neg (by simp [hscrA, hscrB, haccA, haccB])]
  rfl

theorem mscale_holds (h : AtWord s (.mscale id ma mb) 0xA3 c b m) (hp : p = paid s c (.mscale id ma mb)) (hfits : ScaleFits p c m id ma mb)
    (hnone : streamLocks p c = []) (hroom : (p.core (p.bcore c)).locks.length + 2 ≤ 32) :
    Runs (.mscale id ma mb) s (locked p c [(m.reg mb.toNat, m.reg mb.toNat + 64 * m.reg (mb.toNat + 2)),
      (m.reg (mb.toNat + 1), m.reg (mb.toNat + 1) + 64 * (32 * id.toNat))] false) := by
  subst hp
  obtain ⟨k, hexec, hk⟩ := mscale_under (s := s) hfits
  exact h.runs_of_wait hexec (hk.trans (underLocks_holds hnone hroom))

theorem mscale_runs (h : AtWord s (.mscale id ma mb) 0xA3 c b m) (hp : p = paid s c (.mscale id ma mb)) (hstat : NoStat p)
    (hfits : ScaleFits p c m id ma mb) (hheld : streamLocks p c ≠ []) {q q2 : State} {as bs : List Byte}
    (hreadA : (freed p c).matRead c (m.reg mb.toNat) (64 * m.reg (mb.toNat + 2)) = .ok (q, as))
    (hreadB : q.matRead c (m.reg (mb.toNat + 1)) (64 * (32 * id.toNat)) = .ok (q2, bs)) :
    ∃ t y, Runs (.mscale id ma mb) s t ∧ t.mat c = some y ∧ t.mem = p.mem ∧
      y.acc = (scaled m ma (m.reg (mb.toNat + 2)) (32 * id.toNat) as bs).1.acc := by
  subst hp
  obtain ⟨k, hexec, hk⟩ := mscale_under (s := s) hfits
  obtain ⟨l, rest, hl⟩ := List.exists_cons_of_ne_nil hheld
  obtain ⟨t, hdone, hmat, hmem⟩ := scaleUnder_done (ma := ma) h.party ((mat_freed h.party _).trans h.stream)
    (noStat_of_offCores (offCores_freed _) hstat) hreadA hreadB
  have hruns := h.runs hexec (hk.trans ((underLocks_moves hl).trans hdone))
  exact ⟨_, _, hruns, mat_updMat_some h.party t hmat _,
    (mem_of_offCores (offCores_updMat ..)).trans (hmem.trans (mem_of_offCores (offCores_freed _))), rfl⟩

end

/-! MDRAIN -/

/-- What a block holds in its scratch, and how much of it there is. -/
def contents (x : Block) : Tbl Byte × Nat := (x.scratch.bytes, x.scratch.size)

/-- Contents once bytes are stored at an address; those beyond the size are left out. -/
def storeIn (x : Tbl Byte × Nat) (a : Nat) (bs : List Byte) : Tbl Byte × Nat := (Tbl.setList 0 x.1 a (bs.take (x.2 - a)), x.2)

theorem contents_scrStore (s : State) (d e : Nat) (w : Who) (p : Path) (a : Nat) (bs : List Byte) :
    ((s.scrStore d e w p a bs).block d e).map contents = ((s.block d e).map contents).map (storeIn · a bs) := by
  rw [State.scrStore, block_updBlock, Option.map_map, Option.map_map]
  rfl

/-- The stores of elements 0 to count − 1, element k at its place (07 R132). -/
def drained (d e : Nat) (w : Who) (place : Nat → Nat) (bs : Nat → List Byte) (count : Nat) (u : State) : State :=
  (List.range count).foldl (fun q k => q.scrStore d e w .ewr (place k) (bs k)) u

section
variable (d e : Nat) (w : Who) (place : Nat → Nat) (bs : Nat → List Byte) (count : Nat) (u : State)

theorem offCores_drained : offCores (drained d e w place bs count u) = offCores u :=
  foldl_keeps offCores (f := fun q k => q.scrStore d e w .ewr (place k) (bs k)) (fun _ _ => offCores_updBlock ..) _ u

theorem block_part_drained {γ : Type} (g : Block → γ) (hg : ∀ x y, g { x with scratch := y } = g x) :
    ((drained d e w place bs count u).block d e).map g = (u.block d e).map g :=
  foldl_keeps (fun s : State => (s.block d e).map g) (f := fun q k => q.scrStore d e w .ewr (place k) (bs k))
    (fun s _ => block_part_updBlock g (fun x => hg x _) s d e d e) _ u

/-- What scratch holds after the stores is a matter of what it held. -/
theorem contents_drained {u v : State} (h : (v.block d e).map contents = (u.block d e).map contents) :
    ((drained d e w place bs count v).block d e).map contents = ((drained d e w place bs count u).block d e).map contents := by
  have hfold : ∀ s, ((drained d e w place bs count s).block d e).map contents =
      (List.range count).foldl (fun x k => x.map (storeIn · (place k) (bs k))) ((s.block d e).map contents) := fun s =>
    (List.foldl_hom (fun s : State => (s.block d e).map contents) fun s k => (contents_scrStore s d e w .ewr (place k) (bs k)).symm).symm
  rw [hfold, hfold, h]

end

/-- The draws of the engine's generator that SR takes (06 R105). -/
def drawn (rm : Rm) (count : Nat) (c : Ctx) (u : State) : State :=
  if rm = .sr then u.updB c fun b => { b with msrseed := srAfter count b.msrseed } else u

theorem offCores_drawn (rm : Rm) (count : Nat) (c : Ctx) (u : State) : offCores (drawn rm count c u) = offCores u := by
  unfold drawn
  split
  · exact offCores_updBlock ..
  · rfl

theorem block_part_drawn {γ : Type} (g : Block → γ) (hg : ∀ x y, g { x with msrseed := y } = g x) (rm : Rm) (count : Nat) (c : Ctx) (u : State)
    (d e : Nat) : ((drawn rm count c u).block d e).map g = (u.block d e).map g := by
  unfold drawn
  split
  · exact block_part_updBlock g (fun x => hg x _) u _ _ d e
  · rfl

theorem msrseed_drawn (rm : Rm) (count : Nat) {c : Ctx} {b : Nat} (hc : c.who.party = .matrix b) (u : State) :
    ((drawn rm count c u).block c.who.core b).map (·.msrseed) =
      (u.block c.who.core b).map fun x => if rm = .sr then srAfter count x.msrseed else x.msrseed := by
  unfold drawn
  split
  · rw [State.updB, bcore_eq hc, bslot_eq hc, block_updBlock, Option.map_map]
    rfl
  · rfl

/-- What MDRAIN does under its range lock: elem k is the value of element k, which goes to its place. -/
def drainUnder (c : Ctx) (rm : Rm) (place : Nat → Nat) (z : Nat) (elem : Nat → Elem) (count : Nat) (u : State) : Res :=
  let (u, due) := (drawn rm count c (drained (u.bcore c) (u.bslot c) c.who place (fun k => bytesOf z (elem k).bits) count u)).matEvents c
    ((List.range count).flatMap fun k => (elem k).ev)
  matDone u due

/-- A drain under its lock stores every element, takes its draws, and changes nothing else but statistics. -/
theorem drainUnder_done {c : Ctx} {b : Nat} {rm : Rm} {place : Nat → Nat} {z : Nat} {elem : Nat → Elem} {count : Nat} {u : State}
    (hc : c.who.party = .matrix b) (hstat : NoStat u) :
    ∃ t, drainUnder c rm place z elem count u = .done t .go ∧ t.mem = u.mem ∧ t.mat c = u.mat c ∧
      (t.block c.who.core b).map contents =
        ((drained c.who.core b c.who place (fun k => bytesOf z (elem k).bits) count u).block c.who.core b).map contents ∧
      (t.block c.who.core b).map (·.msrseed) = (u.block c.who.core b).map fun x => if rm = .sr then srAfter count x.msrseed else x.msrseed := by
  obtain ⟨v, hv⟩ : ∃ v, v = drained c.who.core b c.who place (fun k => bytesOf z (elem k).bits) count u := ⟨_, rfl⟩
  have hkeep : ∀ {γ : Type} (g : Block → γ), (∀ x y, g { x with scratch := y } = g x) →
      (v.block c.who.core b).map g = (u.block c.who.core b).map g := fun g hg => hv ▸ block_part_drained _ _ _ _ _ _ _ g hg
  have hoff : offCores (drawn rm count c v) = offCores u := by rw [offCores_drawn, hv, offCores_drained]
  obtain ⟨t, hevents, hrec⟩ := matEvents_quiet (noStat_of_offCores hoff hstat) c ((List.range count).flatMap fun k => (elem k).ev)
  refine ⟨t, ?_, hrec.mem.trans (mem_of_offCores hoff), ?_, ?_, ?_⟩
  · simp only [drainUnder, bcore_eq hc, bslot_eq hc, ← hv, hevents, matDone]
  · rw [mat_of_recounted hrec hc, mat_congr hc (block_part_drawn _ (fun _ _ => rfl) ..), mat_congr hc (hkeep _ fun _ _ => rfl)]
  · rw [block_of_cores hrec.cores, block_part_drawn _ fun _ _ => rfl, hv]
  · rw [block_of_cores hrec.cores, msrseed_drawn _ _ hc]
    exact hkeep (fun x => if rm = .sr then srAfter count x.msrseed else x.msrseed) fun _ _ => rfl

section
variable {fa : Fmt} {id : BitVec 8} {ma mb : BitVec 4} {rm : Rm} {ov : Ov} {s p : State} {c : Ctx} {b : Nat} {m : Matrix} {acc : AccFmt}

/-- The format, the shape and the alignment of an MDRAIN (07 R132). -/
structure DrainForm (fa : Fmt) (acc : AccFmt) (id : BitVec 8) (ma : BitVec 4) (m : Matrix) : Prop where
  source : drainFrom fa = some acc
  lo : 1 ≤ id.toNat
  hi : id.toNat ≤ 40
  offset : m.reg (ma.toNat + 2) % (fmtBits fa / 8) = 0
  stride : m.reg (ma.toNat + 3) % (fmtBits fa / 8) = 0

theorem mdrain_zero_gives (h : AtWord s (.mdrain fa id ma mb rm ov) 0xA5 c b m) (hp : p = paid s c (.mdrain fa id ma mb rm ov))
    (hform : DrainForm fa acc id ma m) (hn : m.reg mb.toNat = 0) : Gives s c (.mdrain fa id ma mb rm ov) p := by
  subst hp
  obtain ⟨hfrom, hlo, hhi, hoffset, hstride⟩ := hform
  refine h.gives (show _ = execMdrain fa id ma mb rm ov s from rfl) ?_
  dsimp only
  rw [hfrom]
  dsimp only
  rw [if_neg (by simp; omega), if_neg (by simp [hoffset, hstride]), if_pos hn]

/-- What MDRAIN finds before it moves a byte: its elements lie where they may, none is poisoned and none traps (07 R132). -/
structure DrainClean (p : State) (c : Ctx) (m : Matrix) (fa : Fmt) (acc : AccFmt) (id : BitVec 8) (ma mb : BitVec 4) (rm : Rm) (ov : Ov) : Prop where
  form : DrainForm fa acc id ma m
  rows : m.reg mb.toNat ≠ 0
  source : accFits acc (m.reg ma.toNat) (m.reg (ma.toNat + 1)) (m.reg mb.toNat) (32 * id.toNat) acc.words = true
  dest : p.scrFits c (m.reg (ma.toNat + 2) + (m.reg mb.toNat - 1) * m.reg (ma.toNat + 3) + 32 * id.toNat * (fmtBits fa / 8)) = true
  clean : ∀ k, k < m.reg mb.toNat * (32 * id.toNat) → m.accBadAt acc (Statistics.drainPlace m ma (32 * id.toNat) acc k) = none
  fits : ∀ k, k < m.reg mb.toNat * (32 * id.toNat) → (Statistics.drainElem m ma (32 * id.toNat) acc fa rm ov c.blk.msrseed k).trap = false

/-- Where element k of a drain goes in scratch (07 R132). -/
def drainTo (m : Matrix) (ma : BitVec 4) (cols z k : Nat) : Nat := m.reg (ma.toNat + 2) + k / cols * m.reg (ma.toNat + 3) + k % cols * z

/-- The scratch that a drain writes (07 R132). -/
def drainRange (m : Matrix) (fa : Fmt) (id : BitVec 8) (ma mb : BitVec 4) : Nat × Nat :=
  (m.reg (ma.toNat + 2), m.reg (ma.toNat + 2) + (m.reg mb.toNat - 1) * m.reg (ma.toNat + 3) + 32 * id.toNat * (fmtBits fa / 8))

theorem mdrain_under (hc : c.who.party = .matrix b) (hclean : DrainClean p c m fa acc id ma mb rm ov) :
    ∃ k, exec (.mdrain fa id ma mb rm ov) s = s.matWord (.mdrain fa id ma mb rm ov) 0xA5 k ∧
      k c p m = p.underLocks c [drainRange m fa id ma mb] true fun u _ =>
        drainUnder c rm (drainTo m ma (32 * id.toNat) (fmtBits fa / 8)) (fmtBits fa / 8)
          (Statistics.drainElem m ma (32 * id.toNat) acc fa rm ov c.blk.msrseed) (m.reg mb.toNat * (32 * id.toNat)) u := by
  obtain ⟨⟨hfrom, hlo, hhi, hoffset, hstride⟩, hrows, hacc, hscr, hbad, htrap⟩ := hclean
  have hnone : (List.range (m.reg mb.toNat * (32 * id.toNat))).filterMap
      (fun k => m.accBadAt acc (Statistics.drainPlace m ma (32 * id.toNat) acc k)) = [] :=
    List.filterMap_eq_nil_iff.mpr fun k hk => hbad k (List.mem_range.mp hk)
  have hquiet : ((List.range (m.reg mb.toNat * (32 * id.toNat))).map fun k =>
      (k, Statistics.drainElem m ma (32 * id.toNat) acc fa rm ov c.blk.msrseed k)).filter (·.2.trap) = [] := by
    rw [List.filter_eq_nil_iff]
    intro x hx
    obtain ⟨k, hk, rfl⟩ := List.mem_map.mp hx
    simp [htrap k (List.mem_range.mp hk)]
  refine ⟨_, show _ = execMdrain fa id ma mb rm ov s from rfl, ?_⟩
  unfold Statistics.drainPlace at hnone
  unfold Statistics.drainElem Statistics.drainPlace at hquiet
  dsimp only
  rw [hfrom]
  dsimp only
  rw [if_neg (by simp; omega), if_neg (by simp [hoffset, hstride]), if_neg hrows, if_neg (by simp [hacc, hscr])]
  simp only [Nat.add_zero, hnone, hquiet, List.foldl_nil]
  refine congrArg (p.underLocks c [drainRange m fa id ma mb] true) (funext fun u => funext fun _ => ?_)
  simp only [List.foldl_map, List.flatMap_map, bcore_eq hc, bslot_eq hc]
  unfold drainUnder
  simp only [bcore_eq hc, bslot_eq hc]
  rfl

theorem mdrain_holds (h : AtWord s (.mdrain fa id ma mb rm ov) 0xA5 c b m) (hp : p = paid s c (.mdrain fa id ma mb rm ov))
    (hclean : DrainClean p c m fa acc id ma mb rm ov) (hnone : streamLocks p c = []) (hroom : (p.core (p.bcore c)).locks.length + 1 ≤ 32) :
    Runs (.mdrain fa id ma mb rm ov) s (locked p c [drainRange m fa id ma mb] true) := by
  subst hp
  obtain ⟨k, hexec, hk⟩ := mdrain_under (s := s) h.party hclean
  exact h.runs_of_wait hexec (hk.trans (underLocks_holds hnone hroom))

/-- The block that a word's party belongs to. -/
theorem blockOf_ctx {s : State} {w : Who} {g : Guard} (h : s.ctx w g = some c) : s.blockOf w = some c.blk := by
  unfold State.ctx at h
  split at h
  · cases h
  · rename_i y hy
    split at h
    · cases h
    · rw [hy, ← Option.some.inj h]

theorem AtWord.block {i : Instr} {op : Nat} (h : AtWord s i op c b m) : (paid s c i).block c.who.core b = some c.blk := by
  have hblock := blockOf_ctx h.issues.ready.sees
  rw [← ctx_who h.issues.ready.sees, blockOf_eq h.party] at hblock
  rw [h.paid_eq, block_tick, hblock]

theorem mdrain_runs (h : AtWord s (.mdrain fa id ma mb rm ov) 0xA5 c b m) (hp : p = paid s c (.mdrain fa id ma mb rm ov)) (hstat : NoStat p)
    (hclean : DrainClean p c m fa acc id ma mb rm ov) (hheld : streamLocks p c ≠ [])
    {count : Nat} (hcount : count = m.reg mb.toNat * (32 * id.toNat)) :
    ∃ t, Runs (.mdrain fa id ma mb rm ov) s t ∧ t.mem = p.mem ∧ (t.mat c).map (·.acc) = some m.acc ∧
      (t.block (p.bcore c) (p.bslot c)).map (·.scratch.bytes) =
        ((drained (p.bcore c) (p.bslot c) c.who (drainTo m ma (32 * id.toNat) (fmtBits fa / 8)) (fun k => bytesOf (fmtBits fa / 8)
          (Statistics.drainElem m ma (32 * id.toNat) acc fa rm ov c.blk.msrseed k).bits) count p).block (p.bcore c) (p.bslot c)).map (·.scratch.bytes) ∧
      (t.block (p.bcore c) (p.bslot c)).map (·.msrseed) = some (if rm = .sr then srAfter count c.blk.msrseed else c.blk.msrseed) := by
  subst hp hcount
  obtain ⟨k, hexec, hk⟩ := mdrain_under (s := s) h.party hclean
  obtain ⟨l, rest, hl⟩ := List.exists_cons_of_ne_nil hheld
  obtain ⟨t, hdone, hmem, hmat, hcontents, hseed⟩ := drainUnder_done (u := freed (paid s c (.mdrain fa id ma mb rm ov)) c) (rm := rm)
    (place := drainTo m ma (32 * id.toNat) (fmtBits fa / 8)) (z := fmtBits fa / 8) (count := m.reg mb.toNat * (32 * id.toNat))
    (elem := Statistics.drainElem m ma (32 * id.toNat) acc fa rm ov c.blk.msrseed) h.party (noStat_of_offCores (offCores_freed _) hstat)
  have hruns := h.runs hexec (hk.trans ((underLocks_moves hl).trans hdone))
  rw [bcore_eq h.party, bslot_eq h.party]
  refine ⟨_, hruns, (mem_of_offCores (offCores_updMat ..)).trans (hmem.trans (mem_of_offCores (offCores_freed _))), ?_, ?_, ?_⟩
  · rw [mat_updMat h.party, hmat, mat_freed h.party, h.stream]
    rfl
  · have hbytes := congrArg (Option.map Prod.fst)
      (hcontents.trans (contents_drained _ _ _ _ _ _ (congrArg (Option.map contents) (block_freed _ _ _))))
    rw [Option.map_map, Option.map_map] at hbytes
    rw [block_part_updMat _ _ _ _ fun _ _ => rfl]
    exact hbytes
  · rw [block_part_updMat _ _ _ _ fun _ _ => rfl, hseed, block_freed, h.block]
    rfl

end

/-! The engine's steps -/

/-- A request of an engine. -/
def byEngine (x : Wide) : Bool := match x.who.party with | .matrix _ => true | _ => false

theorem matrixStepStart_pays {s : State} {core : Nat} {x : Wide} (hfind : (s.core core).tokens.wide.find? byEngine = some x)
    (hcap : 1000 ≤ s.cap core) : Runs (.matrixStepStart core) s (s.tick.payOne core x) := by
  have hfind' : (s.tick.core core).tokens.wide.find? byEngine = some x := hfind
  show execMatrixStepStart core s = _
  unfold execMatrixStepStart
  dsimp only
  split
  · rename_i hnone
    exact nomatch hfind'.symm.trans hnone
  · rename_i y hy
    obtain rfl : x = y := Option.some.inj (hfind'.symm.trans hy)
    exact if_neg (Nat.not_lt.mpr hcap)

end Sys2Proof.Stream
end

section
/-! SUPPORT. The words of the matrix stream: the statement. -/

namespace Sys2Proof.Stream

open Sys2Proof Sys2Proof.Machine Sys2Proof.Safety Sys2Proof.Laws Sys2Proof.Accumulators

/-- Settles O53: each word from the lemmas that say what it does where the stream stands at it. -/
theorem matrixWords : Obligations.MatrixWords := by
  unfold Obligations.MatrixWords
  intro on locks freed_ holds put
  have word : ∀ {s c i op m}, 0xA0 ≤ op → op ≤ 0xAA → on s c i op m → ∃ b, AtWord s i op c b m :=
    fun hlo hhi ⟨hissues, hm, hstop⟩ => atWord_of_issues hissues hlo hhi hm hstop
  refine ⟨?mset, ?mloop, ?mzero, ?mend, ?msigBcb, ?msigRing, ?msigBar, ?mwaitBcb, ?mwaitRing, ?mwaitBar, ?mldb, ?mldbSlot, ?mmul, ?mscale, ?mdrain,
    ?step⟩
  case mset =>
    intro ma imm s c m i hon
    obtain ⟨b, h⟩ := word (by decide) (by decide) hon
    exact mset_gives h
  case mloop =>
    intro ma off s c m i v hon
    obtain ⟨b, h⟩ := word (by decide) (by decide) hon
    exact mloop_runs h rfl
  case mzero =>
    intro ma mb s c m i a n hon
    obtain ⟨b, h⟩ := word (by decide) (by decide) hon
    exact ⟨fun hn => mzero_gives h hn, fun hn hfits => mzero_runs h rfl rfl hn hfits⟩
  case mend =>
    intro s c m hon
    obtain ⟨b, h⟩ := word (by decide) (by decide) hon
    exact mend_runs h
  case msigBcb =>
    intro id ma s c m i p x hon hplace hsettled
    obtain ⟨b, h⟩ := word (by decide) (by decide) hon
    exact ⟨fun herr => msig_bcb_gives_of_err h rfl hplace hsettled herr,
      fun herr hremn => msig_bcb_gives_arrival h rfl hplace hsettled rfl herr hremn⟩
  case msigRing =>
    intro id ma s c m r i p hon
    obtain ⟨b, h⟩ := word (by decide) (by decide) hon
    exact ⟨fun hzero => msig_ring_zero_gives h hzero, fun hpos hr hheld => msig_ring_gives h rfl hpos hr hheld⟩
  case msigBar =>
    intro id ma s c m x i p e hon hsettled hid hlo hhi hx hok
    obtain ⟨b, h⟩ := word (by decide) (by decide) hon
    exact msig_bar_gives h rfl hsettled hid hlo hhi hx hok
  case mwaitBcb =>
    intro id ma s c m i p x hon heven hplace herr hphase
    obtain ⟨b, h⟩ := word (by decide) (by decide) hon
    exact mwait_bcb_gives h rfl heven hplace herr hphase
  case mwaitRing =>
    intro id ma s c m r i p hon hholds
    obtain ⟨b, h⟩ := word (by decide) (by decide) hon
    exact mwait_ring_gives h rfl hholds
  case mwaitBar =>
    intro id ma s c m x i p e hon harr hsettled hid hlo hhi hx hok hfull hsound
    obtain ⟨b, h⟩ := word (by decide) (by decide) hon
    exact mwait_bar_shares h rfl harr hsettled hid hlo hhi hx hok hfull hsound
  case mldb =>
    intro fb id ma mb s c m cols i p off stride n hon hcols hbase hstep hgroup hscr
    obtain ⟨b, h⟩ := word (by decide) (by decide) hon
    refine ⟨fun hnone hroom => mldb_holds hcols ⟨hbase, hstep, hgroup⟩ hscr h rfl hnone hroom, fun l rest q t hheld htile => ?_⟩
    exact mldb_gives hcols ⟨hbase, hstep, hgroup⟩ hscr h rfl hheld htile
  case mldbSlot =>
    intro fb id ma mb s c m cols i p n hon hcols hbase hstep hgroup
    obtain ⟨b, h⟩ := word (by decide) (by decide) hon
    have hfits : TileFits fb (m.reg ma.toNat) (m.reg mb.toNat) := ⟨hbase, hstep, hgroup⟩
    constructor
    · intro l rest q t hheld htile
      exact mldb_slot_gives h rfl hcols hfits hheld htile
    · intro r q k base hnone hroom hr herr hq hslot hscr
      obtain ⟨y, hy⟩ := tookTile_locked h.party h.stream (k := k) (q := q) hr hnone base (base + n)
      exact ⟨_, y, mldb_slot_takes h rfl hcols hfits rfl hnone hroom hr herr hq hslot hscr, hy⟩
  case mmul =>
    intro parts o s c m w r slot q bs i p pos hon hstat hpair hparts hr hstart hpaid hstands hnext hdue hlast htile hinside hread
    obtain ⟨b, h⟩ := word (by cases parts <;> decide) (by cases parts <;> decide) hon
    obtain ⟨tile, htile⟩ := Option.isSome_iff_exists.mp htile
    obtain ⟨t, y, hrest⟩ := mul_runs h rfl rfl hstat hpair hparts hr hstart
      ⟨h.stream, h.free, hpaid, hstands, hnext, hdue, hlast, hinside⟩ htile hread
    exact ⟨t, tile, y, htile, hrest⟩
  case mscale =>
    intro id ma mb s c m q as q2 bs i p g cols scale a b n hon hstat hlo hhi ha hb
    obtain ⟨slot, h⟩ := word (by decide) (by decide) hon
    refine ⟨fun hn => mscale_zero_gives h rfl hlo hhi ha hb hn, fun hn hscrA hscrB haccA haccB => ?_⟩
    have hfits : ScaleFits p c m id ma mb := ⟨hlo, hhi, ha, hb, hn, hscrA, hscrB, haccA, haccB⟩
    exact ⟨fun hnone hroom => mscale_holds h rfl hfits hnone hroom, fun hheld hreadA hreadB => mscale_runs h rfl hstat hfits hheld hreadA hreadB⟩
  case mdrain =>
    intro fa id ma mb rm ov s c m acc i p g n cols z elem hon hstat hfrom hlo hhi hoffset hstride
    obtain ⟨b, h⟩ := word (by decide) (by decide) hon
    have hform : DrainForm fa acc id ma m := ⟨hfrom, hlo, hhi, hoffset, hstride⟩
    refine ⟨fun hn => mdrain_zero_gives h rfl hform hn, fun hn hacc hscr helems => ?_⟩
    have hclean : DrainClean p c m fa acc id ma mb rm ov := ⟨hform, hn, hacc, hscr, fun k hk => (helems k hk).1, fun k hk => (helems k hk).2⟩
    exact ⟨fun hnone hroom => mdrain_holds h rfl hclean hnone hroom, fun hheld => mdrain_runs h rfl hstat hclean hheld rfl⟩
  case step =>
    intro s core x b _ hfind hcap
    exact matrixStepStart_pays hfind hcap

end Sys2Proof.Stream
end

section
/-! SUPPORT. THE BYTES OF MEMORY, through the parts of the model (08 R139): what state
operations, the walk, the atomics and the transport of memory keep.
An operation either leaves `cells` as they are (`cells_f`) or keeps them in canonical form (`canonical_f`, `f_keeps`). -/

namespace Sys2Proof.Canon

open Sys2Proof Sys2Proof.Machine Sys2Proof.Safety Sys2Proof.Laws

variable {α : Type}

/-- The bytes of memory and of the peers' memory. -/
def cells (s : State) : Tbl Byte × Tbl Byte := (s.mem.mem, s.mem.peer)

/-- Both are in canonical form. -/
def Canonical (c : Tbl Byte × Tbl Byte) : Prop := Tbl.wf 0 c.1 = true ∧ Tbl.wf 0 c.2 = true

theorem inv_iff (s : State) : Inv s ↔ Canonical (cells s) := Iff.rfl

theorem cells_congr {s t : State} (h : s.mem = t.mem) : cells s = cells t := by rw [cells, cells, h]

@[simp] theorem cells_mk (r m a b c d e f g h i j k l n o p q u v) : cells (State.mk r m a b c d e f g h i j k l n o p q u v) = (m.mem, m.peer) := by
  unfold cells; simp only []

@[simp] theorem cells_eta (s : State) : (s.mem.mem, s.mem.peer) = cells s := by unfold cells; simp only []

theorem Canonical.setMem {s : State} (h : Canonical (cells s)) (a : Nat) (l : List Byte) : Canonical (Tbl.setList 0 s.mem.mem a l, s.mem.peer) :=
  ⟨Tbl_wf_setList 0 l s.mem.mem a h.1, h.2⟩

theorem Canonical.setPeer {s : State} (h : Canonical (cells s)) (a : Nat) (l : List Byte) : Canonical (s.mem.mem, Tbl.setList 0 s.mem.peer a l) :=
  ⟨h.1, Tbl_wf_setList 0 l s.mem.peer a h.2⟩

@[simp] theorem cells_foldl {f : State → α → State} (h : ∀ s b, cells (f s b) = cells s) (l : List α) (s : State) :
    cells (l.foldl f s) = cells s := foldl_keeps cells h l s

@[simp] theorem canonical_foldl {f : State → α → State} (h : ∀ s b, Canonical (cells s) → Canonical (cells (f s b))) (l : List α) {s : State}
    (hs : Canonical (cells s)) : Canonical (cells (l.foldl f s)) := by
  induction l generalizing s with
  | nil => exact hs
  | cons b l ih => exact ih (h s b hs)

@[simp] theorem cells_ite (p : Prop) [Decidable p] (s t : State) : cells (if p then s else t) = if p then cells s else cells t := apply_ite ..

@[simp] theorem canonical_ite {p : Prop} [Decidable p] {x y : Tbl Byte × Tbl Byte} (hx : Canonical x) (hy : Canonical y) :
    Canonical (if p then x else y) := by split <;> assumption

@[simp] theorem cells_foldl_fst {β : Type} {f : State × β → α → State × β} (h : ∀ r b, cells (f r b).1 = cells r.1) (l : List α) (r : State × β) :
    cells (l.foldl f r).1 = cells r.1 := foldl_keeps (fun r => cells r.1) h l r

theorem canonical_foldl_fst {β : Type} {f : State × β → α → State × β} (h : ∀ r b, Canonical (cells r.1) → Canonical (cells (f r b).1)) (l : List α)
    {r : State × β} (hr : Canonical (cells r.1)) : Canonical (cells (l.foldl f r).1) := by
  induction l generalizing r with
  | nil => exact hr
  | cons b l ih => exact ih (h r b hr)

@[simp] theorem cells_setDie (s : State) d x : cells (s.setDie d x) = cells s := by simp [State.setDie]
@[simp] theorem cells_setCore (s : State) c k : cells (s.setCore c k) = cells s := by simp [State.setCore]
@[simp] theorem cells_updCore (s : State) c f : cells (s.updCore c f) = cells s := by simp [State.updCore]
@[simp] theorem cells_setCluster (s : State) c k : cells (s.setCluster c k) = cells s := by simp [State.setCluster]
@[simp] theorem cells_setRegion (s : State) r x : cells (s.setRegion r x) = cells s := by simp [State.setRegion]
@[simp] theorem cells_setQueue (s : State) q x : cells (s.setQueue q x) = cells s := by simp [State.setQueue]
@[simp] theorem cells_setRun (s : State) r x : cells (s.setRun r x) = cells s := by simp [State.setRun]

@[simp] theorem cells_setWarp (s : State) w x : cells (s.setWarp w x) = cells s := by
  unfold State.setWarp
  (repeat' split) <;> simp

@[simp] theorem cells_updWarp (s : State) w f : cells (s.updWarp w f) = cells s := by
  unfold State.updWarp
  (repeat' split) <;> simp

@[simp] theorem cells_setBlock (s : State) core b x : cells (s.setBlock core b x) = cells s := by simp [State.setBlock]

@[simp] theorem cells_updBlock (s : State) core b f : cells (s.updBlock core b f) = cells s := by
  unfold State.updBlock
  (repeat' split) <;> simp

@[simp] theorem cells_updFront (s : State) core b f : cells (s.updFront core b f) = cells s := by simp [State.updFront]
@[simp] theorem cells_updMatrix (s : State) core b f : cells (s.updMatrix core b f) = cells s := by simp [State.updMatrix]

@[simp] theorem cells_updFlight (s : State) w f : cells (s.updFlight w f) = cells s := by
  unfold State.updFlight
  (repeat' split) <;> simp

@[simp] theorem cells_tick (s : State) : cells (s.tick) = cells s := by simp [State.tick]

@[simp] theorem setView_bytes (m : MemState) (d : Nat) (t) : (m.setView d t).mem = m.mem ∧ (m.setView d t).peer = m.peer := by
  unfold MemState.setView; split <;> exact ⟨rfl, rfl⟩

@[simp] theorem setGuests_bytes (m : MemState) (d : Nat) (l) : (m.setGuests d l).mem = m.mem ∧ (m.setGuests d l).peer = m.peer := by
  unfold MemState.setGuests; dsimp only; split <;> exact ⟨rfl, rfl⟩

@[simp] theorem peer_setGbad (m : MemState) (d : Nat) (t : Tbl Bool) : (m.setGbad d t).peer = m.peer := by unfold MemState.setGbad; split <;> rfl

@[simp] theorem peer_healGuest (m : MemState) (d a n : Nat) : (m.healGuest d a n).peer = m.peer := peer_setGbad ..

@[simp] theorem setViews_bytes (m : MemState) (d a n : Nat) (f) : (m.setViews d a n f).mem = m.mem ∧ (m.setViews d a n f).peer = m.peer :=
  setView_bytes ..

@[simp] theorem freshen_bytes (m : MemState) (d a n : Nat) : (m.freshen d a n).mem = m.mem ∧ (m.freshen d a n).peer = m.peer := setViews_bytes ..

@[simp] theorem dropGuest_bytes (m : MemState) (d a n : Nat) : (m.dropGuest d a n).mem = m.mem ∧ (m.dropGuest d a n).peer = m.peer :=
  setGuests_bytes ..

@[simp] theorem capGuests_bytes (m : MemState) (d : Nat) : (m.capGuests d).mem = m.mem ∧ (m.capGuests d).peer = m.peer := by
  unfold MemState.capGuests
  exact ⟨(foldl_keeps MemState.mem (by simp) _ _).trans (by simp), (foldl_keeps MemState.peer (by simp) _ _).trans (by simp)⟩

@[simp] theorem addGuests_bytes (m : MemState) (d a n : Nat) : (m.addGuests d a n).mem = m.mem ∧ (m.addGuests d a n).peer = m.peer := by
  simp [MemState.addGuests]

theorem fixSector_bytes (s : State) (a n k : Nat) : (s.fixSector a n k).mem.peer = s.mem.peer ∧
    ((s.fixSector a n k).mem.mem = s.mem.mem ∨ (s.fixSector a n k).mem.mem = Tbl.setList 0 s.mem.mem (32 * k) (List.replicate 32 0)) := by
  unfold State.fixSector
  generalize List.replicate 32 (0 : Byte) = z
  dsimp only
  split <;> split <;> simp

@[simp] theorem canonical_fixSector {s : State} (h : Canonical (cells s)) (a n k : Nat) : Canonical (cells (s.fixSector a n k)) := by
  obtain ⟨hp, hm | hm⟩ := fixSector_bytes s a n k <;> rw [cells, hp, hm]
  · exact h
  · exact h.setMem _ _

@[simp] theorem canonical_fixSectors {s : State} (h : Canonical (cells s)) (a n : Nat) : Canonical (cells (s.fixSectors a n)) :=
  canonical_foldl (fun _ k hs => canonical_fixSector hs a n k) _ h

@[simp] theorem cells_see (s0 : State) who p all now a n (s : State) : cells (State.see s0 who p all now a n s) = cells s := by simp [State.see]
@[simp] theorem cells_evictPref (s : State) core : cells (s.evictPref core) = cells s := by simp [State.evictPref]
@[simp] theorem cells_demandAll (s : State) core a n : cells (s.demandAll core a n) = cells s := by simp [State.demandAll]
@[simp] theorem cells_afterLoad (s : State) core byp a n : cells (s.afterLoad core byp a n) = cells s := by simp [State.afterLoad]
@[simp] theorem cells_dropL1 (s : State) core : cells (s.dropL1 core) = cells s := by simp [State.dropL1]
@[simp] theorem cells_leaveL1 (s : State) core a n : cells (s.leaveL1 core a n) = cells s := by simp [State.leaveL1]
@[simp] theorem cells_noteL1 (s : State) d ex a n : cells (s.noteL1 d ex a n) = cells s := by simp [State.noteL1]
@[simp] theorem cells_notePaths (s : State) who p a bs : cells (s.notePaths who p a bs) = cells s := by simp [State.notePaths]

@[simp] theorem canonical_homeStore {s : State} (h : Canonical (cells s)) (core a : Nat) (bs : List Byte) :
    Canonical (cells (s.homeStore core a bs)) := by
  unfold State.homeStore
  rw [cells_mk]
  exact Canonical.setMem (by simp [h]) a bs

@[simp] theorem cells_invalidateGuest (s : State) who region d a va n age : cells (s.invalidateGuest who region d a va n age) = cells s := by
  simp [State.invalidateGuest]

@[simp] theorem canonical_efStore {s : State} (h : Canonical (cells s)) who p region home a va age bs :
    Canonical (cells (s.efStore who p region home a va age bs)) := by
  simp [State.efStore, h]

@[simp] theorem canonical_gaStore {s : State} (h : Canonical (cells s)) core a bs : Canonical (cells (s.gaStore core a bs)) := by
  simp [State.gaStore, h]

@[simp] theorem canonical_homeRmw {s : State} (h : Canonical (cells s)) who p region a va age ga bs :
    Canonical (cells (s.homeRmw who p region a va age ga bs)) := by
  simp [State.homeRmw, h]

@[simp] theorem cells_readHome (s : State) d home a n : cells (s.readHome d home a n) = cells s := by simp [State.readHome]
@[simp] theorem cells_dropMsg (s : State) i : cells (s.dropMsg i) = cells s := by simp [State.dropMsg]
@[simp] theorem canonical_efArrive {s : State} (h : Canonical (cells s)) i m : Canonical (cells (s.efArrive i m)) := by simp [State.efArrive, h]
@[simp] theorem cells_invalArrive (s : State) i m : cells (s.invalArrive i m) = cells s := by simp [State.invalArrive]
@[simp] theorem cells_poisonLines (s : State) a n : cells (s.poisonLines a n) = cells s := by simp [State.poisonLines]
@[simp] theorem cells_addGuest (s : State) d home a n : cells (s.addGuest d home a n) = cells s := by simp [State.addGuest]

@[simp] theorem cells_tlbFill (s : State) core asid va : cells (s.tlbFill core asid va) = cells s := by
  unfold State.tlbFill
  (repeat' split) <;> simp

@[simp] theorem cells_tlbDrop (s : State) p : cells (s.tlbDrop p) = cells s := by simp [State.tlbDrop]
@[simp] theorem cells_tlbDropCore (s : State) core p : cells (s.tlbDropCore core p) = cells s := by simp [State.tlbDropCore]
@[simp] theorem cells_raise (s : State) vector region : cells (s.raise vector region) = cells s := by simp [State.raise]

@[simp] theorem canonical_post {s : State} (h : Canonical (cells s)) region r : Canonical (cells (s.post region r)) := by
  unfold State.post
  (repeat' split) <;> simp [h]

@[simp] theorem canonical_postDevice {s : State} (h : Canonical (cells s)) src cause addr pc card slot core region :
    Canonical (cells (s.postDevice src cause addr pc card slot core region)) := by
  simp [State.postDevice, h]

@[simp] theorem canonical_takeTrapAt {s : State} (h : Canonical (cells s)) w at_ pc next t : Canonical (cells (s.takeTrapAt w at_ pc next t)) := by
  unfold State.takeTrapAt
  (repeat' split) <;> simp [h]

@[simp] theorem canonical_takeTrap {s : State} (h : Canonical (cells s)) w pc next t : Canonical (cells (s.takeTrap w pc next t)) := by
  simp [State.takeTrap, h]

@[simp] theorem cells_unpark (s : State) w info resume : cells (s.unpark w info resume) = cells s := by
  unfold State.unpark
  (repeat' split) <;> simp

@[simp] theorem cells_poolTake (s : State) core own k : cells (s.poolTake core own k) = cells s := by simp [State.poolTake]
@[simp] theorem cells_poolGive (s : State) core own k : cells (s.poolGive core own k) = cells s := by simp [State.poolGive]

@[simp] theorem cells_countIn (s : State) (r : Nat) (e : Ev) : cells (s.countIn r e).1 = cells s := cells_congr rfl

@[simp] theorem canonical_countEvent {s : State} (h : Canonical (cells s)) (w b pc lane e) : Canonical (cells (s.countEvent w b pc lane e).1) := by
  refine canonical_foldl_fst (fun r q hr => ?_) _ h
  have hc : Canonical (cells (r.1.countIn q e).1) := by simpa using hr
  dsimp only
  split
  · exact canonical_post hc ..
  · exact hc

@[simp] theorem canonical_countEvents {s : State} (h : Canonical (cells s)) (w b pc evs) : Canonical (cells (s.countEvents w b pc evs).1) := by
  refine canonical_foldl_fst (fun r q hr => ?_) _ h
  exact canonical_countEvent hr ..

@[simp] theorem cells_clearStat (s : State) r i : cells (s.clearStat r i) = cells s := by simp [State.clearStat]

@[simp] theorem canonical_trace {s : State} (h : Canonical (cells s)) r kind data0 data1 : Canonical (cells (s.trace r kind data0 data1)) := by
  unfold State.trace
  dsimp only
  (repeat' split) <;> simp [h]

@[simp] theorem cells_scrSee (s0 : State) core b who p a n (s : State) : cells (State.scrSee s0 core b who p a n s) = cells s := by
  simp [State.scrSee]

@[simp] theorem cells_scrStore (s : State) core b who p a bs : cells (s.scrStore core b who p a bs) = cells s := by simp [State.scrStore]
@[simp] theorem cells_acquire (s : State) who sc at_ : cells (s.acquire who sc at_) = cells s := by simp [State.acquire]
@[simp] theorem cells_release (s : State) who sc at_ : cells (s.release who sc at_) = cells s := by simp [State.release]

theorem cells_takeLost {s t : State} {w k n} (h : s.takeLost w k = some (t, n)) : cells t = cells s := by
  unfold State.takeLost at h
  dsimp only at h
  split at h
  · obtain ⟨e, -, rfl, -⟩ := by simpa using h
    simp
  · cases h

theorem cells_lostTrap {s t : State} {op k n} (h : s.lostTrap op k = some (t, n)) : cells t = cells s := by
  unfold State.lostTrap at h
  obtain ⟨⟨t', n'⟩, h1, h2⟩ := Option.map_eq_some_iff.1 h
  cases h2
  exact cells_takeLost h1

@[simp] theorem cells_seeHome (s0 : State) who p home a n (s : State) : cells (State.seeHome s0 who p home a n s) = cells s := by
  simp [State.seeHome]

@[simp] theorem cells_seeHere (s0 : State) who p all fresh a n (s : State) : cells (State.seeHere s0 who p all fresh a n s) = cells s := by
  simp [State.seeHere]

theorem cells_loadLane {s t : State} {op o n l bs} (h : s.loadLane op o n l = some (t, bs)) : cells t = cells s := by
  unfold State.loadLane at h
  dsimp only at h
  split at h
  · cases h; rfl
  · cases h
  · split at h
    · cases h
    · split at h
      · split at h
        · cases h
        · cases h; simp
      · cases h; simp

@[simp] theorem cells_seeLane (s0 : State) op o n l (s : State) : cells (State.seeLane s0 op o n l s) = cells s := by
  unfold State.seeLane
  (repeat' split) <;> simp

theorem cells_loadLanes {s0 : State} {op o n} (ls) {s t : State} {vs} (h : s0.loadLanes op o n ls s = some (t, vs)) : cells t = cells s := by
  induction ls generalizing t vs with
  | nil => cases h; rfl
  | cons e ls ih =>
    obtain ⟨k, l⟩ := e
    unfold State.loadLanes at h
    split at h
    · cases h
    · split at h
      · cases h
      · rename_i u us hu
        cases h
        split
        · rename_i hl; exact (cells_loadLane hl).trans (ih hu)
        · exact ih hu

@[simp] theorem cells_acquireAt (s : State) who sc scratch n as : cells (s.acquireAt who sc scratch n as) = cells s := by simp [State.acquireAt]
@[simp] theorem cells_releaseAt (s : State) who sc scratch n as : cells (s.releaseAt who sc scratch n as) = cells s := by simp [State.releaseAt]
@[simp] theorem cells_tlbFillAll (s : State) op asid ops : cells (s.tlbFillAll op asid ops) = cells s := by simp [State.tlbFillAll]

@[simp] theorem cells_ldsSee (s : State) (op n) : cells (s.ldsSee op n) = cells s := by
  refine cells_foldl (fun r k => ?_) _ _
  split <;> simp

@[simp] theorem cells_constSee (s0 : State) who l n (s : State) : cells (State.constSee s0 who l n s) = cells s := by simp [State.constSee]
@[simp] theorem cells_pushStores (s : State) w sb es : cells (s.pushStores w sb es) = cells s := by simp [State.pushStores]
@[simp] theorem cells_readStanding (s : State) who p home a n : cells (s.readStanding who p home a n) = cells s := by simp [State.readStanding]

@[simp] theorem canonical_atomLane {s : State} (h : Canonical (cells s)) (region who p a ga n phys va home age v c) :
    Canonical (cells (s.atomLane region who p a ga n phys va home age v c).1) := by
  unfold State.atomLane
  dsimp only
  split <;> simp [h]

@[simp] theorem canonical_atomLanes {s : State} (h : Canonical (cells s)) (b op o ls) : Canonical (cells (s.atomLanes b op o ls).1) := by
  unfold State.atomLanes
  refine canonical_foldl_fst (fun r q hr => ?_) _ h
  exact canonical_atomLane hr ..

@[simp] theorem cells_atomsLane (s : State) (core slot who a n off v c) : cells (s.atomsLane core slot who a n off v c).1 = cells s := by
  unfold State.atomsLane
  dsimp only
  split <;> simp

@[simp] theorem cells_discard (s : State) a n : cells (s.discard a n) = cells s := by simp [State.discard]
@[simp] theorem cells_holdRange (s : State) who asid lo len : cells (s.holdRange who asid lo len) = cells s := by simp [State.holdRange]

@[simp] theorem canonical_rewriteHome {s : State} (h : Canonical (cells s)) (l d) : Canonical (cells (s.rewriteHome l d)) :=
  canonical_foldl (fun _ _ hs => canonical_gaStore hs ..) _ h

@[simp] theorem canonical_rehome {s : State} (h : Canonical (cells s)) (who asid lo len hardware) :
    Canonical (cells (s.rehome who asid lo len hardware)) := by
  unfold State.rehome
  dsimp only
  rw [cells_tlbDrop]
  refine canonical_foldl (fun r q hr => ?_) _ (by simpa using h)
  split
  · exact canonical_rewriteHome (by simpa using hr) ..
  · simpa using hr

@[simp] theorem cells_arrive (s : State) who dst h vals : cells (s.arrive who dst h vals) = cells s := by
  unfold State.arrive
  (repeat' split) <;> simp

@[simp] theorem cells_settleMem (s : State) op counted f : cells (s.settleMem op counted f) = cells s := by
  unfold State.settleMem
  (repeat' split) <;> simp

@[simp] theorem cells_setLog (s : State) core ix e : cells (s.setLog core ix e) = cells s := by simp [State.setLog]

end Sys2Proof.Canon
end

section
/-! SUPPORT. The outcomes of one access to memory. -/

namespace Sys2Proof.Canon

open Sys2Proof Sys2Proof.Machine Sys2Proof.Safety Sys2Proof.Laws

/-- Every state that the outcome of a memory instruction holds is canonical. -/
def PerfKeeps : Perf → Prop
  | .ok s _ _ | .hold s | .trap s _ => Canonical (cells s)
  | .wait | .log _ _ => True

@[simp] theorem perfKeeps_ok (s f e) : PerfKeeps (.ok s f e) ↔ Canonical (cells s) := Iff.rfl

@[simp] theorem perfKeeps_hold (s) : PerfKeeps (.hold s) ↔ Canonical (cells s) := Iff.rfl

@[simp] theorem perfKeeps_trap (s t) : PerfKeeps (.trap s t) ↔ Canonical (cells s) := Iff.rfl

@[simp] theorem perfKeeps_wait : PerfKeeps .wait := trivial

@[simp] theorem perfKeeps_log (t l) : PerfKeeps (.log t l) := trivial

theorem lostTrap_keeps {s : State} (h : Canonical (cells s)) {op k t n} (ht : s.lostTrap op k = some (t, n)) : Canonical (cells t) :=
  cells_lostTrap ht ▸ h

@[simp] theorem queueWait_keeps {s : State} (h : Canonical (cells s)) (op k) : PerfKeeps (s.queueWait op k) := by
  unfold State.queueWait
  split
  · exact lostTrap_keeps h ‹_›
  · trivial

theorem releaseStop_keeps {s : State} (h : Canonical (cells s)) {op rel sc p} (hp : s.releaseStop op rel sc = some p) : PerfKeeps p := by
  unfold State.releaseStop at hp
  grind [lostTrap_keeps, PerfKeeps]

@[simp] theorem partWait_keeps {s : State} (h : Canonical (cells s)) op scratch n as : PerfKeeps (s.partWait op scratch n as) := by
  simp [State.partWait, h]

@[simp] theorem doLd_keeps {s : State} (h : Canonical (cells s)) (b op o) : PerfKeeps (s.doLd b op o) := by
  have hl {ls t vs} (ht : s.loadLanes op o o.size.bytes ls (s.tlbFillAll op b.dealt.asid op.ops) = some (t, vs)) : cells t = cells s := by
    simpa using cells_loadLanes ls ht
  unfold State.doLd
  dsimp only
  (repeat' split) <;> simp [h]
  all_goals rw [hl ‹_›]; exact h

@[simp] theorem doLds_keeps {s : State} (h : Canonical (cells s)) b op o : PerfKeeps (s.doLds b op o) := by
  unfold State.doLds
  dsimp only
  (repeat' split) <;> simp [h]

@[simp] theorem doLdc_keeps {s : State} (h : Canonical (cells s)) b op o : PerfKeeps (s.doLdc b op o) := by
  unfold State.doLdc
  dsimp only
  (repeat' split) <;> simp [h]

theorem queueStop_keeps {s : State} (h : Canonical (cells s)) {op p} (hp : s.queueStop op = some p) : PerfKeeps p := by
  unfold State.queueStop at hp
  grind [queueWait_keeps]

@[simp] theorem enterStores_keeps {s : State} (h : Canonical (cells s)) op sb es rel sc replay :
    PerfKeeps (s.enterStores op sb es rel sc replay) := by
  unfold State.enterStores
  dsimp only
  (repeat' split) <;> simp [h]

theorem begunStore_keeps {s : State} (h : Canonical (cells s)) {op p} (hp : s.begunStore op = some p) : PerfKeeps p := by
  unfold State.begunStore at hp
  grind [lostTrap_keeps, PerfKeeps, cells_updFlight]

theorem storeStop_keeps {s : State} (h : Canonical (cells s)) {op rel sc p} (hp : s.storeStop op rel sc = some p) : PerfKeeps p := by
  unfold State.storeStop at hp
  grind [releaseStop_keeps, queueStop_keeps]

@[simp] theorem doSt_keeps {s : State} (h : Canonical (cells s)) (b op o sb replay) : PerfKeeps (s.doSt b op o sb replay) := by
  unfold State.doSt
  grind [storeStop_keeps, PerfKeeps, enterStores_keeps, cells_tlbFillAll]

@[simp] theorem doSts_keeps {s : State} (h : Canonical (cells s)) (b op o replay) : PerfKeeps (s.doSts b op o replay) := by
  unfold State.doSts
  grind [storeStop_keeps, PerfKeeps, enterStores_keeps]

theorem atomChecks_keeps {s : State} (h : Canonical (cells s)) {b op o p} (hp : s.atomChecks b op o = .error p) : PerfKeeps p := by
  unfold State.atomChecks at hp
  grind [PerfKeeps]

theorem atomStop_keeps {s : State} (h : Canonical (cells s)) {op o ls p} (hp : s.atomStop op o ls = some p) : PerfKeeps p := by
  unfold State.atomStop at hp
  grind [releaseStop_keeps, queueWait_keeps, PerfKeeps]

@[simp] theorem doAtom_keeps {s : State} (h : Canonical (cells s)) (b op o) : PerfKeeps (s.doAtom b op o) := by
  unfold State.doAtom
  split
  · exact atomChecks_keeps h ‹_›
  · split
    · exact atomStop_keeps h ‹_›
    · simp [h]

@[simp] theorem doRed_keeps {s : State} (h : Canonical (cells s)) (b op o sb replay) : PerfKeeps (s.doRed b op o sb replay) := by
  unfold State.doRed
  split
  · exact atomChecks_keeps h ‹_›
  · dsimp only
    split
    · grind [atomStop_keeps, storeStop_keeps]
    · split <;> simp [h]

@[simp] theorem doAtoms_keeps {s : State} (h : Canonical (cells s)) (b op o) : PerfKeeps (s.doAtoms b op o) := by
  unfold State.doAtoms
  dsimp only
  split
  · exact h
  · split
    · exact releaseStop_keeps h ‹_›
    · split
      · simp [h]
      · simp [h]

@[simp] theorem doStmc_keeps {s : State} (h : Canonical (cells s)) (b op o replay) : PerfKeeps (s.doStmc b op o replay) := by
  unfold State.doStmc
  dsimp only
  (repeat' split) <;> try simp [h]
  exact storeStop_keeps h ‹_›

@[simp] theorem doDisc_keeps {s : State} (h : Canonical (cells s)) b op : PerfKeeps (s.doDisc b op) := by
  unfold State.doDisc
  dsimp only
  (repeat' split) <;> simp [h]

@[simp] theorem doClaim_keeps {s : State} (h : Canonical (cells s)) b op : PerfKeeps (s.doClaim b op) := by
  unfold State.doClaim
  dsimp only
  (repeat' split) <;> simp [h]

@[simp] theorem perform_keeps {s : State} (h : Canonical (cells s)) (b op replay) : PerfKeeps (s.perform b op replay) := by
  unfold State.perform
  split
  · grind [begunStore_keeps]
  · (repeat' split) <;> simp [h]

end Sys2Proof.Canon
end

section
/-! SUPPORT. The words of warps: issue, traps, registers and memory. -/

namespace Sys2Proof.Canon

open Sys2Proof Sys2Proof.Machine Sys2Proof.Safety Sys2Proof.Laws

/-- Every state that the effect of a word comes to is canonical. -/
def ResKeeps : Res → Prop
  | .done s _ | .jump s _ _ | .trap s _ | .deliver s _ | .after s _ | .wait s _ | .left s => Canonical (cells s)

@[simp] theorem resKeeps_done (s f) : ResKeeps (.done s f) ↔ Canonical (cells s) := Iff.rfl

@[simp] theorem resKeeps_jump (s t sw) : ResKeeps (.jump s t sw) ↔ Canonical (cells s) := Iff.rfl

@[simp] theorem resKeeps_trap (s t) : ResKeeps (.trap s t) ↔ Canonical (cells s) := Iff.rfl

@[simp] theorem resKeeps_deliver (s ix) : ResKeeps (.deliver s ix) ↔ Canonical (cells s) := Iff.rfl

@[simp] theorem resKeeps_after (s t) : ResKeeps (.after s t) ↔ Canonical (cells s) := Iff.rfl

@[simp] theorem resKeeps_wait (s sw) : ResKeeps (.wait s sw) ↔ Canonical (cells s) := Iff.rfl

@[simp] theorem resKeeps_left (s) : ResKeeps (.left s) ↔ Canonical (cells s) := Iff.rfl

@[simp] theorem resKeeps_ite {p : Prop} [Decidable p] {x y : Res} (hx : ResKeeps x) (hy : ResKeeps y) : ResKeeps (if p then x else y) := by
  split <;> assumption

/-- The state that a step reaches is canonical. -/
def OutKeeps : Out → Prop
  | .next s => Canonical (cells s)
  | _ => True

@[simp] theorem outKeeps_next (s) : OutKeeps (.next s) ↔ Canonical (cells s) := Iff.rfl

@[simp] theorem outKeeps_fault (r) : OutKeeps (.fault r) := trivial

@[simp] theorem outKeeps_refused (r) : OutKeeps (.refused r) := trivial

@[simp] theorem outKeeps_ite {p : Prop} [Decidable p] {x y : Out} (hx : OutKeeps x) (hy : OutKeeps y) : OutKeeps (if p then x else y) := by
  split <;> assumption

/-- What a call answers, where the call is canonical. -/
theorem canonical_of_fst {β : Type} {p : State × β} {t : State} {x : β} (e : p = (t, x)) (h : Canonical (cells p.1)) : Canonical (cells t) := by
  subst e; exact h

theorem resKeeps_of_eq {x r : Res} (e : x = r) (h : ResKeeps x) : ResKeeps r := e ▸ h

theorem perfKeeps_of_eq {x r : Perf} (e : x = r) (h : PerfKeeps x) : PerfKeeps r := e ▸ h

theorem outKeeps_of_eq {x r : Out} (e : x = r) (h : OutKeeps x) : OutKeeps r := e ▸ h

@[simp] theorem cells_dropLog (s : State) core ix : cells (s.dropLog core ix) = cells s := by
  unfold State.dropLog
  (repeat' split) <;> simp

@[simp] theorem cells_freeEntry (s : State) core ix : cells (s.freeEntry core ix) = cells s := by
  unfold State.freeEntry
  (repeat' split) <;> simp

@[simp] theorem canonical_parkClaim {s : State} (h : Canonical (cells s)) w at_ pc next asid lo len :
    Canonical (cells (s.parkClaim w at_ pc next asid lo len)) := by
  simp [State.parkClaim, h]

@[simp] theorem cells_issueAgain (s : State) core x : cells (s.issueAgain core x) = cells s := by simp [State.issueAgain]

theorem replayLog_keeps {s : State} (h : Canonical (cells s)) {core ix t} (ht : s.replayLog core ix = some t) : Canonical (cells t) := by
  unfold State.replayLog at ht
  split at ht
  · cases ht; exact h
  · rename_i e _
    split at ht
    · cases ht; simpa using h
    · cases ht; simpa using h
    · rename_i b _ _
      dsimp only at ht
      split at ht
      · have hp := perfKeeps_of_eq ‹_› (perform_keeps h b _ true)
        rw [perfKeeps_ok] at hp
        (repeat' split at ht) <;> cases ht <;> simp [hp]
      · have hp := perfKeeps_of_eq ‹_› (perform_keeps h b _ true)
        rw [perfKeeps_ok] at hp
        split at ht <;> cases ht <;> rename_i he <;> simp [canonical_of_fst he (canonical_countEvents (by split <;> simp [hp]) ..)]
      · cases ht
      · have hp := perfKeeps_of_eq ‹_› (perform_keeps h b _ true)
        cases ht; simpa using hp
      · have hp := perfKeeps_of_eq ‹_› (perform_keeps h b _ true)
        cases ht; simpa using hp
      · cases ht; simpa using h

@[simp] theorem getD_replayLog {s : State} (h : Canonical (cells s)) (core ix) : Canonical (cells ((s.replayLog core ix).getD s)) := by
  cases ht : s.replayLog core ix with
  | none => exact h
  | some t => exact replayLog_keeps h ht

@[simp] theorem canonical_sweepLog {s : State} (h : Canonical (cells s)) (core) : Canonical (cells (s.sweepLog core)) := by
  refine canonical_foldl (fun t ix ht => ?_) _ h
  (repeat' split) <;> simp [ht]

@[simp] theorem canonical_sweepLogs {s : State} (h : Canonical (cells s)) : Canonical (cells s.sweepLogs) :=
  canonical_foldl (fun _ _ ht => canonical_sweepLog ht _) _ h

@[simp] theorem cells_setClause (s : State) w c : cells (s.setClause w c) = cells s := by
  unfold State.setClause
  (repeat' split) <;> simp

@[simp] theorem cells_updB (s : State) c f : cells (s.updB c f) = cells s := by simp [State.updB]

@[simp] theorem cells_goOn (s : State) c f : cells (s.goOn c f) = cells s := by
  unfold State.goOn
  (repeat' split) <;> simp

@[simp] theorem cells_transfer (s : State) c t sw : cells (s.transfer c t sw) = cells s := by
  unfold State.transfer
  (repeat' split) <;> simp

@[simp] theorem cells_hold (s : State) c sw : cells (s.hold c sw) = cells s := by simp [State.hold]

@[simp] theorem awaitLog_keeps {s : State} (h : Canonical (cells s)) core ix : ResKeeps (s.awaitLog core ix) := by
  unfold State.awaitLog
  (repeat' split) <;> simp [h]

@[simp] theorem cells_markPaid (s : State) w : cells (s.markPaid w) = cells s := by
  unfold State.markPaid
  (repeat' split) <;> simp

@[simp] theorem cells_payOne (s : State) core x : cells (s.payOne core x) = cells s := by simp [State.payOne]
@[simp] theorem cells_payWide (s : State) core : cells (s.payWide core) = cells s := by simp [State.payWide]
@[simp] theorem cells_requestWide (s : State) w price region : cells (s.requestWide w price region) = cells s := by simp [State.requestWide]
@[simp] theorem cells_dropWide (s : State) w : cells (s.dropWide w) = cells s := by simp [State.dropWide]

@[simp] theorem cells_pay (s : State) (c price) : cells (s.pay c price).1 = cells s := by
  unfold State.pay
  (repeat' split) <;> simp

@[simp] theorem cells_keepPaid (s : State) c price : cells (s.keepPaid c price) = cells s := by simp [State.keepPaid]

@[simp] theorem cells_cacheWord (s0 : State) (s : State) c u : cells (State.cacheWord s0 s c u) = cells s := by
  unfold State.cacheWord
  (repeat' split) <;> simp

@[simp] theorem canonical_pairDone {s : State} (h : Canonical (cells s)) c : Canonical (cells (s.pairDone c)) := by
  unfold State.pairDone
  (repeat' split) <;> simp [h]

@[simp] theorem cells_landNow (s0 : State) (s : State) w : cells (State.landNow s0 s w) = cells s := by simp [State.landNow]

@[simp] theorem canonical_settleRes {s : State} (h : Canonical (cells s)) (c u) {r : Res} (hr : ResKeeps r) :
    Canonical (cells (s.settleRes c u r)) := by
  cases r with
  | done t f => rw [resKeeps_done] at hr; unfold State.settleRes; dsimp only; split <;> simp [hr]
  | jump t f sw => rw [resKeeps_jump] at hr; unfold State.settleRes; dsimp only; split <;> simp [h, hr]
  | trap t a => rw [resKeeps_trap] at hr; simp [State.settleRes, hr]
  | deliver t ix => rw [resKeeps_deliver] at hr; unfold State.settleRes; dsimp only; split <;> simp [hr]
  | after t a => rw [resKeeps_after] at hr; unfold State.settleRes; dsimp only; split <;> simp [hr]
  | wait t sw => simpa [State.settleRes] using hr
  | left t => exact hr

theorem issue_keeps {s : State} (h : Canonical (cells s)) {i op g} {k : Ctx → State → Res} (hk : ∀ c t, Canonical (cells t) → ResKeeps (k c t)) :
    OutKeeps (s.issue i op g k) := by
  unfold State.issue
  split
  · exact h
  · rename_i c _
    dsimp only
    have hp : Canonical (cells (s.tick.pay c (priceOf i)).1) := by simpa using h
    have hr := hk c _ hp
    (repeat' split) <;> try simp [h, hr]
    have hw := resKeeps_of_eq ‹_› hr
    rw [resKeeps_wait] at hw
    exact hw

@[simp] theorem refuse_keeps {s : State} (h : Canonical (cells s)) (x) : OutKeeps (s.refuse x) := by
  unfold State.refuse
  (repeat' split) <;> simp [h]

@[simp] theorem counted_keeps {s : State} (h : Canonical (cells s)) (c evs f) : ResKeeps (Res.counted s c evs f) := by
  unfold Res.counted
  split <;> exact canonical_of_fst ‹_› (canonical_countEvents h ..)

@[simp] theorem Res_fpTrap_keeps {s : State} (h : Canonical (cells s)) c lanes evs addr : ResKeeps (Res.fpTrap s c lanes evs addr) := by
  simp [Res.fpTrap, h]

@[simp] theorem cells_put (s : State) c m r v : cells (s.put c m r v) = cells s := by
  unfold State.put
  (repeat' split) <;> simp

@[simp] theorem cells_put64 (s : State) c m r v : cells (s.put64 c m r v) = cells s := by
  unfold State.put64
  (repeat' split) <;> simp

@[simp] theorem cells_putPred (s : State) c m n v : cells (s.putPred c m n v) = cells s := by
  unfold State.putPred
  (repeat' split) <;> simp

@[simp] theorem Res_taken_keeps {s : State} (h : Canonical (cells s)) c t : ResKeeps (Res.taken s c t) := by simp [Res.taken, h]

@[simp] theorem execNop_keeps {s : State} (h : Canonical (cells s)) g : OutKeeps (execNop g s) := by
  exact issue_keeps h fun c t ht => by simp [ht]

@[simp] theorem execBra_keeps {s : State} (h : Canonical (cells s)) g off : OutKeeps (execBra g off s) := by
  exact issue_keeps h fun c t ht => by simp [ht]

@[simp] theorem execBrx_keeps {s : State} (h : Canonical (cells s)) a g : OutKeeps (execBrx a g s) := by
  exact issue_keeps h fun c t ht => by simp [ht]

@[simp] theorem call_keeps {s : State} (h : Canonical (cells s)) c link t : ResKeeps (s.call c link t) := by simp [State.call, h]

@[simp] theorem execCall_keeps {s : State} (h : Canonical (cells s)) l g off : OutKeeps (execCall l g off s) := by
  exact issue_keeps h fun c t ht => by simp [ht]

@[simp] theorem execCallx_keeps {s : State} (h : Canonical (cells s)) l a g : OutKeeps (execCallx l a g s) := by
  exact issue_keeps h fun c t ht => by simp [ht]

@[simp] theorem execRet_keeps {s : State} (h : Canonical (cells s)) a g : OutKeeps (execRet a g s) := by
  exact issue_keeps h fun c t ht => by simp [ht]

@[simp] theorem execYield_keeps {s : State} (h : Canonical (cells s)) g : OutKeeps (execYield g s) := by
  exact issue_keeps h fun c t ht => by simp [ht]

@[simp] theorem execTrap_keeps {s : State} (h : Canonical (cells s)) g imm : OutKeeps (execTrap g imm s) := by
  exact issue_keeps h fun c t ht => by simp [ht]

@[simp] theorem execBkpt_keeps {s : State} (h : Canonical (cells s)) g imm : OutKeeps (execBkpt g imm s) := by
  exact issue_keeps h fun c t ht => by simp [ht]

@[simp] theorem cells_retireDq (s : State) core b : cells (s.retireDq core b) = cells s := by simp [State.retireDq]
@[simp] theorem cells_closeAccounts (s : State) core : cells (s.closeAccounts core) = cells s := by simp [State.closeAccounts]
@[simp] theorem cells_withdraw (s : State) w : cells (s.withdraw w) = cells s := by simp [State.withdraw]

@[simp] theorem cells_endWarp (s : State) w : cells (s.endWarp w) = cells s := by
  unfold State.endWarp
  (repeat' split) <;> simp

@[simp] theorem ackLost_keeps {s : State} (h : Canonical (cells s)) (line lanes) : ResKeeps (Res.ackLost s line lanes) := h

theorem takeLost_keeps {s : State} (h : Canonical (cells s)) {w k t n} (ht : s.takeLost w k = some (t, n)) :
    Canonical (cells t) := cells_takeLost ht ▸ h

@[simp] theorem exitLast_keeps {s : State} (h : Canonical (cells s)) (c) : ResKeeps (s.exitLast c) := by
  unfold State.exitLast
  grind [awaitLog_keeps, takeLost_keeps, ackLost_keeps, cells_freeEntry, cells_endWarp, ResKeeps]

@[simp] theorem exitFront_keeps {s : State} (h : Canonical (cells s)) (c b) : ResKeeps (s.exitFront c b) := by
  unfold State.exitFront
  grind [awaitLog_keeps, takeLost_keeps, ackLost_keeps, cells_updFront, ResKeeps]

@[simp] theorem execExit_keeps {s : State} (h : Canonical (cells s)) g : OutKeeps (execExit g s) := by
  refine issue_keeps h fun c t ht => ?_
  (repeat' split) <;> simp [ht]

@[simp] theorem execShfl_keeps {s : State} (h : Canonical (cells s)) m b64 seg o : OutKeeps (execShfl m b64 seg o s) := by
  exact issue_keeps h fun c t ht => by simp [ht]

@[simp] theorem execVote_keeps {s : State} (h : Canonical (cells s)) m d a g hd : OutKeeps (execVote m d a g hd s) := by
  refine issue_keeps h fun c t ht => ?_
  (repeat' split) <;> simp [ht]

@[simp] theorem execRedux_keeps {s : State} (h : Canonical (cells s)) op o : OutKeeps (execRedux op o s) := by
  exact issue_keeps h fun c t ht => by simp [ht]

@[simp] theorem execScan_keeps {s : State} (h : Canonical (cells s)) op o : OutKeeps (execScan op o s) := by
  exact issue_keeps h fun c t ht => by simp [ht]

@[simp] theorem execMatchLanes_keeps {s : State} (h : Canonical (cells s)) b64 o : OutKeeps (execMatchLanes b64 o s) := by
  exact issue_keeps h fun c t ht => by simp [ht]

theorem fetchLine_keeps {s : State} (h : Canonical (cells s)) {w b line t n} (ht : s.fetchLine w b line = .ok (t, n)) : Canonical (cells t) := by
  unfold State.fetchLine at ht
  grind [cells_tlbFill]

@[simp] theorem canonical_enter {s : State} (h : Canonical (cells s)) (w b) : Canonical (cells (s.enter w b).1) := by
  unfold State.enter
  dsimp only
  split
  · exact h
  · simp [h]
  · have ht := fetchLine_keeps h ‹_›
    (repeat' split) <;> simp [ht]

theorem issueOne_keeps {s : State} (h : Canonical (cells s)) {ex : Instr → State → Out} (hex : ∀ i t, Canonical (cells t) → OutKeeps (ex i t))
    (c v) : OutKeeps (issueOne ex s c v) := by
  unfold issueOne
  (repeat' split) <;> simp [h, hex]

/-- The two words of a pair that is paid. -/
def pairGo (ex : Instr → State → Out) (s : State) (c : Ctx) (i1 i2 : Instr) : Out :=
  let mark (p : Nat) (s : State) : State := s.updWarp c.who fun x => { x with paid := decide (p > 0) }
  match ex i1 (mark (priceOf i1) s) with
  | .next s => if s.runnable c.who && s.pcOf c.who == c.pc + 8 && (s.clauseOf c.who).isSome then ex i2 (mark (priceOf i2) s) else .next (mark 0 s)
  | r => r

theorem pairGo_keeps {s : State} (h : Canonical (cells s)) {ex : Instr → State → Out} (hex : ∀ i t, Canonical (cells t) → OutKeeps (ex i t))
    (c i1 i2) : OutKeeps (pairGo ex s c i1 i2) := by
  have h1 (f) : OutKeeps (ex i1 (s.updWarp c.who f)) := hex _ _ (by simpa using h)
  unfold pairGo
  dsimp only
  split
  · have ht := outKeeps_of_eq ‹_› (h1 _)
    rw [outKeeps_next] at ht
    split
    · exact hex _ _ (by simpa using ht)
    · simpa using ht
  · exact h1 _

theorem issuePair_keeps {s : State} (h : Canonical (cells s)) {ex : Instr → State → Out} (hex : ∀ i t, Canonical (cells t) → OutKeeps (ex i t))
    (c v1 v2) : OutKeeps (issuePair ex s c v1 v2) := by
  have hgo (price i1 i2) : OutKeeps (pairGo ex (s.pay c price).1 c i1 i2) := pairGo_keeps (by simpa using h) hex ..
  unfold issuePair
  dsimp only
  split
  · exact h
  · split
    · exact issueOne_keeps h hex ..
    · simp [h]
    · simp [h]
    · cases s.warp c.who <;> dsimp only
      all_goals
        iterate 5
          split
          · simp [h]
        exact hgo ..

/-- The word of a party whose line is in force, or was entered. -/
def enterGo (ex : Instr → State → Out) (p : State × Bool) (w : Who) : Out :=
  let (s, ok) := p
  if !ok then .next s
  else
    match s.clauseOf w, s.ctx w ⟨0, false⟩ with
    | some cl, some c =>
      let k := c.pc.toNat % 128 / 8
      let v := s.lineWord w cl.phys k
      if c.first && c.cls == .lane then issuePair ex s c v (s.lineWord w cl.phys (k + 1)) else issueOne ex s c.cls v
    | _, _ => .next s

theorem enterGo_keeps {p : State × Bool} (h : Canonical (cells p.1)) {ex : Instr → State → Out} (hex : ∀ i t, Canonical (cells t) → OutKeeps (ex i t))
    (w) : OutKeeps (enterGo ex p w) := by
  unfold enterGo
  dsimp only
  (repeat' split) <;> simp [h, issuePair_keeps h hex, issueOne_keeps h hex]

theorem issueMove_keeps {s : State} (h : Canonical (cells s)) {ex : Instr → State → Out} (hex : ∀ i t, Canonical (cells t) → OutKeeps (ex i t))
    (w) : OutKeeps (issueMove ex s w) := by
  unfold issueMove
  split
  · exact h
  · split
    · exact h
    · dsimp only
      split
      · exact enterGo_keeps (p := (_, true)) (by simpa using h) hex w
      · exact enterGo_keeps (canonical_enter (by simpa using h) w _) hex w

@[simp] theorem cells_advance (s : State) : cells (s.advance) = cells s := by simp [State.advance]
@[simp] theorem cells_logFault (s : State) op ix t pages : cells (s.logFault op ix t pages) = cells s := by simp [State.logFault]

@[simp] theorem memRun_keeps {s : State} (h : Canonical (cells s)) (c op fin) : ResKeeps (s.memRun c op fin) := by
  have hp := perform_keeps h c.blk op false
  unfold State.memRun
  split <;> rename_i he <;> rw [he] at hp
  · exact counted_keeps (by simpa using hp) ..
  · exact h
  · exact hp
  · exact hp
  · simpa using h

@[simp] theorem memWord_keeps {s : State} (h : Canonical (cells s)) (c op ordered spans fin) : ResKeeps (s.memWord c op ordered spans fin) := by
  unfold State.memWord
  dsimp only
  (repeat' split) <;> simp [h]

@[simp] theorem memAccess_keeps {s : State} (h : Canonical (cells s)) c i ops o n fin : ResKeeps (s.memAccess c i ops o n fin) := by
  simp [State.memAccess, h]

@[simp] theorem execLd_keeps {s : State} (h : Canonical (cells s)) o : OutKeeps (execLd o s) := by
  exact issue_keeps h fun c t ht => by simp [ht]

@[simp] theorem execLds_keeps {s : State} (h : Canonical (cells s)) o : OutKeeps (execLds o s) := by
  exact issue_keeps h fun c t ht => by simp [ht]

@[simp] theorem execLdc_keeps {s : State} (h : Canonical (cells s)) o : OutKeeps (execLdc o s) := by
  exact issue_keeps h fun c t ht => by simp [ht]

@[simp] theorem execSt_keeps {s : State} (h : Canonical (cells s)) o : OutKeeps (execSt o s) := by
  exact issue_keeps h fun c t ht => by simp [ht]

@[simp] theorem execSts_keeps {s : State} (h : Canonical (cells s)) o : OutKeeps (execSts o s) := by
  exact issue_keeps h fun c t ht => by simp [ht]

@[simp] theorem execAtom_keeps {s : State} (h : Canonical (cells s)) o : OutKeeps (execAtom o s) := by
  exact issue_keeps h fun c t ht => by simp [ht]

@[simp] theorem execAtoms_keeps {s : State} (h : Canonical (cells s)) o : OutKeeps (execAtoms o s) := by
  exact issue_keeps h fun c t ht => by simp [ht]

@[simp] theorem execRed_keeps {s : State} (h : Canonical (cells s)) o : OutKeeps (execRed o s) := by
  exact issue_keeps h fun c t ht => by simp [ht]

@[simp] theorem execStmc_keeps {s : State} (h : Canonical (cells s)) o : OutKeeps (execStmc o s) := by
  exact issue_keeps h fun c t ht => by simp [ht]

@[simp] theorem execPref_keeps {s : State} (h : Canonical (cells s)) a g off pol : OutKeeps (execPref a g off pol s) := by
  exact issue_keeps h fun c t ht => by simp [ht]

@[simp] theorem execDisc_keeps {s : State} (h : Canonical (cells s)) t a g : OutKeeps (execDisc t a g s) := by
  exact issue_keeps h fun c t ht => by simp [ht]

@[simp] theorem execClaim_keeps {s : State} (h : Canonical (cells s)) (t a g sb) : OutKeeps (execClaim t a g sb s) := by
  refine issue_keeps h fun c u hu => ?_
  have hp (op) := perform_keeps hu c.blk op false
  dsimp only
  split
  · exact hu
  · split
    · split
      · have hv := perfKeeps_of_eq ‹_› (hp _)
        rw [perfKeeps_ok] at hv
        split <;> simp [hv]
      · simp [hu]
    · simp [hu]

@[simp] theorem fence_keeps {s : State} (h : Canonical (cells s)) (c order sc ga at_) : ResKeeps (s.fence c order sc ga at_) := by
  have ht {k t n} (e : (if isRel order || (scopePkg sc || ga) then s.takeLost c.who k else none) = some (t, n)) : Canonical (cells t) := by
    split at e
    · exact takeLost_keeps h e
    · cases e
  unfold State.fence
  dsimp only
  split
  · simp [h]
  · split
    · exact ackLost_keeps (ht ‹_›) ..
    · (repeat' split) <;> simp [h]

@[simp] theorem execFence_keeps {s : State} (h : Canonical (cells s)) order scope ga g : OutKeeps (execFence order scope ga g s) := by
  exact issue_keeps h fun c t ht => by simp [ht]

@[simp] theorem execFencep_keeps {s : State} (h : Canonical (cells s)) (w r g) : OutKeeps (execFencep w r g s) := by
  refine issue_keeps h fun c t ht => ?_
  split
  · split
    · exact ackLost_keeps (takeLost_keeps ht ‹_›) ..
    · exact ht
  · split <;> simp [ht]

@[simp] theorem cells_leaveLanding (s : State) w own cuts : cells (s.leaveLanding w own cuts) = cells s := by
  unfold State.leaveLanding
  (repeat' split) <;> simp

@[simp] theorem cells_moveAway (s : State) w d core : cells (s.moveAway w d core) = cells s := by
  unfold State.moveAway
  (repeat' split) <;> simp

@[simp] theorem cells_moveHome (s : State) w d : cells (s.moveHome w d) = cells s := by
  unfold State.moveHome
  (repeat' split) <;> simp

@[simp] theorem migrReady_keeps {s : State} (h : Canonical (cells s)) (c) {go : Warp → State → Res}
    (hgo : ∀ x t, Canonical (cells t) → ResKeeps (go x t)) :
    ResKeeps (s.migrReady c go) := by
  have hf := fence_keeps h c .acqRel .pkg false .any
  unfold State.migrReady
  split
  · exact h
  · split
    · exact h
    · split
      · have ht := resKeeps_of_eq ‹_› hf
        split
        · exact ht
        · exact hgo _ _ ht
      · exact hf

@[simp] theorem afterMove_keeps {s : State} (h : Canonical (cells s)) c w : ResKeeps (s.afterMove c w) := by simp [State.afterMove, h]

@[simp] theorem execMigr_keeps {s : State} (h : Canonical (cells s)) (a) : OutKeeps (execMigr a s) := by
  refine issue_keeps h fun c t ht => migrReady_keeps ht c fun x u hu => ?_
  dsimp only
  (repeat' split) <;> simp [hu]

@[simp] theorem execMigrHome_keeps {s : State} (h : Canonical (cells s)) : OutKeeps (execMigrHome s) := by
  refine issue_keeps h fun c t ht => migrReady_keeps ht c fun x u hu => ?_
  split <;> simp [hu]

end Sys2Proof.Canon
end

section
/-! SUPPORT. The words of the core: barriers, pool, rings, copy engine. -/

namespace Sys2Proof.Canon

open Sys2Proof Sys2Proof.Machine Sys2Proof.Safety Sys2Proof.Laws

theorem resKeeps_getD {o : Option Res} (h : ∀ r, o = some r → ResKeeps r) {x : Res} (hx : ResKeeps x) : ResKeeps (o.getD x) := by
  cases o with
  | none => exact hx
  | some r => exact h r rfl

@[simp] theorem atHome_keeps {s : State} (h : Canonical (cells s)) c {k} (hk : ∀ a0, Canonical (cells a0) → ResKeeps (k a0)) :
    ResKeeps (s.atHome c k) := by
  simp [State.atHome, h, hk]

theorem released_keeps {s : State} (h : Canonical (cells s)) {c sc k at_} (hk : ∀ t, Canonical (cells t) → ResKeeps (k t)) :
    ResKeeps (s.released c sc k at_) := by
  have hf := fence_keeps h c .rel sc false at_
  unfold State.released
  split
  · have ht := resKeeps_of_eq ‹_› hf
    exact hk _ ht
  · exact hf

@[simp] theorem logged_keeps {s : State} (h : Canonical (cells s)) c {k} (hk : ∀ a0, Canonical (cells a0) → ResKeeps (k a0)) :
    ResKeeps (s.logged c k) := by
  unfold State.logged
  (repeat' split) <;> simp [h, hk]

@[simp] theorem queueDone_keeps {s : State} (h : Canonical (cells s)) (c) {k : State → Res} (hk : ∀ t, Canonical (cells t) → ResKeeps (k t)) :
    ResKeeps (s.queueDone c k) := by
  unfold State.queueDone
  split
  · exact hk s h
  · split
    · exact ackLost_keeps (takeLost_keeps h ‹_›) ..
    · exact h

@[simp] theorem trapAux_keeps {s : State} (h : Canonical (cells s)) c x addr aux : ResKeeps (trapAux s c x addr aux) := by simp [trapAux, h]

@[simp] theorem cells_setArr (s : State) c f : cells (s.setArr c f) = cells s := by
  unfold State.setArr
  (repeat' split) <;> simp

@[simp] theorem waitAll_keeps {s : State} (h : Canonical (cells s)) c st sc aux at_ : ResKeeps (s.waitAll c st sc aux at_) := by
  unfold State.waitAll
  dsimp only
  (repeat' split) <;> simp [h]

@[simp] theorem cells_barArrive (s : State) (core slot id k x) : cells (s.barArrive core slot id k x).1 = cells s := by
  unfold State.barArrive
  split <;> simp

theorem barWord_keeps {s : State} (h : Canonical (cells s)) {c id x k go} (hgo : ∀ t n, Canonical (cells t) → ResKeeps (go t n)) :
    ResKeeps (s.barWord c id x k go) := by
  unfold State.barWord
  split
  · exact trapAux_keeps h ..
  · refine released_keeps h fun t ht => ?_
    have ha (core slot id k x) : Canonical (cells (t.barArrive core slot id k x).1) := by simpa using ht
    split
    · exact trapAux_keeps (canonical_of_fst ‹_› (ha ..)) ..
    · exact hgo _ _ (canonical_of_fst ‹_› (ha ..))

@[simp] theorem execBarw_keeps {s : State} (h : Canonical (cells s)) (id b) : OutKeeps (execBarw id b s) := by
  refine issue_keeps h fun c t ht => atHome_keeps ht c fun u hu => ?_
  dsimp only
  split
  · exact logged_keeps hu c fun v hv => by simp [hv]
  · exact barWord_keeps hu fun v n hv => by simp [hv]

@[simp] theorem execBara_keeps {s : State} (h : Canonical (cells s)) (id b) : OutKeeps (execBara id b s) :=
  issue_keeps h fun _ _ ht => atHome_keeps ht _ fun _ hu => barWord_keeps hu fun _ _ hv => hv

@[simp] theorem cells_setBcb (s : State) core slot off b : cells (s.setBcb core slot off b) = cells s := by simp [State.setBcb]

@[simp] theorem cells_bcbOp (s : State) (core slot off o) : cells (s.bcbOp core slot off o).1 = cells s := by
  unfold State.bcbOp
  dsimp only
  (repeat' split) <;> simp

@[simp] theorem bcbWord_keeps {s : State} (h : Canonical (cells s)) (c a) {k : State → Nat → Res}
    (hk : ∀ t n, Canonical (cells t) → ResKeeps (k t n)) :
    ResKeeps (s.bcbWord c a k) := by
  refine atHome_keeps h c fun t ht => ?_
  dsimp only
  split <;> simp [ht, hk]

@[simp] theorem execBcbinit_keeps {s : State} (h : Canonical (cells s)) (a) : OutKeeps (execBcbinit a s) := by
  refine issue_keeps h fun c t ht => atHome_keeps ht c fun u hu => ?_
  dsimp only
  (repeat' split) <;> simp [hu]

@[simp] theorem execBcbexp_keeps {s : State} (h : Canonical (cells s)) (a b) : OutKeeps (execBcbexp a b s) :=
  issue_keeps h fun c t ht => bcbWord_keeps ht c a fun u n hu => released_keeps hu fun v hv => by simp [hv]

@[simp] theorem execBcbarv_keeps {s : State} (h : Canonical (cells s)) (a) : OutKeeps (execBcbarv a s) := by
  refine issue_keeps h fun c t ht => bcbWord_keeps ht c a fun u n hu => released_keeps hu fun v hv => ?_
  have ho (core slot off o) : Canonical (cells (v.bcbOp core slot off o).1) := by simpa using hv
  split <;> simp [canonical_of_fst ‹_› (ho ..)]

@[simp] theorem execBcbwait_keeps {s : State} (h : Canonical (cells s)) (a b) : OutKeeps (execBcbwait a b s) := by
  refine issue_keeps h fun c t ht => bcbWord_keeps ht c a fun u n hu => logged_keeps hu c fun v hv => ?_
  split <;> simp [hv]

@[simp] theorem execBcbtry_keeps {s : State} (h : Canonical (cells s)) (a b) : OutKeeps (execBcbtry a b s) := by
  refine issue_keeps h fun c t ht => bcbWord_keeps ht c a fun u n hu => ?_
  split
  · exact logged_keeps hu c fun v hv => by simp [hv]
  · exact hu
  · simp [hu]

@[simp] theorem cells_setRing (s : State) core slot id r : cells (s.setRing core slot id r) = cells s := by simp [State.setRing]

@[simp] theorem ringWord_keeps {s : State} (h : Canonical (cells s)) (c id) {k : State → Ring → Res}
    (hk : ∀ t r, Canonical (cells t) → ResKeeps (k t r)) :
    ResKeeps (s.ringWord c id k) := by
  refine atHome_keeps h c fun t ht => ?_
  (repeat' split) <;> simp [ht, hk]

@[simp] theorem ringAcq_keeps {s : State} (h : Canonical (cells s)) (c id b fill) : ResKeeps (s.ringAcq c id b fill) := by
  refine ringWord_keeps h c id fun t r ht => logged_keeps ht c fun u hu => ?_
  dsimp only
  (repeat' split) <;> simp [hu]

@[simp] theorem ringRel_keeps {s : State} (h : Canonical (cells s)) (c id fill) : ResKeeps (s.ringRel c id fill) := by
  refine ringWord_keeps h c id fun t r ht => released_keeps ht fun u hu => ?_
  split <;> simp [hu]

@[simp] theorem execRinginit_keeps {s : State} (h : Canonical (cells s)) (id a) : OutKeeps (execRinginit id a s) := by
  refine issue_keeps h fun c t ht => atHome_keeps ht c fun u hu => ?_
  dsimp only
  iterate 7
    split
    · simp [hu]
  simp [hu]

@[simp] theorem execRingacqFill_keeps {s : State} (h : Canonical (cells s)) id b : OutKeeps (execRingacqFill id b s) := by
  exact issue_keeps h fun c t ht => by simp [ht]

@[simp] theorem execRingacqFree_keeps {s : State} (h : Canonical (cells s)) id b : OutKeeps (execRingacqFree id b s) := by
  exact issue_keeps h fun c t ht => by simp [ht]

@[simp] theorem execRingrelFill_keeps {s : State} (h : Canonical (cells s)) id : OutKeeps (execRingrelFill id s) := by
  exact issue_keeps h fun c t ht => by simp [ht]

@[simp] theorem execRingrelFree_keeps {s : State} (h : Canonical (cells s)) id : OutKeeps (execRingrelFree id s) := by
  exact issue_keeps h fun c t ht => by simp [ht]

@[simp] theorem cells_cardBarSettle (s : State) run id : cells (s.cardBarSettle run id) = cells s := by
  unfold State.cardBarSettle
  (repeat' split) <;> simp

@[simp] theorem cells_settleBars (s : State) run : cells (s.settleBars run) = cells s := by
  unfold State.settleBars
  (repeat' split) <;> simp

@[simp] theorem cells_gbarArrive (s : State) (c id sc) : cells (s.gbarArrive c id sc).1 = cells s := by
  unfold State.gbarArrive
  dsimp only
  (repeat' split) <;> simp

@[simp] theorem execGbar_keeps {s : State} (h : Canonical (cells s)) (id scope) : OutKeeps (execGbar id scope s) := by
  refine issue_keeps h fun c t ht => atHome_keeps ht c fun u hu => ?_
  dsimp only
  split
  · exact logged_keeps hu c fun v hv => by simp [hv]
  · split
    · simp [hu]
    · refine released_keeps hu fun v hv => ?_
      have ha : Canonical (cells (v.gbarArrive c id.toNat scope).1) := by simpa using hv
      split <;> simp [canonical_of_fst ‹_› ha]

@[simp] theorem execDqpop_keeps {s : State} (h : Canonical (cells s)) (d hd g) : OutKeeps (execDqpop d hd g s) := by
  refine issue_keeps h fun c t ht => atHome_keeps ht c fun u hu => logged_keeps hu c fun v hv => ?_
  dsimp only
  (repeat' split) <;> simp [hv]

@[simp] theorem execRolechk_keeps {s : State} (h : Canonical (cells s)) : OutKeeps (execRolechk s) := by
  refine issue_keeps h fun c t ht => atHome_keeps ht c fun u hu => ?_
  (repeat' split) <;> simp [hu]

@[simp] theorem cells_setFlag (s : State) core slot n f : cells (s.setFlag core slot n f) = cells s := by
  unfold State.setFlag
  (repeat' split) <;> simp

@[simp] theorem cells_roleWindow (s : State) core slot : cells (s.roleWindow core slot) = cells s := by
  unfold State.roleWindow
  dsimp only
  (repeat' split) <;> simp

@[simp] theorem execRoleFlagWindow_keeps {s : State} (h : Canonical (cells s)) core blk : OutKeeps (execRoleFlagWindow core blk s) := by
  simp [execRoleFlagWindow, h]

@[simp] theorem cells_setPort (s : State) p x : cells (s.setPort p x) = cells s := by simp [State.setPort]

@[simp] theorem execFlitReceive_keeps {s : State} (h : Canonical (cells s)) port flit reply : OutKeeps (execFlitReceive port flit reply s) := by
  simp [execFlitReceive, h]

@[simp] theorem execKeySwitch_keeps {s : State} (h : Canonical (cells s)) k : OutKeeps (execKeySwitch k s) := by simp [execKeySwitch, h]

@[simp] theorem execKeySlotExhausted_keeps {s : State} (h : Canonical (cells s)) port : OutKeeps (execKeySlotExhausted port s) := by
  simp [execKeySlotExhausted, h]

@[simp] theorem execYelinePortRetrainFail_keeps {s : State} (h : Canonical (cells s)) port : OutKeeps (execYelinePortRetrainFail port s) := by
  simp [execYelinePortRetrainFail, h]

@[simp] theorem cells_sendPeer (s : State) p a n : cells (s.sendPeer p a n) = cells s := by
  unfold State.sendPeer
  (repeat' split) <;> simp

@[simp] theorem cells_updCmd (s : State) core seq f : cells (s.updCmd core seq f) = cells s := by simp [State.updCmd]
@[simp] theorem cells_dropCmd (s : State) core seq : cells (s.dropCmd core seq) = cells s := by simp [State.dropCmd]

@[simp] theorem cells_settleCmd (s : State) core seq : cells (s.settleCmd core seq) = cells s := by
  unfold State.settleCmd
  dsimp only
  (repeat' split) <;> simp

@[simp] theorem canonical_unwrite {s : State} (h : Canonical (cells s)) (core x) : Canonical (cells (s.unwrite core x)) := by
  refine canonical_foldl (fun t e ht => ?_) _ h
  split <;> simp [ht]

@[simp] theorem canonical_refuseCmd {s : State} (h : Canonical (cells s)) (core x c addr) : Canonical (cells (s.refuseCmd core x c addr)) := by
  have hu := canonical_unwrite h core x
  unfold State.refuseCmd
  dsimp only
  (repeat' split) <;> simp [hu]

@[simp] theorem canonical_holdReq {s : State} (h : Canonical (cells s)) core x c va : Canonical (cells (s.holdReq core x c va)) := by
  unfold State.holdReq
  (repeat' split) <;> simp [h]

@[simp] theorem canonical_startReq {s : State} (h : Canonical (cells s)) (core x) : Canonical (cells (s.startReq core x)) := by
  unfold State.startReq
  dsimp only
  split
  · exact h
  · split
    · exact h
    · split <;> simp [h]
    · simp [h]
    · (repeat' split) <;> simp [h]

@[simp] theorem cells_takeRingSlot (s : State) core x : cells (s.takeRingSlot core x) = cells s := by
  unfold State.takeRingSlot
  (repeat' split) <;> simp

@[simp] theorem execCopyRequestStart_keeps {s : State} (h : Canonical (cells s)) (core) : OutKeeps (execCopyRequestStart core s) := by
  unfold execCopyRequestStart
  dsimp only
  (repeat' split) <;> simp [h]

@[simp] theorem canonical_retry {s : State} (h : Canonical (cells s)) core x : Canonical (cells (s.retry core x)) := by
  unfold State.retry
  (repeat' split) <;> simp [h]

@[simp] theorem canonical_retranslate {s : State} (h : Canonical (cells s)) (core) : Canonical (cells (s.retranslate core)) :=
  canonical_foldl (fun _ _ ht => canonical_retry ht ..) _ h

@[simp] theorem execRequestRetranslate_keeps {s : State} (h : Canonical (cells s)) core : OutKeeps (execRequestRetranslate core s) := by
  simp [execRequestRetranslate, h]

@[simp] theorem cells_engineRead (s : State) (who r n) : cells (s.engineRead who r n).1 = cells s := by
  unfold State.engineRead
  (repeat' split) <;> simp

@[simp] theorem canonical_engineWrite {s : State} (h : Canonical (cells s)) (core x region r a bs) :
    Canonical (cells (s.engineWrite core x region r a bs)) := by
  unfold State.engineWrite
  dsimp only
  split
  · rw [cells_mk]; exact h.setPeer ..
  · split <;> simp [h]

@[simp] theorem cells_engineScr (s : State) core x off row lo bs : cells (s.engineScr core x off row lo bs) = cells s := by simp [State.engineScr]

@[simp] theorem canonical_moveReq {s : State} (h : Canonical (cells s)) (core x region r) : Canonical (cells (s.moveReq core x region r)) := by
  unfold State.moveReq
  dsimp only
  split
  · simp [h]
  · have hs (l : List Nat) (g : Nat → Nat) : Canonical (cells (l.foldl (fun t j => s.scrSee core x.blk x.party .tile (g j) 1 t) s)) := by simp [h]
    split
    · refine canonical_foldl (fun t e ht => ?_) _ (hs ..)
      split <;> simp [ht]
    · exact canonical_engineWrite (hs ..) ..

@[simp] theorem canonical_moveAtom {s : State} (h : Canonical (cells s)) (core x region r) : Canonical (cells (s.moveAtom core x region r).1) := by
  unfold State.moveAtom
  split
  · exact h
  · rename_i op b64 b c _
    dsimp only
    have ht (n) : Canonical (cells (if r.peer.isNone then s.readStanding x.party .tile r.home r.phys n else s)) := by split <;> simp [h]
    rw [cells_scrStore]
    split
    · exact ht _
    · rw [cells_mk]; exact (ht _).setPeer ..
    · exact canonical_homeRmw (ht _) ..

@[simp] theorem canonical_imageStop {s : State} (h : Canonical (cells s)) (core x r w va) : Canonical (cells (s.imageStop core x r w va)) := by
  cases w <;> simp [State.imageStop, h]

@[simp] theorem canonical_imageHeader {s : State} (h : Canonical (cells s)) (core x im asid r) :
    Canonical (cells (s.imageHeader core x im asid r)) := by
  unfold State.imageHeader
  dsimp only
  (repeat' split) <;> simp [h]

@[simp] theorem canonical_imageBody {s : State} (h : Canonical (cells s)) (core x im asid region r) :
    Canonical (cells (s.imageBody core x im asid region r).1) := by
  unfold State.imageBody
  dsimp only
  (repeat' split) <;> simp [h]

@[simp] theorem cells_completeReq (s : State) (core x n) : cells (s.completeReq core x n) = cells s := by
  unfold State.completeReq
  dsimp only
  split <;> simp

@[simp] theorem canonical_sendOut {s : State} (h : Canonical (cells s)) core x region r : Canonical (cells (s.sendOut core x region r)) := by
  simp [State.sendOut, h]

@[simp] theorem canonical_countRatom {s : State} (h : Canonical (cells s)) (b x evs) : Canonical (cells (s.countRatom b x evs)) := by
  have hc := canonical_countEvents h (s.nowAt x.who) b x.pc (evs.map fun e => (0, e))
  unfold State.countRatom
  dsimp only
  split
  · have ht := canonical_of_fst ‹_› hc
    split <;> simp [ht]
  · exact canonical_of_fst ‹_› hc

@[simp] theorem execCopyRequestComplete_keeps {s : State} (h : Canonical (cells s)) (core i) : OutKeeps (execCopyRequestComplete core i s) := by
  have hu (seq f) : Canonical (cells (s.tick.updCmd core seq f)) := by simpa using h
  unfold execCopyRequestComplete
  dsimp only
  split
  · simpa using h
  · split
    · simpa using h
    · refine outKeeps_ite (by simpa using h) (outKeeps_ite (by simpa using h) ?_)
      split
      · split
        · simp [h]
        · split <;> simp [canonical_of_fst ‹_› (canonical_imageBody (hu _ _) ..)]
      · simp [h]
      · (repeat' split) <;> simp [h]
      · simp [h]

@[simp] theorem issueCmd_keeps {s : State} (h : Canonical (cells s)) (c x locks f) : ResKeeps (s.issueCmd c x locks f) := by
  unfold State.issueCmd
  dsimp only
  split <;> simp [h]

@[simp] theorem refuseAtIssue_keeps {s : State} (h : Canonical (cells s)) (c x addr f) : ResKeeps (s.refuseAtIssue c x addr f) :=
  canonical_refuseCmd (by simpa using h) ..

@[simp] theorem cells_recordAt (s : State) (c a n) : cells (s.recordAt c a n).1 = cells s := cells_scrSee ..

@[simp] theorem copyWord_keeps {s : State} (h : Canonical (cells s)) (c o kind toScratch) : ResKeeps (s.copyWord c o kind toScratch) := by
  refine atHome_keeps h c fun t ht => ?_
  have hr {core slot id r} (e : (if (!o.ring) = true then none else match t.ring core slot id with
      | none => some (trapAux t c .ringErr 0 id)
      | some r => r.err.map fun e => Res.trap t (TrapArgs.reported ((Cause.ofCode e.1).getD .ringErr) e.2 c.active)) = some r) : ResKeeps r := by
    split at e
    · cases e
    · split at e
      · cases e; exact ht
      · obtain ⟨_, _, rfl⟩ := Option.map_eq_some_iff.1 e; exact ht
  have htrap (x a n) := trapAux_keeps ht c x a n
  refine resKeeps_ite (htrap ..) (resKeeps_ite (htrap ..) (resKeeps_ite (htrap ..) ?_))
  dsimp only
  split
  · exact resKeeps_getD (fun r e => hr e) (refuseAtIssue_keeps ht ..)
  · refine resKeeps_ite (htrap ..) (resKeeps_ite (htrap ..) ?_)
    split
    · exact hr ‹_›
    · refine resKeeps_ite (htrap ..) ?_
      split
      · exact refuseAtIssue_keeps ht ..
      · refine issueCmd_keeps ?_ ..
        split <;> simpa using ht

@[simp] theorem execCpy_keeps {s : State} (h : Canonical (cells s)) o : OutKeeps (execCpy o s) := by
  exact issue_keeps h fun c t ht => by simp [ht]

@[simp] theorem execGth_keeps {s : State} (h : Canonical (cells s)) o : OutKeeps (execGth o s) := by
  exact issue_keeps h fun c t ht => by simp [ht]

@[simp] theorem execSct_keeps {s : State} (h : Canonical (cells s)) o : OutKeeps (execSct o s) := by
  exact issue_keeps h fun c t ht => by simp [ht]

@[simp] theorem sendWord_keeps {s : State} (h : Canonical (cells s)) (c a id kind toScratch ga byp) :
    ResKeeps (s.sendWord c a id kind toScratch ga byp) := by
  refine atHome_keeps h c fun t ht => ?_
  dsimp only
  (repeat' split) <;> simp [ht]

@[simp] theorem execRsend_keeps {s : State} (h : Canonical (cells s)) a id pol ga : OutKeeps (execRsend a id pol ga s) := by
  exact issue_keeps h fun c t ht => by simp [ht]

@[simp] theorem execRget_keeps {s : State} (h : Canonical (cells s)) a id pol : OutKeeps (execRget a id pol s) := by
  exact issue_keeps h fun c t ht => by simp [ht]

@[simp] theorem execRatom_keeps {s : State} (h : Canonical (cells s)) (a id op b64) : OutKeeps (execRatom a id op b64 s) := by
  refine issue_keeps h fun c t ht => atHome_keeps ht c fun u hu => ?_
  dsimp only
  (repeat' split) <;> simp [hu]

@[simp] theorem execLdimg_keeps {s : State} (h : Canonical (cells s)) (a id) : OutKeeps (execLdimg a id s) := by
  refine issue_keeps h fun c t ht => atHome_keeps ht c fun u hu => ?_
  dsimp only
  (repeat' split) <;> simp [hu]

end Sys2Proof.Canon
end

section
/-! SUPPORT. The words of the front and matrix streams, and the special registers they read. -/

namespace Sys2Proof.Canon

open Sys2Proof Sys2Proof.Machine Sys2Proof.Safety Sys2Proof.Laws

variable {α : Type}

@[simp] theorem elems_keeps {s : State} (h : Canonical (cells s)) c d sr f pack : ResKeeps (s.elems c d sr f pack) := by simp [State.elems, h]
@[simp] theorem fword_keeps {s : State} (h : Canonical (cells s)) c m d a b x op : ResKeeps (s.fword c m d a b x op) := by simp [State.fword, h]

@[simp] theorem execFadd_keeps {s : State} (h : Canonical (cells s)) m o : OutKeeps (execFadd m o s) := by
  exact issue_keeps h fun c t ht => by simp [ht]

@[simp] theorem execFsub_keeps {s : State} (h : Canonical (cells s)) m o : OutKeeps (execFsub m o s) := by
  exact issue_keeps h fun c t ht => by simp [ht]

@[simp] theorem execFmul_keeps {s : State} (h : Canonical (cells s)) m o : OutKeeps (execFmul m o s) := by
  exact issue_keeps h fun c t ht => by simp [ht]

@[simp] theorem execFfma_keeps {s : State} (h : Canonical (cells s)) m o : OutKeeps (execFfma m o s) := by
  exact issue_keeps h fun c t ht => by simp [ht]

@[simp] theorem execFdiv_keeps {s : State} (h : Canonical (cells s)) m o : OutKeeps (execFdiv m o s) := by
  exact issue_keeps h fun c t ht => by simp [ht]

@[simp] theorem execFsqrt_keeps {s : State} (h : Canonical (cells s)) m o : OutKeeps (execFsqrt m o s) := by
  exact issue_keeps h fun c t ht => by simp [ht]

@[simp] theorem fpick_keeps {s : State} (h : Canonical (cells s)) c t larger o : ResKeeps (s.fpick c t larger o) := by simp [State.fpick, h]

@[simp] theorem execFmin_keeps {s : State} (h : Canonical (cells s)) t o : OutKeeps (execFmin t o s) := by
  exact issue_keeps h fun c t ht => by simp [ht]

@[simp] theorem execFmax_keeps {s : State} (h : Canonical (cells s)) t o : OutKeeps (execFmax t o s) := by
  exact issue_keeps h fun c t ht => by simp [ht]

@[simp] theorem execFset_keeps {s : State} (h : Canonical (cells s)) t cmp na o : OutKeeps (execFset t cmp na o s) := by
  exact issue_keeps h fun c t ht => by simp [ht]

@[simp] theorem execFclass_keeps {s : State} (h : Canonical (cells s)) t o : OutKeeps (execFclass t o s) := by
  exact issue_keeps h fun c t ht => by simp [ht]

@[simp] theorem execFscale_keeps {s : State} (h : Canonical (cells s)) m o : OutKeeps (execFscale m o s) := by
  exact issue_keeps h fun c t ht => by simp [ht]

@[simp] theorem execFrnd_keeps {s : State} (h : Canonical (cells s)) m o : OutKeeps (execFrnd m o s) := by
  exact issue_keeps h fun c t ht => by simp [ht]

@[simp] theorem sfu_keeps {s : State} (h : Canonical (cells s)) c op ftz o : ResKeeps (s.sfu c op ftz o) := by simp [State.sfu, h]

@[simp] theorem execFrcp_keeps {s : State} (h : Canonical (cells s)) ftz o : OutKeeps (execFrcp ftz o s) := by
  exact issue_keeps h fun c t ht => by simp [ht]

@[simp] theorem execFrsq_keeps {s : State} (h : Canonical (cells s)) ftz o : OutKeeps (execFrsq ftz o s) := by
  exact issue_keeps h fun c t ht => by simp [ht]

@[simp] theorem execFexp2_keeps {s : State} (h : Canonical (cells s)) ftz o : OutKeeps (execFexp2 ftz o s) := by
  exact issue_keeps h fun c t ht => by simp [ht]

@[simp] theorem execFlog2_keeps {s : State} (h : Canonical (cells s)) ftz o : OutKeeps (execFlog2 ftz o s) := by
  exact issue_keeps h fun c t ht => by simp [ht]

@[simp] theorem execFsin_keeps {s : State} (h : Canonical (cells s)) ftz o : OutKeeps (execFsin ftz o s) := by
  exact issue_keeps h fun c t ht => by simp [ht]

@[simp] theorem execFcos_keeps {s : State} (h : Canonical (cells s)) ftz o : OutKeeps (execFcos ftz o s) := by
  exact issue_keeps h fun c t ht => by simp [ht]

@[simp] theorem execFtanh_keeps {s : State} (h : Canonical (cells s)) ftz o : OutKeeps (execFtanh ftz o s) := by
  exact issue_keeps h fun c t ht => by simp [ht]

@[simp] theorem execCvt_keeps {s : State} (h : Canonical (cells s)) src dst rm ov o : OutKeeps (execCvt src dst rm ov o s) := by
  exact issue_keeps h fun c t ht => by simp [ht]

@[simp] theorem execPk8_keeps {s : State} (h : Canonical (cells s)) f rm ov o : OutKeeps (execPk8 f rm ov o s) := by
  exact issue_keeps h fun c t ht => by simp [ht]

@[simp] theorem execUpk8_keeps {s : State} (h : Canonical (cells s)) f o : OutKeeps (execUpk8 f o s) := by
  exact issue_keeps h fun c t ht => by simp [ht]

@[simp] theorem execPk4_keeps {s : State} (h : Canonical (cells s)) o : OutKeeps (execPk4 o s) := by
  exact issue_keeps h fun c t ht => by simp [ht]

@[simp] theorem execUpk4_keeps {s : State} (h : Canonical (cells s)) o : OutKeeps (execUpk4 o s) := by
  exact issue_keeps h fun c t ht => by simp [ht]

@[simp] theorem execQscl_keeps {s : State} (h : Canonical (cells s)) m o : OutKeeps (execQscl m o s) := by
  exact issue_keeps h fun c t ht => by simp [ht]

@[simp] theorem execScac_keeps {s : State} (h : Canonical (cells s)) o : OutKeeps (execScac o s) := by
  exact issue_keeps h fun c t ht => by simp [ht]

@[simp] theorem cells_grant (s : State) (core slot own cuts scr) : cells (s.grant core slot own cuts scr).1 = cells s := by
  unfold State.grant
  dsimp only
  split <;> simp

@[simp] theorem cells_expireGrows (s : State) core : cells (s.expireGrows core) = cells s := by simp [State.expireGrows]
@[simp] theorem cells_dropGrow (s : State) c : cells (s.dropGrow c) = cells s := by simp [State.dropGrow]

theorem growWord_keeps {s : State} (h : Canonical (cells s)) {c cuts scr cause k} (hk : ∀ t n, Canonical (cells t) → ResKeeps (k t n)) :
    ResKeeps (s.growWord c cuts scr cause k) := by
  unfold State.growWord
  dsimp only
  split
  · split <;> simp [h, hk]
  · split
    · exact hk _ _ (by simpa using h)
    · split <;> simp [h]

theorem wholeGang_keeps {s : State} (h : Canonical (cells s)) {c k} (hk : ∀ t w, Canonical (cells t) → ResKeeps (k t w)) :
    ResKeeps (s.wholeGang c k) := by
  refine atHome_keeps h c fun t ht => ?_
  (repeat' split) <;> simp [ht, hk]

@[simp] theorem execFgrow_keeps {s : State} (h : Canonical (cells s)) (n) : OutKeeps (execFgrow n s) := by
  refine issue_keeps h fun c t ht => wholeGang_keeps ht fun u w hu => ?_
  exact resKeeps_ite (trapAux_keeps hu ..) (growWord_keeps hu fun v _ hv => by simpa using hv)

@[simp] theorem execFtrim_keeps {s : State} (h : Canonical (cells s)) (n) : OutKeeps (execFtrim n s) := by
  refine issue_keeps h fun c t ht => wholeGang_keeps ht fun u w hu => ?_
  refine resKeeps_ite (trapAux_keeps hu ..) ?_
  (repeat' split) <;> simp [hu]

@[simp] theorem sgrowWord_keeps {s : State} (h : Canonical (cells s)) (c d k swz) : ResKeeps (s.sgrowWord c d k swz) := by
  refine atHome_keeps h c fun t ht => resKeeps_ite (trapAux_keeps ht ..) ?_
  exact released_keeps ht fun u hu => growWord_keeps hu fun v _ hv => by simpa using hv

@[simp] theorem execSgrow_keeps {s : State} (h : Canonical (cells s)) d k : OutKeeps (execSgrow d k s) := by
  exact issue_keeps h fun c t ht => by simp [ht]

@[simp] theorem execSgrowSwz_keeps {s : State} (h : Canonical (cells s)) d k : OutKeeps (execSgrowSwz d k s) := by
  exact issue_keeps h fun c t ht => by simp [ht]

@[simp] theorem cells_cutStores (s : State) core slot z : cells (s.cutStores core slot z) = cells s := by simp [State.cutStores]

@[simp] theorem execStrim_keeps {s : State} (h : Canonical (cells s)) (k) : OutKeeps (execStrim k s) := by
  refine issue_keeps h fun c t ht => atHome_keeps ht c fun u hu => ?_
  split
  · exact hu
  · refine resKeeps_ite (trapAux_keeps hu ..) ?_
    dsimp only
    (repeat' split) <;> simp [hu]

@[simp] theorem execOcwb_keeps {s : State} (h : Canonical (cells s)) g : OutKeeps (execOcwb g s) := by
  exact issue_keeps h fun c t ht => by simp [ht]

@[simp] theorem execGrowGrant_keeps {s : State} (h : Canonical (cells s)) (core) : OutKeeps (execGrowGrant core s) := by
  unfold execGrowGrant
  dsimp only
  split
  · simp [h]
  · split <;> simp [h]

@[simp] theorem execGrowDeadline_keeps {s : State} (h : Canonical (cells s)) core : OutKeeps (execGrowDeadline core s) := by
  simp [execGrowDeadline, h]

@[simp] theorem cells_readQueue (s : State) q : cells (s.readQueue q) = cells s := by simp [State.readQueue]
@[simp] theorem cells_useQueue (s : State) q : cells (s.useQueue q) = cells s := by simp [State.useQueue]
@[simp] theorem canonical_writeFree {s : State} (h : Canonical (cells s)) q : Canonical (cells (s.writeFree q)) := by simp [State.writeFree, h]
@[simp] theorem cells_noteBusy (s : State) again r : cells (s.noteBusy again r) = cells s := by simp [State.noteBusy]

theorem enqueue_keeps {s : State} (h : Canonical (cells s)) {q card origin t} (ht : s.enqueue q card origin = some t) : Canonical (cells t) := by
  unfold State.enqueue at ht
  dsimp only at ht
  split at ht
  · cases ht
  · cases ht; simp [h]

@[simp] theorem execDqpush_keeps {s : State} (h : Canonical (cells s)) (a g) : OutKeeps (execDqpush a g s) := by
  refine issue_keeps h fun c t ht => released_keeps ht fun u hu => ?_
  (repeat' split) <;> simp [hu]

@[simp] theorem cells_endMatrix (s : State) core b : cells (s.endMatrix core b) = cells s := by simp [State.endMatrix]
@[simp] theorem cells_stopMatrix (s : State) core b : cells (s.stopMatrix core b) = cells s := by simp [State.stopMatrix]

@[simp] theorem execMstart_keeps {s : State} (h : Canonical (cells s)) : OutKeeps (execMstart s) := by
  refine issue_keeps h fun c t ht => released_keeps ht fun u hu => ?_
  dsimp only
  (repeat' split) <;> simp [hu]

@[simp] theorem execMstop_keeps {s : State} (h : Canonical (cells s)) : OutKeeps (execMstop s) := by
  refine issue_keeps h fun c t ht => logged_keeps ht c fun u hu => ?_
  dsimp only
  (repeat' split) <;> simp [hu]

theorem readCard_keeps {s : State} (h : Canonical (cells s)) {c va t card} (ht : s.readCard c va = .ok (some (t, card))) : Canonical (cells t) := by
  unfold State.readCard at ht
  dsimp only at ht
  split at ht
  · split at ht <;> cases ht
  · split at ht
    · cases ht
    · cases ht
    · split at ht
      · cases ht
      · split at ht <;> cases ht <;> simp [h]

@[simp] theorem execEnq_keeps {s : State} (h : Canonical (cells s)) (a id) : OutKeeps (execEnq a id s) := by
  refine issue_keeps h fun c t ht => ?_
  have hu : Canonical (cells (t.useQueue id.toNat)) := by simpa using ht
  refine resKeeps_ite (trapAux_keeps hu ..) (resKeeps_ite (trapAux_keeps hu ..) (released_keeps hu fun v hv => ?_))
  split
  · exact hv
  · exact hv
  · have hw := readCard_keeps hv ‹_›
    refine resKeeps_ite (trapAux_keeps hw ..) ?_
    split
    · exact enqueue_keeps hw ‹_›
    · exact hw

@[simp] theorem alu1_keeps {s : State} (h : Canonical (cells s)) c o f : ResKeeps (s.alu1 c o f) := by simp [State.alu1, h]
@[simp] theorem alu2_keeps {s : State} (h : Canonical (cells s)) c o f : ResKeeps (s.alu2 c o f) := by simp [State.alu2, h]
@[simp] theorem alu3_keeps {s : State} (h : Canonical (cells s)) c o f : ResKeeps (s.alu3 c o f) := by simp [State.alu3, h]

@[simp] theorem execIadd_keeps {s : State} (h : Canonical (cells s)) o : OutKeeps (execIadd o s) := by
  exact issue_keeps h fun c t ht => by simp [ht]

@[simp] theorem execIsub_keeps {s : State} (h : Canonical (cells s)) o : OutKeeps (execIsub o s) := by
  exact issue_keeps h fun c t ht => by simp [ht]

@[simp] theorem execImul_keeps {s : State} (h : Canonical (cells s)) o : OutKeeps (execImul o s) := by
  exact issue_keeps h fun c t ht => by simp [ht]

@[simp] theorem execImulh_keeps {s : State} (h : Canonical (cells s)) sgd o : OutKeeps (execImulh sgd o s) := by
  exact issue_keeps h fun c t ht => by simp [ht]

@[simp] theorem execImad_keeps {s : State} (h : Canonical (cells s)) o : OutKeeps (execImad o s) := by
  exact issue_keeps h fun c t ht => by simp [ht]

@[simp] theorem execIdiv_keeps {s : State} (h : Canonical (cells s)) sgd o : OutKeeps (execIdiv sgd o s) := by
  exact issue_keeps h fun c t ht => by simp [ht]

@[simp] theorem execIrem_keeps {s : State} (h : Canonical (cells s)) sgd o : OutKeeps (execIrem sgd o s) := by
  exact issue_keeps h fun c t ht => by simp [ht]

@[simp] theorem execImin_keeps {s : State} (h : Canonical (cells s)) sgd o : OutKeeps (execImin sgd o s) := by
  exact issue_keeps h fun c t ht => by simp [ht]

@[simp] theorem execImax_keeps {s : State} (h : Canonical (cells s)) sgd o : OutKeeps (execImax sgd o s) := by
  exact issue_keeps h fun c t ht => by simp [ht]

@[simp] theorem execIabs_keeps {s : State} (h : Canonical (cells s)) o : OutKeeps (execIabs o s) := by
  exact issue_keeps h fun c t ht => by simp [ht]

@[simp] theorem execIset_keeps {s : State} (h : Canonical (cells s)) cmp o : OutKeeps (execIset cmp o s) := by
  exact issue_keeps h fun c t ht => by simp [ht]

@[simp] theorem execSel_keeps {s : State} (h : Canonical (cells s)) o c : OutKeeps (execSel o c s) := by
  exact issue_keeps h fun c t ht => by simp [ht]

@[simp] theorem execLea_keeps {s : State} (h : Canonical (cells s)) o sh : OutKeeps (execLea o sh s) := by
  exact issue_keeps h fun c t ht => by simp [ht]

@[simp] theorem execMov_keeps {s : State} (h : Canonical (cells s)) o : OutKeeps (execMov o s) := by
  exact issue_keeps h fun c t ht => by simp [ht]

@[simp] theorem execMovi_keeps {s : State} (h : Canonical (cells s)) d g imm : OutKeeps (execMovi d g imm s) := by
  exact issue_keeps h fun c t ht => by simp [ht]

@[simp] theorem cells_setBits (s : State) c n k v : cells (s.setBits c n k v) = cells s := by simp [State.setBits]

@[simp] theorem execX2p_keeps {s : State} (h : Canonical (cells s)) d a g ha : OutKeeps (execX2p d a g ha s) := by
  exact issue_keeps h fun c t ht => by simp [ht]

@[simp] theorem execAnd_keeps {s : State} (h : Canonical (cells s)) o : OutKeeps (execAnd o s) := by
  exact issue_keeps h fun c t ht => by simp [ht]

@[simp] theorem execOr_keeps {s : State} (h : Canonical (cells s)) o : OutKeeps (execOr o s) := by
  exact issue_keeps h fun c t ht => by simp [ht]

@[simp] theorem execXor_keeps {s : State} (h : Canonical (cells s)) o : OutKeeps (execXor o s) := by
  exact issue_keeps h fun c t ht => by simp [ht]

@[simp] theorem execAndn_keeps {s : State} (h : Canonical (cells s)) o : OutKeeps (execAndn o s) := by
  exact issue_keeps h fun c t ht => by simp [ht]

@[simp] theorem execLop3_keeps {s : State} (h : Canonical (cells s)) o tab : OutKeeps (execLop3 o tab s) := by
  exact issue_keeps h fun c t ht => by simp [ht]

@[simp] theorem execShl_keeps {s : State} (h : Canonical (cells s)) o : OutKeeps (execShl o s) := by
  exact issue_keeps h fun c t ht => by simp [ht]

@[simp] theorem execShr_keeps {s : State} (h : Canonical (cells s)) o : OutKeeps (execShr o s) := by
  exact issue_keeps h fun c t ht => by simp [ht]

@[simp] theorem execSar_keeps {s : State} (h : Canonical (cells s)) o : OutKeeps (execSar o s) := by
  exact issue_keeps h fun c t ht => by simp [ht]

@[simp] theorem execRot_keeps {s : State} (h : Canonical (cells s)) o : OutKeeps (execRot o s) := by
  exact issue_keeps h fun c t ht => by simp [ht]

@[simp] theorem execClz_keeps {s : State} (h : Canonical (cells s)) o : OutKeeps (execClz o s) := by
  exact issue_keeps h fun c t ht => by simp [ht]

@[simp] theorem execPopc_keeps {s : State} (h : Canonical (cells s)) o : OutKeeps (execPopc o s) := by
  exact issue_keeps h fun c t ht => by simp [ht]

@[simp] theorem execBrev_keeps {s : State} (h : Canonical (cells s)) o : OutKeeps (execBrev o s) := by
  exact issue_keeps h fun c t ht => by simp [ht]

@[simp] theorem execBfx_keeps {s : State} (h : Canonical (cells s)) sgd o : OutKeeps (execBfx sgd o s) := by
  exact issue_keeps h fun c t ht => by simp [ht]

@[simp] theorem execBfi_keeps {s : State} (h : Canonical (cells s)) o : OutKeeps (execBfi o s) := by
  exact issue_keeps h fun c t ht => by simp [ht]

@[simp] theorem execPlop_keeps {s : State} (h : Canonical (cells s)) d a b c g tab : OutKeeps (execPlop d a b c g tab s) := by
  exact issue_keeps h fun c t ht => by simp [ht]

@[simp] theorem execP2x_keeps {s : State} (h : Canonical (cells s)) d a g hd : OutKeeps (execP2x d a g hd s) := by
  exact issue_keeps h fun c t ht => by simp [ht]

@[simp] theorem cells_updMat (s : State) c f : cells (s.updMat c f) = cells s := by simp [State.updMat]

theorem matWord_keeps {s : State} (h : Canonical (cells s)) {i op} {k : Ctx → State → Matrix → Res}
    (hk : ∀ c t m, Canonical (cells t) → ResKeeps (k c t m)) : OutKeeps (s.matWord i op k) := by
  refine issue_keeps h fun c t ht => ?_
  split
  · exact resKeeps_ite (by simpa using ht) (hk _ _ _ ht)
  · exact ht

@[simp] theorem canonical_matEvents {s : State} (h : Canonical (cells s)) (c evs) : Canonical (cells (s.matEvents c evs).1) :=
  canonical_countEvents h ..

@[simp] theorem matDone_keeps {s : State} (h : Canonical (cells s)) due : ResKeeps (matDone s due) := by
  unfold matDone
  (repeat' split) <;> simp [h]

theorem cells_matRead {s t : State} {c a n bs} (h : s.matRead c a n = .ok (t, bs)) : cells t = cells s := by
  unfold State.matRead at h
  dsimp only at h
  split at h
  · cases h
  · cases h; simp

@[simp] theorem underLocks_keeps {s : State} (h : Canonical (cells s)) c locks dest {k} (hk : ∀ a0 a1, Canonical (cells a0) → ResKeeps (k a0 a1)) :
    ResKeeps (s.underLocks c locks dest k) := by
  unfold State.underLocks
  dsimp only
  (repeat' split) <;> simp [h, hk]

@[simp] theorem matRing_keeps {s : State} (h : Canonical (cells s)) c id {k} (hk : ∀ a0, ResKeeps (k a0)) : ResKeeps (s.matRing c id k) := by
  unfold State.matRing
  (repeat' split) <;> simp [h, hk]

@[simp] theorem cells_matTake (s : State) (c id r) : cells (s.matTake c id r).1 = cells s := by
  unfold State.matTake
  dsimp only
  split <;> simp

@[simp] theorem cells_matGive (s : State) c id slot : cells (s.matGive c id slot) = cells s := by
  unfold State.matGive
  (repeat' split) <;> simp

theorem atRow_keeps {s : State} (h : Canonical (cells s)) {c id k} (hk : ∀ t a b, Canonical (cells t) → ResKeeps (k t a b)) :
    ResKeeps (s.atRow c id k) := by
  unfold State.atRow
  dsimp only
  split
  · exact hk _ _ _ h
  · refine matRing_keeps h c id fun r => ?_
    have hm : Canonical (cells (s.matTake c id r).1) := by simpa using h
    split
    · exact canonical_of_fst ‹_› hm
    · exact hk _ _ _ (by simpa using canonical_of_fst ‹_› hm)

theorem bind_eq_ok {ε α β : Type} {r : Except ε α} {k : α → Except ε β} {y : β} (h : r.bind k = .ok y) : ∃ x, r = .ok x ∧ k x = .ok y := by
  cases r with
  | error e => cases h
  | ok x => exact ⟨x, rfl, h⟩

theorem map_eq_ok {ε α β : Type} {r : Except ε α} {k : α → β} {y : β} (h : r.map k = .ok y) : ∃ x, r = .ok x ∧ k x = y := by
  cases r with
  | error e => cases h
  | ok x => exact ⟨x, rfl, Except.ok.inj h⟩

theorem cells_readTile {s t : State} {c fb cols base stride tile} (h : s.readTile c fb cols base stride = .ok (t, tile)) : cells t = cells s := by
  unfold State.readTile at h
  obtain ⟨⟨u, b⟩, hu, he⟩ := map_eq_ok h
  cases he
  have hl (l : List Nat) (r : Except TrapArgs (State × Tbl Byte)) (hr : ∀ p, r = .ok p → cells p.1 = cells s) (p : State × Tbl Byte)
      (hp : l.foldl (fun (r : Except TrapArgs (State × Tbl Byte)) k => r.bind fun p =>
        (p.1.matRead c (base + k * stride) (16 * colBytes fb)).map fun q => (q.1, Tbl.setList 0 p.2 (k * (16 * colBytes fb)) q.2)) r = .ok p) :
      cells p.1 = cells s := by
    induction l generalizing r with
    | nil => exact hr p hp
    | cons k l ih =>
      refine ih _ (fun q hq => ?_) hp
      obtain ⟨q0, h0, h1⟩ := bind_eq_ok hq
      obtain ⟨⟨v, bs⟩, h2, rfl⟩ := map_eq_ok h1
      exact (cells_matRead h2).trans (hr _ h0)
  exact hl _ _ (fun p hp => by cases hp; rfl) _ hu

theorem loadTile_keeps {s : State} (h : Canonical (cells s)) {c fb cols base stride give}
    (hg : ∀ t, Canonical (cells t) → Canonical (cells (give t))) :
    ResKeeps (s.loadTile c fb cols base stride give) := by
  unfold State.loadTile
  split
  · exact hg s h
  · have ht := cells_readTile ‹_›
    simp [ht, h]

@[simp] theorem execMldb_keeps {s : State} (h : Canonical (cells s)) (fb id ma mb slot) : OutKeeps (execMldb fb id ma mb slot s) := by
  refine matWord_keeps h fun c t m ht => ?_
  have htrap (x a n) := trapAux_keeps ht c x a n
  dsimp only
  split
  · exact htrap ..
  · refine resKeeps_ite (htrap ..) (resKeeps_ite (resKeeps_ite (htrap ..) ?_) ?_)
    · exact underLocks_keeps ht c _ _ fun u _ hu => loadTile_keeps hu fun _ hv => hv
    · split
      · refine underLocks_keeps ht c _ _ fun u _ hu => loadTile_keeps hu fun v hv => ?_
        split <;> simp [hv]
      · refine matRing_keeps ht c _ fun r => resKeeps_ite ht ?_
        have hm : Canonical (cells (t.matTake c id.toNat r).1) := by simpa using ht
        split
        · exact canonical_of_fst ‹_› hm
        · have hu := canonical_of_fst ‹_› hm
          refine resKeeps_ite (trapAux_keeps (by simpa using hu) ..) (resKeeps_ite (trapAux_keeps (by simpa using hu) ..) ?_)
          exact underLocks_keeps (by simpa using hu) c _ _ fun v _ hv => loadTile_keeps hv fun w hw => by simpa using hw

@[simp] theorem rowDone_keeps {s : State} (h : Canonical (cells s)) c o slot row : ResKeeps (s.rowDone c o slot row) := by
  unfold State.rowDone
  dsimp only
  (repeat' split) <;> simp [h]

@[simp] theorem mulRow_keeps {s : State} (h : Canonical (cells s)) (c o p parts r) : ResKeeps (s.mulRow c o p parts r) := by
  refine atRow_keeps h fun t slot row ht => ?_
  dsimp only
  split
  · refine resKeeps_ite (trapAux_keeps (by simpa using ht) ..) ?_
    split
    · simpa using ht
    · have hu := cells_matRead ‹_›
      exact rowDone_keeps (by simp [hu, ht]) ..
  · exact ht

@[simp] theorem mulRun_keeps {s : State} (h : Canonical (cells s)) (c o p parts r) : ResKeeps (s.mulRun c o p parts r) := by
  unfold State.mulRun
  split
  · exact h
  · refine resKeeps_ite (mulRow_keeps h ..) (resKeeps_ite (by simpa using h) (atRow_keeps h fun t _ _ ht => ?_))
    dsimp only
    (repeat' split) <;> simp [ht]

@[simp] theorem mulWord_keeps {s : State} (h : Canonical (cells s)) (c m o parts) : ResKeeps (s.mulWord c m o parts) := by
  unfold State.mulWord
  (repeat' split) <;> simp [h]

@[simp] theorem execMmul_keeps {s : State} (h : Canonical (cells s)) o : OutKeeps (execMmul o s) := by
  exact matWord_keeps h fun c t m ht => by simp [ht]

@[simp] theorem execMmulb_keeps {s : State} (h : Canonical (cells s)) o : OutKeeps (execMmulb o s) := by
  exact matWord_keeps h fun c t m ht => by simp [ht]

@[simp] theorem execMscale_keeps {s : State} (h : Canonical (cells s)) (id ma mb) : OutKeeps (execMscale id ma mb s) := by
  refine matWord_keeps h fun c t m ht => ?_
  have htrap (x a n) := trapAux_keeps ht c x a n
  refine resKeeps_ite (htrap ..) (resKeeps_ite (htrap ..) (resKeeps_ite ht (resKeeps_ite (htrap ..) ?_)))
  refine underLocks_keeps ht c _ _ fun u _ hu => ?_
  split
  · exact hu
  · have hv := cells_matRead ‹_›
    split
    · simpa [hv] using hu
    · have hw := cells_matRead ‹_›
      exact matDone_keeps (canonical_matEvents (by simp [hw, hv, hu]) ..) _

@[simp] theorem execMzero_keeps {s : State} (h : Canonical (cells s)) (ma mb) : OutKeeps (execMzero ma mb s) := by
  refine matWord_keeps h fun c t m ht => ?_
  dsimp only
  (repeat' split) <;> simp [ht]

@[simp] theorem execMdrain_keeps {s : State} (h : Canonical (cells s)) (fa id ma mb rm ov) : OutKeeps (execMdrain fa id ma mb rm ov s) := by
  refine matWord_keeps h fun c t m ht => ?_
  have htrap (x a n) := trapAux_keeps ht c x a n
  dsimp only
  split
  · exact htrap ..
  · refine resKeeps_ite (htrap ..) (resKeeps_ite (htrap ..) (resKeeps_ite ht (resKeeps_ite (htrap ..) ?_)))
    split
    · exact ht
    · exact Res_fpTrap_keeps ht ..
    · refine underLocks_keeps ht c _ _ fun u _ hu => matDone_keeps (canonical_matEvents ?_ ..) _
      split <;> simp [hu]

@[simp] theorem matBcb_keeps {s : State} (h : Canonical (cells s)) c off {k} (hk : ∀ a0, Canonical (cells a0) → ResKeeps (k a0)) :
    ResKeeps (s.matBcb c off k) := by
  unfold State.matBcb
  (repeat' split) <;> simp [h, hk]

@[simp] theorem execMsig_keeps {s : State} (h : Canonical (cells s)) (k id ma) : OutKeeps (execMsig k id ma s) := by
  refine matWord_keeps h fun c t m ht => ?_
  cases k with
  | bcb =>
    refine matBcb_keeps ht c _ fun u hu => released_keeps hu fun v hv => ?_
    have ho (core slot off o) : Canonical (cells (v.bcbOp core slot off o).1) := by simpa using hv
    split <;> simp [canonical_of_fst ‹_› (ho ..)]
  | ring =>
    dsimp only
    (repeat' split) <;> simp [ht]
  | bar => exact barWord_keeps ht fun _ _ hu => hu

@[simp] theorem matWaitRing_keeps (n) {s : State} (h : Canonical (cells s)) (c id v) : ResKeeps (s.matWaitRing c id v n) := by
  induction n generalizing s with
  | zero => exact h
  | succ n ih =>
    refine matRing_keeps h c id fun r => resKeeps_ite (trapAux_keeps h ..) (resKeeps_ite h ?_)
    have hm : Canonical (cells (s.matTake c id r).1) := by simpa using h
    split
    · exact canonical_of_fst ‹_› hm
    · exact ih (by simpa using canonical_of_fst ‹_› hm)

@[simp] theorem execMwait_keeps {s : State} (h : Canonical (cells s)) (k id ma) : OutKeeps (execMwait k id ma s) := by
  refine matWord_keeps h fun c t m ht => ?_
  cases k with
  | bcb =>
    refine resKeeps_ite (trapAux_keeps ht ..) (matBcb_keeps ht c _ fun u hu => ?_)
    split <;> simp [hu]
  | ring => exact resKeeps_ite ht (matWaitRing_keeps _ ht ..)
  | bar => exact resKeeps_ite (waitAll_keeps ht ..) (barWord_keeps ht fun u _ hu => waitAll_keeps (by simpa using hu) ..)

@[simp] theorem execMloop_keeps {s : State} (h : Canonical (cells s)) ma off : OutKeeps (execMloop ma off s) := by
  exact matWord_keeps h fun c t m ht => by simp [ht]

@[simp] theorem execMset_keeps {s : State} (h : Canonical (cells s)) ma imm : OutKeeps (execMset ma imm s) := by
  exact matWord_keeps h fun c t m ht => by simp [ht]

@[simp] theorem execMend_keeps {s : State} (h : Canonical (cells s))  : OutKeeps (execMend s) := by
  exact matWord_keeps h fun c t m ht => by simp [ht]

end Sys2Proof.Canon
end

section
/-! SUPPORT. Cards, the dealing of blocks, ingest and the store queue. -/

namespace Sys2Proof.Canon

open Sys2Proof Sys2Proof.Machine Sys2Proof.Safety Sys2Proof.Laws

@[simp] theorem cells_readRegion (s : State) r : cells (s.readRegion r) = cells s := by simp [State.readRegion]
@[simp] theorem cells_readTable (s : State) r : cells (s.readTable r) = cells s := by simp [State.readTable]
@[simp] theorem cells_enterRotation (s : State) d r : cells (s.enterRotation d r) = cells s := by simp [State.enterRotation]
@[simp] theorem cells_useRegion (s : State) r : cells (s.useRegion r) = cells s := by simp [State.useRegion]
@[simp] theorem cells_syncRegion (s : State) r : cells (s.syncRegion r) = cells s := by simp [State.syncRegion]
@[simp] theorem canonical_leaveQueue {s : State} (h : Canonical (cells s)) q : Canonical (cells (s.leaveQueue q)) := by simp [State.leaveQueue, h]

@[simp] theorem canonical_readWait {s : State} (h : Canonical (cells s)) q : Canonical (cells (s.readWait q)) := by
  unfold State.readWait
  dsimp only
  (repeat' split) <;> simp [h]

theorem replays_keeps {s t : State} (h : Canonical (cells s)) {r kind d0 d1} (ht : s.replays r kind d0 d1 = some t) : Canonical (cells t) := by
  unfold State.replays at ht
  grind [cells_setRegion]

theorem traced_keeps {s t : State} (h : Canonical (cells s)) {r kind d0 d1} (ht : s.traced r kind d0 d1 = some t) : Canonical (cells t) := by
  obtain ⟨u, hu, rfl⟩ := Option.map_eq_some_iff.1 ht
  exact canonical_trace (replays_keeps h hu) ..

@[simp] theorem cells_install (s : State) core x : cells (s.install core x) = cells s := by simp [State.install]

@[simp] theorem cells_recall (s : State) (core slot) : cells (s.recall core slot) = cells s := by
  unfold State.recall
  split
  · rfl
  · refine cells_foldl (fun t n => ?_) _ _
    (repeat' split) <;> simp

@[simp] theorem cells_giveFrameGrants (s : State) core b : cells (s.giveFrameGrants core b) = cells s := by simp [State.giveFrameGrants]

theorem cells_unload {s t : State} {core slot x} (h : s.unload core slot = some (x, t)) : cells t = cells s := by
  unfold State.unload at h
  split at h
  · cases h
  · cases h; simp

theorem saveBlock_keeps {s t : State} (h : Canonical (cells s)) {core slot} (ht : s.saveBlock core slot = some t) : Canonical (cells t) := by
  unfold State.saveBlock at ht
  dsimp only at ht
  split at ht
  · have hu := cells_unload ‹_›
    cases ht
    rw [cells_mk, cells_eta]
    exact canonical_gaStore (canonical_foldl (fun _ p hv => canonical_gaStore hv ..) _ (by rwa [hu])) ..
  · cases ht

@[simp] theorem getD_saveBlock {s : State} (h : Canonical (cells s)) (core slot) : Canonical (cells ((s.saveBlock core slot).getD s)) := by
  cases ht : s.saveBlock core slot with
  | none => exact h
  | some t => exact saveBlock_keeps h ht

@[simp] theorem cells_restart (s : State) d roles : cells (s.restart d roles) = cells s := by simp [State.restart]

theorem discardBlock_keeps {s t : State} (h : Canonical (cells s)) {core slot} (ht : s.discardBlock core slot = some t) : Canonical (cells t) := by
  obtain ⟨⟨x, u⟩, hu, rfl⟩ := Option.map_eq_some_iff.1 ht
  simpa [cells_unload hu] using h

@[simp] theorem cells_closeRuns (s : State) : cells (s.closeRuns) = cells s := by simp [State.closeRuns]
@[simp] theorem cells_finishSave (s : State) unsaved : cells (s.finishSave unsaved) = cells s := by simp [State.finishSave]

@[simp] theorem canonical_saveStep {s : State} (h : Canonical (cells s)) : Canonical (cells s.saveStep) := by
  have hf (l : List (Nat × Nat × Block)) : Canonical (cells (l.foldl (fun s e =>
      let s := s.recall e.1 e.2.1
      if s.quiet e.1 e.2.1 then (s.saveBlock e.1 e.2.1).getD s else s) s)) := by
    refine canonical_foldl (fun t e ht => ?_) _ h
    have hr : Canonical (cells (t.recall e.1 e.2.1)) := by simpa using ht
    dsimp only
    split
    · exact getD_saveBlock hr ..
    · exact hr
  unfold State.saveStep
  dsimp only
  split
  · rw [cells_finishSave]; exact hf _
  · exact hf _

theorem preemptOne_keeps {s t : State} (h : Canonical (cells s)) {core slot} (ht : s.preemptOne core slot = some t) : Canonical (cells t) := by
  have hr : Canonical (cells (s.recall core slot)) := by simpa using h
  unfold State.preemptOne at ht
  dsimp only at ht
  split at ht
  · cases ht
  · split at ht
    · cases ht
    · split at ht
      · exact discardBlock_keeps hr ht
      · split at ht
        · exact saveBlock_keeps hr ht
        · cases ht

theorem makeRoom_keeps {n core} (l) {s t : State} (h : Canonical (cells s)) (ht : s.makeRoom n core l = some t) : Canonical (cells t) := by
  induction l generalizing s with
  | nil => cases ht
  | cons v l ih =>
    unfold State.makeRoom at ht
    split at ht
    · cases ht
    · have hu := preemptOne_keeps h ‹_›
      split at ht
      · cases ht; exact hu
      · exact ih hu ht

@[simp] theorem cells_runOf (s : State) (q c) : cells (s.runOf q c).2.2 = cells s := by
  unfold State.runOf
  split <;> simp

theorem grab_keeps {s t : State} (h : Canonical (cells s)) {run r r'} (ht : s.grab run r = some (t, r')) : Canonical (cells t) := by
  unfold State.grab at ht
  dsimp only at ht
  split at ht
  · cases ht
  · split at ht
    · cases ht
    · obtain ⟨u, hu, hv⟩ := Option.bind_eq_some_iff.1 ‹_›
      have hc : Canonical (cells u) := by
        split at hu
        · exact traced_keeps h hu
        · cases hu; exact h
      cases ht
      simpa using traced_keeps hc hv

theorem grabAll_keeps {run} (n) {s t : State} {r r'} (h : Canonical (cells s)) (ht : s.grabAll run r n = some (t, r')) : Canonical (cells t) := by
  induction n generalizing s r with
  | zero => cases ht; exact h
  | succ n ih =>
    unfold State.grabAll at ht
    split at ht
    · cases ht; exact h
    · split at ht
      · cases ht
      · exact ih (grab_keeps h ‹_›) ht

@[simp] theorem cells_releaseRun (s : State) run a : cells (s.releaseRun run a) = cells s := by simp [State.releaseRun]

theorem doneIncrement_keeps {s t : State} (h : Canonical (cells s)) {run r} (ht : s.doneIncrement run r = some t) : Canonical (cells t) := by
  unfold State.doneIncrement at ht
  dsimp only at ht
  split at ht
  · cases ht; exact h
  · split at ht
    · cases ht; simp [h]
    · split at ht
      · split at ht <;> cases ht
        simp [h]
      · split at ht
        · cases ht; simp [h]
        · split at ht <;> cases ht
          simp [h]

@[simp] theorem canonical_settleRun {s : State} (h : Canonical (cells s)) (run) : Canonical (cells (s.settleRun run)) := by
  unfold State.settleRun
  split
  · exact h
  · split
    · exact h
    · split
      · simpa using h
      · split
        · exact h
        · rename_i hd
          have hr : Canonical (cells (s.setRun run none)) := by rwa [cells_setRun]
          refine canonical_foldl (fun t q ht => ?_) _ (doneIncrement_keeps hr hd)
          (repeat' split) <;> simp [ht]

@[simp] theorem canonical_settleRuns {s : State} (h : Canonical (cells s)) : Canonical (cells s.settleRuns) := by
  unfold State.settleRuns
  exact canonical_foldl (fun _ r ht => canonical_settleRun ht r) _ h

@[simp] theorem canonical_refuseCard {s : State} (h : Canonical (cells s)) (q c cause addr) : Canonical (cells (s.refuseCard q c cause addr)) := by
  have hk (k : Nat) (r : CardRun) : Canonical (cells ((s.setRun k (some r)).settleRun k)) :=
    canonical_settleRun (by simpa using h) k
  unfold State.refuseCard
  dsimp only
  refine canonical_leaveQueue (canonical_postDevice ?_ ..) _
  split
  · exact hk ..
  · exact h

theorem placeSaved_keeps {s t : State} (h : Canonical (cells s)) {i x} (ht : s.placeSaved i x = some t) : Canonical (cells t) := by
  have hk (l : List Saved) (k : Nat) (r : CardRun) :
      Canonical (cells (({ s with saved := l }.setRun k (some r)).settleRun k)) :=
    canonical_settleRun (by simpa using h) k
  unfold State.placeSaved at ht
  dsimp only at ht
  split_ifs at ht
  · rw [Option.some.injEq] at ht
    subst ht
    split
    · exact hk ..
    · simpa using h
  · split at ht
    · cases ht
    · rw [Option.some.injEq] at ht
      subst ht
      simpa using h

theorem fresh_keeps {s t : State} (h : Canonical (cells s)) {k c r f}
    (ht : Option.map (fun p : State × CardRun => if p.2.remaining = 0 then p.1.leaveQueue k else p.1)
      (if cardCores c then s.grabAll f r 3585 else s.grab f r) = some t) : Canonical (cells t) := by
  obtain ⟨⟨u, r⟩, hv, rfl⟩ := Option.map_eq_some_iff.1 ht
  have hw : Canonical (cells u) := by
    split at hv
    · exact grabAll_keeps _ h hv
    · exact grab_keeps h hv
  dsimp only
  split
  · exact canonical_leaveQueue hw _
  · exact hw

theorem tryDeal_keeps {s t : State} (h : Canonical (cells s)) {c} (ht : s.tryDeal c = some t) : Canonical (cells t) := by
  unfold State.tryDeal at ht
  split at ht
  · exact placeSaved_keeps h ht
  · rename_i q card hk
    have hu : Canonical (cells (s.runOf q card).2.2) := by simpa using h
    dsimp only at ht
    split at ht
    · cases ht
    · obtain rfl := Option.some.inj ht
      exact canonical_refuseCard h ..
    · split at ht
      · obtain ⟨u, hv, rfl⟩ := Option.map_eq_some_iff.1 ht
        have hw := traced_keeps hu hv
        refine canonical_settleRun ?_ _
        rw [cells_setRun]
        refine canonical_leaveQueue ?_ _
        rwa [cells_setRegion, cells_mk, cells_eta]
      · exact fresh_keeps hu ht

theorem preempt_keeps {s t : State} (h : Canonical (cells s)) {c} (ht : s.preempt c = some t) : Canonical (cells t) := by
  unfold State.preempt at ht
  dsimp only at ht
  split at ht
  · cases ht
  · obtain ⟨core, -, hm⟩ := List.exists_of_findSome?_eq_some ht
    exact makeRoom_keeps _ h hm

@[simp] theorem cells_setIngest (s : State) w x : cells (s.setIngest w x) = cells s := by simp [State.setIngest]
@[simp] theorem cells_raiseIngest (s : State) region : cells (s.raiseIngest region) = cells s := by simp [State.raiseIngest]

@[simp] theorem cells_judgeIngest (s : State) w : cells (s.judgeIngest w) = cells s := by
  unfold State.judgeIngest
  dsimp only
  (repeat' split) <;> simp

@[simp] theorem cells_readIngest (s : State) w : cells (s.readIngest w) = cells s := by simp [State.readIngest]

@[simp] theorem canonical_postIngest (w n) {s : State} (h : Canonical (cells s)) : Canonical (cells (State.postIngest w n s)) := by
  induction n generalizing s with
  | zero => exact h
  | succ n ih =>
    unfold State.postIngest
    dsimp only
    split
    · exact h
    · split
      · exact h
      · exact ih (by simpa using h)
      · split
        · exact ih (by simpa using enqueue_keeps h ‹_›)
        · exact h

theorem deviceStore_keeps (asid n) {s t : State} {va bs} (h : Canonical (cells s)) (ht : s.deviceStore asid n va bs = .ok t) :
    Canonical (cells t) := by
  induction n generalizing va bs t with
  | zero => unfold State.deviceStore at ht; split at ht <;> cases ht; exact h
  | succ n ih =>
    unfold State.deviceStore at ht
    split at ht
    · cases ht; exact h
    · dsimp only at ht
      split at ht
      · cases ht
      · cases ht
      · cases ht; exact canonical_gaStore (ih ‹_›) ..

@[simp] theorem cells_checkIngest (s : State) r w count : cells (s.checkIngest r w count) = cells s := by simp [State.checkIngest]

theorem ingestLand_keeps {s t : State} (h : Canonical (cells s)) {w r} (ht : s.ingestLand w r = some t) : Canonical (cells t) := by
  unfold State.ingestLand at ht
  dsimp only at ht
  split at ht
  · cases ht; simp [h]
  · split at ht
    · cases ht
    · cases ht; simp [h]
    · cases ht
      exact canonical_postIngest _ _ (canonical_trace (by simpa using deviceStore_keeps _ _ h ‹_›) ..)

@[simp] theorem canonical_serveIngest (w n) {s : State} (h : Canonical (cells s)) : Canonical (cells (State.serveIngest w n s)) := by
  induction n generalizing s with
  | zero => exact h
  | succ n ih =>
    have hj : Canonical (cells (if (s.ingest w).unjudged then s.judgeIngest w else s)) := by split <;> simp [h]
    unfold State.serveIngest
    dsimp only
    generalize (if (s.ingest w).unjudged then s.judgeIngest w else s) = u at hj ⊢
    have hp := canonical_postIngest w (u.ingest w).count.toNat hj
    generalize State.postIngest w (u.ingest w).count.toNat u = v at hp ⊢
    split
    · exact hp
    · split
      · simpa using hp
      · split
        · exact hp
        · split
          · exact hp
          · rename_i hl
            refine ih (ingestLand_keeps ?_ hl)
            rwa [cells_setIngest]

@[simp] theorem canonical_postPending {s : State} (h : Canonical (cells s)) : Canonical (cells s.postPending) :=
  canonical_foldl (fun _ _ ht => canonical_serveIngest _ _ ht) _ h

@[simp] theorem cells_noteAll (s : State) : cells (s.noteAll) = cells s := by simp [State.noteAll]

@[simp] theorem execDispatch_keeps {s : State} (h : Canonical (cells s)) : OutKeeps (execDispatch s) := by
  unfold execDispatch
  split
  · simp [h]
  · have hu (l : List Nat) : Canonical (cells (l.foldl State.useRegion s.tick.postPending.settleRuns)) := by simp [h]
    dsimp only
    split
    · obtain ⟨c, -, hc⟩ := List.exists_of_findSome?_eq_some ‹_›
      simpa using tryDeal_keeps (hu _) hc
    · split
      · rename_i hp
        split at hp
        · obtain ⟨c, -, hc⟩ := List.exists_of_findSome?_eq_some hp
          simpa using preempt_keeps (hu _) hc
        · cases hp
      · simpa using hu (s.tick.postPending.settleRuns.queues.filterMap fun x => x.2.cards.head?.map fun c => cardRegion c.card)

@[simp] theorem execWaitctrRead_keeps {s : State} (h : Canonical (cells s)) q : OutKeeps (execWaitctrRead q s) := by
  unfold execWaitctrRead
  dsimp only
  (repeat' split) <;> simp [h]

@[simp] theorem cells_settleClass (s : State) cl : cells (s.settleClass cl) = cells s := by
  unfold State.settleClass
  dsimp only
  (repeat' split) <;> simp

@[simp] theorem canonical_leaveRun {s : State} (h : Canonical (cells s)) (d) : Canonical (cells (s.leaveRun d)) := by
  unfold State.leaveRun
  split <;> simp [h]

@[simp] theorem execBlockEnd_keeps {s : State} (h : Canonical (cells s)) (core blk) : OutKeeps (execBlockEnd core blk s) := by
  unfold execBlockEnd
  dsimp only
  (repeat' split) <;> simp [h]

@[simp] theorem cells_mapStores (s : State) w p f : cells (s.mapStores w p f) = cells s := by simp [State.mapStores]

@[simp] theorem cells_finishStore (s : State) w e : cells (s.finishStore w e) = cells s := by
  unfold State.finishStore
  (repeat' split) <;> simp

@[simp] theorem cells_noteLost (s : State) w l : cells (s.noteLost w l) = cells s := by simp [State.noteLost]

@[simp] theorem canonical_gaPerform {s : State} (h : Canonical (cells s)) w e : Canonical (cells (s.gaPerform w e)) := by
  simp [State.gaPerform, h]

@[simp] theorem canonical_gaTake {s : State} (h : Canonical (cells s)) w e : Canonical (cells (s.gaTake w e)) := by simp [State.gaTake, h]
@[simp] theorem cells_freshL1 (s : State) a n : cells (s.freshL1 a n) = cells s := by simp [State.freshL1]
@[simp] theorem cells_gaDone (s : State) w e : cells (s.gaDone w e) = cells s := by simp [State.gaDone]
@[simp] theorem cells_loseGa (s : State) w e : cells (s.loseGa w e) = cells s := by simp [State.loseGa]
@[simp] theorem canonical_sendGa {s : State} (h : Canonical (cells s)) w e : Canonical (cells (s.sendGa w e)) := by simp [State.sendGa, h]

@[simp] theorem canonical_performRed {s : State} (h : Canonical (cells s)) (w e op v) : Canonical (cells (s.performRed w e op v).1) :=
  canonical_atomLane h ..

@[simp] theorem canonical_performReds {s : State} (h : Canonical (cells s)) (w e) : Canonical (cells (s.performReds w e)) := by
  refine canonical_foldl (fun t x ht => ?_) _ h
  split
  · have hp := canonical_performRed ht w x ‹_› ‹_›
    dsimp only
    split <;> simp [hp]
  · exact ht

@[simp] theorem canonical_performStore {s : State} (h : Canonical (cells s)) (w e) : Canonical (cells (s.performStore w e)) := by
  have hd (core a n) : Canonical (cells (if e.byp then (s.demandAll core a n).leaveL1 core a n else s.demandAll core a n)) := by
    split <;> simp [h]
  unfold State.performStore
  dsimp only
  (repeat' split) <;> simp [h]

@[simp] theorem canonical_leaveQueueStore {s : State} (h : Canonical (cells s)) (w) : Canonical (cells (s.leaveQueueStore w)) := by
  unfold State.leaveQueueStore
  split <;> simp [h]

@[simp] theorem execStoreLeaveQueue_keeps {s : State} (h : Canonical (cells s)) w : OutKeeps (execStoreLeaveQueue w s) := by
  simp [execStoreLeaveQueue, h]

@[simp] theorem canonical_gaArrive {s : State} (h : Canonical (cells s)) i m e : Canonical (cells (s.gaArrive i m e)) := by
  unfold State.gaArrive
  (repeat' split) <;> simp [h]

@[simp] theorem canonical_acked {s : State} (h : Canonical (cells s)) i : Canonical (cells (s.acked i)) := by
  unfold State.acked
  (repeat' split) <;> simp [h]

@[simp] theorem execAckArrival_keeps {s : State} (h : Canonical (cells s)) i : OutKeeps (execAckArrival i s) := by simp [execAckArrival, h]

@[simp] theorem canonical_efHome {s : State} (h : Canonical (cells s)) i : Canonical (cells (s.efHome i)) := by
  unfold State.efHome
  (repeat' split) <;> simp [h]

@[simp] theorem execEfStoreHomeArrival_keeps {s : State} (h : Canonical (cells s)) i : OutKeeps (execEfStoreHomeArrival i s) := by
  simp [execEfStoreHomeArrival, h]

@[simp] theorem cells_loseStore (s : State) m : cells (s.loseStore m) = cells s := by
  unfold State.loseStore
  dsimp only
  (repeat' split) <;> simp

@[simp] theorem canonical_loseMsg {s : State} (h : Canonical (cells s)) i m : Canonical (cells (s.loseMsg i m)) := by
  unfold State.loseMsg
  (repeat' split) <;> simp [h]

@[simp] theorem execAckTimeout_keeps {s : State} (h : Canonical (cells s)) i : OutKeeps (execAckTimeout i s) := by
  unfold execAckTimeout
  dsimp only
  (repeat' split) <;> simp [h]

@[simp] theorem execResultArrival_keeps {s : State} (h : Canonical (cells s)) w i : OutKeeps (execResultArrival w i s) := by
  unfold execResultArrival
  dsimp only
  (repeat' split) <;> simp [h]

@[simp] theorem canonical_settleLink (n) {s : State} (h : Canonical (cells s)) : Canonical (cells (State.settleLink n s)) := by
  induction n generalizing s with
  | zero => exact h
  | succ n ih =>
    unfold State.settleLink
    split
    · exact h
    · refine ih ?_
      split <;> simp [h]

@[simp] theorem canonical_drainOne {s : State} (h : Canonical (cells s)) (w) : Canonical (cells (s.drainOne w)) := by
  unfold State.drainOne
  dsimp only
  (repeat' split) <;> simp [h]

@[simp] theorem canonical_drainStores (w n) {s : State} (h : Canonical (cells s)) : Canonical (cells (State.drainStores w n s)) := by
  induction n generalizing s with
  | zero => exact h
  | succ n ih =>
    have hl := canonical_settleLink (2 * s.mem.msgs.length + 2) h
    unfold State.drainStores
    dsimp only
    split
    · exact hl
    · exact ih (canonical_drainOne hl _)

@[simp] theorem canonical_drainResults {s : State} (h : Canonical (cells s)) (w) : Canonical (cells (s.drainResults w)) := by
  refine canonical_foldl (fun t r ht => ?_) _ h
  dsimp only
  split <;> simp [ht]

@[simp] theorem canonical_drain {s : State} (h : Canonical (cells s)) (w) : Canonical (cells (s.drain w)) := by
  unfold State.drain
  dsimp only
  rw [cells_updFlight]
  exact canonical_drainStores _ _ (by simp [h])

@[simp] theorem cells_clearView (s : State) m : cells (s.clearView m) = cells s := by simp [State.clearView]

@[simp] theorem canonical_dropTraffic {s : State} (h : Canonical (cells s)) (w) : Canonical (cells (s.dropTraffic w)) := by
  unfold State.dropTraffic
  dsimp only
  rw [cells_updFlight]
  refine canonical_foldl (fun t e ht => ?_) _ ?_
  · (repeat' split) <;> simp [ht]
  · rw [cells_mk, cells_eta]
    refine canonical_foldl (fun t m ht => ?_) _ (by simpa using h)
    split <;> simp [ht]

theorem removeBlock_keeps {s t : State} (h : Canonical (cells s)) {core slot x} (ht : s.removeBlock core slot = some (x, t)) :
    Canonical (cells t) := by
  unfold State.removeBlock at ht
  dsimp only at ht
  rw [cells_unload ht]
  refine canonical_foldl (fun u w hu => ?_) _ ?_
  · split <;> simp [hu]
  · rw [cells_mk, cells_eta]
    exact canonical_foldl (fun _ _ hu => canonical_dropTraffic hu _) _ h

end Sys2Proof.Canon
end

section
/-! SUPPORT. Tokens, power, management and reset. -/

namespace Sys2Proof.Canon

open Sys2Proof Sys2Proof.Machine Sys2Proof.Safety Sys2Proof.Laws

@[simp] theorem cells_updMint (s : State) d f : cells (s.updMint d f) = cells s := by simp [State.updMint]
@[simp] theorem cells_debit (s : State) d r t : cells (s.debit d r t) = cells s := by simp [State.debit]
@[simp] theorem cells_credit (s : State) core r t : cells (s.credit core r t) = cells s := by simp [State.credit]

@[simp] theorem cells_takeReserved (s : State) (core p) : cells (s.takeReserved core p).1 = cells s := by
  unfold State.takeReserved
  split <;> simp

@[simp] theorem cells_takeFree (s : State) (core p) : cells (s.takeFree core p).1 = cells s := by
  unfold State.takeFree
  split <;> simp

@[simp] theorem cells_markPacket (s : State) (core p served) : cells (s.markPacket core p served).1 = cells s := by simp [State.markPacket]

@[simp] theorem cells_coreStop (s : State) (core p) : cells (s.coreStop core p).1 = cells s := by
  unfold State.coreStop
  dsimp only
  rw [cells_markPacket, cells_takeFree]
  split <;> simp

@[simp] theorem cells_enterHold (s : State) core : cells (s.enterHold core) = cells s := by
  unfold State.enterHold
  (repeat' split) <;> simp

@[simp] theorem execHoldEnter_keeps {s : State} (h : Canonical (cells s)) core : OutKeeps (execHoldEnter core s) := by simp [execHoldEnter, h]

@[simp] theorem cells_coreStops (s : State) (d ps) : cells (s.coreStops d ps).1 = cells s := by
  refine cells_foldl_fst (fun r c => ?_) _ _
  split
  · rfl
  · exact cells_coreStop ..

@[simp] theorem cells_closeCycle (s : State) c : cells (s.closeCycle c) = cells s := by simp [State.closeCycle]

@[simp] theorem cells_closeCycles (c n) (s : State) : cells (State.closeCycles c n s) = cells s := by
  induction n generalizing s with
  | zero => rfl
  | succ n ih =>
    unfold State.closeCycles
    split
    · rfl
    · rw [ih, cells_closeCycle]

@[simp] theorem cells_ringCycle (s : State) (d) : cells (s.ringCycle d) = cells s := by
  unfold State.ringCycle
  dsimp only
  split
  · rfl
  · simp

@[simp] theorem execRingCycle_keeps {s : State} (h : Canonical (cells s)) die : OutKeeps (execRingCycle die s) := by simp [execRingCycle, h]
@[simp] theorem cells_allow (s : State) d : cells (s.allow d) = cells s := by simp [State.allow]
@[simp] theorem cells_addLoan (s : State) d l : cells (s.addLoan d l) = cells s := by simp [State.addLoan]

@[simp] theorem cells_loanBoundary (s : State) d : cells (s.loanBoundary d) = cells s := by
  unfold State.loanBoundary
  (repeat' split) <;> simp

@[simp] theorem cells_askLoan (s : State) d : cells (s.askLoan d) = cells s := by simp [State.askLoan]
@[simp] theorem cells_rotationStart (s : State) d : cells (s.rotationStart d) = cells s := by simp [State.rotationStart]

@[simp] theorem execRotationStart_keeps {s : State} (h : Canonical (cells s)) die : OutKeeps (execRotationStart die s) := by
  simp [execRotationStart, h]

@[simp] theorem execLoanGrant_keeps {s : State} (h : Canonical (cells s)) die : OutKeeps (execLoanGrant die s) := by
  unfold execLoanGrant
  dsimp only
  (repeat' split) <;> simp [h]

@[simp] theorem execLoanTermEnd_keeps {s : State} (h : Canonical (cells s)) die : OutKeeps (execLoanTermEnd die s) := by
  unfold execLoanTermEnd
  dsimp only
  (repeat' split) <;> simp [h]

@[simp] theorem execLoanEndNotice_keeps {s : State} (h : Canonical (cells s)) die : OutKeeps (execLoanEndNotice die s) := by
  unfold execLoanEndNotice
  dsimp only
  (repeat' split) <;> simp [h]

@[simp] theorem cells_dropLoans (s : State) : cells (s.dropLoans) = cells s := by simp [State.dropLoans]
@[simp] theorem cells_updSide (s : State) f : cells (s.updSide f) = cells s := by simp [State.updSide]
@[simp] theorem execSidebandFail_keeps {s : State} (h : Canonical (cells s))  : OutKeeps (execSidebandFail s) := by simp [execSidebandFail, h]

@[simp] theorem execSidebandReturn_keeps {s : State} (h : Canonical (cells s))  : OutKeeps (execSidebandReturn s) := by
  unfold execSidebandReturn
  dsimp only
  (repeat' split) <;> simp [h]

@[simp] theorem execWideRequestPayment_keeps {s : State} (h : Canonical (cells s)) core : OutKeeps (execWideRequestPayment core s) := by
  simp [execWideRequestPayment, h]

@[simp] theorem execMatrixStepStart_keeps {s : State} (h : Canonical (cells s)) core : OutKeeps (execMatrixStepStart core s) := by
  unfold execMatrixStepStart
  dsimp only
  (repeat' split) <;> simp [h]

@[simp] theorem cells_writeTokcap (s : State) d v : cells (s.writeTokcap d v) = cells s := by simp [State.writeTokcap]

@[simp] theorem execTokcapWrite_keeps {s : State} (h : Canonical (cells s)) die v : OutKeeps (execTokcapWrite die v s) := by
  simp [execTokcapWrite, h]

@[simp] theorem execDroopDetect_keeps {s : State} (h : Canonical (cells s)) die cluster : OutKeeps (execDroopDetect die cluster s) := by
  simp [execDroopDetect, h]

@[simp] theorem execDroopWindowStart_keeps {s : State} (h : Canonical (cells s)) die cluster : OutKeeps (execDroopWindowStart die cluster s) := by
  simp [execDroopWindowStart, h]

@[simp] theorem execDroopWindowEnd_keeps {s : State} (h : Canonical (cells s)) die cluster : OutKeeps (execDroopWindowEnd die cluster s) := by
  simp [execDroopWindowEnd, h]

@[simp] theorem cells_clearDroop (s : State) c : cells (s.clearDroop c) = cells s := by simp [State.clearDroop]

@[simp] theorem execDroopcntClear_keeps {s : State} (h : Canonical (cells s)) die cluster : OutKeeps (execDroopcntClear die cluster s) := by
  simp [execDroopcntClear, h]

@[simp] theorem cells_emergencySave (s : State) : cells (s.emergencySave) = cells s := by simp [State.emergencySave]
@[simp] theorem cells_thermalPoll (s : State) d temps : cells (s.thermalPoll d temps) = cells s := by simp [State.thermalPoll]

@[simp] theorem execThermalPoll_keeps {s : State} (h : Canonical (cells s)) die temps : OutKeeps (execThermalPoll die temps s) := by
  simp [execThermalPoll, h]

@[simp] theorem execAnalogTrip_keeps {s : State} (h : Canonical (cells s)) (die sensor) : OutKeeps (execAnalogTrip die sensor s) := by
  have hp : Canonical (MemState.init.mem, s.tick.mem.peer) := ⟨rfl, (show Canonical (cells s.tick) by simpa using h).2⟩
  unfold execAnalogTrip
  split
  · simp [h]
  · simpa using hp

@[simp] theorem cells_packageReset (s : State) : cells (s.packageReset) = cells s := by simp [State.packageReset]
@[simp] theorem execPackageReset_keeps {s : State} (h : Canonical (cells s))  : OutKeeps (execPackageReset s) := by simp [execPackageReset, h]

@[simp] theorem execBringUpLogRead_keeps {s : State} (h : Canonical (cells s))  : OutKeeps (execBringUpLogRead s) := by
  unfold execBringUpLogRead
  dsimp only
  (repeat' split) <;> simp [h]

@[simp] theorem canonical_dropSaved {s : State} (h : Canonical (cells s)) x : Canonical (cells (s.dropSaved x)) := by
  unfold State.dropSaved
  dsimp only
  (repeat' split) <;> simp [h]

@[simp] theorem canonical_dropArena {s : State} (h : Canonical (cells s)) : Canonical (cells s.dropArena) := by
  unfold State.dropArena
  dsimp only
  split
  · exact h
  · exact canonical_foldl (fun _ x ht => canonical_dropSaved ht x) _ (by simpa using h)

@[simp] theorem canonical_writeSavebase {s : State} (h : Canonical (cells s)) v : Canonical (cells (s.writeSavebase v)) := by
  simp [State.writeSavebase, h]

@[simp] theorem canonical_writeSaven {s : State} (h : Canonical (cells s)) v : Canonical (cells (s.writeSaven v)) := by simp [State.writeSaven, h]

@[simp] theorem execSavebaseWrite_keeps {s : State} (h : Canonical (cells s)) v : OutKeeps (execSavebaseWrite v s) := by
  simp [execSavebaseWrite, h]

@[simp] theorem execSavenWrite_keeps {s : State} (h : Canonical (cells s)) v : OutKeeps (execSavenWrite v s) := by simp [execSavenWrite, h]
@[simp] theorem cells_dropMoving (s : State) w : cells (s.dropMoving w) = cells s := by simp [State.dropMoving]

@[simp] theorem canonical_replayParty {s : State} (h : Canonical (cells s)) (w i) : Canonical (cells (s.replayParty w i)) := by
  have hu : Canonical (cells ((if i.claim.isSome then s.dropMoving w else s).unpark w i false)) := by
    rw [cells_unpark]
    split <;> simp [h]
  unfold State.replayParty
  dsimp only
  split
  · exact hu
  · split
    · exact replayLog_keeps hu ‹_›
    · rwa [cells_setLog]

@[simp] theorem canonical_resumeParty {s : State} (h : Canonical (cells s)) w i : Canonical (cells (s.resumeParty w i)) := by
  unfold State.resumeParty
  (repeat' split) <;> simp [h]

@[simp] theorem canonical_killParty {s : State} (h : Canonical (cells s)) w : Canonical (cells (s.killParty w)) := by
  unfold State.killParty
  (repeat' split) <;> simp [h]

@[simp] theorem cells_setTdisp (s : State) f x : cells (s.setTdisp f x) = cells s := by simp [State.setTdisp]

@[simp] theorem canonical_clearQueues {s : State} (h : Canonical (cells s)) (fdom) : Canonical (cells (s.clearQueues fdom)) := by
  unfold State.clearQueues
  dsimp only
  rw [cells_mk, cells_eta]
  refine canonical_foldl (fun t q ht => ?_) _ h
  split <;> simp [ht]

@[simp] theorem canonical_clearBlocks {s : State} (h : Canonical (cells s)) (fdom) : Canonical (cells (s.clearBlocks fdom)) := by
  unfold State.clearBlocks
  dsimp only
  rw [cells_mk, cells_eta]
  refine canonical_foldl (fun t e ht => ?_) _ h
  split
  · simpa using removeBlock_keeps ht ‹_›
  · exact ht

@[simp] theorem canonical_startReset {s : State} (h : Canonical (cells s)) fdom : Canonical (cells (s.startReset fdom)) := by
  simp [State.startReset, h]

@[simp] theorem canonical_tdispError {s : State} (h : Canonical (cells s)) f : Canonical (cells (s.tdispError f)) := by simp [State.tdispError, h]

@[simp] theorem canonical_viaWindow {s : State} (h : Canonical (cells s)) (via reach) {k : State → State} (hk : Canonical (cells (k s))) :
    Canonical (cells (s.viaWindow via reach k)) := by
  unfold State.viaWindow
  (repeat' split) <;> simp [h, hk]

@[simp] theorem canonical_fresumeBy {s : State} (h : Canonical (cells s)) (x) {k : State → Who → TrapInfo → State}
    (hk : ∀ w i, Canonical (cells (k s w i))) : Canonical (cells (s.fresumeBy x k)) := by
  unfold State.fresumeBy
  split
  · exact canonical_viaWindow h _ _ (hk ..)
  · exact h

@[simp] theorem execFresumeReplay_keeps {s : State} (h : Canonical (cells s)) (w) : OutKeeps (execFresumeReplay w s) := by
  have ht : Canonical (cells s.tick) := by simpa using h
  exact canonical_fresumeBy ht _ fun _ _ => canonical_replayParty ht ..

@[simp] theorem execFresumeResume_keeps {s : State} (h : Canonical (cells s)) (w) : OutKeeps (execFresumeResume w s) := by
  have ht : Canonical (cells s.tick) := by simpa using h
  exact canonical_fresumeBy ht _ fun _ _ => by simp [h]

@[simp] theorem execFresumeKill_keeps {s : State} (h : Canonical (cells s)) (w) : OutKeeps (execFresumeKill w s) := by
  have ht : Canonical (cells s.tick) := by simpa using h
  exact canonical_fresumeBy ht _ fun _ _ => canonical_killParty ht ..

@[simp] theorem canonical_writeFresume {s : State} (h : Canonical (cells s)) (v) : Canonical (cells (s.writeFresume v)) := by
  unfold State.writeFresume
  split <;> simp [h]

@[simp] theorem execWatchdogFire_keeps {s : State} (h : Canonical (cells s)) region : OutKeeps (execWatchdogFire region s) := by
  unfold execWatchdogFire
  dsimp only
  (repeat' split) <;> simp [h]

@[simp] theorem execRreset_keeps {s : State} (h : Canonical (cells s)) v : OutKeeps (execRreset v s) := by simp [execRreset, h]
@[simp] theorem cells_raiseDomain (s : State) vector fdom : cells (s.raiseDomain vector fdom) = cells s := by simp [State.raiseDomain]

@[simp] theorem execRegionResetDone_keeps {s : State} (h : Canonical (cells s)) fdom : OutKeeps (execRegionResetDone fdom s) := by
  simp [execRegionResetDone, h]

@[simp] theorem execLockInterface_keeps {s : State} (h : Canonical (cells s)) f : OutKeeps (execLockInterface f s) := by
  unfold execLockInterface
  dsimp only
  (repeat' split) <;> simp [h]

@[simp] theorem execStartInterface_keeps {s : State} (h : Canonical (cells s)) f : OutKeeps (execStartInterface f s) := by
  unfold execStartInterface
  dsimp only
  (repeat' split) <;> simp [h]

@[simp] theorem execStopInterface_keeps {s : State} (h : Canonical (cells s)) f : OutKeeps (execStopInterface f s) := by
  simp [execStopInterface, h]

@[simp] theorem canonical_writeFrozen {s : State} (h : Canonical (cells s)) (f k) : Canonical (cells (s.writeFrozen f k)) := by
  unfold State.writeFrozen
  split
  · exact h
  · split <;> simp [h]

@[simp] theorem execHostInterfaceReset_keeps {s : State} (h : Canonical (cells s)) up : OutKeeps (execHostInterfaceReset up s) := by
  simp [execHostInterfaceReset, h]

@[simp] theorem canonical_writeQsync {s : State} (h : Canonical (cells s)) (v) : Canonical (cells (s.writeQsync v)) := by
  unfold State.writeQsync
  dsimp only
  split
  · simp [h]
  · exact canonical_foldl (fun _ f ht => canonical_tdispError ht f) _ h

@[simp] theorem execQsync_keeps {s : State} (h : Canonical (cells s)) v : OutKeeps (execQsync v s) := by simp [execQsync, h]
@[simp] theorem execRcbsync_keeps {s : State} (h : Canonical (cells s)) v : OutKeeps (execRcbsync v s) := by simp [execRcbsync, h]
@[simp] theorem canonical_countDrop {s : State} (h : Canonical (cells s)) q : Canonical (cells (s.countDrop q)) := by simp [State.countDrop, h]

@[simp] theorem canonical_hostEnqueue {s : State} (h : Canonical (cells s)) (f q data) : Canonical (cells (s.hostEnqueue f q data)) := by
  have hu : Canonical (cells (s.useQueue q)) := by simpa using h
  unfold State.hostEnqueue
  dsimp only
  split
  · exact h
  · split
    · exact hu
    · split
      · cases he : (s.useQueue q).enqueue q (BitVec.ofNat 1024 (natOf data)) none with
        | none => exact canonical_countDrop hu _
        | some t => exact enqueue_keeps hu he
      · exact canonical_countDrop hu _

@[simp] theorem canonical_hostRead {s : State} (h : Canonical (cells s)) f stream r : Canonical (cells (s.hostRead f stream r)) := by
  unfold State.hostRead
  (repeat' split) <;> simp [h]

@[simp] theorem execHostPost_keeps {s : State} (h : Canonical (cells s)) (f stream t data) : OutKeeps (execHostPost f stream t data s) := by
  unfold execHostPost
  cases t <;> dsimp only <;> (repeat' split) <;> simp [h]

@[simp] theorem canonical_writeIngsync {s : State} (h : Canonical (cells s)) (v) : Canonical (cells (s.writeIngsync v)) := by
  have hf (l : List Nat) : Canonical (cells (l.foldl State.tdispError s)) :=
    canonical_foldl (fun _ f ht => canonical_tdispError ht f) _ h
  unfold State.writeIngsync
  dsimp only
  split_ifs
  · simp [h]
  · exact hf []
  · simp [h]
  · exact hf _

@[simp] theorem execIngsync_keeps {s : State} (h : Canonical (cells s)) v : OutKeeps (execIngsync v s) := by simp [execIngsync, h]

@[simp] theorem execIngestWrite_keeps {s : State} (h : Canonical (cells s)) (f w off req stream data) :
    OutKeeps (execIngestWrite f w off req stream data s) := by
  have ht : Canonical (cells s.tick) := by simpa using h
  have hr : Canonical (cells (if (s.tick.ingest w).desc.isSome then s.tick else s.tick.readIngest w)) := by split <;> simp [h]
  unfold execIngestWrite
  dsimp only
  generalize (if (s.tick.ingest w).desc.isSome then s.tick else s.tick.readIngest w) = u at hr ⊢
  split
  · exact ht
  · split
    · exact ht
    · exact canonical_tdispError ht _
    · split
      · exact hr
      · exact canonical_serveIngest _ _ (by simpa using hr)

@[simp] theorem canonical_loseBlock {s : State} (h : Canonical (cells s)) (core slot) : Canonical (cells (s.loseBlock core slot)) := by
  unfold State.loseBlock
  dsimp only
  split
  · exact h
  · split
    · exact h
    · rename_i hr
      have hu := removeBlock_keeps h hr
      split
      · rw [cells_settleBars, cells_restart]
        split <;> simp [hu]
      · split
        · refine canonical_leaveRun ?_ _
          rw [cells_setRun]
          refine canonical_postDevice ?_ ..
          split <;> simp [hu]
        · refine canonical_postDevice ?_ ..
          split <;> simp [hu]

@[simp] theorem canonical_loseDieMsgs {s : State} (h : Canonical (cells s)) (d) : Canonical (cells (s.loseDieMsgs d)) := by
  unfold State.loseDieMsgs
  dsimp only
  refine canonical_foldl (fun t m ht => ?_) _ (by simpa using h)
  rw [cells_loseStore]
  split <;> simp [ht]

@[simp] theorem cells_loseDieStores (s : State) d w : cells (s.loseDieStores d w) = cells s := by simp [State.loseDieStores]

@[simp] theorem canonical_dieFatal {s : State} (h : Canonical (cells s)) (d) : Canonical (cells (s.dieFatal d)) := by
  unfold State.dieFatal
  dsimp only
  rw [cells_mk, cells_eta, cells_noteAll, cells_dropLoans]
  refine canonical_loseDieMsgs (canonical_foldl (fun _ e ht => canonical_loseBlock ht e.1 e.2) _ ?_) _
  rw [cells_foldl (fun t w => cells_loseDieStores t d w)]
  exact canonical_loseDieMsgs (by simpa using h) _

@[simp] theorem execDieFatalError_keeps {s : State} (h : Canonical (cells s)) die : OutKeeps (execDieFatalError die s) := by
  unfold execDieFatalError
  (repeat' split) <;> simp [h]

@[simp] theorem execEccCorrected_keeps {s : State} (h : Canonical (cells s)) die unit : OutKeeps (execEccCorrected die unit s) := by
  simp [execEccCorrected, h]

@[simp] theorem cells_poisonSite (s : State) (die site) : cells (s.poisonSite die site).1 = cells s := by
  cases site <;> unfold State.poisonSite <;> dsimp only <;> (repeat' split) <;> simp

@[simp] theorem execEccUncorrectable_keeps {s : State} (h : Canonical (cells s)) die site : OutKeeps (execEccUncorrectable die site s) := by
  simp [execEccUncorrectable, h]

@[simp] theorem execStatcClear_keeps {s : State} (h : Canonical (cells s)) region cls : OutKeeps (execStatcClear region cls s) := by
  simp [execStatcClear, h]

@[simp] theorem cells_writeFqhead (s : State) v : cells (s.writeFqhead v) = cells s := by simp [State.writeFqhead]

@[simp] theorem execFqheadWrite_keeps {s : State} (h : Canonical (cells s)) (w) : OutKeeps (execFqheadWrite w s) := by
  have ht : Canonical (cells s.tick) := by simpa using h
  exact canonical_viaWindow ht _ _ (by simpa using h)

@[simp] theorem cells_retarget (s : State) c t : cells (s.retarget c t) = cells s := by simp [State.retarget]
@[simp] theorem cells_writeClassmap (s : State) v : cells (s.writeClassmap v) = cells s := by simp [State.writeClassmap]

@[simp] theorem execClassmapWrite_keeps {s : State} (h : Canonical (cells s)) v : OutKeeps (execClassmapWrite v s) := by
  simp [execClassmapWrite, h]

end Sys2Proof.Canon
end

section
/-! SUPPORT. The words of handlers and the writes of special registers. -/

namespace Sys2Proof.Canon

open Sys2Proof Sys2Proof.Machine Sys2Proof.Safety Sys2Proof.Laws

@[simp] theorem execSread_keeps {s : State} (h : Canonical (cells s)) d g id idx : OutKeeps (execSread d g id idx s) := by
  refine issue_keeps h fun c t ht => ?_
  (repeat' split) <;> simp [ht]

@[simp] theorem cells_writePower (s : State) core id v : cells (s.writePower core id v) = cells s := by
  unfold State.writePower
  (repeat' split) <;> simp

@[simp] theorem canonical_writeFuncmap {s : State} (h : Canonical (cells s)) (i v) : Canonical (cells (s.writeFuncmap i v)) := by
  unfold State.writeFuncmap
  dsimp only
  split
  · simpa using h
  · exact canonical_foldl (fun _ f ht => canonical_tdispError ht f) _ h

@[simp] theorem cells_writeTrace (s : State) id r v : cells (s.writeTrace id r v) = cells s := by simp [State.writeTrace]

@[simp] theorem canonical_writePlain {s : State} (h : Canonical (cells s)) (core id idx v) : Canonical (cells (s.writePlain core id idx v)) := by
  unfold State.writePlain
  dsimp only
  split <;> simp [h]

@[simp] theorem canonical_writeReg {s : State} (h : Canonical (cells s)) (core region id idx v) :
    Canonical (cells (s.writeReg core region id idx v)) := by
  unfold State.writeReg
  dsimp only
  split <;> (try split) <;> simp [h]

@[simp] theorem canonical_writeWindow {s : State} (h : Canonical (cells s)) (id idx v f) : Canonical (cells (s.writeWindow id idx v f)) := by
  unfold State.writeWindow
  (repeat' split) <;> simp [h]

@[simp] theorem execRegisterWrite_keeps {s : State} (h : Canonical (cells s)) (id idx core w) : OutKeeps (execRegisterWrite id idx core w s) := by
  have ht : Canonical (cells s.tick) := by simpa using h
  unfold execRegisterWrite
  dsimp only
  (repeat' split) <;> simp [h]

theorem writeSeeds_keeps {w region slot} (l) {s t : State} (h : Canonical (cells s)) (ht : s.writeSeeds w region slot l = some t) :
    Canonical (cells t) := by
  induction l generalizing s with
  | nil => cases ht; exact h
  | cons x l ih =>
    unfold State.writeSeeds at ht
    dsimp only at ht
    split_ifs at ht
    all_goals exact ih (canonical_trace (by simpa using h) ..) ht

@[simp] theorem getD_writeSeeds {s : State} (h : Canonical (cells s)) (w region slot l) :
    Canonical (cells ((s.writeSeeds w region slot l).getD s)) := by
  cases ht : s.writeSeeds w region slot l with
  | none => exact h
  | some t => exact writeSeeds_keeps _ h ht

@[simp] theorem execSrseedWrite_keeps {s : State} (h : Canonical (cells s)) (w vals) : OutKeeps (execSrseedWrite w vals s) := by
  unfold execSrseedWrite
  dsimp only
  split <;> simp [h]

@[simp] theorem execSwrite_keeps {s : State} (h : Canonical (cells s)) (a g id idx) : OutKeeps (execSwrite a g id idx s) := by
  have hw (c : Ctx) {t : State} (ht : Canonical (cells t)) (p : Prop) [Decidable p] (x : TrapArgs) (v : DWord) :
      ResKeeps (if p then .trap t x else t.released c .sys fun u =>
        .done (u.writeReg c.who.core c.blk.dealt.region id.toNat idx.toNat v) .go) := by
    split
    · simp [ht]
    · exact released_keeps ht fun u hu => by simp [hu]
  refine issue_keeps h fun c t ht => ?_
  split
  · simp [ht]
  · dsimp only
    split
    · simp [ht]
    · split
      · simp [ht]
      · split
        · split
          · simpa using writeSeeds_keeps _ ht ‹_›
          · simp [ht]
        · split
          · simp [ht]
          · split
            · simp [ht]
            · exact hw _ ht _ _ _

@[simp] theorem execTimeRef_keeps {s : State} (h : Canonical (cells s)) d g : OutKeeps (execTimeRef d g s) := by
  exact issue_keeps h fun c t ht => by simp [ht]

@[simp] theorem execTimeCyc_keeps {s : State} (h : Canonical (cells s)) d g : OutKeeps (execTimeCyc d g s) := by
  exact issue_keeps h fun c t ht => by simp [ht]

@[simp] theorem eret_keeps {s : State} (h : Canonical (cells s)) (c resume) : ResKeeps (s.eret c resume) := by
  unfold State.eret
  dsimp only
  split
  · simp [h]
  · split
    · simp [h]
    · split
      · simp [h]
      · split
        · rename_i hr
          simpa using replayLog_keeps (by simpa using h) hr
        · simp [h]

@[simp] theorem execEretReplay_keeps {s : State} (h : Canonical (cells s))  : OutKeeps (execEretReplay s) := by
  exact issue_keeps h fun c t ht => by simp [ht]

@[simp] theorem execEretResume_keeps {s : State} (h : Canonical (cells s))  : OutKeeps (execEretResume s) := by
  exact issue_keeps h fun c t ht => by simp [ht]

@[simp] theorem tlbinv_keeps {s : State} (h : Canonical (cells s)) (c sc asid p) : ResKeeps (s.tlbinv c sc asid p) := by
  unfold State.tlbinv
  dsimp only
  split_ifs
  · simp [h]
  · simp [h]
  · refine released_keeps h fun t ht => ?_
    rw [resKeeps_done]
    refine canonical_foldl (fun u k hu => canonical_retranslate hu k) _ ?_
    split <;> simp [ht]

@[simp] theorem execTlbinv_keeps {s : State} (h : Canonical (cells s)) a g scope asid : OutKeeps (execTlbinv a g scope asid s) := by
  exact issue_keeps h fun c t ht => by simp [ht]

@[simp] theorem execTlbinvAsid_keeps {s : State} (h : Canonical (cells s)) g scope asid : OutKeeps (execTlbinvAsid g scope asid s) := by
  exact issue_keeps h fun c t ht => by simp [ht]

@[simp] theorem execTlbinvAll_keeps {s : State} (h : Canonical (cells s)) g scope : OutKeeps (execTlbinvAll g scope s) := by
  exact issue_keeps h fun c t ht => by simp [ht]

@[simp] theorem probe_keeps {s : State} (h : Canonical (cells s)) (c d a asid) : ResKeeps (s.probe c d a asid) := by
  refine logged_keeps h _ fun t ht => queueDone_keeps ht _ fun u hu => ?_
  dsimp only
  (repeat' split) <;> simp [hu]

@[simp] theorem execProbe_keeps {s : State} (h : Canonical (cells s)) d a g : OutKeeps (execProbe d a g s) := by
  exact issue_keeps h fun c t ht => by simp [ht]

@[simp] theorem execProbeAs_keeps {s : State} (h : Canonical (cells s)) d a g asid : OutKeeps (execProbeAs d a g asid s) := by
  exact issue_keeps h fun c t ht => by simp [ht]

@[simp] theorem canonical_storeRecord {s : State} (h : Canonical (cells s)) (c va bs ps) : Canonical (cells (s.storeRecord c va bs ps)) := by
  refine canonical_foldl (fun t p ht => ?_) _ h
  exact canonical_gaStore (by simpa using ht) ..

@[simp] theorem cells_fetchRecord (s : State) (c ps) : cells (s.fetchRecord c ps).1 = cells s := by
  unfold State.fetchRecord
  exact cells_foldl (fun _ _ => cells_seeHere ..) _ _

theorem saveWord_keeps {s : State} (h : Canonical (cells s)) (c a slot) {k : State → Who → Warp → Except TrapArgs (State × List Byte)}
    (hk : ∀ t v w u bs, Canonical (cells t) → k t v w = .ok (u, bs) → Canonical (cells u)) : ResKeeps (s.saveWord c a slot k) := by
  unfold State.saveWord
  split
  · simp [h]
  · split
    · simp [h]
    · refine queueDone_keeps h _ fun t ht => ?_
      split
      · simp [ht]
      · split
        · simp [ht]
        · simpa using canonical_storeRecord (hk _ _ _ _ _ ht ‹_›) ..

@[simp] theorem execWsave_keeps {s : State} (h : Canonical (cells s)) (a g slot) : OutKeeps (execWsave a g slot s) := by
  refine issue_keeps h fun c t ht => saveWord_keeps ht _ _ _ fun u v w x bs hu hx => ?_
  cases hx
  exact hu

@[simp] theorem execWsaveFrame_keeps {s : State} (h : Canonical (cells s)) (a g slot) : OutKeeps (execWsaveFrame a g slot s) := by
  refine issue_keeps h fun c t ht => saveWord_keeps ht _ _ _ fun u v w x bs hu hx => ?_
  split at hx <;> cases hx
  simpa using hu

theorem loadWord_keeps {s : State} (h : Canonical (cells s)) (c a slot n) {k : State → Who → Warp → List Byte → Res}
    (hk : ∀ t v w bs, Canonical (cells t) → ResKeeps (k t v w bs)) : ResKeeps (s.loadWord c a slot n k) := by
  unfold State.loadWord
  dsimp only
  split
  · simp [h]
  · split
    · simp [h]
    · refine queueDone_keeps h _ fun t ht => ?_
      split
      · simp [ht]
      · split
        · simp [ht]
        · exact hk _ _ _ _ (by simpa using ht)

@[simp] theorem cells_placeLogs (s : State) (t logs) : cells (s.placeLogs t logs).1 = cells s := by
  refine cells_foldl_fst (fun r e => ?_) _ _
  split
  · rfl
  · dsimp only
    split <;> simp

@[simp] theorem cells_placeRecord (s : State) (t w bs logs) : cells (s.placeRecord t w bs logs) = cells s := by
  unfold State.placeRecord
  dsimp only
  rw [cells_updWarp, cells_placeLogs, cells_setWarp]
  exact cells_foldl (fun _ _ => cells_setLog ..) _ _

@[simp] theorem execWload_keeps {s : State} (h : Canonical (cells s)) (a g slot) : OutKeeps (execWload a g slot s) := by
  refine issue_keeps h fun c t ht => loadWord_keeps ht _ _ _ _ fun u v w bs hu => ?_
  dsimp only
  (repeat' split) <;> simp [hu]

@[simp] theorem execWloadFrame_keeps {s : State} (h : Canonical (cells s)) (a g slot) : OutKeeps (execWloadFrame a g slot s) := by
  refine issue_keeps h fun c t ht => loadWord_keeps ht _ _ _ _ fun u v w bs hu => ?_
  split <;> simp [hu]

@[simp] theorem execUnassignedOpcode_keeps {s : State} (h : Canonical (cells s)) _w : OutKeeps (execUnassignedOpcode _w s) := by
  simp [execUnassignedOpcode, h]

@[simp] theorem cells_respond (s : State) r : cells (s.respond r) = cells s := by simp [State.respond]

@[simp] theorem execSpdmRequest_keeps {s : State} (h : Canonical (cells s)) kind : OutKeeps (execSpdmRequest kind s) := by
  unfold execSpdmRequest
  dsimp only
  (repeat' split) <;> simp [h]

@[simp] theorem execPldmRequest_keeps {s : State} (h : Canonical (cells s)) kind : OutKeeps (execPldmRequest kind s) := by
  unfold execPldmRequest
  dsimp only
  (repeat' split) <;> simp [h]

@[simp] theorem execVendorMctpMessage_keeps {s : State} (h : Canonical (cells s)) m : OutKeeps (execVendorMctpMessage m s) := by
  unfold execVendorMctpMessage
  dsimp only
  (repeat' split) <;> simp [h]

end Sys2Proof.Canon
end

section
/-! SUPPORT. Every step. -/

namespace Sys2Proof.Canon

open Sys2Proof Sys2Proof.Machine Sys2Proof.Safety Sys2Proof.Laws

theorem exec_keeps {s : State} (h : Canonical (cells s)) (i : Instr) : OutKeeps (exec i s) := by
  cases i <;> simp [exec, h]

theorem play_keeps {s : State} (h : Canonical (cells s)) (m : Move) : OutKeeps (State.play exec s m) := by
  cases m with
  | issue w => exact issueMove_keeps h (fun i t ht => exec_keeps ht i) w
  | event i =>
    unfold State.play
    dsimp only
    split
    · exact exec_keeps h i
    · exact h

theorem step_keeps {s : State} (h : Canonical (cells s)) : OutKeeps (step s) := by
  have ha (l : List Move) : Canonical (cells { s.advance with agenda := l }) := by simpa using h
  have ht (n : Nat) : Canonical (cells { s.advance with turn := n }) := by simpa using h
  unfold step
  split
  · simp
  · split
    · exact play_keeps (ha _) _
    · split
      · exact play_keeps (ht _) _
      · exact ht _

/-- Settles O7: what a step does to memory it does by lists of bytes set in a table, so the table stays in canonical form; `exec_keeps` says
it of each instruction and event by the lemma of its arm. -/
theorem stepKeepsMemoryCanonical : Obligations.StepKeepsMemoryCanonical := by
  intro s t hi hst
  have hk := step_keeps ((inv_iff s).1 hi)
  rw [show step s = .next t from hst] at hk
  exact (inv_iff t).2 hk

/-- Settles O6: after reset no byte of memory is set. -/
theorem resetMemoryIsCanonical : Obligations.ResetMemoryIsCanonical := ⟨rfl, rfl⟩

end Sys2Proof.Canon
end

section
/-! SUPPORT. A word that changes no register and no byte of memory: what stays calm under the parts of its completion (04 R66). -/

namespace Sys2Proof.MemWords

open Sys2Proof Sys2Proof.Machine Sys2Proof.Safety Sys2Proof.Laws Sys2Proof.Stream

/-! Where a party's registers and predicates stand -/

/-- The front end in a block slot. -/
def frontAt (s : State) (d e : Nat) : Option Front := (s.block d e).bind (·.front)

theorem laneCount_le (k : Cls) : laneCount k ≤ 32 := by cases k <;> decide

theorem val_of_front {w : Who} {b : Nat} (h : w.party = .front b) (s : State) (r l : Nat) :
    val s w r l = ((frontAt s w.core b).map fun f => Tbl.get 0 f.s r).getD 0 := by
  simp only [val, h, frontAt]
  cases (s.block w.core b).bind (·.front) <;> rfl
theorem pval_of_front {w : Who} {b : Nat} (h : w.party = .front b) (s : State) (n l : Nat) :
    pval s w n l = ((frontAt s w.core b).map fun f => f.p n).getD false := by
  simp only [pval, h, frontAt]
  cases (s.block w.core b).bind (·.front) <;> rfl
theorem val_of_matrix {w : Who} {b : Nat} (h : w.party = .matrix b) (s : State) (r l : Nat) : val s w r l = 0 := by simp only [val, h]
theorem pval_of_matrix {w : Who} {b : Nat} (h : w.party = .matrix b) (s : State) (n l : Nat) : pval s w n l = false := by simp only [pval, h]
theorem pval_of_isWarp {w : Who} (h : IsWarp w) (s : State) (n l : Nat) : pval s w n l = ((s.warp w).map (·.p n l)).getD false := by
  unfold pval
  rcases h with h | ⟨k, h⟩
  all_goals
    simp only [h]
    cases s.warp w <;> rfl

/-- A party is a warp, a front end or a matrix stream. -/
theorem party_cases (w : Who) : IsWarp w ∨ (∃ b, w.party = .front b) ∨ ∃ b, w.party = .matrix b := by
  obtain ⟨c, p⟩ := w
  cases p <;> simp [IsWarp]

/-- What a party reads of its registers and predicates is in its warp, or in its block's front end. -/
theorem val_of_parts {s t : State} {w : Who} (hwarp : t.warp w = s.warp w) (hfront : ∀ d e, frontAt t d e = frontAt s d e) (r l : Nat) :
    val t w r l = val s w r l := by
  rcases party_cases w with h | ⟨b, h⟩ | ⟨b, h⟩
  · rw [Frames.val_of_isWarp h, Frames.val_of_isWarp h, hwarp]
  · rw [val_of_front h, val_of_front h, hfront]
  · rw [val_of_matrix h, val_of_matrix h]
theorem pval_of_parts {s t : State} {w : Who} (hwarp : t.warp w = s.warp w) (hfront : ∀ d e, frontAt t d e = frontAt s d e) (n l : Nat) :
    pval t w n l = pval s w n l := by
  rcases party_cases w with h | ⟨b, h⟩ | ⟨b, h⟩
  · rw [pval_of_isWarp h, pval_of_isWarp h, hwarp]
  · rw [pval_of_front h, pval_of_front h, hfront]
  · rw [pval_of_matrix h, pval_of_matrix h]

/-! What makes two states calm -/

theorem calm_trans {p q t : State} {c : Ctx} (h : Calm p q c []) (h' : Calm q t c []) : Calm p t c [] := by
  obtain ⟨a, hregs, hmem⟩ := h
  obtain ⟨a', hregs', hmem'⟩ := h'
  refine ⟨⟨fun n l hl => (a'.preds n l hl).trans (a.preds n l hl), a'.draws.trans a.draws, a'.warp.trans a.warp,
    fun w hw => (a'.others w hw).trans (a.others w hw), a'.pkg.trans a.pkg, a'.regions.trans a.regions,
    ⟨a'.dies.1.trans a.dies.1, a'.dies.2.trans a.dies.2⟩, a'.peers.trans a.peers⟩, fun r l hl _ => ?_, hmem'.trans hmem⟩
  exact (hregs' r l hl (.inr (by simp))).trans (hregs r l hl (.inr (by simp)))

/-- The parts of a warp that no word of memory changes. -/
def steady (x : Warp) : Warp :=
  { x with
    regs := [], preds := [], prev := [], bad := [], ocBad := [], oc := [], slices := [], headers := [], hdrBad := [], gang := 0, waits := []
    clause := none, paid := false, due := none, srseed := [], flight := Flight.init }

theorem warpRest_steady (s : State) (w : Who) : (warpRest s w).map (fun x => { x with flight := Flight.init }) = (s.warp w).map steady := by
  unfold warpRest
  cases s.warp w <;> rfl

/-- The state without its cores and, of memory, with nothing but its bytes and those of the peers. -/
def offBytes (s : State) : State := { s with cores := [], mem := { MemState.init with mem := s.mem.mem, peer := s.mem.peer } }

theorem offBytes_of_offPaths {p t : State} (h : offPaths t = offPaths p) : offBytes t = offBytes p :=
  part_of_off offPaths offBytes (fun _ => rfl) h

/-- A change of nothing but cores and of memory's bookkeeping, where the word's own party keeps its registers and predicates. -/
theorem calm_of_own {p t : State} {c : Ctx} (hoff : offBytes t = offBytes p) (hothers : ∀ w, w ≠ c.who → t.warp w = p.warp w)
    (hval : ∀ r l, l < laneCount c.cls → val t c.who r l = val p c.who r l) (hpval : ∀ n l, pval t c.who n l = pval p c.who n l)
    (hseeds : seeds t c.who = seeds p c.who) (hrest : (t.warp c.who).map steady = (p.warp c.who).map steady) : Calm p t c [] := by
  refine ⟨⟨fun n l _ => hpval n l, hseeds, ?_, hothers, ?_, ?_, ⟨?_, ?_⟩, ?_⟩, fun r l hl _ => hval r l hl, ?_⟩
  · rw [warpRest_steady, warpRest_steady, hrest]
  · exact part_of_off offBytes State.regs (fun _ => rfl) hoff
  · exact part_of_off offBytes State.regions (fun _ => rfl) hoff
  · exact part_of_off offBytes State.die0 (fun _ => rfl) hoff
  · exact part_of_off offBytes State.die1 (fun _ => rfl) hoff
  · exact part_of_off offBytes (fun s => s.mem.peer) (fun _ => rfl) hoff
  · exact part_of_off offBytes (fun s => s.mem.mem) (fun _ => rfl) hoff

/-- Such a change, of neither warps nor front ends. -/
theorem calm_of_parts {p t : State} (c : Ctx) (hoff : offBytes t = offBytes p) (hwarp : ∀ w, t.warp w = p.warp w)
    (hfront : ∀ d e, frontAt t d e = frontAt p d e) : Calm p t c [] :=
  calm_of_own hoff (fun w _ => hwarp w) (fun r l _ => val_of_parts (hwarp _) hfront r l) (pval_of_parts (hwarp _) hfront)
    (by rw [seeds, seeds, hwarp]) (by rw [hwarp])

theorem calm_refl (p : State) (c : Ctx) : Calm p p c [] := calm_of_parts c rfl (fun _ => rfl) fun _ _ => rfl

/-! Changes of one warp -/

/-- A change of a warp that leaves its registers and predicates, and changes of it only its place, its cache and its flight. -/
structure Quiet (f : Warp → Warp) : Prop where
  regs : ∀ x r l, l < 32 → Tbl.get 0 (f x).regs (32 * r + l) = Tbl.get 0 x.regs (32 * r + l)
  preds : ∀ x, (f x).preds = x.preds
  seeds : ∀ x, (f x).srseed = x.srseed
  rest : ∀ x, steady (f x) = steady x

theorem updWarp_of_not {w : Who} (h : ¬IsWarp w) (s : State) (f : Warp → Warp) : s.updWarp w f = s := by
  unfold State.updWarp
  split
  · exact absurd (isWarp_of_warp ‹_›) h
  · rfl

theorem warp_updWarp_other {v w : Who} (h : v ≠ w) (s : State) (f : Warp → Warp) : (s.updWarp w f).warp v = s.warp v := by
  unfold State.updWarp
  split
  · exact Launch.warp_setWarp_other _ _ h
  · rfl

@[simp] theorem offPaths_updCore (s : State) (d : Nat) (f : Core → Core) : offPaths (s.updCore d f) = offPaths s := rfl
@[simp] theorem offPaths_setWarp (s : State) (w : Who) (x : Option Warp) : offPaths (s.setWarp w x) = offPaths s := by
  unfold State.setWarp
  split <;> rfl
@[simp] theorem offPaths_updWarp (s : State) (w : Who) (f : Warp → Warp) : offPaths (s.updWarp w f) = offPaths s := by
  unfold State.updWarp
  split
  · exact offPaths_setWarp ..
  · rfl

theorem calm_updWarp {f : Warp → Warp} (hf : Quiet f) (s : State) (c : Ctx) : Calm s (s.updWarp c.who f) c [] := by
  by_cases hw : IsWarp c.who
  · refine calm_of_own (offBytes_of_offPaths (offPaths_updWarp ..)) (fun w h => warp_updWarp_other h s f) (fun r l hl => ?_) (fun n l => ?_) ?_ ?_
    · rw [Frames.val_of_isWarp hw, Frames.val_of_isWarp hw, warp_updWarp]
      cases s.warp c.who with
      | none => rfl
      | some x => simp only [Option.map_some, Option.getD_some, hf.regs x r l (hl.trans_le (laneCount_le _))]
    · rw [pval_of_isWarp hw, pval_of_isWarp hw, warp_updWarp]
      cases s.warp c.who with
      | none => rfl
      | some x => simp [Warp.p, hf.preds]
    · rw [seeds, seeds, warp_updWarp, Option.map_map]
      exact congrArg (Option.map · _) (funext hf.seeds)
    · rw [warp_updWarp, Option.map_map]
      exact congrArg (Option.map · _) (funext hf.rest)
  · rw [updWarp_of_not hw]
    exact calm_refl s c

/-! Changes of one block -/

theorem frontAt_updBlock {f : Block → Block} (hf : ∀ x, (f x).front = x.front) (s : State) (c b d e : Nat) :
    frontAt (s.updBlock c b f) d e = frontAt s d e := by
  have h := block_part_updBlock (·.front) hf s c b d e
  rw [frontAt, frontAt]
  cases ht : (s.updBlock c b f).block d e <;> cases hs : s.block d e <;> simp_all

theorem calm_updBlock {f : Block → Block} (hf : ∀ x, (f x).front = x.front) (s : State) (c : Ctx) (d e : Nat) :
    Calm s (s.updBlock d e f) c [] :=
  calm_of_parts c (offBytes_of_offPaths (offPaths_updBlock ..)) (warp_updBlock s d e f) (frontAt_updBlock hf s d e)

theorem frontAt_updFront (s : State) (c b : Nat) (f : Front → Front) (d e : Nat) :
    frontAt (s.updFront c b f) d e = if d = c ∧ e = b then (frontAt s d e).map f else frontAt s d e := by
  split
  · rename_i h
    obtain ⟨rfl, rfl⟩ := h
    exact front_updFront s d e f
  · rename_i h
    unfold frontAt State.updFront State.updBlock
    split
    · rw [block_setBlock_other _ _ h]
    · rfl

theorem front_part_updFront {γ : Type} (g : Front → γ) {f : Front → Front} (hf : ∀ x, g (f x) = g x) (s : State) (c b d e : Nat) :
    (frontAt (s.updFront c b f) d e).map g = (frontAt s d e).map g := by
  rw [frontAt_updFront]
  split
  · rw [Option.map_map]
    exact congrArg (Option.map · _) (funext hf)
  · rfl

theorem calm_updFront {f : Front → Front} (hs : ∀ x, (f x).s = x.s) (hq : ∀ x, (f x).q = x.q) (s : State) (c : Ctx) (d e : Nat) :
    Calm s (s.updFront d e f) c [] := by
  refine calm_of_own (offBytes_of_offPaths (offPaths_updBlock ..)) (fun w _ => warp_updFront ..) (fun r l _ => ?_) (fun n l => ?_) ?_ ?_
  · rcases party_cases c.who with h | ⟨b, h⟩ | ⟨b, h⟩
    · rw [Frames.val_of_isWarp h, Frames.val_of_isWarp h, warp_updFront]
    · rw [val_of_front h, val_of_front h, front_part_updFront _ fun x => by rw [hs]]
    · rw [val_of_matrix h, val_of_matrix h]
  · rcases party_cases c.who with h | ⟨b, h⟩ | ⟨b, h⟩
    · rw [pval_of_isWarp h, pval_of_isWarp h, warp_updFront]
    · rw [pval_of_front h, pval_of_front h, front_part_updFront _ fun x => by simp [Front.p, hq]]
    · rw [pval_of_matrix h, pval_of_matrix h]
  · rw [seeds, seeds, warp_updFront]
  · rw [warp_updFront]

/-! The completion of a word -/

theorem quiet_of_place {f : Warp → Warp} (h : ∀ x, SameButPlace x (f x)) : Quiet f where
  regs x r l _ := by rw [(congrArg Warp.regs (h x) :)]
  preds x := (congrArg Warp.preds (h x) :).symm
  seeds x := (congrArg Warp.srseed (h x) :).symm
  rest x := (congrArg steady (h x) :).symm

/-- A word that writes no register and frees none at last use passes the operand cache without a change of registers. -/
theorem quiet_cacheWord {u : Use} (hdst : u.dst = []) (hsrc : ∀ e ∈ u.src, e.h = .none) (s : State) (m : BitVec 32) (w0 : Warp) :
    Quiet fun x => x.cacheWord s u m w0 := by
  have hfreed (x : Warp) : x.freedBy u = [] := by
    have hn : ∀ e ∈ names u.src, e.2 ≠ .last := by
      intro e he
      simp only [names, List.mem_flatMap, List.mem_map] at he
      obtain ⟨r, hr, k, -, rfl⟩ := he
      simp [hsrc r hr]
    unfold Warp.freedBy
    simp only [List.map_eq_nil_iff, List.filter_eq_nil_iff]
    intro e he
    simp [hn e he]
  have hrest (x : Warp) := cacheWord_rest s u m w0 x
  exact ⟨fun x r l hl => cacheWord_regs s u m w0 x r l hl (by rw [hfreed]; simp) (.inl (by rw [hdst]; simp [names])),
    fun x => (congrArg Warp.preds (hrest x) :).symm, fun x => (congrArg Warp.srseed (hrest x) :).symm,
    fun x => (congrArg steady (hrest x) :).symm⟩

theorem calm_cacheWord {u : Use} (hdst : u.dst = []) (hsrc : ∀ e ∈ u.src, e.h = .none) (p s : State) (c : Ctx) :
    Calm s (p.cacheWord s c u) c [] := by
  unfold State.cacheWord
  split
  · exact calm_updWarp (quiet_cacheWord hdst hsrc ..) s c
  · exact calm_refl s c

theorem calm_updFlight (s : State) (c : Ctx) (f : Flight → Flight) : Calm s (s.updFlight c.who f) c [] := by
  unfold State.updFlight
  split
  · refine calm_updFront ?_ ?_ .. <;> exact fun _ => rfl
  · exact calm_refl s c
  · refine calm_updWarp ⟨?_, ?_, ?_, ?_⟩ s c <;> intros <;> rfl

theorem calm_goOn (s : State) (c : Ctx) (f : Fin) : Calm s (s.goOn c f) c [] := by
  rcases party_cases c.who with h | ⟨b, h⟩ | ⟨b, h⟩
  · rw [goOn_warp h]
    exact calm_updWarp (quiet_of_place (placed_rest c f)) s c
  · rw [goOn_front h]
    refine calm_updFront ?_ ?_ .. <;> exact fun _ => rfl
  · rw [goOn_eq h]
    refine calm_updBlock ?_ ..
    exact fun _ => rfl

/-- The results of a party that are in flight at the end of a word land later. -/
theorem landNow_of_later {p s : State} {w : Who}
    (h : ∀ r ∈ (s.flight w).results.drop (p.flight w).results.length, r.sb ≠ 0 ∨ r.claim.isSome = true) : p.landNow s w = s := by
  have hnone : ((s.flight w).results.drop (p.flight w).results.length).filter (fun r => r.sb == 0 && r.claim.isNone) = [] := by
    rw [List.filter_eq_nil_iff]
    intro r hr
    rcases h r hr with h | h
    · simp [h]
    · rw [Option.isSome_iff_ne_none] at h
      simp [h]
  unfold State.landNow
  simp only [hnone, List.isEmpty_nil, if_true]

theorem flight_of_front {w : Who} {b : Nat} (h : w.party = .front b) (s : State) :
    s.flight w = ((frontAt s w.core b).map (·.flight)).getD Flight.init := by
  simp only [State.flight, h, frontAt]

theorem flight_cacheWord (p s : State) (c : Ctx) (u : Use) (w : Who) : (p.cacheWord s c u).flight w = s.flight w := by
  unfold State.cacheWord
  split
  · rename_i w0 _
    have hf (x : Warp) : (x.cacheWord p u c.exec w0).flight = x.flight := (congrArg Warp.flight (cacheWord_rest p u c.exec w0 x) :).symm
    rcases party_cases w with h | ⟨b, h⟩ | ⟨b, h⟩
    · rw [Frames.flight_of_isWarp h, Frames.flight_of_isWarp h, warp_part_updWarp _ hf]
    · rw [flight_of_front h, flight_of_front h, frontAt, block_updWarp, frontAt]
    · simp only [State.flight, h]
  · rfl

/-- A word whose results land later goes on as from the state that its effect left. -/
theorem goesOn_eq {p E : State} {c : Ctx} {i : Instr} {f : Fin}
    (hland : ∀ r ∈ (E.flight c.who).results.drop (p.flight c.who).results.length, r.sb ≠ 0 ∨ r.claim.isSome = true) :
    goesOn p c i E f = (p.cacheWord E c (i.use c.cls)).goOn c f := by
  rw [goesOn, landNow_of_later]
  rwa [flight_cacheWord]

/-- THE WORD THAT COMPLETES WITHOUT A REGISTER: its party goes on as from the state its effect left. -/
theorem goesOn_calm {p E : State} {c : Ctx} {i : Instr} {f : Fin} (hdst : (i.use c.cls).dst = []) (hsrc : ∀ e ∈ (i.use c.cls).src, e.h = .none)
    (hland : ∀ r ∈ (E.flight c.who).results.drop (p.flight c.who).results.length, r.sb ≠ 0 ∨ r.claim.isSome = true) (hE : Calm p E c []) :
    goesOn p c i E f = (p.cacheWord E c (i.use c.cls)).goOn c f ∧ Calm p (goesOn p c i E f) c [] := by
  have hgo := goesOn_eq (i := i) (f := f) hland
  exact ⟨hgo, hgo ▸ calm_trans (calm_trans hE (calm_cacheWord hdst hsrc p E c)) (calm_goOn ..)⟩

end Sys2Proof.MemWords
end

section
/-! SUPPORT. What a word's completion leaves of a core beside its warps and blocks. -/

namespace Sys2Proof.MemWords

open Sys2Proof Sys2Proof.Machine Sys2Proof.Safety Sys2Proof.Laws Sys2Proof.Stream

section
variable {γ : Type} (g : Core → γ)

theorem core_part_updCore {f : Core → Core} (hf : ∀ k, g (f k) = g k) (s : State) (c d : Nat) : g ((s.updCore c f).core d) = g (s.core d) := by
  by_cases h : d = c
  · subst h; rw [core_updCore_same, hf]
  · rw [core_updCore_other _ _ h]

/-- A part of a core that is none of its warps, its landing slot and its blocks. -/
structure BesideParties : Prop where
  warps : ∀ k x, g { k with warps := x } = g k
  landing : ∀ k x, g { k with landing := x } = g k
  blocks : ∀ k x, g { k with blocks := x } = g k

variable {g} (hg : BesideParties g)
include hg

theorem core_part_setWarp (s : State) (w : Who) (x : Option Warp) (d : Nat) : g ((s.setWarp w x).core d) = g (s.core d) := by
  unfold State.setWarp
  split
  · exact core_part_updCore g (f := fun k => { k with warps := Tbl.set none k.warps _ x }) (fun k => hg.warps k _) ..
  · exact core_part_updCore g (f := fun k => { k with landing := x }) (fun k => hg.landing k _) ..
  · rfl

theorem core_part_updWarp (s : State) (w : Who) (f : Warp → Warp) (d : Nat) : g ((s.updWarp w f).core d) = g (s.core d) := by
  unfold State.updWarp
  split
  · exact core_part_setWarp hg ..
  · rfl

theorem core_part_updBlock (s : State) (c b : Nat) (f : Block → Block) (d : Nat) : g ((s.updBlock c b f).core d) = g (s.core d) := by
  unfold State.updBlock
  split
  · exact core_part_updCore g (f := fun k => { k with blocks := Tbl.set none k.blocks b _ }) (fun k => hg.blocks k _) ..
  · rfl

theorem core_part_goOn (s : State) (c : Ctx) (f : Fin) (d : Nat) : g ((s.goOn c f).core d) = g (s.core d) := by
  rcases party_cases c.who with h | ⟨b, h⟩ | ⟨b, h⟩
  · rw [goOn_warp h, core_part_updWarp hg]
  · rw [goOn_front h, State.updFront, core_part_updBlock hg]
  · rw [goOn_eq h, State.updMat, State.updMatrix, core_part_updBlock hg]

theorem core_part_cacheWord (p s : State) (c : Ctx) (u : Use) (d : Nat) : g ((p.cacheWord s c u).core d) = g (s.core d) := by
  unfold State.cacheWord
  split
  · exact core_part_updWarp hg ..
  · rfl

end

/-! What it leaves of a block -/

section
variable {γ : Type} {g : Block → γ} (hfront : ∀ x y, g { x with front := y } = g x) (hmatrix : ∀ x y, g { x with matrix := y } = g x)
include hfront hmatrix

theorem block_part_goOn (s : State) (c : Ctx) (f : Fin) (d e : Nat) : ((s.goOn c f).block d e).map g = (s.block d e).map g := by
  rcases party_cases c.who with h | ⟨b, h⟩ | ⟨b, h⟩
  · rw [goOn_warp h, block_updWarp]
  · rw [goOn_front h, State.updFront, block_part_updBlock g fun x => hfront x _]
  · rw [goOn_eq h, State.updMat, State.updMatrix, block_part_updBlock g fun x => hmatrix x _]

omit hfront hmatrix in
theorem block_cacheWord (p s : State) (c : Ctx) (u : Use) (d e : Nat) : (p.cacheWord s c u).block d e = s.block d e := by
  unfold State.cacheWord
  split
  · exact block_updWarp ..
  · rfl

end

theorem flight_goOn (s : State) (c : Ctx) (f : Fin) : (s.goOn c f).flight c.who = s.flight c.who := by
  rcases party_cases c.who with h | ⟨b, h⟩ | ⟨b, h⟩
  · have hf (x : Warp) : (placed c f x).flight = x.flight := (congrArg Warp.flight (placed_rest c f x) :).symm
    rw [Frames.flight_of_isWarp h, Frames.flight_of_isWarp h, goOn_warp h, warp_part_updWarp _ hf]
  · rw [flight_of_front h, flight_of_front h, goOn_front h]
    refine congrArg (·.getD Flight.init) (front_part_updFront (·.flight) ?_ ..)
    exact fun _ => rfl
  · simp only [State.flight, h]

theorem mem_goOn (s : State) (c : Ctx) (f : Fin) : (s.goOn c f).mem = s.mem := by
  rcases party_cases c.who with h | ⟨b, h⟩ | ⟨b, h⟩
  · rw [goOn_warp h]; exact updWarp_mem ..
  · rw [goOn_front h]; exact updFront_mem ..
  · rw [goOn_eq h]; exact updMatrix_mem ..

theorem mem_cacheWord (p s : State) (c : Ctx) (u : Use) : (p.cacheWord s c u).mem = s.mem := by
  unfold State.cacheWord
  split
  · exact updWarp_mem ..
  · rfl

end Sys2Proof.MemWords
end

section
/-! SUPPORT. FENCE and FENCEP (08 R141; 09 R162, R163). -/

namespace Sys2Proof.MemWords

open Sys2Proof Sys2Proof.Machine Sys2Proof.Safety Sys2Proof.Laws Sys2Proof.Stream

/-! What the fences change -/

theorem frontAt_updScratch (s : State) (c b : Nat) (g : Block → Scratch) (d e : Nat) :
    frontAt (s.updBlock c b fun x => { x with scratch := g x }) d e = frontAt s d e := by
  refine frontAt_updBlock ?_ ..
  exact fun _ => rfl

theorem block_of_blocks {s t : State} {d : Nat} (h : (t.core d).blocks = (s.core d).blocks) (e : Nat) : t.block d e = s.block d e := by
  rw [State.block, State.block, h]

@[simp] theorem warp_dropL1 (s : State) (d : Nat) (w : Who) : (s.dropL1 d).warp w = s.warp w := warp_updCore s d w rfl rfl
@[simp] theorem block_dropL1 (s : State) (c d e : Nat) : (s.dropL1 c).block d e = s.block d e :=
  block_of_blocks (core_part_updCore Core.blocks (f := fun k => { k with l1 := { k.l1 with lines := [], old := [], bad := [] } }) (fun _ => rfl) s c d) e

theorem calm_dropL1 (s : State) (c : Ctx) (d : Nat) : Calm s (s.dropL1 d) c [] :=
  calm_of_parts c rfl (warp_dropL1 s d) fun _ _ => by rw [frontAt, block_dropL1, frontAt]

/-- A change of what memory's bytes have handed over. -/
theorem calm_path (s : State) (c : Ctx) (t : Tbl (List PathWrite)) : Calm s { s with mem := { s.mem with path := t } } c [] :=
  calm_of_parts c rfl (fun _ => rfl) fun _ _ => rfl

theorem calm_release (s : State) (c : Ctx) (w : Who) (sc : Scope) (a : Place) : Calm s (s.release w sc a) c [] := by
  refine calm_trans (calm_path s c _) (calm_updBlock ?_ ..)
  exact fun _ => rfl

theorem calm_acquire (s : State) (c : Ctx) (w : Who) (sc : Scope) (a : Place) : Calm s (s.acquire w sc a) c [] := by
  have hdrop : Calm s (if scopeWide sc then s.dropL1 w.core else s) c [] := by
    split
    · exact calm_dropL1 ..
    · exact calm_refl ..
  refine calm_trans hdrop (calm_trans (calm_path _ c _) (calm_updBlock ?_ ..))
  exact fun _ => rfl

theorem besideParties_l1 : BesideParties Core.l1 := ⟨fun _ _ => rfl, fun _ _ => rfl, fun _ _ => rfl⟩

/-- An acquire at the die or wider leaves the core's L1 empty (entry 35). -/
theorem l1_acquire {sc : Scope} (h : scopeWide sc = true) (s : State) (w : Who) (a : Place) :
    ((s.acquire w sc a).core w.core).l1.lines = [] ∧ ((s.acquire w sc a).core w.core).l1.old = [] := by
  rw [State.acquire, core_part_updBlock besideParties_l1]
  simp only [h, if_true]
  rw [show ∀ (x : State) t, ({ x with mem := { x.mem with path := t } } : State).core w.core = x.core w.core from fun _ _ => rfl, State.dropL1,
    core_updCore_same]
  exact ⟨rfl, rfl⟩

/-! A clause that ends -/

theorem clauseOf_close (s : State) (c : Ctx) : (s.goOn c .close).clauseOf c.who = none := by
  rcases party_cases c.who with h | ⟨b, h⟩ | ⟨b, h⟩
  · have hp : ∀ x, (placed c .close x).clause = none := by
      intro x
      simp only [placed, Bool.or_true, Bool.true_or, if_true, beq_self_eq_true]
      unfold Warp.boundary
      simp only
      split
      · rfl
      · split <;> rfl
    have hc : (s.goOn c .close).clauseOf c.who = ((s.goOn c .close).warp c.who).bind (·.clause) := by
      unfold State.clauseOf
      rcases h with h | ⟨n, h⟩ <;> simp only [h]
    rw [hc, goOn_warp h, warp_updWarp]
    cases s.warp c.who <;> simp [hp]
  · simp only [State.clauseOf, h]
    rw [goOn_front h, front_updFront]
    cases (s.block c.who.core b).bind (·.front) <;> simp [placedFront]
  · simp only [State.clauseOf, h, State.goOn]
    rw [matrix_updMatrix]
    cases (s.block c.who.core b).bind (·.matrix) <;> simp

end Sys2Proof.MemWords
end

section
/-! SUPPORT. FENCE and FENCEP: the statement. -/

namespace Sys2Proof.MemWords

open Sys2Proof Sys2Proof.Machine Sys2Proof.Safety Sys2Proof.Laws Sys2Proof.Stream

/-- A change of the party's state of which its flight is no part. -/
theorem flight_of_parts {s t : State} {w : Who} (hwarp : t.warp w = s.warp w) (hfront : ∀ d e, frontAt t d e = frontAt s d e) :
    t.flight w = s.flight w := by
  rcases party_cases w with h | ⟨b, h⟩ | ⟨b, h⟩
  · rw [Frames.flight_of_isWarp h, Frames.flight_of_isWarp h, hwarp]
  · rw [flight_of_front h, flight_of_front h, hfront]
  · simp only [State.flight, h]

theorem drop_results_of_flight {p E : State} {w : Who} (h : E.flight w = p.flight w) :
    ∀ r ∈ (E.flight w).results.drop (p.flight w).results.length, r.sb ≠ 0 ∨ r.claim.isSome = true := by
  rw [h, List.drop_length]
  simp

/-! FENCE -/

@[simp] theorem warp_acquires (s : State) (w v : Who) (sc : Scope) (a : Place) : (s.acquire w sc a).warp v = s.warp v := by
  rw [State.acquire, warp_updBlock]
  show (if scopeWide sc then s.dropL1 w.core else s).warp v = s.warp v
  split <;> simp

theorem frontAt_acquires (s : State) (w : Who) (sc : Scope) (a : Place) (d e : Nat) : frontAt (s.acquire w sc a) d e = frontAt s d e := by
  rw [State.acquire, frontAt_updScratch]
  show frontAt (if scopeWide sc then s.dropL1 w.core else s) d e = frontAt s d e
  split
  · rw [frontAt, block_dropL1, frontAt]
  · rfl

theorem frontAt_release (s : State) (w : Who) (sc : Scope) (a : Place) (d e : Nat) : frontAt (s.release w sc a) d e = frontAt s d e := by
  rw [State.release, frontAt_updScratch]
  rfl

/-- What a fence leaves: a release and an acquire, as its order says. -/
def fenced (s : State) (w : Who) (order : Order) (sc : Scope) : State :=
  let r := if isRel order then s.release w sc else s
  if isAcq order then r.acquire w sc else r

section
variable (s : State) (w : Who) (order : Order) (sc : Scope)

theorem warp_fenced (v : Who) : (fenced s w order sc).warp v = s.warp v := by
  unfold fenced
  dsimp only
  split <;> split <;> simp

theorem frontAt_fenced (d e : Nat) : frontAt (fenced s w order sc) d e = frontAt s d e := by
  unfold fenced
  dsimp only
  split <;> split <;> simp only [frontAt_acquires, frontAt_release]

theorem calm_fenced (c : Ctx) : Calm s (fenced s w order sc) c [] := by
  have hrel : Calm s (if isRel order then s.release w sc else s) c [] := by
    split
    · exact calm_release ..
    · exact calm_refl ..
  unfold fenced
  dsimp only
  split
  · exact calm_trans hrel (calm_acquire ..)
  · exact hrel

end

/-- With nothing outstanding that it waits for, a fence completes (09 R162, R163). -/
theorem fence_done {p : State} {c : Ctx} {order : Order} {sc : Scope} {ga : Bool} (howed : p.owed c.who = [])
    (hsq : isRel order = true ∨ scopePkg sc = true ∨ ga = true → (p.flight c.who).sq = ⟨[], []⟩)
    (hlink : scopePkg sc = true ∨ ga = true → p.linkQuiet = true)
    (hpeer : isRel order = true → sc = .sys → p.peerQuiet c.who = true) :
    p.fence c order sc ga = .done (fenced p c.who order sc) .close := by
  have hlost (g : LostStore → Bool) (h : isRel order = true ∨ scopePkg sc = true ∨ ga = true) : p.takeLost c.who g = none := by
    simp [State.takeLost, hsq h]
  have htake : (if isRel order || (scopePkg sc || ga) then
      p.takeLost c.who (if scopePkg sc || ga then anyLost else queuedLost) else none) = none := by
    split
    · rename_i h
      exact hlost _ (by simpa using h)
    · rfl
  unfold State.fence
  simp only [howed, List.head?_nil, htake]
  rw [if_neg, if_neg, if_neg]
  · rfl
  · simp only [Bool.and_eq_true, Bool.not_eq_true', beq_iff_eq, not_and]
    intro ⟨hr, hs⟩
    simp [hpeer hr hs]
  · simp only [Bool.and_eq_true, Bool.or_eq_true, Bool.not_eq_true', not_and]
    intro h
    simp [hlink h]
  · simp only [Bool.and_eq_true, Bool.or_eq_true, Bool.not_eq_true', not_and]
    intro h
    simp [hsq h]

/-! FENCEP -/

theorem mem_of_pruneWrites {seen : List Path} {l : List PathWrite} {e : PathWrite} (h : e ∈ pruneWrites seen l) : e ∈ l := by
  induction l generalizing seen with
  | nil => simp [pruneWrites] at h
  | cons x l ih =>
    unfold pruneWrites at h
    dsimp only at h
    split at h
    · rcases List.mem_cons.1 h with rfl | h
      · exact List.mem_cons_self
      · exact List.mem_cons_of_mem _ (ih h)
    · simp at h

/-- What stands in a table after each entry is changed is a changed entry. -/
theorem mem_get_mapPath {t : Tbl (List PathWrite)} {f : Nat → PathWrite → PathWrite} {k : Nat} {e : PathWrite}
    (h : e ∈ Tbl.get [] (mapPath t f) k) : ∃ x, e = f k x := by
  have hget {u : Tbl (List PathWrite)} (h : e ∈ Tbl.get [] u k) : ∃ l, (k, l) ∈ u ∧ e ∈ l := by
    induction u with
    | nil => simp [Tbl.get] at h
    | cons y u ih =>
      obtain ⟨j, l⟩ := y
      rw [Tbl_get_cons] at h
      split at h
      · rename_i hj
        exact ⟨l, by simp [hj], h⟩
      · obtain ⟨l', hl', he⟩ := ih h
        exact ⟨l', List.mem_cons_of_mem _ hl', he⟩
  obtain ⟨l, hl, he⟩ := hget h
  obtain ⟨y, -, hy⟩ := List.mem_map.1 (List.mem_filter.1 hl).1
  obtain ⟨rfl, rfl⟩ := Prod.mk.inj hy
  obtain ⟨x, -, rfl⟩ := List.mem_map.1 (mem_of_pruneWrites he)
  exact ⟨x, rfl⟩

theorem seen_see (e : PathWrite) (r : Path) : (e.see r).seen.contains r = true := by
  unfold PathWrite.see
  split
  · assumption
  · simp

theorem path_see (e : PathWrite) (r : Path) : (e.see r).path = e.path := by unfold PathWrite.see; split <;> rfl
theorem known_see (e : PathWrite) (r : Path) (w : Pid) : (e.see r).known w = e.known w := by unfold PathWrite.see; split <;> rfl

/-- After FENCEP path r reads what the party wrote or observed by path w (08 R141), but for bytes that the engine holds (07 R126). -/
theorem seen_fencePaths {t : Tbl (List PathWrite)} {held : Nat → Bool} {who : Pid} {w r : Path} {k : Nat} {e : PathWrite}
    (h : e ∈ Tbl.get [] (fencePaths t held who w r) k) (hheld : r = .tile → held k = false) (hpath : e.path = w) (hknown : e.known who = true) :
    e.seen.contains r = true := by
  obtain ⟨x, rfl⟩ := mem_get_mapPath h
  by_cases hx : (x.path == w && x.known who && !(r == .tile && held k)) = true
  · simp only [hx, if_true]
    exact seen_see x r
  · simp only [hx] at hpath hknown
    simp only [Bool.not_eq_true] at hx
    exfalso
    by_cases hr : r = .tile
    · simp_all
    · simp_all

/-- What FENCEP leaves. -/
def handed (s : State) (c : Ctx) (w r : Path) : State :=
  let m : State := { s with mem := { s.mem with path := fencePaths s.mem.path (fun _ => false) (s.pid c.who) w r } }
  m.updB c fun b => { b with scratch := { b.scratch with path := fencePaths b.scratch.path b.engineHolds (m.pid c.who) w r } }

theorem warp_handed (s : State) (c : Ctx) (w r : Path) (v : Who) : (handed s c w r).warp v = s.warp v := warp_updBlock ..

theorem frontAt_handed (s : State) (c : Ctx) (w r : Path) (d e : Nat) : frontAt (handed s c w r) d e = frontAt s d e := by
  rw [handed, State.updB, frontAt_updScratch]
  rfl

theorem calm_handed (s : State) (c : Ctx) (w r : Path) : Calm s (handed s c w r) c [] := by
  refine calm_trans (calm_path s c _) (calm_updBlock ?_ ..)
  exact fun _ => rfl

/-- The bytes of the block's scratch after FENCEP. -/
theorem scratch_handed {s : State} {c : Ctx} {x : Block} (hx : s.block (s.bcore c) (s.bslot c) = some x) (w r : Path) :
    ((handed s c w r).block (s.bcore c) (s.bslot c)).map (·.scratch.path) =
      some (fencePaths x.scratch.path x.engineHolds (s.pid c.who) w r) := by
  have h := congrArg (Option.map (·.scratch.path)) (block_updBlock
    ({ s with mem := { s.mem with path := fencePaths s.mem.path (fun _ => false) (s.pid c.who) w r } } : State) (s.bcore c) (s.bslot c)
    fun b => { b with scratch := { b.scratch with path := fencePaths b.scratch.path b.engineHolds (s.pid c.who) w r } })
  refine h.trans ?_
  rw [show ({ s with mem := { s.mem with path := fencePaths s.mem.path (fun _ => false) (s.pid c.who) w r } } : State).block
    (s.bcore c) (s.bslot c) = some x from hx]
  rfl

/-! The payment of a word leaves blocks and homes -/

theorem block_paid (s : State) (c : Ctx) (i : Instr) (d e : Nat) : (paid s c i).block d e = s.block d e := by
  unfold paid State.pay
  split
  · rfl
  · split
    · exact block_updWarp ..
    · unfold State.requestWide
      split
      · rfl
      · exact block_of_blocks (core_part_updCore Core.blocks (by intro; rfl) ..) e

theorem home_paid (s : State) (c : Ctx) (i : Instr) (w : Who) : (paid s c i).home w = s.home w := by
  unfold paid State.pay
  split
  · rfl
  · split
    · exact home_congr (warp_part_updWarp (fun x => (x.origin, x.blk)) (f := fun x => { x with paid := false }) (fun _ => rfl) ..)
        (core_part_updWarp (g := Core.cmds) ⟨fun _ _ => rfl, fun _ _ => rfl, fun _ _ => rfl⟩ ..)
    · unfold State.requestWide
      split
      · rfl
      · refine home_congr ?_ (cmds_updCore _ _ _ (by intro; rfl))
        rw [warp_updCore _ _ _ rfl rfl, warp_tick]

theorem ctx_blk {s : State} {w : Who} {g : Guard} {c : Ctx} (h : s.ctx w g = some c) : s.blockOf w = some c.blk := by
  unfold State.ctx at h
  split at h
  · cases h
  · split at h
    · cases h
    · obtain rfl := Option.some.inj h
      assumption

/-- The block of the word's party, in the state in which the word is paid. -/
theorem block_of_ready {s : State} {i : Instr} {op : Nat} {g : Guard} {c : Ctx} (h : Ready s i op g c) :
    (paid s c i).block ((paid s c i).bcore c) ((paid s c i).bslot c) = some c.blk := by
  have hblk := ctx_blk h.sees
  rw [← ctx_who h.sees] at hblk
  rw [State.bcore, State.bslot, home_paid, block_paid]
  exact hblk

/-! The fences -/

theorem due_of_warp {p E : State} {w : Who} (h : E.warp w = p.warp w) : (E.warp w).map (·.due) = (p.warp w).map (·.due) := by rw [h]

section
variable {s : State} {c : Ctx} {order : Order} {sc : Scope} {ga : Bool} {g : Guard}

theorem fence_gives (h : Issues s (.fence order sc ga g) 0x6B g c) (hmig : sc = .blk → (paid s c (.fence order sc ga g)).migrated c.who = false)
    (hdone : (paid s c (.fence order sc ga g)).fence c order sc ga = .done (fenced (paid s c (.fence order sc ga g)) c.who order sc) .close) :
    Gives s c (.fence order sc ga g) (fenced (paid s c (.fence order sc ga g)) c.who order sc) .close := by
  have hexec : exec (.fence order sc ga g) s = s.issue (.fence order sc ga g) 0x6B g fun c s =>
      if sc = .blk && s.migrated c.who then .trap s (TrapArgs.of .migScope 0 0 c.exec) else s.fence c order sc ga := rfl
  refine gives_of_done h hexec ?_ (due_of_warp (warp_fenced ..))
  rw [if_neg (by simpa using hmig), hdone]

/-- A fence that completes ends its clause; with an acquire at the die or wider it leaves the core's L1 empty. -/
theorem fence_completes (h : Gives s c (.fence order sc ga g) (fenced (paid s c (.fence order sc ga g)) c.who order sc) .close) :
    ∃ t, Runs (.fence order sc ga g) s t ∧ Calm (paid s c (.fence order sc ga g)) t c [] ∧ t.clauseOf c.who = none ∧
      (isAcq order = true → scopeWide sc = true → (t.core c.who.core).l1.lines = [] ∧ (t.core c.who.core).l1.old = []) := by
  generalize hp : paid s c (.fence order sc ga g) = p at h
  obtain ⟨hgo, hcalm⟩ := goesOn_calm (p := p) (E := fenced p c.who order sc) (c := c) (i := .fence order sc ga g) (f := .close) rfl (by simp [Instr.use, Use.of])
    (drop_results_of_flight (flight_of_parts (warp_fenced ..) (fun _ _ => frontAt_fenced ..))) (calm_fenced ..)
  refine ⟨_, by simpa only [Gives, hp] using h, hcalm, ?_, fun hacq hwide => ?_⟩
  · rw [hgo]
    exact clauseOf_close ..
  · rw [hgo, core_part_goOn besideParties_l1, core_part_cacheWord besideParties_l1]
    simp only [fenced, hacq, if_true]
    exact l1_acquire hwide ..

end

section
variable {s : State} {c : Ctx} {w r : Path} {g : Guard}

/-- The effect of FENCEP on the state in which it is paid. -/
def fencepEffect (w r : Path) (c : Ctx) (s : State) : Res :=
  if w = .ls && !(s.flight c.who).sq.ents.isEmpty then
    match s.takeLost c.who queuedLost with
    | some (s, line) => Res.ackLost s line c.exec
    | none => .wait s false
  else if w = .ls && r = .tile && !s.storesHome c.who then .wait s false
  else .done (handed s c w r) .go

theorem exec_fencep (w r : Path) (g : Guard) (s : State) : exec (.fencep w r g) s = s.issue (.fencep w r g) 0x6C g (fencepEffect w r) := rfl

theorem fencep_gives (h : Issues s (.fencep w r g) 0x6C g c) (hsq : w = .ls → ((paid s c (.fencep w r g)).flight c.who).sq.ents = [])
    (hhome : w = .ls → r = .tile → (paid s c (.fencep w r g)).storesHome c.who = true) :
    Gives s c (.fencep w r g) (handed (paid s c (.fencep w r g)) c w r) := by
  refine gives_of_done h (exec_fencep ..) ?_ (due_of_warp (warp_handed ..))
  unfold fencepEffect
  rw [if_neg (by simpa using hsq), if_neg (by simpa using hhome)]

/-- A FENCEP that completes: what the party wrote or observed by path w is read by path r. -/
theorem fencep_completes (hblk : (paid s c (.fencep w r g)).block ((paid s c (.fencep w r g)).bcore c) ((paid s c (.fencep w r g)).bslot c) = some c.blk)
    (h : Gives s c (.fencep w r g) (handed (paid s c (.fencep w r g)) c w r)) :
    let p := paid s c (.fencep w r g)
    ∃ t, Runs (.fencep w r g) s t ∧ Calm p t c [] ∧
      (∀ k, ∀ e ∈ Tbl.get [] t.mem.path k, e.path = w → e.known (p.pid c.who) = true → e.seen.contains r = true) ∧
      ∀ b, t.block (p.bcore c) (p.bslot c) = some b → ∀ k, (r = .tile → c.blk.engineHolds k = false) → ∀ e ∈ Tbl.get [] b.scratch.path k,
        e.path = w → e.known (p.pid c.who) = true → e.seen.contains r = true := by
  intro p
  obtain ⟨hgo, hcalm⟩ := goesOn_calm (p := p) (E := handed p c w r) (c := c) (i := .fencep w r g) (f := .go) rfl (by simp [Instr.use, Use.of])
    (drop_results_of_flight (flight_of_parts (warp_handed ..) (fun _ _ => frontAt_handed ..))) (calm_handed ..)
  refine ⟨_, h, hcalm, fun k e he hpath hknown => ?_, fun b hb k hheld e he hpath hknown => ?_⟩
  · rw [hgo, mem_goOn, mem_cacheWord, handed, State.updB, updBlock_mem] at he
    exact seen_fencePaths (held := fun _ => false) he (fun _ => rfl) hpath hknown
  · have hscratch := scratch_handed hblk w r
    have hkept := block_part_goOn (g := fun x => x.scratch.path) (fun _ _ => rfl) (fun _ _ => rfl) (p.cacheWord (handed p c w r) c ((Instr.fencep w r g).use c.cls))
      c .go (p.bcore c) (p.bslot c)
    rw [← hgo, block_cacheWord, hb, hscratch] at hkept
    rw [show b.scratch.path = _ from Option.some.inj hkept] at he
    exact seen_fencePaths he hheld hpath hknown

end

/-- Settles O42: both fences complete with nothing but hand-offs, and L1, changed. -/
theorem fencesComplete : Obligations.FencesComplete := by
  refine ⟨fun order sc ga g s c => ?_, fun w r g s c => ?_⟩
  · intro i p h _ hmig howed hsq hlink hpeer
    exact fence_completes (fence_gives h hmig (fence_done howed hsq hlink hpeer))
  · intro i p h _ hsq hhome
    exact fencep_completes (block_of_ready h.ready) (fencep_gives h hsq hhome)

end Sys2Proof.MemWords
end

section
/-! SUPPORT. The migration of a warp (08 R157; 22 R351). -/

namespace Sys2Proof.MemWords

open Sys2Proof Sys2Proof.Machine Sys2Proof.Safety Sys2Proof.Laws Sys2Proof.Stream

/-! What a warp carries along -/

/-- Warp y carries the registers, predicates, seeds, frame and lanes of x. -/
structure Carries (x y : Warp) : Prop where
  preds : y.preds = x.preds
  seeds : y.srseed = x.srseed
  frame : y.frame = x.frame
  alive : y.alive = x.alive
  regs : ∀ r l, l < 32 → Tbl.get 0 y.regs (32 * r + l) = Tbl.get 0 x.regs (32 * r + l)

theorem Carries.trans {x y z : Warp} (h : Carries x y) (h' : Carries y z) : Carries x z :=
  ⟨h'.preds.trans h.preds, h'.seeds.trans h.seeds, h'.frame.trans h.frame, h'.alive.trans h.alive,
    fun r l hl => (h'.regs r l hl).trans (h.regs r l hl)⟩

theorem carries_placed (c : Ctx) (f : Fin) (x : Warp) : Carries x (placed c f x) := by
  have h := placed_rest c f x
  exact ⟨(congrArg Warp.preds h :).symm, (congrArg Warp.srseed h :).symm, (congrArg Warp.frame h :).symm, (congrArg Warp.alive h :).symm,
    fun r l _ => by rw [(congrArg Warp.regs h :)]⟩

theorem carries_cacheWord {u : Use} (hdst : u.dst = []) (hsrc : ∀ e ∈ u.src, e.h = .none) (s : State) (m : BitVec 32) (w0 x : Warp) :
    Carries x (x.cacheWord s u m w0) := by
  have hq := quiet_cacheWord hdst hsrc s m w0
  have hrest := cacheWord_rest s u m w0 x
  exact ⟨hq.preds x, hq.seeds x, (congrArg Warp.frame hrest :).symm, (congrArg Warp.alive hrest :).symm, hq.regs x⟩

theorem carries_placeOf (x : Warp) (o : Option (Nat × Nat)) (a : Option Nat) : Carries x { x with origin := o, away := a } :=
  ⟨rfl, rfl, rfl, rfl, fun _ _ _ => rfl⟩

/-- The warp stands at w in t as it stood at v in p, and no byte of memory changed. -/
theorem moved_of {p t : State} {v w : Who} {x y : Warp} (hv : IsWarp v) (hw : IsWarp w) (hoff : offPaths t = offPaths p)
    (hx : p.warp v = some x) (hy : t.warp w = some y) (h : Carries x y) :
    t.mem.mem = p.mem.mem ∧ ∃ y, t.warp w = some y ∧ y.preds = x.preds ∧ y.srseed = x.srseed ∧ y.frame = x.frame ∧ y.alive = x.alive ∧
      ∀ r l, l < 32 → val t w r l = val p v r l := by
  refine ⟨part_of_off offPaths (fun s => s.mem.mem) (fun _ => rfl) hoff, y, hy, h.preds, h.seeds, h.frame, h.alive, fun r l hl => ?_⟩
  rw [Frames.val_of_isWarp hw, Frames.val_of_isWarp hv, hx, hy]
  simp only [Option.map_some, Option.getD_some, h.regs r l hl]

/-! The moves -/

theorem offPaths_goOn (s : State) (c : Ctx) (f : Fin) : offPaths (s.goOn c f) = offPaths s := by
  rcases party_cases c.who with h | ⟨b, h⟩ | ⟨b, h⟩
  · rw [goOn_warp h, offPaths_updWarp]
  · rw [goOn_front h, State.updFront, offPaths_updBlock]
  · rw [goOn_eq h, offPaths_updMat]

theorem offPaths_cacheWord (p s : State) (c : Ctx) (u : Use) : offPaths (p.cacheWord s c u) = offPaths s := by
  unfold State.cacheWord
  split
  · exact offPaths_updWarp ..
  · rfl

theorem offPaths_leaveLanding (s : State) (w : Who) (own : List (Nat × Nat)) (k : Nat) : offPaths (s.leaveLanding w own k) = offPaths s := by
  unfold State.leaveLanding
  split
  · rw [State.closeAccounts, offPaths_updCore, offPaths_setWarp, State.poolGive, offPaths_updCore]
  · rfl

theorem offPaths_moveHome (s : State) (w : Who) (d : Dealt) : offPaths (s.moveHome w d) = offPaths s := by
  unfold State.moveHome
  split
  · rfl
  · rw [State.dropL1, offPaths_updCore, offPaths_setWarp, offPaths_leaveLanding]

theorem offPaths_moveAway (s : State) (w : Who) (d : Dealt) (k : Nat) : offPaths (s.moveAway w d k) = offPaths s := by
  unfold State.moveAway
  split
  · rfl
  · simp only [State.dropL1, offPaths_updCore, offPaths_setWarp, offPaths_leaveLanding, State.poolTake]

/-- The slot a warp came from. -/
def originSlot (x : Warp) (w : Who) : Who := ⟨(x.originOf w).1, .warp (x.originOf w).2⟩

theorem isWarp_originSlot (x : Warp) (w : Who) : IsWarp (originSlot x w) := .inr ⟨_, rfl⟩
theorem isWarp_landing (k : Nat) : IsWarp ⟨k, .landing⟩ := .inl rfl

theorem warp_moveHome {s : State} {w : Who} {x : Warp} (h : s.warp w = some x) (d : Dealt) :
    (s.moveHome w d).warp (originSlot x w) = some { x with origin := none, away := none } := by
  unfold State.moveHome
  simp only [h]
  rw [warp_dropL1, ← originSlot.eq_1, warp_setWarp (isWarp_originSlot x w)]

/-- The warps of a core after its account is opened and its L1 dropped. -/
theorem warp_arrived (s : State) (k r : Nat) (w : Who) : ((s.updCore k fun x => x.openAccount r).dropL1 k).warp w = s.warp w := by
  rw [warp_dropL1]
  have h (x : Core) : (x.openAccount r).warps = x.warps ∧ (x.openAccount r).landing = x.landing := by
    unfold Core.openAccount
    split <;> exact ⟨rfl, rfl⟩
  exact warp_updCore s k w (h _).1 (h _).2

theorem warp_moveAway {s : State} {w : Who} {x : Warp} (h : s.warp w = some x) (d : Dealt) (k : Nat) :
    (s.moveAway w d k).warp ⟨k, .landing⟩ = some { x with origin := some (x.originOf w), away := none } ∧
      (s.moveAway w d k).warp (originSlot x w) = some { x with away := some k, origin := none } := by
  unfold State.moveAway
  simp only [h, warp_arrived]
  rw [warp_setWarp (isWarp_landing k), Launch.warp_setWarp_other _ _ (by simp [originSlot]), ← originSlot.eq_1, warp_setWarp (isWarp_originSlot x w)]
  exact ⟨rfl, rfl⟩

/-! The words -/

/-- A word whose effect places its party itself ends in the state that its effect left. -/
theorem runs_of_left {s E : State} {i : Instr} {op : Nat} {g : Guard} {c : Ctx} {k : Ctx → State → Res} (h : Issues s i op g c)
    (hexec : exec i s = s.issue i op g k) (hk : k c (paid s c i) = .left E) : Runs i s E := by
  unfold Runs
  rw [hexec, issue_ready h.ready, hk]
  rfl

/-- A whole warp that owes nothing and has nothing outstanding. -/
structure Free (p : State) (c : Ctx) (x : Warp) : Prop where
  warp : p.warp c.who = some x
  whole : x.whole = true
  owes : p.owed c.who = []
  log : p.freeLogs c.who.core ≠ []
  stored : x.flight.sq = ⟨[], []⟩
  counts : x.flight.sb = []
  link : p.linkQuiet = true

/-- The state after the fence of a migration. -/
def migFenced (p : State) (w : Who) : State := fenced p w .acqRel .pkg

section
variable {p : State} {c : Ctx} {x : Warp} (h : Free p c x)
include h

theorem Free.isWarp : IsWarp c.who := isWarp_of_warp h.warp

theorem Free.flight : p.flight c.who = x.flight := by rw [Frames.flight_of_isWarp h.isWarp, h.warp]; rfl

theorem migrReady_free (go : Warp → State → Res) : p.migrReady c go = go x (migFenced p c.who) := by
  have hfence : p.fence c .acqRel .pkg false = .done (migFenced p c.who) .close :=
    fence_done h.owes (fun _ => by rw [h.flight, h.stored]) (fun _ => h.link) (fun _ hs => by cases hs)
  unfold State.migrReady
  simp only [h.warp, h.whole, Bool.not_true, Bool.false_eq_true, if_false, hfence, h.counts, List.isEmpty_nil]

theorem migFenced_warp : (migFenced p c.who).warp c.who = some x := (warp_fenced ..).trans h.warp

end

section
variable (p : State) (c : Ctx)

theorem offPaths_migFenced (w : Who) : offPaths (migFenced p w) = offPaths p := by
  show offPaths ((p.release w .pkg).acquire w .pkg) = offPaths p
  rw [State.acquire, offPaths_updBlock]
  show offPaths ((p.release w .pkg).dropL1 w.core) = offPaths p
  rw [State.dropL1, offPaths_updCore, offPaths_release]

/-- A fence leaves the log and the pool of a core. -/
theorem core_part_migFenced {γ : Type} {g : Core → γ} (hg : BesideParties g) (hl1 : ∀ k x, g { k with l1 := x } = g k) (w : Who) (d : Nat) :
    g ((migFenced p w).core d) = g (p.core d) := by
  show g (((p.release w .pkg).acquire w .pkg).core d) = g (p.core d)
  rw [State.acquire, core_part_updBlock hg]
  show g (((p.release w .pkg).dropL1 w.core).core d) = g (p.core d)
  rw [State.dropL1, core_part_updCore g (f := fun k => { k with l1 := { k.l1 with lines := [], old := [], bad := [] } }) (fun k => hl1 k _),
    State.release, core_part_updBlock hg]
  rfl

theorem freeLogs_migFenced (w : Who) (d : Nat) : (migFenced p w).freeLogs d = p.freeLogs d := by
  simp only [State.freeLogs, State.logEnt]
  rw [core_part_migFenced p (g := Core.log) ⟨fun _ _ => rfl, fun _ _ => rfl, fun _ _ => rfl⟩ (fun _ _ => rfl)]

theorem landingFor_migFenced (w v : Who) (d : Nat) (own : List (Nat × Nat)) (k : Nat) :
    (migFenced p w).landingFor v d own k = p.landingFor v d own k := by
  have hdie (e : Nat) : (migFenced p w).die e = p.die e := part_of_off offPaths (State.die · e) (fun _ => rfl) (offPaths_migFenced p w)
  have hland (e : Nat) : ((migFenced p w).core e).landing = (p.core e).landing := warp_fenced p w .acqRel .pkg ⟨e, .landing⟩
  have hpool (e : Nat) : ((migFenced p w).core e).pool = (p.core e).pool :=
    core_part_migFenced p (g := Core.pool) ⟨fun _ _ => rfl, fun _ _ => rfl, fun _ _ => rfl⟩ (fun _ _ => rfl) w e
  have hfits (e : Nat) : (migFenced p w).poolFits e own k = p.poolFits e own k := by
    rw [State.poolFits, State.poolFits, hpool, State.poolCuts, State.poolCuts, hdie]
  unfold State.landingFor
  refine congrArg (List.find? · _) (funext fun e => ?_)
  rw [hdie, hland, hfits, hpool]

theorem access_migFenced (w : Who) (core asid : Nat) (who : Option Who) (kind : Access) (plain handler : Bool) (va : DWord) :
    (migFenced p w).access core asid who kind plain handler va = p.access core asid who kind plain handler va :=
  part_of_off offPaths (fun s => s.access core asid who kind plain handler va) (fun _ => rfl) (offPaths_migFenced p w)

theorem pending_congr {s t : State} (h : t.fresh = s.fresh) (key : Nat) (rs : List Result) (n : Nat) (v : DWord) :
    pending t key rs n v = pending s key rs n v := by
  induction rs generalizing n v with
  | nil => rfl
  | cons r rs ih =>
    have hcoin (a b : Nat) : t.coin a b = s.coin a b := by rw [State.coin, State.coin, h]
    unfold pending
    split
    · rw [ih, hcoin]
    · exact ih ..

theorem x64_congr {s t : State} (h : t.fresh = s.fresh) (x : Warp) (r l : Nat) : x.x64 t r l = x.x64 s r l := by
  simp only [Warp.x64, Warp.x, pending_congr h]

theorem get64_migFenced (w : Who) (hc : IsWarp c.who) (r l : Nat) : (migFenced p w).get64 c r l = p.get64 c r l := by
  have hwarp : (migFenced p w).warp c.who = p.warp c.who := warp_fenced ..
  have hx (x : Warp) : x.x64 (migFenced p w) r l = x.x64 p r l :=
    x64_congr (part_of_off offPaths State.fresh (fun _ => rfl) (offPaths_migFenced p w)) x r l
  unfold State.get64
  rcases hc with h | ⟨n, h⟩ <;> simp only [h, hwarp, hx]

end

/-- Where MIGR moves its warp, once the page's home is known. -/
def migrTo (c : Ctx) (i : Instr) (x : Warp) (home : Nat) (s : State) : Res :=
  let o := x.originOf c.who
  let read : State := s.cacheWord s c (i.use .lane)
  if home = dieOf c.who.core then .done s .go
  else if home = dieOf o.1 then (read.moveHome c.who c.blk.dealt).afterMove c ⟨o.1, .warp o.2⟩
  else match s.landingFor c.who home c.blk.dealt.pool (frameCuts x.frame) with
    | some core => (read.moveAway c.who c.blk.dealt core).afterMove c ⟨core, .landing⟩
    | none => .wait s true

/-- The effect of MIGR on the state in which it is paid. -/
def migrEffect (a : BitVec 8) (c : Ctx) (s : State) : Res := s.migrReady c fun x s =>
  let op := s.capture c (.migr a) [⟨c.lane0, s.get64 c a.toNat c.lane0, 0, 0⟩]
  match (s.freeLogs c.who.core).isEmpty, s.translateAll op c.blk.dealt.asid .load op.ops with
  | true, _ => .wait (s.sweepLog c.who.core) false
  | false, .error t => .done (s.logFault op (s.newLog c.who.core) t (s.pagesOf c.blk.dealt.asid (op.ops.map (·.addr)))) .go
  | false, .ok ls => migrTo c (.migr a) x (((ls.head?.map fun p => p.2.home)).getD 0) s

theorem exec_migr (a : BitVec 8) (s : State) : exec (.migr a) s = s.issue (.migr a) 0x6E noGuard (migrEffect a) := rfl

theorem migrEffect_eq {a : BitVec 8} {p : State} {c : Ctx} {x : Warp} {l : Leaf} (h : Free p c x)
    (hl : p.access c.who.core c.blk.dealt.asid (some c.who) .load true (p.atHandler c.who) (p.get64 c a.toNat (lowest c.active)) = .ok l) :
    migrEffect a c p = migrTo c (.migr a) x l.home (migFenced p c.who) := by
  have hlog : ((migFenced p c.who).freeLogs c.who.core).isEmpty = false := by
    rw [freeLogs_migFenced]
    simpa using h.log
  have hhandler : (migFenced p c.who).atHandler c.who = p.atHandler c.who := by
    rw [State.atHandler, State.atHandler, migFenced, warp_fenced]
  have hok : (migFenced p c.who).access c.who.core c.blk.dealt.asid (some c.who) .load true ((migFenced p c.who).atHandler c.who)
      ((migFenced p c.who).get64 c a.toNat c.lane0) = .ok l := by
    rw [access_migFenced, hhandler, get64_migFenced p c c.who h.isWarp]
    exact hl
  rw [migrEffect, migrReady_free h]
  simp only [hlog, State.translateAll, State.capture, List.map_cons, List.map_nil, hok, List.filterMap_cons, List.filterMap_nil]
  rfl

section
variable {a : BitVec 8} {i : Instr} {s p : State} {c : Ctx} {x : Warp}

/-- The use of a word that moves its warp: it writes no register and frees none. -/
structure ReadsOnly (i : Instr) : Prop where
  dst : (i.use .lane).dst = []
  src : ∀ e ∈ (i.use .lane).src, e.h = .none

/-- A word that completes where its warp is leaves it there. -/
theorem stays (hp : p = paid s c i) (hi : ReadsOnly i) (hcls : c.cls = .lane) (h : Free p c x) (hg : Gives s c i (migFenced p c.who)) :
    ∃ t, Runs i s t ∧ t.mem.mem = p.mem.mem ∧ ∃ y, t.warp c.who = some y ∧ y.preds = x.preds ∧ y.srseed = x.srseed ∧ y.frame = x.frame ∧
      y.alive = x.alive ∧ ∀ r l, l < 32 → val t c.who r l = val p c.who r l := by
  subst hp
  obtain ⟨hgo, -⟩ := goesOn_calm (p := paid s c i) (E := migFenced (paid s c i) c.who) (c := c) (i := i) (f := .go)
    (by rw [hcls]; exact hi.dst) (by rw [hcls]; exact hi.src)
    (drop_results_of_flight (flight_of_parts (warp_fenced ..) (fun _ _ => frontAt_fenced ..))) (calm_fenced ..)
  refine ⟨_, hg, ?_⟩
  rw [hgo]
  refine moved_of (y := placed c .go (x.cacheWord (paid s c i) (i.use c.cls) c.exec x)) h.isWarp h.isWarp ?_ h.warp ?_
    ((carries_cacheWord (by rw [hcls]; exact hi.dst) (by rw [hcls]; exact hi.src) ..).trans (carries_placed ..))
  · rw [offPaths_goOn, offPaths_cacheWord, offPaths_migFenced]
  · rw [goOn_warp h.isWarp, warp_updWarp, State.cacheWord, h.warp]
    dsimp only
    rw [warp_updWarp, migFenced_warp h]
    rfl

/-- The warp as MIGR has read its address from it. -/
def readBy (q : State) (i : Instr) (c : Ctx) (x : Warp) : Warp := x.cacheWord q (i.use .lane) c.exec x

theorem warp_read {q : State} (hx : q.warp c.who = some x) : (q.cacheWord q c (i.use .lane)).warp c.who = some (readBy q i c x) := by
  rw [State.cacheWord, hx]
  dsimp only
  rw [warp_updWarp, hx]
  rfl

theorem originOf_readBy (q : State) (i : Instr) (c : Ctx) (x : Warp) (w : Who) : (readBy q i c x).originOf w = x.originOf w := by
  have h : (readBy q i c x).origin = x.origin := (congrArg Warp.origin (cacheWord_rest q (i.use .lane) c.exec x x) :).symm
  rw [Warp.originOf, Warp.originOf, h]

end

/-- A warp that moves home stands in its slot of origin. -/
theorem homeward {p q : State} {c : Ctx} {x y : Warp} (h : Free p c x) (hoff : offPaths q = offPaths p) (hy : q.warp c.who = some y)
    (hcarry : Carries x y) (horigin : y.originOf c.who = x.originOf c.who) :
    let t := (q.moveHome c.who c.blk.dealt).goOn { c with who := originSlot x c.who } .close
    t.mem.mem = p.mem.mem ∧ ∃ z, t.warp (originSlot x c.who) = some z ∧ z.preds = x.preds ∧ z.srseed = x.srseed ∧ z.frame = x.frame ∧
      z.alive = x.alive ∧ ∀ r l, l < 32 → val t (originSlot x c.who) r l = val p c.who r l := by
  intro t
  have hslot : originSlot y c.who = originSlot x c.who := by rw [originSlot, originSlot, horigin]
  have hmoved := warp_moveHome hy c.blk.dealt
  rw [hslot] at hmoved
  have ht : t = _ := goOn_warp (c := { c with who := originSlot x c.who }) (isWarp_originSlot x c.who) (q.moveHome c.who c.blk.dealt) .close
  refine moved_of h.isWarp (isWarp_originSlot ..) ?_ h.warp ?_ ((hcarry.trans (carries_placeOf y none none)).trans (carries_placed { c with who := originSlot x c.who } .close _))
  · rw [ht, offPaths_updWarp, offPaths_moveHome, hoff]
  · rw [ht, warp_updWarp, hmoved]
    rfl

/-- A warp that moves away stands in the landing slot, and its slot of origin marks where it is. -/
theorem landed_at {p q : State} {c : Ctx} {x y : Warp} (h : Free p c x) (hoff : offPaths q = offPaths p) (hy : q.warp c.who = some y)
    (hcarry : Carries x y) (horigin : y.originOf c.who = x.originOf c.who) (k : Nat) :
    let t := (q.moveAway c.who c.blk.dealt k).goOn { c with who := ⟨k, .landing⟩ } .close
    (t.mem.mem = p.mem.mem ∧ ∃ z, t.warp ⟨k, .landing⟩ = some z ∧ z.preds = x.preds ∧ z.srseed = x.srseed ∧ z.frame = x.frame ∧
      z.alive = x.alive ∧ ∀ r l, l < 32 → val t ⟨k, .landing⟩ r l = val p c.who r l) ∧
    (t.warp ⟨k, .landing⟩).map (·.origin) = some (some (x.originOf c.who)) ∧ (t.warp (originSlot x c.who)).map (·.away) = some (some k) := by
  intro t
  have hslot : originSlot y c.who = originSlot x c.who := by rw [originSlot, originSlot, horigin]
  obtain ⟨hland, haway⟩ := warp_moveAway hy c.blk.dealt k
  rw [horigin] at hland
  rw [hslot] at haway
  have ht : t = _ := goOn_warp (c := { c with who := ⟨k, .landing⟩ }) (isWarp_landing k) (q.moveAway c.who c.blk.dealt k) .close
  have hstands : t.warp ⟨k, .landing⟩ = some (placed { c with who := ⟨k, .landing⟩ } .close { y with origin := some (x.originOf c.who), away := none }) := by
    rw [ht, warp_updWarp, hland]
    rfl
  refine ⟨moved_of h.isWarp (isWarp_landing k) ?_ h.warp hstands ((hcarry.trans (carries_placeOf y _ none)).trans (carries_placed ..)), ?_, ?_⟩
  · rw [ht, offPaths_updWarp, offPaths_moveAway, hoff]
  · rw [hstands]
    exact congrArg some (congrArg Warp.origin (placed_rest { c with who := ⟨k, .landing⟩ } .close _) :).symm
  · rw [ht, warp_updWarp_other (by simp [originSlot]), haway]
    rfl

theorem readsOnly_migr (a : BitVec 8) : ReadsOnly (.migr a) where
  dst := rfl
  src := by simp [Instr.use, Use.of, Use.once, regs]

theorem readsOnly_migrHome : ReadsOnly .migrHome := ⟨rfl, by simp [Instr.use, Use.none]⟩

/-- The warp that MIGR moves, once its address is read. -/
theorem migr_read {p : State} {c : Ctx} {x : Warp} (h : Free p c x) (a : BitVec 8) :
    let q := migFenced p c.who
    offPaths (q.cacheWord q c ((Instr.migr a).use .lane)) = offPaths p ∧
      (q.cacheWord q c ((Instr.migr a).use .lane)).warp c.who = some (readBy q (.migr a) c x) ∧ Carries x (readBy q (.migr a) c x) :=
  ⟨(offPaths_cacheWord ..).trans (offPaths_migFenced ..), warp_read (migFenced_warp h),
    carries_cacheWord (readsOnly_migr a).dst (readsOnly_migr a).src ..⟩

/-- Settles O43: a warp that MIGR or MIGR.home leaves in place, lands on the page's die or brings home. -/
theorem migrationMovesWarps : Obligations.MigrationMovesWarps := by
  refine ⟨fun a s c x l => ?_, fun s c x => ?_⟩
  · intro i p hissue hfree hl
    obtain ⟨hwarp, hwhole, howes, hlog, hsq, hsb, hlink⟩ := hfree
    have h : Free p c x := ⟨hwarp, hwhole, howes, hlog, hsq, hsb, hlink⟩
    have hcls : c.cls = .lane := by
      rw [ctx_cls hissue.ready.sees, ← ctx_who hissue.ready.sees]
      exact partyCls_of_isWarp h.isWarp
    have heffect := migrEffect_eq h hl
    obtain ⟨hoff, hread, hcarry⟩ := migr_read h a
    refine ⟨fun hstay => ?_, fun haway hhome => ?_, fun haway hother k hk => ?_⟩
    · rw [migrTo, if_pos hstay] at heffect
      exact stays rfl (readsOnly_migr a) hcls h (gives_of_done hissue (exec_migr a s) heffect (due_of_warp (warp_fenced ..)))
    · rw [migrTo, if_neg haway, if_pos hhome] at heffect
      exact ⟨_, runs_of_left hissue (exec_migr a s) heffect, homeward h hoff hread hcarry (originOf_readBy ..)⟩
    · rw [migrTo, if_neg haway, if_neg hother, landingFor_migFenced, hk] at heffect
      exact ⟨_, runs_of_left hissue (exec_migr a s) heffect, landed_at h hoff hread hcarry (originOf_readBy ..) k⟩
  · intro p hissue hfree
    obtain ⟨hwarp, hwhole, howes, hlog, hsq, hsb, hlink⟩ := hfree
    have h : Free p c x := ⟨hwarp, hwhole, howes, hlog, hsq, hsb, hlink⟩
    have hcls : c.cls = .lane := by
      rw [ctx_cls hissue.ready.sees, ← ctx_who hissue.ready.sees]
      exact partyCls_of_isWarp h.isWarp
    refine ⟨fun hstay => ?_, fun haway => ?_⟩
    · refine stays rfl readsOnly_migrHome hcls h (gives_of_done hissue (show execMigrHome s = _ from rfl) ?_ (due_of_warp (warp_fenced ..)))
      rw [migrReady_free h]
      simp only [hstay, Option.isNone_none, if_true]
    · refine ⟨_, runs_of_left hissue (show execMigrHome s = _ from rfl) ?_, homeward h (offPaths_migFenced ..) (migFenced_warp h) ⟨rfl, rfl, rfl, rfl, fun _ _ _ => rfl⟩ rfl⟩
      rw [migrReady_free h]
      simp only [Option.isNone_iff_eq_none, haway, if_false]
      rfl

end Sys2Proof.MemWords
end

section
/-! SUPPORT. PREF (08 R150; 22 R365). -/

namespace Sys2Proof.MemWords

open Sys2Proof Sys2Proof.Machine Sys2Proof.Safety Sys2Proof.Laws Sys2Proof.Stream

/-- What a change of one core's L1 and counters leaves: memory, and of each core its warps and blocks. -/
structure CoreOnly (s t : State) : Prop where
  off : offCores t = offCores s
  warps : ∀ d, (t.core d).warps = (s.core d).warps
  landing : ∀ d, (t.core d).landing = (s.core d).landing
  blocks : ∀ d, (t.core d).blocks = (s.core d).blocks

theorem CoreOnly.refl (s : State) : CoreOnly s s := ⟨rfl, fun _ => rfl, fun _ => rfl, fun _ => rfl⟩
theorem CoreOnly.trans {s t u : State} (h : CoreOnly s t) (h' : CoreOnly t u) : CoreOnly s u :=
  ⟨h'.off.trans h.off, fun d => (h'.warps d).trans (h.warps d), fun d => (h'.landing d).trans (h.landing d),
    fun d => (h'.blocks d).trans (h.blocks d)⟩

theorem coreOnly_updCore {f : Core → Core} (hw : ∀ k, (f k).warps = k.warps) (hl : ∀ k, (f k).landing = k.landing)
    (hb : ∀ k, (f k).blocks = k.blocks) (s : State) (d : Nat) : CoreOnly s (s.updCore d f) :=
  ⟨rfl, core_part_updCore _ hw s d, core_part_updCore _ hl s d, core_part_updCore _ hb s d⟩

theorem coreOnly_foldl {α : Type} {f : State → α → State} (h : ∀ s a, CoreOnly s (f s a)) (l : List α) (s : State) : CoreOnly s (l.foldl f s) := by
  induction l generalizing s with
  | nil => exact .refl s
  | cons a l ih => exact (h s a).trans (ih _)

section
variable {s t : State} (h : CoreOnly s t)
include h

theorem CoreOnly.warp (w : Who) : t.warp w = s.warp w := by
  obtain ⟨d, p⟩ := w
  cases p <;> simp [State.warp, h.warps, h.landing]

theorem CoreOnly.frontAt (d e : Nat) : frontAt t d e = frontAt s d e := by rw [MemWords.frontAt, block_of_blocks (h.blocks d), MemWords.frontAt]

theorem CoreOnly.mem : t.mem = s.mem := mem_of_offCores h.off

theorem CoreOnly.calm (c : Ctx) : Calm s t c [] := calm_of_parts c (part_of_off offCores offBytes (fun _ => rfl) h.off) h.warp h.frontAt

theorem CoreOnly.flight (w : Who) : t.flight w = s.flight w := flight_of_parts (h.warp w) h.frontAt

end

/-! The lines requested -/

theorem coreOnly_evictPref (s : State) (d : Nat) : CoreOnly s (s.evictPref d) := by
  refine coreOnly_foldl (fun t p => coreOnly_updCore ?_ ?_ ?_ ..) _ s <;> exact fun _ => rfl

theorem pfiss_evictPref (s : State) (d e : Nat) : ((s.evictPref d).core e).pfiss = (s.core e).pfiss := by
  refine foldl_keeps (fun t : State => (t.core e).pfiss) (fun t p => core_part_updCore Core.pfiss ?_ ..) _ s
  exact fun _ => rfl

/-- The lines of a PREF requested one after another, but for those held. -/
def requested (core : Nat) (held : Nat × Bool → Bool) (l : List (Nat × Bool)) (s : State) : State :=
  l.foldl (fun s r => if held r then s else s.updCore core fun k => k.prefetch r.1 r.2) s

theorem coreOnly_requested (core : Nat) (held : Nat × Bool → Bool) (l : List (Nat × Bool)) (s : State) : CoreOnly s (requested core held l s) := by
  refine coreOnly_foldl (fun t r => ?_) l s
  split
  · exact .refl t
  · refine coreOnly_updCore ?_ ?_ ?_ .. <;> exact fun _ => rfl

theorem toNat_bump48 {x : BitVec 48} (h : x.toNat + 1 < 2 ^ 48) : (bump48 x).toNat = x.toNat + 1 := by
  unfold bump48
  split
  · rename_i hx
    subst hx
    simp at h
  · rw [BitVec.toNat_add, show (1 : BitVec 48).toNat = 1 from rfl, Nat.mod_eq_of_lt h]

/-- PFISS counts each line requested once (08 R150). -/
theorem pfiss_requested (core : Nat) (held : Nat × Bool → Bool) (l : List (Nat × Bool)) (s : State)
    (h : (s.core core).pfiss.toNat + (l.filter fun r => !held r).length < 2 ^ 48) :
    ((requested core held l s).core core).pfiss.toNat = (s.core core).pfiss.toNat + (l.filter fun r => !held r).length := by
  induction l generalizing s with
  | nil => rfl
  | cons r l ih =>
    rw [requested, List.foldl_cons]
    cases hr : held r with
    | true =>
      simp only [if_true]
      rw [List.filter_cons_of_neg (by simp [hr])] at h ⊢
      exact ih s h
    | false =>
      simp only [Bool.false_eq_true, if_false]
      rw [List.filter_cons_of_pos (by simp [hr]), List.length_cons] at h ⊢
      have hone : ((s.updCore core fun k => k.prefetch r.1 r.2).core core).pfiss.toNat = (s.core core).pfiss.toNat + 1 := by
        rw [core_updCore_same]
        exact toNat_bump48 (by omega)
      rw [← requested, ih _ (by rw [hone]; omega), hone]
      omega

/-- The lines that a PREF names. -/
def prefWanted (p : State) (c : Ctx) (pol : Policy) (a : BitVec 8) (off : BitVec 18) : List (Nat × Bool) :=
  (((List.range 32).filter fun l => c.exec.getLsbD l).filterMap fun l => p.prefLine c pol (p.get64 c a.toNat l + off.signExtend 64)).dedup

/-- The state after a PREF. -/
def prefetched (p : State) (c : Ctx) (pol : Policy) (a : BitVec 8) (off : BitVec 18) : State :=
  requested c.who.core (fun r => p.prefHeld c.who.core r.1 r.2) (prefWanted p c pol a off) (p.evictPref c.who.core)

theorem exec_pref (a : BitVec 8) (g : Guard) (off : BitVec 18) (pol : Policy) (s : State) :
    exec (.pref a g off pol) s = s.issue (.pref a g off pol) 0x69 g fun c p => .done (prefetched p c pol a off) .go := rfl

theorem coreOnly_prefetched (p : State) (c : Ctx) (pol : Policy) (a : BitVec 8) (off : BitVec 18) : CoreOnly p (prefetched p c pol a off) :=
  (coreOnly_evictPref ..).trans (coreOnly_requested ..)

theorem pref_completes {a : BitVec 8} {g : Guard} {off : BitVec 18} {pol : Policy} {s p : State} {c : Ctx} (hp : p = paid s c (.pref a g off pol))
    (h : Issues s (.pref a g off pol) 0x69 g c) :
    let asked := (prefWanted p c pol a off).filter fun r => !p.prefHeld c.who.core r.1 r.2
    ∃ t, Runs (.pref a g off pol) s t ∧ Calm p t c [] ∧ t.mem = p.mem ∧
      ((p.core c.who.core).pfiss.toNat + asked.length < 2 ^ 48 →
        (t.core c.who.core).pfiss.toNat = (p.core c.who.core).pfiss.toNat + asked.length) := by
  intro asked
  have honly := coreOnly_prefetched p c pol a off
  have hg : Gives s c (.pref a g off pol) (prefetched p c pol a off) :=
    gives_of_done h (exec_pref ..) (by rw [hp]) (due_of_warp (by rw [honly.warp, hp]))
  obtain ⟨hgo, hcalm⟩ := goesOn_calm (i := .pref a g off pol) (f := .go) (c := c) rfl (by simp [Instr.use, Use.of, regs])
    (drop_results_of_flight (honly.flight c.who)) (honly.calm c)
  refine ⟨_, hp ▸ hg, hcalm, ?_, fun hlt => ?_⟩
  · rw [hgo, mem_goOn, mem_cacheWord, honly.mem]
  · have hpf : BesideParties Core.pfiss := ⟨fun _ _ => rfl, fun _ _ => rfl, fun _ _ => rfl⟩
    rw [hgo, core_part_goOn hpf, core_part_cacheWord hpf, prefetched, pfiss_requested, pfiss_evictPref]
    rwa [pfiss_evictPref]

end Sys2Proof.MemWords
end

section
/-! SUPPORT. DISC (08 R155; 20 R308). -/

namespace Sys2Proof.MemWords

open Sys2Proof Sys2Proof.Machine Sys2Proof.Safety Sys2Proof.Laws Sys2Proof.Stream

/-! A memory word that performs at once -/

/-- An access that is performed without an event completes its word. -/
theorem memRun_ok {p E : State} {c : Ctx} {op : MemOp} {f : Fate} (h : p.perform c.blk op false = .ok E f []) (fin : Fin) :
    p.memRun c op fin = .done (E.settleMem op false f) fin := by
  unfold State.memRun
  rw [h]
  rfl

/-- Nothing holds the word back, and it is no store that has begun: it is performed. -/
theorem memWord_eq {p : State} {c : Ctx} {op : MemOp} (h : Unheld p c.who (sbOf op.ins)) (hbegun : (p.flight c.who).begun c.pc = false)
    (ordered : Bool) (spans : List (Nat × Nat)) (fin : Fin) : p.memWord c op ordered spans fin = p.memRun c op fin := by
  obtain ⟨howes, hlog, hsb⟩ := h
  have hwait : p.mustWait c.who ordered spans = none := by simp [State.mustWait, howes]
  unfold State.memWord
  simp [hbegun, hwait, hlog, hsb]

theorem begunStore_none {p : State} {op : MemOp} (h : (p.flight op.who).begun op.pc = false) : p.begunStore op = none := by
  simp [State.begunStore, h]

/-! The ranges of a DISC -/

theorem pieces_zero (p : State) (op : MemOp) (asid : Nat) (k : Access) (n : Nat) (va : DWord) : p.pieces op asid k n va 0 = [] := by
  cases n <;> simp [State.pieces]

theorem locked_zero (p : State) (core : Nat) (scratch : Bool) (owner : Nat) (write : Bool) (a : Nat) :
    p.locked core scratch owner write a 0 = none := by
  have hhit (l : Lock) : l.hit write a 0 = none := by simp [Lock.hit]
  refine List.foldl_fixed' (fun l => ?_) _
  simp only [hhit]
  split <;> exact ite_self _

theorem worst_nil : worst [] = none := rfl

/-- The pieces of the ranges of a DISC. -/
def discPieces (p : State) (op : MemOp) (asid : Nat) (k : LaneOp) : List (Except AccFault (DWord × Nat × Leaf)) :=
  p.pieces op asid .store (k.b.toNat % 2 ^ 32 / 4096 + 2) k.addr (k.b.toNat % 2 ^ 32)

/-- The pieces that a DISC discards. -/
def discarded (p : State) (op : MemOp) (asid : Nat) : List (DWord × Nat × Leaf) := op.ops.flatMap fun k => goodPieces (discPieces p op asid k)

/-- A range of a DISC that passes its checks (08 R153, R149). -/
structure DiscFits (p : State) (op : MemOp) (asid : Nat) (k : LaneOp) : Prop where
  aligned : k.addr.toNat % 32 = 0
  whole : k.b.toNat % 2 ^ 32 % 32 = 0
  mapped : pieceFaults k.lane (discPieces p op asid k) = []
  free : p.locked op.who.core false asid true k.addr.toNat (k.b.toNat % 2 ^ 32) = none

/-- Bytes that may be discarded now: of a live die, with no store on its way there. -/
def Discardable (p : State) (op : MemOp) (q : DWord × Nat × Leaf) : Prop :=
  p.efPending (dieOf op.who.core) q.2.2.phys q.2.1 = false ∧ (p.die q.2.2.home).dead = false

theorem laneTrap_none {α : Type} (cause : Cause) {l : List α} {f : α → Option (Nat × Nat)} (h : ∀ x ∈ l, f x = none) :
    laneTrap cause (l.filterMap f) = none := by
  rw [List.filterMap_eq_nil_iff.2 h]
  rfl

theorem doDisc_ok {p : State} {b : Block} {op : MemOp} (hfits : ∀ k ∈ op.ops, DiscFits p op b.dealt.asid k)
    (hquiet : discarded p op b.dealt.asid ≠ [] → (p.flight op.who).sq.ents = [])
    (hok : ∀ q ∈ discarded p op b.dealt.asid, Discardable p op q) :
    p.doDisc b op = .ok ((discarded p op b.dealt.asid).foldl (fun s q => s.discard q.2.2.phys q.2.1) p) .nothing [] := by
  have hskew : laneTrap .align (op.ops.filterMap fun k => if k.addr.toNat % 32 != 0 || k.b.toNat % 2 ^ 32 % 32 != 0 then
      some (k.lane, k.addr.toNat) else none) = none :=
    laneTrap_none _ fun k hk => by rw [(hfits k hk).aligned, (hfits k hk).whole]; rfl
  have hlock : laneTrap .rangeLock (op.ops.filterMap fun k =>
      (p.locked op.who.core false b.dealt.asid true k.addr.toNat (k.b.toNat % 2 ^ 32)).map fun a => (k.lane, a)) = none :=
    laneTrap_none _ fun k hk => by rw [(hfits k hk).free]; rfl
  have hfault : (op.ops.map fun k => (k.lane, discPieces p op b.dealt.asid k)).flatMap (fun x => pieceFaults x.1 x.2) = [] := by
    rw [List.flatMap_eq_nil_iff]
    intro x hx
    obtain ⟨k, hk, rfl⟩ := List.mem_map.1 hx
    exact (hfits k hk).mapped
  have hall : (op.ops.map fun k => (k.lane, discPieces p op b.dealt.asid k)).flatMap (fun x => goodPieces x.2) = discarded p op b.dealt.asid := by
    rw [List.flatMap_map]; rfl
  have hdead : laneTrap .poison ((op.ops.map fun k => (k.lane, discPieces p op b.dealt.asid k)).flatMap fun x => (goodPieces x.2).filterMap fun q =>
      if (p.die q.2.2.home).dead then some (x.1, q.1.toNat) else none) = none := by
    rw [show List.flatMap _ _ = [] from ?_]
    · rfl
    · rw [List.flatMap_eq_nil_iff]
      intro x hx
      obtain ⟨k, hk, rfl⟩ := List.mem_map.1 hx
      rw [List.filterMap_eq_nil_iff]
      intro q hq
      simp [(hok q (List.mem_flatMap.2 ⟨k, hk, hq⟩)).2]
  have hef : (discarded p op b.dealt.asid).any (fun q => p.efPending (dieOf op.who.core) q.2.2.phys q.2.1) = false := by
    rw [List.any_eq_false]
    intro q hq
    simp [(hok q hq).1]
  unfold State.doDisc
  dsimp only
  rw [hskew, hlock]
  rw [show (fun k : LaneOp => (k.lane, p.pieces op b.dealt.asid .store (k.b.toNat % 2 ^ 32 / 4096 + 2) k.addr (k.b.toNat % 2 ^ 32))) =
    fun k => (k.lane, discPieces p op b.dealt.asid k) from rfl, hfault, hall, worst_nil]
  by_cases hnone : discarded p op b.dealt.asid = []
  · simp [hnone]
  · simp only [hdead, hef, hquiet hnone]
    simp [hnone]

/-! Discarded sectors -/

theorem get_setAll (l : List Nat) (t : Tbl Bool) (k : Nat) : Tbl.get false (l.foldl (fun t k => Tbl.set false t k true) t) k = (Tbl.get false t k || l.contains k) := by
  induction l generalizing t with
  | nil => simp
  | cons j l ih =>
    rw [List.foldl_cons, ih, Tbl_get_set, List.contains_cons]
    by_cases h : k = j
    · subst h; simp
    · rw [if_neg h, beq_false_of_ne h, Bool.false_or]

theorem freshen_parts (m : MemState) (d a n : Nat) :
    (m.freshen d a n).disc = m.disc ∧ (m.freshen d a n).mem = m.mem ∧ (m.freshen d a n).peer = m.peer := by
  unfold MemState.freshen MemState.setViews MemState.setView
  split <;> exact ⟨rfl, rfl, rfl⟩

/-- A discard marks its sectors (08 R155). -/
theorem disc_discard (s : State) (a n k : Nat) :
    Tbl.get false (s.discard a n).mem.disc k = (Tbl.get false s.mem.disc k || (sectorsOf a n).contains k) := by
  refine (get_setAll _ _ k).trans ?_
  rw [(freshen_parts ..).1, (freshen_parts ..).1]

theorem core_discard (s : State) (a n d : Nat) : ((s.discard a n).core d).warps = (s.core d).warps ∧
    ((s.discard a n).core d).landing = (s.core d).landing ∧ ((s.discard a n).core d).blocks = (s.core d).blocks := by
  have h := Tbl_get_map Core.init s.cores (fun x : Core => { x with l1 := { x.l1 with old := Tbl.drop x.l1.old fun b => decide (a ≤ b) && decide (b < a + n) } }) d
  have hcore : (s.discard a n).core d = _ := h
  rw [hcore]
  exact ⟨rfl, rfl, rfl⟩

theorem warp_discard (s : State) (a n : Nat) (w : Who) : (s.discard a n).warp w = s.warp w := by
  obtain ⟨d, p⟩ := w
  obtain ⟨hw, hl, -⟩ := core_discard s a n d
  cases p <;> simp [State.warp, hw, hl]

theorem frontAt_discard (s : State) (a n d e : Nat) : frontAt (s.discard a n) d e = frontAt s d e := by
  rw [frontAt, block_of_blocks (core_discard s a n d).2.2, frontAt]

theorem calm_discard (s : State) (c : Ctx) (a n : Nat) : Calm s (s.discard a n) c [] := by
  refine calm_of_parts c ?_ (warp_discard s a n) (frontAt_discard s a n)
  have hmem : ((s.mem.freshen 0 a n).freshen 1 a n).mem = s.mem.mem := by rw [(freshen_parts ..).2.1, (freshen_parts ..).2.1]
  have hpeer : ((s.mem.freshen 0 a n).freshen 1 a n).peer = s.mem.peer := by rw [(freshen_parts ..).2.2, (freshen_parts ..).2.2]
  unfold offBytes State.discard
  simp only [hmem, hpeer]

/-- The pieces of memory discarded one after another. -/
def discardAll (qs : List (DWord × Nat × Leaf)) (s : State) : State := qs.foldl (fun s q => s.discard q.2.2.phys q.2.1) s

theorem warp_discardAll (qs : List (DWord × Nat × Leaf)) (s : State) (w : Who) : (discardAll qs s).warp w = s.warp w :=
  foldl_keeps (State.warp · w) (fun _ _ => warp_discard ..) qs s
theorem frontAt_discardAll (qs : List (DWord × Nat × Leaf)) (s : State) (d e : Nat) : frontAt (discardAll qs s) d e = frontAt s d e :=
  foldl_keeps (frontAt · d e) (fun _ _ => frontAt_discard ..) qs s

theorem calm_discardAll (qs : List (DWord × Nat × Leaf)) (s : State) (c : Ctx) : Calm s (discardAll qs s) c [] := by
  induction qs generalizing s with
  | nil => exact calm_refl s c
  | cons q qs ih => exact calm_trans (calm_discard s c _ _) (ih _)

theorem disc_discardAll (qs : List (DWord × Nat × Leaf)) (s : State) (k : Nat) :
    Tbl.get false (discardAll qs s).mem.disc k =
      (Tbl.get false s.mem.disc k || qs.any fun q => (sectorsOf q.2.2.phys q.2.1).contains k) := by
  induction qs generalizing s with
  | nil => simp [discardAll]
  | cons q qs ih =>
    rw [discardAll, List.foldl_cons, ← discardAll, ih, disc_discard, List.any_cons, Bool.or_assoc]

/-! The word -/

section
variable (t a : BitVec 8) (g : Guard)

/-- The captured operands of a DISC. -/
def discOps (p : State) (c : Ctx) : List LaneOp := c.ops (fun l => p.get64 c a.toNat l) (fun l => (p.get c t.toNat l).setWidth 128) fun _ => 0

/-- A DISC captured. -/
def discOp (p : State) (c : Ctx) : MemOp := p.capture c (.disc t a g) (discOps t a p c)

/-- The effect of DISC on the state in which it is paid. -/
def discEffect (c : Ctx) (p : State) : Res :=
  if (discOps t a p c).all (·.b == 0) then p.memRun c (discOp t a g p c) .go
  else p.memWord c (discOp t a g p c) false ((discOps t a p c).map fun k => (k.addr.toNat, k.b.toNat)) .go

theorem exec_disc (s : State) : exec (.disc t a g) s = s.issue (.disc t a g) 0x6A g (discEffect t a g) := rfl

theorem perform_disc {p : State} {c : Ctx} (hbegun : (p.flight c.who).begun c.pc = false) :
    p.perform c.blk (discOp t a g p c) false = p.doDisc c.blk (discOp t a g p c) := by
  unfold State.perform
  simp only [Bool.false_eq_true, if_false, begunStore_none (op := discOp t a g p c) hbegun]
  rfl

end

section
variable {t a : BitVec 8} {g : Guard} {s p : State} {c : Ctx}

/-- The operand of one lane. -/
def discLane (t a : BitVec 8) (p : State) (c : Ctx) (l : Nat) : LaneOp := ⟨l, p.get64 c a.toNat l, (p.get c t.toNat l).setWidth 128, 0⟩

theorem discOps_eq : (discOp t a g p c).ops = (onesOf c.exec).map (discLane t a p c) := rfl

theorem toNat_discLane (l : Nat) : (discLane t a p c l).b.toNat = (p.get c t.toNat l).toNat := by
  simp only [discLane, BitVec.toNat_setWidth]
  omega

/-- The pieces of a range depend on who accesses it, and at which level. -/
theorem pieces_congr {op op' : MemOp} (hwho : op'.who = op.who) (hpriv : op'.priv = op.priv) (asid : Nat) (k : Access) (f : Nat) (va : DWord)
    (n : Nat) : p.pieces op' asid k f va n = p.pieces op asid k f va n := by
  induction f generalizing va n with
  | zero => rfl
  | succ f ih =>
    unfold State.pieces
    simp only [hwho, hpriv, ih]

/-- The pieces of a lane's range. -/
def rangePieces (p : State) (c : Ctx) (i : Instr) (t a : BitVec 8) (l : Nat) : List (Except AccFault (DWord × Nat × Leaf)) :=
  p.pieces (p.capture c i []) c.blk.dealt.asid .store ((p.get c t.toNat l).toNat % 2 ^ 32 / 4096 + 2) (p.get64 c a.toNat l)
    ((p.get c t.toNat l).toNat % 2 ^ 32)

theorem discPieces_lane (l : Nat) : discPieces p (discOp t a g p c) c.blk.dealt.asid (discLane t a p c l) = rangePieces p c (.disc t a g) t a l := by
  rw [discPieces, toNat_discLane]
  exact pieces_congr (op := p.capture c (.disc t a g) []) (op' := discOp t a g p c) rfl rfl ..

theorem any_discarded (f : DWord × Nat × Leaf → Bool) : (discarded p (discOp t a g p c) c.blk.dealt.asid).any f =
    (List.range 32).any fun l => c.exec.getLsbD l && (goodPieces (rangePieces p c (.disc t a g) t a l)).any f := by
  rw [discarded, discOps_eq, List.any_flatMap, List.any_map, onesOf, List.any_filter]
  refine congrArg (List.any _) (funext fun l => ?_)
  simp only [Function.comp, discPieces_lane]

theorem mem_discarded {q : DWord × Nat × Leaf} (h : q ∈ discarded p (discOp t a g p c) c.blk.dealt.asid) :
    ∃ l, c.exec.getLsbD l = true ∧ q ∈ goodPieces (rangePieces p c (.disc t a g) t a l) := by
  obtain ⟨k, hk, hq⟩ := List.mem_flatMap.1 h
  obtain ⟨l, hl, rfl⟩ := List.mem_map.1 (discOps_eq ▸ hk)
  exact ⟨l, ((mem_onesOf _ _).1 hl).2, discPieces_lane (p := p) (c := c) (g := g) l ▸ hq⟩

/-- A DISC whose ranges are all empty changes nothing, whatever the party has outstanding (20 R308). -/
theorem disc_zero (hbegun : (p.flight c.who).begun c.pc = false)
    (h : ∀ l, c.exec.getLsbD l = true → p.get c t.toNat l = 0 ∧ (p.get64 c a.toNat l).toNat % 32 = 0) : discEffect t a g c p = .done p .go := by
  have hlen (l : Nat) (hl : c.exec.getLsbD l = true) : (discLane t a p c l).b.toNat = 0 := by rw [toNat_discLane, (h l hl).1]; rfl
  have hpieces (k : LaneOp) (hk : k.b.toNat = 0) : discPieces p (discOp t a g p c) c.blk.dealt.asid k = [] := by
    rw [discPieces, hk]
    exact pieces_zero ..
  have hzero : ∀ k ∈ (discOp t a g p c).ops, k.b.toNat = 0 ∧ k.addr.toNat % 32 = 0 := by
    intro k hk
    obtain ⟨l, hl, rfl⟩ := List.mem_map.1 (discOps_eq ▸ hk)
    have hl := ((mem_onesOf _ _).1 hl).2
    exact ⟨hlen l hl, (h l hl).2⟩
  have hnone : discarded p (discOp t a g p c) c.blk.dealt.asid = [] := by
    rw [discarded, List.flatMap_eq_nil_iff]
    intro k hk
    rw [hpieces k (hzero k hk).1]
    rfl
  have hdisc : p.perform c.blk (discOp t a g p c) false = .ok p .nothing [] := by
    rw [perform_disc _ _ _ hbegun, doDisc_ok, hnone]
    · rfl
    · intro k hk
      obtain ⟨hb, ha⟩ := hzero k hk
      exact ⟨ha, by simp [hb], by rw [hpieces k hb]; rfl, by rw [hb]; exact locked_zero ..⟩
    · exact fun hne => absurd hnone hne
    · rw [hnone]
      simp
  have hall : (discOps t a p c).all (·.b == 0) = true := by
    rw [List.all_eq_true]
    intro k hk
    rw [beq_iff_eq]
    exact BitVec.eq_of_toNat_eq (hzero k hk).1
  rw [discEffect, if_pos hall, memRun_ok hdisc]
  rfl

/-- The ranges of a DISC pass their checks, and none of their bytes is on its way to the other die. -/
structure RangesOk (p : State) (c : Ctx) (i : Instr) (t a : BitVec 8) (l : Nat) : Prop where
  aligned : (p.get64 c a.toNat l).toNat % 32 = 0
  whole : (p.get c t.toNat l).toNat % 2 ^ 32 % 32 = 0
  mapped : pieceFaults l (rangePieces p c i t a l) = []
  free : p.locked c.who.core false c.blk.dealt.asid true (p.get64 c a.toNat l).toNat ((p.get c t.toNat l).toNat % 2 ^ 32) = none
  quiet : ∀ q ∈ goodPieces (rangePieces p c i t a l), p.efPending (dieOf c.who.core) q.2.2.phys q.2.1 = false ∧ (p.die q.2.2.home).dead = false

/-- A DISC of ranges that check makes their sectors discarded (08 R155). -/
theorem disc_effect (hbegun : (p.flight c.who).begun c.pc = false) (hfree : Unheld p c.who 0) (hents : (p.flight c.who).sq.ents = [])
    (h : ∀ l, c.exec.getLsbD l = true → RangesOk p c (.disc t a g) t a l) :
    discEffect t a g c p = .done (discardAll (discarded p (discOp t a g p c) c.blk.dealt.asid) p) .go := by
  have hdisc : p.perform c.blk (discOp t a g p c) false = .ok (discardAll (discarded p (discOp t a g p c) c.blk.dealt.asid) p) .nothing [] := by
    rw [perform_disc _ _ _ hbegun, doDisc_ok]
    · rfl
    · intro k hk
      obtain ⟨l, hl, rfl⟩ := List.mem_map.1 (discOps_eq ▸ hk)
      obtain ⟨haligned, hwhole, hmapped, hlock, -⟩ := h l ((mem_onesOf _ _).1 hl).2
      exact ⟨haligned, by rw [toNat_discLane]; exact hwhole, by rw [discPieces_lane]; exact hmapped, by rw [toNat_discLane]; exact hlock⟩
    · exact fun _ => hents
    · intro q hq
      obtain ⟨l, hl, hq⟩ := mem_discarded hq
      exact (h l hl).quiet q hq
  have hrun : p.memRun c (discOp t a g p c) .go = .done (discardAll (discarded p (discOp t a g p c) c.blk.dealt.asid) p) .go := by
    rw [memRun_ok hdisc]
    rfl
  rw [discEffect, memWord_eq hfree hbegun, hrun, ite_self]

theorem disc_completes (hp : p = paid s c (.disc t a g)) (h : Issues s (.disc t a g) 0x6A g c) (hbegun : (p.flight c.who).begun c.pc = false)
    (hfree : Unheld p c.who 0) (hents : (p.flight c.who).sq.ents = []) (hok : ∀ l, c.exec.getLsbD l = true → RangesOk p c (.disc t a g) t a l) :
    ∃ u, Runs (.disc t a g) s u ∧ Calm p u c [] ∧ ∀ k, Tbl.get false u.mem.disc k = (Tbl.get false p.mem.disc k ||
      (List.range 32).any fun l => c.exec.getLsbD l && (goodPieces (rangePieces p c (.disc t a g) t a l)).any fun q =>
        (sectorsOf q.2.2.phys q.2.1).contains k) := by
  subst hp
  have hg := gives_of_done h (exec_disc ..) (disc_effect hbegun hfree hents hok) (due_of_warp (warp_discardAll ..))
  obtain ⟨hgo, hcalm⟩ := goesOn_calm (i := .disc t a g) (f := .go) (c := c) rfl (by simp [Instr.use, Use.of, regs])
    (drop_results_of_flight (flight_of_parts (warp_discardAll ..) fun _ _ => frontAt_discardAll ..)) (calm_discardAll ..)
  refine ⟨_, hg, hcalm, fun k => ?_⟩
  rw [hgo, mem_goOn, mem_cacheWord, disc_discardAll, any_discarded]

end

end Sys2Proof.MemWords
end

section
/-! SUPPORT. CLAIM (08 R156; 20 R302), and the statement on words that name ranges. -/

namespace Sys2Proof.MemWords

open Sys2Proof Sys2Proof.Machine Sys2Proof.Safety Sys2Proof.Laws Sys2Proof.Stream

section
variable {t a : BitVec 8} {g : Guard} {sb : BitVec 3} {s p : State} {c : Ctx}

/-- The operand of a CLAIM, of its lowest executing lane. -/
def claimLane (t a : BitVec 8) (p : State) (c : Ctx) : LaneOp := discLane t a p c (lowest c.exec)

/-- A CLAIM captured. -/
def claimOp (t a : BitVec 8) (g : Guard) (sb : BitVec 3) (p : State) (c : Ctx) : MemOp := p.capture c (.claim t a g sb) [claimLane t a p c]

/-- The length of a CLAIM. -/
def claimLen (t : BitVec 8) (p : State) (c : Ctx) : Nat := (p.get c t.toNat (lowest c.exec)).toNat % 2 ^ 32

/-- The pieces of a CLAIM's range. -/
def claimed (p : State) (c : Ctx) (i : Instr) (k : Access) (va : DWord) (n : Nat) : List (Except AccFault (DWord × Nat × Leaf)) :=
  p.claimPieces (p.capture c i []) c.blk.dealt.asid k va n

/-- A CLAIM whose range checks: whole pages, readable and writable, of live dies (08 R156). -/
structure ClaimFits (p : State) (c : Ctx) (i : Instr) (va : DWord) (n : Nat) : Prop where
  some_bytes : n ≠ 0
  start : va.toNat % 4096 = 0
  whole : n % 4096 = 0
  readable : pieceFaults (lowest c.exec) (claimed p c i .load va n) = []
  writable : pieceFaults (lowest c.exec) (claimed p c i .store va n) = []
  pages : ∀ q ∈ p.rangeLeaves c.blk.dealt.asid va.toNat n, q.1.toNat % 2 ^ 57 = q.2.2.base ∧ q.2.1 = q.2.2.size ∧ (p.die q.2.2.home).dead = false

theorem doClaim_ok (hfits : ClaimFits p c (.claim t a g sb) (p.get64 c a.toNat (lowest c.exec)) (claimLen t p c))
    (hents : (p.flight c.who).sq.ents = []) (hresults : (p.flight c.who).results = []) (hhome : p.storesHome c.who = true) :
    p.doClaim c.blk (claimOp t a g sb p c) =
      .ok p (.claim c.blk.dealt.asid (p.get64 c a.toNat (lowest c.exec)).toNat (claimLen t p c)) [] := by
  obtain ⟨hn, hstart, hwhole, hrd, hwr, hpages⟩ := hfits
  have hlen : (claimLane t a p c).b.toNat % 2 ^ 32 = claimLen t p c := by rw [claimLane, toNat_discLane, claimLen]
  have hpieces (k : Access) : p.claimPieces (claimOp t a g sb p c) c.blk.dealt.asid k (claimLane t a p c).addr (claimLen t p c) =
      claimed p c (.claim t a g sb) k (p.get64 c a.toNat (lowest c.exec)) (claimLen t p c) :=
    pieces_congr (op := p.capture c (.claim t a g sb) []) (op' := claimOp t a g sb p c) rfl rfl ..
  have hodd : (p.rangeLeaves c.blk.dealt.asid (claimLane t a p c).addr.toNat (claimLen t p c)).find?
      (fun q => q.1.toNat % 2 ^ 57 != q.2.2.base || q.2.1 != q.2.2.size) = none := by
    rw [List.find?_eq_none]
    intro q hq
    obtain ⟨hbase, hsize, -⟩ := hpages q hq
    rw [hbase, hsize]
    simp
  have hdead : (p.rangeLeaves c.blk.dealt.asid (claimLane t a p c).addr.toNat (claimLen t p c)).find? (fun q => (p.die q.2.2.home).dead) = none := by
    rw [List.find?_eq_none]
    intro q hq
    simp [(hpages q hq).2.2]
  have haddr : (claimLane t a p c).addr.toNat % 4096 = 0 := hstart
  unfold State.doClaim
  simp only [show (claimOp t a g sb p c).ops.head? = some (claimLane t a p c) from rfl, hlen, hpieces, hodd, hdead, haddr, hwhole]
  rw [show (claimLane t a p c).lane = lowest c.exec from rfl, hrd, hwr, if_neg hn, show (claimOp t a g sb p c).who = c.who from rfl, hents, hresults,
    hhome]
  rfl

theorem perform_claim (hbegun : (p.flight c.who).begun c.pc = false) :
    p.perform c.blk (claimOp t a g sb p c) false = p.doClaim c.blk (claimOp t a g sb p c) := by
  unfold State.perform
  simp only [Bool.false_eq_true, if_false, begunStore_none (op := claimOp t a g sb p c) hbegun]
  rfl

/-- The CLAIM under way (20 R302). -/
def claimResult (sb : BitVec 3) (asid lo n : Nat) : Result := ⟨sb.toNat, [], .none, [], some (asid, lo, n)⟩

/-- A flight once a result that a scoreboard may count joins it. -/
def flown (sb : Nat) (r : Result) (f : Flight) : Flight := { (if sb = 0 then f else f.addSb sb) with results := f.results ++ [r] }

theorem updFlight_updFlight (q : State) (w : Who) (f f' : Flight → Flight) : (q.updFlight w f).updFlight w f' = q.updFlight w (f' ∘ f) := by
  unfold State.updFlight
  cases w.party <;> simp only [updFront_updFront, updWarp_updWarp] <;> rfl

theorem settleMem_claim (asid lo n : Nat) : p.settleMem (claimOp t a g sb p c) false (.claim asid lo n) =
    p.updFlight c.who (flown sb.toNat (claimResult sb asid lo n)) := by
  unfold State.settleMem
  dsimp only
  rw [show sbOf (claimOp t a g sb p c).ins = sb.toNat from rfl, show (claimOp t a g sb p c).who = c.who from rfl]
  by_cases h : sb.toNat = 0
  · rw [h, if_pos (by simp)]
    refine congrArg (p.updFlight c.who) (funext fun f => ?_)
    simp [flown, claimResult, h]
  · rw [if_neg (by simp [h]), updFlight_updFlight]
    refine congrArg (p.updFlight c.who) (funext fun f => ?_)
    simp [flown, claimResult, h, Flight.addSb]

/-- The effect of CLAIM on the state in which it is paid. -/
def claimEffect (t a : BitVec 8) (g : Guard) (sb : BitVec 3) (c : Ctx) (p : State) : Res :=
  let op := claimOp t a g sb p c
  let spans := [((p.get64 c a.toNat (lowest c.exec)).toNat, (p.get c t.toNat (lowest c.exec)).toNat)]
  if p.get c t.toNat (lowest c.exec) == 0 then .done p .go
  else if p.effFmode 285 c.blk.dealt.region && !(p.freeLogs c.who.core).isEmpty && (p.mustWait c.who true spans).isNone then
    match p.perform c.blk op false with
    | .ok p (.claim asid lo len) _ =>
      let p := p.holdRange c.who asid lo len
      if p.claimQuiet asid lo len then .left (p.parkClaim c.who c.pc c.pc c.next asid lo len) else .wait p false
    | _ => p.memWord c op true spans .go
  else p.memWord c op true spans .go

theorem exec_claim (t a : BitVec 8) (g : Guard) (sb : BitVec 3) (s : State) :
    exec (.claim t a g sb) s = s.issue (.claim t a g sb) 0x6D g (claimEffect t a g sb) := rfl

theorem claim_effect (hfree : Unheld p c.who sb.toNat) (hbegun : (p.flight c.who).begun c.pc = false)
    (hmode : p.effFmode 285 c.blk.dealt.region = false)
    (hfits : ClaimFits p c (.claim t a g sb) (p.get64 c a.toNat (lowest c.exec)) (claimLen t p c))
    (hents : (p.flight c.who).sq.ents = []) (hresults : (p.flight c.who).results = []) (hhome : p.storesHome c.who = true) :
    claimEffect t a g sb c p = .done (p.updFlight c.who (flown sb.toNat
      (claimResult sb c.blk.dealt.asid (p.get64 c a.toNat (lowest c.exec)).toNat (claimLen t p c)))) .go := by
  have hlen : (p.get c t.toNat (lowest c.exec) == 0) = false := by
    rw [beq_eq_false_iff_ne]
    intro h0
    exact hfits.some_bytes (by simp [claimLen, h0])
  unfold claimEffect
  simp only [hlen, hmode, Bool.false_and, Bool.false_eq_true, if_false]
  rw [memWord_eq hfree hbegun, memRun_ok ((perform_claim hbegun).trans (doClaim_ok hfits hents hresults hhome)), settleMem_claim]

/-! The flight of a party that stands ready -/

/-- A warp or a front end that may issue has a flight of its own. -/
theorem flight_updFlight {q : State} {w : Who} (hpresent : (∃ x, q.warp w = some x) ∨ ∃ b x, w.party = .front b ∧ frontAt q w.core b = some x)
    (f : Flight → Flight) : (q.updFlight w f).flight w = f (q.flight w) := by
  rcases hpresent with ⟨x, hx⟩ | ⟨b, x, hb, hx⟩
  · have hw := isWarp_of_warp hx
    have hupd : q.updFlight w f = q.updWarp w fun x => { x with flight := f x.flight } := by
      unfold State.updFlight
      rcases hw with h | ⟨n, h⟩ <;> simp only [h]
    rw [hupd, Frames.flight_of_isWarp hw, Frames.flight_of_isWarp hw, warp_updWarp, hx]
    rfl
  · have hupd : q.updFlight w f = q.updFront w.core b fun x => { x with flight := f x.flight } := by
      unfold State.updFlight
      simp only [hb]
    rw [hupd, flight_of_front hb, flight_of_front hb, frontAt_updFront, if_pos ⟨rfl, rfl⟩, hx]
    rfl

theorem frontAt_paid (i : Instr) (d e : Nat) : frontAt (paid s c i) d e = frontAt s d e := by rw [frontAt, block_paid, frontAt]

/-- The payment of a word leaves every part of its warp but the note that it is paid. -/
theorem warp_part_paid {γ : Type} {f : Warp → γ} (hf : ∀ x b, f { x with paid := b } = f x) (i : Instr) (w : Who) :
    ((paid s c i).warp w).map f = (s.warp w).map f := by
  unfold paid State.pay
  split
  · rfl
  · split
    · exact warp_part_updWarp f (f := fun x => { x with paid := false }) (fun x => hf x _) s.tick c.who w
    · unfold State.requestWide
      split
      · rfl
      · rw [warp_updCore _ _ _ rfl rfl, warp_tick]

/-- The party of a word that the matrix stream does not accept is a warp or a front end. -/
theorem present_paid {i : Instr} {op : Nat} (h : Ready s i op g c) (hop : acceptsOp .matrix op = false) :
    (∃ x, (paid s c i).warp c.who = some x) ∨ ∃ b x, c.who.party = .front b ∧ frontAt (paid s c i) c.who.core b = some x := by
  have hrun : s.runnable c.who = true := by
    have hsees := h.sees
    rw [← ctx_who hsees] at hsees
    unfold State.ctx at hsees
    split at hsees
    · cases hsees
    · split at hsees
      · cases hsees
      · simp_all
  unfold State.runnable at hrun
  rcases party_cases c.who with hw | ⟨b, hb⟩ | ⟨b, hb⟩
  · refine .inl (Option.isSome_iff_exists.1 ?_)
    have hsame := congrArg Option.isSome (warp_part_paid (s := s) (c := c) (f := fun _ => ()) (fun _ _ => rfl) i c.who)
    rw [Option.isSome_map, Option.isSome_map] at hsame
    rw [hsame]
    rcases hw with hp | ⟨n, hp⟩
    all_goals
      simp only [hp] at hrun
      split at hrun
      · simp [‹s.warp c.who = some _›]
      · cases hrun
  · simp only [hb] at hrun
    refine .inr ⟨b, ?_⟩
    split at hrun
    · exact ⟨_, hb, by rw [frontAt_paid]; assumption⟩
    · cases hrun
  · have hchecks := h.checks
    rw [State.issueTrap, ctx_cls h.sees, ← ctx_who h.sees, show partyCls c.who.party = .matrix by rw [hb]; rfl, hop] at hchecks
    cases hchecks

/-- The CLAIM under way, counted in its scoreboard if it names one. -/
theorem claim_completes (hp : p = paid s c (.claim t a g sb)) (h : Issues s (.claim t a g sb) 0x6D g c) (hfree : Unheld p c.who sb.toNat)
    (hbegun : (p.flight c.who).begun c.pc = false) (hmode : p.effFmode 285 c.blk.dealt.region = false)
    (hfits : ClaimFits p c (.claim t a g sb) (p.get64 c a.toNat (lowest c.exec)) (claimLen t p c))
    (hents : (p.flight c.who).sq.ents = []) (hresults : (p.flight c.who).results = []) (hhome : p.storesHome c.who = true) :
    ∃ u, Runs (.claim t a g sb) s u ∧ Calm p u c [] ∧ u.mem = p.mem ∧
      (u.flight c.who).results = [claimResult sb c.blk.dealt.asid (p.get64 c a.toNat (lowest c.exec)).toNat (claimLen t p c)] ∧
      (sb ≠ 0 → Tbl.get 0 (u.flight c.who).sb sb.toNat = Tbl.get 0 (p.flight c.who).sb sb.toNat + 1) := by
  generalize hr : claimResult sb c.blk.dealt.asid (p.get64 c a.toNat (lowest c.exec)).toNat (claimLen t p c) = r
  have hE := flight_updFlight (hp ▸ present_paid h.ready rfl) (flown sb.toNat r)
  have hclaims : r.claim.isSome = true := by rw [← hr]; rfl
  have hg : Gives s c (.claim t a g sb) (p.updFlight c.who (flown sb.toNat r)) := by
    refine gives_of_done h (exec_claim ..) (by rw [← hp, claim_effect hfree hbegun hmode hfits hents hresults hhome, hr]) ?_
    rw [← hp]
    exact warp_part_updFlight _ (fun _ _ => rfl) ..
  have hland : ∀ x ∈ ((p.updFlight c.who (flown sb.toNat r)).flight c.who).results.drop (p.flight c.who).results.length,
      x.sb ≠ 0 ∨ x.claim.isSome = true := by
    rw [hE, hresults]
    simp [flown, hresults, hclaims]
  obtain ⟨hgo, hcalm⟩ := goesOn_calm (i := .claim t a g sb) (f := .go) (c := c) rfl (by simp [Instr.use, Use.of, Use.once, regs]) hland
    (calm_updFlight ..)
  have hflight : (goesOn p c (.claim t a g sb) (p.updFlight c.who (flown sb.toNat r)) .go).flight c.who = flown sb.toNat r (p.flight c.who) := by
    rw [hgo, flight_goOn, flight_cacheWord, hE]
  refine ⟨_, hp ▸ hg, hcalm, ?_, ?_, fun hsb => ?_⟩
  · rw [hgo, mem_goOn, mem_cacheWord, updFlight_mem]
  · rw [hflight]
    simp [flown, hresults]
  · have hne : sb.toNat ≠ 0 := fun h0 => hsb (BitVec.eq_of_toNat_eq h0)
    rw [hflight]
    simp [flown, hne, Flight.addSb, Tbl.upd, Tbl_get_set_same]

end

/-- Settles O41: the words that name ranges of memory. -/
theorem rangeWords : Obligations.RangeWords := by
  refine ⟨fun a g off pol s c => ?_, fun t a g s c => ?_, fun t a g sb s c => ?_⟩
  · intro i p lines asked h
    exact pref_completes rfl h
  · intro i p va ps h hbegun
    refine ⟨fun hzero => gives_of_done h (exec_disc ..) (disc_zero hbegun hzero) rfl, fun hfree hsq hok => ?_⟩
    refine disc_completes rfl h hbegun hfree (by rw [hsq]) fun l hl => ?_
    obtain ⟨haligned, hwhole, hmapped, hlock, hquiet⟩ := hok l hl
    exact ⟨haligned, hwhole, hmapped, hlock, hquiet⟩
  · intro i p l va n rd wr h
    refine ⟨fun hzero => gives_of_done h (exec_claim ..) ?_ rfl, ?_⟩
    · rw [claimEffect, if_pos (by simpa using hzero)]
    · intro hfree hbegun hmode hn hstart hwhole hrd hwr hpages hsq hresults hhome
      exact claim_completes rfl h hfree hbegun hmode ⟨hn, hstart, hwhole, hrd, hwr, hpages⟩ (by rw [hsq]) hresults hhome

end Sys2Proof.MemWords
end

section
/-! SUPPORT. What the device's stores to memory and its fault records leave of cores, of parties and of the TLBs. -/

namespace Sys2Proof.MemWords

open Sys2Proof Sys2Proof.Machine Sys2Proof.Safety Sys2Proof.Laws Sys2Proof.Stream

/-! The parts of a core beside its L1 -/

theorem core_part_map {γ : Type} (g : Core → γ) {f : Nat × Core → Nat × Core} (hkey : ∀ e, (f e).1 = e.1) (hpart : ∀ e, g (f e).2 = g e.2)
    (t : Tbl Core) (c : Nat) : g (Tbl.get Core.init (t.map f) c) = g (Tbl.get Core.init t c) := by
  induction t with
  | nil => rfl
  | cons e t ih =>
    rw [List.map_cons, Tbl_get_cons (k' := e.1) (v := e.2), Tbl_get_cons (k' := (f e).1) (v := (f e).2), hkey]
    split
    · exact hpart e
    · exact ih

section
variable {γ : Type} {g : Core → γ} (hg : ∀ k x, g { k with l1 := x } = g k)
include hg

theorem core_part_noteL1 (s : State) (d ex a n c : Nat) : g ((s.noteL1 d ex a n).core c) = g (s.core c) := by
  refine core_part_map g (fun e => ?_) (fun e => ?_) s.cores c
  · dsimp only
    split
    · split <;> rfl
    · rfl
  · dsimp only
    split
    · split <;> exact hg ..
    · rfl

theorem core_part_gaStore (s : State) (core a : Nat) (bs : List Byte) (c : Nat) : g ((s.gaStore core a bs).core c) = g (s.core c) := by
  calc g ((s.gaStore core a bs).core c)
      = g ((((s.fixSectors a bs.length).noteL1 0 core a bs.length).noteL1 1 core a bs.length).core c) := rfl
    _ = g ((s.fixSectors a bs.length).core c) := by rw [core_part_noteL1 hg, core_part_noteL1 hg]
    _ = g (s.core c) := foldl_keeps (fun s => g (s.core c)) (f := fun s k => s.fixSector a bs.length k) (fun _ _ => rfl) _ s

theorem core_part_postDevice (s : State) (src : Nat) (x : Cause) (a p k : DWord) (slot core r c : Nat) :
    g ((s.postDevice src x a p k slot core r).core c) = g (s.core c) := by
  have hraise (s : State) (v r : Nat) : (s.raise v r).core c = s.core c := part_of_off offMsix (State.core · c) (fun _ => rfl) (offMsix_raise s v r)
  unfold State.postDevice
  rcases post_cases s r (s.record ⟨x, src, false, true, none, 0, a, p, slot, false, core, r, 0, k⟩) with ⟨y, h, hpost⟩ | ⟨y, h, z, hpost⟩
  · rw [hpost]
    rfl
  · rw [hpost, hraise]
    exact core_part_gaStore hg s 224 y h c

end

/-! Parties -/

/-- The warps and the front ends of two states are the same. -/
structure Parties (s t : State) : Prop where
  warp : ∀ w, t.warp w = s.warp w
  front : ∀ d e, frontAt t d e = frontAt s d e

theorem Parties.refl (s : State) : Parties s s := ⟨fun _ => rfl, fun _ _ => rfl⟩
theorem Parties.trans {s t u : State} (h : Parties s t) (h' : Parties t u) : Parties s u :=
  ⟨fun w => (h'.warp w).trans (h.warp w), fun d e => (h'.front d e).trans (h.front d e)⟩

theorem Parties.foldl {α : Type} {f : State → α → State} (h : ∀ s x, Parties s (f s x)) (l : List α) (s : State) : Parties s (l.foldl f s) := by
  induction l generalizing s with
  | nil => exact .refl s
  | cons x l ih => exact (h s x).trans (ih _)

theorem Parties.flight {s t : State} (h : Parties s t) (w : Who) : t.flight w = s.flight w := flight_of_parts (h.warp w) h.front

theorem parties_of_cores {s t : State} (hwarps : ∀ d, (t.core d).warps = (s.core d).warps) (hlanding : ∀ d, (t.core d).landing = (s.core d).landing)
    (hblocks : ∀ d, (t.core d).blocks = (s.core d).blocks) : Parties s t := by
  refine ⟨fun w => ?_, fun d e => by rw [frontAt, block_of_blocks (hblocks d), frontAt]⟩
  obtain ⟨d, p⟩ := w
  cases p <;> simp [State.warp, hwarps, hlanding]

theorem parties_release (s : State) (w : Who) (sc : Scope) (a : Place) : Parties s (s.release w sc a) :=
  ⟨fun v => Frames.warp_release s w v sc a, frontAt_release s w sc a⟩
theorem parties_acquire (s : State) (w : Who) (sc : Scope) (a : Place) : Parties s (s.acquire w sc a) :=
  ⟨fun v => warp_acquires s w v sc a, frontAt_acquires s w sc a⟩

theorem parties_gaStore (s : State) (core a : Nat) (bs : List Byte) : Parties s (s.gaStore core a bs) :=
  parties_of_cores (core_part_gaStore (g := Core.warps) (fun _ _ => rfl) s core a bs) (core_part_gaStore (g := Core.landing) (fun _ _ => rfl) s core a bs)
    (core_part_gaStore (g := Core.blocks) (fun _ _ => rfl) s core a bs)

theorem parties_postDevice (s : State) (src : Nat) (x : Cause) (a p k : DWord) (slot core r : Nat) :
    Parties s (s.postDevice src x a p k slot core r) :=
  parties_of_cores (core_part_postDevice (g := Core.warps) (fun _ _ => rfl) s src x a p k slot core r)
    (core_part_postDevice (g := Core.landing) (fun _ _ => rfl) s src x a p k slot core r)
    (core_part_postDevice (g := Core.blocks) (fun _ _ => rfl) s src x a p k slot core r)

theorem parties_updCmd (s : State) (core seq : Nat) (f : Cmd → Cmd) : Parties s (s.updCmd core seq f) := by
  have h := coreOnly_updCore (f := fun k => { k with cmds := k.cmds.map fun x => if x.seq = seq then f x else x }) (fun _ => rfl) (fun _ => rfl)
    (fun _ => rfl) s core
  exact ⟨h.warp, h.frontAt⟩

/-! The TLBs -/

theorem tlb_dropGuest (m : MemState) (d a n : Nat) : (m.dropGuest d a n).tlb = m.tlb := by
  unfold MemState.dropGuest MemState.setGuests
  split <;> rfl
theorem tlb_freshen (m : MemState) (d a n : Nat) : (m.freshen d a n).tlb = m.tlb := by
  unfold MemState.freshen MemState.setViews MemState.setView
  split <;> rfl
theorem tlb_fixSector (s : State) (a n k : Nat) : (s.fixSector a n k).mem.tlb = s.mem.tlb := by
  unfold State.fixSector
  dsimp only
  split <;> split <;> rfl

theorem tlb_gaStore (s : State) (core a : Nat) (bs : List Byte) : (s.gaStore core a bs).mem.tlb = s.mem.tlb := by
  unfold State.gaStore
  dsimp only
  rw [tlb_dropGuest, tlb_dropGuest, tlb_freshen, tlb_freshen]
  exact foldl_keeps (fun s : State => s.mem.tlb) (fun s k => tlb_fixSector s a bs.length k) _ s

theorem tlb_postDevice (s : State) (src : Nat) (x : Cause) (a p k : DWord) (slot core r : Nat) :
    (s.postDevice src x a p k slot core r).mem.tlb = s.mem.tlb := by
  have hraise (s : State) (v r : Nat) : (s.raise v r).mem = s.mem := part_of_off offMsix State.mem (fun _ => rfl) (offMsix_raise s v r)
  unfold State.postDevice
  rcases post_cases s r (s.record ⟨x, src, false, true, none, 0, a, p, slot, false, core, r, 0, k⟩) with ⟨y, h, hpost⟩ | ⟨y, h, z, hpost⟩
  · rw [hpost]
  · rw [hpost, hraise]
    exact tlb_gaStore s 224 y h

end Sys2Proof.MemWords
end

section
/-! SUPPORT. TLBINV (08 R146; 23 R391). -/

namespace Sys2Proof.MemWords

open Sys2Proof Sys2Proof.Machine Sys2Proof.Safety Sys2Proof.Laws Sys2Proof.Stream

/-! Held requests that translate again -/

theorem holdReq_keeps (s : State) (core : Nat) (x : Cmd) (c : Cause) (va : DWord) :
    Parties s (s.holdReq core x c va) ∧ (s.holdReq core x c va).mem.tlb = s.mem.tlb := by
  unfold State.holdReq
  split
  · exact ⟨.refl s, rfl⟩
  · split
    · exact ⟨(parties_postDevice ..).trans (parties_updCmd ..), tlb_postDevice ..⟩
    · exact ⟨parties_updCmd .., rfl⟩

theorem retry_keeps (s : State) (core : Nat) (x : Cmd) : Parties s (s.retry core x) ∧ (s.retry core x).mem.tlb = s.mem.tlb := by
  unfold State.retry
  split
  · exact ⟨.refl s, rfl⟩
  · split
    · exact ⟨.refl s, rfl⟩
    · exact ⟨.refl s, rfl⟩
    · split
      · exact ⟨.refl s, rfl⟩
      · exact holdReq_keeps ..
    · exact ⟨parties_updCmd .., rfl⟩

theorem retranslate_keeps (s : State) (core : Nat) : Parties s (s.retranslate core) ∧ (s.retranslate core).mem.tlb = s.mem.tlb :=
  ⟨.foldl (fun s x => (retry_keeps s core x).1) _ s, foldl_keeps (fun s : State => s.mem.tlb) (fun s x => (retry_keeps s core x).2) _ s⟩

/-- A request that is not held is left as it is. -/
theorem retry_eq {s : State} {core : Nat} {x : Cmd} (h : ∀ r ∈ x.reqs, r.held = none) : s.retry core x = s := by
  unfold State.retry
  split
  · rfl
  · rename_i r rest hreqs
    simp only [h r (by rw [hreqs]; exact List.mem_cons_self)]

theorem foldl_fixed_of_mem {α β : Type} {f : β → α → β} {b : β} {l : List α} (h : ∀ a ∈ l, f b a = b) : l.foldl f b = b := by
  induction l with
  | nil => rfl
  | cons a l ih =>
    rw [List.foldl_cons, h a List.mem_cons_self]
    exact ih fun x hx => h x (List.mem_cons_of_mem _ hx)

theorem retranslate_eq {s : State} {core : Nat} (h : ∀ x ∈ (s.core core).cmds, ∀ r ∈ x.reqs, r.held = none) : s.retranslate core = s :=
  foldl_fixed_of_mem fun x hx => retry_eq (h x hx)

/-! The removal -/

/-- The state without the translations that q names in the TLBs of a scope. -/
def removed (s : State) (core : Nat) (sc : Scope) (q : TlbEnt → Bool) : State :=
  match sc with
  | .core => s.tlbDropCore core q
  | .die => s.tlbDrop fun t => t.cluster / 14 == dieOf core && q t
  | _ => s.tlbDrop q

theorem removed_keeps (s : State) (core : Nat) (sc : Scope) (q : TlbEnt → Bool) :
    Parties s (removed s core sc q) ∧ offBytes (removed s core sc q) = offBytes s ∧ (removed s core sc q).cores = s.cores := by
  unfold removed
  split <;> exact ⟨⟨fun _ => rfl, fun _ _ => rfl⟩, rfl, rfl⟩

/-- No translation that q names stands in a TLB of the scope (23 R391). -/
theorem tlb_removed {s : State} {core : Nat} {sc : Scope} {q : TlbEnt → Bool} {hit : TlbEnt → Prop} (hq : ∀ t, hit t → q t = true)
    {e : TlbEnt} (he : e ∈ (removed s core sc q).mem.tlb) (hhit : hit e) :
    (sc = .core → e.cluster = clusterOf core → core ∈ e.dropped) ∧ (sc = .die → e.cluster / 14 ≠ dieOf core) ∧ (sc = .core ∨ sc = .die) := by
  unfold removed at he
  cases sc with
  | core =>
    refine ⟨fun _ hcluster => ?_, fun h => (by cases h), .inl rfl⟩
    obtain ⟨t, -, rfl⟩ := List.mem_map.1 he
    by_cases hnamed : (t.cluster == clusterOf core && q t) = true
    · simp only [hnamed, if_true]
      exact List.mem_cons_self
    · simp only [hnamed, Bool.false_eq_true, if_false] at hhit hcluster
      exact absurd (by simp [hcluster, hq _ hhit]) hnamed
  | die =>
    refine ⟨fun h => (by cases h), fun _ hdie => ?_, .inr rfl⟩
    have hkept := (List.mem_filter.1 he).2
    simp [hdie, hq e hhit] at hkept
  | _ =>
    have hkept := (List.mem_filter.1 he).2
    simp [hq e hhit] at hkept

/-! The words -/

section
variable {p : State} {c : Ctx} {sc : Scope} {asid : Option (BitVec 16)} {hit : TlbEnt → Bool}

/-- The spaces that a TLBINV names. -/
def spaceOf (asid : Option (BitVec 16)) (n : Nat) : Bool := match asid with | some a => n == a.toNat | none => true

/-- A space that is the block's own. -/
def ownSpace (c : Ctx) (asid : Option (BitVec 16)) : Bool := match asid with | some a => a.toNat == c.blk.dealt.asid | none => false

/-- A block may remove the translations of every space at region 0, of its own anywhere (23 R391). -/
def MayInvalidate (c : Ctx) (asid : Option (BitVec 16)) : Prop := c.blk.dealt.region = 0 ∨ ownSpace c asid = true

/-- The translations that a TLBINV names. -/
def namedBy (hit : TlbEnt → Bool) (asid : Option (BitVec 16)) (t : TlbEnt) : Bool := hit t && spaceOf asid t.asid

/-- An access of the scope is under way with a translation that is named. -/
def inUse (p : State) (c : Ctx) (sc : Scope) (hit : TlbEnt → Bool) (asid : Option (BitVec 16)) : Bool :=
  (p.reached c.who.core sc).any (p.usesRemoved (namedBy hit asid) (spaceOf asid))

/-- Held requests of a scope translated again. -/
def retranslated (s : State) (core : Nat) (sc : Scope) : State := (s.reached core sc).foldl State.retranslate s

/-- The state that a TLBINV leaves: what it names removed, and held requests translated again. -/
def invalidated (p : State) (c : Ctx) (sc : Scope) (hit : TlbEnt → Bool) (asid : Option (BitVec 16)) : State :=
  retranslated (removed p c.who.core sc (namedBy hit asid)) c.who.core sc

theorem tlbinv_eq : p.tlbinv c sc asid hit =
    if c.blk.dealt.region != 0 && !ownSpace c asid then .trap p (TrapArgs.of .privDeny 0 0 c.exec)
    else if inUse p c sc hit asid then .wait p false
    else p.released c .sys fun s => .done (invalidated s c sc hit asid) .go := by
  cases sc <;> cases asid <;> rfl

theorem mayInvalidate_iff : MayInvalidate c asid ↔ ¬(c.blk.dealt.region != 0 && !ownSpace c asid) = true := by
  simp [MayInvalidate, or_iff_not_imp_left]

/-- Where the release may go on at once, a release at `.sys` and what follows it are made at once (09 R163). -/
theorem released_sys (h : Settled p c.who .sys) (k : State → Res) : p.released c .sys k = k (p.release c.who .sys) := by
  rw [State.released, fence_done h.owes (fun _ => h.stored) (fun _ => h.link rfl) fun _ _ => h.peers rfl]
  rfl

theorem tlbinv_done (hmay : MayInvalidate c asid) (hbusy : inUse p c sc hit asid = false) (h : Settled p c.who .sys) :
    p.tlbinv c sc asid hit = .done (invalidated (p.release c.who .sys) c sc hit asid) .go := by
  rw [tlbinv_eq, if_neg (mayInvalidate_iff.1 hmay), hbusy, released_sys h]
  rfl

theorem tlbinv_waits (hmay : MayInvalidate c asid) (hbusy : inUse p c sc hit asid = true) : p.tlbinv c sc asid hit = .wait p false := by
  rw [tlbinv_eq, if_neg (mayInvalidate_iff.1 hmay), if_pos hbusy]

theorem tlbinv_traps (hmay : ¬MayInvalidate c asid) : p.tlbinv c sc asid hit = .trap p (TrapArgs.of .privDeny 0 0 c.exec) := by
  rw [tlbinv_eq, if_pos (not_not.1 fun h => hmay (mayInvalidate_iff.2 h))]

theorem retranslated_keeps (s : State) (core : Nat) : Parties s (retranslated s core sc) ∧ (retranslated s core sc).mem.tlb = s.mem.tlb :=
  ⟨.foldl (fun s k => (retranslate_keeps s k).1) _ s, foldl_keeps (fun s : State => s.mem.tlb) (fun s k => (retranslate_keeps s k).2) _ s⟩

theorem parties_invalidated : Parties p (invalidated (p.release c.who .sys) c sc hit asid) :=
  ((parties_release ..).trans (removed_keeps ..).1).trans (retranslated_keeps ..).1

/-- With no request held, a TLBINV changes translations alone, and hand-offs. -/
theorem calm_invalidated (h : ∀ core, ∀ x ∈ (p.core core).cmds, ∀ r ∈ x.reqs, r.held = none) :
    Calm p (invalidated (p.release c.who .sys) c sc hit asid) c [] := by
  obtain ⟨hparties, hoff, hcores⟩ := removed_keeps (p.release c.who .sys) c.who.core sc (namedBy hit asid)
  have hcmds (core : Nat) : ((removed (p.release c.who .sys) c.who.core sc (namedBy hit asid)).core core).cmds = (p.core core).cmds := by
    rw [State.core, hcores]
    exact core_part_updBlock (g := Core.cmds) ⟨fun _ _ => rfl, fun _ _ => rfl, fun _ _ => rfl⟩ ..
  have hsame : invalidated (p.release c.who .sys) c sc hit asid = removed (p.release c.who .sys) c.who.core sc (namedBy hit asid) :=
    foldl_fixed_of_mem fun core _ => retranslate_eq fun x hx => h core x (hcmds core ▸ hx)
  rw [hsame]
  exact calm_trans (calm_release ..) (calm_of_parts c hoff hparties.warp hparties.front)

end

/-- A word that waits keeps its payment and stays where it is. -/
theorem runs_of_wait {s E : State} {i : Instr} {op : Nat} {g : Guard} {c : Ctx} {k : Ctx → State → Res} {sw : Bool} (h : Ready s i op g c)
    (hexec : exec i s = s.issue i op g k) (hk : k c (paid s c i) = .wait E sw) : Runs i s ((E.keepPaid c (priceOf i)).hold c sw) := by
  unfold Runs
  rw [hexec, issue_ready h, hk]

/-- A word whose effect traps takes its trap. -/
theorem runs_of_trap {s E : State} {i : Instr} {op : Nat} {g : Guard} {c : Ctx} {k : Ctx → State → Res} {x : TrapArgs} (h : Ready s i op g c)
    (hexec : exec i s = s.issue i op g k) (hk : k c (paid s c i) = .trap E x) : Runs i s (E.takeTrap c.who c.pc c.next x) := by
  unfold Runs
  rw [hexec, issue_ready h, hk]
  rfl

theorem mem_keepPaid (s : State) (c : Ctx) (n : Nat) : ((s.keepPaid c n).hold c false).mem = s.mem := by
  unfold State.hold State.keepPaid
  simp only [Bool.false_eq_true, if_false]
  split
  · rfl
  · exact updWarp_mem ..

/-- A word of a TLB invalidation. -/
structure InvalidatesWith (i : Instr) (op : Nat) (g : Guard) (sc : Scope) (asid : Option (BitVec 16)) (hit : State → Ctx → TlbEnt → Bool) : Prop where
  exec : ∀ s, exec i s = s.issue i op g fun c p => p.tlbinv c sc asid (hit p c)
  dst : ∀ k, (i.use k).dst = []
  src : ∀ k, ∀ e ∈ (i.use k).src, e.h = .none

section
variable {i : Instr} {op : Nat} {g : Guard} {sc : Scope} {asid : Option (BitVec 16)} {hit : State → Ctx → TlbEnt → Bool} {s : State} {c : Ctx}
  (hw : InvalidatesWith i op g sc asid hit)
include hw

variable {p : State} (hp : p = paid s c i)
include hp

/-- TLBINV leaves none of what it names in a TLB of its scope (23 R391). -/
theorem tlbinv_removes (h : Issues s i op g c) (hmay : MayInvalidate c asid) (hbusy : inUse p c sc (hit p c) asid = false)
    (hsettled : Settled p c.who .sys) {names : TlbEnt → Prop} (hnames : ∀ t, names t → namedBy (hit p c) asid t = true) :
    ∃ t, Runs i s t ∧ ((∀ core, ∀ x ∈ (p.core core).cmds, ∀ r ∈ x.reqs, r.held = none) → Calm p t c []) ∧ ∀ e ∈ t.mem.tlb, names e →
      (sc = .core → e.cluster = clusterOf c.who.core → c.who.core ∈ e.dropped) ∧ (sc = .die → e.cluster / 14 ≠ dieOf c.who.core) ∧
        (sc = .core ∨ sc = .die) := by
  have hparties : Parties p (invalidated (p.release c.who .sys) c sc (hit p c) asid) := parties_invalidated
  have hg : Gives s c i (invalidated (p.release c.who .sys) c sc (hit p c) asid) :=
    gives_of_done h (hw.exec s) (by rw [← hp]; exact tlbinv_done hmay hbusy hsettled) (by rw [← hp]; exact due_of_warp (hparties.warp _))
  have hland := drop_results_of_flight (hparties.flight c.who)
  subst hp
  refine ⟨_, hg, fun hheld => (goesOn_calm (hw.dst _) (hw.src _) hland (calm_invalidated hheld)).2, fun e he hname => ?_⟩
  rw [goesOn_eq hland, mem_goOn, mem_cacheWord, invalidated, (retranslated_keeps ..).2] at he
  exact tlb_removed hnames he hname

/-- While an access of its scope is under way with such a translation a TLBINV removes none. -/
theorem tlbinv_stands (h : Issues s i op g c) (hmay : MayInvalidate c asid) (hbusy : inUse p c sc (hit p c) asid = true) :
    ∃ t, Runs i s t ∧ t.mem.tlb = p.mem.tlb := by
  subst hp
  refine ⟨_, runs_of_wait h.ready (hw.exec s) (tlbinv_waits hmay hbusy), ?_⟩
  rw [mem_keepPaid]

/-- Outside region 0 a TLBINV of another space is refused. -/
theorem tlbinv_refused (h : Ready s i op g c) (hmay : ¬MayInvalidate c asid) :
    Runs i s (p.takeTrap c.who c.pc c.next (TrapArgs.of .privDeny 0 0 c.exec)) := by
  subst hp
  exact runs_of_trap h (hw.exec s) (tlbinv_traps hmay)

end

theorem invalidates_tlbinv (a : BitVec 8) (g : Guard) (sc : Scope) (asid : BitVec 16) : InvalidatesWith (.tlbinv a g sc asid) 0xB4 g sc (some asid)
    fun p c t => (onesOf c.exec).any fun l => decide (t.base ≤ (p.get64 c a.toNat l).toNat % 2 ^ 57) &&
      decide ((p.get64 c a.toNat l).toNat % 2 ^ 57 < t.base + t.size) :=
  ⟨fun _ => rfl, fun _ => rfl, fun _ => by simp [Instr.use, Use.of, regs]⟩

theorem invalidates_asid (g : Guard) (sc : Scope) (asid : BitVec 16) : InvalidatesWith (.tlbinvAsid g sc asid) 0xB4 g sc (some asid) fun _ _ _ => true :=
  ⟨fun _ => rfl, fun _ => rfl, fun _ => by simp [Instr.use, Use.of]⟩

theorem invalidates_all (g : Guard) (sc : Scope) : InvalidatesWith (.tlbinvAll g sc) 0xB4 g sc none fun _ _ _ => true :=
  ⟨fun _ => rfl, fun _ => rfl, fun _ => by simp [Instr.use, Use.of]⟩

end Sys2Proof.MemWords
end

section
/-! SUPPORT. PROBE (08 R146; 22 R366). -/

namespace Sys2Proof.MemWords

open Sys2Proof Sys2Proof.Machine Sys2Proof.Safety Sys2Proof.Laws Sys2Proof.Stream

theorem due_put64 (s : State) (c : Ctx) (m : BitVec 32) (r : Nat) (v : Nat → DWord) (w : Who) :
    ((s.put64 c m r v).warp w).map (·.due) = (s.warp w).map (·.due) := by
  unfold State.put64
  split
  · exact Frames.due_put ..
  · rw [Frames.due_put, Frames.due_put]

/-- What a PROBE tells of its walks. -/
def probed (p : State) (c : Ctx) (d : BitVec 8) (r : Nat → Walk) : State :=
  (((p.acquire c.who .sys).put64 c c.exec d.toNat fun l => (r l).result.1).put c c.exec (d.toNat + 2)
    fun l => BitVec.ofNat 64 ((r l).result.2.1 + 2 ^ 8 * (r l).result.2.2)).put c c.exec (d.toNat + 3) fun _ => 0

theorem due_probed (p : State) (c : Ctx) (d : BitVec 8) (r : Nat → Walk) :
    ((probed p c d r).warp c.who).map (·.due) = (p.warp c.who).map (·.due) := by
  rw [probed, Frames.due_put, Frames.due_put, due_put64, warp_acquires]

/-- With no store on its way and no walk poisoned, a PROBE completes. -/
theorem probe_done {p : State} {c : Ctx} {d a : BitVec 8} {asid : Nat} (howed : p.owed c.who = []) (hhome : p.storesHome c.who = true)
    (hclean : ∀ l pa, c.exec.getLsbD l = true → p.walk asid (p.get64 c a.toNat l) ≠ .poisoned pa) :
    p.probe c d a asid = .done (probed p c d fun l => p.walk asid (p.get64 c a.toNat l)) .go := by
  have hents : (p.flight c.who).sq.ents.isEmpty = true := by
    unfold State.storesHome at hhome
    exact (Bool.and_eq_true_iff.1 hhome).1
  have hlanes : laneTrap .poison ((onesOf c.exec).filterMap fun l =>
      match p.walk asid (p.get64 c a.toNat l) with | .poisoned pa => some (l, pa) | _ => none) = none := by
    refine laneTrap_none _ fun l hl => ?_
    split
    · exact absurd ‹_› (hclean l _ ((mem_onesOf _ _).1 hl).2)
    · rfl
  unfold State.probe State.logged State.queueDone
  simp only [howed, List.head?_nil, hents, hhome, if_true, Bool.not_true, Bool.false_eq_true, if_false]
  split
  · rename_i x hx
    exact absurd (hlanes.symm.trans hx) (by simp)
  · rfl

end Sys2Proof.MemWords
end

section
/-! SUPPORT. The records of parked warps: WSAVE and WLOAD (23 R395, R396). -/

namespace Sys2Proof.MemWords

open Sys2Proof Sys2Proof.Machine Sys2Proof.Safety Sys2Proof.Laws Sys2Proof.Stream

/-! The target -/

section
variable {p : State} {c : Ctx} {a : BitVec 8} {slot : BitVec 6}

/-- The warp that a record word names. -/
def named (c : Ctx) (slot : BitVec 6) : Who := ⟨c.who.core, .warp slot.toNat⟩

/-- The address of a record. -/
def recordVa (p : State) (c : Ctx) (a : BitVec 8) : DWord := p.get64 c a.toNat (lowest c.exec)

theorem recordTarget_absent (h : p.warp (named c slot) = none ∨ named c slot = c.who) :
    p.recordTarget c a slot = .error (TrapArgs.of .illegal 0 0 c.exec) := by
  unfold State.recordTarget
  dsimp only
  split
  · rfl
  · rename_i w hw
    rcases h with h | h
    · exact absurd (h.symm.trans hw) (by simp)
    · rw [if_pos (by simp [show (⟨c.who.core, .warp slot.toNat⟩ : Who) = c.who from h])]

theorem recordTarget_running {x : Warp} (hx : p.warp (named c slot) = some x) (h : x.park = none ∨ x.away.isSome = true) :
    p.recordTarget c a slot = .error (TrapArgs.of .illegal 0 0 c.exec) := by
  unfold State.recordTarget
  dsimp only
  rw [show p.warp ⟨c.who.core, .warp slot.toNat⟩ = some x from hx]
  dsimp only
  rw [if_pos (by rcases h with h | h <;> simp [h])]

/-- A parked warp of the core that a record word may name. -/
structure Parked (p : State) (c : Ctx) (slot : BitVec 6) (x : Warp) : Prop where
  warp : p.warp (named c slot) = some x
  other : named c slot ≠ c.who
  park : x.park.isSome = true
  away : x.away = none

theorem recordTarget_parked {x : Warp} (h : Parked p c slot x) : p.recordTarget c a slot =
    if (p.blockOf (named c slot)).map (·.dealt.region) ≠ some c.blk.dealt.region then .error (TrapArgs.of .privDeny 0 0 c.exec)
    else if (recordVa p c a).toNat % 128 ≠ 0 then .error (TrapArgs.of .align (recordVa p c a) 0 c.exec)
    else .ok (named c slot, x, recordVa p c a) := by
  obtain ⟨hx, hother, hpark, haway⟩ := h
  have hno : ¬((named c slot == c.who || x.park.isNone || x.away.isSome) = true) := by
    rw [Option.isSome_iff_ne_none] at hpark
    simp [hother, hpark, haway]
  unfold State.recordTarget
  dsimp only
  rw [show p.warp ⟨c.who.core, .warp slot.toNat⟩ = some x from hx]
  dsimp only
  refine (if_neg hno).trans ?_
  simp only [bne_iff_ne]
  rfl

end

/-! The words -/

/-- A word whose first step finds its record's target. -/
def SavesOrLoads (i : Instr) (op : Nat) (g : Guard) (a : BitVec 8) (slot : BitVec 6) : Prop :=
  ∃ k : Ctx → State → Res, (∀ s, exec i s = s.issue i op g k) ∧ ∀ c p t, p.recordTarget c a slot = .error t → k c p = .trap p t

theorem saveWord_traps {p : State} {c : Ctx} {a : BitVec 8} {slot : BitVec 6} {t : TrapArgs} (h : p.recordTarget c a slot = .error t)
    (k : State → Who → Warp → Except TrapArgs (State × List Byte)) : p.saveWord c a slot k = .trap p t := by
  unfold State.saveWord
  rw [h]
theorem loadWord_traps {p : State} {c : Ctx} {a : BitVec 8} {slot : BitVec 6} {t : TrapArgs} (h : p.recordTarget c a slot = .error t)
    (n : Warp → Nat) (k : State → Who → Warp → List Byte → Res) : p.loadWord c a slot n k = .trap p t := by
  unfold State.loadWord
  rw [h]

section
variable (a : BitVec 8) (g : Guard) (slot : BitVec 6)

theorem savesOrLoads_wsave : SavesOrLoads (.wsave a g slot) 0xB6 g a slot := ⟨_, fun _ => rfl, fun _ _ _ h => saveWord_traps h _⟩
theorem savesOrLoads_wsaveFrame : SavesOrLoads (.wsaveFrame a g slot) 0xB6 g a slot := ⟨_, fun _ => rfl, fun _ _ _ h => saveWord_traps h _⟩
theorem savesOrLoads_wload : SavesOrLoads (.wload a g slot) 0xB7 g a slot := ⟨_, fun _ => rfl, fun _ _ _ h => loadWord_traps h _ _⟩
theorem savesOrLoads_wloadFrame : SavesOrLoads (.wloadFrame a g slot) 0xB7 g a slot := ⟨_, fun _ => rfl, fun _ _ _ h => loadWord_traps h _ _⟩

end

theorem record_stops {i : Instr} {op : Nat} {g : Guard} {a : BitVec 8} {slot : BitVec 6} (hw : SavesOrLoads i op g a slot) {s : State} {c : Ctx}
    (h : Ready s i op g c) {t : TrapArgs} (ht : (paid s c i).recordTarget c a slot = .error t) :
    Runs i s ((paid s c i).takeTrap c.who c.pc c.next t) := by
  obtain ⟨k, hexec, hk⟩ := hw
  exact runs_of_trap h (hexec s) (hk c _ t ht)

/-- What stops a word on a record: no parked warp, one of another region, an odd address. -/
theorem record_refusals {i : Instr} {op : Nat} {g : Guard} {a : BitVec 8} {slot : BitVec 6} (hw : SavesOrLoads i op g a slot) {s p : State} {c : Ctx}
    (hp : p = paid s c i) (h : Ready s i op g c) :
    let stops (x : Cause) (at_ : DWord) : Prop := Runs i s (p.takeTrap c.who c.pc c.next (TrapArgs.of x at_ 0 c.exec))
    let alien : Prop := (p.blockOf (named c slot)).map (·.dealt.region) ≠ some c.blk.dealt.region
    (p.warp (named c slot) = none ∨ named c slot = c.who → stops .illegal 0) ∧
    (∀ x, p.warp (named c slot) = some x → x.park = none ∨ x.away.isSome = true → stops .illegal 0) ∧
    (∀ x, p.warp (named c slot) = some x → named c slot ≠ c.who → x.park.isSome = true → x.away = none →
      (alien → stops .privDeny 0) ∧ (¬alien → (recordVa p c a).toNat % 128 ≠ 0 → stops .align (recordVa p c a))) := by
  subst hp
  refine ⟨fun hno => record_stops hw h (recordTarget_absent hno), fun x hx hrun => record_stops hw h (recordTarget_running hx hrun),
    fun x hx hother hpark haway => ⟨fun halien => ?_, fun halien hodd => ?_⟩⟩
  · refine record_stops hw h ?_
    rw [recordTarget_parked ⟨hx, hother, hpark, haway⟩, if_pos halien]
  · refine record_stops hw h ?_
    rw [recordTarget_parked ⟨hx, hother, hpark, haway⟩, if_neg halien, if_pos hodd]

end Sys2Proof.MemWords
end

section
/-! SUPPORT. The state after a record word, and what the words on records give (23 R395, R396). -/

namespace Sys2Proof.MemWords

open Sys2Proof Sys2Proof.Machine Sys2Proof.Safety Sys2Proof.Laws Sys2Proof.Stream

theorem Parties.of_same_cores {s t : State} (h : t.cores = s.cores) : Parties s t := by
  have hcore : ∀ d, t.core d = s.core d := fun d => by rw [State.core, h, State.core]
  exact parties_of_cores (fun d => by rw [hcore]) (fun d => by rw [hcore]) fun d => by rw [hcore]

/-! What a record's bytes move -/

theorem parties_notePaths (s : State) (w : Who) (p : Path) (a : Nat) (bs : List Byte) : Parties s (s.notePaths w p a bs) := .of_same_cores rfl

theorem parties_storeRecord (s : State) (c : Ctx) (va : DWord) (bs : List Byte) (ps : List (DWord × Nat × Leaf)) :
    Parties s (s.storeRecord c va bs ps) :=
  Parties.foldl (f := fun s (p : DWord × Nat × Leaf) => let b := (bs.drop (p.1 - va).toNat).take p.2.1
    (s.notePaths c.who .ls p.2.2.phys b).gaStore c.who.core p.2.2.phys b)
    (fun _ _ => (parties_notePaths ..).trans (parties_gaStore ..)) ps s

theorem cores_fetchRecord (s : State) (c : Ctx) (ps : List (DWord × Nat × Leaf)) : (s.fetchRecord c ps).1.cores = s.cores :=
  foldl_keeps State.cores (f := fun r (p : DWord × Nat × Leaf) => s.seeHere c.who .ls true (fun _ => true) p.2.2.phys p.2.1 r) (fun _ _ => rfl) ps s

theorem parties_fetchRecord (s : State) (c : Ctx) (ps : List (DWord × Nat × Leaf)) : Parties s (s.fetchRecord c ps).1 :=
  .of_same_cores (cores_fetchRecord s c ps)

theorem core_fetchRecord (s : State) (c : Ctx) (ps : List (DWord × Nat × Leaf)) (d : Nat) : (s.fetchRecord c ps).1.core d = s.core d := by
  rw [State.core, cores_fetchRecord, State.core]

/-! A record placed -/

theorem coreOnly_setLog (s : State) (core ix : Nat) (e : Option LogEnt) : CoreOnly s (s.setLog core ix e) := by
  refine coreOnly_updCore ?_ ?_ ?_ s core <;> exact fun _ => rfl

theorem updFlight_of_isWarp {w : Who} (hw : IsWarp w) (s : State) (f : Flight → Flight) :
    s.updFlight w f = s.updWarp w fun x => { x with flight := f x.flight } := by
  unfold State.updFlight
  rcases hw with h | ⟨n, h⟩ <;> simp only [h]

/-- One log entry of a record placed. -/
def placeLog (t : Who) (p : State × List Nat) (e : LogEnt) : State × List Nat :=
  if (p.1.freeLogs t.core).isEmpty then p
  else
    let ix := p.1.newLog t.core
    let s := p.1.setLog t.core ix (some e)
    (if sbOf e.op.ins = 0 then s.updFlight t fun f => { f with waitLog := some ix } else s, p.2 ++ [ix])

theorem warp_placeLog_other {t : Who} (ht : IsWarp t) {v : Who} (h : v ≠ t) (p : State × List Nat) (e : LogEnt) :
    (placeLog t p e).1.warp v = p.1.warp v := by
  have hset (ix : Nat) : (p.1.setLog t.core ix (some e)).warp v = p.1.warp v := (coreOnly_setLog ..).warp v
  unfold placeLog
  split
  · rfl
  · dsimp only
    split
    · rw [updFlight_of_isWarp ht, warp_updWarp_other h, hset]
    · exact hset _

theorem warp_placeLogs_other {t : Who} (ht : IsWarp t) {v : Who} (h : v ≠ t) (s : State) (logs : List LogEnt) :
    (s.placeLogs t logs).1.warp v = s.warp v :=
  foldl_keeps (fun p : State × List Nat => p.1.warp v) (warp_placeLog_other ht h) logs (s, [])

theorem warp_placeRecord_other {t : Who} (ht : IsWarp t) {v : Who} (h : v ≠ t) (s : State) (w : Warp) (bs : List Byte) (logs : List LogEnt) :
    (s.placeRecord t w bs logs).warp v = s.warp v := by
  unfold State.placeRecord
  dsimp only
  rw [warp_updWarp_other h, warp_placeLogs_other ht h, Launch.warp_setWarp_other _ _ h,
    foldl_keeps (fun s : State => s.warp v) (fun s ix => (coreOnly_setLog s t.core ix none).warp v)]

/-! The words -/

/-- A word on the record of a parked warp that can do its work: the target has nothing on its way, nor does the party; the target is of
its region and the address of a line. -/
structure Reaches (s : State) (c : Ctx) (i : Instr) (op : Nat) (g : Guard) (a : BitVec 8) (slot : BitVec 6) (x : Warp) : Prop where
  issues : Issues s i op g c
  parked : Parked (paid s c i) c slot x
  landed : x.flight.results = []
  queue : ((paid s c i).flight c.who).sq.ents = []
  home : ((paid s c i).blockOf (named c slot)).map (·.dealt.region) = some c.blk.dealt.region
  line : (recordVa (paid s c i) c a).toNat % 128 = 0

section
variable {s : State} {c : Ctx} {i : Instr} {op : Nat} {g : Guard} {a : BitVec 8} {slot : BitVec 6} {x : Warp} (h : Reaches s c i op g a slot x)
include h

theorem Reaches.other : c.who ≠ named c slot := fun e => h.parked.other e.symm

theorem Reaches.target : (paid s c i).recordTarget c a slot = .ok (named c slot, x, recordVa (paid s c i) c a) := by
  rw [recordTarget_parked h.parked, if_neg (not_not.2 h.home), if_neg (not_not.2 h.line)]

theorem Reaches.drained : ((paid s c i).flight (named c slot)).results = [] := by
  rw [Frames.flight_of_isWarp (.inr ⟨_, rfl⟩), h.parked.warp]
  exact h.landed

theorem Reaches.queueDone (k : State → Res) : (paid s c i).queueDone c k = k (paid s c i) := by
  rw [State.queueDone, h.queue]
  rfl

/-- A word that saves: k makes its bytes of the target. -/
theorem Reaches.saves {k : Ctx → State → Who → Warp → Except TrapArgs (State × List Byte)} {p s' : State} {bs : List Byte}
    {ps : List (DWord × Nat × Leaf)} (hp : p = paid s c i) (hexec : exec i s = s.issue i op g fun c p => p.saveWord c a slot (k c))
    (hk : k c p (named c slot) x = .ok (s', bs)) (hps : p.recordPieces c .store (recordVa p c a) bs.length = .ok ps)
    (hwarp : s'.warp c.who = p.warp c.who) : Gives s c i (s'.storeRecord c (recordVa p c a) bs ps) := by
  subst hp
  refine gives_of_done h.issues hexec (?_ : State.saveWord _ c a slot (k c) = _) (by rw [(parties_storeRecord ..).warp, hwarp])
  unfold State.saveWord
  simp only [h.target, h.drained, List.isEmpty_nil, Bool.not_true, Bool.false_eq_true, if_false, h.queueDone, hk, hps]

/-- A word that loads: k places the bytes of n bytes of memory in the target. -/
theorem Reaches.loads {n : Warp → Nat} {k : Ctx → State → Who → Warp → List Byte → Res} {p E : State} {ps : List (DWord × Nat × Leaf)}
    (hp : p = paid s c i) (hexec : exec i s = s.issue i op g fun c p => p.loadWord c a slot n (k c))
    (hps : p.recordPieces c .load (recordVa p c a) (n x) = .ok ps)
    (hhere : (ps.any fun e => p.heldAt (dieOf c.who.core) e.2.2.phys e.2.1) = false)
    (hk : k c (p.fetchRecord c ps).1 (named c slot) x (p.fetchRecord c ps).2 = .done E .go)
    (hwarp : E.warp c.who = (p.fetchRecord c ps).1.warp c.who) : Gives s c i E := by
  subst hp
  refine gives_of_done h.issues hexec (?_ : State.loadWord _ c a slot n (k c) = _) (by rw [hwarp, (parties_fetchRecord ..).warp])
  unfold State.loadWord
  simp only [h.target, h.drained, List.isEmpty_nil, Bool.not_true, Bool.false_eq_true, if_false, h.queueDone, hps, hhere]
  exact hk

end

/-- The log entries in a record. -/
def recordLogs (q : State) (c : Ctx) (w : Who) (bs : List Byte) : List LogEnt :=
  (List.range 16).filterMap fun k => q.logOfBytes w c.blk.dealt.asid ((bs.drop (0xE00 + 800 * k)).take 800)

/-- A record read for its target. -/
def placing (c : Ctx) (q : State) (w : Who) (x : Warp) (bs : List Byte) : Res :=
  if recordBad x.frame bs then .trap q (TrapArgs.of .illegal 0 0 c.exec)
  else if (freeSlots (q.core w.core).log 16).length + (q.logOf w).length < (recordLogs q c w bs).length then .wait q false
  else .done (q.placeRecord w x bs (recordLogs q c w bs)) .go

theorem exec_wload (a : BitVec 8) (g : Guard) (slot : BitVec 6) (s : State) : exec (.wload a g slot) s =
    s.issue (.wload a g slot) 0xB7 g fun c p => p.loadWord c a slot (fun _ => 16384) (placing c) := rfl

theorem placing_done {c : Ctx} {p q : State} {w : Who} {x : Warp} {bs : List Byte} (hgood : recordBad x.frame bs = false)
    (hcores : q.core w.core = p.core w.core)
    (hroom : (recordLogs q c w bs).length ≤ (freeSlots (p.core w.core).log 16).length + (p.logOf w).length) :
    placing c q w x bs = .done (q.placeRecord w x bs (recordLogs q c w bs)) .go := by
  have hfits : ¬((freeSlots (q.core w.core).log 16).length + (q.logOf w).length < (recordLogs q c w bs).length) := by
    rw [State.logOf, hcores]
    exact Nat.not_lt.2 hroom
  rw [placing, if_neg (by rw [hgood]; exact Bool.false_ne_true), if_neg hfits]

section
variable {s p : State} {c : Ctx} {g : Guard} {a : BitVec 8} {slot : BitVec 6} {x : Warp} {ps : List (DWord × Nat × Leaf)}

theorem wsave_gives (hp : p = paid s c (.wsave a g slot)) (h : Reaches s c (.wsave a g slot) 0xB6 g a slot x)
    (hps : p.recordPieces c .store (recordVa p c a) (p.recordOf (named c slot) x).length = .ok ps) :
    Gives s c (.wsave a g slot) (p.storeRecord c (recordVa p c a) (p.recordOf (named c slot) x) ps) :=
  h.saves (k := fun _ p t w => .ok (p, p.recordOf t w)) hp rfl rfl hps rfl

theorem wsaveFrame_gives (hp : p = paid s c (.wsaveFrame a g slot)) (h : Reaches s c (.wsaveFrame a g slot) 0xB6 g a slot x)
    (hbad : x.writeBack.bad = []) (hhdr : x.hdrBad = []) (hps : p.recordPieces c .store (recordVa p c a) (p.image x).length = .ok ps) :
    Gives s c (.wsaveFrame a g slot) ((p.updWarp (named c slot) Warp.writeBack).storeRecord c (recordVa p c a) (p.image x) ps) :=
  h.saves (k := fun c p t w => if !(w.writeBack.bad.isEmpty && w.hdrBad.isEmpty) then .error (TrapArgs.of .poison 0 0 c.exec)
    else .ok (p.updWarp t Warp.writeBack, p.image w)) hp rfl (if_neg (by simp [hbad, hhdr])) hps (warp_updWarp_other h.other ..)

theorem wload_gives (hp : p = paid s c (.wload a g slot)) (h : Reaches s c (.wload a g slot) 0xB7 g a slot x)
    (hps : p.recordPieces c .load (recordVa p c a) 16384 = .ok ps)
    (hhere : (ps.any fun e => p.heldAt (dieOf c.who.core) e.2.2.phys e.2.1) = false)
    (hgood : recordBad x.frame (p.fetchRecord c ps).2 = false)
    (hroom : (recordLogs (p.fetchRecord c ps).1 c (named c slot) (p.fetchRecord c ps).2).length ≤
      (freeSlots (p.core (named c slot).core).log 16).length + (p.logOf (named c slot)).length) :
    Gives s c (.wload a g slot) ((p.fetchRecord c ps).1.placeRecord (named c slot) x (p.fetchRecord c ps).2
      (recordLogs (p.fetchRecord c ps).1 c (named c slot) (p.fetchRecord c ps).2)) :=
  h.loads hp (exec_wload ..) hps hhere (placing_done hgood (core_fetchRecord ..) hroom) (warp_placeRecord_other (.inr ⟨_, rfl⟩) h.other ..)

theorem wloadFrame_gives (hp : p = paid s c (.wloadFrame a g slot)) (h : Reaches s c (.wloadFrame a g slot) 0xB7 g a slot x)
    (hps : p.recordPieces c .load (recordVa p c a) (128 * x.frame + 2048) = .ok ps)
    (hhere : (ps.any fun e => p.heldAt (dieOf c.who.core) e.2.2.phys e.2.1) = false) (hgood : imageBad x (p.fetchRecord c ps).2 = false) :
    Gives s c (.wloadFrame a g slot) ((p.fetchRecord c ps).1.updWarp (named c slot) fun y => y.loadImage (p.fetchRecord c ps).2) :=
  h.loads (n := fun w => 128 * w.frame + 2048)
    (k := fun c q t w bs => if imageBad w bs then .trap q (TrapArgs.of .illegal 0 0 c.exec) else .done (q.updWarp t fun y => y.loadImage bs) .go)
    hp rfl hps hhere (if_neg (by rw [hgood]; exact Bool.false_ne_true)) (warp_updWarp_other h.other ..)

end

/-! What a record may not hold -/

/-- A field of a record. -/
def fieldOf (bs : List Byte) (a k : Nat) : Nat := natOf ((bs.drop a).take k)

/-- A slice of a record is bad. -/
def sliceBad (bs : List Byte) (k : Nat) : Bool :=
  fieldOf bs (0x83 + 8 * k) 5 != 0 || fieldOf bs (0x81 + 8 * k) 1 > 64 || fieldOf bs (0x82 + 8 * k) 1 > 20 ||
    (List.range (min 4 (fieldOf bs (0x82 + 8 * k) 1))).any fun i => decide ((Split.ofBytes ((bs.drop (0xC0 + 64 * k + 16 * i)).take 16)).depth > 64)

theorem recordBad_of_slice {f : Nat} {bs : List Byte} {k : Nat} (hk : k < 8) (h : sliceBad bs k = true) : recordBad f bs = true :=
  Bool.or_eq_true_iff.2 (.inr (List.any_eq_true.2 ⟨k, List.mem_range.2 hk, h⟩))

theorem recordBad_of (f : Nat) (bs : List Byte) {k i : Nat} (hk : k < 8) (hi : i < 4)
    (h : fieldOf bs 0 8 ≠ f ∨ fieldOf bs 0x588 1144 ≠ 0 ∨ 64 < fieldOf bs (0x81 + 8 * k) 1 ∨ 20 < fieldOf bs (0x82 + 8 * k) 1 ∨
      (i < fieldOf bs (0x82 + 8 * k) 1 ∧ 64 < (Split.ofBytes ((bs.drop (0xC0 + 64 * k + 16 * i)).take 16)).depth) ∨
      (fieldOf bs 0x20 1 ≠ 0 ∧ 64 < fieldOf bs 0x22 1)) : recordBad f bs = true := by
  rcases h with hframe | hreserved | hdepth | hstack | ⟨hin, hsplit⟩ | ⟨hreturn, hdepth⟩
  · simp only [fieldOf, List.drop_zero] at hframe
    simp [recordBad, hframe]
  · simp [recordBad, show natOf ((bs.drop 0x588).take 1144) ≠ 0 from hreserved]
  · exact recordBad_of_slice hk (by simp [sliceBad, hdepth])
  · exact recordBad_of_slice hk (by simp [sliceBad, hstack])
  · refine recordBad_of_slice hk (Bool.or_eq_true_iff.2 (.inr (List.any_eq_true.2 ⟨i, List.mem_range.2 ?_, decide_eq_true hsplit⟩)))
    exact Nat.lt_min.2 ⟨hi, hin⟩
  · simp [recordBad, show natOf ((bs.drop 0x20).take 1) ≠ 0 from hreturn, show 64 < natOf ((bs.drop 0x22).take 1) from hdepth]

end Sys2Proof.MemWords
end

section
/-! TLBINV, PROBE, WSAVE and WLOAD at handler level (08 R146; 22 R366, R367; 23 R391, R395, R396). -/

namespace Sys2Proof.MemWords

open Sys2Proof Sys2Proof.Machine Sys2Proof.Safety Sys2Proof.Laws Sys2Proof.Stream

/-- A PROBE of the block's space, or of one that it names. -/
def probeWord (d a : BitVec 8) (g : Guard) : Option (BitVec 16) → Instr
  | some n => .probeAs d a g n
  | none => .probe d a g

/-- The space that a PROBE walks. -/
def probeSpace (c : Ctx) (asid : Option (BitVec 16)) : Nat := (asid.map BitVec.toNat).getD c.blk.dealt.asid

theorem exec_probeWord (d a : BitVec 8) (g : Guard) (asid : Option (BitVec 16)) (s : State) :
    exec (probeWord d a g asid) s = s.issue (probeWord d a g asid) 0xB5 g fun c p => p.probe c d a (probeSpace c asid) := by
  cases asid <;> rfl

/-- PROBE reports its walks (22 R366, R367). -/
theorem probe_gives {s p : State} {c : Ctx} {d a : BitVec 8} {g : Guard} {asid : Option (BitVec 16)} (hp : p = paid s c (probeWord d a g asid))
    (h : Issues s (probeWord d a g asid) 0xB5 g c) (howed : p.owed c.who = []) (hhome : p.storesHome c.who = true)
    (hclean : ∀ l pa, c.exec.getLsbD l = true → p.walk (probeSpace c asid) (p.get64 c a.toNat l) ≠ .poisoned pa) :
    Gives s c (probeWord d a g asid) (probed p c d fun l => p.walk (probeSpace c asid) (p.get64 c a.toNat l)) := by
  subst hp
  exact gives_of_done h (exec_probeWord d a g asid s) (probe_done howed hhome hclean) (due_probed ..)

/-- The words on records, with their opcodes. -/
theorem savesOrLoads_of {a : BitVec 8} {g : Guard} {slot : BitVec 6} {i : Instr}
    (hi : i = .wsave a g slot ∨ i = .wsaveFrame a g slot ∨ i = .wload a g slot ∨ i = .wloadFrame a g slot) :
    SavesOrLoads i (if i = .wsave a g slot ∨ i = .wsaveFrame a g slot then 0xB6 else 0xB7) g a slot := by
  rcases hi with rfl | rfl | rfl | rfl
  · rw [if_pos (.inl rfl)]
    exact savesOrLoads_wsave a g slot
  · rw [if_pos (.inr rfl)]
    exact savesOrLoads_wsaveFrame a g slot
  · rw [if_neg (by simp only [reduceCtorEq, or_self, not_false_eq_true])]
    exact savesOrLoads_wload a g slot
  · rw [if_neg (by simp only [reduceCtorEq, or_self, not_false_eq_true])]
    exact savesOrLoads_wloadFrame a g slot

/-- A word that names translations names them by space too. -/
theorem named_of_space {hit : TlbEnt → Bool} {asid : BitVec 16} {e : TlbEnt} (hhit : hit e = true) (hspace : e.asid = asid.toNat) :
    namedBy hit (some asid) e = true := by
  simp [namedBy, spaceOf, hhit, hspace]

theorem mayInvalidate_some {c : Ctx} {asid : BitVec 16} :
    MayInvalidate c (some asid) ↔ c.blk.dealt.region = 0 ∨ asid.toNat = c.blk.dealt.asid := by
  simp [MayInvalidate, ownSpace]

theorem mayInvalidate_none {c : Ctx} : MayInvalidate c none ↔ c.blk.dealt.region = 0 := by simp [MayInvalidate, ownSpace]

/-- Settles O56: a TLBINV filters the TLBs of its scope, a PROBE writes its walk's result, and a word on a record first finds a parked warp
of its region, then moves its bytes. -/
theorem handlerWords : Obligations.HandlerWords := by
  unfold Obligations.HandlerWords
  intro gone under stands may deny
  refine ⟨?tlbinv, ?tlbinvAsid, ?tlbinvAll, ?probe, ?refusals, ?records, fun f bs k i hk hi h => recordBad_of f bs hk hi h⟩
  case tlbinv =>
    intro a g sc asid s c i p names busy
    have hw := invalidates_tlbinv a g sc asid
    refine ⟨fun h hmay hbusy hsettled => tlbinv_removes hw rfl h (mayInvalidate_some.2 hmay) hbusy hsettled ?_,
      fun h hmay hbusy => tlbinv_stands hw rfl h (mayInvalidate_some.2 hmay) hbusy,
      fun h hmay => tlbinv_refused hw rfl h (mt mayInvalidate_some.1 hmay)⟩
    rintro e ⟨hspace, l, hl, hlow, hhigh⟩
    refine named_of_space (List.any_eq_true.2 ⟨l, (mem_onesOf _ _).2 ⟨?_, hl⟩, ?_⟩) hspace
    · exact BitVec.lt_of_getLsbD hl
    · exact Bool.and_eq_true_iff.2 ⟨decide_eq_true hlow, decide_eq_true hhigh⟩
  case tlbinvAsid =>
    intro g sc asid s c i p busy
    have hw := invalidates_asid g sc asid
    exact ⟨fun h hmay hbusy hsettled => tlbinv_removes hw rfl h (mayInvalidate_some.2 hmay) hbusy hsettled fun e he => named_of_space rfl he,
      fun h hmay hbusy => tlbinv_stands hw rfl h (mayInvalidate_some.2 hmay) hbusy,
      fun h hmay => tlbinv_refused hw rfl h (mt mayInvalidate_some.1 hmay)⟩
  case tlbinvAll =>
    intro g sc s c i p busy
    have hw := invalidates_all g sc
    exact ⟨fun h hmay hbusy hsettled => tlbinv_removes hw rfl h (mayInvalidate_none.2 hmay) hbusy hsettled fun e _ => rfl,
      fun h hmay hbusy => tlbinv_stands hw rfl h (mayInvalidate_none.2 hmay) hbusy,
      fun h hmay => tlbinv_refused hw rfl h (mt mayInvalidate_none.1 hmay)⟩
  case probe =>
    intro d a g asid s c i p walk tells h howed hhome hclean
    have htells : tells = fun l => (walk l).result := funext fun l => by
      simp only [tells]
      cases walk l <;> rfl
    have hi : i = probeWord d a g asid := by cases asid <;> rfl
    rw [htells]
    clear_value i
    subst hi
    exact probe_gives rfl h howed hhome hclean
  case refusals =>
    intro a g slot s c i hi op p w va stops alien h
    exact record_refusals (savesOrLoads_of hi) rfl h
  case records =>
    intro a g slot s c x w target va here
    have hreach {i : Instr} {op : Nat} (h : target i op) (hg : Issues s i op g c) : Reaches s c i op g a slot x := by
      obtain ⟨-, hx, hother, hpark, haway, hlanded, hqueue, hhome, hline⟩ := h
      exact ⟨hg, ⟨hx, hother, hpark, haway⟩, hlanded, hqueue, hhome, hline⟩
    refine ⟨?_, ?_, ?_, ?_⟩
    · exact fun ps h hps => wsave_gives rfl (hreach h h.1) hps
    · exact fun ps h hbad hhdr hps => wsaveFrame_gives rfl (hreach h h.1) hbad hhdr hps
    · exact fun ps h hps hhere hgood hroom => wload_gives rfl (hreach h h.1) hps hhere hgood hroom
    · exact fun ps h hps hhere hgood => wloadFrame_gives rfl (hreach h h.1) hps hhere hgood

end Sys2Proof.MemWords
end

section
/-! SUPPORT. A command joins its core's list (08 R144, R145, R149). -/

namespace Sys2Proof.MemWords

open Sys2Proof Sys2Proof.Machine Sys2Proof.Safety Sys2Proof.Laws Sys2Proof.Stream

/-! What a command that joins leaves of the warps -/

theorem warp_setRing (s : State) (core slot id : Nat) (r : Ring) (w : Who) : (s.setRing core slot id r).warp w = s.warp w := warp_updBlock ..

theorem warp_dropCmd (s : State) (core seq : Nat) (w : Who) : (s.dropCmd core seq).warp w = s.warp w := by
  refine CoreOnly.warp (coreOnly_updCore ?_ ?_ ?_ s core) w <;> exact fun _ => rfl

theorem warp_locks (s : State) (core : Nat) (f : List Lock → List Lock) (w : Who) :
    (s.updCore core fun k => { k with locks := f k.locks }).warp w = s.warp w := by
  refine CoreOnly.warp (coreOnly_updCore ?_ ?_ ?_ s core) w <;> exact fun _ => rfl

theorem warp_takeRingSlot (s : State) (core : Nat) (x : Cmd) (w : Who) : (s.takeRingSlot core x).warp w = s.warp w := by
  unfold State.takeRingSlot
  split
  · rfl
  split
  · rfl
  extract_lets new q
  have hlocked : q.warp w = s.warp w := warp_locks s core (· ++ new) w
  split
  · exact warp_dropCmd ..
  split
  · rfl
  dsimp only
  split
  · rw [warp_setRing, hlocked]
  · rw [warp_locks, warp_acquires, (parties_updCmd ..).warp, warp_setRing, hlocked]

theorem warp_recordAt (s : State) (c : Ctx) (a n : Nat) (w : Who) : (s.recordAt c a n).1.warp w = s.warp w := warp_updBlock ..

/-! Joining -/

/-- The command in its core's list with its locks, in issue order. -/
def joined (p : State) (c : Ctx) (x : Cmd) (locks : List Lock) : State :=
  ({ p with seq := p.seq + 1 } : State).updCore (p.bcore c) fun k => { k with
    cmds := k.cmds ++ [{ x with seq := p.seq }], locks := k.locks ++ locks.map fun l => { l with owner := some p.seq } }

/-- The state after a command's issue: in ring mode it has tried for its slot. -/
def queued (p : State) (c : Ctx) (x : Cmd) (locks : List Lock) : State :=
  (joined p c x locks).takeRingSlot (p.bcore c) { x with seq := p.seq }

theorem issueCmd_done {p : State} {c : Ctx} {locks : List Lock} (hroom : (p.core (p.bcore c)).locks.length + locks.length ≤ 32) (x : Cmd) (f : Fin) :
    p.issueCmd c x locks f = .done (queued p c x locks) f :=
  if_neg (by simp [State.lockRoom, hroom])

theorem warp_queued (p : State) (c : Ctx) (x : Cmd) (locks : List Lock) (w : Who) : (queued p c x locks).warp w = p.warp w := by
  rw [queued, warp_takeRingSlot]
  refine CoreOnly.warp (coreOnly_updCore ?_ ?_ ?_ ({ p with seq := p.seq + 1 } : State) (p.bcore c)) w <;> exact fun _ => rfl

theorem atHome_of {p : State} {c : Ctx} (h : p.migrated c.who = false) (k : State → Res) : p.atHome c k = k p :=
  if_neg (by rw [h]; exact Bool.false_ne_true)

/-- A word whose checks pass has its command join. -/
theorem joins_of {s p : State} {c : Ctx} {i : Instr} {op : Nat} {g : Guard} {k : Ctx → State → Res} {x : Cmd} {locks : List Lock} {f : Fin}
    (h : Issues s i op g c) (hexec : exec i s = s.issue i op g fun c p => p.atHome c (k c)) (hhome : (paid s c i).migrated c.who = false)
    (hk : k c (paid s c i) = p.issueCmd c x locks f) (hwarp : p.warp c.who = (paid s c i).warp c.who)
    (hroom : (p.core (p.bcore c)).locks.length + locks.length ≤ 32) : Gives s c i (queued p c x locks) f :=
  gives_of_done h hexec ((atHome_of hhome _).trans (hk.trans (issueCmd_done hroom x f))) (by rw [warp_queued, hwarp])

/-! The checks of CPY, GTH and SCT -/

/-- The size of the scratch of the block of a word. -/
def scrSize (p : State) (c : Ctx) : Nat := (p.scratch (p.bcore c) (p.bslot c)).size

/-- The bytes of a record lie in scratch, and none is poisoned. -/
def Sound (p : State) (c : Ctx) (a n : Nat) : Prop := a + n ≤ scrSize p c ∧ (p.scratch (p.bcore c) (p.bslot c)).badAt a n = none

section
variable (p : State) (c : Ctx) (o : CmdF) (kind : CmdKind) (toScratch : Bool)

/-- The tile record of a word of rows. -/
def tileOf : BitVec 256 := BitVec.ofNat 256 (p.recordAt c (p.quadReg c o.a 3) 32).2

/-- The bytes from row to row in scratch. -/
def strideOf : Nat := if kind == .cpy then fld 128 32 (tileOf p c o) else fld 0 32 (tileOf p c o)

/-- A word of rows: the command with its fields but its index list. -/
def tileCmd : Cmd := { Cmd.blank c.who c.pc (p.bslot c) kind (p.quadBase c o.a) (p.quadReg c o.a 2) with
  toScratch := toScratch
  gstride := ((tileOf p c o).extractLsb' 64 64).toInt
  sstride := strideOf p c o kind
  rowb := fld 0 32 (tileOf p c o)
  rows := fld 32 16 (tileOf p c o)
  swz := swzCode o.swz
  ga := o.ga
  byp := o.pol == .byp
  bcb := if o.ring then none else some (128 * o.id.toNat)
  tileRec := some (p.quadReg c o.a 3)
  ring := if o.ring then some o.id.toNat else none }

/-- A word of rows: its command, with its index list read. -/
def copyCmd : Cmd := { tileCmd p c o kind toScratch with
  idx := if kind == .cpy then [] else (List.range (fld 32 16 (tileOf p c o))).map fun k => (p.recordAt c (fld 160 32 (tileOf p c o) + 4 * k) 4).2
  idxOff := fld 160 32 (tileOf p c o) }

/-- The state once a word of rows has read its tile record and its index list. -/
def tileRead : State :=
  if kind == .cpy then (p.recordAt c (p.quadReg c o.a 3) 32).1
  else ((p.recordAt c (p.quadReg c o.a 3) 32).1.recordAt c (fld 160 32 (tileOf p c o)) (4 * fld 32 16 (tileOf p c o))).1

/-- A word of rows names no command. -/
def noCommand : Bool := (o.ga && toScratch) || (if o.ring then decide (o.id.toNat > 255) else decide (128 * o.id.toNat + 32 > scrSize p c))

/-- What a ring that takes no command has a word do. -/
def ringStop : Option Res :=
  if !o.ring then none else match p.ring (p.bcore c) (p.bslot c) o.id.toNat with
    | none => some (trapAux p c .ringErr 0 o.id.toNat)
    | some r => r.err.map fun e => .trap p (TrapArgs.reported ((Cause.ofCode e.1).getD .ringErr) e.2 c.active)

/-- A tile record that no command can have. -/
def tileBad : Bool :=
  let t := tileOf p c o
  let rowb := fld 0 32 t
  let rows := fld 32 16 t
  let stride := strideOf p c o kind
  let soff := p.quadReg c o.a 2
  fld 48 16 t != 0 || fld 192 64 t != 0 || rowb < 1 || rowb > 65536 || rows < 1 || rows > 4096 || rows * rowb > 2 ^ 20 ||
    (kind == .cpy && decide (stride < rowb)) || (!o.ring && decide (soff + ((rows - 1) * stride + rowb) > scrSize p c)) ||
    (!(kind == .cpy) && decide (fld 160 32 t + 4 * rows > scrSize p c)) ||
    (o.swz != .none && (rowb % 128 != 0 || soff % 128 != 0 || stride % 128 != 0))

/-- The rows do not fit a ring's slot. -/
def slotSmall : Bool := o.ring && (p.ring (p.bcore c) (p.bslot c) o.id.toNat).any fun r =>
  decide (fld 32 16 (tileOf p c o) * strideOf p c o kind + p.quadReg c o.a 2 > r.size)

/-- The lowest poisoned byte of an index list. -/
def indexBad : Option Nat :=
  if kind == .cpy then none else (p.scratch (p.bcore c) (p.bslot c)).badAt (fld 160 32 (tileOf p c o)) (4 * fld 32 16 (tileOf p c o))

theorem copyWord_eq : p.copyWord c o kind toScratch = p.atHome c fun p =>
    if noCommand p c o toScratch then trapAux p c .illegal 0 0
    else if p.quadReg c o.a 3 % 32 != 0 then trapAux p c .align (p.quadReg c o.a 3) 0
    else if p.quadReg c o.a 3 + 32 > scrSize p c then trapAux p c .notPresent (p.quadReg c o.a 3) 0
    else match (p.scratch (p.bcore c) (p.bslot c)).badAt (p.quadReg c o.a 3) 32 with
    | some a => (ringStop p c o).getD (p.refuseAtIssue c (tileCmd p c o kind toScratch) a .go)
    | none =>
      if tileBad p c o kind then trapAux p c .illegal 0 0
      else if !(kind == .cpy) && fld 160 32 (tileOf p c o) % 4 != 0 then trapAux p c .align (fld 160 32 (tileOf p c o)) 0
      else match ringStop p c o, indexBad p c o kind with
        | some r, _ => r
        | none, bad =>
          if slotSmall p c o kind then trapAux p c .ringErr 0 o.id.toNat
          else match bad with
          | some a => p.refuseAtIssue c (tileCmd p c o kind toScratch) a .go
          | none => (tileRead p c o kind).issueCmd c { copyCmd p c o kind toScratch with reqs := (copyCmd p c o kind toScratch).rowReqs }
              ((copyCmd p c o kind toScratch).locks c.blk.dealt.asid) .go := rfl

/-- A tile record that a command can have (08 R144, R145; 23 R380). -/
structure TileFits : Prop where
  reserved : fld 48 16 (tileOf p c o) = 0
  reservedEnd : fld 192 64 (tileOf p c o) = 0
  bytes : 1 ≤ fld 0 32 (tileOf p c o)
  bytes_le : fld 0 32 (tileOf p c o) ≤ 65536
  rows : 1 ≤ fld 32 16 (tileOf p c o)
  rows_le : fld 32 16 (tileOf p c o) ≤ 4096
  total : fld 32 16 (tileOf p c o) * fld 0 32 (tileOf p c o) ≤ 2 ^ 20
  stride : (kind == .cpy) = true → fld 0 32 (tileOf p c o) ≤ strideOf p c o kind
  span : o.ring = false →
    p.quadReg c o.a 2 + ((fld 32 16 (tileOf p c o) - 1) * strideOf p c o kind + fld 0 32 (tileOf p c o)) ≤ scrSize p c
  list : (kind == .cpy) = false → fld 160 32 (tileOf p c o) + 4 * fld 32 16 (tileOf p c o) ≤ scrSize p c
  swizzle : o.swz ≠ .none →
    fld 0 32 (tileOf p c o) % 128 = 0 ∧ p.quadReg c o.a 2 % 128 = 0 ∧ strideOf p c o kind % 128 = 0

/-- The checks of a word of rows all pass (08 R144, R145; 23 R380). -/
structure CopyFits : Prop where
  command : noCommand p c o toScratch = false
  aligned : p.quadReg c o.a 3 % 32 = 0
  record : Sound p c (p.quadReg c o.a 3) 32
  tile : tileBad p c o kind = false
  index : (kind == .cpy) = false → fld 160 32 (tileOf p c o) % 4 = 0
  ring : ringStop p c o = none
  listed : indexBad p c o kind = none
  slot : slotSmall p c o kind = false

end

section
variable {p : State} {c : Ctx} {o : CmdF} {kind : CmdKind} {toScratch : Bool}

theorem tileBad_of (h : TileFits p c o kind) : tileBad p c o kind = false := by
  have hstride : ((kind == .cpy) && decide (strideOf p c o kind < fld 0 32 (tileOf p c o))) = false := by
    rw [Bool.and_eq_false_imp]
    exact fun hc => decide_eq_false (Nat.not_lt.2 (h.stride hc))
  have hspan : (!o.ring && decide (p.quadReg c o.a 2 + ((fld 32 16 (tileOf p c o) - 1) * strideOf p c o kind + fld 0 32 (tileOf p c o)) >
      scrSize p c)) = false := by
    rw [Bool.and_eq_false_imp]
    exact fun hr => decide_eq_false (Nat.not_lt.2 (h.span (Bool.not_eq_true' _ ▸ hr)))
  have hlist : (!(kind == .cpy) && decide (fld 160 32 (tileOf p c o) + 4 * fld 32 16 (tileOf p c o) > scrSize p c)) = false := by
    rw [Bool.and_eq_false_imp]
    exact fun hc => decide_eq_false (Nat.not_lt.2 (h.list (Bool.not_eq_true' _ ▸ hc)))
  have hswz : (o.swz != .none && (fld 0 32 (tileOf p c o) % 128 != 0 || p.quadReg c o.a 2 % 128 != 0 || strideOf p c o kind % 128 != 0)) =
      false := by
    rw [Bool.and_eq_false_imp]
    intro hs
    obtain ⟨hrow, hoff, hstep⟩ := h.swizzle (bne_iff_ne.1 hs)
    rw [hrow, hoff, hstep]
    rfl
  unfold tileBad
  dsimp only
  rw [hstride, hspan, hlist, hswz]
  simp only [h.reserved, h.reservedEnd, bne_self_eq_false, Bool.false_or, Bool.or_false, Bool.or_eq_false_iff, decide_eq_false_iff_not, not_lt]
  exact ⟨⟨⟨⟨h.bytes, h.bytes_le⟩, h.rows⟩, h.rows_le⟩, h.total⟩

theorem warp_tileRead (w : Who) : (tileRead p c o kind).warp w = p.warp w := by
  unfold tileRead
  split
  · exact warp_recordAt ..
  · rw [warp_recordAt, warp_recordAt]

theorem copyWord_done (hhome : p.migrated c.who = false) (h : CopyFits p c o kind toScratch) : p.copyWord c o kind toScratch =
    (tileRead p c o kind).issueCmd c { copyCmd p c o kind toScratch with reqs := (copyCmd p c o kind toScratch).rowReqs }
      ((copyCmd p c o kind toScratch).locks c.blk.dealt.asid) .go := by
  obtain ⟨hcommand, haligned, ⟨hfits, hsound⟩, htile, hindex, hring, hlisted, hslot⟩ := h
  have hodd : ¬(!(kind == .cpy) && fld 160 32 (tileOf p c o) % 4 != 0) = true := by
    cases hcpy : kind == .cpy
    · simp [hindex hcpy]
    · simp
  rw [copyWord_eq, atHome_of hhome, if_neg (by rw [hcommand]; exact Bool.false_ne_true), if_neg (by simp [haligned]),
    if_neg (Nat.not_lt.2 hfits), hsound]
  dsimp only
  rw [if_neg (by rw [htile]; exact Bool.false_ne_true), if_neg hodd, hring, hlisted]
  dsimp only
  rw [if_neg (by rw [hslot]; exact Bool.false_ne_true)]

/-- A word of rows whose checks pass has its command join. -/
theorem copyWord_joins {s : State} {i : Instr} {op : Nat} {g : Guard} (h : Issues s i op g c)
    (hexec : exec i s = s.issue i op g fun c p => p.copyWord c o kind toScratch) (hp : p = paid s c i) (hhome : p.migrated c.who = false)
    (hfits : CopyFits p c o kind toScratch) (hroom : ((tileRead p c o kind).core ((tileRead p c o kind).bcore c)).locks.length +
      ((copyCmd p c o kind toScratch).locks c.blk.dealt.asid).length ≤ 32) :
    Gives s c i (queued (tileRead p c o kind) c { copyCmd p c o kind toScratch with reqs := (copyCmd p c o kind toScratch).rowReqs }
      ((copyCmd p c o kind toScratch).locks c.blk.dealt.asid)) .go := by
  subst hp
  exact gives_of_done h hexec ((copyWord_done hhome hfits).trans (issueCmd_done hroom _ _)) (by rw [warp_queued, warp_tileRead])

/-- A word of rows with a slot of a ring, or without one, names a command. -/
theorem ring_fits (hga : o.ga = true → toScratch = false) (hplain : o.ring = false → 128 * o.id.toNat + 32 ≤ scrSize p c)
    (hring : o.ring = true → o.id.toNat ≤ 255 ∧ ∃ r, p.ring (p.bcore c) (p.bslot c) o.id.toNat = some r ∧ r.err = none ∧
      fld 32 16 (tileOf p c o) * strideOf p c o kind + p.quadReg c o.a 2 ≤ r.size) :
    noCommand p c o toScratch = false ∧ ringStop p c o = none ∧ slotSmall p c o kind = false := by
  have hno : (o.ga && toScratch) = false := by
    cases hg : o.ga
    · rfl
    · exact hga hg
  cases hmode : o.ring with
  | false => simp [noCommand, ringStop, slotSmall, hno, hmode, hplain hmode]
  | true =>
    obtain ⟨hid, r, hr, herr, hsize⟩ := hring hmode
    simp [noCommand, ringStop, slotSmall, hno, hmode, hid, hr, herr, hsize]

end

/-! The other commands -/

section
variable {s p : State} {c : Ctx} {i : Instr} {op : Nat} {a : BitVec 8} {id : BitVec 16}

/-- A completion BCB of a block lies in its scratch. -/
def BcbFits (p : State) (c : Ctx) (id : BitVec 16) : Prop := 128 * id.toNat + 32 ≤ scrSize p c

theorem bcbBeyond_of (h : BcbFits p c id) : p.bcbBeyond c id = false := decide_eq_false (Nat.not_lt.2 h)

/-- The command of an RSEND or an RGET but for its requests. -/
def sendCmd (p : State) (c : Ctx) (a : BitVec 8) (id : BitVec 16) (kind : CmdKind) (toScratch ga byp : Bool) : Cmd :=
  { Cmd.blank c.who c.pc (p.bslot c) kind (p.quadBase c a) (p.quadReg c a 2) with
    toScratch := toScratch, rowb := p.quadReg c a 3, sstride := p.quadReg c a 3, ga := ga, byp := byp, bcb := some (128 * id.toNat) }

theorem sendWord_done {kind : CmdKind} {toScratch ga byp : Bool} (hhome : p.migrated c.who = false) (hlow : 1 ≤ p.quadReg c a 3)
    (hhigh : p.quadReg c a 3 ≤ 2 ^ 20) (hbcb : BcbFits p c id) (hfits : p.quadReg c a 2 + p.quadReg c a 3 ≤ scrSize p c) :
    p.sendWord c a id kind toScratch ga byp =
      p.issueCmd c { sendCmd p c a id kind toScratch ga byp with reqs := (sendCmd p c a id kind toScratch ga byp).rowReqs }
        [⟨none, p.bslot c, true, c.blk.dealt.asid, p.quadReg c a 2, p.quadReg c a 2 + p.quadReg c a 3, toScratch⟩] .go := by
  unfold State.sendWord
  rw [atHome_of hhome]
  dsimp only
  rw [if_neg (by simp [bcbBeyond_of hbcb]; omega)]
  exact if_neg (Nat.not_lt.2 hfits)

/-- A word of one row whose checks pass has its command join. -/
theorem sendWord_joins {g : Guard} {kind : CmdKind} {toScratch ga byp : Bool} (h : Issues s i op g c)
    (hexec : exec i s = s.issue i op g fun c p => p.sendWord c a id kind toScratch ga byp) (hp : p = paid s c i) (hhome : p.migrated c.who = false)
    (hlow : 1 ≤ p.quadReg c a 3) (hhigh : p.quadReg c a 3 ≤ 2 ^ 20) (hbcb : BcbFits p c id)
    (hfits : p.quadReg c a 2 + p.quadReg c a 3 ≤ scrSize p c) (hroom : (p.core (p.bcore c)).locks.length + 1 ≤ 32) :
    Gives s c i (queued p c { sendCmd p c a id kind toScratch ga byp with reqs := (sendCmd p c a id kind toScratch ga byp).rowReqs }
      [⟨none, p.bslot c, true, c.blk.dealt.asid, p.quadReg c a 2, p.quadReg c a 2 + p.quadReg c a 3, toScratch⟩]) .go := by
  subst hp
  exact gives_of_done h hexec ((sendWord_done hhome hlow hhigh hbcb hfits).trans (issueCmd_done hroom _ _)) (by rw [warp_queued])

/-- The eight bytes of scratch from an offset on, as a word reads them at issue. -/
def wordOf (p : State) (c : Ctx) (a : Nat) : DWord := BitVec.ofNat 64 (p.recordAt c a 8).2

/-- The command of a RATOM. -/
def ratomCmd (p : State) (c : Ctx) (a : BitVec 8) (id : BitVec 16) (op : AtomOp) (b64 : Bool) : Cmd :=
  Cmd.ratom c.who c.pc (p.bslot c) (p.quadBase c a) (p.quadReg c a 2) (128 * id.toNat)
    (op, b64, wordOf p c (p.quadReg c a 2 + 0), wordOf p c (p.quadReg c a 2 + 8))

/-- A RATOM at its home. -/
def ratomWord (a : BitVec 8) (id : BitVec 16) (op : AtomOp) (b64 : Bool) (c : Ctx) (p : State) : Res :=
  if p.quadReg c a 3 != 0 || (isFadd op && b64) || p.bcbBeyond c id then trapAux p c .illegal 0 0
  else if p.quadReg c a 2 % 32 != 0 then trapAux p c .align (p.quadReg c a 2) 0
  else if p.quadReg c a 2 + 32 > scrSize p c then trapAux p c .notPresent (p.quadReg c a 2) 0
  else match (p.scratch (p.bcore c) (p.bslot c)).badAt (p.quadReg c a 2) 16 with
    | some k => p.refuseAtIssue c (ratomCmd p c a id op b64) k .switch
    | none => (p.recordAt c (p.quadReg c a 2) 16).1.issueCmd c (ratomCmd p c a id op b64)
        [⟨none, p.bslot c, true, c.blk.dealt.asid, p.quadReg c a 2, p.quadReg c a 2 + 32, true⟩] .switch

theorem exec_ratom (a : BitVec 8) (id : BitVec 16) (op : AtomOp) (b64 : Bool) (s : State) : exec (.ratom a id op b64) s =
    s.issue (.ratom a id op b64) 0x85 noGuard fun c p => p.atHome c (ratomWord a id op b64 c) := rfl

theorem ratomWord_done {op : AtomOp} {b64 : Bool} (hzero : p.quadReg c a 3 = 0) (hop : isFadd op = true → b64 = false) (hbcb : BcbFits p c id)
    (haligned : p.quadReg c a 2 % 32 = 0) (hfits : p.quadReg c a 2 + 32 ≤ scrSize p c) (hsound : Sound p c (p.quadReg c a 2) 16) :
    ratomWord a id op b64 c p = (p.recordAt c (p.quadReg c a 2) 16).1.issueCmd c (ratomCmd p c a id op b64)
      [⟨none, p.bslot c, true, c.blk.dealt.asid, p.quadReg c a 2, p.quadReg c a 2 + 32, true⟩] .switch := by
  have hno : (isFadd op && b64) = false := by
    cases h : isFadd op
    · rfl
    · exact hop h
  unfold ratomWord
  rw [if_neg (by simp [hzero, hno, bcbBeyond_of hbcb]), if_neg (by simp [haligned]), if_neg (Nat.not_lt.2 hfits), hsound.2]

/-- The load record of an LDIMG. -/
def loadRecordOf (p : State) (c : Ctx) (a : BitVec 8) : BitVec 256 := BitVec.ofNat 256 (p.recordAt c (p.quadReg c a 2) 32).2

/-- The command of an LDIMG. -/
def ldimgCmd (p : State) (c : Ctx) (a : BitVec 8) (id : BitVec 16) : Cmd :=
  { Cmd.blank c.who c.pc (p.bslot c) .ldimg (p.quadBase c a) (p.quadReg c a 2) with
    ga := true, bcb := some (128 * id.toNat), reqs := [⟨0, 0, 64, 0, 0, none, false, false, none⟩]
    image := some ⟨(loadRecordOf p c a).extractLsb' 0 64, fld 64 32 (loadRecordOf p c a), fld 96 32 (loadRecordOf p c a), 0, [], 0, []⟩ }

/-- An LDIMG at its home. -/
def ldimgWord (a : BitVec 8) (id : BitVec 16) (c : Ctx) (p : State) : Res :=
  if p.quadReg c a 3 != 0 || p.bcbBeyond c id then trapAux p c .illegal 0 0
  else if p.quadReg c a 2 % 32 != 0 then trapAux p c .align (p.quadReg c a 2) 0
  else if p.quadReg c a 2 + 32 > scrSize p c then trapAux p c .notPresent (p.quadReg c a 2) 0
  else match (p.scratch (p.bcore c) (p.bslot c)).badAt (p.quadReg c a 2) 32 with
    | some k => p.refuseAtIssue c (ldimgCmd p c a id) k .go
    | none =>
      if fld 128 128 (loadRecordOf p c a) != 0 || ((loadRecordOf p c a).extractLsb' 0 64).toNat % 128 != 0 then trapAux p c .illegal 0 0
      else (p.recordAt c (p.quadReg c a 2) 32).1.issueCmd c (ldimgCmd p c a id)
        [⟨none, p.bslot c, true, c.blk.dealt.asid, p.quadReg c a 2, p.quadReg c a 2 + 32, false⟩] .go

theorem exec_ldimg (a : BitVec 8) (id : BitVec 16) (s : State) : exec (.ldimg a id) s =
    s.issue (.ldimg a id) 0x86 noGuard fun c p => p.atHome c (ldimgWord a id c) := rfl

theorem ldimgWord_done (hzero : p.quadReg c a 3 = 0) (hbcb : BcbFits p c id) (haligned : p.quadReg c a 2 % 32 = 0)
    (hsound : Sound p c (p.quadReg c a 2) 32) (hreserved : fld 128 128 (loadRecordOf p c a) = 0) (hdest : fld 0 64 (loadRecordOf p c a) % 128 = 0) :
    ldimgWord a id c p = (p.recordAt c (p.quadReg c a 2) 32).1.issueCmd c (ldimgCmd p c a id)
      [⟨none, p.bslot c, true, c.blk.dealt.asid, p.quadReg c a 2, p.quadReg c a 2 + 32, false⟩] .go := by
  have hdest' : ((loadRecordOf p c a).extractLsb' 0 64).toNat % 128 = 0 := by
    simpa [fld, BitVec.extractLsb'_toNat, Nat.shiftRight_eq_div_pow] using hdest
  unfold ldimgWord
  rw [if_neg (by simp [hzero, bcbBeyond_of hbcb]), if_neg (by simp [haligned]), if_neg (Nat.not_lt.2 hsound.1), hsound.2]
  exact if_neg (by rw [hreserved, hdest']; decide)

end

end Sys2Proof.MemWords
end

section
/-! SUPPORT. The requests of a core's commands: start, translation again, completion (08 R146; 23 R370). -/

namespace Sys2Proof.MemWords

open Sys2Proof Sys2Proof.Machine Sys2Proof.Safety Sys2Proof.Laws Sys2Proof.Stream

/-! The start of a request -/

theorem cores_tlbFill (s : State) (core asid : Nat) (va : DWord) : (s.tlbFill core asid va).cores = s.cores := by
  unfold State.tlbFill
  split <;> rfl
theorem bytes_tlbFill (s : State) (core asid : Nat) (va : DWord) : (s.tlbFill core asid va).mem.mem = s.mem.mem := by
  unfold State.tlbFill
  split <;> rfl
theorem cores_sendPeer (s : State) (p a n : Nat) : (s.sendPeer p a n).cores = s.cores := by
  unfold State.sendPeer
  split <;> rfl
theorem bytes_sendPeer (s : State) (p a n : Nat) : (s.sendPeer p a n).mem.mem = s.mem.mem := by
  unfold State.sendPeer
  split <;> rfl

theorem mem_updCmd_cmds {s : State} {core : Nat} {x : Cmd} (h : x ∈ (s.core core).cmds) (f : Cmd → Cmd) :
    f x ∈ ((s.updCmd core x.seq f).core core).cmds := by
  rw [State.updCmd, core_updCore_same]
  exact List.mem_map.2 ⟨x, h, if_pos rfl⟩

/-- A request's translation is kept, and its bytes leave for the peer. -/
def translated (s : State) (core : Nat) (x : Cmd) (r : Req) (a : Nat) (q : Option Nat) : State :=
  let s := match s.block core x.blk with | some b => s.tlbFill core b.dealt.asid ((x.reqAddr r).getD 0) | none => s
  match q with | some k => s.sendPeer k a r.n | none => s

theorem translated_keeps (s : State) (core : Nat) (x : Cmd) (r : Req) (a : Nat) (q : Option Nat) :
    (translated s core x r a q).cores = s.cores ∧ (translated s core x r a q).mem.mem = s.mem.mem := by
  unfold translated
  cases s.block core x.blk <;> cases q <;> simp only [cores_tlbFill, bytes_tlbFill, cores_sendPeer, bytes_sendPeer, and_self]

/-- A request of a command in flight. -/
def started (x : Cmd) (r : Req) (rest : List Req) (a h : Nat) (q : Option Nat) (y : Bool) (z : Cmd) : Cmd :=
  { z with reqs := rest, flight := z.flight ++ [{ r with phys := a, home := h, peer := q, byp := x.byp || y, held := none }] }

theorem startReq_go {s : State} {core : Nat} {x : Cmd} {r : Req} {rest : List Req} {a h : Nat} {q : Option Nat} {y : Bool} (hreqs : x.reqs = r :: rest)
    (hway : s.reqWay core x r = .go a h q y) :
    s.startReq core x = (translated s core x r a q).updCmd core x.seq (started x r rest a h q y) := by
  unfold State.startReq
  rw [hreqs]
  dsimp only
  rw [hway]
  rfl

/-- The oldest request that may start is in flight, where no command waits for its slot. -/
theorem copyRequestStart_starts {s : State} {core : Nat} {x : Cmd} {r : Req} {rest : List Req} {a h : Nat} {q : Option Nat} {y : Bool}
    (hslots : ((s.core core).cmds.all fun y => y.ring.isNone || y.slot.isSome || y.refused.isSome) = true)
    (hroom : ((s.core core).cmds.map fun y => y.flight.length).sum < 48)
    (hfind : (s.core core).cmds.find? (fun x => x.ready && x.reqs.head?.any fun r => s.tick.reqWay core x r != .busy) = some x)
    (hreqs : x.reqs = r :: rest) (hway : s.tick.reqWay core x r = .go a h q y) :
    ∃ t, Runs (.copyRequestStart core) s t ∧ t.mem.mem = s.mem.mem ∧ started x r rest a h q y x ∈ (t.core core).cmds := by
  have hnone : (s.core core).cmds.filter (fun x => x.ring.isSome && x.slot.isNone && x.refused.isNone) = [] := by
    refine List.filter_eq_nil_iff.2 fun y hy => ?_
    have hready := List.all_eq_true.1 hslots y hy
    intro hwait
    simp only [Bool.and_eq_true, Option.isNone_iff_eq_none, Option.isSome_iff_ne_none] at hwait
    obtain ⟨⟨hring, hslot⟩, hrefused⟩ := hwait
    simp [hring, hslot, hrefused] at hready
  have hrun : exec (.copyRequestStart core) s = .next (s.tick.startReq core x) := by
    show execCopyRequestStart core s = _
    unfold execCopyRequestStart
    dsimp only
    rw [show (s.tick.core core).cmds = (s.core core).cmds from rfl, hnone, List.foldl_nil,
      show (s.tick.core core).cmds = (s.core core).cmds from rfl, if_neg (Nat.not_le.2 hroom), hfind]
  obtain ⟨hcores, hbytes⟩ := translated_keeps s.tick core x r a q
  rw [startReq_go hreqs hway] at hrun
  refine ⟨_, hrun, hbytes, mem_updCmd_cmds ?_ _⟩
  rw [State.core, hcores]
  exact List.mem_of_find?_eq_some hfind

/-! A held request translated again -/

/-- A held request whose page no longer faults may start. -/
theorem requestRetranslate_frees {s : State} {core : Nat} {x : Cmd} {r : Req} {c : Cause × DWord} (hcmds : (s.core core).cmds = [x])
    (hhead : x.reqs.head? = some r) (hheld : r.held = some c) (hhold : ∀ e, s.tick.heldWay core x r ≠ .hold e)
    (hbusy : s.tick.heldWay core x r ≠ .busy) :
    ∃ t, Runs (.requestRetranslate core) s t ∧ t.mem = s.mem ∧ (t.core core).cmds = [{ x with reqs := { r with held := none } :: x.reqs.drop 1 }] := by
  obtain ⟨rest, hreqs⟩ := List.head?_eq_some_iff.1 hhead
  have hretry : s.tick.retry core x = s.tick.updCmd core x.seq fun y => { y with reqs := { r with held := none } :: rest } := by
    unfold State.retry
    rw [hreqs]
    dsimp only
    rw [hheld]
    cases hway : s.tick.heldWay core x r with
    | busy => exact absurd hway hbusy
    | hold e => exact absurd hway (hhold e)
    | go => rfl
    | refuse => rfl
  have hrun : exec (.requestRetranslate core) s = .next (s.tick.retry core x) := by
    show Host.Outcome.next ((s.tick.core core).cmds.foldl (fun s x => s.retry core x) s.tick) = _
    rw [show (s.tick.core core).cmds = [x] from hcmds, List.foldl_cons, List.foldl_nil]
  refine ⟨_, hrun.trans (congrArg _ hretry), rfl, ?_⟩
  rw [State.updCmd, core_updCore_same]
  show (s.core core).cmds.map _ = _
  rw [hcmds, hreqs, List.map_singleton, if_pos rfl]
  rfl

/-! A completed request -/

/-- A request of an RSEND to the other die's home (23 R370). -/
def Away (core : Nat) (x : Cmd) (r : Req) : Prop := x.kind = .rsend ∧ r.peer = none ∧ x.ga = false ∧ r.home ≠ dieOf core

/-- The end of a request of rows, out of flight. -/
def finishedReq (q : State) (core : Nat) (x : Cmd) (region : Nat) (r : Req) : Out :=
  match x.kind, x.image with
  | .rsend, _ =>
    if r.sent then .next (q.completeReq core x r.n)
    else if r.peer.isNone && !x.ga && r.home != dieOf core then .next (q.sendOut core x region r)
    else .next ((q.moveReq core x region r).completeReq core x r.n)
  | _, _ => .next ((q.moveReq core x region r).completeReq core x r.n)

section
variable {q : State} {core region : Nat} {x : Cmd} {r : Req}

theorem finishedReq_moves (hsent : r.sent = false) (haway : ¬Away core x r) :
    finishedReq q core x region r = .next ((q.moveReq core x region r).completeReq core x r.n) := by
  unfold finishedReq
  split
  next hkind =>
    rw [if_neg (by rw [hsent]; exact Bool.false_ne_true), if_neg fun h => haway ?_]
    simp only [Bool.and_eq_true, Option.isNone_iff_eq_none, Bool.not_eq_true', bne_iff_ne] at h
    exact ⟨hkind, h.1.1, h.1.2, h.2⟩
  next => rfl

theorem finishedReq_sends (hsent : r.sent = false) (haway : Away core x r) : finishedReq q core x region r = .next (q.sendOut core x region r) := by
  obtain ⟨hkind, hpeer, hga, hhome⟩ := haway
  simp [finishedReq, hkind, hsent, hpeer, hga, hhome]

theorem finishedReq_ends (hsent : r.sent = true) (hkind : x.kind = .rsend) : finishedReq q core x region r = .next (q.completeReq core x r.n) := by
  simp [finishedReq, hkind, hsent]

end

section
variable {s : State} {core i : Nat} {x : Cmd} {r : Req} {b : Block}

/-- A request of rows that nothing makes wait completes. -/
theorem copyRequestComplete_finishes (hflight : s.flightAt core i = some (x, r)) (hblock : s.block core x.blk = some b) (hatom : x.kind ≠ .ratom)
    (himage : x.kind ≠ .ldimg) (hwaits : x.toScratch = true → s.tick.engineWaits core r.byp r r.n = false)
    (hlink : r.sent = true → ∀ m ∈ s.mem.msgs, m.kind = .ef → m.who = x.party → (span r.phys r.n).any (msgCovers m) = false) :
    exec (.copyRequestComplete core i) s = finishedReq (s.tick.updCmd core x.seq fun z => { z with flight := z.flight.erase r }) core
      { x with flight := x.flight.erase r } b.dealt.region r := by
  have hreads : ¬(x.toScratch && (x.kind != .ldimg) && s.tick.engineWaits core (r.byp || x.kind == .ratom) r (if x.kind = .ratom then 8 else r.n) ||
      s.tick.ratomWaits x) = true := by
    have hplain : (x.kind == .ratom) = false := beq_eq_false_iff_ne.2 hatom
    cases hto : x.toScratch
    · simp [State.ratomWaits, hplain]
    · simp [State.ratomWaits, hplain, hatom, hwaits hto]
  have hsent : ¬(r.sent && s.tick.mem.msgs.any fun m => m.kind == .ef && m.who == x.party && (span r.phys r.n).any (msgCovers m)) = true := by
    simp only [Bool.and_eq_true, List.any_eq_true (l := s.tick.mem.msgs), beq_iff_eq, not_and, not_exists]
    rintro hr m hm ⟨hkind, hwho⟩ hcovers
    exact Bool.false_ne_true ((hlink hr m hm hkind hwho).symm.trans hcovers)
  show execCopyRequestComplete core i s = _
  unfold execCopyRequestComplete
  dsimp only
  rw [show s.tick.flightAt core i = some (x, r) from hflight]
  dsimp only
  rw [show s.tick.block core x.blk = some b from hblock]
  dsimp only
  rw [if_neg hreads, if_neg hsent]
  unfold finishedReq
  dsimp only
  cases hkind : x.kind with
  | ratom => exact absurd hkind hatom
  | ldimg => exact absurd hkind himage
  | rsend => rfl
  | _ => rfl

end

/-! The bytes of a request moved to scratch -/

theorem cores_engineRead (s : State) (w : Who) (r : Req) (n : Nat) : (s.engineRead w r n).1.cores = s.cores := by
  unfold State.engineRead
  split
  · rfl
  · split
    · show (s.readHome ..).cores = _
      unfold State.readHome
      split <;> rfl
    · show (s.addGuest ..).cores = _
      unfold State.addGuest
      split <;> rfl

theorem length_engineRead (s : State) (w : Who) (r : Req) (n : Nat) : (s.engineRead w r n).2.length = n := by
  unfold State.engineRead
  split
  · simp [Tbl.getList]
  · split <;> simp [span, State.pathBytes]

/-- Bytes stored in scratch one by one, those beyond its size left out. -/
def storedEach (a : Nat) (x : Tbl Byte × Nat) (bs : List Byte) : Tbl Byte × Nat :=
  (List.zip (List.range bs.length) bs).foldl (fun x e => storeIn x (a + e.1) [e.2]) x

theorem storedEach_append (a : Nat) (x : Tbl Byte × Nat) (bs : List Byte) (v : Byte) :
    storedEach a x (bs ++ [v]) = storeIn (storedEach a x bs) (a + bs.length) [v] := by
  rw [storedEach, List.length_append, List.length_singleton, List.range_succ, List.zip_append (by simp), List.foldl_append]
  rfl

theorem get_storeIn_one (x : Tbl Byte × Nat) (a : Nat) (v : Byte) (k : Nat) :
    Tbl.get 0 (storeIn x a [v]).1 k = if k = a ∧ k < x.2 then v else Tbl.get 0 x.1 k := by
  rw [storeIn, Tbl_get_setList]
  by_cases hk : k = a
  · subst hk
    by_cases hin : k < x.2
    · obtain ⟨m, hm⟩ : ∃ m, x.2 - k = m + 1 := ⟨x.2 - k - 1, by omega⟩
      simp [hin, hm]
    · simp [hin, Nat.sub_eq_zero_of_le (Nat.not_lt.1 hin)]
  · rw [if_neg, if_neg (by simp [hk])]
    simp only [List.length_take, List.length_singleton]
    omega

theorem get_storedEach (a : Nat) (x : Tbl Byte × Nat) (bs : List Byte) : (storedEach a x bs).2 = x.2 ∧ ∀ k,
    Tbl.get 0 (storedEach a x bs).1 k = if a ≤ k ∧ k < a + bs.length ∧ k < x.2 then (bs[k - a]?).getD 0 else Tbl.get 0 x.1 k := by
  induction bs using List.reverseRecOn with
  | nil => exact ⟨rfl, fun k => (if_neg (by simp; omega)).symm⟩
  | append_singleton bs v ih =>
    obtain ⟨hsize, hget⟩ := ih
    rw [storedEach_append]
    refine ⟨hsize, fun k => ?_⟩
    rw [get_storeIn_one, hsize, hget, List.length_append, List.length_singleton]
    by_cases hk : k = a + bs.length
    · subst hk
      simp
    · rw [if_neg (by simp [hk])]
      by_cases hin : a ≤ k ∧ k < a + bs.length ∧ k < x.2
      · rw [if_pos hin, if_pos (by omega), List.getElem?_append_left (by omega)]
      · rw [if_neg hin, if_neg (by omega)]

theorem contents_scrStores (core b : Nat) (w : Who) (a : Nat) (l : List (Nat × Byte)) (s : State) :
    ((l.foldl (fun s e => s.scrStore core b w .ewr (a + e.1) [e.2]) s).block core b).map contents =
      ((s.block core b).map contents).map fun y => l.foldl (fun y e => storeIn y (a + e.1) [e.2]) y := by
  induction l generalizing s with
  | nil => exact Option.map_id'.symm
  | cons e l ih =>
    rw [List.foldl_cons, ih, contents_scrStore, Option.map_map]
    rfl

theorem engineScr_eq {x : Cmd} (hswz : x.swz = 0) (s : State) (core off row lo : Nat) (bs : List Byte) : s.engineScr core x off row lo bs =
    (List.zip (List.range bs.length) bs).foldl (fun s e => s.scrStore core x.blk x.party .ewr (off + x.soff + row * x.sstride + lo + e.1) [e.2]) s := by
  have haddr (j : Nat) : x.scrAddr off row (lo + j) = off + x.soff + row * x.sstride + lo + j := by
    simp [Cmd.scrAddr, swizzle, hswz, Nat.add_assoc]
  unfold State.engineScr
  simp only [haddr]

/-- A request of rows to scratch moves its bytes (08 R145, R146). -/
theorem moveReq_moves {s : State} {core : Nat} {x : Cmd} {b : Block} (region : Nat) (r : Req) (hblock : s.block core x.blk = some b)
    (hto : x.toScratch = true) (hswz : x.swz = 0) :
    let a := s.cmdSlot core x + x.soff + r.row * x.sstride + r.lo
    ∃ b', (s.moveReq core x region r).block core x.blk = some b' ∧ ∀ k, Tbl.get 0 b'.scratch.bytes k =
      if a ≤ k ∧ k < a + r.n ∧ k < b.scratch.size then ((s.engineRead x.party r r.n).2[k - a]?).getD 0 else Tbl.get 0 b.scratch.bytes k := by
  intro a
  have hmove : s.moveReq core x region r =
      (s.engineRead x.party r r.n).1.engineScr core x (s.cmdSlot core x) r.row r.lo (s.engineRead x.party r r.n).2 := by
    rw [State.moveReq, if_pos hto]
  have hcontents : ((s.moveReq core x region r).block core x.blk).map contents =
      some (storedEach a (contents b) (s.engineRead x.party r r.n).2) := by
    rw [hmove, engineScr_eq hswz, contents_scrStores, block_of_cores (cores_engineRead ..), hblock]
    rfl
  obtain ⟨b', hb', hstored⟩ := Option.map_eq_some_iff.1 hcontents
  refine ⟨b', hb', fun k => ?_⟩
  rw [show b'.scratch.bytes = (storedEach a (contents b) (s.engineRead x.party r r.n).2).1 from congrArg Prod.fst hstored, (get_storedEach ..).2,
    length_engineRead]
  rfl

end Sys2Proof.MemWords
end

section
/-! Engine commands, their locks, and their requests (08 R144 to R149; 13 R256; 20 R305; 21 R331; 22 R343; 23 R369 to R371, R380). -/

namespace Sys2Proof.MemWords

open Sys2Proof Sys2Proof.Machine Sys2Proof.Safety Sys2Proof.Laws Sys2Proof.Stream

/-- A word of rows with its opcode, the kind of its command and its way. -/
def CopiesWith (o : CmdF) (i : Instr) (op : Nat) (kind : CmdKind) (toScratch : Bool) : Prop :=
  ∀ s, exec i s = s.issue i op noGuard fun c p => p.copyWord c o kind toScratch

theorem copiesWith_of_mem {o : CmdF} {e : Instr × Nat × CmdKind × Bool}
    (he : e ∈ [((.cpy o : Instr), 0x80, CmdKind.cpy, !o.s2g), (.gth o, 0x81, .gth, true), (.sct o, 0x82, .sct, false)]) :
    CopiesWith o e.1 e.2.1 e.2.2.1 e.2.2.2 := by
  simp only [List.mem_cons, List.not_mem_nil, or_false] at he
  rcases he with rfl | rfl | rfl <;> exact fun _ => rfl

/-- A word of one row with its opcode, the kind of its command, its way and its memory class. -/
def SendsWith (a : BitVec 8) (id : BitVec 16) (pol : Policy) (i : Instr) (op : Nat) (kind : CmdKind) (toScratch ga : Bool) : Prop :=
  ∀ s, exec i s = s.issue i op noGuard fun c p => p.sendWord c a id kind toScratch ga (pol == .byp)

theorem sendsWith_of_mem {a : BitVec 8} {id : BitVec 16} {pol : Policy} {ga : Bool} {e : Instr × Nat × CmdKind × Bool × Bool}
    (he : e ∈ [((.rsend a id pol ga : Instr), 0x83, CmdKind.rsend, false, ga), (.rget a id pol, 0x84, .rget, true, false)]) :
    SendsWith a id pol e.1 e.2.1 e.2.2.1 e.2.2.2.1 e.2.2.2.2 := by
  simp only [List.mem_cons, List.not_mem_nil, or_false] at he
  rcases he with rfl | rfl <;> exact fun _ => rfl

theorem indexBad_of {p : State} {c : Ctx} {o : CmdF} {kind : CmdKind}
    (h : (kind == .cpy) = false → Sound p c (fld 160 32 (tileOf p c o)) (4 * fld 32 16 (tileOf p c o))) : indexBad p c o kind = none := by
  unfold indexBad
  split
  · rfl
  · exact (h (Bool.eq_false_iff.2 ‹_›)).2

/-- Settles O50: each word checks, then queues its command with its locks; its requests start in order and move their bytes as they
complete. -/
theorem engineCommands : Obligations.EngineCommands := by
  unfold Obligations.EngineCommands
  intro joins size bcb sound record blank
  refine ⟨?rows, ?send, ?ratom, ?ldimg, ?start, ?retranslate, ?complete, ?move⟩
  case rows =>
    intro o s c e he p rec_ t rowb rows cpy stride idx soff x h hga hplain hring haligned hrecord hf1 hf2 hr1 hr2 hr3 hr4 hr5 hstride hindex hswz
      read hhome hroom
    obtain ⟨hcommand, hstop, hslot⟩ := ring_fits (kind := e.2.2.1) hga (fun h => (hplain h).1) hring
    have htile : TileFits p c o e.2.2.1 := ⟨hf1, hf2, hr1, hr2, hr3, hr4, hr5, hstride, fun h => (hplain h).2, fun hc => (hindex hc).2.1, hswz⟩
    exact copyWord_joins h (copiesWith_of_mem he s) rfl hhome ⟨hcommand, haligned, hrecord, tileBad_of htile, fun hc => (hindex hc).1, hstop,
      indexBad_of fun hc => (hindex hc).2, hslot⟩ hroom
  case send =>
    intro a id pol ga s c e he p n off x h hlow hhigh hbcb hfits hhome hroom
    exact sendWord_joins h (sendsWith_of_mem he s) rfl hhome hlow hhigh hbcb hfits hroom
  case ratom =>
    intro a id op b64 s c i p off word h hzero hop hbcb haligned hfits hsound hhome hroom
    exact joins_of h (exec_ratom a id op b64 s) hhome (ratomWord_done hzero hop hbcb haligned hfits hsound) (warp_recordAt ..) hroom
  case ldimg =>
    intro a id s c i p off t h hzero hbcb haligned hsound hreserved hdest hhome hroom
    exact joins_of h (exec_ldimg a id s) hhome (ldimgWord_done hzero hbcb haligned hsound hreserved hdest) (warp_recordAt ..) hroom
  case start => exact fun s core x r rest a h q y hslots hroom hfind hreqs hway => copyRequestStart_starts hslots hroom hfind hreqs hway
  case retranslate => exact fun s core x r c hcmds hhead hheld hhold hbusy => requestRetranslate_frees hcmds hhead hheld hhold hbusy
  case complete =>
    intro s core i x r b hflight hblock hatom himage hwaits y q away
    have hends := copyRequestComplete_finishes hflight hblock hatom himage hwaits
    refine ⟨fun hsent haway => ?_, fun hsent haway => ?_, fun hsent hkind hlink => ?_⟩
    · exact (hends fun h => absurd (hsent.symm.trans h) Bool.false_ne_true).trans (finishedReq_moves hsent haway)
    · exact (hends fun h => absurd (hsent.symm.trans h) Bool.false_ne_true).trans (finishedReq_sends hsent haway)
    · exact (hends fun _ => hlink).trans (finishedReq_ends hsent hkind)
  case move => exact fun s core region x r b hblock hto hswz => moveReq_moves region r hblock hto hswz

end Sys2Proof.MemWords
end
